-- ==== Sys2Proof/Word.lean ====
section
/-! DEFINITION. The words of the machine (R7) and their plainest names. -/

namespace Sys2Proof

/-- A byte (R7). -/
abbrev Byte := BitVec 8

/-- A 64-bit scalar register's value, an address, a CSR value (R7, R121). -/
abbrev Dbl := BitVec 64

/-- A 96-bit instruction word (R47) or extension word (R54). -/
abbrev IWord := BitVec 96

/-- The bytes of a 64-byte fetch line as one number, byte 0 lowest (R39). -/
abbrev Line := BitVec 512

/-- A vector register or vector queue slot at the largest VLEN, 8,192 bytes, byte 0 lowest (R135). -/
abbrev VVal := BitVec 65536

/-- A mask register or written-element map, bit i for element i (R136, R352). -/
abbrev MVal := BitVec 8192

/-- A tile: word 64·r + c is element (r, c) (R214). -/
abbrev TileVal := BitVec 131072

end Sys2Proof
end

