-- ==== Sys2Proof/Syntax.lean ====
section
/-! DEFINITION. The instructions: one constructor per row of the opcode table, over argument structures
that hold the decoded fields of the instruction word (R47 to R54 and the entries), and the events of the
machine with the data that arrives in them. -/

namespace Sys2Proof

/-- A guard field (R48): index 31, or a predicate (A side) or mask (X side) with its negate bit. -/
inductive Guard where
  | always
  | reg (neg : Bool) (r : BitVec 5)
  deriving DecidableEq, Repr

/-- The two guards of an instruction; they combine by AND (R48). -/
structure Guards where
  a : Guard
  b : Guard
  deriving DecidableEq, Repr

/-- The fields every X-side instruction carries: its guards and its SCH bits
(bit 2 reuse, bit 1 yield, bit 0 solo; R47, R115). -/
structure XCtl where
  g : Guards
  sch : BitVec 3
  deriving DecidableEq, Repr

/-- A scalar register s0 to s63. -/
abbrev SReg := BitVec 6
/-- A vector register v0 to v31. -/
abbrev VReg := BitVec 5
/-- A mask register m0 to m23 (WellFormed bounds it). -/
abbrev MReg := BitVec 5
/-- A predicate p0 to p7. -/
abbrev PReg := BitVec 3
/-- An A-to-X queue lq0 to lq3. -/
abbrev LQ := BitVec 2
/-- An X-to-A vector queue sq0, sq1. -/
abbrev SQ := BitVec 1

/-- A vector source: "v or lq". -/
inductive VSrc where
  | v (r : VReg)
  | lq (q : LQ)
  deriving DecidableEq, Repr

/-- A vector destination: "v or sq". -/
inductive VDst where
  | v (r : VReg)
  | sq (q : SQ)
  deriving DecidableEq, Repr

/-- "v, lq or s". -/
inductive VSrcS where
  | vec (x : VSrc)
  | s (r : SReg)
  deriving DecidableEq, Repr

/-- The destination of a reduction: a vector register or xq (R156, R173). -/
inductive RDst where
  | v (r : VReg)
  | xq
  deriving DecidableEq, Repr

/-- The destination of CBST: v, sq or xq (R208). -/
inductive CbDst where
  | vec (d : VDst)
  | xq
  deriving DecidableEq, Repr

/-- The queue QDROP names (R130). -/
inductive DropQ where
  | sq (q : SQ)
  | xq
  deriving DecidableEq, Repr

/-- The third operand of an immediate form of group 0x1: its own IMM, or an extension's 64 bits (R54). -/
inductive Imm where
  | imm (i : BitVec 32)
  | ext (v : BitVec 64)
  deriving DecidableEq, Repr

/-- The conditions of CMP (R133). -/
inductive Cond where
  | eq | ne | lt | ge | ltu | geu | gt | le | gtu | leu | tst | tstn
  deriving DecidableEq, Repr

/-- The conditions of VFCMP (R170). -/
inductive FCond where
  | eq | ne | lt | ge | gt | le | uo | ord
  deriving DecidableEq, Repr

/-- The hint of a load: none, .st, .kp, or .ct with its count register (R52, R243). -/
inductive LHint where
  | none | st | kp
  | ct (c : SReg)
  deriving DecidableEq, Repr

/-- The hint of a store or engine command: none, .st, .kp. -/
inductive SHint where
  | none | st | kp
  deriving DecidableEq, Repr

/-- The five scopes (R331). -/
inductive Scope where
  | hart | core | die | package | domain
  deriving DecidableEq, Repr

/-- The kinds of an ordering access (R242). -/
inductive OKind where
  | acq | rel | ar
  deriving DecidableEq, Repr

/-- The ordering field of a scalar access (R242). -/
inductive Ord where
  | plain
  | ord (k : OKind) (s : Scope)
  deriving DecidableEq, Repr

/-- The source of CSRW, CSRSET, CSRCLR: a register other than s0, or the 20-bit immediate (R128). -/
inductive CsrSrc where
  | reg (r : SReg)
  | imm (i : BitVec 20)
  deriving DecidableEq, Repr

/-- The CSRs of a hart (R123). -/
inductive Csr where
  | vl | vlh | vlmax | vlcap | shp | ffe | vsat | fflags | srseed
  | tagmap | tagown | cbown | tilown | leases
  | cx | cy | cw | ch | hid | nh | lanes
  | ccount | icount | bnd0 | bnd1 | bnd2
  | tvec | tcause | tside | tpc | teix | tval | tstat | tscratch | txw
  | ptbase | savearea
  deriving DecidableEq, Repr

/-- Guards only: NOP, RET, EXIT, XSYNC, ERET, NBFENCE. -/
structure Bare where
  g : Guards
  deriving DecidableEq, Repr

/-- Guards and IMM 31:0: BR, CALL, TRAP, BKPT (R126, R349). -/
structure GImm where
  g : Guards
  imm : BitVec 32
  deriving DecidableEq, Repr

/-- JMP (R126). -/
structure Jmp where
  g : Guards
  a : SReg
  deriving DecidableEq, Repr

/-- STRIP: the count, four pointers with size codes, the slot offset (R127). -/
structure Strip where
  g : Guards
  n : SReg
  p2 : SReg
  p3 : SReg
  p4 : SReg
  p5 : SReg
  z2 : BitVec 2
  z3 : BitVec 2
  z4 : BitVec 2
  z5 : BitVec 2
  off : BitVec 20
  deriving DecidableEq, Repr

/-- VSETL: as STRIP without an offset (R127). -/
structure Vsetl where
  g : Guards
  n : SReg
  p2 : SReg
  p3 : SReg
  p4 : SReg
  p5 : SReg
  z2 : BitVec 2
  z3 : BitVec 2
  z4 : BitVec 2
  z5 : BitVec 2
  deriving DecidableEq, Repr

/-- YIELD (R103). -/
structure Yield where
  g : Guards
  n : BitVec 10
  deriving DecidableEq, Repr

/-- CSRR (R128). -/
structure CsrRd where
  g : Guards
  d : SReg
  c : Csr
  deriving DecidableEq, Repr

/-- CSRW, CSRSET, CSRCLR (R128). -/
structure CsrWr where
  g : Guards
  c : Csr
  src : CsrSrc
  deriving DecidableEq, Repr

/-- FENCE (R337). -/
structure Fence where
  g : Guards
  k : OKind
  s : Scope
  deriving DecidableEq, Repr

/-- TLBINV (R350). -/
structure Tlbinv where
  g : Guards
  a : SReg
  k : BitVec 2
  deriving DecidableEq, Repr

/-- Three scalar sources in OP2 to OP4: SETBND (R194). -/
structure A3 where
  g : Guards
  a : SReg
  b : SReg
  c : SReg
  deriving DecidableEq, Repr

/-- Register form of group 0x1: sD, sA, sB (R131). -/
structure ABin where
  g : Guards
  d : SReg
  a : SReg
  b : SReg
  deriving DecidableEq, Repr

/-- Immediate form of group 0x1: sD, sA and an immediate or extension (R53, R54, R131). -/
structure AImm where
  g : Guards
  d : SReg
  a : SReg
  i : Imm
  deriving DecidableEq, Repr

/-- sD, sA: CLZ, CTZ, POPC, MOV. -/
structure AUn where
  g : Guards
  d : SReg
  a : SReg
  deriving DecidableEq, Repr

/-- sD, sA and a width: SEXT, ZEXT. -/
structure AUnZ where
  g : Guards
  d : SReg
  a : SReg
  z : BitVec 2
  deriving DecidableEq, Repr

/-- MOVI with its own IMM. -/
structure Movi where
  g : Guards
  d : SReg
  i : BitVec 32
  deriving DecidableEq, Repr

/-- MOVI with an extension (R18, R54). -/
structure MoviX where
  g : Guards
  d : SReg
  v : BitVec 64
  deriving DecidableEq, Repr

/-- SEL (R133). -/
structure Sel where
  g : Guards
  d : SReg
  neg : Bool
  p : PReg
  a : SReg
  i : Imm
  deriving DecidableEq, Repr

/-- CMP (R133). -/
structure Cmp where
  g : Guards
  d : PReg
  a : SReg
  b : SReg
  c : Cond
  deriving DecidableEq, Repr

/-- CMPI (R133). -/
structure Cmpi where
  g : Guards
  d : PReg
  a : SReg
  i : Imm
  c : Cond
  deriving DecidableEq, Repr

/-- PLOG (R133). -/
structure Plog where
  g : Guards
  d : PReg
  a : PReg
  b : PReg
  t : BitVec 4
  deriving DecidableEq, Repr

/-- LEA (R133). -/
structure Lea where
  g : Guards
  d : SReg
  a : SReg
  x : SReg
  k : BitVec 4
  i : Imm
  deriving DecidableEq, Repr

/-- HASHS (R134). -/
structure Hashs where
  g : Guards
  d : SReg
  a : SReg
  b : SReg
  z : BitVec 2
  deriving DecidableEq, Repr

/-- Scalar loads (R243). -/
structure Load where
  g : Guards
  d : SReg
  b : SReg
  h : LHint
  o : Ord
  off : BitVec 32
  deriving DecidableEq, Repr

/-- Scalar stores (R243). -/
structure Store where
  g : Guards
  b : SReg
  a : SReg
  h : SHint
  o : Ord
  off : BitVec 32
  deriving DecidableEq, Repr

/-- Scalar atomics; dbl is the .d width (R245). -/
structure Atom where
  g : Guards
  d : SReg
  b : SReg
  a : SReg
  dbl : Bool
  o : Ord
  off : BitVec 29
  deriving DecidableEq, Repr

/-- ACAS (R245). -/
structure Acas where
  g : Guards
  d : SReg
  b : SReg
  e : SReg
  n : SReg
  dbl : Bool
  o : Ord
  off : BitVec 29
  deriving DecidableEq, Repr

/-- AFADD, always .w (R245). -/
structure Afadd where
  g : Guards
  d : SReg
  b : SReg
  a : SReg
  o : Ord
  off : BitVec 29
  deriving DecidableEq, Repr

/-- LEASE (R246). -/
structure Lease where
  g : Guards
  b : SReg
  n : BitVec 7
  off : BitVec 32
  deriving DecidableEq, Repr

/-- UNLEASE (R246). -/
structure Unlease where
  g : Guards
  b : SReg
  off : BitVec 32
  deriving DecidableEq, Repr

/-- STLC (R247). -/
structure Stlc where
  g : Guards
  d : PReg
  b : SReg
  a : SReg
  z : BitVec 2
  o : Ord
  off : BitVec 29
  deriving DecidableEq, Repr

/-- CFLUSH, CINV; col is .c (R248). -/
structure Cmaint where
  g : Guards
  b : SReg
  col : Bool
  off : BitVec 29
  deriving DecidableEq, Repr

/-- CPREF (R248). -/
structure Cpref where
  g : Guards
  b : SReg
  c : SReg
  col : Bool
  off : BitVec 29
  deriving DecidableEq, Repr

/-- VLD, VLDFF (R249). -/
structure Vld where
  g : Guards
  q : LQ
  b : SReg
  p : SReg
  h : LHint
  z : BitVec 2
  col : Bool
  off : BitVec 29
  deriving DecidableEq, Repr

/-- VLDX (R249). -/
structure Vldx where
  g : Guards
  q : LQ
  b : SReg
  i : SQ
  h : SHint
  z : BitVec 2
  off : BitVec 29
  deriving DecidableEq, Repr

/-- VLDSC, VLDS: no hint (R187, R249). -/
structure Vlds where
  g : Guards
  q : LQ
  b : SReg
  p : SReg
  z : BitVec 2
  col : Bool
  off : BitVec 29
  deriving DecidableEq, Repr

/-- VST (R249). -/
structure Vst where
  g : Guards
  b : SReg
  p : SReg
  d : SQ
  h : SHint
  z : BitVec 2
  col : Bool
  off : BitVec 29
  deriving DecidableEq, Repr

/-- VSTX (R249). -/
structure Vstx where
  g : Guards
  b : SReg
  i : SQ
  d : SQ
  h : SHint
  z : BitVec 2
  off : BitVec 29
  deriving DecidableEq, Repr

/-- VSTSC, VSTS: no hint (R187, R249). -/
structure Vsts where
  g : Guards
  b : SReg
  p : SReg
  d : SQ
  z : BitVec 2
  col : Bool
  off : BitVec 29
  deriving DecidableEq, Repr

/-- VLDSX (R187). -/
structure Vldsx where
  g : Guards
  q : LQ
  b : SReg
  i : SQ
  z : BitVec 2
  off : BitVec 29
  deriving DecidableEq, Repr

/-- VSTSX (R187). -/
structure Vstsx where
  g : Guards
  b : SReg
  i : SQ
  d : SQ
  z : BitVec 2
  off : BitVec 29
  deriving DecidableEq, Repr

/-- VAMO (R254); dst none is s0. -/
structure Vamo where
  g : Guards
  q : Option LQ
  b : SReg
  l : SReg
  i : SQ
  d : SQ
  dbl : Bool
  op : BitVec 3
  deriving DecidableEq, Repr

/-- POPX (R130). -/
structure Popx where
  g : Guards
  d : SReg
  deriving DecidableEq, Repr

/-- QDROP (R130). -/
structure Qdrop where
  g : Guards
  q : DropQ
  n : BitVec 5
  deriving DecidableEq, Repr

/-- PCOPY; dp, sp: the destination, source is a pool address (R258). -/
structure Pcopy where
  g : Guards
  d : SReg
  s : SReg
  n : SReg
  p : SReg
  h : SHint
  t : BitVec 6
  dp : Bool
  sp : Bool
  deriving DecidableEq, Repr

/-- PDEC (R258). -/
structure Pdec where
  g : Guards
  d : SReg
  s : SReg
  n : SReg
  h : SHint
  t : BitVec 6
  dp : Bool
  sp : Bool
  deriving DecidableEq, Repr

/-- PFILL (R258). -/
structure Pfill where
  g : Guards
  d : SReg
  v : SReg
  n : SReg
  z : BitVec 2
  h : SHint
  t : BitVec 6
  dp : Bool
  deriving DecidableEq, Repr

/-- sD, sM: TWAITANY (R271). -/
structure Tmask2 where
  g : Guards
  d : SReg
  m : SReg
  deriving DecidableEq, Repr

/-- sM: TWAITALL, TCLR (R271). -/
structure Tmask where
  g : Guards
  m : SReg
  deriving DecidableEq, Repr

/-- TFIND (R271). -/
structure Tfind where
  g : Guards
  d : SReg
  m : SReg
  c : Bool
  deriving DecidableEq, Repr

/-- NBADD; bf is .h, BF16 (R296). -/
structure Nbadd where
  g : Guards
  b : SReg
  d : SReg
  i : SQ
  u : SQ
  bf : Bool
  deriving DecidableEq, Repr

/-- NBOPT (R296). -/
structure Nbopt where
  g : Guards
  b : SReg
  d : SReg
  h : SReg
  i : SQ
  gr : SQ
  adam : Bool
  deriving DecidableEq, Repr

/-- SFPOOL; half is .h, BF16 (R304). -/
structure Sfpool where
  g : Guards
  q : LQ
  b : SReg
  geo : SReg
  s : SQ
  l : SReg
  half : Bool
  op : BitVec 2
  deriving DecidableEq, Repr

/-- RHOPEN (R288). -/
structure Rhopen where
  g : Guards
  d : SReg
  b : SReg
  n : SReg
  p : BitVec 3
  deriving DecidableEq, Repr

/-- RHPRIO (R288). -/
structure Rhprio where
  g : Guards
  h : SReg
  p : BitVec 3
  deriving DecidableEq, Repr

/-- RHEVICT, RHCLOSE with their mode or dead flag (R288). -/
structure Rhbit where
  g : Guards
  h : SReg
  m : Bool
  deriving DecidableEq, Repr

/-- GONG (R99). -/
structure Gong where
  g : Guards
  w : BitVec 6
  h : BitVec 6
  deriving DecidableEq, Repr

/-- POST, WAITI (R100). -/
structure Post where
  g : Guards
  n : SReg
  c : BitVec 2
  deriving DecidableEq, Repr

/-- QNOTIFY (R101). -/
structure Qnotify where
  g : Guards
  q : SReg
  v : SReg
  deriving DecidableEq, Repr

/-- ACSET (R318). -/
structure Acset where
  g : Guards
  b : SReg
  l : SReg
  e : SReg
  j : BitVec 4
  deriving DecidableEq, Repr

/-- ACWAIT (R318). -/
structure Acwait where
  g : Guards
  j : BitVec 4
  deriving DecidableEq, Repr

/-- CLRED (R321); rootOnly is mode 1. -/
structure Clred where
  g : Guards
  d : SReg
  s : SReg
  gd : SReg
  n : SReg
  dbl : Bool
  op : BitVec 2
  rootOnly : Bool
  root : BitVec 7
  deriving DecidableEq, Repr

/-- W class, two vector sources (R143). -/
structure WBin where
  x : XCtl
  d : VDst
  a : VSrc
  b : VSrc
  z : BitVec 2
  deriving DecidableEq, Repr

/-- W class, immediate (R143). -/
structure WImm where
  x : XCtl
  d : VDst
  a : VSrc
  z : BitVec 2
  k : BitVec 29
  deriving DecidableEq, Repr

/-- W class, one vector source. -/
structure WUn where
  x : XCtl
  d : VDst
  a : VSrc
  z : BitVec 2
  deriving DecidableEq, Repr

/-- VSEL (R143). -/
structure Vsel where
  x : XCtl
  d : VDst
  a : VSrc
  b : VSrc
  m : MReg
  z : BitVec 2
  deriving DecidableEq, Repr

/-- F class, two vector sources (R144, R168). -/
structure FBin where
  x : XCtl
  d : VDst
  a : VSrc
  b : VSrc
  f : SReg
  deriving DecidableEq, Repr

/-- F class, immediate: VSUBS (R144). -/
structure FImm where
  x : XCtl
  d : VDst
  a : VSrc
  i : BitVec 32
  f : SReg
  deriving DecidableEq, Repr

/-- VMAC (R145). -/
structure Vmac where
  x : XCtl
  d : VReg
  a : VSrc
  b : VSrc
  f : SReg
  deriving DecidableEq, Repr

/-- VDOT2 (R146). -/
structure Vdot2 where
  x : XCtl
  d : VReg
  a : VSrc
  h : BitVec 32
  f : SReg
  deriving DecidableEq, Repr

/-- VSRAR (R147). -/
structure Vsrar where
  x : XCtl
  d : VDst
  a : VSrc
  n : BitVec 6
  f : SReg
  deriving DecidableEq, Repr

/-- A scalar source: VSPLAT, VRMOVF (R148, R149). -/
structure WSca where
  x : XCtl
  d : VDst
  s : SReg
  z : BitVec 2
  deriving DecidableEq, Repr

/-- VSPLAT with an extension (R54, R148). -/
structure VsplatX where
  x : XCtl
  d : VDst
  v : BitVec 64
  z : BitVec 2
  deriving DecidableEq, Repr

/-- VIOTA (R148). -/
structure Viota where
  x : XCtl
  d : VDst
  s : SReg
  z : BitVec 2
  k : BitVec 29
  deriving DecidableEq, Repr

/-- VRMOVT (R149). -/
structure Vrmovt where
  x : XCtl
  s : SReg
  a : VSrc
  z : BitVec 2
  deriving DecidableEq, Repr

/-- VCMP (R150). -/
structure Vcmp where
  x : XCtl
  d : MReg
  a : VSrc
  b : VSrcS
  c : Cond
  z : BitVec 2
  deriving DecidableEq, Repr

/-- VLBC (R151). -/
structure Vlbc where
  x : XCtl
  d : MReg
  a : SReg
  b : SReg
  c : Cond
  deriving DecidableEq, Repr

/-- MLOG (R152). -/
structure Mlog where
  x : XCtl
  d : MReg
  a : MReg
  b : MReg
  t : BitVec 4
  deriving DecidableEq, Repr

/-- MPOPC, MFFS (R152). -/
structure Mpush where
  x : XCtl
  m : MReg
  deriving DecidableEq, Repr

/-- MPFX (R152). -/
structure Mpfx where
  x : XCtl
  d : VDst
  m : MReg
  z : BitVec 2
  deriving DecidableEq, Repr

/-- MFFE (R152). -/
structure Mffe where
  x : XCtl
  d : MReg
  deriving DecidableEq, Repr

/-- VSLIDEUP, VSLIDEDN, VSCAN: a vector, a scalar and an immediate (R153, R157). -/
structure Slide where
  x : XCtl
  d : VDst
  a : VSrc
  s : SReg
  z : BitVec 2
  k : BitVec 29
  deriving DecidableEq, Repr

/-- VCOMPR, VEXPND (R155). -/
structure Vpack where
  x : XCtl
  d : VDst
  a : VSrc
  m : MReg
  z : BitVec 2
  deriving DecidableEq, Repr

/-- VREDSUM, VREDMIN, VREDMAX (R156). -/
structure Vred where
  x : XCtl
  d : RDst
  a : VSrc
  s : SReg
  z : BitVec 2
  deriving DecidableEq, Repr

/-- VCOMB (R159). -/
structure Vcomb where
  x : XCtl
  d : VDst
  l : MReg
  k : VSrc
  v : VSrc
  f : SReg
  op : BitVec 2
  deriving DecidableEq, Repr

/-- VSORT (R160). -/
structure Vsort where
  x : XCtl
  kd : VDst
  vd : VDst
  k : VSrc
  v : VSrc
  z : BitVec 2
  fl : BitVec 29
  deriving DecidableEq, Repr

/-- VBCMP (R161). -/
structure Vbcmp where
  x : XCtl
  a : VSrc
  b : VSrc
  z : BitVec 2
  deriving DecidableEq, Repr

/-- VBFIND (R161). -/
structure Vbfind where
  x : XCtl
  a : VSrc
  s : SReg
  z : BitVec 2
  deriving DecidableEq, Repr

/-- VXHASH (R163). -/
structure Vxhash where
  x : XCtl
  d : VDst
  a : VSrc
  s : SReg
  z : BitVec 2
  deriving DecidableEq, Repr

/-- F class, one vector source. -/
structure FUn where
  x : XCtl
  d : VDst
  a : VSrc
  f : SReg
  deriving DecidableEq, Repr

/-- VFMA (R168). -/
structure Vfma where
  x : XCtl
  d : VDst
  a : VSrc
  b : VSrc
  c : VSrc
  f : SReg
  deriving DecidableEq, Repr

/-- VFCMP (R170). -/
structure Vfcmp where
  x : XCtl
  d : MReg
  a : VSrc
  b : VSrcS
  c : FCond
  f : SReg
  deriving DecidableEq, Repr

/-- VFREDSUM, VAMAX (R173, R174). -/
structure FRed where
  x : XCtl
  d : RDst
  a : VSrc
  s : SReg
  f : SReg
  deriving DecidableEq, Repr

/-- VBFLY (R175). -/
structure Vbfly where
  x : XCtl
  d : VDst
  a : VSrc
  j : BitVec 4
  hv : Bool
  f : SReg
  deriving DecidableEq, Repr

/-- VQBFP, VDQBFP (R177). -/
structure Vbfp where
  x : XCtl
  d : VDst
  a : VSrc
  o : BitVec 13
  f : SReg
  deriving DecidableEq, Repr

/-- VQSC (R180). -/
structure Vqsc where
  x : XCtl
  d : VDst
  a : VSrc
  b : VSrcS
  f : SReg
  deriving DecidableEq, Repr

/-- CBLD (R208). -/
structure Cbld where
  sch : BitVec 3
  src : Option VSrc
  s : SReg
  k : BitVec 4
  fmt : BitVec 8
  lgg : BitVec 2
  n1 : BitVec 8
  deriving DecidableEq, Repr

/-- CBST (R208). -/
structure Cbst where
  x : XCtl
  d : CbDst
  k : BitVec 4
  z : BitVec 2
  deriving DecidableEq, Repr

/-- CBINV (R208). -/
structure Cbinv where
  sch : BitVec 3
  m : BitVec 16
  deriving DecidableEq, Repr

/-- TZERO (R219). -/
structure Tzero where
  x : XCtl
  k : BitVec 2
  deriving DecidableEq, Repr

/-- OPA (R219). -/
structure Opa where
  x : XCtl
  k : BitVec 2
  a : VSrc
  b : VSrc
  f : SReg
  deriving DecidableEq, Repr

/-- OPAS (R219). -/
structure Opas where
  x : XCtl
  k : BitVec 2
  a : VSrc
  b : VSrc
  m : MReg
  f : SReg
  deriving DecidableEq, Repr

/-- TLDS (R219). -/
structure Tlds where
  x : XCtl
  k : BitVec 2
  col : Bool
  a : VSrc
  s : SReg
  f : SReg
  deriving DecidableEq, Repr

/-- TSTS (R219). -/
structure Tsts where
  x : XCtl
  k : BitVec 2
  col : Bool
  d : VDst
  s : SReg
  f : SReg
  deriving DecidableEq, Repr

/-- TROWV (R219). -/
structure Trowv where
  x : XCtl
  k : BitVec 2
  col : Bool
  d : VDst
  s : SReg
  deriving DecidableEq, Repr

/-- TVROW (R219). -/
structure Tvrow where
  x : XCtl
  k : BitVec 2
  col : Bool
  a : VSrc
  s : SReg
  deriving DecidableEq, Repr

/-- TSCALE (R219). -/
structure Tscale where
  x : XCtl
  k : BitVec 2
  col : Bool
  src : VSrcS
  f : SReg
  deriving DecidableEq, Repr

/-! The data that arrives in the events. -/

/-- A hart: the serial number of its launch, the launch index of its core, its hid (R84). -/
structure HartId where
  l : Nat
  k : Nat
  h : Nat
  deriving DecidableEq, Repr

/-- The operations of the scalar and vector atomics (R245, R254). -/
inductive AtomOp where
  | add | and | or | xor | min | max | swp | fadd | cas
  deriving DecidableEq, Repr

/-- A place whose corrected errors or replays COUNTERS counts (R363). -/
inductive Site where
  | pool (die : Nat) | l2 (die : Nat) | stack (n : Nat) | saddlebag (port : Nat)
  | spokeLink (n : Nat) | saddlebagLink (port : Nat)
  deriving DecidableEq, Repr

/-- A request arriving from the Spoke domain (R311, R317). -/
inductive PeerOp where
  | load (n : Nat)
  | store (bytes : List Byte)
  | atom (op : AtomOp) (dbl : Bool) (x n : BitVec 64)
  deriving DecidableEq, Repr

structure PeerReq where
  src : Nat
  pa : BitVec 52
  op : PeerOp
  deriving DecidableEq, Repr

/-- The answer to a peer access: accepted, with the data returned, or rejected; host reads
and host atomics are answered the same way (R313, R329). -/
inductive PeerAnswer where
  | accept (data : BitVec 64)
  | reject
  deriving DecidableEq, Repr

/-- One member's part in a meeting of a collective (R324, R325). -/
structure Contribution where
  rank : Nat
  n : Nat
  members : List Nat
  dbl : Bool
  op : BitVec 2
  rootOnly : Bool
  root : Nat
  bytes : List Byte
  deriving DecidableEq, Repr

/-- What the Clave ROM finds when it tests and trains the module (R355); the draws of its entropy source
come in order and a zero draw is drawn again. -/
structure BootFindings where
  dies : BitVec 4
  hbm : BitVec 8
  ports : BitVec 8
  links : BitVec 32
  eth : BitVec 2
  draws : List (BitVec 32)
  deriving DecidableEq, Repr

/-- A command's datagram (R356): the Ethernet port it arrived at, its header (`len` is the header's count of body bytes),
body bytes and signature. -/
structure Cmd where
  port : BitVec 1
  magic : BitVec 32
  code : BitVec 16
  rsv : BitVec 16
  len : BitVec 32
  boot : BitVec 32
  seq : BitVec 32
  part : BitVec 32
  key : BitVec 512
  body : List Byte
  sig : List Byte
  deriving DecidableEq, Repr

/-- The bare IDENT: to the module, under no key, signature or boot identifier. -/
def identCmd : Cmd :=
  { port := 0, magic := 0x43564C43, code := 1, rsv := 0, len := 0, boot := 0, seq := 0, part := 0xFF, key := 0, body := [], sig := [] }

/-- The Ethernet port by which a request of the server arrives, and the partition that it names. -/
structure Inlet where
  eth : BitVec 1
  part : Nat
  deriving DecidableEq, Repr

/-- The dies whose cores hold issue, and for how many cycles (R365). -/
structure Throttle where
  dies : BitVec 4
  cycles : Nat
  deriving DecidableEq, Repr

/-- HOSTWIN's arguments: a host window (R329) or a registered region (R328). -/
inductive HostwinArg where
  | window (n : Nat) (qp rkey rbase len : Nat)
  | region (part : Nat) (base len : Nat)
  deriving DecidableEq, Repr

/-- KEYS' arguments (R358): the kind, whether it is installed or removed, and the key. -/
structure KeysArg where
  image : Bool
  install : Bool
  digest : BitVec 512
  pubkey : List Byte
  deriving DecidableEq, Repr


/-- The instruction set: one constructor per row of the opcode table. -/
inductive Instr where
  | nop (x : Bare)
  | br (x : GImm)
  | call (x : GImm)
  | ret (x : Bare)
  | jmp (x : Jmp)
  | strip (x : Strip)
  | vsetl (x : Vsetl)
  | trap (x : GImm)
  | bkpt (x : GImm)
  | eret (x : Bare)
  | exit (x : Bare)
  | yield (x : Yield)
  | csrr (x : CsrRd)
  | csrw (x : CsrWr)
  | csrset (x : CsrWr)
  | csrclr (x : CsrWr)
  | fence (x : Fence)
  | xsync (x : Bare)
  | tlbinv (x : Tlbinv)
  | setbnd (x : A3)
  | add (x : ABin)
  | addi (x : AImm)
  | sub (x : ABin)
  | mul (x : ABin)
  | muli (x : AImm)
  | mulh (x : ABin)
  | mulhu (x : AImm)
  | div (x : ABin)
  | divu (x : AImm)
  | rem (x : ABin)
  | remu (x : AImm)
  | and (x : ABin)
  | andi (x : AImm)
  | or (x : ABin)
  | ori (x : AImm)
  | xor (x : ABin)
  | xori (x : AImm)
  | andn (x : ABin)
  | shl (x : ABin)
  | shli (x : AImm)
  | shr (x : ABin)
  | shri (x : AImm)
  | sra (x : ABin)
  | srai (x : AImm)
  | min (x : ABin)
  | max (x : AImm)
  | minu (x : ABin)
  | maxu (x : AImm)
  | clz (x : AUn)
  | ctz (x : AUn)
  | popc (x : AUn)
  | sext (x : AUnZ)
  | zext (x : AUnZ)
  | movi (x : Movi)
  | moviX (x : MoviX)
  | mov (x : AUn)
  | sel (x : Sel)
  | cmp (x : Cmp)
  | cmpi (x : Cmpi)
  | plog (x : Plog)
  | lea (x : Lea)
  | hashs (x : Hashs)
  | ldb (x : Load)
  | ldh (x : Load)
  | ldw (x : Load)
  | ldd (x : Load)
  | ldbs (x : Load)
  | ldhs (x : Load)
  | ldws (x : Load)
  | stb (x : Store)
  | sth (x : Store)
  | stw (x : Store)
  | std (x : Store)
  | aadd (x : Atom)
  | aand (x : Atom)
  | aor (x : Atom)
  | axor (x : Atom)
  | amin (x : Atom)
  | amax (x : Atom)
  | aswp (x : Atom)
  | acas (x : Acas)
  | afadd (x : Afadd)
  | lease (x : Lease)
  | unlease (x : Unlease)
  | stlc (x : Stlc)
  | cflush (x : Cmaint)
  | cinv (x : Cmaint)
  | cpref (x : Cpref)
  | vld (x : Vld)
  | vldff (x : Vld)
  | vldx (x : Vldx)
  | vldsc (x : Vlds)
  | vst (x : Vst)
  | vstx (x : Vstx)
  | vstsc (x : Vsts)
  | vlds (x : Vlds)
  | vsts (x : Vsts)
  | vldsx (x : Vldsx)
  | vstsx (x : Vstsx)
  | vamo (x : Vamo)
  | popx (x : Popx)
  | qdrop (x : Qdrop)
  | pcopy (x : Pcopy)
  | pdec (x : Pdec)
  | pfill (x : Pfill)
  | twaitany (x : Tmask2)
  | twaitall (x : Tmask)
  | tfind (x : Tfind)
  | tclr (x : Tmask)
  | nbadd (x : Nbadd)
  | nbopt (x : Nbopt)
  | nbfence (x : Bare)
  | sfpool (x : Sfpool)
  | rhopen (x : Rhopen)
  | rhprio (x : Rhprio)
  | rhevict (x : Rhbit)
  | rhclose (x : Rhbit)
  | gong (x : Gong)
  | post (x : Post)
  | waiti (x : Post)
  | qnotify (x : Qnotify)
  | acset (x : Acset)
  | acwait (x : Acwait)
  | clred (x : Clred)
  | vadd (x : WBin)
  | vsub (x : WImm)
  | vmul (x : WBin)
  | vmulh (x : WImm)
  | vmac (x : Vmac)
  | vdot2 (x : Vdot2)
  | vabs (x : WUn)
  | vneg (x : WUn)
  | vmin (x : WBin)
  | vmax (x : WImm)
  | vand (x : WBin)
  | vor (x : WImm)
  | vxor (x : WBin)
  | vnot (x : WUn)
  | vshl (x : WBin)
  | vshr (x : WImm)
  | vsra (x : WBin)
  | vsrar (x : Vsrar)
  | vclz (x : WUn)
  | vpopc (x : WUn)
  | vsel (x : Vsel)
  | vmov (x : WUn)
  | vsplat (x : WSca)
  | vsplatX (x : VsplatX)
  | viota (x : Viota)
  | vadds (x : FBin)
  | vsubs (x : FImm)
  | vrmovf (x : WSca)
  | vrmovt (x : Vrmovt)
  | vcmp (x : Vcmp)
  | vlbc (x : Vlbc)
  | mlog (x : Mlog)
  | mpopc (x : Mpush)
  | mffs (x : Mpush)
  | mpfx (x : Mpfx)
  | mffe (x : Mffe)
  | vslideup (x : Slide)
  | vslidedn (x : Slide)
  | vgathr (x : WBin)
  | vcompr (x : Vpack)
  | vexpnd (x : Vpack)
  | vredsum (x : Vred)
  | vredmin (x : Vred)
  | vredmax (x : Vred)
  | vscan (x : Slide)
  | vconf (x : WUn)
  | vcomb (x : Vcomb)
  | vsort (x : Vsort)
  | vbcmp (x : Vbcmp)
  | vbfind (x : Vbfind)
  | vhash (x : WBin)
  | vxhash (x : Vxhash)
  | vfadd (x : FBin)
  | vfsub (x : FBin)
  | vfmul (x : FBin)
  | vfma (x : Vfma)
  | vfdiv (x : FBin)
  | vfsqrt (x : FUn)
  | vfmin (x : FBin)
  | vfmax (x : FBin)
  | vfabs (x : FUn)
  | vfneg (x : FUn)
  | vfcmp (x : Vfcmp)
  | vexp2 (x : FUn)
  | vlog2 (x : FUn)
  | vrsqrt (x : FUn)
  | vrcp (x : FUn)
  | vtanh (x : FUn)
  | verf (x : FUn)
  | vcvt (x : FUn)
  | vfredsum (x : FRed)
  | vbfly (x : Vbfly)
  | vamax (x : FRed)
  | vqbfp (x : Vbfp)
  | vdqbfp (x : Vbfp)
  | vqsc (x : Vqsc)
  | cbld (x : Cbld)
  | cbst (x : Cbst)
  | cbinv (x : Cbinv)
  | vcbx (x : FUn)
  | vcbq (x : FUn)
  | tzero (x : Tzero)
  | opa (x : Opa)
  | opas (x : Opas)
  | tlds (x : Tlds)
  | tsts (x : Tsts)
  | trowv (x : Trowv)
  | tvrow (x : Tvrow)
  | tscale (x : Tscale)
  | elementGroup (h : HartId)
  | xEntryCompletion (h : HartId)
  | yieldHintEnd (h : HartId)
  | queueDeadlock (h : HartId)
  | yieldPauseEnd (h : HartId)
  | elementArrival (h : HartId) (q : LQ) (e : Nat) (n : Nat) (corrected : Option Site)
  | leaseExpiry (h : HartId)
  | engineCompletion (l k : Nat) (t : BitVec 6)
  | nearMemoryUpdate (h : HartId) (n : Nat)
  | sfpoolBagArrival (h : HartId) (q : LQ) (e : Nat) (b : Nat)
  | peerStoreAck (n : Nat)
  | queueMap (p : Nat)
  | unmapStart (p : Nat)
  | unmapComplete (p : Nat) (slot : Nat)
  | recordTake (p : Nat) (slot : Nat)
  | placement (p : Nat)
  | sliceTick (p : Nat)
  | sliceExpiry (l : Nat)
  | preemptionHalt (l : Nat)
  | contextSave (l : Nat)
  | resumption (p : Nat)
  | launchCompletion (l : Nat)
  | watchdogPoll (p : Nat) (answered : Bool)
  | vlWrite (h : HartId)
  | vlcapWrite (h : HartId)
  | teixWrite (h : HartId)
  | tvecWrite (h : HartId)
  | fflagsWrite (h : HartId)
  | ptbaseWrite (h : HartId)
  | xWindowFree (h : HartId)
  | queueEntryReady (h : HartId)
  | xsyncDone (h : HartId)
  | interlockWaitEnd (h : HartId)
  | leaseGrant (h : HartId)
  | gongDeparture (h : HartId)
  | waitiSatisfied (h : HartId)
  | twaitReturn (h : HartId)
  | engineIssue (h : HartId)
  | bankWriteWaitEnd (h : HartId)
  | nbfenceDone (h : HartId)
  | exitRetire (h : HartId)
  | acwaitReturn (h : HartId)
  | peerRequest (r : PeerReq)
  | postedStoreRejected (n : Nat)
  | peerAcceptance (h : HartId) (a : PeerAnswer)
  | clredResult (p : Nat) (gid : BitVec 32) (n : Nat) (cs : List Contribution) (memberFault : Bool)
  | linkReplay (x : Site)
  | spokeLinkFailure (link : Nat) (users : List Nat)
  | saddlebagLinkFailure (port : Nat)
  | notifyWrite (p : Inlet) (off : Nat) (bytes : List Byte)
  | serverRdmaWrite (p : Inlet) (va : BitVec 64) (bytes : List Byte)
  | watchdogExpiry (p : Nat)
  | powerOn (f : BootFindings)
  | powerLoss
  | throttle (cycles : Throttle)
  | thermalShutdown
  | ident (c : Cmd := identCmd)
  | reset (c : Cmd) (f : BootFindings)
  | partition (c : Cmd)
  | load (c : Cmd)
  | start (c : Cmd)
  | stop (c : Cmd)
  | attest (c : Cmd)
  | counters (c : Cmd)
  | thermal (c : Cmd) (watts : Nat)
  | domain (c : Cmd) (id part : Nat) (members : List Nat)
  | hostwin (c : Cmd) (a : HostwinArg)
  | keys (c : Cmd) (a : KeysArg)
  | unsupportedRdmaRequest (eth : BitVec 1 := 0)
  deriving DecidableEq, Repr

end Sys2Proof
end

