-- ==== Sys2Proof/WellFormed.lean ====
section
/-! DEFINITION. Well-formed instructions: the fields of an argument structure that its Lean type leaves wider than
the encoding does (guard and mask indices, one queue named twice, kinds a field does not accept). -/

namespace Sys2Proof

/-- A guard index below the side's limit: 8 on the A side, 24 on the X side (R48). -/
def Guard.wf (lim : Nat) : Guard → Bool
  | .always => true
  | .reg _ r => r.toNat < lim

def Guards.awf (g : Guards) : Bool := g.a.wf 8 && g.b.wf 8
def XCtl.wf (x : XCtl) : Bool := x.g.a.wf 24 && x.g.b.wf 24
/-- No guard: index 31 without negation in both fields (R208). -/
def Guards.absent (g : Guards) : Bool := g.a == .always && g.b == .always

/-- A mask index below 24 (R49). -/
def mwf (m : MReg) : Bool := m.toNat < 24

/-- Two sources do not name one queue (R50). -/
def VSrc.apart : VSrc → VSrc → Bool
  | .lq a, .lq b => a != b
  | _, _ => true
def VSrcS.apart (a : VSrc) : VSrcS → Bool
  | .vec b => VSrc.apart a b
  | .s _ => true

/-- Two destinations do not name one queue (R50). -/
def VDst.apart : VDst → VDst → Bool
  | .sq a, .sq b => a != b
  | _, _ => true

def CsrSrc.wf : CsrSrc → Bool
  | .reg r => r != 0
  | .imm _ => true

/-- Loads accept plain and acquire, stores plain and release (R242). -/
def Ord.forLoad : Ord → Bool
  | .plain => true
  | .ord .acq _ => true
  | _ => false
def Ord.forStore : Ord → Bool
  | .plain => true
  | .ord .rel _ => true
  | _ => false

/-- The instructions the encoder has words for; every event is well formed. -/
def Instr.wf : Instr → Bool
  | .nop x => x.g.awf
  | .br x => x.g.awf
  | .call x => x.g.awf
  | .ret x => x.g.awf
  | .jmp x => x.g.awf
  | .strip x => x.g.awf
  | .vsetl x => x.g.awf
  | .trap x => x.g.awf
  | .bkpt x => x.g.awf
  | .eret x => x.g.awf
  | .exit x => x.g.awf
  | .yield x => x.g.awf
  | .csrr x => x.g.awf
  | .csrw x => x.g.awf && x.src.wf
  | .csrset x => x.g.awf && x.src.wf
  | .csrclr x => x.g.awf && x.src.wf
  | .fence x => x.g.awf
  | .xsync x => x.g.awf
  | .tlbinv x => x.g.awf && x.k != 3
  | .setbnd x => x.g.awf
  | .add x => x.g.awf
  | .addi x => x.g.awf
  | .sub x => x.g.awf
  | .mul x => x.g.awf
  | .muli x => x.g.awf
  | .mulh x => x.g.awf
  | .mulhu x => x.g.awf
  | .div x => x.g.awf
  | .divu x => x.g.awf
  | .rem x => x.g.awf
  | .remu x => x.g.awf
  | .and x => x.g.awf
  | .andi x => x.g.awf
  | .or x => x.g.awf
  | .ori x => x.g.awf
  | .xor x => x.g.awf
  | .xori x => x.g.awf
  | .andn x => x.g.awf
  | .shl x => x.g.awf
  | .shli x => x.g.awf
  | .shr x => x.g.awf
  | .shri x => x.g.awf
  | .sra x => x.g.awf
  | .srai x => x.g.awf
  | .min x => x.g.awf
  | .max x => x.g.awf
  | .minu x => x.g.awf
  | .maxu x => x.g.awf
  | .clz x => x.g.awf
  | .ctz x => x.g.awf
  | .popc x => x.g.awf
  | .sext x => x.g.awf
  | .zext x => x.g.awf
  | .movi x => x.g.awf
  | .moviX x => x.g.awf
  | .mov x => x.g.awf
  | .sel x => x.g.awf
  | .cmp x => x.g.awf
  | .cmpi x => x.g.awf
  | .plog x => x.g.awf
  | .lea x => x.g.awf
  | .hashs x => x.g.awf
  | .ldb x => x.g.awf && x.o.forLoad
  | .ldh x => x.g.awf && x.o.forLoad
  | .ldw x => x.g.awf && x.o.forLoad
  | .ldd x => x.g.awf && x.o.forLoad
  | .ldbs x => x.g.awf && x.o.forLoad
  | .ldhs x => x.g.awf && x.o.forLoad
  | .ldws x => x.g.awf && x.o.forLoad
  | .stb x => x.g.awf && x.o.forStore
  | .sth x => x.g.awf && x.o.forStore
  | .stw x => x.g.awf && x.o.forStore
  | .std x => x.g.awf && x.o.forStore
  | .aadd x => x.g.awf
  | .aand x => x.g.awf
  | .aor x => x.g.awf
  | .axor x => x.g.awf
  | .amin x => x.g.awf
  | .amax x => x.g.awf
  | .aswp x => x.g.awf
  | .acas x => x.g.awf
  | .afadd x => x.g.awf
  | .lease x => x.g.awf
  | .unlease x => x.g.awf
  | .stlc x => x.g.awf
  | .cflush x => x.g.awf
  | .cinv x => x.g.awf
  | .cpref x => x.g.awf
  | .vld x => x.g.awf
  | .vldff x => x.g.awf
  | .vldx x => x.g.awf
  | .vldsc x => x.g.awf
  | .vst x => x.g.awf
  | .vstx x => x.g.awf && x.i != x.d
  | .vstsc x => x.g.awf
  | .vlds x => x.g.awf
  | .vsts x => x.g.awf
  | .vldsx x => x.g.awf
  | .vstsx x => x.g.awf && x.i != x.d
  | .vamo x => x.g.awf && x.i != x.d && !(x.dbl && x.op == 7)
  | .popx x => x.g.awf
  | .qdrop x => x.g.awf
  | .pcopy x => x.g.awf
  | .pdec x => x.g.awf
  | .pfill x => x.g.awf
  | .twaitany x => x.g.awf
  | .twaitall x => x.g.awf
  | .tfind x => x.g.awf
  | .tclr x => x.g.awf
  | .nbadd x => x.g.awf && x.i != x.u
  | .nbopt x => x.g.awf && x.i != x.gr
  | .nbfence x => x.g.awf
  | .sfpool x => x.g.awf
  | .rhopen x => x.g.awf
  | .rhprio x => x.g.awf
  | .rhevict x => x.g.awf
  | .rhclose x => x.g.awf
  | .gong x => x.g.awf
  | .post x => x.g.awf
  | .waiti x => x.g.awf
  | .qnotify x => x.g.awf
  | .acset x => x.g.awf
  | .acwait x => x.g.awf
  | .clred x => x.g.awf && (x.rootOnly || x.root == 0) && !(x.dbl && x.op == 0)
  | .vadd x => x.x.wf && VSrc.apart x.a x.b
  | .vsub x => x.x.wf
  | .vmul x => x.x.wf && VSrc.apart x.a x.b
  | .vmulh x => x.x.wf
  | .vmac x => x.x.wf && VSrc.apart x.a x.b
  | .vdot2 x => x.x.wf
  | .vabs x => x.x.wf
  | .vneg x => x.x.wf
  | .vmin x => x.x.wf && VSrc.apart x.a x.b
  | .vmax x => x.x.wf
  | .vand x => x.x.wf && VSrc.apart x.a x.b
  | .vor x => x.x.wf
  | .vxor x => x.x.wf && VSrc.apart x.a x.b
  | .vnot x => x.x.wf
  | .vshl x => x.x.wf && VSrc.apart x.a x.b
  | .vshr x => x.x.wf
  | .vsra x => x.x.wf && VSrc.apart x.a x.b
  | .vsrar x => x.x.wf
  | .vclz x => x.x.wf
  | .vpopc x => x.x.wf
  | .vsel x => x.x.wf && mwf x.m && VSrc.apart x.a x.b
  | .vmov x => x.x.wf
  | .vsplat x => x.x.wf
  | .vsplatX x => x.x.wf
  | .viota x => x.x.wf
  | .vadds x => x.x.wf && VSrc.apart x.a x.b
  | .vsubs x => x.x.wf
  | .vrmovf x => x.x.wf
  | .vrmovt x => x.x.wf
  | .vcmp x => x.x.wf && mwf x.d && VSrcS.apart x.a x.b
  | .vlbc x => x.x.wf && mwf x.d
  | .mlog x => x.x.wf && mwf x.d && mwf x.a && mwf x.b
  | .mpopc x => x.x.wf && mwf x.m
  | .mffs x => x.x.wf && mwf x.m
  | .mpfx x => x.x.wf && mwf x.m && x.z != 0
  | .mffe x => x.x.wf && mwf x.d
  | .vslideup x => x.x.wf
  | .vslidedn x => x.x.wf
  | .vgathr x => x.x.wf && VSrc.apart x.a x.b
  | .vcompr x => x.x.wf && mwf x.m
  | .vexpnd x => x.x.wf && mwf x.m
  | .vredsum x => x.x.wf
  | .vredmin x => x.x.wf
  | .vredmax x => x.x.wf
  | .vscan x => x.x.wf
  | .vconf x => x.x.wf && x.z != 0
  | .vcomb x => x.x.wf && mwf x.l && x.op != 3 && VSrc.apart x.k x.v
  | .vsort x => x.x.wf && VSrc.apart x.k x.v && VDst.apart x.kd x.vd
  | .vbcmp x => x.x.wf && VSrc.apart x.a x.b
  | .vbfind x => x.x.wf
  | .vhash x => x.x.wf && VSrc.apart x.a x.b && x.z.getLsbD 1
  | .vxhash x => x.x.wf && x.z.getLsbD 1
  | .vfadd x => x.x.wf && VSrc.apart x.a x.b
  | .vfsub x => x.x.wf && VSrc.apart x.a x.b
  | .vfmul x => x.x.wf && VSrc.apart x.a x.b
  | .vfma x => x.x.wf && VSrc.apart x.a x.b && VSrc.apart x.a x.c && VSrc.apart x.b x.c
  | .vfdiv x => x.x.wf && VSrc.apart x.a x.b
  | .vfsqrt x => x.x.wf
  | .vfmin x => x.x.wf && VSrc.apart x.a x.b
  | .vfmax x => x.x.wf && VSrc.apart x.a x.b
  | .vfabs x => x.x.wf
  | .vfneg x => x.x.wf
  | .vfcmp x => x.x.wf && mwf x.d && VSrcS.apart x.a x.b
  | .vexp2 x => x.x.wf
  | .vlog2 x => x.x.wf
  | .vrsqrt x => x.x.wf
  | .vrcp x => x.x.wf
  | .vtanh x => x.x.wf
  | .verf x => x.x.wf
  | .vcvt x => x.x.wf
  | .vfredsum x => x.x.wf
  | .vbfly x => x.x.wf
  | .vamax x => x.x.wf
  | .vqbfp x => x.x.wf
  | .vdqbfp x => x.x.wf
  | .vqsc x => x.x.wf && VSrcS.apart x.a x.b
  | .cbld _ => true
  | .cbst x => x.x.wf && (x.d != .xq || (x.x.g.absent && x.z == 3))
  | .cbinv _ => true
  | .vcbx x => x.x.wf
  | .vcbq x => x.x.wf
  | .tzero x => x.x.wf
  | .opa x => x.x.wf && VSrc.apart x.a x.b
  | .opas x => x.x.wf && mwf x.m && VSrc.apart x.a x.b
  | .tlds x => x.x.wf
  | .tsts x => x.x.wf
  | .trowv x => x.x.wf
  | .tvrow x => x.x.wf
  | .tscale x => x.x.wf && (match x.src with | .s _ => !x.col | _ => true)
  | .vlWrite _ => true
  | .vlcapWrite _ => true
  | .teixWrite _ => true
  | .tvecWrite _ => true
  | .fflagsWrite _ => true
  | .ptbaseWrite _ => true
  | .xWindowFree _ => true
  | .elementGroup _ => true
  | .xEntryCompletion _ => true
  | .yieldHintEnd _ => true
  | .queueEntryReady _ => true
  | .queueDeadlock _ => true
  | .xsyncDone _ => true
  | .yieldPauseEnd _ => true
  | .elementArrival _ _ _ _ _ => true
  | .interlockWaitEnd _ => true
  | .leaseGrant _ => true
  | .leaseExpiry _ => true
  | .gongDeparture _ => true
  | .waitiSatisfied _ => true
  | .twaitReturn _ => true
  | .engineIssue _ => true
  | .engineCompletion _ _ _ => true
  | .bankWriteWaitEnd _ => true
  | .nearMemoryUpdate _ _ => true
  | .nbfenceDone _ => true
  | .sfpoolBagArrival _ _ _ _ => true
  | .exitRetire _ => true
  | .acwaitReturn _ => true
  | .peerRequest _ => true
  | .peerStoreAck _ => true
  | .postedStoreRejected _ => true
  | .peerAcceptance _ _ => true
  | .clredResult _ _ _ _ _ => true
  | .linkReplay _ => true
  | .spokeLinkFailure _ _ => true
  | .saddlebagLinkFailure _ => true
  | .notifyWrite _ _ _ => true
  | .serverRdmaWrite _ _ _ => true
  | .queueMap _ => true
  | .unmapStart _ => true
  | .unmapComplete _ _ => true
  | .recordTake _ _ => true
  | .placement _ => true
  | .sliceTick _ => true
  | .sliceExpiry _ => true
  | .preemptionHalt _ => true
  | .contextSave _ => true
  | .resumption _ => true
  | .launchCompletion _ => true
  | .watchdogPoll _ _ => true
  | .watchdogExpiry _ => true
  | .powerOn _ => true
  | .powerLoss => true
  | .throttle _ => true
  | .thermalShutdown => true
  | .ident _ => true
  | .reset _ _ => true
  | .partition _ => true
  | .load _ => true
  | .start _ => true
  | .stop _ => true
  | .attest _ => true
  | .counters _ => true
  | .thermal _ _ => true
  | .domain _ _ _ _ => true
  | .hostwin _ _ => true
  | .keys _ _ => true
  | .unsupportedRdmaRequest _ => true

end Sys2Proof
end

