-- ==== Sys2Proof/Decode.lean ====
section
/-! DEFINITION. Decoding (R47 to R59, orders 2 to 6) and, after it, the encoder. -/

namespace Sys2Proof

/-- The two traps a decoder raises: orders 2 to 5 of R59 (tcause 1) and order 6 (tcause 2). -/
inductive Reject where
  | illegalInstr
  | illegalOperand
  deriving DecidableEq, Repr

abbrev D := Except Reject

/-- The fields of an instruction word (R47) and the extension word before it (R54). -/
structure Fields where
  opc : BitVec 12
  ga : BitVec 6
  gb : BitVec 6
  o1 : BitVec 7 := 0
  o2 : BitVec 7 := 0
  o3 : BitVec 7 := 0
  o4 : BitVec 7 := 0
  o5 : BitVec 7 := 0
  imm : BitVec 32 := 0
  hint : BitVec 2 := 0
  sch : BitVec 3 := 0
  ext : Option IWord := none
  deriving DecidableEq, Repr

/-- R47: the fields of a word. -/
def unpack (ext : Option IWord) (w : IWord) : Fields :=
  { opc := w.extractLsb' 84 12, ga := w.extractLsb' 78 6, gb := w.extractLsb' 72 6,
    o1 := w.extractLsb' 65 7, o2 := w.extractLsb' 58 7, o3 := w.extractLsb' 51 7,
    o4 := w.extractLsb' 44 7, o5 := w.extractLsb' 37 7, imm := w.extractLsb' 5 32,
    hint := w.extractLsb' 3 2, sch := w.extractLsb' 0 3, ext := ext }

/-- R47: the word of the fields. -/
def pack (f : Fields) : IWord :=
  f.opc ++ f.ga ++ f.gb ++ f.o1 ++ f.o2 ++ f.o3 ++ f.o4 ++ f.o5 ++ f.imm ++ f.hint ++ f.sch

/-- HINT and SCH both zero (R52). -/
def Fields.plain (f : Fields) : Bool := f.hint == 0 && f.sch == 0

/-- Order 5 of R59. -/
def rsv (ok : Bool) : D Unit := if ok then .ok () else .error .illegalInstr
/-- Order 6 of R59. -/
def opd (ok : Bool) : D Unit := if ok then .ok () else .error .illegalOperand

/-! Guards (R48). -/

def decGuard (lim : Nat) (c : BitVec 6) : D Guard :=
  if c = 0x1F#6 then .ok .always
  else if (c.extractLsb' 0 5).toNat < lim then .ok (.reg ((c.extractLsb' 5 1) == 1#1) (c.extractLsb' 0 5))
  else .error .illegalInstr

def encGuard : Guard → BitVec 6
  | .always => 0x1F#6
  | .reg n r => BitVec.ofBool n ++ r

def decGuards (lim : Nat) (f : Fields) : D Guards := do
  let a ← decGuard lim f.ga
  let b ← decGuard lim f.gb
  return ⟨a, b⟩

/-- The fields of an A-side instruction with nothing but guards. -/
def Fields.a (c : BitVec 12) (g : Guards) : Fields := { opc := c, ga := encGuard g.a, gb := encGuard g.b }
/-- The fields of an X-side instruction with nothing but guards and SCH. -/
def Fields.x (c : BitVec 12) (x : XCtl) : Fields :=
  { opc := c, ga := encGuard x.g.a, gb := encGuard x.g.b, sch := x.sch }
/-- The fields of an X-side instruction that takes no guards. -/
def Fields.s (c : BitVec 12) (sch : BitVec 3) : Fields := { opc := c, ga := 0x1F#6, gb := 0x1F#6, sch := sch }

/-! Operand codes (R49, R50). -/

def decS (c : BitVec 7) : D SReg := if (c.extractLsb' 6 1) = 0#1 then .ok (c.extractLsb' 0 6) else .error .illegalOperand
def encS (r : SReg) : BitVec 7 := 0#1 ++ r
def decVR (c : BitVec 7) : D VReg := if (c.extractLsb' 5 2) = 2#2 then .ok (c.extractLsb' 0 5) else .error .illegalOperand
def encVR (r : VReg) : BitVec 7 := 2#2 ++ r
def decLQ (c : BitVec 7) : D LQ := if (c.extractLsb' 2 5) = 0x18#5 then .ok (c.extractLsb' 0 2) else .error .illegalOperand
def encLQ (q : LQ) : BitVec 7 := 0x18#5 ++ q
def decSQ (c : BitVec 7) : D SQ := if (c.extractLsb' 1 6) = 0x32#6 then .ok (c.extractLsb' 0 1) else .error .illegalOperand
def encSQ (q : SQ) : BitVec 7 := 0x32#6 ++ q
def decXQ (c : BitVec 7) : D Unit := opd (c == 0x66#7)
def encXQ : BitVec 7 := 0x66#7
def decM (c : BitVec 7) : D MReg := if 0x68 ≤ c.toNat then .ok ((c - 0x68#7).extractLsb' 0 5) else .error .illegalOperand
def encM (m : MReg) : BitVec 7 := (0#2 ++ m) + 0x68#7
/-- A predicate field holds its index in bits 2:0 and zeros above (R121). -/
def decP (c : BitVec 7) : D PReg := if (c.extractLsb' 3 4) = 0#4 then .ok (c.extractLsb' 0 3) else .error .illegalOperand
def encP (p : PReg) : BitVec 7 := 0#4 ++ p

def decV (c : BitVec 7) : D VSrc :=
  if (c.extractLsb' 5 2) = 2#2 then .ok (.v (c.extractLsb' 0 5))
  else if (c.extractLsb' 2 5) = 0x18#5 then .ok (.lq (c.extractLsb' 0 2))
  else .error .illegalOperand
def encV : VSrc → BitVec 7
  | .v r => encVR r
  | .lq q => encLQ q
def decD (c : BitVec 7) : D VDst :=
  if (c.extractLsb' 5 2) = 2#2 then .ok (.v (c.extractLsb' 0 5))
  else if (c.extractLsb' 1 6) = 0x32#6 then .ok (.sq (c.extractLsb' 0 1))
  else .error .illegalOperand
def encD : VDst → BitVec 7
  | .v r => encVR r
  | .sq q => encSQ q
def decVS (c : BitVec 7) : D VSrcS :=
  if (c.extractLsb' 6 1) = 0#1 then .ok (.s (c.extractLsb' 0 6))
  else if (c.extractLsb' 5 2) = 2#2 then .ok (.vec (.v (c.extractLsb' 0 5)))
  else if (c.extractLsb' 2 5) = 0x18#5 then .ok (.vec (.lq (c.extractLsb' 0 2)))
  else .error .illegalOperand
def encVS : VSrcS → BitVec 7
  | .vec x => encV x
  | .s r => encS r
def decR (c : BitVec 7) : D RDst :=
  if (c.extractLsb' 5 2) = 2#2 then .ok (.v (c.extractLsb' 0 5))
  else if c = 0x66#7 then .ok .xq
  else .error .illegalOperand
def encR : RDst → BitVec 7
  | .v r => encVR r
  | .xq => 0x66#7
def decCB (c : BitVec 7) : D CbDst :=
  if c = 0x66#7 then .ok .xq
  else if (c.extractLsb' 5 2) = 2#2 then .ok (.vec (.v (c.extractLsb' 0 5)))
  else if (c.extractLsb' 1 6) = 0x32#6 then .ok (.vec (.sq (c.extractLsb' 0 1)))
  else .error .illegalOperand
def encCB : CbDst → BitVec 7
  | .vec d => encD d
  | .xq => 0x66#7
def decDQ (c : BitVec 7) : D DropQ :=
  if c = 0x66#7 then .ok .xq
  else if (c.extractLsb' 1 6) = 0x32#6 then .ok (.sq (c.extractLsb' 0 1))
  else .error .illegalOperand
def encDQ : DropQ → BitVec 7
  | .sq q => encSQ q
  | .xq => 0x66#7
/-- VAMO's destination: an lq, or s0 (R254). -/
def decOLQ (c : BitVec 7) : D (Option LQ) :=
  if c = 0#7 then .ok none
  else if (c.extractLsb' 2 5) = 0x18#5 then .ok (some (c.extractLsb' 0 2))
  else .error .illegalOperand
def encOLQ : Option LQ → BitVec 7
  | none => 0#7
  | some q => encLQ q
/-- CBLD's source: v, lq, or s0 for none (R208). -/
def decOV (c : BitVec 7) : D (Option VSrc) :=
  if c = 0#7 then .ok none
  else if (c.extractLsb' 5 2) = 2#2 then .ok (some (.v (c.extractLsb' 0 5)))
  else if (c.extractLsb' 2 5) = 0x18#5 then .ok (some (.lq (c.extractLsb' 0 2)))
  else .error .illegalOperand
def encOV : Option VSrc → BitVec 7
  | none => 0#7
  | some x => encV x

/-! Selectors. -/

/-- R133. -/
def decCond (c : BitVec 4) : D Cond :=
  match c.toNat with
  | 0 => .ok .eq | 1 => .ok .ne | 2 => .ok .lt | 3 => .ok .ge | 4 => .ok .ltu | 5 => .ok .geu
  | 6 => .ok .gt | 7 => .ok .le | 8 => .ok .gtu | 9 => .ok .leu | 10 => .ok .tst | 11 => .ok .tstn
  | _ => .error .illegalInstr
def encCond : Cond → BitVec 4
  | .eq => 0 | .ne => 1 | .lt => 2 | .ge => 3 | .ltu => 4 | .geu => 5
  | .gt => 6 | .le => 7 | .gtu => 8 | .leu => 9 | .tst => 10 | .tstn => 11
/-- R170. -/
def decFcond (c : BitVec 4) : D FCond :=
  match c.toNat with
  | 0 => .ok .eq | 1 => .ok .ne | 2 => .ok .lt | 3 => .ok .ge
  | 6 => .ok .gt | 7 => .ok .le | 12 => .ok .uo | 13 => .ok .ord
  | _ => .error .illegalInstr
def encFcond : FCond → BitVec 4
  | .eq => 0 | .ne => 1 | .lt => 2 | .ge => 3 | .gt => 6 | .le => 7 | .uo => 12 | .ord => 13
/-- R331. -/
def decScope (c : BitVec 3) : D Scope :=
  match c.toNat with
  | 0 => .ok .hart | 1 => .ok .core | 2 => .ok .die | 3 => .ok .package | 4 => .ok .domain
  | _ => .error .illegalInstr
def encScope : Scope → BitVec 3
  | .hart => 0 | .core => 1 | .die => 2 | .package => 3 | .domain => 4
/-- R242, R337: KIND 0 is not a fence. -/
def decOkind (c : BitVec 2) : D OKind :=
  match c.toNat with
  | 1 => .ok .acq | 2 => .ok .rel | 3 => .ok .ar
  | _ => .error .illegalInstr
def encOkind : OKind → BitVec 2
  | .acq => 1 | .rel => 2 | .ar => 3
/-- The ordering field (R242). -/
def decOrdAny (c : BitVec 7) : D Ord := do
  if (c.extractLsb' 3 2) = 0#2 then
    rsv (c == 0)
    return .plain
  else
    rsv ((c.extractLsb' 5 2) == 0)
    let k ← decOkind (c.extractLsb' 3 2)
    let s ← decScope (c.extractLsb' 0 3)
    return .ord k s
def decOrdLoad (c : BitVec 7) : D Ord := do
  let o ← decOrdAny c
  rsv o.forLoad
  return o
def decOrdStore (c : BitVec 7) : D Ord := do
  let o ← decOrdAny c
  rsv o.forStore
  return o
def encOrd : Ord → BitVec 7
  | .plain => 0
  | .ord k s => 0#2 ++ encOkind k ++ encScope s
/-- R52, R243: HINT of a store. -/
def decSHint (c : BitVec 2) : D SHint :=
  match c.toNat with
  | 0 => .ok .none | 1 => .ok .st | 2 => .ok .kp | _ => .error .illegalInstr
def encSHint : SHint → BitVec 2
  | .none => 0 | .st => 1 | .kp => 2
/-- HINT of a load and OP4, the count register of .ct. -/
def decLHint (c : BitVec 2) (o4 : BitVec 7) : D LHint :=
  match c.toNat with
  | 0 => .ok .none | 1 => .ok .st | 2 => .ok .kp
  | _ => do
    let r ← decS o4
    return .ct r
def encLHint : LHint → BitVec 2
  | .none => 0 | .st => 1 | .kp => 2 | .ct _ => 3
def encLHintReg : LHint → BitVec 7
  | .ct r => encS r
  | _ => 0
/-- A width field that accepts .w and .d (true). -/
def decWd (c : BitVec 2) : D Bool :=
  match c.toNat with
  | 2 => .ok false | 3 => .ok true | _ => .error .illegalInstr
def encWd (b : Bool) : BitVec 2 := if b then 3 else 2
/-- A width field that accepts .w and .h (true). -/
def decWh (c : BitVec 2) : D Bool :=
  match c.toNat with
  | 2 => .ok false | 1 => .ok true | _ => .error .illegalInstr
def encWh (b : Bool) : BitVec 2 := if b then 1 else 2

/-- R123: the CSR numbers; a number not in the map is an illegal instruction (R124). -/
def decCsr (c : BitVec 12) : D Csr :=
  match c.toNat with
  | 0x000 => .ok .vl | 0x001 => .ok .vlh | 0x002 => .ok .vlmax | 0x003 => .ok .vlcap
  | 0x004 => .ok .shp | 0x005 => .ok .ffe | 0x006 => .ok .vsat | 0x007 => .ok .fflags
  | 0x008 => .ok .srseed | 0x010 => .ok .tagmap | 0x011 => .ok .tagown | 0x012 => .ok .cbown
  | 0x013 => .ok .tilown | 0x014 => .ok .leases | 0x020 => .ok .cx | 0x021 => .ok .cy
  | 0x022 => .ok .cw | 0x023 => .ok .ch | 0x024 => .ok .hid | 0x025 => .ok .nh
  | 0x026 => .ok .lanes | 0x030 => .ok .ccount | 0x031 => .ok .icount | 0x040 => .ok .bnd0
  | 0x041 => .ok .bnd1 | 0x042 => .ok .bnd2 | 0x100 => .ok .tvec | 0x101 => .ok .tcause
  | 0x102 => .ok .tside | 0x103 => .ok .tpc | 0x104 => .ok .teix | 0x105 => .ok .tval
  | 0x106 => .ok .tstat | 0x107 => .ok .tscratch | 0x108 => .ok .txw | 0x110 => .ok .ptbase
  | 0x120 => .ok .savearea
  | _ => .error .illegalInstr
def encCsr : Csr → BitVec 12
  | .vl => 0x000 | .vlh => 0x001 | .vlmax => 0x002 | .vlcap => 0x003
  | .shp => 0x004 | .ffe => 0x005 | .vsat => 0x006 | .fflags => 0x007
  | .srseed => 0x008 | .tagmap => 0x010 | .tagown => 0x011 | .cbown => 0x012
  | .tilown => 0x013 | .leases => 0x014 | .cx => 0x020 | .cy => 0x021
  | .cw => 0x022 | .ch => 0x023 | .hid => 0x024 | .nh => 0x025
  | .lanes => 0x026 | .ccount => 0x030 | .icount => 0x031 | .bnd0 => 0x040
  | .bnd1 => 0x041 | .bnd2 => 0x042 | .tvec => 0x100 | .tcause => 0x101
  | .tside => 0x102 | .tpc => 0x103 | .teix => 0x104 | .tval => 0x105
  | .tstat => 0x106 | .tscratch => 0x107 | .txw => 0x108 | .ptbase => 0x110
  | .savearea => 0x120

/-! The third operand of the immediate forms (R53, R54). -/

def decImm (f : Fields) : D Imm :=
  match f.ext with
  | none => .ok (.imm f.imm)
  | some e => do
    rsv (f.imm == 0 && (e.extractLsb' 64 32) == 0)
    return .ext (e.extractLsb' 0 64)
def encImm : Imm → BitVec 32
  | .imm i => i
  | .ext _ => 0
def encExt : Imm → Option IWord
  | .imm _ => none
  | .ext v => some (0#32 ++ v)

/-! One decoder and one encoder per argument structure. Orders 4 and 5 of R59 come first, then order 6. -/

def decBare (u : Fields) : D Bare := do
  let g ← decGuards 8 u
  rsv (u.o1 == 0 && u.o2 == 0 && u.o3 == 0 && u.o4 == 0 && u.o5 == 0 && u.plain && u.imm == 0)
  return ⟨g⟩

def encBare (c : BitVec 12) (x : Bare) : Fields := Fields.a c x.g

def decGImm (u : Fields) : D GImm := do
  let g ← decGuards 8 u
  rsv (u.o1 == 0 && u.o2 == 0 && u.o3 == 0 && u.o4 == 0 && u.o5 == 0 && u.plain)
  let imm := u.imm
  return ⟨g, imm⟩

def encGImm (c : BitVec 12) (x : GImm) : Fields :=
  { Fields.a c x.g with imm := x.imm }

def decJmp (u : Fields) : D Jmp := do
  let g ← decGuards 8 u
  rsv (u.o1 == 0 && u.o3 == 0 && u.o4 == 0 && u.o5 == 0 && u.plain && u.imm == 0)
  let a ← decS u.o2
  return ⟨g, a⟩

def encJmp (c : BitVec 12) (x : Jmp) : Fields :=
  { Fields.a c x.g with o2 := encS x.a }

def decStrip (u : Fields) : D Strip := do
  let g ← decGuards 8 u
  rsv (u.plain && (u.imm.extractLsb' 22 1) == 0 && (u.imm.extractLsb' 25 1) == 0 && (u.imm.extractLsb' 28 1) == 0 && (u.imm.extractLsb' 31 1) == 0)
  let off := u.imm.extractLsb' 0 20
  let z2 := u.imm.extractLsb' 20 2
  let z3 := u.imm.extractLsb' 23 2
  let z4 := u.imm.extractLsb' 26 2
  let z5 := u.imm.extractLsb' 29 2
  let n ← decS u.o1
  let p2 ← decS u.o2
  let p3 ← decS u.o3
  let p4 ← decS u.o4
  let p5 ← decS u.o5
  return ⟨g, n, p2, p3, p4, p5, z2, z3, z4, z5, off⟩

def encStrip (c : BitVec 12) (x : Strip) : Fields :=
  { Fields.a c x.g with o1 := encS x.n, o2 := encS x.p2, o3 := encS x.p3, o4 := encS x.p4, o5 := encS x.p5, imm := 0#1 ++ x.z5 ++ 0#1 ++ x.z4 ++ 0#1 ++ x.z3 ++ 0#1 ++ x.z2 ++ x.off }

def decVsetl (u : Fields) : D Vsetl := do
  let g ← decGuards 8 u
  rsv (u.plain && (u.imm.extractLsb' 0 20) == 0 && (u.imm.extractLsb' 22 1) == 0 && (u.imm.extractLsb' 25 1) == 0 && (u.imm.extractLsb' 28 1) == 0 && (u.imm.extractLsb' 31 1) == 0)
  let z2 := u.imm.extractLsb' 20 2
  let z3 := u.imm.extractLsb' 23 2
  let z4 := u.imm.extractLsb' 26 2
  let z5 := u.imm.extractLsb' 29 2
  let n ← decS u.o1
  let p2 ← decS u.o2
  let p3 ← decS u.o3
  let p4 ← decS u.o4
  let p5 ← decS u.o5
  return ⟨g, n, p2, p3, p4, p5, z2, z3, z4, z5⟩

def encVsetl (c : BitVec 12) (x : Vsetl) : Fields :=
  { Fields.a c x.g with o1 := encS x.n, o2 := encS x.p2, o3 := encS x.p3, o4 := encS x.p4, o5 := encS x.p5, imm := 0#1 ++ x.z5 ++ 0#1 ++ x.z4 ++ 0#1 ++ x.z3 ++ 0#1 ++ x.z2 ++ 0#20 }

def decYield (u : Fields) : D Yield := do
  let g ← decGuards 8 u
  rsv (u.o1 == 0 && u.o2 == 0 && u.o3 == 0 && u.o4 == 0 && u.o5 == 0 && u.plain && (u.imm.extractLsb' 10 22) == 0)
  let n := u.imm.extractLsb' 0 10
  return ⟨g, n⟩

def encYield (c : BitVec 12) (x : Yield) : Fields :=
  { Fields.a c x.g with imm := 0#22 ++ x.n }

def decCsrRd (u : Fields) : D CsrRd := do
  let g ← decGuards 8 u
  rsv (u.o2 == 0 && u.o3 == 0 && u.o4 == 0 && u.o5 == 0 && u.plain && (u.imm.extractLsb' 12 20) == 0)
  let c ← decCsr (u.imm.extractLsb' 0 12)
  let d ← decS u.o1
  return ⟨g, d, c⟩

def encCsrRd (c : BitVec 12) (x : CsrRd) : Fields :=
  { Fields.a c x.g with o1 := encS x.d, imm := 0#20 ++ encCsr x.c }

def decFence (u : Fields) : D Fence := do
  let g ← decGuards 8 u
  rsv (u.o1 == 0 && u.o2 == 0 && u.o3 == 0 && u.o4 == 0 && u.o5 == 0 && u.plain && (u.imm.extractLsb' 5 27) == 0)
  let s ← decScope (u.imm.extractLsb' 0 3)
  let k ← decOkind (u.imm.extractLsb' 3 2)
  return ⟨g, k, s⟩

def encFence (c : BitVec 12) (x : Fence) : Fields :=
  { Fields.a c x.g with imm := 0#27 ++ encOkind x.k ++ encScope x.s }

def decTlbinv (u : Fields) : D Tlbinv := do
  let g ← decGuards 8 u
  rsv (u.o1 == 0 && u.o3 == 0 && u.o4 == 0 && u.o5 == 0 && u.plain && (u.imm.extractLsb' 2 30) == 0)
  let k := u.imm.extractLsb' 0 2
  rsv (k != 3)
  let a ← decS u.o2
  return ⟨g, a, k⟩

def encTlbinv (c : BitVec 12) (x : Tlbinv) : Fields :=
  { Fields.a c x.g with o2 := encS x.a, imm := 0#30 ++ x.k }

def decA3 (u : Fields) : D A3 := do
  let g ← decGuards 8 u
  rsv (u.o1 == 0 && u.o5 == 0 && u.plain && u.imm == 0)
  let a ← decS u.o2
  let b ← decS u.o3
  let c ← decS u.o4
  return ⟨g, a, b, c⟩

def encA3 (c : BitVec 12) (x : A3) : Fields :=
  { Fields.a c x.g with o2 := encS x.a, o3 := encS x.b, o4 := encS x.c }

def decABin (u : Fields) : D ABin := do
  let g ← decGuards 8 u
  rsv (u.o4 == 0 && u.o5 == 0 && u.plain && u.imm == 0)
  let d ← decS u.o1
  let a ← decS u.o2
  let b ← decS u.o3
  return ⟨g, d, a, b⟩

def encABin (c : BitVec 12) (x : ABin) : Fields :=
  { Fields.a c x.g with o1 := encS x.d, o2 := encS x.a, o3 := encS x.b }

def decAImm (u : Fields) : D AImm := do
  let g ← decGuards 8 u
  rsv (u.o3 == 0 && u.o4 == 0 && u.o5 == 0 && u.plain)
  let i ← decImm u
  let d ← decS u.o1
  let a ← decS u.o2
  return ⟨g, d, a, i⟩

def encAImm (c : BitVec 12) (x : AImm) : Fields :=
  { Fields.a c x.g with o1 := encS x.d, o2 := encS x.a, imm := encImm x.i, ext := encExt x.i }

def decAUn (u : Fields) : D AUn := do
  let g ← decGuards 8 u
  rsv (u.o3 == 0 && u.o4 == 0 && u.o5 == 0 && u.plain && u.imm == 0)
  let d ← decS u.o1
  let a ← decS u.o2
  return ⟨g, d, a⟩

def encAUn (c : BitVec 12) (x : AUn) : Fields :=
  { Fields.a c x.g with o1 := encS x.d, o2 := encS x.a }

def decAUnZ (u : Fields) : D AUnZ := do
  let g ← decGuards 8 u
  rsv (u.o3 == 0 && u.o4 == 0 && u.o5 == 0 && u.plain && (u.imm.extractLsb' 2 30) == 0)
  let z := u.imm.extractLsb' 0 2
  let d ← decS u.o1
  let a ← decS u.o2
  return ⟨g, d, a, z⟩

def encAUnZ (c : BitVec 12) (x : AUnZ) : Fields :=
  { Fields.a c x.g with o1 := encS x.d, o2 := encS x.a, imm := 0#30 ++ x.z }

def decMovi (u : Fields) : D Movi := do
  let g ← decGuards 8 u
  rsv (u.o2 == 0 && u.o3 == 0 && u.o4 == 0 && u.o5 == 0 && u.plain)
  let i := u.imm
  let d ← decS u.o1
  return ⟨g, d, i⟩

def encMovi (c : BitVec 12) (x : Movi) : Fields :=
  { Fields.a c x.g with o1 := encS x.d, imm := x.i }

def decCmp (u : Fields) : D Cmp := do
  let g ← decGuards 8 u
  rsv (u.o4 == 0 && u.o5 == 0 && u.plain && (u.imm.extractLsb' 4 28) == 0)
  let c ← decCond (u.imm.extractLsb' 0 4)
  let d ← decP u.o1
  let a ← decS u.o2
  let b ← decS u.o3
  return ⟨g, d, a, b, c⟩

def encCmp (c : BitVec 12) (x : Cmp) : Fields :=
  { Fields.a c x.g with o1 := encP x.d, o2 := encS x.a, o3 := encS x.b, imm := 0#28 ++ encCond x.c }

def decPlog (u : Fields) : D Plog := do
  let g ← decGuards 8 u
  rsv (u.o4 == 0 && u.o5 == 0 && u.plain && (u.imm.extractLsb' 4 28) == 0)
  let t := u.imm.extractLsb' 0 4
  let d ← decP u.o1
  let a ← decP u.o2
  let b ← decP u.o3
  return ⟨g, d, a, b, t⟩

def encPlog (c : BitVec 12) (x : Plog) : Fields :=
  { Fields.a c x.g with o1 := encP x.d, o2 := encP x.a, o3 := encP x.b, imm := 0#28 ++ x.t }

def decHashs (u : Fields) : D Hashs := do
  let g ← decGuards 8 u
  rsv (u.o4 == 0 && u.o5 == 0 && u.plain && (u.imm.extractLsb' 2 30) == 0)
  let z := u.imm.extractLsb' 0 2
  let d ← decS u.o1
  let a ← decS u.o2
  let b ← decS u.o3
  return ⟨g, d, a, b, z⟩

def encHashs (c : BitVec 12) (x : Hashs) : Fields :=
  { Fields.a c x.g with o1 := encS x.d, o2 := encS x.a, o3 := encS x.b, imm := 0#30 ++ x.z }

def decLease (u : Fields) : D Lease := do
  let g ← decGuards 8 u
  rsv (u.o1 == 0 && u.o3 == 0 && u.o5 == 0 && u.plain)
  let off := u.imm
  let b ← decS u.o2
  let n := u.o4
  return ⟨g, b, n, off⟩

def encLease (c : BitVec 12) (x : Lease) : Fields :=
  { Fields.a c x.g with o2 := encS x.b, o4 := x.n, imm := x.off }

def decUnlease (u : Fields) : D Unlease := do
  let g ← decGuards 8 u
  rsv (u.o1 == 0 && u.o3 == 0 && u.o4 == 0 && u.o5 == 0 && u.plain)
  let off := u.imm
  let b ← decS u.o2
  return ⟨g, b, off⟩

def encUnlease (c : BitVec 12) (x : Unlease) : Fields :=
  { Fields.a c x.g with o2 := encS x.b, imm := x.off }

def decCmaint (u : Fields) : D Cmaint := do
  let g ← decGuards 8 u
  rsv (u.o1 == 0 && u.o3 == 0 && u.o4 == 0 && u.o5 == 0 && u.plain && (u.imm.extractLsb' 0 2) == 0)
  let col := (u.imm.extractLsb' 2 1) == 1#1
  let off := u.imm.extractLsb' 3 29
  let b ← decS u.o2
  return ⟨g, b, col, off⟩

def encCmaint (c : BitVec 12) (x : Cmaint) : Fields :=
  { Fields.a c x.g with o2 := encS x.b, imm := x.off ++ BitVec.ofBool x.col ++ 0#2 }

def decCpref (u : Fields) : D Cpref := do
  let g ← decGuards 8 u
  rsv (u.o1 == 0 && u.o4 == 0 && u.o5 == 0 && u.plain && (u.imm.extractLsb' 0 2) == 0)
  let col := (u.imm.extractLsb' 2 1) == 1#1
  let off := u.imm.extractLsb' 3 29
  let b ← decS u.o2
  let c ← decS u.o3
  return ⟨g, b, c, col, off⟩

def encCpref (c : BitVec 12) (x : Cpref) : Fields :=
  { Fields.a c x.g with o2 := encS x.b, o3 := encS x.c, imm := x.off ++ BitVec.ofBool x.col ++ 0#2 }

def decAtom (u : Fields) : D Atom := do
  let g ← decGuards 8 u
  rsv (u.o4 == 0 && u.plain && (u.imm.extractLsb' 2 1) == 0)
  let dbl ← decWd (u.imm.extractLsb' 0 2)
  let off := u.imm.extractLsb' 3 29
  let o ← decOrdAny u.o5
  let d ← decS u.o1
  let b ← decS u.o2
  let a ← decS u.o3
  return ⟨g, d, b, a, dbl, o, off⟩

def encAtom (c : BitVec 12) (x : Atom) : Fields :=
  { Fields.a c x.g with o1 := encS x.d, o2 := encS x.b, o3 := encS x.a, o5 := encOrd x.o, imm := x.off ++ 0#1 ++ encWd x.dbl }

def decAcas (u : Fields) : D Acas := do
  let g ← decGuards 8 u
  rsv (u.plain && (u.imm.extractLsb' 2 1) == 0)
  let dbl ← decWd (u.imm.extractLsb' 0 2)
  let off := u.imm.extractLsb' 3 29
  let o ← decOrdAny u.o5
  let d ← decS u.o1
  let b ← decS u.o2
  let e ← decS u.o3
  let n ← decS u.o4
  return ⟨g, d, b, e, n, dbl, o, off⟩

def encAcas (c : BitVec 12) (x : Acas) : Fields :=
  { Fields.a c x.g with o1 := encS x.d, o2 := encS x.b, o3 := encS x.e, o4 := encS x.n, o5 := encOrd x.o, imm := x.off ++ 0#1 ++ encWd x.dbl }

def decAfadd (u : Fields) : D Afadd := do
  let g ← decGuards 8 u
  rsv (u.o4 == 0 && u.plain && (u.imm.extractLsb' 0 2) == 2#2 && (u.imm.extractLsb' 2 1) == 0)
  let off := u.imm.extractLsb' 3 29
  let o ← decOrdAny u.o5
  let d ← decS u.o1
  let b ← decS u.o2
  let a ← decS u.o3
  return ⟨g, d, b, a, o, off⟩

def encAfadd (c : BitVec 12) (x : Afadd) : Fields :=
  { Fields.a c x.g with o1 := encS x.d, o2 := encS x.b, o3 := encS x.a, o5 := encOrd x.o, imm := x.off ++ 0#1 ++ 2#2 }

def decStlc (u : Fields) : D Stlc := do
  let g ← decGuards 8 u
  rsv (u.o4 == 0 && u.plain && (u.imm.extractLsb' 2 1) == 0)
  let z := u.imm.extractLsb' 0 2
  let off := u.imm.extractLsb' 3 29
  let o ← decOrdAny u.o5
  let d ← decP u.o1
  let b ← decS u.o2
  let a ← decS u.o3
  return ⟨g, d, b, a, z, o, off⟩

def encStlc (c : BitVec 12) (x : Stlc) : Fields :=
  { Fields.a c x.g with o1 := encP x.d, o2 := encS x.b, o3 := encS x.a, o5 := encOrd x.o, imm := x.off ++ 0#1 ++ x.z }

def decLoad (u : Fields) : D Load := do
  let g ← decGuards 8 u
  rsv (u.o3 == 0 && u.sch == 0)
  let off := u.imm
  let o ← decOrdLoad u.o5
  rsv (u.hint == 3 || u.o4 == 0)
  let d ← decS u.o1
  let b ← decS u.o2
  let h ← decLHint u.hint u.o4
  return ⟨g, d, b, h, o, off⟩

def encLoad (c : BitVec 12) (x : Load) : Fields :=
  { Fields.a c x.g with o1 := encS x.d, o2 := encS x.b, o5 := encOrd x.o, o4 := encLHintReg x.h, hint := encLHint x.h, imm := x.off }

def decStore (u : Fields) : D Store := do
  let g ← decGuards 8 u
  rsv (u.o1 == 0 && u.o4 == 0 && u.sch == 0)
  let off := u.imm
  let o ← decOrdStore u.o5
  let h ← decSHint u.hint
  let b ← decS u.o2
  let a ← decS u.o3
  return ⟨g, b, a, h, o, off⟩

def encStore (c : BitVec 12) (x : Store) : Fields :=
  { Fields.a c x.g with o2 := encS x.b, o3 := encS x.a, o5 := encOrd x.o, hint := encSHint x.h, imm := x.off }

def decVld (u : Fields) : D Vld := do
  let g ← decGuards 8 u
  rsv (u.o5 == 0 && u.sch == 0)
  let z := u.imm.extractLsb' 0 2
  let col := (u.imm.extractLsb' 2 1) == 1#1
  let off := u.imm.extractLsb' 3 29
  rsv (u.hint == 3 || u.o4 == 0)
  let q ← decLQ u.o1
  let b ← decS u.o2
  let p ← decS u.o3
  let h ← decLHint u.hint u.o4
  return ⟨g, q, b, p, h, z, col, off⟩

def encVld (c : BitVec 12) (x : Vld) : Fields :=
  { Fields.a c x.g with o1 := encLQ x.q, o2 := encS x.b, o3 := encS x.p, o4 := encLHintReg x.h, hint := encLHint x.h, imm := x.off ++ BitVec.ofBool x.col ++ x.z }

def decVldx (u : Fields) : D Vldx := do
  let g ← decGuards 8 u
  rsv (u.o3 == 0 && u.o5 == 0 && u.sch == 0 && (u.imm.extractLsb' 2 1) == 0)
  let z := u.imm.extractLsb' 0 2
  let off := u.imm.extractLsb' 3 29
  let h ← decSHint u.hint
  let q ← decLQ u.o1
  let b ← decS u.o2
  let i ← decSQ u.o4
  return ⟨g, q, b, i, h, z, off⟩

def encVldx (c : BitVec 12) (x : Vldx) : Fields :=
  { Fields.a c x.g with o1 := encLQ x.q, o2 := encS x.b, o4 := encSQ x.i, hint := encSHint x.h, imm := x.off ++ 0#1 ++ x.z }

def decVlds (u : Fields) : D Vlds := do
  let g ← decGuards 8 u
  rsv (u.o4 == 0 && u.o5 == 0 && u.plain)
  let z := u.imm.extractLsb' 0 2
  let col := (u.imm.extractLsb' 2 1) == 1#1
  let off := u.imm.extractLsb' 3 29
  let q ← decLQ u.o1
  let b ← decS u.o2
  let p ← decS u.o3
  return ⟨g, q, b, p, z, col, off⟩

def encVlds (c : BitVec 12) (x : Vlds) : Fields :=
  { Fields.a c x.g with o1 := encLQ x.q, o2 := encS x.b, o3 := encS x.p, imm := x.off ++ BitVec.ofBool x.col ++ x.z }

def decVst (u : Fields) : D Vst := do
  let g ← decGuards 8 u
  rsv (u.o1 == 0 && u.o5 == 0 && u.sch == 0)
  let z := u.imm.extractLsb' 0 2
  let col := (u.imm.extractLsb' 2 1) == 1#1
  let off := u.imm.extractLsb' 3 29
  let h ← decSHint u.hint
  let b ← decS u.o2
  let p ← decS u.o3
  let d ← decSQ u.o4
  return ⟨g, b, p, d, h, z, col, off⟩

def encVst (c : BitVec 12) (x : Vst) : Fields :=
  { Fields.a c x.g with o2 := encS x.b, o3 := encS x.p, o4 := encSQ x.d, hint := encSHint x.h, imm := x.off ++ BitVec.ofBool x.col ++ x.z }

def decVstx (u : Fields) : D Vstx := do
  let g ← decGuards 8 u
  rsv (u.o1 == 0 && u.o3 == 0 && u.sch == 0 && (u.imm.extractLsb' 2 1) == 0)
  let z := u.imm.extractLsb' 0 2
  let off := u.imm.extractLsb' 3 29
  let h ← decSHint u.hint
  let b ← decS u.o2
  let i ← decSQ u.o4
  let d ← decSQ u.o5
  opd (i != d)
  return ⟨g, b, i, d, h, z, off⟩

def encVstx (c : BitVec 12) (x : Vstx) : Fields :=
  { Fields.a c x.g with o2 := encS x.b, o4 := encSQ x.i, o5 := encSQ x.d, hint := encSHint x.h, imm := x.off ++ 0#1 ++ x.z }

def decVsts (u : Fields) : D Vsts := do
  let g ← decGuards 8 u
  rsv (u.o1 == 0 && u.o5 == 0 && u.plain)
  let z := u.imm.extractLsb' 0 2
  let col := (u.imm.extractLsb' 2 1) == 1#1
  let off := u.imm.extractLsb' 3 29
  let b ← decS u.o2
  let p ← decS u.o3
  let d ← decSQ u.o4
  return ⟨g, b, p, d, z, col, off⟩

def encVsts (c : BitVec 12) (x : Vsts) : Fields :=
  { Fields.a c x.g with o2 := encS x.b, o3 := encS x.p, o4 := encSQ x.d, imm := x.off ++ BitVec.ofBool x.col ++ x.z }

def decVldsx (u : Fields) : D Vldsx := do
  let g ← decGuards 8 u
  rsv (u.o3 == 0 && u.o5 == 0 && u.plain && (u.imm.extractLsb' 2 1) == 0)
  let z := u.imm.extractLsb' 0 2
  let off := u.imm.extractLsb' 3 29
  let q ← decLQ u.o1
  let b ← decS u.o2
  let i ← decSQ u.o4
  return ⟨g, q, b, i, z, off⟩

def encVldsx (c : BitVec 12) (x : Vldsx) : Fields :=
  { Fields.a c x.g with o1 := encLQ x.q, o2 := encS x.b, o4 := encSQ x.i, imm := x.off ++ 0#1 ++ x.z }

def decVstsx (u : Fields) : D Vstsx := do
  let g ← decGuards 8 u
  rsv (u.o1 == 0 && u.o3 == 0 && u.plain && (u.imm.extractLsb' 2 1) == 0)
  let z := u.imm.extractLsb' 0 2
  let off := u.imm.extractLsb' 3 29
  let b ← decS u.o2
  let i ← decSQ u.o4
  let d ← decSQ u.o5
  opd (i != d)
  return ⟨g, b, i, d, z, off⟩

def encVstsx (c : BitVec 12) (x : Vstsx) : Fields :=
  { Fields.a c x.g with o2 := encS x.b, o4 := encSQ x.i, o5 := encSQ x.d, imm := x.off ++ 0#1 ++ x.z }

def decVamo (u : Fields) : D Vamo := do
  let g ← decGuards 8 u
  rsv (u.plain && (u.imm.extractLsb' 2 1) == 0 && (u.imm.extractLsb' 6 1) == 0 && (u.imm.extractLsb' 7 25) == 0)
  let dbl ← decWd (u.imm.extractLsb' 0 2)
  let op := u.imm.extractLsb' 3 3
  rsv (!(dbl && op == 7))
  let q ← decOLQ u.o1
  let b ← decS u.o2
  let l ← decS u.o3
  let i ← decSQ u.o4
  let d ← decSQ u.o5
  opd (i != d)
  return ⟨g, q, b, l, i, d, dbl, op⟩

def encVamo (c : BitVec 12) (x : Vamo) : Fields :=
  { Fields.a c x.g with o1 := encOLQ x.q, o2 := encS x.b, o3 := encS x.l, o4 := encSQ x.i, o5 := encSQ x.d, imm := 0#25 ++ 0#1 ++ x.op ++ 0#1 ++ encWd x.dbl }

def decPopx (u : Fields) : D Popx := do
  let g ← decGuards 8 u
  rsv (u.o3 == 0 && u.o4 == 0 && u.o5 == 0 && u.plain && u.imm == 0)
  let d ← decS u.o1
  decXQ u.o2
  return ⟨g, d⟩

def encPopx (c : BitVec 12) (x : Popx) : Fields :=
  { Fields.a c x.g with o1 := encS x.d, o2 := encXQ }

def decQdrop (u : Fields) : D Qdrop := do
  let g ← decGuards 8 u
  rsv (u.o1 == 0 && u.o3 == 0 && u.o4 == 0 && u.o5 == 0 && u.plain && (u.imm.extractLsb' 5 27) == 0)
  let n := u.imm.extractLsb' 0 5
  let q ← decDQ u.o2
  return ⟨g, q, n⟩

def encQdrop (c : BitVec 12) (x : Qdrop) : Fields :=
  { Fields.a c x.g with o2 := encDQ x.q, imm := 0#27 ++ x.n }

def decPcopy (u : Fields) : D Pcopy := do
  let g ← decGuards 8 u
  rsv (u.o5 == 0 && u.sch == 0 && (u.imm.extractLsb' 0 2) == 0 && (u.imm.extractLsb' 2 1) == 0 && (u.imm.extractLsb' 11 21) == 0)
  let t := u.imm.extractLsb' 3 6
  let dp := (u.imm.extractLsb' 9 1) == 1#1
  let sp := (u.imm.extractLsb' 10 1) == 1#1
  let h ← decSHint u.hint
  let d ← decS u.o1
  let s ← decS u.o2
  let n ← decS u.o3
  let p ← decS u.o4
  return ⟨g, d, s, n, p, h, t, dp, sp⟩

def encPcopy (c : BitVec 12) (x : Pcopy) : Fields :=
  { Fields.a c x.g with o1 := encS x.d, o2 := encS x.s, o3 := encS x.n, o4 := encS x.p, hint := encSHint x.h, imm := 0#21 ++ BitVec.ofBool x.sp ++ BitVec.ofBool x.dp ++ x.t ++ 0#1 ++ 0#2 }

def decPdec (u : Fields) : D Pdec := do
  let g ← decGuards 8 u
  rsv (u.o4 == 0 && u.o5 == 0 && u.sch == 0 && (u.imm.extractLsb' 0 2) == 0 && (u.imm.extractLsb' 2 1) == 0 && (u.imm.extractLsb' 11 21) == 0)
  let t := u.imm.extractLsb' 3 6
  let dp := (u.imm.extractLsb' 9 1) == 1#1
  let sp := (u.imm.extractLsb' 10 1) == 1#1
  let h ← decSHint u.hint
  let d ← decS u.o1
  let s ← decS u.o2
  let n ← decS u.o3
  return ⟨g, d, s, n, h, t, dp, sp⟩

def encPdec (c : BitVec 12) (x : Pdec) : Fields :=
  { Fields.a c x.g with o1 := encS x.d, o2 := encS x.s, o3 := encS x.n, hint := encSHint x.h, imm := 0#21 ++ BitVec.ofBool x.sp ++ BitVec.ofBool x.dp ++ x.t ++ 0#1 ++ 0#2 }

def decPfill (u : Fields) : D Pfill := do
  let g ← decGuards 8 u
  rsv (u.o4 == 0 && u.o5 == 0 && u.sch == 0 && (u.imm.extractLsb' 2 1) == 0 && (u.imm.extractLsb' 10 1) == 0 && (u.imm.extractLsb' 11 21) == 0)
  let z := u.imm.extractLsb' 0 2
  let t := u.imm.extractLsb' 3 6
  let dp := (u.imm.extractLsb' 9 1) == 1#1
  let h ← decSHint u.hint
  let d ← decS u.o1
  let v ← decS u.o2
  let n ← decS u.o3
  return ⟨g, d, v, n, z, h, t, dp⟩

def encPfill (c : BitVec 12) (x : Pfill) : Fields :=
  { Fields.a c x.g with o1 := encS x.d, o2 := encS x.v, o3 := encS x.n, hint := encSHint x.h, imm := 0#21 ++ 0#1 ++ BitVec.ofBool x.dp ++ x.t ++ 0#1 ++ x.z }

def decTmask2 (u : Fields) : D Tmask2 := do
  let g ← decGuards 8 u
  rsv (u.o3 == 0 && u.o4 == 0 && u.o5 == 0 && u.plain && u.imm == 0)
  let d ← decS u.o1
  let m ← decS u.o2
  return ⟨g, d, m⟩

def encTmask2 (c : BitVec 12) (x : Tmask2) : Fields :=
  { Fields.a c x.g with o1 := encS x.d, o2 := encS x.m }

def decTmask (u : Fields) : D Tmask := do
  let g ← decGuards 8 u
  rsv (u.o1 == 0 && u.o3 == 0 && u.o4 == 0 && u.o5 == 0 && u.plain && u.imm == 0)
  let m ← decS u.o2
  return ⟨g, m⟩

def encTmask (c : BitVec 12) (x : Tmask) : Fields :=
  { Fields.a c x.g with o2 := encS x.m }

def decTfind (u : Fields) : D Tfind := do
  let g ← decGuards 8 u
  rsv (u.o3 == 0 && u.o4 == 0 && u.o5 == 0 && u.plain && (u.imm.extractLsb' 1 31) == 0)
  let c := (u.imm.extractLsb' 0 1) == 1#1
  let d ← decS u.o1
  let m ← decS u.o2
  return ⟨g, d, m, c⟩

def encTfind (c : BitVec 12) (x : Tfind) : Fields :=
  { Fields.a c x.g with o1 := encS x.d, o2 := encS x.m, imm := 0#31 ++ BitVec.ofBool x.c }

def decNbadd (u : Fields) : D Nbadd := do
  let g ← decGuards 8 u
  rsv (u.o1 == 0 && u.plain && (u.imm.extractLsb' 2 30) == 0)
  let bf ← decWh (u.imm.extractLsb' 0 2)
  let b ← decS u.o2
  let d ← decS u.o3
  let i ← decSQ u.o4
  let u ← decSQ u.o5
  opd (i != u)
  return ⟨g, b, d, i, u, bf⟩

def encNbadd (c : BitVec 12) (x : Nbadd) : Fields :=
  { Fields.a c x.g with o2 := encS x.b, o3 := encS x.d, o4 := encSQ x.i, o5 := encSQ x.u, imm := 0#30 ++ encWh x.bf }

def decNbopt (u : Fields) : D Nbopt := do
  let g ← decGuards 8 u
  rsv (u.plain && (u.imm.extractLsb' 0 2) == 2#2 && (u.imm.extractLsb' 2 1) == 0 && (u.imm.extractLsb' 4 28) == 0)
  let adam := (u.imm.extractLsb' 3 1) == 1#1
  let h ← decS u.o1
  let b ← decS u.o2
  let d ← decS u.o3
  let i ← decSQ u.o4
  let gr ← decSQ u.o5
  opd (i != gr)
  return ⟨g, b, d, h, i, gr, adam⟩

def encNbopt (c : BitVec 12) (x : Nbopt) : Fields :=
  { Fields.a c x.g with o1 := encS x.h, o2 := encS x.b, o3 := encS x.d, o4 := encSQ x.i, o5 := encSQ x.gr, imm := 0#28 ++ BitVec.ofBool x.adam ++ 0#1 ++ 2#2 }

def decSfpool (u : Fields) : D Sfpool := do
  let g ← decGuards 8 u
  rsv (u.plain && (u.imm.extractLsb' 2 1) == 0 && (u.imm.extractLsb' 5 27) == 0)
  let half ← decWh (u.imm.extractLsb' 0 2)
  let op := u.imm.extractLsb' 3 2
  let q ← decLQ u.o1
  let b ← decS u.o2
  let geo ← decS u.o3
  let s ← decSQ u.o4
  let l ← decS u.o5
  return ⟨g, q, b, geo, s, l, half, op⟩

def encSfpool (c : BitVec 12) (x : Sfpool) : Fields :=
  { Fields.a c x.g with o1 := encLQ x.q, o2 := encS x.b, o3 := encS x.geo, o4 := encSQ x.s, o5 := encS x.l, imm := 0#27 ++ x.op ++ 0#1 ++ encWh x.half }

def decRhopen (u : Fields) : D Rhopen := do
  let g ← decGuards 8 u
  rsv (u.o4 == 0 && u.o5 == 0 && u.plain && (u.imm.extractLsb' 3 29) == 0)
  let p := u.imm.extractLsb' 0 3
  let d ← decS u.o1
  let b ← decS u.o2
  let n ← decS u.o3
  return ⟨g, d, b, n, p⟩

def encRhopen (c : BitVec 12) (x : Rhopen) : Fields :=
  { Fields.a c x.g with o1 := encS x.d, o2 := encS x.b, o3 := encS x.n, imm := 0#29 ++ x.p }

def decRhprio (u : Fields) : D Rhprio := do
  let g ← decGuards 8 u
  rsv (u.o1 == 0 && u.o3 == 0 && u.o4 == 0 && u.o5 == 0 && u.plain && (u.imm.extractLsb' 3 29) == 0)
  let p := u.imm.extractLsb' 0 3
  let h ← decS u.o2
  return ⟨g, h, p⟩

def encRhprio (c : BitVec 12) (x : Rhprio) : Fields :=
  { Fields.a c x.g with o2 := encS x.h, imm := 0#29 ++ x.p }

def decRhbit (u : Fields) : D Rhbit := do
  let g ← decGuards 8 u
  rsv (u.o1 == 0 && u.o3 == 0 && u.o4 == 0 && u.o5 == 0 && u.plain && (u.imm.extractLsb' 1 31) == 0)
  let m := (u.imm.extractLsb' 0 1) == 1#1
  let h ← decS u.o2
  return ⟨g, h, m⟩

def encRhbit (c : BitVec 12) (x : Rhbit) : Fields :=
  { Fields.a c x.g with o2 := encS x.h, imm := 0#31 ++ BitVec.ofBool x.m }

def decGong (u : Fields) : D Gong := do
  let g ← decGuards 8 u
  rsv (u.o1 == 0 && u.o2 == 0 && u.o3 == 0 && u.o4 == 0 && u.o5 == 0 && u.plain && (u.imm.extractLsb' 6 2) == 0 && (u.imm.extractLsb' 14 18) == 0)
  let w := u.imm.extractLsb' 0 6
  let h := u.imm.extractLsb' 8 6
  return ⟨g, w, h⟩

def encGong (c : BitVec 12) (x : Gong) : Fields :=
  { Fields.a c x.g with imm := 0#18 ++ x.h ++ 0#2 ++ x.w }

def decPost (u : Fields) : D Post := do
  let g ← decGuards 8 u
  rsv (u.o1 == 0 && u.o3 == 0 && u.o4 == 0 && u.o5 == 0 && u.plain && (u.imm.extractLsb' 2 30) == 0)
  let c := u.imm.extractLsb' 0 2
  let n ← decS u.o2
  return ⟨g, n, c⟩

def encPost (c : BitVec 12) (x : Post) : Fields :=
  { Fields.a c x.g with o2 := encS x.n, imm := 0#30 ++ x.c }

def decQnotify (u : Fields) : D Qnotify := do
  let g ← decGuards 8 u
  rsv (u.o1 == 0 && u.o4 == 0 && u.o5 == 0 && u.plain && u.imm == 0)
  let q ← decS u.o2
  let v ← decS u.o3
  return ⟨g, q, v⟩

def encQnotify (c : BitVec 12) (x : Qnotify) : Fields :=
  { Fields.a c x.g with o2 := encS x.q, o3 := encS x.v }

def decAcset (u : Fields) : D Acset := do
  let g ← decGuards 8 u
  rsv (u.o1 == 0 && u.o5 == 0 && u.plain && (u.imm.extractLsb' 4 28) == 0)
  let j := u.imm.extractLsb' 0 4
  let b ← decS u.o2
  let l ← decS u.o3
  let e ← decS u.o4
  return ⟨g, b, l, e, j⟩

def encAcset (c : BitVec 12) (x : Acset) : Fields :=
  { Fields.a c x.g with o2 := encS x.b, o3 := encS x.l, o4 := encS x.e, imm := 0#28 ++ x.j }

def decAcwait (u : Fields) : D Acwait := do
  let g ← decGuards 8 u
  rsv (u.o1 == 0 && u.o2 == 0 && u.o3 == 0 && u.o4 == 0 && u.o5 == 0 && u.plain && (u.imm.extractLsb' 4 28) == 0)
  let j := u.imm.extractLsb' 0 4
  return ⟨g, j⟩

def encAcwait (c : BitVec 12) (x : Acwait) : Fields :=
  { Fields.a c x.g with imm := 0#28 ++ x.j }

def decClred (u : Fields) : D Clred := do
  let g ← decGuards 8 u
  rsv (u.o1 == 0 && u.plain && (u.imm.extractLsb' 2 1) == 0 && (u.imm.extractLsb' 13 19) == 0)
  let dbl ← decWd (u.imm.extractLsb' 0 2)
  let op := u.imm.extractLsb' 3 2
  let rootOnly := (u.imm.extractLsb' 5 1) == 1#1
  let root := u.imm.extractLsb' 6 7
  rsv (rootOnly || root == 0)
  rsv (!(dbl && op == 0))
  let d ← decS u.o2
  let s ← decS u.o3
  let gd ← decS u.o4
  let n ← decS u.o5
  return ⟨g, d, s, gd, n, dbl, op, rootOnly, root⟩

def encClred (c : BitVec 12) (x : Clred) : Fields :=
  { Fields.a c x.g with o2 := encS x.d, o3 := encS x.s, o4 := encS x.gd, o5 := encS x.n, imm := 0#19 ++ x.root ++ BitVec.ofBool x.rootOnly ++ x.op ++ 0#1 ++ encWd x.dbl }

def decWBin (u : Fields) : D WBin := do
  let g ← decGuards 24 u
  rsv (u.o4 == 0 && u.o5 == 0 && u.hint == 0 && (u.imm.extractLsb' 2 1) == 0 && (u.imm.extractLsb' 3 29) == 0)
  let z := u.imm.extractLsb' 0 2
  let d ← decD u.o1
  let a ← decV u.o2
  let b ← decV u.o3
  opd (VSrc.apart a b)
  return ⟨⟨g, u.sch⟩, d, a, b, z⟩

def encWBin (c : BitVec 12) (x : WBin) : Fields :=
  { Fields.x c x.x with o1 := encD x.d, o2 := encV x.a, o3 := encV x.b, imm := 0#29 ++ 0#1 ++ x.z }

def decWImm (u : Fields) : D WImm := do
  let g ← decGuards 24 u
  rsv (u.o3 == 0 && u.o4 == 0 && u.o5 == 0 && u.hint == 0 && (u.imm.extractLsb' 2 1) == 0)
  let z := u.imm.extractLsb' 0 2
  let k := u.imm.extractLsb' 3 29
  let d ← decD u.o1
  let a ← decV u.o2
  return ⟨⟨g, u.sch⟩, d, a, z, k⟩

def encWImm (c : BitVec 12) (x : WImm) : Fields :=
  { Fields.x c x.x with o1 := encD x.d, o2 := encV x.a, imm := x.k ++ 0#1 ++ x.z }

def decWUn (u : Fields) : D WUn := do
  let g ← decGuards 24 u
  rsv (u.o3 == 0 && u.o4 == 0 && u.o5 == 0 && u.hint == 0 && (u.imm.extractLsb' 2 1) == 0 && (u.imm.extractLsb' 3 29) == 0)
  let z := u.imm.extractLsb' 0 2
  let d ← decD u.o1
  let a ← decV u.o2
  return ⟨⟨g, u.sch⟩, d, a, z⟩

def encWUn (c : BitVec 12) (x : WUn) : Fields :=
  { Fields.x c x.x with o1 := encD x.d, o2 := encV x.a, imm := 0#29 ++ 0#1 ++ x.z }

def decVsel (u : Fields) : D Vsel := do
  let g ← decGuards 24 u
  rsv (u.o5 == 0 && u.hint == 0 && (u.imm.extractLsb' 2 1) == 0 && (u.imm.extractLsb' 3 29) == 0)
  let z := u.imm.extractLsb' 0 2
  let d ← decD u.o1
  let a ← decV u.o2
  let b ← decV u.o3
  let m ← decM u.o4
  opd (VSrc.apart a b)
  return ⟨⟨g, u.sch⟩, d, a, b, m, z⟩

def encVsel (c : BitVec 12) (x : Vsel) : Fields :=
  { Fields.x c x.x with o1 := encD x.d, o2 := encV x.a, o3 := encV x.b, o4 := encM x.m, imm := 0#29 ++ 0#1 ++ x.z }

def decFBin (u : Fields) : D FBin := do
  let g ← decGuards 24 u
  rsv (u.o4 == 0 && u.hint == 0 && u.imm == 0)
  let d ← decD u.o1
  let a ← decV u.o2
  let b ← decV u.o3
  let f ← decS u.o5
  opd (VSrc.apart a b)
  return ⟨⟨g, u.sch⟩, d, a, b, f⟩

def encFBin (c : BitVec 12) (x : FBin) : Fields :=
  { Fields.x c x.x with o1 := encD x.d, o2 := encV x.a, o3 := encV x.b, o5 := encS x.f }

def decFImm (u : Fields) : D FImm := do
  let g ← decGuards 24 u
  rsv (u.o3 == 0 && u.o4 == 0 && u.hint == 0)
  let i := u.imm
  let d ← decD u.o1
  let a ← decV u.o2
  let f ← decS u.o5
  return ⟨⟨g, u.sch⟩, d, a, i, f⟩

def encFImm (c : BitVec 12) (x : FImm) : Fields :=
  { Fields.x c x.x with o1 := encD x.d, o2 := encV x.a, o5 := encS x.f, imm := x.i }

def decVmac (u : Fields) : D Vmac := do
  let g ← decGuards 24 u
  rsv (u.o4 == 0 && u.hint == 0 && u.imm == 0)
  let d ← decVR u.o1
  let a ← decV u.o2
  let b ← decV u.o3
  let f ← decS u.o5
  opd (VSrc.apart a b)
  return ⟨⟨g, u.sch⟩, d, a, b, f⟩

def encVmac (c : BitVec 12) (x : Vmac) : Fields :=
  { Fields.x c x.x with o1 := encVR x.d, o2 := encV x.a, o3 := encV x.b, o5 := encS x.f }

def decVdot2 (u : Fields) : D Vdot2 := do
  let g ← decGuards 24 u
  rsv (u.o3 == 0 && u.o4 == 0 && u.hint == 0)
  let h := u.imm
  let d ← decVR u.o1
  let a ← decV u.o2
  let f ← decS u.o5
  return ⟨⟨g, u.sch⟩, d, a, h, f⟩

def encVdot2 (c : BitVec 12) (x : Vdot2) : Fields :=
  { Fields.x c x.x with o1 := encVR x.d, o2 := encV x.a, o5 := encS x.f, imm := x.h }

def decVsrar (u : Fields) : D Vsrar := do
  let g ← decGuards 24 u
  rsv (u.o3 == 0 && u.o4 == 0 && u.hint == 0 && (u.imm.extractLsb' 6 26) == 0)
  let n := u.imm.extractLsb' 0 6
  let d ← decD u.o1
  let a ← decV u.o2
  let f ← decS u.o5
  return ⟨⟨g, u.sch⟩, d, a, n, f⟩

def encVsrar (c : BitVec 12) (x : Vsrar) : Fields :=
  { Fields.x c x.x with o1 := encD x.d, o2 := encV x.a, o5 := encS x.f, imm := 0#26 ++ x.n }

def decWSca (u : Fields) : D WSca := do
  let g ← decGuards 24 u
  rsv (u.o3 == 0 && u.o4 == 0 && u.o5 == 0 && u.hint == 0 && (u.imm.extractLsb' 2 1) == 0 && (u.imm.extractLsb' 3 29) == 0)
  let z := u.imm.extractLsb' 0 2
  let d ← decD u.o1
  let s ← decS u.o2
  return ⟨⟨g, u.sch⟩, d, s, z⟩

def encWSca (c : BitVec 12) (x : WSca) : Fields :=
  { Fields.x c x.x with o1 := encD x.d, o2 := encS x.s, imm := 0#29 ++ 0#1 ++ x.z }

def decViota (u : Fields) : D Viota := do
  let g ← decGuards 24 u
  rsv (u.o3 == 0 && u.o4 == 0 && u.o5 == 0 && u.hint == 0 && (u.imm.extractLsb' 2 1) == 0)
  let z := u.imm.extractLsb' 0 2
  let k := u.imm.extractLsb' 3 29
  let d ← decD u.o1
  let s ← decS u.o2
  return ⟨⟨g, u.sch⟩, d, s, z, k⟩

def encViota (c : BitVec 12) (x : Viota) : Fields :=
  { Fields.x c x.x with o1 := encD x.d, o2 := encS x.s, imm := x.k ++ 0#1 ++ x.z }

def decVrmovt (u : Fields) : D Vrmovt := do
  let g ← decGuards 24 u
  rsv (u.o1 == 0 && u.o3 == 0 && u.o5 == 0 && u.hint == 0 && (u.imm.extractLsb' 2 1) == 0 && (u.imm.extractLsb' 3 29) == 0)
  let z := u.imm.extractLsb' 0 2
  let a ← decV u.o2
  let s ← decS u.o4
  return ⟨⟨g, u.sch⟩, s, a, z⟩

def encVrmovt (c : BitVec 12) (x : Vrmovt) : Fields :=
  { Fields.x c x.x with o2 := encV x.a, o4 := encS x.s, imm := 0#29 ++ 0#1 ++ x.z }

def decVcmp (u : Fields) : D Vcmp := do
  let g ← decGuards 24 u
  rsv (u.o4 == 0 && u.o5 == 0 && u.hint == 0 && (u.imm.extractLsb' 2 1) == 0 && (u.imm.extractLsb' 7 25) == 0)
  let z := u.imm.extractLsb' 0 2
  let c ← decCond (u.imm.extractLsb' 3 4)
  let d ← decM u.o1
  let a ← decV u.o2
  let b ← decVS u.o3
  opd (VSrcS.apart a b)
  return ⟨⟨g, u.sch⟩, d, a, b, c, z⟩

def encVcmp (c : BitVec 12) (x : Vcmp) : Fields :=
  { Fields.x c x.x with o1 := encM x.d, o2 := encV x.a, o3 := encVS x.b, imm := 0#25 ++ encCond x.c ++ 0#1 ++ x.z }

def decVlbc (u : Fields) : D Vlbc := do
  let g ← decGuards 24 u
  rsv (u.o4 == 0 && u.o5 == 0 && u.hint == 0 && (u.imm.extractLsb' 0 3) == 0 && (u.imm.extractLsb' 7 25) == 0)
  let c ← decCond (u.imm.extractLsb' 3 4)
  let d ← decM u.o1
  let a ← decS u.o2
  let b ← decS u.o3
  return ⟨⟨g, u.sch⟩, d, a, b, c⟩

def encVlbc (c : BitVec 12) (x : Vlbc) : Fields :=
  { Fields.x c x.x with o1 := encM x.d, o2 := encS x.a, o3 := encS x.b, imm := 0#25 ++ encCond x.c ++ 0#3 }

def decMlog (u : Fields) : D Mlog := do
  let g ← decGuards 24 u
  rsv (u.o4 == 0 && u.o5 == 0 && u.hint == 0 && (u.imm.extractLsb' 4 28) == 0)
  let t := u.imm.extractLsb' 0 4
  let d ← decM u.o1
  let a ← decM u.o2
  let b ← decM u.o3
  return ⟨⟨g, u.sch⟩, d, a, b, t⟩

def encMlog (c : BitVec 12) (x : Mlog) : Fields :=
  { Fields.x c x.x with o1 := encM x.d, o2 := encM x.a, o3 := encM x.b, imm := 0#28 ++ x.t }

def decMpush (u : Fields) : D Mpush := do
  let g ← decGuards 24 u
  rsv (u.o3 == 0 && u.o4 == 0 && u.o5 == 0 && u.hint == 0 && u.imm == 0)
  decXQ u.o1
  let m ← decM u.o2
  return ⟨⟨g, u.sch⟩, m⟩

def encMpush (c : BitVec 12) (x : Mpush) : Fields :=
  { Fields.x c x.x with o1 := encXQ, o2 := encM x.m }

def decMpfx (u : Fields) : D Mpfx := do
  let g ← decGuards 24 u
  rsv (u.o3 == 0 && u.o4 == 0 && u.o5 == 0 && u.hint == 0 && (u.imm.extractLsb' 2 1) == 0 && (u.imm.extractLsb' 3 29) == 0)
  let z := u.imm.extractLsb' 0 2
  rsv (z != 0)
  let d ← decD u.o1
  let m ← decM u.o2
  return ⟨⟨g, u.sch⟩, d, m, z⟩

def encMpfx (c : BitVec 12) (x : Mpfx) : Fields :=
  { Fields.x c x.x with o1 := encD x.d, o2 := encM x.m, imm := 0#29 ++ 0#1 ++ x.z }

def decMffe (u : Fields) : D Mffe := do
  let g ← decGuards 24 u
  rsv (u.o2 == 0 && u.o3 == 0 && u.o4 == 0 && u.o5 == 0 && u.hint == 0 && u.imm == 0)
  let d ← decM u.o1
  return ⟨⟨g, u.sch⟩, d⟩

def encMffe (c : BitVec 12) (x : Mffe) : Fields :=
  { Fields.x c x.x with o1 := encM x.d }

def decSlide (u : Fields) : D Slide := do
  let g ← decGuards 24 u
  rsv (u.o4 == 0 && u.o5 == 0 && u.hint == 0 && (u.imm.extractLsb' 2 1) == 0)
  let z := u.imm.extractLsb' 0 2
  let k := u.imm.extractLsb' 3 29
  let d ← decD u.o1
  let a ← decV u.o2
  let s ← decS u.o3
  return ⟨⟨g, u.sch⟩, d, a, s, z, k⟩

def encSlide (c : BitVec 12) (x : Slide) : Fields :=
  { Fields.x c x.x with o1 := encD x.d, o2 := encV x.a, o3 := encS x.s, imm := x.k ++ 0#1 ++ x.z }

def decVpack (u : Fields) : D Vpack := do
  let g ← decGuards 24 u
  rsv (u.o4 == 0 && u.o5 == 0 && u.hint == 0 && (u.imm.extractLsb' 2 1) == 0 && (u.imm.extractLsb' 3 29) == 0)
  let z := u.imm.extractLsb' 0 2
  let d ← decD u.o1
  let a ← decV u.o2
  let m ← decM u.o3
  return ⟨⟨g, u.sch⟩, d, a, m, z⟩

def encVpack (c : BitVec 12) (x : Vpack) : Fields :=
  { Fields.x c x.x with o1 := encD x.d, o2 := encV x.a, o3 := encM x.m, imm := 0#29 ++ 0#1 ++ x.z }

def decVred (u : Fields) : D Vred := do
  let g ← decGuards 24 u
  rsv (u.o4 == 0 && u.o5 == 0 && u.hint == 0 && (u.imm.extractLsb' 2 1) == 0 && (u.imm.extractLsb' 3 29) == 0)
  let z := u.imm.extractLsb' 0 2
  let d ← decR u.o1
  let a ← decV u.o2
  let s ← decS u.o3
  return ⟨⟨g, u.sch⟩, d, a, s, z⟩

def encVred (c : BitVec 12) (x : Vred) : Fields :=
  { Fields.x c x.x with o1 := encR x.d, o2 := encV x.a, o3 := encS x.s, imm := 0#29 ++ 0#1 ++ x.z }

def decVcomb (u : Fields) : D Vcomb := do
  let g ← decGuards 24 u
  rsv (u.hint == 0 && (u.imm.extractLsb' 2 30) == 0)
  let op := u.imm.extractLsb' 0 2
  rsv (op != 3)
  let d ← decD u.o1
  let k ← decV u.o2
  let v ← decV u.o3
  let l ← decM u.o4
  let f ← decS u.o5
  opd (VSrc.apart k v)
  return ⟨⟨g, u.sch⟩, d, l, k, v, f, op⟩

def encVcomb (c : BitVec 12) (x : Vcomb) : Fields :=
  { Fields.x c x.x with o1 := encD x.d, o2 := encV x.k, o3 := encV x.v, o4 := encM x.l, o5 := encS x.f, imm := 0#30 ++ x.op }

def decVsort (u : Fields) : D Vsort := do
  let g ← decGuards 24 u
  rsv (u.o5 == 0 && u.hint == 0 && (u.imm.extractLsb' 2 1) == 0)
  let z := u.imm.extractLsb' 0 2
  let fl := u.imm.extractLsb' 3 29
  let kd ← decD u.o1
  let k ← decV u.o2
  let v ← decV u.o3
  let vd ← decD u.o4
  opd (VSrc.apart k v && VDst.apart kd vd)
  return ⟨⟨g, u.sch⟩, kd, vd, k, v, z, fl⟩

def encVsort (c : BitVec 12) (x : Vsort) : Fields :=
  { Fields.x c x.x with o1 := encD x.kd, o2 := encV x.k, o3 := encV x.v, o4 := encD x.vd, imm := x.fl ++ 0#1 ++ x.z }

def decVbcmp (u : Fields) : D Vbcmp := do
  let g ← decGuards 24 u
  rsv (u.o4 == 0 && u.o5 == 0 && u.hint == 0 && (u.imm.extractLsb' 2 1) == 0 && (u.imm.extractLsb' 3 29) == 0)
  let z := u.imm.extractLsb' 0 2
  decXQ u.o1
  let a ← decV u.o2
  let b ← decV u.o3
  opd (VSrc.apart a b)
  return ⟨⟨g, u.sch⟩, a, b, z⟩

def encVbcmp (c : BitVec 12) (x : Vbcmp) : Fields :=
  { Fields.x c x.x with o1 := encXQ, o2 := encV x.a, o3 := encV x.b, imm := 0#29 ++ 0#1 ++ x.z }

def decVbfind (u : Fields) : D Vbfind := do
  let g ← decGuards 24 u
  rsv (u.o4 == 0 && u.o5 == 0 && u.hint == 0 && (u.imm.extractLsb' 2 1) == 0 && (u.imm.extractLsb' 3 29) == 0)
  let z := u.imm.extractLsb' 0 2
  decXQ u.o1
  let a ← decV u.o2
  let s ← decS u.o3
  return ⟨⟨g, u.sch⟩, a, s, z⟩

def encVbfind (c : BitVec 12) (x : Vbfind) : Fields :=
  { Fields.x c x.x with o1 := encXQ, o2 := encV x.a, o3 := encS x.s, imm := 0#29 ++ 0#1 ++ x.z }

def decVxhash (u : Fields) : D Vxhash := do
  let g ← decGuards 24 u
  rsv (u.o4 == 0 && u.o5 == 0 && u.hint == 0 && (u.imm.extractLsb' 2 1) == 0 && (u.imm.extractLsb' 3 29) == 0)
  let z := u.imm.extractLsb' 0 2
  rsv (z.getLsbD 1)
  let d ← decD u.o1
  let a ← decV u.o2
  let s ← decS u.o3
  return ⟨⟨g, u.sch⟩, d, a, s, z⟩

def encVxhash (c : BitVec 12) (x : Vxhash) : Fields :=
  { Fields.x c x.x with o1 := encD x.d, o2 := encV x.a, o3 := encS x.s, imm := 0#29 ++ 0#1 ++ x.z }

def decFUn (u : Fields) : D FUn := do
  let g ← decGuards 24 u
  rsv (u.o3 == 0 && u.o4 == 0 && u.hint == 0 && u.imm == 0)
  let d ← decD u.o1
  let a ← decV u.o2
  let f ← decS u.o5
  return ⟨⟨g, u.sch⟩, d, a, f⟩

def encFUn (c : BitVec 12) (x : FUn) : Fields :=
  { Fields.x c x.x with o1 := encD x.d, o2 := encV x.a, o5 := encS x.f }

def decVfma (u : Fields) : D Vfma := do
  let g ← decGuards 24 u
  rsv (u.hint == 0 && u.imm == 0)
  let d ← decD u.o1
  let a ← decV u.o2
  let b ← decV u.o3
  let c ← decV u.o4
  let f ← decS u.o5
  opd (VSrc.apart a b && VSrc.apart a c && VSrc.apart b c)
  return ⟨⟨g, u.sch⟩, d, a, b, c, f⟩

def encVfma (c : BitVec 12) (x : Vfma) : Fields :=
  { Fields.x c x.x with o1 := encD x.d, o2 := encV x.a, o3 := encV x.b, o4 := encV x.c, o5 := encS x.f }

def decVfcmp (u : Fields) : D Vfcmp := do
  let g ← decGuards 24 u
  rsv (u.o4 == 0 && u.hint == 0 && (u.imm.extractLsb' 0 3) == 0 && (u.imm.extractLsb' 7 25) == 0)
  let c ← decFcond (u.imm.extractLsb' 3 4)
  let d ← decM u.o1
  let a ← decV u.o2
  let b ← decVS u.o3
  let f ← decS u.o5
  opd (VSrcS.apart a b)
  return ⟨⟨g, u.sch⟩, d, a, b, c, f⟩

def encVfcmp (c : BitVec 12) (x : Vfcmp) : Fields :=
  { Fields.x c x.x with o1 := encM x.d, o2 := encV x.a, o3 := encVS x.b, o5 := encS x.f, imm := 0#25 ++ encFcond x.c ++ 0#3 }

def decFRed (u : Fields) : D FRed := do
  let g ← decGuards 24 u
  rsv (u.o4 == 0 && u.hint == 0 && u.imm == 0)
  let d ← decR u.o1
  let a ← decV u.o2
  let s ← decS u.o3
  let f ← decS u.o5
  return ⟨⟨g, u.sch⟩, d, a, s, f⟩

def encFRed (c : BitVec 12) (x : FRed) : Fields :=
  { Fields.x c x.x with o1 := encR x.d, o2 := encV x.a, o3 := encS x.s, o5 := encS x.f }

def decVbfly (u : Fields) : D Vbfly := do
  let g ← decGuards 24 u
  rsv (u.o3 == 0 && u.o4 == 0 && u.hint == 0 && (u.imm.extractLsb' 5 27) == 0)
  let j := u.imm.extractLsb' 0 4
  let hv := (u.imm.extractLsb' 4 1) == 1#1
  let d ← decD u.o1
  let a ← decV u.o2
  let f ← decS u.o5
  return ⟨⟨g, u.sch⟩, d, a, j, hv, f⟩

def encVbfly (c : BitVec 12) (x : Vbfly) : Fields :=
  { Fields.x c x.x with o1 := encD x.d, o2 := encV x.a, o5 := encS x.f, imm := 0#27 ++ BitVec.ofBool x.hv ++ x.j }

def decVbfp (u : Fields) : D Vbfp := do
  let g ← decGuards 24 u
  rsv (u.o3 == 0 && u.o4 == 0 && u.hint == 0 && (u.imm.extractLsb' 13 19) == 0)
  let o := u.imm.extractLsb' 0 13
  let d ← decD u.o1
  let a ← decV u.o2
  let f ← decS u.o5
  return ⟨⟨g, u.sch⟩, d, a, o, f⟩

def encVbfp (c : BitVec 12) (x : Vbfp) : Fields :=
  { Fields.x c x.x with o1 := encD x.d, o2 := encV x.a, o5 := encS x.f, imm := 0#19 ++ x.o }

def decVqsc (u : Fields) : D Vqsc := do
  let g ← decGuards 24 u
  rsv (u.o4 == 0 && u.hint == 0 && u.imm == 0)
  let d ← decD u.o1
  let a ← decV u.o2
  let b ← decVS u.o3
  let f ← decS u.o5
  opd (VSrcS.apart a b)
  return ⟨⟨g, u.sch⟩, d, a, b, f⟩

def encVqsc (c : BitVec 12) (x : Vqsc) : Fields :=
  { Fields.x c x.x with o1 := encD x.d, o2 := encV x.a, o3 := encVS x.b, o5 := encS x.f }

def decTzero (u : Fields) : D Tzero := do
  let g ← decGuards 24 u
  rsv (u.o1 == 0 && u.o2 == 0 && u.o3 == 0 && u.o4 == 0 && u.o5 == 0 && u.hint == 0 && (u.imm.extractLsb' 0 2) == 0 && (u.imm.extractLsb' 2 1) == 0 && (u.imm.extractLsb' 5 27) == 0)
  let k := u.imm.extractLsb' 3 2
  return ⟨⟨g, u.sch⟩, k⟩

def encTzero (c : BitVec 12) (x : Tzero) : Fields :=
  { Fields.x c x.x with imm := 0#27 ++ x.k ++ 0#1 ++ 0#2 }

def decOpa (u : Fields) : D Opa := do
  let g ← decGuards 24 u
  rsv (u.o1 == 0 && u.o4 == 0 && u.hint == 0 && (u.imm.extractLsb' 0 2) == 0 && (u.imm.extractLsb' 2 1) == 0 && (u.imm.extractLsb' 5 27) == 0)
  let k := u.imm.extractLsb' 3 2
  let a ← decV u.o2
  let b ← decV u.o3
  let f ← decS u.o5
  opd (VSrc.apart a b)
  return ⟨⟨g, u.sch⟩, k, a, b, f⟩

def encOpa (c : BitVec 12) (x : Opa) : Fields :=
  { Fields.x c x.x with o2 := encV x.a, o3 := encV x.b, o5 := encS x.f, imm := 0#27 ++ x.k ++ 0#1 ++ 0#2 }

def decOpas (u : Fields) : D Opas := do
  let g ← decGuards 24 u
  rsv (u.o1 == 0 && u.hint == 0 && (u.imm.extractLsb' 0 2) == 0 && (u.imm.extractLsb' 2 1) == 0 && (u.imm.extractLsb' 5 27) == 0)
  let k := u.imm.extractLsb' 3 2
  let a ← decV u.o2
  let b ← decV u.o3
  let m ← decM u.o4
  let f ← decS u.o5
  opd (VSrc.apart a b)
  return ⟨⟨g, u.sch⟩, k, a, b, m, f⟩

def encOpas (c : BitVec 12) (x : Opas) : Fields :=
  { Fields.x c x.x with o2 := encV x.a, o3 := encV x.b, o4 := encM x.m, o5 := encS x.f, imm := 0#27 ++ x.k ++ 0#1 ++ 0#2 }

def decTlds (u : Fields) : D Tlds := do
  let g ← decGuards 24 u
  rsv (u.o1 == 0 && u.o4 == 0 && u.hint == 0 && (u.imm.extractLsb' 0 2) == 0 && (u.imm.extractLsb' 5 27) == 0)
  let col := (u.imm.extractLsb' 2 1) == 1#1
  let k := u.imm.extractLsb' 3 2
  let a ← decV u.o2
  let s ← decS u.o3
  let f ← decS u.o5
  return ⟨⟨g, u.sch⟩, k, col, a, s, f⟩

def encTlds (c : BitVec 12) (x : Tlds) : Fields :=
  { Fields.x c x.x with o2 := encV x.a, o3 := encS x.s, o5 := encS x.f, imm := 0#27 ++ x.k ++ BitVec.ofBool x.col ++ 0#2 }

def decTsts (u : Fields) : D Tsts := do
  let g ← decGuards 24 u
  rsv (u.o2 == 0 && u.o4 == 0 && u.hint == 0 && (u.imm.extractLsb' 0 2) == 0 && (u.imm.extractLsb' 5 27) == 0)
  let col := (u.imm.extractLsb' 2 1) == 1#1
  let k := u.imm.extractLsb' 3 2
  let d ← decD u.o1
  let s ← decS u.o3
  let f ← decS u.o5
  return ⟨⟨g, u.sch⟩, k, col, d, s, f⟩

def encTsts (c : BitVec 12) (x : Tsts) : Fields :=
  { Fields.x c x.x with o1 := encD x.d, o3 := encS x.s, o5 := encS x.f, imm := 0#27 ++ x.k ++ BitVec.ofBool x.col ++ 0#2 }

def decTrowv (u : Fields) : D Trowv := do
  let g ← decGuards 24 u
  rsv (u.o2 == 0 && u.o4 == 0 && u.o5 == 0 && u.hint == 0 && (u.imm.extractLsb' 0 2) == 0 && (u.imm.extractLsb' 5 27) == 0)
  let col := (u.imm.extractLsb' 2 1) == 1#1
  let k := u.imm.extractLsb' 3 2
  let d ← decD u.o1
  let s ← decS u.o3
  return ⟨⟨g, u.sch⟩, k, col, d, s⟩

def encTrowv (c : BitVec 12) (x : Trowv) : Fields :=
  { Fields.x c x.x with o1 := encD x.d, o3 := encS x.s, imm := 0#27 ++ x.k ++ BitVec.ofBool x.col ++ 0#2 }

def decTvrow (u : Fields) : D Tvrow := do
  let g ← decGuards 24 u
  rsv (u.o1 == 0 && u.o4 == 0 && u.o5 == 0 && u.hint == 0 && (u.imm.extractLsb' 0 2) == 0 && (u.imm.extractLsb' 5 27) == 0)
  let col := (u.imm.extractLsb' 2 1) == 1#1
  let k := u.imm.extractLsb' 3 2
  let a ← decV u.o2
  let s ← decS u.o3
  return ⟨⟨g, u.sch⟩, k, col, a, s⟩

def encTvrow (c : BitVec 12) (x : Tvrow) : Fields :=
  { Fields.x c x.x with o2 := encV x.a, o3 := encS x.s, imm := 0#27 ++ x.k ++ BitVec.ofBool x.col ++ 0#2 }

def decCsrWr (f : Fields) : D CsrWr := do
  let g ← decGuards 8 f
  rsv (f.o1 == 0 && f.o3 == 0 && f.o4 == 0 && f.o5 == 0 && f.plain && (f.o2 == 0 || (f.imm.extractLsb' 12 20) == 0))
  let c ← decCsr (f.imm.extractLsb' 0 12)
  let r ← decS f.o2
  return ⟨g, c, if r = 0 then .imm (f.imm.extractLsb' 12 20) else .reg r⟩

def encCsrSrcImm : CsrSrc → BitVec 20
  | .imm i => i
  | .reg _ => 0
def encCsrSrcReg : CsrSrc → BitVec 7
  | .imm _ => 0
  | .reg r => encS r
def encCsrWr (c : BitVec 12) (x : CsrWr) : Fields :=
  { Fields.a c x.g with o2 := encCsrSrcReg x.src, imm := encCsrSrcImm x.src ++ encCsr x.c }

def decMoviX (f : Fields) : D MoviX := do
  let g ← decGuards 8 f
  rsv (f.o2 == 0 && f.o3 == 0 && f.o4 == 0 && f.o5 == 0 && f.plain && f.imm == 0)
  let e := f.ext.getD 0
  rsv ((e.extractLsb' 64 32) == 0)
  let d ← decS f.o1
  return ⟨g, d, e.extractLsb' 0 64⟩

def encMoviX (c : BitVec 12) (x : MoviX) : Fields :=
  { Fields.a c x.g with o1 := encS x.d, ext := some (0#32 ++ x.v) }

/-- SEL's OP4 is a predicate field with a negate bit: bits 6:4 other than zero are an illegal operand (R121, R133). -/
def decSel (f : Fields) : D Sel := do
  let g ← decGuards 8 f
  rsv (f.o3 == 0 && f.o5 == 0 && f.plain)
  let i ← decImm f
  let d ← decS f.o1
  let a ← decS f.o2
  opd ((f.o4.extractLsb' 4 3) == 0)
  return ⟨g, d, (f.o4.extractLsb' 3 1) == 1#1, f.o4.extractLsb' 0 3, a, i⟩

def encSel (c : BitVec 12) (x : Sel) : Fields :=
  { Fields.a c x.g with o1 := encS x.d, o2 := encS x.a, o4 := 0#3 ++ BitVec.ofBool x.neg ++ x.p, imm := encImm x.i, ext := encExt x.i }

def decCmpi (f : Fields) : D Cmpi := do
  let g ← decGuards 8 f
  rsv (f.o3 == 0 && f.o5 == 0 && f.plain && (f.o4.extractLsb' 4 3) == 0)
  let i ← decImm f
  let c ← decCond (f.o4.extractLsb' 0 4)
  let d ← decP f.o1
  let a ← decS f.o2
  return ⟨g, d, a, i, c⟩

def encCmpi (c : BitVec 12) (x : Cmpi) : Fields :=
  { Fields.a c x.g with o1 := encP x.d, o2 := encS x.a, o4 := 0#3 ++ encCond x.c, imm := encImm x.i, ext := encExt x.i }

def decLea (f : Fields) : D Lea := do
  let g ← decGuards 8 f
  rsv (f.o3 == 0 && f.plain && (f.o4.extractLsb' 4 3) == 0)
  let i ← decImm f
  let d ← decS f.o1
  let a ← decS f.o2
  let x ← decS f.o5
  return ⟨g, d, a, x, f.o4.extractLsb' 0 4, i⟩

def encLea (c : BitVec 12) (x : Lea) : Fields :=
  { Fields.a c x.g with o1 := encS x.d, o2 := encS x.a, o4 := 0#3 ++ x.k, o5 := encS x.x, imm := encImm x.i, ext := encExt x.i }

/-- With an extension, OP2 must be s0 (R148). -/
def decVsplatX (f : Fields) : D VsplatX := do
  let g ← decGuards 24 f
  rsv (f.o3 == 0 && f.o4 == 0 && f.o5 == 0 && f.hint == 0 && (f.imm.extractLsb' 2 30) == 0)
  let e := f.ext.getD 0
  rsv ((e.extractLsb' 64 32) == 0)
  let d ← decD f.o1
  opd (f.o2 == 0)
  return ⟨⟨g, f.sch⟩, d, e.extractLsb' 0 64, f.imm.extractLsb' 0 2⟩

def encVsplatX (c : BitVec 12) (x : VsplatX) : Fields :=
  { Fields.x c x.x with o1 := encD x.d, imm := 0#30 ++ x.z, ext := some (0#32 ++ x.v) }

/-- The scalar form's IMM 2 is reserved (R229). -/
def decTscale (f : Fields) : D Tscale := do
  let g ← decGuards 24 f
  rsv (f.o1 == 0 && f.o3 == 0 && f.o4 == 0 && f.hint == 0 && (f.imm.extractLsb' 0 2) == 0 && (f.imm.extractLsb' 5 27) == 0)
  rsv ((f.o2.extractLsb' 6 1) == 1#1 || (f.imm.extractLsb' 2 1) == 0#1)
  let src ← decVS f.o2
  let s ← decS f.o5
  return ⟨⟨g, f.sch⟩, f.imm.extractLsb' 3 2, (f.imm.extractLsb' 2 1) == 1#1, src, s⟩

def encTscale (c : BitVec 12) (x : Tscale) : Fields :=
  { Fields.x c x.x with o2 := encVS x.src, o5 := encS x.f, imm := 0#27 ++ x.k ++ BitVec.ofBool x.col ++ 0#2 }

/-- CBLD, CBINV and the xq form of CBST take no guards (R208). -/
def noGuards (f : Fields) : Bool := f.ga == 0x1F#6 && f.gb == 0x1F#6

def decCbld (f : Fields) : D Cbld := do
  rsv (noGuards f && f.o1 == 0 && f.o4 == 0 && f.o5 == 0 && f.hint == 0 && (f.imm.extractLsb' 0 4) == 0 && (f.imm.extractLsb' 26 6) == 0)
  let src ← decOV f.o2
  let s ← decS f.o3
  return ⟨f.sch, src, s, f.imm.extractLsb' 4 4, f.imm.extractLsb' 8 8, f.imm.extractLsb' 16 2, f.imm.extractLsb' 18 8⟩

def encCbld (c : BitVec 12) (x : Cbld) : Fields :=
  { Fields.s c x.sch with o2 := encOV x.src, o3 := encS x.s, imm := 0#6 ++ x.n1 ++ x.lgg ++ x.fmt ++ x.k ++ 0#4 }

/-- The xq form is written CBST.d (R208, R210). -/
def decCbst (f : Fields) : D Cbst := do
  let g ← decGuards 24 f
  rsv (f.o2 == 0 && f.o3 == 0 && f.o4 == 0 && f.o5 == 0 && f.hint == 0 && (f.imm.extractLsb' 2 2) == 0 && (f.imm.extractLsb' 8 24) == 0)
  rsv (f.o1 != 0x66#7 || (noGuards f && (f.imm.extractLsb' 0 2) == 3#2))
  let d ← decCB f.o1
  return ⟨⟨g, f.sch⟩, d, f.imm.extractLsb' 4 4, f.imm.extractLsb' 0 2⟩

def encCbst (c : BitVec 12) (x : Cbst) : Fields :=
  { Fields.x c x.x with o1 := encCB x.d, imm := 0#24 ++ x.k ++ 0#2 ++ x.z }

def decCbinv (f : Fields) : D Cbinv := do
  rsv (noGuards f && f.o1 == 0 && f.o2 == 0 && f.o3 == 0 && f.o4 == 0 && f.o5 == 0 && f.hint == 0 && (f.imm.extractLsb' 16 16) == 0)
  return ⟨f.sch, f.imm.extractLsb' 0 16⟩

def encCbinv (c : BitVec 12) (x : Cbinv) : Fields :=
  { Fields.s c x.sch with imm := 0#16 ++ x.m }

/-! The opcode map (R57, R58). -/

/-- The opcodes that accept an extension word (R54). -/
def acceptsExt (c : BitVec 12) : Bool :=
  [0x101, 0x105, 0x107, 0x109, 0x10b, 0x10d, 0x10f, 0x111, 0x115, 0x117, 0x119, 0x11d, 0x11f, 0x125, 0x127, 0x129, 0x12b, 0x616].contains c.toNat

/-- Group 0x0: the minor opcodes (R57). -/
def decGroup0 (f : Fields) : D Instr :=
  match (f.opc.extractLsb' 0 8).toNat with
  | 0x00 => .nop <$> decBare f
  | 0x01 => .br <$> decGImm f
  | 0x02 => .call <$> decGImm f
  | 0x03 => .ret <$> decBare f
  | 0x04 => .jmp <$> decJmp f
  | 0x05 => .strip <$> decStrip f
  | 0x06 => .vsetl <$> decVsetl f
  | 0x07 => .trap <$> decGImm f
  | 0x08 => .eret <$> decBare f
  | 0x09 => .exit <$> decBare f
  | 0x0A => .yield <$> decYield f
  | 0x0B => .csrr <$> decCsrRd f
  | 0x0C => .csrw <$> decCsrWr f
  | 0x0D => .csrset <$> decCsrWr f
  | 0x0E => .csrclr <$> decCsrWr f
  | 0x0F => .fence <$> decFence f
  | 0x10 => .xsync <$> decBare f
  | 0x11 => .tlbinv <$> decTlbinv f
  | 0x12 => .setbnd <$> decA3 f
  | 0x13 => .bkpt <$> decGImm f
  | _ => .error .illegalInstr

/-- Group 0x1: the minor opcodes (R57). -/
def decGroup1 (f : Fields) : D Instr :=
  match (f.opc.extractLsb' 0 8).toNat with
  | 0x00 => .add <$> decABin f
  | 0x01 => .addi <$> decAImm f
  | 0x02 => .sub <$> decABin f
  | 0x04 => .mul <$> decABin f
  | 0x05 => .muli <$> decAImm f
  | 0x06 => .mulh <$> decABin f
  | 0x07 => .mulhu <$> decAImm f
  | 0x08 => .div <$> decABin f
  | 0x09 => .divu <$> decAImm f
  | 0x0A => .rem <$> decABin f
  | 0x0B => .remu <$> decAImm f
  | 0x0C => .and <$> decABin f
  | 0x0D => .andi <$> decAImm f
  | 0x0E => .or <$> decABin f
  | 0x0F => .ori <$> decAImm f
  | 0x10 => .xor <$> decABin f
  | 0x11 => .xori <$> decAImm f
  | 0x12 => .andn <$> decABin f
  | 0x14 => .shl <$> decABin f
  | 0x15 => .shli <$> decAImm f
  | 0x16 => .shr <$> decABin f
  | 0x17 => .shri <$> decAImm f
  | 0x18 => .sra <$> decABin f
  | 0x19 => .srai <$> decAImm f
  | 0x1C => .min <$> decABin f
  | 0x1D => .max <$> decAImm f
  | 0x1E => .minu <$> decABin f
  | 0x1F => .maxu <$> decAImm f
  | 0x20 => .clz <$> decAUn f
  | 0x21 => .ctz <$> decAUn f
  | 0x22 => .popc <$> decAUn f
  | 0x23 => .sext <$> decAUnZ f
  | 0x24 => .zext <$> decAUnZ f
  | 0x25 => if f.ext.isSome then .moviX <$> decMoviX f else .movi <$> decMovi f
  | 0x26 => .mov <$> decAUn f
  | 0x27 => .sel <$> decSel f
  | 0x28 => .cmp <$> decCmp f
  | 0x29 => .cmpi <$> decCmpi f
  | 0x2A => .plog <$> decPlog f
  | 0x2B => .lea <$> decLea f
  | 0x2C => .hashs <$> decHashs f
  | _ => .error .illegalInstr

/-- Group 0x2: the minor opcodes (R57). -/
def decGroup2 (f : Fields) : D Instr :=
  match (f.opc.extractLsb' 0 8).toNat with
  | 0x00 => .ldb <$> decLoad f
  | 0x01 => .ldh <$> decLoad f
  | 0x02 => .ldw <$> decLoad f
  | 0x03 => .ldd <$> decLoad f
  | 0x04 => .ldbs <$> decLoad f
  | 0x05 => .ldhs <$> decLoad f
  | 0x06 => .ldws <$> decLoad f
  | 0x08 => .stb <$> decStore f
  | 0x09 => .sth <$> decStore f
  | 0x0A => .stw <$> decStore f
  | 0x0B => .std <$> decStore f
  | 0x10 => .aadd <$> decAtom f
  | 0x11 => .aand <$> decAtom f
  | 0x12 => .aor <$> decAtom f
  | 0x13 => .axor <$> decAtom f
  | 0x14 => .amin <$> decAtom f
  | 0x15 => .amax <$> decAtom f
  | 0x16 => .aswp <$> decAtom f
  | 0x17 => .acas <$> decAcas f
  | 0x18 => .afadd <$> decAfadd f
  | 0x20 => .lease <$> decLease f
  | 0x21 => .unlease <$> decUnlease f
  | 0x22 => .stlc <$> decStlc f
  | 0x30 => .cflush <$> decCmaint f
  | 0x31 => .cinv <$> decCmaint f
  | 0x32 => .cpref <$> decCpref f
  | _ => .error .illegalInstr

/-- Group 0x3: the minor opcodes (R57). -/
def decGroup3 (f : Fields) : D Instr :=
  match (f.opc.extractLsb' 0 8).toNat with
  | 0x00 => .vld <$> decVld f
  | 0x01 => .vldff <$> decVld f
  | 0x02 => .vldx <$> decVldx f
  | 0x03 => .vldsc <$> decVlds f
  | 0x08 => .vst <$> decVst f
  | 0x09 => .vstx <$> decVstx f
  | 0x0A => .vstsc <$> decVsts f
  | 0x10 => .vlds <$> decVlds f
  | 0x11 => .vsts <$> decVsts f
  | 0x12 => .vldsx <$> decVldsx f
  | 0x13 => .vstsx <$> decVstsx f
  | 0x18 => .vamo <$> decVamo f
  | 0x20 => .popx <$> decPopx f
  | 0x22 => .qdrop <$> decQdrop f
  | _ => .error .illegalInstr

/-- Group 0x4: the minor opcodes (R57). -/
def decGroup4 (f : Fields) : D Instr :=
  match (f.opc.extractLsb' 0 8).toNat with
  | 0x00 => .pcopy <$> decPcopy f
  | 0x01 => .pdec <$> decPdec f
  | 0x03 => .pfill <$> decPfill f
  | 0x08 => .twaitany <$> decTmask2 f
  | 0x09 => .twaitall <$> decTmask f
  | 0x0A => .tfind <$> decTfind f
  | 0x0B => .tclr <$> decTmask f
  | 0x10 => .nbadd <$> decNbadd f
  | 0x11 => .nbopt <$> decNbopt f
  | 0x12 => .nbfence <$> decBare f
  | 0x18 => .sfpool <$> decSfpool f
  | 0x20 => .rhopen <$> decRhopen f
  | 0x21 => .rhprio <$> decRhprio f
  | 0x22 => .rhevict <$> decRhbit f
  | 0x23 => .rhclose <$> decRhbit f
  | _ => .error .illegalInstr

/-- Group 0x5: the minor opcodes (R57). -/
def decGroup5 (f : Fields) : D Instr :=
  match (f.opc.extractLsb' 0 8).toNat with
  | 0x00 => .gong <$> decGong f
  | 0x01 => .post <$> decPost f
  | 0x02 => .waiti <$> decPost f
  | 0x08 => .acset <$> decAcset f
  | 0x09 => .acwait <$> decAcwait f
  | 0x10 => .clred <$> decClred f
  | 0x18 => .qnotify <$> decQnotify f
  | _ => .error .illegalInstr

/-- Group 0x6: the minor opcodes (R57). -/
def decGroup6 (f : Fields) : D Instr :=
  match (f.opc.extractLsb' 0 8).toNat with
  | 0x00 => .vadd <$> decWBin f
  | 0x01 => .vsub <$> decWImm f
  | 0x02 => .vmul <$> decWBin f
  | 0x03 => .vmulh <$> decWImm f
  | 0x04 => .vmac <$> decVmac f
  | 0x05 => .vdot2 <$> decVdot2 f
  | 0x06 => .vabs <$> decWUn f
  | 0x07 => .vneg <$> decWUn f
  | 0x08 => .vmin <$> decWBin f
  | 0x09 => .vmax <$> decWImm f
  | 0x0A => .vand <$> decWBin f
  | 0x0B => .vor <$> decWImm f
  | 0x0C => .vxor <$> decWBin f
  | 0x0D => .vnot <$> decWUn f
  | 0x0E => .vshl <$> decWBin f
  | 0x0F => .vshr <$> decWImm f
  | 0x10 => .vsra <$> decWBin f
  | 0x11 => .vsrar <$> decVsrar f
  | 0x12 => .vclz <$> decWUn f
  | 0x13 => .vpopc <$> decWUn f
  | 0x14 => .vsel <$> decVsel f
  | 0x15 => .vmov <$> decWUn f
  | 0x16 => if f.ext.isSome then .vsplatX <$> decVsplatX f else .vsplat <$> decWSca f
  | 0x17 => .viota <$> decViota f
  | 0x18 => .vadds <$> decFBin f
  | 0x19 => .vsubs <$> decFImm f
  | 0x1A => .vrmovf <$> decWSca f
  | 0x1B => .vrmovt <$> decVrmovt f
  | _ => .error .illegalInstr

/-- Group 0x7: the minor opcodes (R57). -/
def decGroup7 (f : Fields) : D Instr :=
  match (f.opc.extractLsb' 0 8).toNat with
  | 0x00 => .vcmp <$> decVcmp f
  | 0x01 => .vlbc <$> decVlbc f
  | 0x02 => .mlog <$> decMlog f
  | 0x03 => .mpopc <$> decMpush f
  | 0x04 => .mffs <$> decMpush f
  | 0x05 => .mpfx <$> decMpfx f
  | 0x06 => .mffe <$> decMffe f
  | 0x10 => .vslideup <$> decSlide f
  | 0x11 => .vslidedn <$> decSlide f
  | 0x12 => .vgathr <$> decWBin f
  | 0x13 => .vcompr <$> decVpack f
  | 0x14 => .vexpnd <$> decVpack f
  | 0x16 => .vredsum <$> decVred f
  | 0x17 => .vredmin <$> decVred f
  | 0x18 => .vredmax <$> decVred f
  | 0x19 => .vscan <$> decSlide f
  | 0x1A => .vconf <$> (rsv ((f.imm.extractLsb' 0 2) != 0#2) *> decWUn f)
  | 0x1B => .vcomb <$> decVcomb f
  | 0x1C => .vsort <$> decVsort f
  | 0x20 => .vbcmp <$> decVbcmp f
  | 0x21 => .vbfind <$> decVbfind f
  | 0x22 => .vhash <$> (rsv ((f.imm.extractLsb' 1 1) == 1#1) *> decWBin f)
  | 0x23 => .vxhash <$> decVxhash f
  | _ => .error .illegalInstr

/-- Group 0x8: the minor opcodes (R57). -/
def decGroup8 (f : Fields) : D Instr :=
  match (f.opc.extractLsb' 0 8).toNat with
  | 0x00 => .vfadd <$> decFBin f
  | 0x01 => .vfsub <$> decFBin f
  | 0x02 => .vfmul <$> decFBin f
  | 0x03 => .vfma <$> decVfma f
  | 0x04 => .vfdiv <$> decFBin f
  | 0x05 => .vfsqrt <$> decFUn f
  | 0x06 => .vfmin <$> decFBin f
  | 0x07 => .vfmax <$> decFBin f
  | 0x08 => .vfabs <$> decFUn f
  | 0x09 => .vfneg <$> decFUn f
  | 0x0A => .vfcmp <$> decVfcmp f
  | 0x0B => .vexp2 <$> decFUn f
  | 0x0C => .vlog2 <$> decFUn f
  | 0x0D => .vrsqrt <$> decFUn f
  | 0x0E => .vrcp <$> decFUn f
  | 0x0F => .vtanh <$> decFUn f
  | 0x10 => .verf <$> decFUn f
  | 0x11 => .vcvt <$> decFUn f
  | 0x12 => .vfredsum <$> decFRed f
  | 0x13 => .vbfly <$> decVbfly f
  | 0x14 => .vamax <$> decFRed f
  | _ => .error .illegalInstr

/-- Group 0x9: the minor opcodes (R57). -/
def decGroup9 (f : Fields) : D Instr :=
  match (f.opc.extractLsb' 0 8).toNat with
  | 0x00 => .vqbfp <$> decVbfp f
  | 0x01 => .vdqbfp <$> decVbfp f
  | 0x02 => .vqsc <$> decVqsc f
  | 0x08 => .cbld <$> decCbld f
  | 0x09 => .cbst <$> decCbst f
  | 0x0A => .cbinv <$> decCbinv f
  | 0x0C => .vcbx <$> decFUn f
  | 0x0D => .vcbq <$> decFUn f
  | _ => .error .illegalInstr

/-- Group 0xA: the minor opcodes (R57). -/
def decGroupA (f : Fields) : D Instr :=
  match (f.opc.extractLsb' 0 8).toNat with
  | 0x00 => .tzero <$> decTzero f
  | 0x01 => .opa <$> decOpa f
  | 0x02 => .opas <$> decOpas f
  | 0x04 => .tlds <$> decTlds f
  | 0x05 => .tsts <$> decTsts f
  | 0x06 => .trowv <$> decTrowv f
  | 0x07 => .tvrow <$> decTvrow f
  | 0x08 => .tscale <$> decTscale f
  | _ => .error .illegalInstr

/-- Groups 0x6 to 0xA are X-side (R56). -/
def xGroup (c : BitVec 12) : Bool := 6 ≤ (c.extractLsb' 8 4).toNat && (c.extractLsb' 8 4).toNat ≤ 10

/-- The opcode group (R56). -/
def decGroup (f : Fields) : D Instr :=
  match (f.opc.extractLsb' 8 4).toNat with
  | 0 => decGroup0 f
  | 1 => decGroup1 f
  | 2 => decGroup2 f
  | 3 => decGroup3 f
  | 4 => decGroup4 f
  | 5 => decGroup5 f
  | 6 => decGroup6 f
  | 7 => decGroup7 f
  | 8 => decGroup8 f
  | 9 => decGroup9 f
  | 10 => decGroupA f
  | _ => .error .illegalInstr

/-- R59, orders 2 to 6, on the fields of a slot of the side given by its template. -/
def decodeFields (xside : Bool) (f : Fields) : D Instr := do
  rsv (xGroup f.opc == xside)
  rsv (f.ext.isNone || acceptsExt f.opc)
  decGroup f

/-- The instruction of a slot: `xside` is its template (0b01), `ext` the extension word before it (R54). -/
def decode (xside : Bool) (ext : Option IWord) (w : IWord) : D Instr := decodeFields xside (unpack ext w)

/-! The encoder. -/

/-- The fields of an instruction; none for an event. -/
def fieldsOf : Instr → Option Fields
  | .nop x => some (encBare 0x000#12 x)
  | .br x => some (encGImm 0x001#12 x)
  | .call x => some (encGImm 0x002#12 x)
  | .ret x => some (encBare 0x003#12 x)
  | .jmp x => some (encJmp 0x004#12 x)
  | .strip x => some (encStrip 0x005#12 x)
  | .vsetl x => some (encVsetl 0x006#12 x)
  | .trap x => some (encGImm 0x007#12 x)
  | .bkpt x => some (encGImm 0x013#12 x)
  | .eret x => some (encBare 0x008#12 x)
  | .exit x => some (encBare 0x009#12 x)
  | .yield x => some (encYield 0x00A#12 x)
  | .csrr x => some (encCsrRd 0x00B#12 x)
  | .csrw x => some (encCsrWr 0x00C#12 x)
  | .csrset x => some (encCsrWr 0x00D#12 x)
  | .csrclr x => some (encCsrWr 0x00E#12 x)
  | .fence x => some (encFence 0x00F#12 x)
  | .xsync x => some (encBare 0x010#12 x)
  | .tlbinv x => some (encTlbinv 0x011#12 x)
  | .setbnd x => some (encA3 0x012#12 x)
  | .add x => some (encABin 0x100#12 x)
  | .addi x => some (encAImm 0x101#12 x)
  | .sub x => some (encABin 0x102#12 x)
  | .mul x => some (encABin 0x104#12 x)
  | .muli x => some (encAImm 0x105#12 x)
  | .mulh x => some (encABin 0x106#12 x)
  | .mulhu x => some (encAImm 0x107#12 x)
  | .div x => some (encABin 0x108#12 x)
  | .divu x => some (encAImm 0x109#12 x)
  | .rem x => some (encABin 0x10A#12 x)
  | .remu x => some (encAImm 0x10B#12 x)
  | .and x => some (encABin 0x10C#12 x)
  | .andi x => some (encAImm 0x10D#12 x)
  | .or x => some (encABin 0x10E#12 x)
  | .ori x => some (encAImm 0x10F#12 x)
  | .xor x => some (encABin 0x110#12 x)
  | .xori x => some (encAImm 0x111#12 x)
  | .andn x => some (encABin 0x112#12 x)
  | .shl x => some (encABin 0x114#12 x)
  | .shli x => some (encAImm 0x115#12 x)
  | .shr x => some (encABin 0x116#12 x)
  | .shri x => some (encAImm 0x117#12 x)
  | .sra x => some (encABin 0x118#12 x)
  | .srai x => some (encAImm 0x119#12 x)
  | .min x => some (encABin 0x11C#12 x)
  | .max x => some (encAImm 0x11D#12 x)
  | .minu x => some (encABin 0x11E#12 x)
  | .maxu x => some (encAImm 0x11F#12 x)
  | .clz x => some (encAUn 0x120#12 x)
  | .ctz x => some (encAUn 0x121#12 x)
  | .popc x => some (encAUn 0x122#12 x)
  | .sext x => some (encAUnZ 0x123#12 x)
  | .zext x => some (encAUnZ 0x124#12 x)
  | .movi x => some (encMovi 0x125#12 x)
  | .moviX x => some (encMoviX 0x125#12 x)
  | .mov x => some (encAUn 0x126#12 x)
  | .sel x => some (encSel 0x127#12 x)
  | .cmp x => some (encCmp 0x128#12 x)
  | .cmpi x => some (encCmpi 0x129#12 x)
  | .plog x => some (encPlog 0x12A#12 x)
  | .lea x => some (encLea 0x12B#12 x)
  | .hashs x => some (encHashs 0x12C#12 x)
  | .ldb x => some (encLoad 0x200#12 x)
  | .ldh x => some (encLoad 0x201#12 x)
  | .ldw x => some (encLoad 0x202#12 x)
  | .ldd x => some (encLoad 0x203#12 x)
  | .ldbs x => some (encLoad 0x204#12 x)
  | .ldhs x => some (encLoad 0x205#12 x)
  | .ldws x => some (encLoad 0x206#12 x)
  | .stb x => some (encStore 0x208#12 x)
  | .sth x => some (encStore 0x209#12 x)
  | .stw x => some (encStore 0x20A#12 x)
  | .std x => some (encStore 0x20B#12 x)
  | .aadd x => some (encAtom 0x210#12 x)
  | .aand x => some (encAtom 0x211#12 x)
  | .aor x => some (encAtom 0x212#12 x)
  | .axor x => some (encAtom 0x213#12 x)
  | .amin x => some (encAtom 0x214#12 x)
  | .amax x => some (encAtom 0x215#12 x)
  | .aswp x => some (encAtom 0x216#12 x)
  | .acas x => some (encAcas 0x217#12 x)
  | .afadd x => some (encAfadd 0x218#12 x)
  | .lease x => some (encLease 0x220#12 x)
  | .unlease x => some (encUnlease 0x221#12 x)
  | .stlc x => some (encStlc 0x222#12 x)
  | .cflush x => some (encCmaint 0x230#12 x)
  | .cinv x => some (encCmaint 0x231#12 x)
  | .cpref x => some (encCpref 0x232#12 x)
  | .vld x => some (encVld 0x300#12 x)
  | .vldff x => some (encVld 0x301#12 x)
  | .vldx x => some (encVldx 0x302#12 x)
  | .vldsc x => some (encVlds 0x303#12 x)
  | .vst x => some (encVst 0x308#12 x)
  | .vstx x => some (encVstx 0x309#12 x)
  | .vstsc x => some (encVsts 0x30A#12 x)
  | .vlds x => some (encVlds 0x310#12 x)
  | .vsts x => some (encVsts 0x311#12 x)
  | .vldsx x => some (encVldsx 0x312#12 x)
  | .vstsx x => some (encVstsx 0x313#12 x)
  | .vamo x => some (encVamo 0x318#12 x)
  | .popx x => some (encPopx 0x320#12 x)
  | .qdrop x => some (encQdrop 0x322#12 x)
  | .pcopy x => some (encPcopy 0x400#12 x)
  | .pdec x => some (encPdec 0x401#12 x)
  | .pfill x => some (encPfill 0x403#12 x)
  | .twaitany x => some (encTmask2 0x408#12 x)
  | .twaitall x => some (encTmask 0x409#12 x)
  | .tfind x => some (encTfind 0x40A#12 x)
  | .tclr x => some (encTmask 0x40B#12 x)
  | .nbadd x => some (encNbadd 0x410#12 x)
  | .nbopt x => some (encNbopt 0x411#12 x)
  | .nbfence x => some (encBare 0x412#12 x)
  | .sfpool x => some (encSfpool 0x418#12 x)
  | .rhopen x => some (encRhopen 0x420#12 x)
  | .rhprio x => some (encRhprio 0x421#12 x)
  | .rhevict x => some (encRhbit 0x422#12 x)
  | .rhclose x => some (encRhbit 0x423#12 x)
  | .gong x => some (encGong 0x500#12 x)
  | .post x => some (encPost 0x501#12 x)
  | .waiti x => some (encPost 0x502#12 x)
  | .qnotify x => some (encQnotify 0x518#12 x)
  | .acset x => some (encAcset 0x508#12 x)
  | .acwait x => some (encAcwait 0x509#12 x)
  | .clred x => some (encClred 0x510#12 x)
  | .vadd x => some (encWBin 0x600#12 x)
  | .vsub x => some (encWImm 0x601#12 x)
  | .vmul x => some (encWBin 0x602#12 x)
  | .vmulh x => some (encWImm 0x603#12 x)
  | .vmac x => some (encVmac 0x604#12 x)
  | .vdot2 x => some (encVdot2 0x605#12 x)
  | .vabs x => some (encWUn 0x606#12 x)
  | .vneg x => some (encWUn 0x607#12 x)
  | .vmin x => some (encWBin 0x608#12 x)
  | .vmax x => some (encWImm 0x609#12 x)
  | .vand x => some (encWBin 0x60A#12 x)
  | .vor x => some (encWImm 0x60B#12 x)
  | .vxor x => some (encWBin 0x60C#12 x)
  | .vnot x => some (encWUn 0x60D#12 x)
  | .vshl x => some (encWBin 0x60E#12 x)
  | .vshr x => some (encWImm 0x60F#12 x)
  | .vsra x => some (encWBin 0x610#12 x)
  | .vsrar x => some (encVsrar 0x611#12 x)
  | .vclz x => some (encWUn 0x612#12 x)
  | .vpopc x => some (encWUn 0x613#12 x)
  | .vsel x => some (encVsel 0x614#12 x)
  | .vmov x => some (encWUn 0x615#12 x)
  | .vsplat x => some (encWSca 0x616#12 x)
  | .vsplatX x => some (encVsplatX 0x616#12 x)
  | .viota x => some (encViota 0x617#12 x)
  | .vadds x => some (encFBin 0x618#12 x)
  | .vsubs x => some (encFImm 0x619#12 x)
  | .vrmovf x => some (encWSca 0x61A#12 x)
  | .vrmovt x => some (encVrmovt 0x61B#12 x)
  | .vcmp x => some (encVcmp 0x700#12 x)
  | .vlbc x => some (encVlbc 0x701#12 x)
  | .mlog x => some (encMlog 0x702#12 x)
  | .mpopc x => some (encMpush 0x703#12 x)
  | .mffs x => some (encMpush 0x704#12 x)
  | .mpfx x => some (encMpfx 0x705#12 x)
  | .mffe x => some (encMffe 0x706#12 x)
  | .vslideup x => some (encSlide 0x710#12 x)
  | .vslidedn x => some (encSlide 0x711#12 x)
  | .vgathr x => some (encWBin 0x712#12 x)
  | .vcompr x => some (encVpack 0x713#12 x)
  | .vexpnd x => some (encVpack 0x714#12 x)
  | .vredsum x => some (encVred 0x716#12 x)
  | .vredmin x => some (encVred 0x717#12 x)
  | .vredmax x => some (encVred 0x718#12 x)
  | .vscan x => some (encSlide 0x719#12 x)
  | .vconf x => some (encWUn 0x71A#12 x)
  | .vcomb x => some (encVcomb 0x71B#12 x)
  | .vsort x => some (encVsort 0x71C#12 x)
  | .vbcmp x => some (encVbcmp 0x720#12 x)
  | .vbfind x => some (encVbfind 0x721#12 x)
  | .vhash x => some (encWBin 0x722#12 x)
  | .vxhash x => some (encVxhash 0x723#12 x)
  | .vfadd x => some (encFBin 0x800#12 x)
  | .vfsub x => some (encFBin 0x801#12 x)
  | .vfmul x => some (encFBin 0x802#12 x)
  | .vfma x => some (encVfma 0x803#12 x)
  | .vfdiv x => some (encFBin 0x804#12 x)
  | .vfsqrt x => some (encFUn 0x805#12 x)
  | .vfmin x => some (encFBin 0x806#12 x)
  | .vfmax x => some (encFBin 0x807#12 x)
  | .vfabs x => some (encFUn 0x808#12 x)
  | .vfneg x => some (encFUn 0x809#12 x)
  | .vfcmp x => some (encVfcmp 0x80A#12 x)
  | .vexp2 x => some (encFUn 0x80B#12 x)
  | .vlog2 x => some (encFUn 0x80C#12 x)
  | .vrsqrt x => some (encFUn 0x80D#12 x)
  | .vrcp x => some (encFUn 0x80E#12 x)
  | .vtanh x => some (encFUn 0x80F#12 x)
  | .verf x => some (encFUn 0x810#12 x)
  | .vcvt x => some (encFUn 0x811#12 x)
  | .vfredsum x => some (encFRed 0x812#12 x)
  | .vbfly x => some (encVbfly 0x813#12 x)
  | .vamax x => some (encFRed 0x814#12 x)
  | .vqbfp x => some (encVbfp 0x900#12 x)
  | .vdqbfp x => some (encVbfp 0x901#12 x)
  | .vqsc x => some (encVqsc 0x902#12 x)
  | .cbld x => some (encCbld 0x908#12 x)
  | .cbst x => some (encCbst 0x909#12 x)
  | .cbinv x => some (encCbinv 0x90A#12 x)
  | .vcbx x => some (encFUn 0x90C#12 x)
  | .vcbq x => some (encFUn 0x90D#12 x)
  | .tzero x => some (encTzero 0xA00#12 x)
  | .opa x => some (encOpa 0xA01#12 x)
  | .opas x => some (encOpas 0xA02#12 x)
  | .tlds x => some (encTlds 0xA04#12 x)
  | .tsts x => some (encTsts 0xA05#12 x)
  | .trowv x => some (encTrowv 0xA06#12 x)
  | .tvrow x => some (encTvrow 0xA07#12 x)
  | .tscale x => some (encTscale 0xA08#12 x)
  | .vlWrite _ => none
  | .vlcapWrite _ => none
  | .teixWrite _ => none
  | .tvecWrite _ => none
  | .fflagsWrite _ => none
  | .ptbaseWrite _ => none
  | .xWindowFree _ => none
  | .elementGroup _ => none
  | .xEntryCompletion _ => none
  | .yieldHintEnd _ => none
  | .queueEntryReady _ => none
  | .queueDeadlock _ => none
  | .xsyncDone _ => none
  | .yieldPauseEnd _ => none
  | .elementArrival _ _ _ _ _ => none
  | .interlockWaitEnd _ => none
  | .leaseGrant _ => none
  | .leaseExpiry _ => none
  | .gongDeparture _ => none
  | .waitiSatisfied _ => none
  | .twaitReturn _ => none
  | .engineIssue _ => none
  | .engineCompletion _ _ _ => none
  | .bankWriteWaitEnd _ => none
  | .nearMemoryUpdate _ _ => none
  | .nbfenceDone _ => none
  | .sfpoolBagArrival _ _ _ _ => none
  | .exitRetire _ => none
  | .acwaitReturn _ => none
  | .peerRequest _ => none
  | .peerStoreAck _ => none
  | .postedStoreRejected _ => none
  | .peerAcceptance _ _ => none
  | .clredResult _ _ _ _ _ => none
  | .linkReplay _ => none
  | .spokeLinkFailure _ _ => none
  | .saddlebagLinkFailure _ => none
  | .notifyWrite _ _ _ => none
  | .serverRdmaWrite _ _ _ => none
  | .queueMap _ => none
  | .unmapStart _ => none
  | .unmapComplete _ _ => none
  | .recordTake _ _ => none
  | .placement _ => none
  | .sliceTick _ => none
  | .sliceExpiry _ => none
  | .preemptionHalt _ => none
  | .contextSave _ => none
  | .resumption _ => none
  | .launchCompletion _ => none
  | .watchdogPoll _ _ => none
  | .watchdogExpiry _ => none
  | .powerOn _ => none
  | .powerLoss => none
  | .throttle _ => none
  | .thermalShutdown => none
  | .ident _ => none
  | .reset _ _ => none
  | .partition _ => none
  | .load _ => none
  | .start _ => none
  | .stop _ => none
  | .attest _ => none
  | .counters _ => none
  | .thermal _ _ => none
  | .domain _ _ _ _ => none
  | .hostwin _ _ => none
  | .keys _ _ => none
  | .unsupportedRdmaRequest _ => none

/-- The words of an instruction: the extension word, where it has one, and the instruction word (R47, R54). -/
def encode (i : Instr) : Option (Option IWord × IWord) := (fieldsOf i).map fun f => (f.ext, pack f)

/-- The side of the slot an instruction stands in (R56). -/
def Instr.xside (i : Instr) : Bool := match fieldsOf i with
  | some f => xGroup f.opc
  | none => false

/-- The instruction the decoder reads from `nbits` bits of instruction words: 96 bits are one word, 192 bits an
extension word and then the instruction word (R54); the slot's side is the one its opcode asks for (R56). -/
def decodeTableWord (nbits w : Nat) : Option Instr :=
  let v := BitVec.ofNat 192 w
  let ext : Option IWord := if nbits ≤ 96 then none else some (v.extractLsb' 0 96)
  let iw : IWord := if nbits ≤ 96 then v.extractLsb' 0 96 else v.extractLsb' 96 96
  (decode (xGroup (iw.extractLsb' 84 12)) ext iw).toOption

end Sys2Proof
end

