-- ==== Sys2Proof/Config.lean ====
section
/-! DEFINITION. What the spec leaves to the implementation, and the free values: constants without a body, so that
nothing can be proved of any value of theirs. -/

namespace Sys2Proof.Config

/-- The n-th free value, a double (log 5). -/
opaque freeDbl : Nat → BitVec 64
/-- The n-th free byte (log 5). -/
opaque freeByte : Nat → Byte
/-- The n-th free choice, a number taken modulo the number of choices (log 5). -/
opaque freeChoice : Nat → Nat
/-- SHA-512 (R34, R356, R361): named by the spec and defined elsewhere (log 6). -/
opaque sha512 : List Byte → BitVec 512
/-- ECDSA P-521 verification of a signature over a digest by a public key (R34, R356; log 6). -/
opaque ecdsaVerify : (pubkey : List Byte) → (digest : BitVec 512) → (sig : List Byte) → Bool
/-- The identity key's signature of a reply, 132 bytes (R356, R361; log 6). -/
opaque identitySign : List Byte → BitVec 1056
/-- The identity public key, 133 bytes (R358; log 6). -/
opaque identityKey : BitVec 1064
/-- The ROM version that IDENT reports (R358; log 6). -/
opaque romVersion : BitVec 32
/-- The Clave ROM's own measurement and that of the fuse settings (R361; log 6). -/
opaque romMeasure : BitVec 512
opaque fuseMeasure : BitVec 512
/-- The public key whose digest is fused as the first operator key (R358; log 6). -/
opaque firstOperatorKey : List Byte

/-- The count that a core's ccount has at cycle 0 of the module's clock, by the boot identifier and the core's place on the
mesh: no time base is shared between cores (R3; log 56). -/
opaque coreStart : BitVec 32 → Nat × Nat → BitVec 64

end Sys2Proof.Config
end

