-- ==== Sys2Proof/Machine/State.lean ====
section
/-! DEFINITION. The state of the module: every piece of state the spec gives it, as plain data. -/

namespace Sys2Proof.Machine

open Sys2Proof

/-- Why the machine stops. -/
inductive Fault where
  /-- Raised by `exec` of an encoded instruction when the current hart is not running: there is no hart that could
  execute it. Safe: the machine has no step there. -/
  | noHart
  deriving DecidableEq, Repr

/-- Why an instruction has no meaning. -/
inductive Refusal where
  /-- The instruction has no meaning in this model yet; raised by `exec`'s arm. Safe. -/
  | notModelled (mnemonic : String)
  deriving DecidableEq, Repr

/-! ## Memory (R1, R181, R273, R301, R371) -/

/-- A memory of bytes under natural keys: the bytes listed, in rising order of key; a byte that is not listed
reads as zero (log 3). -/
structure Memory where
  cells : List Host.Cell
  deriving DecidableEq, Repr

/-- What the step in progress does to memory, in order, newest first. -/
inductive MemOp where
  | put (key : Nat) (b : Byte)
  | clear (lo hi : Nat)
  deriving DecidableEq, Repr

/-! ## A hart -/

/-- A translation (R280, R284): the root, the virtual 64 KiB page, and the entry that the walk found, zero where the
walk faulted. -/
structure TlbEntry where
  root : BitVec 64
  vpn : Nat
  pte : BitVec 64
  /-- Physical address of the 64 KiB page. -/
  frame : Nat
  /-- log2 of the mapping's size in bytes: 16, 21 or 29 (R281). -/
  lg : Nat
  /-- The walk met an uncorrectable error: no translation, a device fault (R274, R372). -/
  ecc : Bool := false
  deriving DecidableEq, Repr

/-- A byte address with the translation of its page. -/
structure Loc where
  va : Nat
  e : TlbEntry
  deriving DecidableEq, Repr

/-- A pooled lookup whose check phase has passed (R307): its operation, its row elements' width and number, the index positions
[lo, hi) of each bag, the positions that are not skipped with the places of their rows, the weights by position, and the bags
that have not arrived; `rel`: a later release of the hart covers the reads that are still to be made (R335); `no`: its number among
the pooled lookups of the hart that have not ended, in program order (R332). -/
structure Pool where
  op : Nat
  half : Bool
  d : Nat
  bags : List (Nat × Nat)
  rows : List (Nat × Loc)
  weights : List Nat
  left : List Nat
  rel : Bool := false
  no : Nat := 0
  deriving DecidableEq, Repr

/-- A vector queue entry (R118, R119, R352). `written` has one bit per byte; `flight` holds the elements
requested and not yet arrived, of `width` bytes each, and `src` the keys that they were read from; `pool` is the pooled lookup that
fills it, until its last bag has arrived; `slot`: which of the queue's four slots of the register region holds it (R118, R184);
`issued`: the instruction that pushes it has made its last request; `done`: it is complete (R119); `dead` marks an entry whose
claim was abandoned (R348), and `feeds` the load entry, by queue and slot, whose index entry it is and with whose last element it
is popped (R250); `chain`: its elements can be read before it is complete (false for VLDSC, R253). -/
structure QEntry where
  data : VVal := 0#65536
  written : MVal := 0#8192
  issued : Bool := false
  done : Bool := false
  dead : Bool := false
  feeds : Option (BitVec 2 × BitVec 2) := none
  width : Nat := 1
  pool : Option Pool := none
  slot : BitVec 2 := 0
  chain : Bool := true
  flight : List (Nat × BitVec 64) := []
  src : List (Nat × List Nat) := []
  deriving DecidableEq, Repr

/-- An entry of the X window (R107, R110): the instruction, the captured scalars, format word, vl, shp, ffe,
srseed and icount, its progress, the ranges a handler made inactive (R113), and its place in the core's order of
passes and engine commands (R201 to R205). `fw` is the format word, or the second scalar of VLBC. `banks` are the
codebook banks it reads (R204, R205). `begun`: its queue entry is reserved (R109), and `old` holds what its destination
register held before it where that register is also a source (R140). -/
structure XEntry where
  i : Instr
  sa : Dbl
  fw : Dbl
  vl : Nat
  shp : Dbl
  ffe : Nat
  seed : Dbl
  icount : Dbl
  seq : Nat
  prog : Nat := 0
  banks : List (BitVec 4) := []
  skips : List (Nat × Nat) := []
  begun : Bool := false
  old : Option (VReg × VVal) := none
  deriving DecidableEq, Repr

/-- What an A side waits for. -/
inductive Wait where
  | queue (code : Nat)
  | window
  | xsync
  | exit
  | interlock
  | lease (pline : Nat)
  | leaseGrant (pline : Nat)
  | gong
  | waiti
  | tags
  | engine
  | bank
  | nbfence
  | posted
  | reads
  | acwait
  | peer (i : Nat)
  /-- The acknowledgement of the element of a VSTSC that it has posted (R253). -/
  | scStore (i : Nat)
  /-- It has stopped at an element boundary for a halt or a trap of the X side (R111). -/
  | boundary
  | clred
  | setbnd
  deriving DecidableEq, Repr

/-- A lease (R237 to R239): the row lines as the LEASE named it (virtual) and as it was translated (the line's
first key div 64), and the cycle at which it ends; `promise`: the slots that the hart is still promised before that cycle
(R370); `cross`: the row lines that a column line which crosses the leased one also crosses (R230, R238). -/
structure Lease where
  vline : Nat
  pline : Nat
  until_ : Nat
  promise : Nat
  cross : List Nat := []
  deriving DecidableEq, Repr

/-- The queue entries an A-side instruction has claimed and the lq entry it has reserved (R110, R348, R369), and the first element
that its check phase examined (R252); `waits`: it waited for more of its entries when this was noted. -/
structure Claim where
  pc : Nat
  first : Nat
  lq : Option LQ
  sq0 : Nat
  sq1 : Nat
  xq : Nat
  waits : Bool := false
  deriving DecidableEq, Repr

/-- The hyperparameters of an NBOPT as it read them at issue (R299), FP32 patterns. -/
structure NbHyper where
  lr : BitVec 32
  b1 : BitVec 32
  a1 : BitVec 32
  b2 : BitVec 32
  a2 : BitVec 32
  eps : BitVec 32
  c1 : BitVec 32
  c2 : BitVec 32
  deriving DecidableEq, Repr

/-- One read-modify-write of a near-memory unit (R292, R298, R299): the places of the 32-bit word, or of the half whose
word another row shares, and of its state words. `pair` adds two BF16 halves of one word, its upper half the high bits. -/
inductive NbOp where
  | add (bf : Bool) (a : Loc) (u : BitVec 32)
  | pair (a : Loc) (u : BitVec 32)
  | sgdm (hp : NbHyper) (p m : Loc) (g : BitVec 32)
  | adam (hp : NbHyper) (p m v : Loc) (g : BitVec 32)
  deriving DecidableEq, Repr

/-- A word update sent and not yet performed: the number of the row update it is part of (R295), and the rows that this update
recalls, with their bytes (R294). -/
structure NbItem where
  up : Nat
  op : NbOp
  span : List (Loc × Nat)
  deriving DecidableEq, Repr

/-- What a release write left at a byte (R335): the posted stores that it covers, its scope and its hart. -/
structure Msg where
  key : Nat
  ids : List Nat
  scope : Nat
  h : HartId
  deriving DecidableEq, Repr

inductive HPhase where
  /-- No hart stands here. -/
  | absent
  | running
  /-- Halted for pre-emption, being saved, or saved (R111, R351). -/
  | halted
  /-- Has executed EXIT (R102). -/
  | exited
  deriving DecidableEq, Repr

structure Hart where
  phase : HPhase
  /-- s0 to s63; the accessors make s0 read zero (R121). -/
  x : Vector Dbl 64
  /-- p0 to p7; the accessors make p0 read true (R121). -/
  p : BitVec 8
  v : Vector VVal 32
  m : Vector MVal 24
  /-- The vector registers written since the last restore, and the bytes of each register that the save area holds (R352). -/
  vnew : BitVec 32
  vkept : Nat
  lq : Vector (List QEntry) 4
  sq : Vector (List QEntry) 2
  /-- The slot that the next entry of each vector queue takes (R184). -/
  lqTail : Vector (BitVec 2) 4
  sqTail : Vector (BitVec 2) 2
  xq : List Dbl
  /-- The X window, oldest first (R107). -/
  win : List XEntry
  /-- The A-side position (R110): slot address and element index. -/
  pc : Nat
  eix : Nat
  /-- The line execution has entered and checked (R43): its address and bytes. -/
  line : Option (Nat × Line)
  sup : Bool
  vl : Dbl
  vlh : Dbl
  vlcap : Dbl
  shp : Dbl
  ffe : Dbl
  vsat : Bool
  fflags : BitVec 5
  srseed : Dbl
  tagown : Dbl
  cbown : BitVec 16
  tilown : BitVec 4
  /-- Lane groups requested and granted (R89, R116). -/
  laneReq : Nat
  lanes : Nat
  icount : Dbl
  tvec : Dbl
  tcause : BitVec 8
  tside : Bool
  tpc : Dbl
  teix : BitVec 14
  tval : Dbl
  aeix : BitVec 14
  tpm : Bool
  tscratch : Dbl
  txw : BitVec 6
  /-- The stop indices and bounds of teix and tstat.AEIX (R113, R344). -/
  stopT : Nat
  boundT : Nat
  stopA : Nat
  boundA : Nat
  ptbase : Dbl
  /-- The translation root in force until the next TLBINV (R283, R350). -/
  root : Dbl
  savearea : Dbl
  leases : List Lease
  /-- GONG episode counts per extent (w, h), and the arrival that waits: the GONG's slot address, its extent and its
  episode (R99, R352). -/
  gongs : List ((Nat × Nat) × Nat)
  arrived : Option (Nat × (Nat × Nat) × Nat)
  claim : Option Claim
  /-- The traps taken in supervisor mode whose handlers have not returned (R347). -/
  nest : Nat
  /-- Element ranges of the A-side instruction at the claim that handlers skipped (R306). -/
  askips : List (Nat × Nat)
  wait : Option Wait
  /-- Its place in the order of arrival among the accesses that wait for a lease (R238). -/
  waitNo : Nat
  /-- Cycles both sides have been blocked on each other (R120). -/
  blocked : Nat
  /-- The X side has met a trap, and the A side is to stop at its next element boundary (R112). -/
  xstop : Bool
  nb : List NbItem
  /-- Answers to the peer and host elements of the instruction in progress (R313). -/
  answers : List (Nat × PeerAnswer)
  /-- The cycle at which a YIELD pause ends (R103), and a +yd deferral (R115). -/
  pause : Nat
  ydEnd : Nat
  /-- Posted stores of any hart that happen before what the hart does next; those that its release fences
  cover, with each fence's scope; what came with the values it has read (R335, R336). -/
  seen : List Nat
  fenced : List (Nat × List Nat)
  heard : List Msg
  deriving DecidableEq, Repr

/-- Every register at the value the spec gives at placement, or zero (R94, R123, R343). -/
def Hart.idle : Hart :=
  { phase := .absent, x := Vector.replicate 64 0, p := 1, v := Vector.replicate 32 0, m := Vector.replicate 24 0,
    vnew := 0xFFFFFFFF, vkept := 0, lq := Vector.replicate 4 [], sq := Vector.replicate 2 [], lqTail := Vector.replicate 4 0,
    sqTail := Vector.replicate 2 0, xq := [], win := [], pc := 0, eix := 0, line := none,
    sup := false, vl := 0, vlh := 0, vlcap := 1, shp := 0, ffe := 0, vsat := false, fflags := 0, srseed := 0,
    tagown := 0, cbown := 0, tilown := 0, laneReq := 1, lanes := 0, icount := 0, tvec := 0, tcause := 0, tside := false,
    tpc := 0, teix := 0, tval := 0, aeix := 0, tpm := false, tscratch := 0, txw := 0, stopT := 0, boundT := 0,
    stopA := 0, boundA := 0, ptbase := 0, root := 0, savearea := 0, leases := [], gongs := [], arrived := none,
    claim := none, nest := 0, askips := [], wait := none, waitNo := 0, blocked := 0, xstop := false, nb := [], answers := [], pause := 0, ydEnd := 0,
    seen := [], fenced := [], heard := [] }

/-! ## A core of a launch -/

inductive BankSt where
  | invalid | clean | dirty
  deriving DecidableEq, Repr

/-- A codebook bank's descriptor and source address (R196); `reload`: the contents of a Clean bank are to be
read again from the source before its next access (R207). -/
structure Bank where
  fmt : BitVec 8 := 0
  cnt : Nat := 0
  lgg : BitVec 2 := 0
  st : BankSt := .invalid
  lnd : Bool := false
  src : Dbl := 0
  reload : Bool := false
  deriving DecidableEq, Repr

/-- What an engine command does (R258, R265 to R269); the addresses are those of the command, global or pool. A PDEC keeps the
symbol width, count and frequencies that it read at issue (R268). -/
inductive EngOp where
  | copy (d s n : Nat)
  | copy2 (d s rows bytes sp dp : Nat)
  | fill (d n w : Nat) (v : Dbl)
  | dec (d s n : Nat) (b count : Nat) (freq : List Nat)
  deriving DecidableEq, Repr

/-- An interlock entry's range (R263): scratchpad offsets or virtual addresses. -/
structure Range where
  pool : Bool
  lo : Nat
  hi : Nat
  deriving DecidableEq, Repr

/-- An engine command in flight (R261 to R263): the translations of the pages of its destination and of its source
serve the whole command (`dPages`, `sPages`), `ivl` are its interlock entries, `seq` its place in
the core's order (R204, R205), `dstBank`, `srcBank` the bank slots it names, `moved` the destination addresses that it has
written before its completion (R262). -/
structure Engine where
  hid : Nat
  tag : BitVec 6
  op : EngOp
  dPool : Bool
  sPool : Bool
  dPages : List TlbEntry
  sPages : List TlbEntry
  ivl : List Range
  seq : Nat
  dstBank : Option (BitVec 4)
  srcBank : Option (BitVec 4)
  moved : List Nat := []
  deriving DecidableEq, Repr

/-- An arrival counter (R316): the watched range, in the physical addresses that R311 gives peers, the count and the
expected value. -/
structure Arrival where
  lo : Nat := 0
  hi : Nat := 0
  c : Dbl := 0
  e : Dbl := 0
  deriving DecidableEq, Repr

structure Core where
  bnd0 : BitVec 21
  bnd1 : BitVec 21
  bnd2 : BitVec 21
  banks : Vector Bank 16
  tiles : Vector TileVal 4
  tileWritten : BitVec 4
  pace : Vector Dbl 4
  tagDone : BitVec 64
  engines : List Engine
  arrivals : Vector Arrival 16
  /-- The next number of the core's order of passes and engine commands. -/
  seq : Nat
  deriving DecidableEq, Repr

def Core.idle : Core :=
  { bnd0 := 0, bnd1 := 0, bnd2 := 0, banks := Vector.replicate 16 {}, tiles := Vector.replicate 4 0, tileWritten := 0,
    pace := Vector.replicate 4 0, tagDone := 0, engines := [], arrivals := Vector.replicate 16 {}, seq := 0 }

/-! ## Launches and partitions -/

/-- A start record (R89). -/
structure Record where
  seq : BitVec 64
  image : BitVec 64
  entry : BitVec 64
  args : BitVec 64
  width : BitVec 16
  height : BitVec 16
  harts : BitVec 8
  lanes : BitVec 8
  vlen : BitVec 8
  prio : BitVec 8
  vlcap : BitVec 32
  bnd0 : BitVec 32
  bnd1 : BitVec 32
  bnd2 : BitVec 32
  cbmask : BitVec 64
  tagrng : BitVec 64
  tilemask : BitVec 16
  dep0 : BitVec 64
  dep1 : BitVec 64
  compl : BitVec 64
  stack : BitVec 64
  save : BitVec 64
  deriving DecidableEq, Repr

def Record.zero : Record :=
  { seq := 0, image := 0, entry := 0, args := 0, width := 1, height := 1, harts := 1, lanes := 0, vlen := 9, prio := 0,
    vlcap := 1, bnd0 := 0, bnd1 := 0, bnd2 := 0, cbmask := 0, tagrng := 0, tilemask := 0, dep0 := 0, dep1 := 0,
    compl := 0, stack := 0, save := 0 }

/-- A residency handle (R285). -/
structure Handle where
  base : Nat
  len : Nat
  prio : BitVec 3
  deriving DecidableEq, Repr

inductive LPhase where
  | running
  /-- Halted, its save not yet made (R351). -/
  | halted
  | saved
  deriving DecidableEq, Repr

structure Launch where
  part : Nat
  q : Nat
  slot : Nat
  rec_ : Record
  entry : Nat
  /-- From the image's header (R30): frame plus spill bytes rounded up to 64 (R94), scratch, cbslot, the key
  ranges of header and text for ATTEST (R361). -/
  frame : Nat
  scratch : Nat
  cbslot : Nat
  phase : LPhase
  ox : Nat
  oy : Nat
  slices : Nat
  preempts : Nat
  waited : Nat
  /-- The cycle its slice began; whether a tick has expired it (R95); whether its pre-emption is requested (R96). -/
  begin_ : Nat
  expired : Bool
  preempt : Bool
  /-- A STOP halts its harts, and lets what they have in flight end (R360). -/
  stop : Bool := false
  handles : List (BitVec 8 × Handle)
  deriving DecidableEq, Repr

def Launch.idle : Launch :=
  { part := 0, q := 0, slot := 0, rec_ := Record.zero, entry := 0, frame := 0, scratch := 0, cbslot := 0, phase := .saved,
    ox := 0, oy := 0, slices := 0, preempts := 0, waited := 0, begin_ := 0, expired := false, preempt := false, handles := [] }

inductive QPhase where
  | unmapped | wanting | mapped | unmapping
  deriving DecidableEq, Repr

/-- A taken record that is neither placed nor completed (R92): its index, its own copy, and whether it is a
candidate (its tokens met, R91) with its waiting count. -/
structure Taken where
  n : Nat
  /-- The measurement of the image's header and text, taken once the loader has prepared it (R361). -/
  meas : BitVec 512
  rec_ : Record
  entry : Nat
  frame : Nat
  scratch : Nat
  cbslot : Nat
  candidate : Bool
  waited : Nat
  deriving DecidableEq, Repr

/-- A user queue that is not simply Unmapped (R88), with what the scheduler holds of it. `finished`: records
completed and not yet passed by done (R85, R97). -/
structure UserQ where
  phase : QPhase
  slot : Nat
  /-- The cycle it became Wanting, was mapped, and of its last activity (R88). -/
  wantedAt : Nat
  mappedAt : Nat
  activeAt : Nat
  head : Nat
  done : Nat
  finished : List Nat
  pending : Bool
  taken : Option Taken
  deriving DecidableEq, Repr

/-- A CLRED whose contribution has been sent (R324 to R326): the destination address and its pages as they were at
issue, no pages where this member writes no result. -/
structure ClredOp where
  h : HartId
  gid : BitVec 32
  e : Nat
  c : Contribution
  d : Nat
  pages : List TlbEntry
  deriving DecidableEq, Repr

structure Part where
  dies : BitVec 4
  policy : BitVec 8
  slicelg : Nat
  qtable : BitVec 64
  notify : BitVec 64
  tvec : BitVec 64
  ptbase : BitVec 64
  /-- The PARTITION body it was formed by (R361). -/
  body : List Byte
  started : Bool
  startedAt : Nat
  ticks : Nat
  queues : List (Nat × UserQ)
  /-- Wanting queues, in the order in which they became Wanting (R88). -/
  wanting : List Nat
  /-- The TLBINVs completed (R284, R350): the epoch of the last one that covers every translation, of the last for each
  root, and of those of single addresses with the mapping (first page and log2 of size) that they dropped. -/
  tlbAll : Nat
  tlbRoots : List (BitVec 64 × Nat)
  tlbPages : List ((Nat × Nat) × Nat)
  /-- The cycle of the last watchdog poll (R364). -/
  polledAt : Nat
  clredCounts : List (BitVec 32 × Nat)
  clreds : List ClredOp
  /-- Measurements of the images placed since START (R361). -/
  images : List (BitVec 512)
  answeredAt : Nat
  /-- No START since it was formed (R373). -/
  unstarted : Bool := true
  deriving DecidableEq, Repr

def Part.idle : Part :=
  { dies := 0, policy := 0, slicelg := 20, qtable := 0, notify := 0, tvec := 0, ptbase := 0, body := [], started := false,
    startedAt := 0, ticks := 0, queues := [], wanting := [], tlbAll := 0, tlbRoots := [], tlbPages := [], polledAt := 0, clredCounts := [], clreds := [],
    images := [], answeredAt := 0 }

/-! ## The module -/

inductive Power where
  | off
  /-- A die or an HBM stack failed its test: answers only IDENT (R355). -/
  | failed
  | ready
  deriving DecidableEq, Repr

/-- A posted peer or host store not yet acknowledged (R313, R314): `mod` is none for host. -/
structure Posted where
  id : Nat
  h : HartId
  mod : Option Nat
  pa : Nat
  bytes : List (Nat × Byte)
  /-- The posted stores that it, as a release, or release fences before it cover, by scope (R335). -/
  rels : List (Nat × List Nat) := []
  /-- The posted stores that happen before it (R336). -/
  after : List Nat := []
  deriving DecidableEq, Repr

/-- What the module has sent to the outside, newest first: replies of the Clave ROM (code, status, body),
requests and stores over Spoke and RDMA. -/
inductive Sent where
  | reply (code : Nat) (status : Nat) (body : List Byte) (sig : List Byte)
  | posted (p : Posted)
  | peerReply (src : Nat) (a : PeerAnswer)
  | request (h : HartId) (mod : Option Nat) (pa : Nat) (op : PeerOp)
  | contribution (c : Contribution)
  | rdmaWrite (window : Nat) (off : Nat) (bytes : List Byte)
  | invalidRequest
  deriving DecidableEq, Repr

structure HostWindow where
  n : Nat
  qp : Nat
  rkey : Nat
  rbase : Nat
  len : Nat
  deriving DecidableEq, Repr

structure RdmaRegion where
  part : Nat
  base : Nat
  len : Nat
  deriving DecidableEq, Repr

/-- What a command has to do when its turn comes (R357); `stop begun`: a STOP that has set about halting the partition's harts. -/
inductive Order where
  | malformed
  | reset (f : BootFindings)
  | partition
  | load
  | start
  | stop (begun : Bool)
  | attest
  | counters
  | thermal (watts : Nat)
  | domain (id part : Nat) (members : List Nat)
  | hostwin (a : HostwinArg)
  | keys (a : KeysArg)
  | ident
  deriving DecidableEq, Repr

structure Module where
  power : Power
  /-- Dies, stacks, saddlebag ports, Spoke links and Ethernet ports that work (R1, R355, R301, R315, R328). -/
  dieOk : BitVec 4
  hbmOk : BitVec 8
  portOk : BitVec 8
  linkOk : BitVec 32
  ethOk : BitVec 2
  bootId : BitVec 32
  opKeys : List (BitVec 512 × List Byte)
  imageKeys : List (BitVec 512 × List Byte)
  /-- The last sequence number accepted under each key since boot (R357). -/
  lastSeq : List (BitVec 512 × Nat)
  modId : Option Nat
  boundPart : Option Nat
  members : List Nat
  windows : List HostWindow
  regions : List RdmaRegion
  powerLimit : Nat
  /-- The cycle until which the cores of each die hold issue, and the cycles they have held it since boot (R363, R365). -/
  throttleEnd : Vector Nat 4
  throttled : Vector Nat 4
  corrected : List (Site × Nat)
  discardedNotifies : Nat
  /-- Not-live reads and completion records not written, by partition, since boot (R363). -/
  notLiveReads : List (Nat × Nat)
  unwritten : List (Nat × Nat)
  /-- Accepted commands that are not finished, oldest first (R357, R360). -/
  waiting : List (Cmd × Order) := []
  sent : List Sent
  deriving DecidableEq, Repr

def Module.off : Module :=
  { power := .off, dieOk := 0, hbmOk := 0, portOk := 0, linkOk := 0, ethOk := 0, bootId := 0, opKeys := [], imageKeys := [], lastSeq := [],
    modId := none, boundPart := none, members := [], windows := [], regions := [], powerLimit := 2400,
    throttleEnd := Vector.replicate 4 0, throttled := Vector.replicate 4 0, corrected := [], discardedNotifies := 0, notLiveReads := [],
    unwritten := [], sent := [] }

/-! ## The whole -/

/-- A soft error in a place without a check, with what it leaves there (R362): an xq entry, a vector queue entry (filled or
drained by the A side), a tile, a window entry's fields, a byte that an engine writes, and, for the arithmetic
units and the codebook lookups, a scalar, predicate, vector or mask register. -/
inductive Soft where
  | xq (h : HartId) (i : Nat) (v : Dbl)
  | lq (h : HartId) (q : LQ) (e : Nat) (v : VVal)
  | sq (h : HartId) (q : SQ) (e : Nat) (v : VVal)
  | tile (l k : Nat) (t : Nat) (v : TileVal)
  | window (h : HartId) (e : Nat) (v : XEntry)
  | staging (key : Nat) (b : Byte)
  | scalar (h : HartId) (r : SReg) (v : Dbl)
  | pred (h : HartId) (r : PReg) (b : Bool)
  | vector (h : HartId) (r : VReg) (v : VVal)
  | mask (h : HartId) (r : MReg) (v : MVal)
  deriving DecidableEq, Repr

/-- What computes a value that lands in memory: the instruction at a hart's position, or an event. -/
inductive Arith where
  | issue (h : HartId)
  | event (e : Instr)
  deriving DecidableEq, Repr

/-- What moves next (log 1): a hart's A side executes the instruction at its position, an event happens, cycles
pass, an engine command writes some of its destination bytes before it completes (R262), a check unit of a memory, of an L2 slice
or of a core's cache region takes an uncorrectable error, a slice or a cache region gives up the copy that holds one, a unit is
written back from a dirty copy (R372), an error is corrected and counted, the fetched line of a hart changes, a place without a check
takes a soft error, an atomic, a near-memory update or a collective leaves other bytes than it should (R362), a
slice frees a line of a launch's residency handle (R286), or an accepted command that waits goes on (R360). -/
inductive Move where
  | issue (h : HartId)
  | event (e : Instr)
  | pass (n : Nat)
  | upset (unit : Nat)
  | transfer (l k : Nat) (tag : BitVec 6) (dst : List Nat)
  | upsetL2 (key : Nat)
  | dropL2 (key : Nat)
  | upsetL1 (l k key : Nat)
  | dropL1 (l k key : Nat)
  | writeBack (key : Nat)
  | corrected (x : Site)
  | upsetLine (h : HartId) (v : Line)
  | soft (e : Soft)
  | arith (a : Arith) (hits : List (Nat × Byte))
  | evict (l : Nat) (i : BitVec 8)
  | command
  deriving DecidableEq, Repr

structure State where
  /-- Cycles of the clock since module reset; each core counts its own in ccount (R3, R123, log 56). -/
  cycle : Nat
  mem : Memory
  /-- The memory operations of the step in progress; empty between steps (log 2). -/
  wbuf : List MemOp
  /-- Keys last written through a cacheable mapping, each with the launch that wrote it, and keys last written through an uncached
  one, that are not reconciled (R340). -/
  cachedW : List (Nat × Nat)
  uncachedW : List Nat
  /-- Keys that a hart has written back by CFLUSH and has not fenced since (R340). -/
  flushed : List (HartId × Nat)
  /-- Keys whose present value every read through an uncached mapping by a hart in this scope of this hart returns (R340). -/
  settled : List (HartId × Nat × Nat)
  /-- For a hart and a key, the epoch until which a value that the hart has read there stood, or in which it read the present one; with
  whether the hart's context has been saved since (R340, R341). -/
  seen : List (HartId × Nat × Nat × Bool)
  /-- Check units that hold an uncorrectable error, by the key of their first byte (R372). -/
  bad : List Nat
  /-- Check units of L2 slices that hold one, by the key of their first byte (R372). -/
  badL2 : List Nat
  /-- Check units of the cache regions of cores (launch, core) that hold one, by the key of their first byte (R362, R372). -/
  badL1 : List ((Nat × Nat) × Nat)
  /-- Values that double words of global memory have held before their present one, by key, each with the epoch in which
  it was replaced (R264, R284, R340). -/
  old : List (Nat × List (Nat × Dbl))
  /-- The epoch: a TLBINV that completes ends one, and so does a step that writes global memory (R264, R284, R340). -/
  epoch : Nat
  /-- Not-live segments of HBM (R287): partition and segment number within its HBM space. -/
  notLive : List (Nat × Nat)
  harts : List (HartId × Hart)
  cores : List ((Nat × Nat) × Core)
  launches : List (Nat × Launch)
  parts : List (Nat × Part)
  posted : List Posted
  /-- What release writes left, and what POSTs left in paceline channels (by launch, core and channel) (R335, R336, R338). -/
  msgs : List Msg
  paceMsgs : List ((Nat × Nat × Nat) × List Nat)
  /-- What harts arrived with at a GONG: by launch, the first core of the sub-rectangle, extent and episode (R99, R335). -/
  gongMsgs : List ((Nat × Nat × (Nat × Nat) × Nat) × List Nat)
  /-- The next number in the order of arrival of R238. -/
  waitNos : Nat
  /-- The next launch serial number, posted store number, and ticket of R253. -/
  nextLaunch : Nat
  nextPosted : Nat
  ticket : Nat
  md : Module
  /-- The moves to come, then the scheduler's own choice (log 1). -/
  agenda : List Move
  /-- The hart whose instruction `exec` executes. -/
  cur : HartId
  /-- How many free values have been drawn (log 5). -/
  fresh : Nat
  deriving DecidableEq, Repr

/-- The module with its power off (R4): nothing runs or keeps state; POWER_ON brings it up (R355). The values the
spec does not give are named in the log (3, 4, 7). -/
def State.reset : State :=
  { cycle := 0, mem := ⟨[]⟩, wbuf := [], cachedW := [], uncachedW := [], flushed := [], settled := [], seen := [], bad := []
    badL2 := [], badL1 := [], old := [], epoch := 0, notLive := [], harts := [], cores := [], launches := [], parts := []
    posted := [], msgs := [], paceMsgs := [], gongMsgs := [], waitNos := 0, nextLaunch := 0, nextPosted := 0, ticket := 0
    md := Module.off, agenda := [], cur := ⟨0, 0, 0⟩, fresh := 0 }

end Sys2Proof.Machine
end

