-- ==== Sys2Proof/Machine/Ops.lean ====
section
/-! DEFINITION. The named operations over memory, tables, registers and traps. -/

namespace Sys2Proof.Machine

open Sys2Proof

/-! ## Bit fields -/

/-- Bits [off, off + len) of a number. -/
def getBits (t off len : Nat) : Nat := (t >>> off) % 2 ^ len
/-- The number with bits [off, off + len) replaced by the low bits of x. -/
def setBits (t off len x : Nat) : Nat := t - (getBits t off len <<< off) + ((x % 2 ^ len) <<< off)
/-- Elements of vector registers, queue slots and tiles, by bit offset and bit length (R68, R135). -/
def vget (v : VVal) (off len : Nat) : Nat := getBits v.toNat off len
def vset (v : VVal) (off len x : Nat) : VVal := BitVec.ofNat _ (setBits v.toNat off len x)
/-- A w-bit pattern as two's complement. -/
def sint (w x : Nat) : Int := if x % 2 ^ w < 2 ^ (w - 1) then ((x % 2 ^ w : Nat) : Int) else ((x % 2 ^ w : Nat) : Int) - 2 ^ w
/-- An integer modulo 2^w. -/
def wrap (w : Nat) (x : Int) : Nat := (x % (2 ^ w : Int)).toNat
/-- The bytes of a number, lowest first (R7). -/
def toBytes : Nat → Nat → List Byte
  | 0, _ => []
  | n + 1, x => BitVec.ofNat 8 x :: toBytes n (x / 256)
/-- The number whose bytes these are, lowest first. -/
def ofBytes : List Byte → Nat
  | [] => 0
  | b :: t => b.toNat + 256 * ofBytes t

/-! ## Tables -/

/-- The value at a key, or the default. -/
def tget {κ α : Type} [DecidableEq κ] (d : α) : List (κ × α) → κ → α
  | [], _ => d
  | (a, v) :: t, k => if a = k then v else tget d t k
/-- The table with the value at a key replaced, or added at the end. -/
def tput {κ α : Type} [DecidableEq κ] : List (κ × α) → κ → α → List (κ × α)
  | [], k, v => [(k, v)]
  | (a, w) :: t, k, v => if a = k then (a, v) :: t else (a, w) :: tput t k v
/-- The table without a key. -/
def tdel {κ α : Type} [DecidableEq κ] (t : List (κ × α)) (k : κ) : List (κ × α) := t.filter fun e => e.1 ≠ k

def State.hart (s : State) (h : HartId) : Hart := tget Hart.idle s.harts h
def State.setHart (s : State) (h : HartId) (x : Hart) : State := { s with harts := tput s.harts h x }
def State.updHart (s : State) (h : HartId) (f : Hart → Hart) : State := s.setHart h (f (s.hart h))
def State.core (s : State) (l k : Nat) : Core := tget Core.idle s.cores (l, k)
def State.setCore (s : State) (l k : Nat) (c : Core) : State := { s with cores := tput s.cores (l, k) c }
def State.updCore (s : State) (l k : Nat) (f : Core → Core) : State := s.setCore l k (f (s.core l k))
def State.launch (s : State) (l : Nat) : Launch := tget Launch.idle s.launches l
def State.setLaunch (s : State) (l : Nat) (x : Launch) : State := { s with launches := tput s.launches l x }
def State.part (s : State) (p : Nat) : Part := tget Part.idle s.parts p
def State.setPart (s : State) (p : Nat) (x : Part) : State := { s with parts := tput s.parts p x }
def State.updPart (s : State) (p : Nat) (f : Part → Part) : State := s.setPart p (f (s.part p))
/-- Draw a free choice among n (log 5). -/
def State.choose (s : State) (n : Nat) : State × Nat := ({ s with fresh := s.fresh + 1 }, Config.freeChoice s.fresh % n)
/-- Draw a free byte. -/
def State.draw (s : State) : State × Byte := ({ s with fresh := s.fresh + 1 }, Config.freeByte s.fresh)

/-! ## Memory -/

/-- A byte by key; an unlisted byte reads as zero. -/
def cellsGet : List Host.Cell → Nat → Byte
  | [], _ => 0
  | (a, b) :: t, k => if a = k then b else if k < a then 0 else cellsGet t k
/-- The list with one byte written, kept in canonical form: rising keys, no zero byte listed. -/
def cellsPut : List Host.Cell → Nat → Byte → List Host.Cell
  | [], k, b => if b = 0 then [] else [(k, b)]
  | (a, c) :: t, k, b =>
    if a = k then (if b = 0 then t else (k, b) :: t)
    else if k < a then (if b = 0 then (a, c) :: t else (k, b) :: (a, c) :: t)
    else (a, c) :: cellsPut t k b

/-- The canonical form: keys strictly rising, and no listed byte equal to what an unlisted one reads as. -/
abbrev Memory.wf (m : Memory) : Prop := m.cells.Pairwise (fun a b => a.1 < b.1) ∧ ∀ c ∈ m.cells, c.2 ≠ 0

def Memory.read (m : Memory) (k : Nat) : Byte := cellsGet m.cells k
def Memory.write (m : Memory) (k : Nat) (b : Byte) : Memory := ⟨cellsPut m.cells k b⟩
/-- Every byte of [lo, hi) becomes zero. -/
def Memory.clear (m : Memory) (lo hi : Nat) : Memory := ⟨m.cells.filter fun c => c.1 < lo || hi ≤ c.1⟩
def Memory.apply (m : Memory) : MemOp → Memory
  | .put k b => m.write k b
  | .clear lo hi => m.clear lo hi
/-- The memory after the operations of a step, oldest (last) first. -/
def Memory.commit (m : Memory) : List MemOp → Memory
  | [] => m
  | o :: t => (m.commit t).apply o

/-- A byte as the step in progress sees it. -/
def peekBuf (m : Memory) (k : Nat) : List MemOp → Byte
  | [] => m.read k
  | .put a b :: t => if a = k then b else peekBuf m k t
  | .clear lo hi :: t => if lo ≤ k && k < hi then 0 else peekBuf m k t
def State.peek (s : State) (k : Nat) : Byte := peekBuf s.mem k s.wbuf
def State.poke (s : State) (k : Nat) (b : Byte) : State := { s with wbuf := .put k b :: s.wbuf }
def State.wipe (s : State) (lo hi : Nat) : State := { s with wbuf := .clear lo hi :: s.wbuf }
/-- The number in n bytes at consecutive keys. -/
def State.peekN (s : State) (k : Nat) : Nat → Nat
  | 0 => 0
  | n + 1 => (s.peek k).toNat + 256 * s.peekN (k + 1) n
/-- Bytes at consecutive keys. -/
def State.pokes (s : State) (k : Nat) : List Byte → State
  | [] => s
  | b :: t => (s.poke k b).pokes (k + 1) t

/-- The first key of the pools: all global memory lies below (R181). -/
def poolBase : Nat := 4398046511104
/-- The double word of a memory at a key. -/
def Memory.dbl (m : Memory) (k : Nat) : Dbl := BitVec.ofNat 64 (ofBytes ((List.range 8).map fun i => m.read (k + i)))
/-- The double words of global memory that an operation can change. -/
def MemOp.dbls (m : Memory) : MemOp → List Nat
  | .put k _ => if k < poolBase then [k / 8 * 8] else []
  | .clear lo hi => (m.cells.filter fun c => lo ≤ c.1 && c.1 < hi && c.1 < poolBase).map fun c => c.1 / 8 * 8
/-- A value that a double word held until this epoch joins those that it has held (R264, R284, R340). -/
def noteOld (tbl : List (Nat × List (Nat × Dbl))) (epoch k : Nat) (v : Dbl) : List (Nat × List (Nat × Dbl)) :=
  if (tget [] tbl k).head? == some (epoch, v) then tbl else tput tbl k ((epoch, v) :: tget [] tbl k)
/-- The values that a step's operations replace join those held before. -/
def noteStep (m m' : Memory) (epoch : Nat) (ops : List MemOp) (tbl : List (Nat × List (Nat × Dbl))) : List (Nat × List (Nat × Dbl)) :=
  (ops.flatMap (MemOp.dbls m)).foldl (fun tbl k => if m.dbl k == m'.dbl k then tbl else noteOld tbl epoch k (m.dbl k)) tbl

/-- A step that writes global memory ends an epoch. -/
def nextEpoch (m : Memory) (epoch : Nat) (ops : List MemOp) : Nat := if (ops.flatMap (MemOp.dbls m)).isEmpty then epoch else epoch + 1
/-- The state after a step: memory takes what the step wrote, and nothing else has changed it; what it replaced is noted. -/
def close (old t : State) : State :=
  let m := old.mem.commit t.wbuf
  { t with mem := m, wbuf := [], old := noteStep old.mem m t.epoch t.wbuf t.old, epoch := nextEpoch old.mem t.epoch t.wbuf }

/-! ## Physical memory (R273, R301, R371) -/

/-- The compute dies of a partition, in order. -/
def dieList (dies : BitVec 4) : List Nat := [0, 1, 2, 3].filter fun i => dies.getLsbD i
/-- The die of core (x, y) of the mesh (R2). -/
def coreDie (x y : Nat) : Nat := x / 16 + 2 * (y / 10)
/-- The mesh position of the first core of a partition's dies (R2, R83). -/
def meshOrigin (dies : BitVec 4) : Nat × Nat := let d := (dieList dies).headD 0; (16 * (d % 2), 10 * (d / 2))
/-- Bytes of one HBM channel: 48 GiB over 32 channels. -/
def channelBytes : Nat := 1610612736
/-- The key of HBM physical address a of a partition (R273). -/
def hbmKey (dies : BitVec 4) (a : Nat) : Nat :=
  let ds := dieList dies
  let n := 64 * ds.length
  let c := (a / 256) % n
  let st := 2 * ds.getD (c / 64) 0 + (c / 32) % 2
  channelBytes * (32 * st + c % 32) + 256 * (a / (256 * n)) + a % 256
/-- The HBM physical address of a partition that a key holds, the inverse of `hbmKey`; none where the partition has no part
of the stack. -/
def hbmAddr (dies : BitVec 4) (key : Nat) : Option Nat :=
  let ds := dieList dies
  let ch := key / channelBytes
  match ds.findIdx? (· == ch / 64) with
  | none => none
  | some i => if key < 412316860416 then some (256 * (64 * ds.length) * (key % channelBytes / 256) + 256 * (64 * i + ch % 64) + key % 256) else none
/-- HBM bytes of a partition: 48 GiB per stack, two stacks per die. -/
def hbmSize (dies : BitVec 4) : Nat := 103079215104 * (dieList dies).length
/-- The key of the first saddlebag byte: HBM holds 384 GiB. -/
def saddlebagBase : Nat := 412316860416
/-- The global port of a partition's saddlebag address (R301): two ports per die, in port order; those of CDi are ports 2i and 2i + 1
(log 72). -/
def sadPort (dies : BitVec 4) (a : Nat) : Nat :=
  let ds := dieList dies
  let m := (a / 4096) % (2 * ds.length)
  2 * ds.getD (m / 2) 0 + m % 2
def sadKey (dies : BitVec 4) (a : Nat) : Nat :=
  let q := 2 * (dieList dies).length
  saddlebagBase + 274877906944 * sadPort dies a + 4096 * ((a / 4096) / q) + a % 4096
def sadSize (dies : BitVec 4) : Nat := 549755813888 * (dieList dies).length
/-- The key of pool address a of core k of launch l (R181): each core's pool has its own 2 MiB of keys above
all global memory. -/
def poolKey (l k a : Nat) : Nat := 4398046511104 + 2097152 * (65536 * l + k) + a
/-- The tier and physical address of a partition that a key of global memory holds. -/
def keyAddr (dies : BitVec 4) (key : Nat) : Option (Nat × Nat) :=
  if key < saddlebagBase then (hbmAddr dies key).map fun a => (0, a)
  else
    let ds := dieList dies
    let r := key - saddlebagBase
    let port := r / 274877906944
    (ds.findIdx? (· == port / 2)).map fun i => (1, 4096 * (2 * ds.length * (r % 274877906944 / 4096) + 2 * i + port % 2) + r % 4096)
/-- The check unit a byte lies in (R372): 32 bytes in HBM, 64 in the saddlebag, 8 in a pool. -/
def unitOf (key : Nat) : Nat :=
  if key < saddlebagBase then key / 32 * 32 else if key < 4398046511104 then key / 64 * 64 else key / 8 * 8
def unitEnd (u : Nat) : Nat := if u < saddlebagBase then u + 32 else if u < 4398046511104 then u + 64 else u + 8
/-- A check unit of a memory that holds an uncorrectable error covers one of the keys (R372). -/
def memBad (s : State) (ks : List Nat) : Bool := !s.bad.isEmpty && ks.any fun k => s.bad.contains (unitOf k)
/-- A check unit that holds an uncorrectable error, of a memory or of an L2 slice, covers one of the keys (R372). -/
def badUnit (s : State) (ks : List Nat) : Bool :=
  memBad s ks || (!s.badL2.isEmpty && ks.any fun k => s.badL2.contains (k / 8 * 8))
/-- A byte of the row line of a key was last written through a cacheable mapping by one of these launches: a copy of the line may be
dirty. -/
def mayDirty (s : State) (k : Nat) (of_ : Nat → Bool) : Bool := s.cachedW.any fun x => x.1 / 64 == k / 64 && of_ x.2
/-- The cache region of a core may hold a dirty copy of the row line of a key with a bad unit, which it would have to give up. -/
def dirtyL1 (s : State) (ks : List Nat) : Bool :=
  s.badL1.any fun x => ks.any (fun k => x.2 / 64 == k / 64) && mayDirty s x.2 (· == x.1.1)
/-- A coherent read at these keys may meet an uncorrectable error, in a memory, in an L2 slice or in the dirty copy of a cache region
(R362, R372). -/
def coherentBad (s : State) (ks : List Nat) : Bool := badUnit s ks || dirtyL1 s ks
/-- A read at these keys needs a unit with an uncorrectable error. Where it is coherent (`c`), a cache may hold a copy that serves it,
clean or dirty, and which unit is read is a free choice (R372). -/
def needsBad (s : State) (c : Bool) (ks : List Nat) : State × Bool :=
  if !c then (s, memBad s ks)
  else if coherentBad s ks then
    let (s, x) := s.choose 2
    (s, x == 1)
  else (s, false)
/-- The HBM addresses among these that lie in a not-live segment of a partition (R287). -/
def deadReads (s : State) (p : Nat) (pas : List Nat) : List Nat := pas.filter fun a => s.notLive.contains (p, a / 2097152)
/-- Reads at HBM addresses of a partition may reach the channel: the counter rises by one for each in a not-live segment that does
(R287). -/
def noteDead (s : State) (p : Nat) (pas : List Nat) : State :=
  if s.notLive.isEmpty || (deadReads s p pas).isEmpty then s
  else
    let (s, c) := s.choose ((deadReads s p pas).length + 1)
    { s with md := { s.md with notLiveReads := tput s.md.notLiveReads p (tget 0 s.md.notLiveReads p + c) } }
/-- The same for the row lines of bytes by their keys. -/
def noteDeadKeys (s : State) (p : Nat) (ks : List Nat) : State :=
  if s.notLive.isEmpty then s
  else noteDead s p (((ks.filter (· < saddlebagBase)).map (· / 64 * 64)).eraseDups.filterMap (hbmAddr (s.part p).dies))

/-! ## Page-table entries (R279) -/

def pteFrame (e : BitVec 64) : Nat := 65536 * (e.extractLsb' 26 36).toNat
def ptePin (e : BitVec 64) : Bool := e.getLsbD 25
def pteMod (e : BitVec 64) : Nat := (e.extractLsb' 18 7).toNat
def pteTier (e : BitVec 64) : Nat := (e.extractLsb' 16 2).toNat
def pteNbc (e : BitVec 64) : Bool := e.getLsbD 15
def ptePcode (e : BitVec 64) : Nat := (e.extractLsb' 11 4).toNat
def pteWcode (e : BitVec 64) : Nat := (e.extractLsb' 9 2).toNat
def pteOri (e : BitVec 64) : Bool := e.getLsbD 8
def pteCt (e : BitVec 64) : Bool := e.getLsbD 7
def pteC (e : BitVec 64) : Bool := e.getLsbD 6
def pteU (e : BitVec 64) : Bool := e.getLsbD 5
def pteX (e : BitVec 64) : Bool := e.getLsbD 4
def pteW (e : BitVec 64) : Bool := e.getLsbD 3
def pteR (e : BitVec 64) : Bool := e.getLsbD 2
def pteK (e : BitVec 64) : Bool := e.getLsbD 1
def pteV (e : BitVec 64) : Bool := e.getLsbD 0

/-- R280's Check: the entry is legal at its level. -/
def pteOk (e : BitVec 64) (level : Nat) : Bool :=
  pteV e && e.extractLsb' 62 2 == 0 && !(level == 3 && !pteK e) && !(level == 1 && pteK e)
  && !(pteK e && e.extractLsb' 2 24 != 0)
  && !(pteOri e && (pteWcode e == 3 || 10 < ptePcode e))
  && !(!pteOri e && (pteWcode e != 0 || ptePcode e != 0))
  && !(pteTier e != 2 && pteMod e != 0) && !(level == 2 && pteCt e)

/-- What a walker's read of 8 bytes at an HBM physical address may give: the entry that stands there, and each that stood
there before, with the epoch in which it was replaced (R284); nothing at or beyond the installed HBM (R371). -/
def walkReads (s : State) (dies : BitVec 4) (a : Nat) : List (Option (BitVec 64) × Option Nat) :=
  if a + 8 ≤ hbmSize dies then
    (some (BitVec.ofNat 64 (s.peekN (hbmKey dies a) 8)), none) :: (tget [] s.old (hbmKey dies a)).map fun x => (some x.2, some x.1)
  else [(none, none)]

/-- The earlier of two epochs, where none is the present. -/
def older : Option Nat → Option Nat → Option Nat
  | none, b => b
  | a, none => a
  | some a, some b => some (min a b)

/-- Entry j of a contiguous run whose first entry is e0 (R281). -/
def runEntry (e0 e : BitVec 64) (j : Nat) : Bool :=
  pteCt e && pteOk e 1 && pteFrame e == pteFrame e0 + 65536 * j && e.extractLsb' 0 26 == e0.extractLsb' 0 26

/-- The 32 level-1 entries at `base` form, or formed, a contiguous run with first entry e0 (R281): the epoch until which
they did. -/
def runSince (s : State) (dies : BitVec 4) (base : Nat) (e0 : BitVec 64) : Nat → Option (Option Nat)
  | 0 => if pteFrame e0 % 2097152 == 0 then some none else none
  | n + 1 =>
    match runSince s dies base e0 n, (walkReads s dies (base + 8 * n)).find? (fun x => x.1.any fun e => runEntry e0 e n) with
    | some a, some (_, b) => some (older a b)
    | _, _ => none

/-- A walk that faults: an entry of zero. -/
def noEntry (root : BitVec 64) (vpn : Nat) : TlbEntry := { root := root, vpn := vpn, pte := 0, frame := 0, lg := 16 }

/-- The walk meets an uncorrectable error in one of n entries from a (R274, R372): a device fault, where no TLB holds the
translation. -/
def walkEcc (s : State) (dies : BitVec 4) (root : BitVec 64) (vpn a n : Nat) : List (TlbEntry × Option Nat) :=
  if coherentBad s ((List.range n).map fun j => hbmKey dies (a + 8 * j)) then [({ noEntry root vpn with ecc := true }, none)] else []

/-- A level-1 entry of a contiguous run (R281), read until epoch ep: its mapping is 2 MiB where the run holds; where it is
broken, an access goes through its own entry or through the run's first entry extended over 2 MiB, and where that one is not legal
through its own (log 57). -/
def walkRun (s : State) (dies : BitVec 4) (root : BitVec 64) (vpn : Nat) (e2 e1 : BitVec 64) (ep : Option Nat) : List (TlbEntry × Option Nat) :=
  let own : TlbEntry := { noEntry root vpn with pte := e1, frame := pteFrame e1 }
  let base := pteFrame e2 + 8 * ((vpn % 8192) / 32 * 32)
  walkEcc s dies root vpn base 32 ++ (walkReads s dies base).flatMap fun x =>
    match x.1 with
    | none => [(own, ep)]
    | some e0 =>
      let held := runSince s dies base e0 32
      let broken :=
        if pteOk e0 1 then [(own, ep), ({ noEntry root vpn with pte := e0, frame := pteFrame e0 + 65536 * (vpn % 32) }, older ep x.2)]
        else [(own, ep)]
      match held with
      | some r => if runEntry e0 e1 (vpn % 32) then ({ own with lg := 21 }, older ep r) :: (if r.isNone then [] else broken) else broken
      | none => broken

/-- Level 1 of the walk (R280), from the table that e2 points to. -/
def walk1 (s : State) (dies : BitVec 4) (root : BitVec 64) (vpn : Nat) (e2 : BitVec 64) (ep : Option Nat) : List (TlbEntry × Option Nat) :=
  let a := pteFrame e2 + 8 * (vpn % 8192)
  walkEcc s dies root vpn a 1 ++ (walkReads s dies a).flatMap fun x =>
    let ep := older ep x.2
    match x.1 with
    | none => [(noEntry root vpn, ep)]
    | some e1 =>
      if !pteOk e1 1 then [(noEntry root vpn, ep)]
      else if !pteCt e1 then [({ noEntry root vpn with pte := e1, frame := pteFrame e1 }, ep)]
      else walkRun s dies root vpn e2 e1 ep

/-- Level 2 of the walk, from the table that e3 points to: a 512 MiB block, or a table of level 1. -/
def walk2 (s : State) (dies : BitVec 4) (root : BitVec 64) (vpn : Nat) (e3 : BitVec 64) (ep : Option Nat) : List (TlbEntry × Option Nat) :=
  let a := pteFrame e3 + 8 * ((vpn / 8192) % 8192)
  walkEcc s dies root vpn a 1 ++ (walkReads s dies a).flatMap fun x =>
    let ep := older ep x.2
    match x.1 with
    | none => [(noEntry root vpn, ep)]
    | some e2 =>
      if !pteOk e2 2 then [(noEntry root vpn, ep)]
      else if pteK e2 then walk1 s dies root vpn e2 ep
      else if pteFrame e2 % 536870912 != 0 then [(noEntry root vpn, ep)]
      else [({ noEntry root vpn with pte := e2, frame := pteFrame e2 + 65536 * (vpn % 8192), lg := 29 }, ep)]

/-- The physical address of a root's entry for a virtual page (R280, R283). -/
def rootEntry (root : BitVec 64) (vpn : Nat) : Nat := 65536 * (root.extractLsb' 16 36).toNat + 8 * ((vpn / 67108864) % 8192)

/-- R280: the walks of a virtual page from a root, with R281's runs, through the entries that stand in memory and through
those that stood there, each with the epoch until which it could be made; a fault gives an entry of zero. -/
def walk (s : State) (dies : BitVec 4) (root : BitVec 64) (vpn : Nat) : List (TlbEntry × Option Nat) :=
  let a := rootEntry root vpn
  walkEcc s dies root vpn a 1 ++ (walkReads s dies a).flatMap fun x =>
    match x.1 with
    | none => [(noEntry root vpn, x.2)]
    | some e3 => if pteOk e3 3 then walk2 s dies root vpn e3 x.2 else [(noEntry root vpn, x.2)]

/-- The HBM addresses of the entries that a walk of the page reads as the tables stand (R280, R281). -/
def walkAddrs (s : State) (dies : BitVec 4) (root : BitVec 64) (vpn : Nat) : List Nat :=
  let entry (a : Nat) : BitVec 64 := BitVec.ofNat 64 (s.peekN (hbmKey dies a) 8)
  let a3 := rootEntry root vpn
  let e3 := entry a3
  if !pteOk e3 3 then [a3]
  else
    let a2 := pteFrame e3 + 8 * ((vpn / 8192) % 8192)
    let e2 := entry a2
    if !pteOk e2 2 || !pteK e2 then [a3, a2]
    else
      let a1 := pteFrame e2 + 8 * (vpn % 8192)
      if pteOk (entry a1) 1 && pteCt (entry a1) then
        [a3, a2, a1] ++ (List.range 32).map fun i => pteFrame e2 + 8 * ((vpn % 8192) / 32 * 32 + i)
      else [a3, a2, a1]
/-- A walker's reads may reach not-live segments (R287). -/
def noteWalk (s : State) (p : Nat) (root : BitVec 64) (vpn : Nat) : State :=
  if s.notLive.isEmpty then s else noteDead s p (walkAddrs s (s.part p).dies root vpn)

/-- No TLBINV that covers the translation has completed since it could be made (R284, R350). -/
def mayHold (pt : Part) (c : TlbEntry × Option Nat) : Bool :=
  match c.2 with
  | none => true
  | some ep => pt.tlbAll ≤ ep && tget 0 pt.tlbRoots c.1.root ≤ ep
      && !pt.tlbPages.any fun x => ep < x.2 && x.1.2 == c.1.lg && x.1.1 ≤ c.1.vpn && c.1.vpn < x.1.1 + 2 ^ (c.1.lg - 16)

/-- One of several translations of a page: a free choice where they differ. -/
def pickEntry (s : State) (root : BitVec 64) (vpn : Nat) : List TlbEntry → State × TlbEntry
  | [] => (s, noEntry root vpn)
  | e :: r =>
    if r.all (· == e) then (s, e)
    else
      let (s, i) := s.choose (r.length + 1)
      (s, (e :: r).getD i e)
/-- The translation of a virtual page that an access uses: the one the tables hold now, or, until a TLBINV that covers it,
one that they have held (R284); where they differ, a free choice. -/
def xlate (s : State) (p : Nat) (root : BitVec 64) (vpn : Nat) : State × TlbEntry :=
  let pt := s.part p
  let s := noteWalk s p root vpn
  pickEntry s root vpn (((walk s pt.dies root vpn).filter (mayHold pt)).map (·.1))
/-- The translation that the tables hold now: the scheduler's walk is coherent and uses no TLB (R280, R375). -/
def xlateNow (s : State) (p : Nat) (root : BitVec 64) (vpn : Nat) : State × TlbEntry :=
  let pt := s.part p
  let s := noteWalk s p root vpn
  pickEntry s root vpn (((walk s pt.dies root vpn).filter (·.2.isNone)).map (·.1))

inductive Acc where
  | load | store | both | fetch
  deriving DecidableEq, Repr

/-- R282: the permissions of an access. -/
def permOk (e : BitVec 64) (sup : Bool) : Acc → Bool
  | .load => pteR e && (sup || pteU e)
  | .store => pteW e && (sup || pteU e)
  | .both => pteR e && pteW e && (sup || pteU e)
  | .fetch => pteX e && (sup || pteU e)

/-- The physical address is within what the tier holds: installed memory, a working saddlebag module, a module of
the domain, a host window (R273, R301, R313, R329). -/
def installed (s : State) (dies : BitVec 4) (e : BitVec 64) (pa : Nat) : Bool :=
  match pteTier e with
  | 0 => pa < hbmSize dies
  | 1 => pa < sadSize dies && s.md.portOk.getLsbD (sadPort dies pa)
  | 2 => s.md.members.contains (pteMod e)
  | _ => match s.md.windows.find? (fun w => w.n == pa / 1099511627776 % 4096) with
    | some w => pa % 1099511627776 < w.len
    | none => false

/-- Physical address of a virtual address through its page's translation. -/
def TlbEntry.pa (e : TlbEntry) (va : Nat) : Nat := e.frame + va % 65536
/-- The key of a byte on a local tier. -/
def TlbEntry.key (dies : BitVec 4) (e : TlbEntry) (va : Nat) : Nat :=
  if pteTier e.pte = 0 then hbmKey dies (e.pa va) else sadKey dies (e.pa va)
def TlbEntry.isLocal (e : TlbEntry) : Bool := pteTier e.pte < 2

/-- Why an access fails: tcause and tval. A walk that meets an uncorrectable error gives code 256, no tcause: a device
fault with detail 1 (R274). -/
abbrev AccFault := Nat × Nat
def eccCause : Nat := 256

/-- Check one byte (R244, R278 to R282): translation, then permission and existence. With `far`, what a page of another module or of
the host names is not looked at. -/
def checkByte (s : State) (p : Nat) (root : BitVec 64) (sup : Bool) (acc : Acc) (va : Nat) (far : Bool := false) :
    State × Except AccFault TlbEntry :=
  if 2 ^ 55 ≤ va then (s, .error (6, va))
  else
    let (s, e) := xlate s p root (va / 65536)
    if e.ecc then (s, .error (eccCause, va))
    else if !pteV e.pte then (s, .error (6, va))
    else if !permOk e.pte sup acc then (s, .error (7, va))
    else if !(far && !e.isLocal) && !installed s (s.part p).dies e.pte (e.pa va) then (s, .error (7, va))
    else (s, .ok e)

/-- Every byte of [va, last], within one page, exists: its first and last byte and the start of each 4 KiB of a saddlebag
port between them do (R301). -/
def wholeThere (s : State) (p : Nat) (e : TlbEntry) (va last : Nat) : Bool :=
  (va :: last :: ((List.range 16).map fun j => 4096 * (va / 4096 + 1 + j)).filter (· ≤ last)).all fun a =>
    installed s (s.part p).dies e.pte (e.pa a)

/-- Check the pages of a range, lowest first: the pages' translations, or the fault of the lowest failing byte. On
a host page every byte is checked against its window. `n` counts the pages still to check. -/
def checkPages (p : Nat) (root : BitVec 64) (sup : Bool) (acc : Acc) (hi : Nat) (far : Bool := false) :
    Nat → State → Nat → State × Except AccFault (List TlbEntry)
  | 0, s, _ => (s, .ok [])
  | n + 1, s, va =>
    match checkByte s p root sup acc va far with
    | (s, .error f) => (s, .error f)
    | (s, .ok e) =>
      let next := 65536 * (va / 65536 + 1)
      let last := min next hi - 1
      if !(far && !e.isLocal) && !wholeThere s p e va last then
        match (List.range (last - va)).find? (fun i => !installed s (s.part p).dies e.pte (e.pa (va + i))) with
        | some i => (s, .error (7, va + i))
        | none => (s, .error (7, last))
      else
        match checkPages p root sup acc hi far n s next with
        | (s, .error f) => (s, .error f)
        | (s, .ok r) => (s, .ok (e :: r))

/-- Check every byte of [lo, lo + n). -/
def checkRange (s : State) (p : Nat) (root : BitVec 64) (sup : Bool) (acc : Acc) (lo n : Nat) (far : Bool := false) :
    State × Except AccFault (List TlbEntry) :=
  if n = 0 then (s, .ok []) else checkPages p root sup acc (lo + n) far ((lo + n - 1) / 65536 - lo / 65536 + 1) s lo

/-- The page of an address among checked pages. -/
def pageOf (pgs : List TlbEntry) (va : Nat) : TlbEntry :=
  (pgs.find? fun e => e.vpn == va / 65536).getD { root := 0, vpn := 0, pte := 0, frame := 0, lg := 16 }

/-! ## Harts, partitions, launches -/

/-- The hart whose instruction `exec` executes. -/
def State.me (s : State) : Hart := s.hart s.cur
def State.setMe (s : State) (h : Hart) : State := s.setHart s.cur h
def State.myCore (s : State) : Core := s.core s.cur.l s.cur.k
/-- The partition of a launch. -/
def State.partOf (s : State) (h : HartId) : Nat := (s.launch h.l).part
/-- VLEN in bytes (R89). -/
def Launch.vlen (x : Launch) : Nat := 2 ^ x.rec_.vlen.toNat
def Launch.w (x : Launch) : Nat := x.rec_.width.toNat
def Launch.h (x : Launch) : Nat := x.rec_.height.toNat
def Launch.nh (x : Launch) : Nat := x.rec_.harts.toNat
def State.vlen (s : State) (h : HartId) : Nat := (s.launch h.l).vlen
/-- The harts of a core, and of a launch. -/
def State.coreHarts (s : State) (l k : Nat) : List HartId := (List.range (s.launch l).nh).map fun i => ⟨l, k, i⟩
/-- The mesh position of core k of launch l (R2, R84). -/
def State.meshPos (s : State) (l k : Nat) : Nat × Nat :=
  let x := s.launch l
  let o := meshOrigin (s.part x.part).dies
  (o.1 + x.ox + k % max x.w 1, o.2 + x.oy + k / max x.w 1)
/-- The compute die of core k of launch l (R2). -/
def State.dieOf (s : State) (l k : Nat) : Nat := let m := s.meshPos l k; coreDie m.1 m.2
def State.launchHarts (s : State) (l : Nat) : List HartId :=
  (List.range ((s.launch l).w * (s.launch l).h)).flatMap fun k => s.coreHarts l k

/-! ## Scalars and predicates (R121) -/

def Hart.s (h : Hart) (r : SReg) : Dbl := if r = 0 then 0 else h.x[r.toNat]'(r.isLt)
def Hart.setS (h : Hart) (r : SReg) (v : Dbl) : Hart :=
  if r = 0 then h else { h with x := h.x.set r.toNat v (r.isLt) }
def Hart.pr (h : Hart) (p : PReg) : Bool := p == 0 || h.p.getLsbD p.toNat
def Hart.setP (h : Hart) (p : PReg) (b : Bool) : Hart :=
  if p = 0 then h else { h with p := if b then h.p ||| (1#8 <<< p.toNat) else h.p &&& ~~~(1#8 <<< p.toNat) }
/-- R48: a guard of the A side. -/
def Hart.guard (h : Hart) : Guard → Bool
  | .always => true
  | .reg n r => (h.pr (r.extractLsb' 0 3)) != n
def Hart.guards (h : Hart) (g : Guards) : Bool := h.guard g.a && h.guard g.b

/-- Vector registers and masks. -/
def Hart.vr (h : Hart) (r : VReg) : VVal := h.v[r.toNat]'(r.isLt)
def Hart.mr (h : Hart) (m : MReg) : MVal := h.m.toList.getD m.toNat 0
/-- A write of a vector register raises vlh to the highest byte written rounded up to 64 (R122). -/
def Hart.setVr (h : Hart) (r : VReg) (v : VVal) (top : Nat) : Hart :=
  { h with v := h.v.set r.toNat v (r.isLt), vnew := h.vnew ||| (1#32 <<< r.toNat), vlh := BitVec.ofNat 64 (max h.vlh.toNat ((top + 63) / 64 * 64)) }
def Hart.setMr (h : Hart) (m : MReg) (v : MVal) : Hart := { h with m := h.m.setIfInBounds m.toNat v }

/-! ## Slots (R45) -/

def slotOrdinal (a : Nat) : Nat := 5 * (a / 64) + (a % 64) / 12
def slotAddr (n : Nat) : Nat := 64 * (n / 5) + 12 * (n % 5)
def isSlot (a : Nat) : Bool := a % 64 % 12 == 0 && a % 64 < 60
/-- The greatest slot address at or below a (R343). -/
def slotBelow (a : Nat) : Nat := a / 64 * 64 + min ((a % 64) / 12) 4 * 12
/-- The next slot address (R45). -/
def nextSlot (a : Nat) : Nat := slotAddr (slotOrdinal a + 1)

/-! ## Taking a trap and returning (R345, R348) -/

/-- The element bound of an A-side instruction that keeps an element index (R110, R344); 0 for one that has none. -/
def aBound (vl : Nat) : Instr → Nat
  | .vld _ | .vldff _ | .vldx _ | .vldsc _ | .vst _ | .vstx _ | .vstsc _ | .vlds _ | .vsts _ | .vldsx _ | .vstsx _
  | .vamo _ | .nbadd _ | .nbopt _ | .sfpool _ => vl
  | .qdrop x => x.n.toNat
  | .clred _ => 1
  | _ => 0

/-- R345, for either side: what is saved, the mode, and where the A side continues. `eix` and `bound` are the
element index and the bound of the trapping side, `aeix` and `abound` those of the A side when the X side trapped. -/
def Hart.takeTrap (h : Hart) (xside : Bool) (cause : Nat) (val : Dbl) (eix bound aeix abound : Nat) : Hart :=
  { h with
    tcause := BitVec.ofNat 8 cause, tside := xside, tval := val, tpc := BitVec.ofNat 64 (h.pc % 2 ^ 55),
    teix := BitVec.ofNat 14 eix, aeix := BitVec.ofNat 14 aeix, tpm := h.sup, txw := BitVec.ofNat 6 h.win.length,
    stopT := eix, boundT := bound, stopA := aeix, boundA := abound,
    nest := if h.sup then h.nest + 1 else 0, sup := true, pc := h.tvec.toNat, eix := 0, line := none, wait := none, pause := 0, answers := [], xstop := false }

/-- A trap of the A side (R345). -/
def trapA (s : State) (hid : HartId) (cause : Nat) (val : Dbl) (eix bound : Nat) : State :=
  s.updHart hid fun h => h.takeTrap false cause val eix bound 0 0

/-- Element i of w bytes of an entry, zero where it was not written. -/
def QEntry.elt (e : QEntry) (i w : Nat) : Nat := vget e.data (8 * w * i) (8 * w)
/-- The pusher wrote every byte of element i of w bytes (R119, log 9). -/
def QEntry.has (e : QEntry) (i w : Nat) : Bool := getBits e.written.toNat (i * w) w == 2 ^ w - 1
/-- Write bytes [lo, lo + n) of an entry's written map. -/
def markWritten (m : MVal) (lo n : Nat) : MVal := BitVec.ofNat _ (setBits m.toNat lo n (2 ^ n - 1))
def QEntry.put (e : QEntry) (i w x : Nat) : QEntry :=
  { e with data := vset e.data (8 * w * i) (8 * w) x, written := markWritten e.written (i * w) w }
/-- Deliver every element in flight. -/
def QEntry.landAll (e : QEntry) : QEntry :=
  { e.flight.foldl (fun e x => e.put x.1 e.width x.2.toNat) e with flight := [] }

/-- The complete ones among the entries whose claim was abandoned leave a queue (R348). -/
def dropDead (q : List QEntry) : List QEntry := q.filter fun e => !(e.dead && e.done)
/-- No instruction that has gone on holds the entry. -/
def QEntry.isOpen (e : QEntry) : Bool := !e.dead && e.feeds.isNone
/-- Change the first n open entries. -/
def markOpen (f : QEntry → QEntry) : Nat → List QEntry → List QEntry
  | 0, q => q
  | _, [] => []
  | n + 1, e :: t => if e.isOpen then f e :: markOpen f n t else e :: markOpen f (n + 1) t
def markDead : Nat → List QEntry → List QEntry := markOpen fun e => { e with dead := true }
/-- Index entries leave the queue with the last element of their load (R250). -/
def Hart.dropFed (h : Hart) : Hart :=
  let gone (e : QEntry) : Bool := e.feeds.any fun x => !(h.lq[x.1.toNat]'(x.1.isLt)).any fun l => l.slot == x.2 && !l.done
  { h with sq := h.sq.map fun q => q.filter fun e => !gone e }
/-- The first incomplete entry becomes complete with what it holds: the reserved lq entry of an abandoned load
(R119, R348, log 31). -/
def settleLast : List QEntry → List QEntry
  | [] => []
  | [e] => [{ e.landAll with issued := true, done := true }]
  | e :: t => e :: settleLast t

/-- Abandon the claims of an instruction that the handler has left (R348, R369). -/
def Hart.abandon (h : Hart) : Hart :=
  match h.claim with
  | none => h
  | some c =>
    let h := match c.lq with
      | none => h
      | some q => { h with lq := h.lq.set q.toNat (settleLast (h.lq[q.toNat]'(q.isLt))) (q.isLt) }
    { h with
      sq := (h.sq.set 0 (dropDead (markDead c.sq0 h.sq[0]))).set 1 (dropDead (markDead c.sq1 h.sq[1])),
      xq := h.xq.drop c.xq, claim := none, askips := [] }

/-- ERET's effect (R113, R348). The return from a trap that a handler took leaves what the instruction at the first trap's tpc holds
(log 16). -/
def Hart.eretTo (h : Hart) : Hart :=
  let inner := 0 < h.nest && h.tpm
  let h := match h.claim with
    | some c => if c.pc = h.tpc.toNat || inner then h else h.abandon
    | none => h
  let te := h.teix.toNat
  let win := if h.tside && h.stopT < te then
      match h.win with
      | e :: t => { e with skips := (h.stopT, te) :: e.skips } :: t
      | [] => []
    else h.win
  let eix := if h.tside then h.aeix.toNat else te
  let ask := if !h.tside then (h.stopT, te) else (h.stopA, h.aeix.toNat)
  { h with
    arrived := if inner || h.arrived.any (fun a => a.1 == h.tpc.toNat) then h.arrived else none,
    nest := if inner then h.nest - 1 else 0,
    sup := h.tpm, pc := h.tpc.toNat, eix := eix, line := none, win := win, wait := none, claim := if inner then h.claim else h.claim.map fun c => { c with first := eix },
    askips := if ask.1 < ask.2 && h.claim.isSome && !inner then ask :: h.askips else h.askips }

/-! ## An A-side instruction (R48, R104, R106) -/

/-- How an A-side instruction ends. -/
inductive AOut where
  /-- Its effect is made; the A side takes the next slot. -/
  | done (s : State)
  /-- Its effect is made; the A side continues at another slot address. -/
  | goto (s : State) (target : Nat)
  /-- It waits, having made the part of its effect that s holds. -/
  | wait (s : State) (w : Wait)
  /-- It traps with tcause and tval, at its element index with its element bound. -/
  | trap (s : State) (cause : Nat) (val : Dbl) (eix bound : Nat)
  /-- The state is complete as it stands: the hart or its launch is gone, or the mode has changed. -/
  | left (s : State)

/-- The A side takes the slot at `pc`. In user mode (`user`) the instruction counts (R106) and its claims, its skipped
elements and its arrival end; those of a trapped instruction outlast the instructions of its handler (R348, R369), as
the count of R120 does. -/
def Hart.retire (h : Hart) (pc : Nat) (user : Bool) : Hart :=
  let r : Hart := { h with pc := pc, eix := 0, wait := none, answers := [], line := if h.pc / 64 = pc / 64 then h.line else none }
  if user then { r with icount := h.icount + 1, claim := none, askips := [], blocked := 0, arrived := none } else r

/-- The state after an A-side instruction of the current hart has ended so. -/
def AOut.state : AOut → State
  | .done s => s.updHart s.cur fun h => h.retire (nextSlot h.pc) (!h.sup)
  | .goto s t => s.updHart s.cur fun h => { h.retire t (!h.sup) with line := none }
  | .wait s w =>
    { s.updHart s.cur fun h => { h with wait := some w, waitNo := if h.wait = some w then h.waitNo else s.waitNos } with
      waitNos := s.waitNos + 1 }
  | .trap s c v e b => trapA s s.cur c v e b
  | .left s => s

/-- Bits 95:32 of an instruction's word (R50, R56). -/
def tvalOf (i : Instr) : Dbl :=
  match encode i with
  | some (_, w) => w.extractLsb' 32 64
  | none => 0

/-- An A-side instruction of the current hart: with false guards it retires without effect (R48). -/
def aside (s : State) (g : Guards) (body : Hart → AOut) : Host.Outcome State Fault Refusal :=
  let h := s.me
  if h.phase != .running then .fault .noHart
  else if h.guards g then .next (close s (body h).state)
  else .next (close s (AOut.done s).state)

/-- An A-side instruction that names a queue: in supervisor mode it is illegal where its guards hold (R48, R346). -/
def asideQ (s : State) (i : Instr) (g : Guards) (body : Hart → AOut) : Host.Outcome State Fault Refusal :=
  aside s g fun h => if h.sup then .trap s 1 (tvalOf i) h.eix (aBound h.vl.toNat i) else body h

/-- A supervisor-only instruction: in user mode it takes the privilege trap whatever its guards (R55, R59). -/
def asideS (s : State) (i : Instr) (g : Guards) (body : Hart → AOut) : Host.Outcome State Fault Refusal :=
  let h := s.me
  if h.phase != .running then .fault .noHart
  else if h.sup then aside s g body
  else .next (close s (AOut.trap s 5 (tvalOf i) 0 0).state)

end Sys2Proof.Machine
end

