-- ==== Sys2Proof/Machine/Flags.lean ====
section
/-! DEFINITION. Number formats, exact values, RoundTo, the flags, and the hash functions (R60 to R81, R134, R163). -/

namespace Sys2Proof.Machine

open Sys2Proof

/-! ## Formats (R60, R62, R66, R67) -/

inductive FFmt where
  | e4m3 | e5m2 | fp16 | bf16 | fp32
  deriving DecidableEq, Repr

inductive Fmt where
  | int (w : Nat) (signed : Bool)
  | flt (f : FFmt)
  | bfp (m : Nat)
  | cb (b : Nat)
  deriving DecidableEq, Repr

/-- R60: the format a code names. -/
def fmtOf (c : Nat) : Option Fmt :=
  match c with
  | 0x00 => some (.int 8 true)
  | 0x01 => some (.int 8 false)
  | 0x02 => some (.int 16 true)
  | 0x03 => some (.int 32 true)
  | 0x04 => some (.int 64 true)
  | 0x08 => some (.flt .e4m3)
  | 0x09 => some (.flt .e5m2)
  | 0x0A => some (.flt .fp16)
  | 0x0B => some (.flt .bf16)
  | 0x0C => some (.flt .fp32)
  | 0x22 => some (.cb 2)
  | 0x24 => some (.cb 4)
  | 0x28 => some (.cb 8)
  | _ => if 0x12 ≤ c ∧ c ≤ 0x18 then some (.bfp (c - 0x10)) else none

/-- R62: exponent bits, trailing bits, bias, the exponent of the largest finite value, its trailing field. -/
def FFmt.ebits : FFmt → Nat
  | .e4m3 => 4 | .e5m2 => 5 | .fp16 => 5 | .bf16 => 8 | .fp32 => 8
def FFmt.tbits : FFmt → Nat
  | .e4m3 => 3 | .e5m2 => 2 | .fp16 => 10 | .bf16 => 7 | .fp32 => 23
def FFmt.bias : FFmt → Nat
  | .e4m3 => 7 | .e5m2 => 15 | .fp16 => 15 | .bf16 => 127 | .fp32 => 127
/-- The largest finite value, the infinity (the canonical NaN for E4M3, which has none) and the canonical NaN (R64). -/
def FFmt.maxBits : FFmt → Nat
  | .e4m3 => 0x7E | .e5m2 => 0x7B | .fp16 => 0x7BFF | .bf16 => 0x7F7F | .fp32 => 0x7F7FFFFF
def FFmt.nanBits : FFmt → Nat
  | .e4m3 => 0x7F | .e5m2 => 0x7E | .fp16 => 0x7E00 | .bf16 => 0x7FC0 | .fp32 => 0x7FC00000
def FFmt.infBits : FFmt → Nat
  | .e4m3 => 0x7F | .e5m2 => 0x7C | .fp16 => 0x7C00 | .bf16 => 0x7F80 | .fp32 => 0x7F800000
def FFmt.bits (f : FFmt) : Nat := 1 + f.ebits + f.tbits
def FFmt.hasInf (f : FFmt) : Bool := f != .e4m3
def FFmt.signBit (f : FFmt) (neg : Bool) : Nat := if neg then 2 ^ (f.ebits + f.tbits) else 0

def Fmt.bits : Fmt → Nat
  | .int w _ => w
  | .flt f => f.bits
  | .bfp m => m
  | .cb b => b

/-! ## Exact values -/

/-- An exact value: NaN, an infinity, or (−1)^neg × num ÷ den, zero with its sign. -/
inductive Ex where
  | nan
  | inf (neg : Bool)
  | fin (neg : Bool) (num den : Nat)
  deriving DecidableEq, Repr

def Ex.zero (neg : Bool) : Ex := .fin neg 0 1
def Ex.isNan : Ex → Bool
  | .nan => true
  | _ => false
def Ex.isZero : Ex → Bool
  | .fin _ 0 _ => true
  | _ => false
def Ex.neg : Ex → Ex
  | .nan => .nan
  | .inf s => .inf (!s)
  | .fin s n d => .fin (!s) n d
def Ex.abs : Ex → Ex
  | .nan => .nan
  | .inf _ => .inf false
  | .fin _ n d => .fin false n d
/-- m × 2^e. -/
def Ex.dyadic (neg : Bool) (m : Nat) (e : Int) : Ex :=
  if m = 0 then .fin neg 0 1 else if 0 ≤ e then .fin neg (m * 2 ^ e.toNat) 1 else .fin neg m (2 ^ (-e).toNat)
def Ex.ofInt (x : Int) : Ex := .fin (decide (x < 0)) x.natAbs 1

/-- R63: the value of a bit pattern. -/
def FFmt.value (f : FFmt) (b : Nat) : Ex :=
  let s := getBits b (f.ebits + f.tbits) 1 == 1
  let e := getBits b f.tbits f.ebits
  let t := getBits b 0 f.tbits
  let top := e == 2 ^ f.ebits - 1
  if top && f.hasInf then (if t = 0 then .inf s else .nan)
  else if top && t == 2 ^ f.tbits - 1 then .nan
  else if e = 0 then .dyadic s t (1 - (f.bias : Int) - f.tbits)
  else .dyadic s (2 ^ f.tbits + t) ((e : Int) - f.bias - f.tbits)

/-- The value of an element of an integer or floating format (R61, R63). -/
def Fmt.value (f : Fmt) (b : Nat) : Ex :=
  match f with
  | .int w true => .ofInt (sint w b)
  | .int w false => .fin false (b % 2 ^ w) 1
  | .flt f => f.value b
  | .bfp _ => .nan
  | .cb _ => .nan

/-- R66: mantissa M of m bits under scale byte X. -/
def bfpValue (m : Nat) (x b : Nat) : Ex :=
  if x = 0xFF then .nan
  else
    let v := sint m b
    .dyadic (decide (v < 0)) v.natAbs ((x : Int) - 127 - ((m : Int) - 1))

/-! ## Flags (R75) -/

/-- The flags an operation sets: NX 16, UF 8, OF 4, DZ 2, NV 1, and vsat. -/
structure Fl where
  f : BitVec 5
  sat : Bool
  deriving DecidableEq, Repr

def Fl.none : Fl := ⟨0, false⟩
def Fl.nx : Fl := ⟨16, false⟩
def Fl.dz : Fl := ⟨2, false⟩
def Fl.nv : Fl := ⟨1, false⟩
def Fl.vsat : Fl := ⟨0, true⟩
def Fl.or (a b : Fl) : Fl := ⟨a.f ||| b.f, a.sat || b.sat⟩
/-- A hart takes the flags of an element group (R76). -/
def Hart.flag (h : Hart) (x : Fl) : Hart := { h with fflags := h.fflags ||| x.f, vsat := h.vsat || x.sat }

/-! ## Hashes (R134, R163) -/

/-- XMix (R163). -/
def xmix (key x : BitVec 64) : BitVec 64 :=
  let z := (x ^^^ key) + 0x5C1E0B7A93D428F5#64
  let z := (z ^^^ (z >>> 32)) * 0xA24B6E19C7F30D2B#64
  let z := (z ^^^ (z >>> 29)) * 0x3D7E94A15B68CF47#64
  z ^^^ (z >>> 32)

/-- n bit steps of the reflected CRC32C. -/
def crcBits : Nat → BitVec 32 → BitVec 32
  | 0, c => c
  | n + 1, c => crcBits n (if c.getLsbD 0 then (c >>> 1) ^^^ 0x82F63B78#32 else c >>> 1)
/-- R134: feed n bytes of x, lowest first. -/
def crcStep : Nat → BitVec 32 → Nat → BitVec 32
  | 0, c, _ => c
  | n + 1, c, x => crcStep n (crcBits 8 (c ^^^ BitVec.ofNat 32 (x % 256))) (x / 256)

/-! ## Rounding (R71 to R74) -/

inductive RMode where
  | rne | rtz | up | down | stoch
  deriving DecidableEq, Repr

def RMode.of (n : Nat) : RMode :=
  match n with
  | 0 => .rne
  | 1 => .rtz
  | 2 => .up
  | 3 => .down
  | _ => .stoch

/-- How to round: the mode, SAT, and the draw r of R72. -/
structure Rnd where
  rm : RMode
  sat : Bool
  draw : Nat

/-- RNE with SAT taken as 0 (R79, R80). -/
def Rnd.plain : Rnd := ⟨.rne, false, 0⟩
/-- R72: the draw for destination index i. -/
def drawOf (seed icount : Dbl) (i : Nat) : Nat := (xmix (seed ^^^ icount) (BitVec.ofNat 64 i)).toNat % 2 ^ 32

/-- Choose on magnitudes: whether lo + rem ÷ den rounds up in magnitude (R71, R72), where 0 < rem < den. -/
def roundsUp (r : Rnd) (neg : Bool) (lo rem den : Nat) : Bool :=
  match r.rm with
  | .rne => if 2 * rem = den then lo % 2 == 1 else den < 2 * rem
  | .rtz => false
  | .up => !neg
  | .down => neg
  | .stoch =>
    if neg then !(r.draw < 2 ^ 32 * (den - rem) / den) else r.draw < 2 ^ 32 * rem / den

/-- Floor of log2 of num ÷ den, both positive. -/
def ilog (num den : Nat) : Int :=
  let e : Int := (num.log2 : Int) - den.log2
  let below := if 0 ≤ e then num < den * 2 ^ e.toNat else num * 2 ^ (-e).toNat < den
  if below then e - 1 else e

/-- num ÷ den in units of 2^q: the floor, the remainder and its divisor. -/
def scaled (num den : Nat) (q : Int) : Nat × Nat × Nat :=
  let n := if 0 ≤ q then num else num * 2 ^ (-q).toNat
  let d := if 0 ≤ q then den * 2 ^ q.toNat else den
  (n / d, n % d, d)

/-- R73. -/
def FFmt.overflow (f : FFmt) (neg : Bool) (r : Rnd) : Nat × Fl :=
  let big := if f.hasInf then f.signBit neg + f.infBits else f.nanBits
  let top := f.signBit neg + f.maxBits
  let fl : Fl := ⟨20, false⟩
  if r.sat then (top, ⟨20, true⟩)
  else match r.rm with
    | .rne | .stoch => (big, fl)
    | .rtz => (top, fl)
    | .up => (if neg then top else big, fl)
    | .down => (if neg then big else top, fl)

/-- R71: RoundTo into a floating format. A value of R71's grid beyond the greatest finite one overflows too (log 77). -/
def FFmt.round (f : FFmt) (x : Ex) (r : Rnd) : Nat × Fl :=
  match x with
  | .nan => (f.nanBits, .none)
  | .inf s =>
    if r.sat then (f.signBit s + f.maxBits, .vsat)
    else (if f.hasInf then f.signBit s + f.infBits else f.nanBits, .none)
  | .fin s num den =>
    if num = 0 then (f.signBit s, .none)
    else
      let e := ilog num den
      let emin : Int := 1 - f.bias
      let top : Int := if f.hasInf then (2 ^ f.ebits - 2 : Int) - f.bias else (2 ^ f.ebits - 1 : Int) - f.bias
      let q : Int := min (max e emin) top - f.tbits
      let (lo, rem, d) := scaled num den q
      let m := if rem = 0 then lo else if roundsUp r s lo rem d then lo + 1 else lo
      let fl : Fl := if rem = 0 then .none else if e < emin then ⟨24, false⟩ else .nx
      -- the pattern of magnitude m × 2^q, carrying into the next exponent where m has grown
      let bits := if m < 2 ^ f.tbits then m else ((q + f.tbits + f.bias).toNat - 1) * 2 ^ f.tbits + m
      if f.maxBits < bits then f.overflow s r
      else (f.signBit s + bits, fl)

/-- R74: the ends of an integer format. -/
def intLo (w : Nat) (signed : Bool) : Int := if signed then -(2 ^ (w - 1) : Int) else 0
def intHi (w : Nat) (signed : Bool) : Int := if signed then (2 ^ (w - 1) : Int) - 1 else (2 ^ w : Int) - 1

/-- R61, R74: clamp an exact integer into a w-bit format. -/
def clampTo (w : Nat) (signed : Bool) (x : Int) : Nat × Fl :=
  let c := min (max x (intLo w signed)) (intHi w signed)
  (wrap w c, if c = x then .none else .vsat)

/-- The integer that rounding gives (R74), and whether it is inexact. -/
def roundInt (x : Int × Nat × Nat) (r : Rnd) : Int × Bool :=
  let (sgn, num, den) := x
  let lo := num / den
  let rem := num % den
  let m := if rem = 0 then lo else if roundsUp r (sgn < 0) lo rem den then lo + 1 else lo
  (if sgn < 0 then -(m : Int) else m, rem ≠ 0)

/-- R74: RoundTo into an integer format. -/
def roundToInt (w : Nat) (signed : Bool) (x : Ex) (r : Rnd) : Nat × Fl :=
  let out (neg : Bool) : Nat × Fl :=
    if r.sat then (wrap w (if neg then intLo w signed else intHi w signed), .vsat) else (wrap w (intLo w signed), .nv)
  match x with
  | .nan => (if r.sat then 0 else wrap w (intLo w signed), .nv)
  | .inf s => out s
  | .fin s num den =>
    let (n, inexact) := roundInt (if s then -1 else 1, num, den) r
    if intLo w signed ≤ n ∧ n ≤ intHi w signed then (wrap w n, if inexact then .nx else .none)
    else out s

/-- RoundTo (R71, R74). A block or codebook format is no destination of it. -/
def Fmt.round (f : Fmt) (x : Ex) (r : Rnd) : Nat × Fl :=
  match f with
  | .int w sg => roundToInt w sg x r
  | .flt f => f.round x r
  | .bfp _ => (0, .none)
  | .cb _ => (0, .none)

/-- R74: integer to integer. -/
def intToInt (w : Nat) (signed : Bool) (x : Int) (sat : Bool) : Nat × Fl :=
  if sat then clampTo w signed x else (wrap w x, .none)

/-! ## Exact arithmetic (R71, R75, R77) -/

/-- The sign of an exact zero sum of opposite signs. -/
def zeroSign (r : Rnd) : Bool := r.rm == .down

def Ex.add (r : Rnd) (a b : Ex) : Ex × Fl :=
  match a, b with
  | .nan, _ | _, .nan => (.nan, .none)
  | .inf s, .inf t => if s = t then (.inf s, .none) else (.nan, .nv)
  | .inf s, _ => (.inf s, .none)
  | _, .inf t => (.inf t, .none)
  | .fin s n d, .fin t m e =>
    if n = 0 ∧ m = 0 then (.zero (if s = t then s else zeroSign r), .none)
    else
      let sg (s : Bool) (x : Nat) : Int := if s then -(x : Int) else x
      let x : Int := sg s (n * e) + sg t (m * d)
      (if x = 0 then .zero (zeroSign r) else .fin (decide (x < 0)) x.natAbs (d * e), .none)

def Ex.mul (a b : Ex) : Ex × Fl :=
  match a, b with
  | .nan, _ | _, .nan => (.nan, .none)
  | .inf s, .inf t => (.inf (s != t), .none)
  | .inf s, .fin t m _ => if m = 0 then (.nan, .nv) else (.inf (s != t), .none)
  | .fin s n _, .inf t => if n = 0 then (.nan, .nv) else (.inf (s != t), .none)
  | .fin s n d, .fin t m e => (.fin (s != t) (n * m) (d * e), .none)

/-- R77. -/
def Ex.div (a b : Ex) : Ex × Fl :=
  match a, b with
  | .nan, _ | _, .nan => (.nan, .none)
  | .inf _, .inf _ => (.nan, .nv)
  | .inf s, .fin t _ _ => (.inf (s != t), .none)
  | .fin s _ _, .inf t => (.zero (s != t), .none)
  | .fin s n d, .fin t m e =>
    if m = 0 then (if n = 0 then (.nan, .nv) else (.inf (s != t), .dz))
    else (.fin (s != t) (n * e) (d * m), .none)

/-- R168's VFMA: a × b + c exactly; 0 × ∞ is invalid even where c is NaN. -/
def Ex.fma (r : Rnd) (a b c : Ex) : Ex × Fl :=
  let (p, f) := a.mul b
  let (x, g) := p.add r c
  (x, f.or g)

/-- The order of two values that are not NaN, −0 equal to +0. -/
def Ex.cmp (a b : Ex) : Ordering :=
  let key : Ex → Int × Nat
    | .nan => (0, 1)
    | .inf s => (if s then -1 else 1, 0)
    | .fin s n d => (if s then -(n : Int) else n, d)
  let (x, d) := key a
  let (y, e) := key b
  compare (x * e) (y * d)

def Ex.sign : Ex → Bool
  | .nan => false
  | .inf s => s
  | .fin s _ _ => s

/-- The order used by minimum and maximum: infinities outermost, −0 below +0 (R81). -/
def Ex.lt (a b : Ex) : Bool :=
  match a, b with
  | .inf s, .inf t => s && !t
  | .inf s, _ => s
  | _, .inf t => !t
  | _, _ => match a.cmp b with
    | .lt => true
    | .eq => a.isZero && a.sign && !b.sign
    | .gt => false
/-- The numeric order: −0 equals +0 (R170). -/
def Ex.ltNum (a b : Ex) : Bool :=
  match a, b with
  | .inf s, .inf t => s && !t
  | .inf s, _ => s
  | _, .inf t => !t
  | _, _ => a.cmp b == .lt

/-- Minimum and maximum (R81, R168). -/
def Ex.min (a b : Ex) : Ex := if a.isNan || b.isNan then .nan else if b.lt a then b else a
def Ex.max (a b : Ex) : Ex := if a.isNan || b.isNan then .nan else if a.lt b then b else a

/-! ## Roots and functions (R78, R168)

An irrational value is given by its floor Y in units of 2^−K with a half unit added, (2Y + 1) ÷ 2^(K+1): with K at
least 100 bits below the value's leading bit it rounds as the exact value does, in every mode and draw, because no
point that rounding looks at lies strictly inside the unit. -/

/-- The integer square root by bits: y with y² ≤ n, deciding bits k−1 to 0. -/
def isqrtBits (n : Nat) : Nat → Nat → Nat
  | 0, y => y
  | k + 1, y => isqrtBits n k (if (y + 2 ^ k) * (y + 2 ^ k) ≤ n then y + 2 ^ k else y)
def isqrt (n : Nat) : Nat := isqrtBits n (n.log2 / 2 + 1) 0

/-- The value Y × 2^−k, or a half unit above it where it is not exact. -/
def sticky (neg : Bool) (y : Nat) (k : Int) (exact : Bool) : Ex :=
  if exact then .dyadic neg y (-k) else .dyadic neg (2 * y + 1) (-(k + 1))

/-- √(n ÷ d), both positive. -/
def sqrtEx (n d : Nat) : Ex :=
  let k : Int := 120 - ilog n d / 2
  let n' := if 0 ≤ k then n * 2 ^ (2 * k).toNat else n
  let d' := if 0 ≤ k then d else d * 2 ^ (-(2 * k)).toNat
  let y := isqrt (n' / d')
  sticky false y k (y * y * d' == n')

def Ex.sqrt (a : Ex) : Ex × Fl :=
  match a with
  | .nan => (.nan, .none)
  | .inf s => if s then (.nan, .nv) else (.inf false, .none)
  | .fin s n d => if n = 0 then (.zero s, .none) else if s then (.nan, .nv) else (sqrtEx n d, .none)

def Ex.rsqrt (a : Ex) : Ex × Fl :=
  match a with
  | .nan => (.nan, .none)
  | .inf s => if s then (.nan, .nv) else (.zero false, .none)
  | .fin s n d => if n = 0 then (.inf s, .dz) else if s then (.nan, .nv) else (sqrtEx d n, .none)

def Ex.rcp (a : Ex) : Ex × Fl :=
  match a with
  | .nan => (.nan, .none)
  | .inf s => (.zero s, .none)
  | .fin s n d => if n = 0 then (.inf s, .dz) else (.fin s d n, .none)

/-- Bits of the fixed-point series. -/
def fxP : Nat := 900
def fxOne : Nat := 2 ^ fxP
/-- Σ x^(2j+1) ÷ (2j+1), x < 1 in fixed point: atanh x. `t` is the current power, `x2` the square of x. -/
def atanhFx : Nat → Nat → Nat → Nat → Nat
  | 0, _, _, _ => 0
  | n + 1, j, t, x2 => t / (2 * j + 1) + atanhFx n (j + 1) (t * x2 / fxOne) x2
def atanhOf (x : Nat) : Nat := atanhFx 320 0 x (x * x / fxOne)
/-- ln 2 = 2 atanh(1 ÷ 3). -/
def ln2Fx : Nat := 2 * atanhOf (fxOne / 3)
/-- Σ x^j ÷ j!, x < 1. -/
def expFx : Nat → Nat → Nat → Nat → Nat
  | 0, _, _, _ => 0
  | n + 1, j, t, x => t + expFx n (j + 1) (t * x / fxOne / (j + 1)) x
def expOf (x : Nat) : Nat := expFx 200 0 fxOne x
/-- Σ (−1)^j x^(2j+1) ÷ (2j+1): arctan of 1 ÷ m. -/
def atanFx : Nat → Nat → Nat → Nat → Int
  | 0, _, _, _ => 0
  | n + 1, j, t, m2 => ((t / (2 * j + 1) : Nat) : Int) - atanFx n (j + 1) (t / m2) m2
/-- π by Machin's formula. -/
def piFx : Nat := (16 * atanFx 210 0 (fxOne / 5) 25 - 4 * atanFx 70 0 (fxOne / 239) 57121).toNat
/-- Σ 2^j x^(2j+1) ÷ (1·3·…·(2j+1)): erf x = 2 ÷ √π × e^(−x²) × this. -/
def erfFx : Nat → Nat → Nat → Nat → Nat
  | 0, _, _, _ => 0
  | n + 1, j, t, x2 => t + erfFx n (j + 1) (t * 2 * x2 / fxOne / (2 * j + 3)) x2

/-- e^(−x) for x ≥ 0 in fixed point. -/
def expNeg (x : Nat) : Nat :=
  let n := (x + ln2Fx - 1) / ln2Fx
  expOf (n * ln2Fx - x) / 2 ^ n

/-- The value v × 2^(e − fxP), not exact. -/
def fxEx (neg : Bool) (v : Nat) (e : Int) : Ex :=
  let cut := v.log2 - 160
  sticky neg (v / 2 ^ cut) ((fxP : Int) - cut - e) false

/-- num ÷ den in fixed point. -/
def toFx (num den : Nat) : Nat := num * fxOne / den

/-- 2^x (R78). Beyond ±400 the result rounds as 2^±400 does into every format. -/
def Ex.exp2 (a : Ex) : Ex :=
  match a with
  | .nan => .nan
  | .inf s => if s then .zero false else .inf false
  | .fin s n d =>
    if 400 * d ≤ n then .dyadic false 1 (if s then -400 else 400)
    else
      let fl : Int := if s then -((n + d - 1) / d : Nat) else (n / d : Nat)
      let fr : Nat := if s then (d - n % d) % d else n % d
      if fr = 0 then .dyadic false 1 fl
      else fxEx false (expOf (toFx fr d * ln2Fx / fxOne)) fl

/-- log2 x (R78). -/
def Ex.log2 (a : Ex) : Ex × Fl :=
  match a with
  | .nan => (.nan, .none)
  | .inf s => if s then (.nan, .nv) else (.inf false, .none)
  | .fin s n d =>
    if n = 0 then (.inf true, .dz)
    else if s then (.nan, .nv)
    else
      let e := ilog n d
      let n' := if 0 ≤ e then n else n * 2 ^ (-e).toNat
      let d' := if 0 ≤ e then d * 2 ^ e.toNat else d
      if n' = d' then (.ofInt e, .none)
      else
        let f := 2 * atanhOf (toFx (n' - d') (n' + d')) * fxOne / ln2Fx
        let v : Int := e * (fxOne : Int) + f
        (fxEx (decide (v < 0)) v.natAbs 0, .none)

/-- tanh x (R78). From 64 on the result rounds as 1 − 2^−150 does. -/
def Ex.tanh (a : Ex) : Ex :=
  match a with
  | .nan => .nan
  | .inf s => .fin s 1 1
  | .fin s n d =>
    if n = 0 then .zero s
    else if 64 * d ≤ n then .fin s (2 ^ 150 - 1) (2 ^ 150)
    else
      let x := expNeg (toFx (2 * n) d)
      fxEx s ((fxOne - x) * fxOne / (fxOne + x)) 0

/-- erf x (R78). From 10 on the result rounds as 1 − 2^−140 does. -/
def Ex.erf (a : Ex) : Ex :=
  match a with
  | .nan => .nan
  | .inf s => .fin s 1 1
  | .fin s n d =>
    if n = 0 then .zero s
    else if 10 * d ≤ n then .fin s (2 ^ 140 - 1) (2 ^ 140)
    else
      let x := toFx n d
      let x2 := x * x / fxOne
      let sum := erfFx 1000 0 x x2
      let v := 2 * (sum * expNeg x2 / fxOne) * fxOne / isqrt (piFx * fxOne)
      fxEx s v 0

/-! ## FP32 steps (R79, R82) -/

def f32 (b : Nat) : Ex := FFmt.fp32.value b
def f32Round (x : Ex × Fl) : Nat × Fl :=
  let (b, f) := FFmt.fp32.round x.1 .plain
  (b, x.2.or f)
/-- One FP32 operation, rounded once to nearest even, SAT taken as 0. -/
def f32Add (a b : Nat) : Nat × Fl := f32Round ((f32 a).add .plain (f32 b))
def f32Mul (a b : Nat) : Nat × Fl := f32Round ((f32 a).mul (f32 b))
def f32Div (a b : Nat) : Nat × Fl := f32Round ((f32 a).div (f32 b))
def f32Sqrt (a : Nat) : Nat × Fl := f32Round (f32 a).sqrt
def f32Neg (a : Nat) : Nat := a % 2 ^ 32 ^^^ 2 ^ 31
/-- A BF16 pattern rounded from an FP32 one. -/
def toBf16 (b : Nat) : Nat := (FFmt.bf16.round (f32 b) .plain).1
def ofBf16 (b : Nat) : Nat := 65536 * (b % 65536)

end Sys2Proof.Machine
end

