-- ==== Sys2Proof/Machine/Operands.lean ====
section
/-! DEFINITION. Operand forms: element addresses, memory accesses of a hart, queue operands, captured values. -/

namespace Sys2Proof.Machine

open Sys2Proof

/-! ## Immediates and addresses -/

/-- A third operand sign-extended from IMM, or an extension's 64 bits (R53, R54). -/
def immS : Imm → Dbl
  | .imm i => i.signExtend 64
  | .ext v => v
/-- A third operand zero-extended from IMM, or an extension's 64 bits (R131). -/
def immU : Imm → Dbl
  | .imm i => i.zeroExtend 64
  | .ext v => v

/-- sB + off modulo 2^64 (R244, R245). -/
def effAddr {w : Nat} (h : Hart) (b : SReg) (off : BitVec w) : Nat := (h.s b + off.signExtend 64).toNat

/-- R188: the address of element i of a vector or scratchpad access, before it is taken modulo 2^64 (a scratchpad
offset is a signed number). `p` is the pitch where OP3 names a register, `x` the index of an indexed form. -/
inductive VForm where
  | unit
  | pitch (col : Bool) (p : Int)
  | indexed (x : Nat → Nat)

def elemOff (f : VForm) (w rows cols i : Nat) : Int :=
  match f with
  | .unit => (i * w : Nat)
  | .pitch false p => ((i / cols : Nat) : Int) * p + ((i % cols) * w : Nat)
  | .pitch true p => ((i % rows : Nat) : Int) * p + ((i / rows) * w : Nat)
  | .indexed x => ((x i) * w : Nat)

/-- ROWS and COLS of shp (R123). -/
def shpRows (shp : Dbl) : Nat := (shp.extractLsb' 0 16).toNat
def shpCols (shp : Dbl) : Nat := (shp.extractLsb' 16 16).toNat

/-- R189: the operand check of vector and scratchpad accesses, true where it fails. -/
def formBad (vl w vlen rows cols : Nat) (col twoD indexed : Bool) : Bool :=
  (col && !twoD && !indexed) || (twoD && (rows == 0 || cols == 0)) || (twoD && rows * cols < vl)
  || vlen < vl * w || (indexed && vlen < vl * 4)

/-! ## Queues (R118, R119, R369) -/

/-- The queue entries of an X-to-A vector queue that no earlier instruction has claimed. -/
def sqOpen (h : Hart) (q : SQ) : List QEntry := (h.sq[q.toNat]'(q.isLt)).filter (·.isOpen)
/-- The operand codes of the queues (R49), for tval of R120. -/
def lqCode (q : LQ) : Nat := 0x60 + q.toNat
def sqCode (q : SQ) : Nat := 0x64 + q.toNat
def xqCode : Nat := 0x66
/-- Remove the first n unclaimed entries. -/
def popOpen : Nat → List QEntry → List QEntry
  | 0, q => q
  | _, [] => []
  | n + 1, e :: t => if e.isOpen then popOpen n t else e :: popOpen (n + 1) t
def Hart.popSq (h : Hart) (q : SQ) (n : Nat) : Hart :=
  { h with sq := h.sq.set q.toNat (popOpen n (h.sq[q.toNat]'(q.isLt))) (q.isLt) }
/-- An entry is complete once its pusher has made its last request and every element has arrived (R251). -/
def QEntry.settle (e : QEntry) : QEntry := { e with done := e.issued && e.flight.isEmpty && e.pool.isNone }

def mapLast {α : Type} (f : α → α) : List α → List α
  | [] => []
  | [a] => [f a]
  | a :: b :: t => a :: mapLast f (b :: t)
/-- Change the entry an A-side load has reserved, the last of its queue. -/
def Hart.updLq (h : Hart) (q : LQ) (f : QEntry → QEntry) : Hart :=
  { h with lq := h.lq.set q.toNat (mapLast f (h.lq[q.toNat]'(q.isLt))) (q.isLt) }
/-- A new entry takes the next of its queue's four slots (R118, R184). -/
def Hart.pushLq (h : Hart) (q : LQ) (e : QEntry) : Hart :=
  let n := h.lqTail[q.toNat]'(q.isLt)
  { h with lq := h.lq.set q.toNat (h.lq[q.toNat]'(q.isLt) ++ [{ e with slot := n }]) (q.isLt),
           lqTail := h.lqTail.set q.toNat (n + 1) (q.isLt) }
def Hart.pushSq (h : Hart) (q : SQ) (e : QEntry) : Hart :=
  let n := h.sqTail[q.toNat]'(q.isLt)
  { h with sq := h.sq.set q.toNat (h.sq[q.toNat]'(q.isLt) ++ [{ e with slot := n }]) (q.isLt),
           sqTail := h.sqTail.set q.toNat (n + 1) (q.isLt) }
/-- The slot of the register region that an entry of lq q, or of sq q, occupies (R184). -/
def lqSlot (q : LQ) (e : QEntry) : Nat := 32 + 4 * q.toNat + e.slot.toNat
def sqSlot (q : SQ) (e : QEntry) : Nat := 48 + 4 * q.toNat + e.slot.toNat
/-- Keys of bytes [lo, hi) of a slot of the hart's register region (R184). -/
def slotKeys (s : State) (hid : HartId) (slot lo hi : Nat) : List Nat :=
  (List.range (hi - lo)).map fun j => poolKey hid.l hid.k ((hid.h * 56 + slot) * s.vlen hid + lo + j)
def lqFull (h : Hart) (q : LQ) : Bool := 4 ≤ (h.lq[q.toNat]'(q.isLt)).length

/-- What an A-side instruction claims of the queues: an lq entry to push, entries to pop (R119, R369). -/
structure Takes where
  lq : Option LQ := none
  sq0 : Nat := 0
  sq1 : Nat := 0

def Takes.sq (t : Takes) (q : SQ) (n : Nat) : Takes := if q = 0 then { t with sq0 := t.sq0 + n } else { t with sq1 := t.sq1 + n }

/-- Claim the queue entries of the instruction at the hart's position (R369): every entry to pop must be complete, and the
lq entry is reserved, waiting while the queue is full; of several queues that it waits for, sq0 is told before sq1 and sq before lq
(log 70). An instruction that already holds its claim keeps it. -/
def claimQueues (h : Hart) (t : Takes) (width : Nat) : Except Wait Hart :=
  let notReady (q : SQ) (n : Nat) : Bool := !((sqOpen h q).length ≥ n && ((sqOpen h q).take n).all (·.done))
  let claimed (h : Hart) : Hart := { h with claim := some ⟨h.pc, h.eix, t.lq, t.sq0, t.sq1, 0, false⟩ }
  if notReady 0 t.sq0 then .error (.queue 0x64)
  else if notReady 1 t.sq1 then .error (.queue 0x65)
  else
    match t.lq with
    | none => .ok (claimed h)
    | some q =>
      if h.claim.any (·.lq.isSome) then .ok h
      else if lqFull h q then .error (.queue (lqCode q))
      else .ok (claimed (h.pushLq q { width := width }))

/-- The first n open entries of a queue stay with the load entry that takes its elements. -/
def Hart.feedSq (h : Hart) (q : SQ) (n : Nat) (l : BitVec 2 × BitVec 2) : Hart :=
  { h with sq := h.sq.set q.toNat (markOpen (fun e => { e with feeds := some l }) n (h.sq[q.toNat]'(q.isLt))) (q.isLt) }
/-- Pop what was claimed and close the reserved entry, once the A side goes on (R119, R190). The index entry of a load whose elements
have not all arrived is popped with the last of them (R250). -/
def Hart.finishQueues (h : Hart) (t : Takes) : Hart :=
  match t.lq with
  | none => (h.popSq 0 t.sq0).popSq 1 t.sq1
  | some q =>
    let e := (h.lq[q.toNat]'(q.isLt)).getLastD {}
    let h := h.updLq q fun e => { e with issued := true }.settle
    if e.flight.isEmpty then (h.popSq 0 t.sq0).popSq 1 t.sq1
    else (h.feedSq 0 t.sq0 (q, e.slot)).feedSq 1 t.sq1 (q, e.slot)

/-! ## What holds an access up -/

/-- An interlock entry of the hart overlaps the range (R263). -/
def interlocked (c : Core) (hid : Nat) (pool : Bool) (lo hi : Nat) : Bool :=
  c.engines.any fun e => e.hid == hid && e.ivl.any fun r => r.pool == pool && r.lo < hi && lo < r.hi

def sameCore (a b : HartId) : Bool := a.l == b.l && a.k == b.k
/-- The lease of another hart that holds up an access to a row line: any access from another core, a write from
the same core (R238). -/
def leased (s : State) (me : HartId) (write : Bool) (line : Nat) : Bool :=
  s.harts.any fun (id, h) => id != me && (write || !sameCore id me)
    && h.leases.any fun x => x.pline == line && s.cycle < x.until_
/-- A lease of another core on a row line. -/
def leasedFar (s : State) (me : HartId) (line : Nat) : Bool :=
  s.harts.any fun (id, h) => !sameCore id me && h.leases.any fun x => x.pline == line && s.cycle < x.until_
/-- A row line that another core leases, and that a column line which crosses one of these also crosses. -/
def crossFar (s : State) (me : HartId) (lines : List Nat) : Option Nat :=
  s.harts.findSome? fun (id, h) =>
    if sameCore id me then none else (h.leases.find? fun x => s.cycle < x.until_ && lines.any x.cross.contains).map (·.pline)
/-- The wait is for a lease on the line. -/
def Wait.forLine (line : Nat) : Wait → Bool
  | .lease l => l == line
  | .leaseGrant l => l == line
  | _ => false
/-- The hart waits for the line, and another that waits for it arrived before (R238). -/
def behind (s : State) (me : HartId) (line : Nat) : Bool :=
  (s.hart me).wait.any (Wait.forLine line) && s.harts.any fun (id, h) =>
    id != me && h.phase == .running && h.wait.any (Wait.forLine line) && h.waitNo < (s.hart me).waitNo
/-- The leased line that the hart has waited for, where another that waits for it arrived before (R238). -/
def arrivedBefore (s : State) (me : HartId) : Option Nat :=
  match (s.hart me).wait with
  | some (.lease l) | some (.leaseGrant l) => if behind s me l then some l else none
  | _ => none

/-- The row lines, by their first key div 64, that a column line which crosses the row line of va also crosses: the lines of
16 rows at the same 64 bytes of an orientable mapping (R230). -/
def crossLines (dies : BitVec 4) (e : TlbEntry) (va : Nat) : List Nat :=
  if !pteOri e.pte then []
  else
    let p := 2 ^ (ptePcode e.pte + 6)
    let m := va % 2 ^ e.lg
    let first := m / p / 16 * 16
    if 2 ^ e.lg < (first + 16) * p then []
    else (List.range 16).map fun i =>
      let pa := e.pa va - m + (first + i) * p + m % p / 64 * 64
      (if pteTier e.pte = 0 then hbmKey dies pa else sadKey dies pa) / 64

/-- A lease, of any hart, on one of these lines: what a home directory recalls or writes back waits for it (R238, R294, R308). -/
def linesLeased (s : State) (l : List Nat) : Bool :=
  s.harts.any fun x => x.2.leases.any fun y => s.cycle < y.until_ && l.contains y.pline

/-! ## Scopes (R331) -/

/-- A scope's place in the order of R331. -/
def scopeRank : Scope → Nat
  | .hart => 0
  | .core => 1
  | .die => 2
  | .package => 3
  | .domain => 4
/-- Scope sc of hart a contains hart b (R331). -/
def scopeHas (s : State) (sc : Nat) (a b : HartId) : Bool :=
  match sc with
  | 0 => a == b
  | 1 => sameCore a b
  | 2 => s.dieOf a.l a.k == s.dieOf b.l b.k
  | _ => true

/-! ## Accesses to local memory -/

/-- How an access to memory ends. -/
inductive Got (α : Type) where
  | ok (s : State) (v : α)
  | wait (s : State) (w : Wait)
  /-- A device fault with this detail code (R354, R372). -/
  | dfault (s : State) (detail : Nat)

/-- The keys of the bytes [va, va + n) through checked pages. -/
def keysOf (s : State) (p : Nat) (pgs : List TlbEntry) (va n : Nat) : List Nat :=
  (List.range n).map fun i => (pageOf pgs (va + i)).key (s.part p).dies (va + i)

/-- A unit of the row line of a key is bad, in a memory or in an L2 slice: a line fill would need it (R372). -/
def badLine (s : State) (ks : List Nat) : Bool := (s.bad ++ s.badL2).any fun u => ks.any fun k => u / 64 == k / 64
/-- A read at these keys, each through a cacheable mapping or not, needs a unit with an uncorrectable error (R372). -/
def needsAny (s : State) (l : List (Bool × Nat)) : State × Bool :=
  if memBad s ((l.filter (!·.1)).map (·.2)) then (s, true) else needsBad s true ((l.filter (·.1)).map (·.2))
/-- The core's cache region holds a copy of the row line of a key with a bad unit there (R362). -/
def hasL1 (s : State) (hid : HartId) (ks : List Nat) : Bool :=
  s.badL1.any fun x => x.1 == (hid.l, hid.k) && ks.any fun k => x.2 / 64 == k / 64
/-- The copy of a key in the core's cache region lies in a bad unit. -/
def l1Bad (s : State) (hid : HartId) (ks : List Nat) : Bool :=
  s.badL1.any fun x => x.1 == (hid.l, hid.k) && ks.any fun k => x.2 == k / 8 * 8
/-- The cache region of another core may hold a dirty copy of the row line of a key with a bad unit, which it would have to give up. -/
def farL1 (s : State) (hid : HartId) (ks : List Nat) : Bool :=
  s.badL1.any fun x => x.1 != (hid.l, hid.k) && ks.any (fun k => x.2 / 64 == k / 64) && mayDirty s x.2 (· == x.1.1)
/-- No cache region but the core's keeps its copy of these row lines (R233). -/
def dropFarL1 (s : State) (hid : HartId) (ks : List Nat) : State :=
  if s.badL1.isEmpty then s
  else { s with badL1 := s.badL1.filter fun x => x.1 == (hid.l, hid.k) || !ks.any fun k => x.2 / 64 == k / 64 }
/-- An access of a core to bytes of a cacheable page that its cache region may hold: a bad unit of the region's own copy is read; any
other is needed only where the line is filled, or taken from another core, a free choice (R372). `own`: the bytes that it reads. -/
def fillBad (s : State) (hid : HartId) (ks own : List Nat) : State × Bool :=
  if l1Bad s hid own then (s, true)
  else if hasL1 s hid ks then (s, false)
  else if badLine s ks || farL1 s hid ks then
    let (s, x) := s.choose 2
    (s, x == 1)
  else (s, false)

/-- The segment of HBM a page's byte lies in (R287). -/
def segOf (e : TlbEntry) (va : Nat) : Nat := e.pa va / 2097152

/-- The byte at a key as it stood in an epoch: the first value there that stood until then or longer, or the present one (R340). -/
def State.byteAt (s : State) (ep k : Nat) : Byte :=
  match ((tget [] s.old (k / 8 * 8)).filter fun x => ep ≤ x.1).getLast? with
  | some x => x.2.extractLsb' (8 * (k % 8)) 8
  | none => s.peek k
/-- The epochs that ended with a change in the double words of these keys: the value at these keys is one of those that stood in them,
or the present one. -/
def heldEpochs (s : State) (ks : List Nat) : List Nat :=
  ((ks.map (· / 8 * 8)).eraseDups.flatMap fun d => (tget [] s.old d).map (·.1)).eraseDups
/-- One of the numbers that have stood at these keys: the present one, or the one of one of these epochs; never a mixture of two (R333,
R340). With it, the epoch in which it stood. -/
def heldIn (s : State) (ks : List Nat) (eps : List Nat) : State × Nat × Nat :=
  let at_ (ep : Nat) : Nat := ofBytes (ks.map (s.byteAt ep))
  if eps.isEmpty then (s, ofBytes (ks.map s.peek), s.epoch)
  else
    let (s, i) := s.choose (eps.length + 1)
    match i with
    | 0 => (s, ofBytes (ks.map s.peek), s.epoch)
    | i + 1 => (s, at_ (eps.getD i 0), eps.getD i 0)
/-- One of the numbers that these keys have held. -/
def heldElt (s : State) (ks : List Nat) : State × Nat :=
  let r := heldIn s ks (heldEpochs s ks)
  (r.1, r.2.1)
/-- A hart has read at these keys what stood there in an epoch (R341). Where nothing else has stood there yet, nothing need be kept. -/
def observe (s : State) (hid : HartId) (ep : Nat) (ks : List Nat) : State :=
  { s with seen := ks.foldl (fun t k =>
      if (tget [] s.old (k / 8 * 8)).isEmpty || t.any (fun x => x.1 == hid && x.2.1 == k && ep ≤ x.2.2.1) then t
      else (hid, k, ep, false) :: t) s.seen }
/-- The epoch before which nothing that has stood at these keys is read by a hart again: a resumed hart observes nothing older than it
had observed before its context was saved (R341). -/
def seenSince (s : State) (hid : HartId) (ks : List Nat) : Nat :=
  (s.seen.filter fun x => x.1 == hid && ks.contains x.2.1 && x.2.2.2).foldl (fun m x => max m x.2.2.1) 0
/-- A read by a hart of an element that was last written through the other kind of mapping: any value that it has held (R340). -/
def staleElt (s : State) (hid : HartId) (ks : List Nat) : State × Nat :=
  let r := heldIn s ks ((heldEpochs s ks).filter (seenSince s hid ks ≤ ·))
  (observe r.1 hid r.2.2 ks, r.2.1)
/-- Bytes each of which may be one that it has held, where `stale` lets it. -/
def staleBytes (s : State) (hid : HartId) (stale : Nat → Bool) : List Nat → State × Nat
  | [] => (s, 0)
  | k :: t =>
    let (s, b) := if stale k then staleElt s hid [k] else (observe s hid s.epoch [k], (s.peek k).toNat)
    let (s, r) := staleBytes s hid stale t
    (s, b + 256 * r)

/-- Every read by the hart of a key through an uncached mapping returns its present value (R340). -/
def settledFor (s : State) (hid : HartId) (k : Nat) : Bool := s.settled.any fun x => x.2.2 == k && scopeHas s x.2.1 x.1 hid
/-- A read of the hart through this kind of mapping may return an earlier value of a key: it was last written through the other kind
(R340). -/
def staleFor (s : State) (hid : HartId) (c : Bool) (k : Nat) : Bool :=
  if c then s.uncachedW.contains k else s.cachedW.any (·.1 == k) && !settledFor s hid k

/-- Read the element of n bytes at va (R234, R340, R372): an element last written through the other kind of mapping gives any
value that it has held, an access that is not aligned any of each byte; a read of a not-live segment may reach the channel
and be counted (R287). What it returns at the keys that satisfy `fixed` the hart has observed (R341). -/
def readElt (s : State) (hid : HartId) (pgs : List TlbEntry) (va n : Nat) (fixed : Nat → Bool := fun _ => true) : Got Nat :=
  let p := s.partOf hid
  let ks := keysOf s p pgs va n
  let e := pageOf pgs va
  let (s, bad) := if pteC e.pte then fillBad s hid ks ks else (s, memBad s ks)
  if bad then .dfault s 1
  else
    let s := noteDeadKeys s p ks
    if ks.any (staleFor s hid (pteC e.pte)) then
      let r := if va % n = 0 then staleElt s hid ks else staleBytes s hid (staleFor s hid (pteC e.pte)) ks
      .ok r.1 r.2
    else .ok (observe s hid s.epoch (ks.filter fixed)) (ks.foldr (fun k acc => (s.peek k).toNat + 256 * acc) 0)

/-- Write bytes at keys for a hart or an engine of launch l, with the bookkeeping of R340 and R287. -/
def putBytes (s : State) (p l : Nat) (e : TlbEntry) (va : Nat) (ks : List Nat) (bs : List Byte) : State :=
  let s := (ks.zip bs).foldl (fun s kb => s.poke kb.1 kb.2) s
  let s := if pteTier e.pte == 0 && !s.notLive.isEmpty then { s with notLive := s.notLive.filter (· != (p, segOf e va)) } else s
  let s := { s with flushed := s.flushed.filter fun x => !ks.contains x.2 }
  if pteC e.pte then
    { s with settled := s.settled.filter (fun x => !ks.contains x.2.2), cachedW := ks.foldl (fun t k => (k, l) :: t) (s.cachedW.filter fun x => !ks.contains x.1),
             uncachedW := s.uncachedW.filter fun k => !ks.contains k }
  else { s with uncachedW := ks.foldl (fun t k => if t.contains k then t else k :: t) s.uncachedW }
/-- Bytes that every mapping sees at once: no copy of an earlier value stays (R340). -/
def reconcile (s : State) (ks : List Nat) : State :=
  { s with cachedW := s.cachedW.filter fun x => !ks.contains x.1, uncachedW := s.uncachedW.filter fun k => !ks.contains k,
           flushed := s.flushed.filter fun x => !ks.contains x.2, settled := s.settled.filter fun x => !ks.contains x.2.2 }

/-- Bytes [lo, hi) of an entry in this slot of the register region lie in a unit with an uncorrectable error (R184, R362). -/
def entryBad (s : State) (hid : HartId) (slot lo hi : Nat) : Bool := !s.bad.isEmpty && badUnit s (slotKeys s hid slot lo hi)
/-- One of the bytes [lo, hi) that its pusher wrote in an entry lies in such a unit. -/
def entryReadBad (s : State) (hid : HartId) (slot : Nat) (e : QEntry) (lo hi : Nat) : Bool :=
  !s.bad.isEmpty && ((List.range (hi - lo)).map (lo + ·)).any fun j => e.written.getLsbD j && badUnit s (slotKeys s hid slot j (j + 1))
/-- The entry that an A-side load has reserved. -/
def lqLast (h : Hart) (q : LQ) : QEntry := (h.lq[q.toNat]'(q.isLt)).getLastD {}

/-- The units of a list wholly replaced by a write are gone from it, and whether the write merges into one (R372). -/
def overUnits (ks : List Nat) (end_ : Nat → Nat) (l : List Nat) : List Nat × Bool :=
  let whole (u : Nat) : Bool := (List.range (end_ u - u)).all fun i => ks.contains (u + i)
  let hit (u : Nat) : Bool := (List.range (end_ u - u)).any fun i => ks.contains (u + i)
  (l.filter fun u => !whole u, l.any fun u => hit u && !whole u)
/-- A write of memory units, past the caches. -/
def memUnits (s : State) (ks : List Nat) : State × Bool :=
  if s.bad.isEmpty then (s, false)
  else
    let r := overUnits ks unitEnd s.bad
    ({ s with bad := r.1 }, r.2)
/-- A write of the units of the memories and of the L2 slices. -/
def writeUnits (s : State) (ks : List Nat) : State × Bool :=
  let (s, a) := memUnits s ks
  if s.badL2.isEmpty then (s, a)
  else
    let r := overUnits ks (· + 8) s.badL2
    ({ s with badL2 := r.1 }, a || r.2)
/-- A store of a core into its cache region's copy of a line: the units that it replaces are good again, and a bad one that it
merges into is read. -/
def l1Units (s : State) (hid : HartId) (ks : List Nat) : State × Bool :=
  if s.badL1.isEmpty then (s, false)
  else
    let r := overUnits ks (· + 8) ((s.badL1.filter (·.1 == (hid.l, hid.k))).map (·.2))
    ({ s with badL1 := s.badL1.filter (·.1 != (hid.l, hid.k)) ++ r.1.map fun u => ((hid.l, hid.k), u) }, r.2)

/-- The home directory has the dirty copies of the row lines of these keys written back, from cache regions (`l1`) and from L2 slices
(`l2`), and without `keep` no copy stays there. True: a dirty copy held an uncorrectable error. A line that may be dirty need not be:
where it is, the write-back replaces the units of memory (R233, R294, R308, R372). -/
def recallLines (s : State) (l1 l2 keep : Bool) (ks : List Nat) : State × Bool :=
  let on (u : Nat) : Bool := ks.any fun k => u / 64 == k / 64
  let copies := (l2 && s.badL2.any on) || (l1 && s.badL1.any fun x => on x.2)
  let gone (s : State) : State :=
    if keep then s
    else { s with badL2 := if l2 then s.badL2.filter fun u => !on u else s.badL2,
                  badL1 := if l1 then s.badL1.filter fun x => !on x.2 else s.badL1 }
  if !(copies || s.bad.any on) then (s, false)
  else if !ks.any (fun k => mayDirty s k fun _ => true) then (gone s, false)
  else
    let (s, c) := s.choose 3
    if c == 2 && copies then (s, true)
    else (gone (if c == 0 then { s with bad := s.bad.filter fun u => !on u } else s), false)

/-- Cache regions give up all that they hold, dirty lines written back: those of the cores that `f` accepts. True: a dirty copy held an
uncorrectable error (R194, R351). -/
def emptyL1 (s : State) (f : Nat × Nat → Bool) : State × Bool :=
  let mine := s.badL1.filter fun x => f x.1
  if mine.isEmpty then (s, false)
  else
    let t := { s with badL1 := s.badL1.filter fun x => !f x.1 }
    if mine.any fun x => mayDirty s x.2 (· == x.1.1) then
      let (t, c) := t.choose 2
      (t, c == 1)
    else (t, false)
/-- A write of whole bytes by an agent outside the cores' caches: the copies in cache regions are recalled, and the units of memory and
of L2 slices take the bytes. True: an uncorrectable error is met (R372). -/
def agentUnits (s : State) (ks : List Nat) : State × Bool :=
  let (s, lost) := if s.badL1.isEmpty then (s, false) else recallLines s true false false ks
  let (s, merge) := writeUnits s ks
  (s, lost || merge)

/-- Element i of w bytes arrives in an entry in this slot; true: it merges into a unit with an uncorrectable error (R184, R372). -/
def slotWrite (s : State) (hid : HartId) (slot i w : Nat) : State × Bool :=
  if s.bad.isEmpty then (s, false) else writeUnits s (slotKeys s hid slot (i * w) ((i + 1) * w))

/-- Write the element at va (R233, R372): a store to a cacheable page may first fill its line and writes the copy in the core's
cache region; one to an uncacheable page writes memory. -/
def writeElt (s : State) (hid : HartId) (pgs : List TlbEntry) (va : Nat) (bs : List Byte) : Got Unit :=
  let p := s.partOf hid
  let ks := keysOf s p pgs va bs.length
  let e := pageOf pgs va
  let (s, bad) := if pteC e.pte then fillBad (noteDeadKeys s p ks) hid ks [] else (s, false)
  if bad then .dfault s 1
  else
    let (s, merge) := if pteC e.pte then l1Units (dropFarL1 s hid ks) hid ks else memUnits s ks
    if merge then .dfault s 1
    else .ok (putBytes s p hid.l e va ks bs) ()

/-- The access fetches the column line that holds va (R232): it is of the `.c` form with this pitch and element width. -/
def colFetch (e : TlbEntry) (form : Option (Int × Nat)) : Bool :=
  match form with
  | some (p, w) => pteC e.pte && pteOri e.pte && p == (2 ^ (ptePcode e.pte + 6) : Nat) && w == 2 ^ pteWcode e.pte
  | none => false

/-- What holds up the access of hart `hid` to [va, va + n) in local memory: an interlock entry; an access that arrived before it at the
leased line for which it has waited; a lease of another hart on its row line; for a write, or a column line fetched, also a lease of
another core on a row line that a line crossing its own crosses (R233, R238). -/
def heldUp (s : State) (hid : HartId) (pgs : List TlbEntry) (va n : Nat) (write : Bool) (col : Option (Int × Nat) := none) : Option Wait :=
  if interlocked (s.core hid.l hid.k) hid.h false va (va + n) then some .interlock
  else
    let ks := (keysOf s (s.partOf hid) pgs va n).map (· / 64)
    match (arrivedBefore s hid).orElse fun _ => ks.find? (leased s hid write) with
    | some l => some (.lease l)
    | none =>
      if write || colFetch (pageOf pgs va) col then
        (((crossLines (s.part (s.partOf hid)).dies (pageOf pgs va) va).find? (leasedFar s hid)).orElse fun _ => if write then crossFar s hid ks else none).map .lease
      else none

/-! ## Peer and host memory (R311 to R314, R329) -/

/-- The key in this module that a peer physical address names, in the partition bound to the domain; none where
the target rejects it, or where no Spoke link is left (R311, R315). A partition that has never been started counts as stopped,
and one is faulted at no time but that of its device fault (log 73). -/
def peerKey (s : State) (pa : Nat) : Option Nat :=
  match s.md.boundPart with
  | none => none
  | some p =>
    let pt := s.part p
    if !pt.started || s.md.linkOk == 0 then none
    else if pa < 2 ^ 50 then (if pa < hbmSize pt.dies then some (hbmKey pt.dies pa) else none)
    else if pa < 2 ^ 51 then
      let a := pa % 2 ^ 50
      if a < sadSize pt.dies && s.md.portOk.getLsbD (sadPort pt.dies a) then some (sadKey pt.dies a) else none
    else none

/-- A page of another module (or of this one over its own links), or of the host. -/
def TlbEntry.isSelf (s : State) (e : TlbEntry) : Bool := pteTier e.pte == 2 && s.md.modId == some (pteMod e.pte)

/-- Each byte of an arriving or looped-back Spoke store adds one to the counters watching its physical address (R317). -/
def countPut (s : State) (pa : Nat) : State :=
  { s with cores := s.cores.map fun (id, c) =>
      if s.md.boundPart == some (s.launch id.1).part then
        (id, { c with arrivals := c.arrivals.map fun a => if a.lo ≤ pa && pa < a.hi then { a with c := a.c + 1 } else a })
      else (id, c) }

/-- The answer to peer or host element i of the instruction in progress. -/
inductive Remote where
  | value (v : Nat)
  | rejected
  | unanswered

def answerOf (h : Hart) (i : Nat) : Remote :=
  match h.answers.find? (fun a => a.1 == i) with
  | some (_, .accept d) => .value d.toNat
  | some (_, .reject) => .rejected
  | none => .unanswered

/-- The keys of n bytes at a peer physical address; none where the target rejects one of them. -/
def peerKeys (s : State) (pa n : Nat) : Option (List Nat) := ((List.range n).map fun i => peerKey s (pa + i)).allSome
/-- The leased line of the keys, or for a write one that a line crossing theirs crosses: what arrives from outside a core waits for it as
a probe, but an access of the hart `me` for no lease of its own (R238). -/
def keysLeased (s : State) (me : Option HartId) (write : Bool) (ks : List Nat) : Option Nat :=
  let lines := (ks.map (· / 64)).eraseDups
  s.harts.findSome? fun (id, h) =>
    if me == some id then none
    else (h.leases.find? fun y => s.cycle < y.until_ && (lines.contains y.pline || (write && lines.any y.cross.contains))).map (·.pline)
/-- Write bytes at the module's home directory: they are coherent for every mapping, and a segment they reach is live again. -/
def homeWrite (s : State) (p : Nat) (ks : List Nat) (bs : List Byte) : State :=
  let s := (ks.zip bs).foldl (fun s kb => s.poke kb.1 kb.2) s
  let dies := (s.part p).dies
  let s := if s.notLive.isEmpty then s
    else { s with notLive := s.notLive.filter fun x => !(x.1 == p && ks.any fun k => (hbmAddr dies k).any fun a => a / 2097152 == x.2) }
  reconcile s ks
/-- Write bytes that arrive at the home directory. True: an uncorrectable error is met (R372). -/
def homePut (s : State) (p : Nat) (ks : List Nat) (bs : List Byte) : State × Bool :=
  let r := agentUnits s ks
  (homeWrite r.1 p ks bs, r.2)

/-! ## What happens before (R335, R336) -/

/-- The posted stores not yet acknowledged that are the hart's own, or happen before what it does next. -/
def State.before (s : State) (hid : HartId) : List Posted :=
  if s.posted.isEmpty then [] else
    let seen := (s.hart hid).seen
    s.posted.filter fun p => p.h == hid || seen.contains p.id
/-- A posted peer or host store (R313, R314, R329): it joins the stores not yet acknowledged, with what it covers as a release
(`rels`). -/
def postStore (s : State) (hid : HartId) (e : TlbEntry) (va : Nat) (bs : List Byte) (rels : List (Nat × List Nat)) : State :=
  let p : Posted :=
    { id := s.nextPosted, h := hid, mod := if pteTier e.pte == 2 then some (pteMod e.pte) else none, pa := e.pa va,
      bytes := (List.range bs.length).zip bs, rels := rels ++ (s.hart hid).fenced, after := (s.before hid).map (·.id) }
  { s with posted := s.posted ++ [p], nextPosted := s.nextPosted + 1,
           md := { s.md with sent := .posted p :: s.md.sent } }

/-- The posted stores among these that are not yet acknowledged. -/
def liveIds (s : State) (ids : List Nat) : List Nat := ids.filter fun i => s.posted.any (·.id == i)
/-- What writes at keys leave there: a plain write what the hart's release fences cover; a read-modify-write also what the write
before it left (R335). -/
def announce (s : State) (hid : HartId) (ks : List Nat) (fenced : List (Nat × List Nat)) (rmw : Bool) : State :=
  if s.posted.isEmpty && s.msgs.isEmpty then s
  else
    let old := if rmw then s.msgs else s.msgs.filter fun m => !ks.contains m.key
    let new := ks.flatMap fun k => fenced.filterMap fun m => match liveIds s m.2 with
      | [] => none
      | ids => some ⟨k, ids, m.1, hid⟩
    { s with msgs := new ++ old }
/-- A release write at keys has been made (R335). -/
def announceRel (s : State) (hid : HartId) (ks : List Nat) (sc : Scope) : State :=
  announce s hid ks [(scopeRank sc, (s.before hid).map (·.id))] true
/-- A read has returned what writes left at keys. -/
def hear (s : State) (hid : HartId) (ks : List Nat) : State :=
  if s.msgs.isEmpty then s
  else s.updHart hid fun h => { h with heard := (s.msgs.filter fun m => ks.contains m.key) ++ h.heard }
/-- An acquire of the values read at keys, or of all that the hart has read: what is ordered by it happens before what follows. -/
def acquire (s : State) (hid : HartId) (sc : Scope) (ks : Option (List Nat)) : State :=
  if (s.hart hid).heard.isEmpty then s
  else
    let new := (s.hart hid).heard.filter fun m => ks.all (·.contains m.key) && scopeHas s m.scope m.h hid && scopeHas s (scopeRank sc) hid m.h
    s.updHart hid fun h => { h with seen := liveIds s (new.flatMap (·.ids) ++ h.seen) }
/-- A release fence: what it covers goes with every later write of the hart. -/
def fenceRel (s : State) (hid : HartId) (sc : Scope) : State :=
  match s.before hid with
  | [] => s
  | l => s.updHart hid fun h => { h with fenced := (scopeRank sc, l.map (·.id)) :: h.fenced }
/-- What the hart has written back by CFLUSH, or a hart whose release reached it, is in memory once a release follows: for every mapping
of the package where the release is of package or domain scope, and for the harts of its scope otherwise (R335, R340). -/
def releaseFlushed (s : State) (hid : HartId) (sc : Scope) : State :=
  if s.flushed.isEmpty && s.settled.isEmpty then s
  else
    let ks := (s.flushed.filter (·.1 == hid)).map (·.2) ++ (s.settled.filter fun x => scopeHas s x.2.1 x.1 hid).map (·.2.2)
    if 3 ≤ scopeRank sc then
      { s with cachedW := s.cachedW.filter fun x => !ks.contains x.1, flushed := s.flushed.filter (·.1 != hid) }
    else
      let new := (ks.filter fun k => !s.settled.contains (hid, scopeRank sc, k)).map fun k => (hid, scopeRank sc, k)
      { s with settled := new ++ s.settled }

/-- A posted store to the same bytes of the page, of the hart or one that happens before its access, is not yet acknowledged
(R314, R332, R336). -/
def postedTo (s : State) (hid : HartId) (e : TlbEntry) (va n : Nat) : Bool :=
  (s.before hid).any fun p => (p.mod.isSome == (pteTier e.pte == 2))
    && (p.mod.getD (pteMod e.pte) == pteMod e.pte) && p.pa < e.pa va + n && e.pa va < p.pa + p.bytes.length

/-! ## Ordering (R335, R337) -/

/-- A release of domain scope must wait for posted peer and host stores: the hart's own and those that happen before it (R314,
R335). -/
def postedOut (s : State) (hid : HartId) : Bool := !(s.before hid).isEmpty
/-- Elements of a load, or bags of a pooled lookup, of the hart are still in flight (R337). -/
def readsOut (h : Hart) : Bool := h.lq.toList.any fun q => q.any fun e => !e.flight.isEmpty || e.pool.isSome
/-- A pooled lookup of the hart has rows to read that satisfy a predicate; what any other load of the hart returns is fixed. -/
def poolOut (h : Hart) (f : Pool → Bool) : Bool := h.lq.toList.any fun q => q.any fun e => e.pool.any fun p => !p.left.isEmpty && f p
/-- Reads that are still to be made stand before a release fence of the hart: no later write of it is performed before them (R335). -/
def relWait (h : Hart) : Option Wait := if poolOut h (·.rel) then some .reads else none
/-- What a release write of this scope waits for: the rows that earlier pooled lookups read, and, at domain scope, acknowledgements
(R314, R335). -/
def releaseWait (s : State) (hid : HartId) (sc : Scope) : Option Wait :=
  if sc == .domain && postedOut s hid then some .posted
  else if poolOut (s.hart hid) fun _ => true then some .reads
  else none

/-- What a fence of this kind and scope waits for; a release of domain scope waits for acknowledgements as R314 says (log 58). -/
def fenceWait (s : State) (hid : HartId) (k : OKind) (sc : Scope) : Option Wait :=
  if k != .acq && sc == .domain && postedOut s hid then some .posted
  else if k != .rel && readsOut (s.hart hid) then some .reads
  else none

/-- A release fence covers the rows that pooled lookups are still to read. -/
def coverPools (s : State) (hid : HartId) : State :=
  if poolOut (s.hart hid) (fun p => !p.rel) then
    s.updHart hid fun h => { h with lq := h.lq.map fun q => q.map fun e => { e with pool := e.pool.map fun p => { p with rel := true } } }
  else s
/-- What a fence of this kind and scope leaves behind. -/
def fenceDone (s : State) (hid : HartId) (k : OKind) (sc : Scope) : State :=
  let s := if k == .acq then s else releaseFlushed (fenceRel (coverPools s hid) hid sc) hid sc
  if k == .rel then s else acquire s hid sc none

/-- What the release part of an ordering operand waits for before the access. An acquire atomic carries a release for its
write part (R335). -/
def ordBefore (s : State) (hid : HartId) (rmw : Bool) : Ord → Option Wait
  | .ord k sc => if k != .acq || rmw then releaseWait s hid sc else none
  | .plain => none
/-- What a posted store with this ordering operand carries as a release (R335). -/
def ordRels (s : State) (hid : HartId) : Ord → List (Nat × List Nat)
  | .ord .acq _ | .plain => []
  | .ord _ sc => [(scopeRank sc, (s.before hid).map (·.id))]
/-- What an ordering operand leaves behind, at the keys read or written at once. -/
def ordAfter (s : State) (hid : HartId) (rmw : Bool) (ks : List Nat) : Ord → State
  | .plain => s
  | .ord k sc =>
    let s := if k == .rel then s else acquire s hid sc (some ks)
    if k == .acq && !rmw then s else announceRel (releaseFlushed s hid sc) hid ks sc

end Sys2Proof.Machine
end

