-- ==== Sys2Proof/Machine/Scheduler.lean ====
section
/-! DEFINITION. The queue scheduler of a partition (R83 to R98, R374, R375), its loader (R30 to R38), placement,
completion, and device faults (R354). -/

namespace Sys2Proof.Machine

open Sys2Proof

/-! ## The scheduler's own accesses (R375) -/

/-- Why an access of the scheduler or its loader fails. -/
inductive SFail where
  /-- A page fails translation, is not there, or lies on a tier that the access refuses. -/
  | unreachable
  /-- A unit, or an entry of the walk, holds an uncorrectable error (R372). -/
  | uncorrectable
  deriving DecidableEq, Repr
/-- The detail of the device fault that such a failure is (R354, R375). -/
def SFail.detail : SFail → Nat
  | .unreachable => 7
  | .uncorrectable => 1

/-- The pages from va to the last byte through a root; the U, R, W, X and C bits are not checked. `n` counts the pages still to
walk. -/
def walkPages (p : Nat) (root : BitVec 64) (ok : Nat → Bool) (last : Nat) : Nat → State → Nat → State × Except SFail (List TlbEntry)
  | 0, s, _ => (s, .ok [])
  | n + 1, s, va =>
    if 2 ^ 55 ≤ va then (s, .error .unreachable)
    else
      let (s, e) := xlateNow s p root (va / 65536)
      if e.ecc then (s, .error .uncorrectable)
      else if !(pteV e.pte && ok (pteTier e.pte) && wholeThere s p e va (min last (65536 * (va / 65536) + 65535))) then (s, .error .unreachable)
      else match walkPages p root ok last n s (65536 * (va / 65536 + 1)) with
        | (s, .error f) => (s, .error f)
        | (s, .ok r) => (s, .ok (e :: r))
/-- The pages of [va, va + n) through a root, on the tiers that `ok` takes. -/
def rootPages (s : State) (p : Nat) (root : BitVec 64) (ok : Nat → Bool) (va n : Nat) : State × Except SFail (List TlbEntry) :=
  if n = 0 then (s, .ok []) else walkPages p root ok (va + n - 1) ((va + n - 1) / 65536 - va / 65536 + 1) s va
/-- The pages of an access of the scheduler, through the partition's root (R375). -/
def schedPages (s : State) (p : Nat) (ok : Nat → Bool) (va n : Nat) : State × Except SFail (List TlbEntry) :=
  rootPages s p (s.part p).ptbase ok va n

/-- A number of n bytes read on TIER 0, coherently (R372, R375). -/
def schedRead (s : State) (p va n : Nat) : State × Except SFail Nat :=
  match schedPages s p (· == 0) va n with
  | (s, .error f) => (s, .error f)
  | (s, .ok pgs) =>
    let ks := keysOf s p pgs va n
    let (s, bad) := needsBad (noteDeadKeys s p ks) true ks
    if bad then (s, .error .uncorrectable)
    else (s, .ok (ks.foldr (fun k acc => (s.peek k).toNat + 256 * acc) 0))

/-- Bytes written through checked pages, coherent at package scope. -/
def schedPut (s : State) (p : Nat) (pgs : List TlbEntry) (va : Nat) (bs : List Byte) : State × Except SFail Unit :=
  match homePut s p (keysOf s p pgs va bs.length) bs with
  | (s, true) => (s, .error .uncorrectable)
  | (s, false) => (s, .ok ())
/-- A write of the scheduler on TIER 0. -/
def schedWrite (s : State) (p va n v : Nat) : State × Except SFail Unit :=
  match schedPages s p (· == 0) va n with
  | (s, .error f) => (s, .error f)
  | (s, .ok pgs) => schedPut s p pgs va (toBytes n v)

/-! ## The queue table (R85, R86) -/

def tableAddr (s : State) (p q : Nat) : Nat := (s.part p).qtable.toNat + 32 * q
def notifyAddr (s : State) (p q : Nat) : Nat := (s.part p).notify.toNat + 8 * q

/-- A queue-table entry: base, lgsize, flags, head, done. -/
structure QTab where
  base : Nat
  lgsize : Nat
  flags : Nat
  head : Nat
  done : Nat
  deriving DecidableEq, Repr

/-- The table entry of queue q, or the device fault that reading it is (R375: detail 7; R372: detail 1). -/
def readTable (s : State) (p q : Nat) : State × Except Nat QTab :=
  match schedRead s p (tableAddr s p q) 32 with
  | (s, .ok v) => (s, .ok ⟨getBits v 0 64, getBits v 64 8, getBits v 72 8, getBits v 128 64, getBits v 192 64⟩)
  | (s, .error f) => (s, .error f.detail)
def readNotify (s : State) (p q : Nat) : State × Except Nat Nat :=
  match schedRead s p (notifyAddr s p q) 8 with
  | (s, .ok v) => (s, .ok v)
  | (s, .error f) => (s, .error f.detail)

def State.userQ (s : State) (p q : Nat) : UserQ :=
  tget { phase := .unmapped, slot := 0, wantedAt := 0, mappedAt := 0, activeAt := 0, head := 0, done := 0,
         finished := [], pending := false, taken := none } (s.part p).queues q
def State.setQ (s : State) (p q : Nat) (x : UserQ) : State := s.updPart p fun pt => { pt with queues := tput pt.queues q x }

/-- What a write of the table was: none, or the detail of the device fault that it is. -/
def faultOf (r : State × Except SFail Unit) : State × Option Nat :=
  match r with
  | (s, .ok ()) => (s, none)
  | (s, .error f) => (s, some f.detail)

/-- One atomic update of flags bits 2:1 (R85); the second result is the detail of a device fault. -/
def writeFlags (s : State) (p q : Nat) (pending mapped : Bool) : State × Option Nat :=
  match schedRead s p (tableAddr s p q + 9) 1 with
  | (s, .ok v) =>
    faultOf (schedWrite s p (tableAddr s p q + 9) 1 (v / 8 * 8 + v % 2 + (if pending then 2 else 0) + (if mapped then 4 else 0)))
  | (s, .error f) => (s, some f.detail)

/-- The flags of a queue as its state asks for (R88). -/
def syncFlags (s : State) (p q : Nat) : State × Option Nat :=
  let u := s.userQ p q
  writeFlags s p q u.pending (u.phase == .mapped || u.phase == .unmapping)

/-! ## Completion records (R97, R375) -/

/-- A completion record that is not written is counted, since boot (R363, R375). -/
def countUnwritten (s : State) (p : Nat) : State :=
  { s with md := { s.md with unwritten := tput s.md.unwritten p (tget 0 s.md.unwritten p + 1) } }
/-- Write the completion record, or count it as unwritten (R375); the second result is the detail of a device fault (R372). -/
def writeCompletion (s : State) (p : Nat) (compl seq : Nat) (status detail slices preempts : Nat) : State × Option Nat :=
  let bytes := toBytes 8 seq ++ toBytes 4 status ++ toBytes 4 detail ++ toBytes 4 slices ++ toBytes 4 preempts ++ toBytes 8 0
  if compl % 32 ≠ 0 then (countUnwritten s p, none)
  else
    match schedPages s p (· != 2) compl 32 with
    | (s, .ok [e]) =>
      if pteTier e.pte == 3 then
        let w : Sent := .rdmaWrite (e.pa compl / 1099511627776 % 4096) (e.pa compl % 1099511627776) bytes
        ({ s with md := { s.md with sent := w :: s.md.sent } }, none)
      else faultOf (schedPut s p [e] compl bytes)
    | (s, .error .uncorrectable) => (s, some 1)
    | (s, _) => (countUnwritten s p, none)

/-- done moves over every leading completed record (R85, R97). -/
def passDone : Nat → Nat → List Nat → Nat × List Nat
  | 0, d, f => (d, f)
  | n + 1, d, f => if f.contains d then passDone n (d + 1) (f.filter (· != d)) else (d, f)

/-- Record n of queue q has completed: done advances and is written to the table; the second result is the detail of a device
fault. -/
def finishRecord (s : State) (p q n : Nat) : State × Option Nat :=
  let u := s.userQ p q
  let (d, f) := passDone (u.finished.length + 1) u.done (n :: u.finished)
  let s := s.setQ p q { u with done := d, finished := f }
  if d = u.done then (s, none) else faultOf (schedWrite s p (tableAddr s p q + 24) 8 d)

/-! ## Dependence tokens (R90) -/

def noToken : Nat := 2 ^ 64 - 1

/-- done(q), the scheduler's own where it holds the queue, else the table's; or the detail of a device fault. -/
def doneOf (s : State) (p q : Nat) : State × Except Nat Nat :=
  if (s.part p).queues.any (·.1 == q) then (s, .ok (s.userQ p q).done)
  else match readTable s p q with
    | (s, .ok t) => (s, .ok t.done)
    | (s, .error d) => (s, .error d)
def tokenMet (s : State) (p t : Nat) : State × Except Nat Bool :=
  if t = noToken then (s, .ok true)
  else match doneOf s p (t / 2 ^ 48) with
    | (s, .ok d) => (s, .ok (t % 2 ^ 48 < d))
    | (s, .error d) => (s, .error d)
def tokensMet (s : State) (p : Nat) (r : Record) : State × Except Nat Bool :=
  match tokenMet s p r.dep0.toNat with
  | (s, .error d) => (s, .error d)
  | (s, .ok a) => match tokenMet s p r.dep1.toNat with
    | (s, .error d) => (s, .error d)
    | (s, .ok b) => (s, .ok (a && b))

/-- The first of two device faults. -/
def firstFault (a b : Option Nat) : Option Nat := if a.isSome then a else b

/-- A taken record becomes a candidate once both of its tokens are met (R91); the second result is the detail of a device fault
that reading a token's queue is (R375). -/
def refreshTokens (s : State) (p : Nat) : State × Option Nat :=
  (s.part p).queues.foldl (fun (s, f) (q, u) =>
    match u.taken with
    | some t =>
      if t.candidate then (s, f)
      else match tokensMet s p t.rec_ with
        | (s, .error d) => (s, firstFault f (some d))
        | (s, .ok m) => (if m then s.setQ p q { s.userQ p q with taken := some { t with candidate := true, waited := 0 } } else s, f)
    | none => (s, f)) (s, none)

/-! ## Engine commands and near-memory updates that a device fault may or may not let happen -/

/-- The launches of a partition. -/
def State.launchesOf (s : State) (p : Nat) : List Nat := (s.launches.filter fun x => x.2.part == p).map (·.1)

/-- Remove a launch: its harts, cores and pool bytes. -/
def dropLaunch (s : State) (l : Nat) : State :=
  let s := s.wipe (poolKey l 0 0) (poolKey (l + 1) 0 0)
  { s with flushed := s.flushed.filter (·.1.l != l), settled := s.settled.filter (·.1.l != l), seen := s.seen.filter (·.1.l != l)
           badL1 := s.badL1.filter (·.1.1 != l), paceMsgs := s.paceMsgs.filter (·.1.1 != l), gongMsgs := s.gongMsgs.filter (·.1.1 != l)
           harts := s.harts.filter fun x => x.1.l != l, cores := s.cores.filter fun x => x.1.1 != l,
           launches := tdel s.launches l, posted := s.posted.filter fun x => x.h.l != l }

/-- End a launch with a status: its completion record, done, and everything of it gone (R97, R354, R360); the second result is
the detail of a device fault that an access of the scheduler is. -/
def endLaunch (s : State) (l status detail : Nat) : State × Option Nat :=
  let x := s.launch l
  let (s, a) := writeCompletion s x.part x.rec_.compl.toNat x.rec_.seq.toNat status detail x.slices x.preempts
  let s := s.setQ x.part x.q { s.userQ x.part x.q with activeAt := s.cycle }
  let (s, b) := finishRecord s x.part x.q x.rec_.seq.toNat
  let (s, c) := refreshTokens (dropLaunch s l) x.part
  (s, firstFault a (firstFault b c))

/-- R354: every launch of the partition that is running, being saved or restored, or saved is discarded. Whatever
they had in flight is not performed here; `Inflight.lean` performs a free choice of it first. A further device fault that the
scheduler's writes meet finds these launches discarded already. -/
def discardLaunches (s : State) (p status detail : Nat) : State :=
  (s.launchesOf p).foldl (fun s l => (endLaunch s l status detail).1) s

/-! ## Start records (R89 to R91, R374) -/

def parseRecord (v : Nat) : Record :=
  let f (off size w : Nat) : BitVec w := BitVec.ofNat w (getBits v (8 * off) (8 * size))
  { seq := f 0 8 64, image := f 8 8 64, entry := f 16 8 64, args := f 24 8 64, width := f 32 2 16, height := f 34 2 16,
    harts := f 36 1 8, lanes := f 37 1 8, vlen := f 38 1 8, prio := f 39 1 8, vlcap := f 40 4 32, bnd0 := f 48 4 32,
    bnd1 := f 52 4 32, bnd2 := f 56 4 32, cbmask := f 64 8 64, tagrng := f 72 8 64, tilemask := f 80 2 16,
    dep0 := f 88 8 64, dep1 := f 96 8 64, compl := f 104 8 64, stack := f 112 8 64, save := f 120 8 64 }

/-- Per-hart fields of a record (R89). -/
def Record.laneCode (r : Record) (h : Nat) : Nat := getBits r.lanes.toNat (2 * h) 2
def Record.tagBase (r : Record) (h : Nat) : Nat := getBits r.tagrng.toNat (16 * h) 6
def Record.tagCount (r : Record) (h : Nat) : Nat := getBits r.tagrng.toNat (16 * h + 8) 7
def Record.cbOwn (r : Record) (h : Nat) : BitVec 16 := BitVec.ofNat 16 (getBits r.cbmask.toNat (16 * h) 16)
def Record.tileOwn (r : Record) (h : Nat) : BitVec 4 := BitVec.ofNat 4 (getBits r.tilemask.toNat (4 * h) 4)

/-- R90: the token is malformed: it names a queue whose valid bit is clear, or its own queue at or after itself. -/
def tokenBad (s : State) (p q n t : Nat) : State × Except Nat Bool :=
  if t = noToken then (s, .ok false)
  else
    let tq := t / 2 ^ 48
    match readTable s p tq with
    | (s, .error d) => (s, .error d)
    | (s, .ok e) => (s, .ok (e.flags % 2 == 0 || (tq == q && n ≤ t % 2 ^ 48)))

/-- R374, order 1, field by field: the offset of the first field that fails. `v` is the record as a number. -/
def order1 (s : State) (p q n v : Nat) (r : Record) : State × Except Nat (Option Nat) :=
  let nh := r.harts.toNat
  let early : List (Nat × Bool) := [
    (0, r.seq.toNat != n), (32, r.width == 0), (34, r.height == 0), (36, nh == 0 || 4 < nh),
    (37, (List.range nh).any fun h => r.laneCode h == 3), (38, r.vlen.toNat < 9 || 13 < r.vlen.toNat),
    (39, 8 ≤ r.prio.toNat), (40, r.vlcap == 0 || 8192 < r.vlcap.toNat), (44, getBits v 352 32 != 0),
    (60, getBits v 480 32 != 0),
    (72, (List.range nh).any fun h => getBits r.tagrng.toNat (16 * h + 6) 2 != 0
      || getBits r.tagrng.toNat (16 * h + 15) 1 != 0 || 64 < r.tagCount h),
    (82, getBits v 656 48 != 0)]
  match early.find? (·.2) with
  | some (o, _) => (s, .ok (some o))
  | none =>
    match tokenBad s p q n r.dep0.toNat with
    | (s, .error d) => (s, .error d)
    | (s, .ok true) => (s, .ok (some 88))
    | (s, .ok false) =>
      match tokenBad s p q n r.dep1.toNat with
      | (s, .error d) => (s, .error d)
      | (s, .ok true) => (s, .ok (some 96))
      | (s, .ok false) => (s, .ok (if r.compl.toNat % 32 ≠ 0 then some 104 else none))

/-- R182 for boundaries of a launch, in the order of R374: the offset of the first row that fails. -/
def boundsBad (b0 b1 b2 nh vlen scratch cbslot : Nat) : Option Nat :=
  let rows : List (Nat × Bool) := [
    (48, b0 % 0x1000 != 0), (48, b0 < nh * 56 * vlen), (52, b1 % 0x1000 != 0 || b1 < b0),
    (56, b2 % 0x10000 != 0 || b2 < b1 || 0x1E0000 < b2), (56, b2 - b1 < scratch), (52, (b1 - b0) / 16 < cbslot)]
  (rows.find? (·.2)).map (·.1)

/-- Two ranges of tags share a tag; a range of no tags shares none. -/
def tagsMeet (r : Record) (i j : Nat) : Bool :=
  0 < r.tagCount i && 0 < r.tagCount j && r.tagBase i < r.tagBase j + r.tagCount j && r.tagBase j < r.tagBase i + r.tagCount i

/-- R374, order 4. -/
def order4 (r : Record) (scratch cbslot : Nat) : Option Nat :=
  let nh := r.harts.toNat
  let hs := List.range nh
  match boundsBad r.bnd0.toNat r.bnd1.toNat r.bnd2.toNat nh (2 ^ r.vlen.toNat) scratch cbslot with
  | some o => some o
  | none =>
    let rows : List (Nat × Bool) := [
      (64, r.bnd0 == r.bnd1 && hs.any fun h => r.cbOwn h != 0),
      (72, hs.any (fun h => 64 < r.tagBase h + r.tagCount h) || hs.any fun i => hs.any fun j => i < j && tagsMeet r i j),
      (80, hs.any fun i => hs.any fun j => i < j && r.tileOwn i &&& r.tileOwn j != 0)]
    (rows.find? (·.2)).map (·.1)

/-! ## The loader (R30 to R38) -/

structure Image where
  flags : Nat
  vlenmin : Nat
  vlenmax : Nat
  harts : Nat
  lanes : Nat
  framea : Nat
  spilln : Nat
  frameb : Nat
  scratch : Nat
  cbslot : Nat
  entry : Nat
  textoff : Nat
  textsize : Nat
  dataoff : Nat
  datasize : Nat
  relocoff : Nat
  reloccount : Nat
  tensorcount : Nat
  sigoff : Nat
  tensoroff : Nat
  deriving DecidableEq, Repr

/-- The header (R30), where it passes the checks that R37 lists for it: `harts`, `lanes` and `textsize` are not among them (log 29). -/
def parseHeader (v : Nat) : Option Image :=
  let f (off size : Nat) : Nat := getBits v (8 * off) (8 * size)
  let i : Image :=
    { flags := f 6 2, vlenmin := f 8 1, vlenmax := f 9 1, harts := f 10 1, lanes := f 11 1, framea := f 12 2, spilln := f 14 2,
      frameb := f 16 4, scratch := f 20 4, cbslot := f 24 4, entry := f 28 4, textoff := f 32 8, textsize := f 40 8,
      dataoff := f 48 8, datasize := f 56 8, relocoff := f 64 8, reloccount := f 72 4, tensorcount := f 76 4,
      sigoff := f 80 8, tensoroff := f 88 8 }
  if f 0 4 == 0x494B4D45 && f 4 2 == 1 && i.flags < 2 && 9 ≤ i.vlenmin && i.vlenmin ≤ i.vlenmax && i.vlenmax ≤ 13
    && i.textoff % 64 == 0 && i.dataoff % 65536 == 0 && i.textoff + i.textsize ≤ i.dataoff then some i else none

/-- Bytes of the image, read through pages of TIER 0. -/
def imgNum (s : State) (p a n : Nat) : State × Except Bool Nat :=
  match schedRead s p a n with
  | (s, .ok v) => (s, .ok v)
  | (s, .error f) => (s, .error (f == .uncorrectable))

/-- Check entries 0 to n − 1 in order, stopping at the first that fails: `error true` is an uncorrectable unit. -/
def forEntries (f : Nat → State → State × Except Bool Unit) : Nat → Nat → State → State × Except Bool Unit
  | 0, _, s => (s, .ok ())
  | n + 1, i, s =>
    match f i s with
    | (s, .ok ()) => forEntries f n (i + 1) s
    | r => r

/-- A relocation entry lies within its section (R31). -/
def relocOk (p a : Nat) (m : Image) (i : Nat) (s : State) : State × Except Bool Unit :=
  match imgNum s p (a + m.relocoff + 16 * i) 16 with
  | (s, .error e) => (s, .error e)
  | (s, .ok v) =>
    let off := getBits v 0 64
    let kind := getBits v 64 16
    let sect := getBits v 80 16
    if 1 < sect then (s, .error false)
    else if kind == 2 then
      (s, if m.dataoff ≤ off && off + 8 ≤ m.dataoff + m.datasize then .ok () else .error false)
    else if kind == 1 then
      let t := off - m.textoff
      if m.textoff ≤ off && off < m.textoff + m.textsize && isSlot t then
        match imgNum s p (a + m.textoff + t / 64 * 64 + 60) 4 with
        | (s, .ok lw) => (s, if getBits lw (14 + 2 * (t % 64 / 12)) 2 == 2 then .ok () else .error false)
        | (s, .error e) => (s, .error e)
      else (s, .error false)
    else (s, .error false)

/-- A tensor entry lies within the data section and its reserved field is zero (R32, R33). -/
def tensorIn (p a : Nat) (m : Image) (i : Nat) (s : State) : State × Except Bool Unit :=
  match imgNum s p (a + m.tensoroff + 16 * i) 16 with
  | (s, .error e) => (s, .error e)
  | (s, .ok v) =>
    (s, if getBits v 48 16 == 0 && getBits v 0 32 + getBits v 64 64 ≤ m.datasize then .ok () else .error false)

/-- R32: alignment, width, pitch and size of a tensor. -/
def tensorOk (p a : Nat) (m : Image) (i : Nat) (s : State) : State × Except Bool Unit :=
  match imgNum s p (a + m.tensoroff + 16 * i) 16 with
  | (s, .error e) => (s, .error e)
  | (s, .ok v) =>
    let lg := getBits v 40 8
    (s, if getBits v 0 32 % 65536 == 0 && getBits v 32 8 ≤ 2 && 6 ≤ lg && lg ≤ 16 && 16 * 2 ^ lg ≤ getBits v 64 64 then .ok ()
        else .error false)

/-- The page of a virtual address satisfies a predicate of R36. -/
def pageIs (f : BitVec 64 → Bool) (p va : Nat) (s : State) : State × Except Bool Unit :=
  match schedPages s p (· == 0) va 1 with
  | (s, .ok [e]) => (s, if f e.pte then .ok () else .error false)
  | (s, .ok _) => (s, .error false)
  | (s, .error f) => (s, .error (f == .uncorrectable))
def pagesAre (f : BitVec 64 → Bool) (p lo n : Nat) (s : State) : State × Except Bool Unit :=
  if n = 0 then (s, .ok ())
  else forEntries (fun i s => pageIs f p (65536 * (lo / 65536 + i)) s) ((lo + n - 1) / 65536 - lo / 65536 + 1) 0 s

def textPage (e : BitVec 64) : Bool := pteR e && pteX e && pteU e && pteC e && !pteW e && !pteOri e && !pteNbc e
def dataPage (e : BitVec 64) : Bool := pteR e && pteW e && pteU e && pteC e && ptePin e && !pteX e

/-- R36 for the data pages: orientable exactly as every tensor entry that covers the page says, and not orientable where none
does; a page that also holds other data follows its tensor entry (log 68). -/
def dataPageOk (p a : Nat) (m : Image) (tens : List Nat) (i : Nat) (s : State) : State × Except Bool Unit :=
  let off := 65536 * i
  let cover := tens.filter fun v => getBits v 0 32 < off + 65536 && off < getBits v 0 32 + getBits v 64 64
  pageIs (fun e => dataPage e && pteOri e == !cover.isEmpty
    && cover.all fun v => pteWcode e == getBits v 32 8 && ptePcode e + 6 == getBits v 40 8) p (a + m.dataoff + off) s

/-- The tensor entries of an image. -/
def tensors (s : State) (p a : Nat) (m : Image) : State × List Nat :=
  (List.range m.tensorcount).foldl (fun (s, l) i =>
    match imgNum s p (a + m.tensoroff + 16 * i) 16 with
    | (s, .ok v) => (s, l ++ [v])
    | (s, .error _) => (s, l)) (s, [])

/-- R41: the parity byte of a line. -/
def lineParity (l : Line) : BitVec 8 :=
  let xorByte (b : Nat) : Bool := (List.range 8).foldl (fun x i => x != l.getLsbD (8 * b + i)) false
  (List.range 8).foldl (fun acc i =>
    let g := (List.range (min 8 (60 - 8 * i))).foldl (fun x j => x != xorByte (8 * i + j)) false
    if g then acc ||| (1#8 <<< i) else acc) 0

/-- R34: the bytes that the signature covers, with what relocation patches taken as zero. -/
def signedBytes (s : State) (p a : Nat) (m : Image) : State × Except Bool (List Byte) :=
  match imgNum s p a m.sigoff with
  | (s, .error e) => (s, .error e)
  | (s, .ok v) =>
    let (s, v) := (List.range m.reloccount).foldl (fun (s, v) i =>
      match imgNum s p (a + m.relocoff + 16 * i) 16 with
      | (s, .ok r) =>
        let off := getBits r 0 64
        let v := if off < m.sigoff then setBits v (8 * off) (8 * min 8 (m.sigoff - off)) 0 else v
        let par := off / 64 * 64 + 63
        (s, if getBits r 64 16 == 1 && par < m.sigoff then setBits v (8 * par) 8 0 else v)
      | (s, .error _) => (s, v)) (s, v)
    (s, .ok (toBytes m.sigoff v))

def signatureOk (s : State) (p a : Nat) (m : Image) : State × Except Bool Unit :=
  if m.flags % 2 == 0 then (s, .error false)
  else
    match imgNum s p (a + m.sigoff) 196, signedBytes s p a m with
    | (_, .ok blk), (s, .ok bytes) =>
      let sig := toBytes 132 (getBits blk 0 1056)
      let dig := BitVec.ofNat 512 (getBits blk 1056 512)
      match s.md.imageKeys.find? (·.1 == dig) with
      | some (_, pk) => (s, if Config.ecdsaVerify pk (Config.sha512 bytes) sig then .ok () else .error false)
      | none => (s, .error false)
    | (_, .error e), (s, _) => (s, .error e)
    | _, (s, .error e) => (s, .error e)

/-- Apply a relocation (R31, R37 step 7), and the parity byte of a patched line. -/
def relocate (p a : Nat) (m : Image) (i : Nat) (s : State) : State × Except Bool Unit :=
  match imgNum s p (a + m.relocoff + 16 * i) 16 with
  | (s, .error e) => (s, .error e)
  | (s, .ok v) =>
    let off := getBits v 0 64
    let base := a + if getBits v 80 16 == 0 then m.textoff else m.dataoff
    let val := (BitVec.ofNat 64 base + (BitVec.ofNat 32 (getBits v 96 32)).signExtend 64).toNat
    match schedWrite s p (a + off) 8 val with
    | (s, .error f) => (s, .error (f == .uncorrectable))
    | (s, .ok ()) =>
      if getBits v 64 16 == 1 then
        match imgNum s p (a + off / 64 * 64) 64 with
        | (s, .ok l) =>
          match schedWrite s p (a + off / 64 * 64 + 63) 1 (lineParity (BitVec.ofNat 512 l)).toNat with
          | (s, .error f) => (s, .error (f == .uncorrectable))
          | (s, .ok ()) => (s, .ok ())
        | (s, .error e) => (s, .error e)
      else (s, .ok ())
/-- Discard the lines of an image's text that harts of the partition have fetched (R37 step 8, R44). -/
def dropLines (s : State) (p lo n : Nat) : State :=
  { s with harts := s.harts.map fun (id, h) =>
      if s.partOf id == p && h.line.any (fun x => lo ≤ x.1 && x.1 < lo + n) then (id, { h with line := none }) else (id, h) }

/-- Run loader steps in order, stopping at the first failure. -/
def runSteps (l : List (State → State × Except Bool Unit)) (s : State) : State × Except Bool Unit :=
  match l with
  | [] => (s, .ok ())
  | f :: t =>
    match f s with
    | (s, .ok ()) => runSteps t s
    | r => r

/-- R38: the entry address. -/
def entryOf (a : Nat) (m : Image) (r : Record) : Option Nat :=
  if r.entry == 0 then some (a + m.textoff + m.entry)
  else
    let e := r.entry.toNat
    if isSlot e && a + m.textoff ≤ e && e < a + m.textoff + m.textsize then some e else none

/-- R37: prepare the image of a record; the image and its entry, or `error` (true: an uncorrectable unit). -/
def prepare (s : State) (p : Nat) (r : Record) : State × Except Bool (Image × Nat) :=
  let a := r.image.toNat
  match imgNum s p a 96 with
  | (s, .error e) => (s, .error e)
  | (s, .ok v) =>
    match parseHeader v with
    | none => (s, .error false)
    | some m =>
      let (s, tens) := tensors s p a m
      let check (b : Bool) (s : State) : State × Except Bool Unit := (s, if b then .ok () else .error false)
      let pre := [
        forEntries (relocOk p a m) m.reloccount 0,
        forEntries (tensorIn p a m) m.tensorcount 0,
        (fun s => if m.flags % 2 == 1 || (s.part p).policy == 1 then signatureOk s p a m else (s, .ok ())),
        pagesAre textPage p (a + m.textoff) m.textsize,
        forEntries (dataPageOk p a m tens) ((65535 + m.datasize) / 65536) 0,
        pagesAre pteR p a 96,
        pagesAre pteR p (a + m.relocoff) (16 * m.reloccount),
        pagesAre pteR p (a + m.tensoroff) (16 * m.tensorcount),
        pagesAre pteR p (a + m.sigoff) (if m.flags % 2 == 1 then 196 else 0),
        forEntries (tensorOk p a m) m.tensorcount 0,
        check (a % 65536 == 0),
        check (m.vlenmin ≤ r.vlen.toNat && r.vlen.toNat ≤ m.vlenmax && m.harts ≤ r.harts.toNat
          && (List.range r.harts.toNat).all fun h => m.lanes ≤ 2 ^ r.laneCode h),
        check (entryOf a m r).isSome]
      match runSteps pre s with
      | (s, .error e) => (s, .error e)
      | (s, .ok ()) =>
        match forEntries (relocate p a m) m.reloccount 0 s with
        | (s, .error e) => (s, .error e)
        | (s, .ok ()) => (dropLines s p (a + m.textoff) m.textsize, .ok (m, (entryOf a m r).getD 0))

end Sys2Proof.Machine
end

