-- ==== Sys2Proof/Machine/Inflight.lean ====
section
/-! DEFINITION. What is performed after its instruction: engine commands (R262, R265 to R269), near-memory updates
(R292, R298, R299), and what a device fault does with both (R354). -/

namespace Sys2Proof.Machine

open Sys2Proof

/-! ## Bytes of an engine's ranges -/

/-- L: bytes of a bank slot (R195). -/
def Core.slotBytes (c : Core) : Nat := (c.bnd1.toNat - c.bnd0.toNat) / 16
/-- The bank slot a pool address of the codebook region lies in. -/
def Core.slotOf (c : Core) (a : Nat) : Option (BitVec 4) :=
  if c.bnd0.toNat ≤ a && a < c.bnd1.toNat then some (BitVec.ofNat 4 ((a - c.bnd0.toNat) / c.slotBytes)) else none
def Core.bank (c : Core) (k : BitVec 4) : Bank := c.banks[k.toNat]'(k.isLt)
def Core.setBank (c : Core) (k : BitVec 4) (b : Bank) : Core := { c with banks := c.banks.set k.toNat b (k.isLt) }
def Core.bankBase (c : Core) (k : BitVec 4) : Nat := c.bnd0.toNat + k.toNat * c.slotBytes

/-- ew: bytes of a value of the bank's format; U: its used size (R196). -/
def Bank.ew (b : Bank) : Nat := match fmtOf b.fmt.toNat with
  | some f => f.bits / 8
  | none => 0
def Bank.used (b : Bank) : Nat := b.cnt * 2 ^ b.lgg.toNat * b.ew

/-- The key of byte a of a command's range. -/
def engKey (s : State) (l k : Nat) (pool : Bool) (pgs : List TlbEntry) (a : Nat) : Nat :=
  if pool then poolKey l k a else (pageOf pgs a).key (s.part (s.launch l).part).dies a

/-- What an engine reads at byte a: slot bytes at or beyond U read as zero (R196). -/
def engByte (s : State) (l k : Nat) (pool : Bool) (pgs : List TlbEntry) (a : Nat) : Byte :=
  let c := s.core l k
  match (if pool then c.slotOf a else none) with
  | some b => if (c.bank b).used ≤ a - c.bankBase b then 0 else s.peek (poolKey l k a)
  | none => s.peek (engKey s l k pool pgs a)

/-- The address, through these pages, of a byte of global memory. -/
def throughPages (dies : BitVec 4) (pgs : List TlbEntry) (key : Nat) : Option (TlbEntry × Nat) :=
  match keyAddr dies key with
  | none => none
  | some (t, pa) => (pgs.find? fun e => pteTier e.pte == t && e.frame ≤ pa && pa < e.frame + 65536).map fun e => (e, 65536 * e.vpn + (pa - e.frame))

/-- The ranges of bytes that a command writes and reads, as first address and length. -/
def EngOp.dest : EngOp → List (Nat × Nat)
  | .copy d _ n => [(d, n)]
  | .copy2 d _ rows bytes _ dp => (List.range rows).map fun j => (d + j * dp, bytes)
  | .fill d n _ _ => [(d, n)]
  | .dec d _ _ b count _ => [(d, (count * b + 7) / 8)]
def EngOp.source : EngOp → List (Nat × Nat)
  | .copy _ a n => [(a, n)]
  | .copy2 _ a rows bytes sp _ => (List.range rows).map fun j => (a + j * sp, bytes)
  | .fill _ _ _ _ => []
  | .dec _ a n _ _ _ => [(a, n)]
/-- An address lies in one of these ranges. -/
def inRanges (l : List (Nat × Nat)) (a : Nat) : Bool := l.any fun r => r.1 ≤ a && a < r.1 + r.2
/-- The addresses of these ranges. -/
def rangeAddrs (l : List (Nat × Nat)) : List Nat := l.flatMap fun r => (List.range r.2).map (r.1 + ·)

/-- A byte of global memory is a destination byte of a command of the hart that has not completed. An access that reaches it is one
through another virtual address, since the interlock table holds up those through the same, and may see any value that it has
held (R264). -/
def engDest (s : State) (hid : HartId) (key : Nat) : Bool :=
  let dies := (s.part (s.launch hid.l).part).dies
  (s.core hid.l hid.k).engines.any fun e => e.hid == hid.h && !e.dPool &&
    (throughPages dies e.dPages key).any fun x => inRanges e.op.dest x.2
/-- A command of the hart with a destination in global memory has not completed. -/
def engOut (s : State) (hid : HartId) : Bool := (s.core hid.l hid.k).engines.any fun e => e.hid == hid.h && !e.dPool

/-- A read has found v at these keys: a destination byte of a command of the hart that has not completed may give any value that it
has held (R264); the others stay. -/
def aliasRead (s : State) (hid : HartId) : List Nat → Nat → State × Nat
  | [], _ => (s, 0)
  | k :: t, v =>
    let (s, b) := if engDest s hid k then heldElt s [k] else (s, v % 256)
    let (s, r) := aliasRead s hid t (v / 256)
    (s, b + 256 * r)
/-- The same where the hart has such a command at all. -/
def aliased (s : State) (hid : HartId) (ks : List Nat) (v : Nat) : State × Nat :=
  if engOut s hid && ks.any (engDest s hid) then aliasRead s hid ks v else (s, v)

/-- Bytes of a global source that may give an earlier value, each with one of the values it has held: those last written through the
other kind of mapping (R340), and those that another command of the hart writes (R264). The state after the choices, and the one
in which the engine finds them. -/
def engSees (s : State) (hid : HartId) (pool : Bool) (pgs : List TlbEntry) (reads : List Nat) : State × State :=
  let dies := (s.part (s.launch hid.l).part).dies
  let find (c : Bool) (ks : List Nat) : List Nat := ks.filter fun key =>
    (throughPages dies pgs key).any fun x => pteC x.1.pte == c && reads.contains x.2 && (c || !settledFor s hid key)
  let alias_ : List Nat := if engOut s hid then (reads.map fun a => (pageOf pgs a).key dies a).filter (engDest s hid) else []
  (if pool then [] else find true s.uncachedW ++ find false (s.cachedW.map (·.1)) ++ alias_).foldl (fun (s, t) key =>
    let (s, b) := heldElt s [key]
    (s, { t with fresh := s.fresh }.poke key (BitVec.ofNat 8 b))) (s, s)
/-- A read at addresses of a range, through these pages, needs a unit with an uncorrectable error (R372). -/
def engBad (s : State) (l k : Nat) (pool : Bool) (pgs : List TlbEntry) (reads : List Nat) : State × Bool :=
  needsAny s (reads.map fun a => (!pool && pteC (pageOf pgs a).pte, engKey s l k pool pgs a))

/-! ## rANS (R268, R269) -/

/-- The little-endian number in n bytes at offset o of a stream's first sN bytes; bytes beyond it read as zero. -/
def streamNum (f : Nat → Byte) (sn o : Nat) : Nat → Nat
  | 0 => 0
  | n + 1 => (if o < sn then (f o).toNat else 0) + 256 * streamNum f sn (o + 1) n

/-- A stream header as R268 checks it: symbol width, count, frequencies. -/
structure Rans where
  b : Nat
  n : Nat
  freq : List Nat

/-- The fields of a header before its frequencies keep R268's constraints: the symbol width. -/
def ransWidth (f : Nat → Byte) (sn : Nat) : Option Nat :=
  let num (o k : Nat) := streamNum f sn o k
  let b := num 4 1
  if sn < 16 || num 0 4 ≠ 0x534E4150 || !(b == 2 || b == 4 || b == 8) || num 5 3 ≠ 0 || 2 ^ 32 ≤ num 8 8 then none else some b
/-- Bytes of a header and its frequencies. -/
def ransSize (b : Nat) : Nat := 16 + 2 ^ (b + 1)
def ransHeader (f : Nat → Byte) (sn : Nat) : Option Rans :=
  match ransWidth f sn with
  | none => none
  | some b =>
    let fr := (List.range (2 ^ b)).map fun i => streamNum f sn (16 + 2 * i) 2
    if sn < ransSize b + 128 || fr.sum ≠ 4096 then none else some ⟨b, streamNum f sn 8 8, fr⟩

/-- The symbol of a slot, its frequency and its cumulative frequency. -/
def ransSym : List Nat → Nat → Nat → Nat → Nat × Nat × Nat
  | [], sym, cum, _ => (sym, 0, cum)
  | f :: t, sym, cum, slot => if slot < cum + f then (sym, f, cum) else ransSym t (sym + 1) (cum + f) slot

/-- R269: n symbols from index i, with the states and the word offset. -/
def ransRun (f : Nat → Byte) (sn : Nat) (fr : List Nat) : Nat → Nat → List Nat → Nat → List Nat
  | 0, _, _, _ => []
  | n + 1, i, xs, w =>
    let j := i % 32
    let x := xs.getD j 0
    let slot := x % 4096
    let (sym, fs, cum) := ransSym fr 0 0 slot
    let y := fs * (x / 4096) + slot - cum
    let (y, w) := if y < 65536 then ((65536 * y + streamNum f sn w 2) % 2 ^ 32, w + 2) else (y, w)
    sym :: ransRun f sn fr n (i + 1) (xs.set j y) w

/-- Symbols of b bits packed from the low end (R68). -/
def packSyms (b : Nat) : List Nat → Nat
  | [] => 0
  | x :: t => x % 2 ^ b + 2 ^ b * packSyms b t

/-- The decoded destination bytes of a stream whose header was read at issue. -/
def ransBytes (f : Nat → Byte) (sn : Nat) (r : Rans) : List Byte :=
  let h := 16 + 2 ^ (r.b + 1)
  let xs := (List.range 32).map fun i => streamNum f sn (h + 4 * i) 4
  toBytes ((r.n * r.b + 7) / 8) (packSyms r.b (ransRun f sn r.freq r.n 0 xs (h + 128)))

/-! ## Performing an engine command (R262) -/

/-- What the command writes: pieces of (destination address, bytes). -/
def engPieces (s : State) (l k : Nat) (e : Engine) : List (Nat × List Byte) :=
  let src (a : Nat) : Byte := engByte s l k e.sPool e.sPages a
  let run (a n : Nat) : List Byte := (List.range n).map fun i => src (a + i)
  match e.op with
  | .copy d a n => [(d, run a n)]
  | .copy2 d a rows bytes sp dp => (List.range rows).map fun j => (d + j * dp, run (a + j * sp) bytes)
  | .fill d n w v => [(d, (List.range n).map fun j => BitVec.ofNat 8 (v.toNat / 256 ^ (j % w)))]
  | .dec d a n b m fr => [(d, ransBytes (fun o => src (a + o)) n ⟨b, m, fr⟩)]
/-- The bytes of pieces whose addresses satisfy a predicate. -/
def pickPieces (f : Nat → Bool) (l : List (Nat × List Byte)) : List (Nat × List Byte) :=
  l.flatMap fun (a, bs) => ((List.range bs.length).zip bs).filterMap fun x => if f (a + x.1) then some (a + x.1, [x.2]) else none
/-- The pieces that the command has not written before its completion. -/
def engRest (e : Engine) (l : List (Nat × List Byte)) : List (Nat × List Byte) :=
  if e.moved.isEmpty then l else pickPieces (fun a => !e.moved.contains a) l

/-- Split [a, a + n) at 64 KiB pages. -/
def byPage (a : Nat) (bs : List Byte) : Nat → List (Nat × List Byte)
  | 0 => []
  | n + 1 =>
    let k := 65536 - a % 65536
    if bs.length ≤ k then [(a, bs)] else (a, bs.take k) :: byPage (a + k) (bs.drop k) n

/-- Write one piece of a command's destination. -/
def engPut (s : State) (l k : Nat) (e : Engine) (a : Nat) (bs : List Byte) : State :=
  if e.dPool then s.pokes (poolKey l k a) bs
  else
    (byPage a bs (bs.length / 65536 + 2)).foldl (fun s (a, bs) =>
      let ks := (List.range bs.length).map fun i => engKey s l k false e.dPages (a + i)
      putBytes s (s.launch l).part l (pageOf e.dPages a) a ks bs) s

/-- R197: the bank's state after the engine's write has completed. -/
def engBank (c : Core) (e : Engine) (wrote : Bool) : Core :=
  match e.dstBank with
  | none => c
  | some b =>
    if !wrote then c
    else
      let k := c.bank b
      match k.st with
      | .invalid => c.setBank b { k with cnt := 0, lnd := true, src := 0 }
      | _ =>
        let plain : Option Nat := match e.op with
          | .copy d a n => if !e.sPool && a ≠ 0 && d == c.bankBase b && k.used ≤ n then some a else none
          | _ => none
        match plain with
        | some a => c.setBank b { k with st := .clean, src := BitVec.ofNat 64 a, reload := false }
        | none => c.setBank b { k with st := .dirty, src := 0 }

/-- Write pieces of a command's destination; none where one merges into a bad unit. -/
def engStore (s : State) (l k : Nat) (e : Engine) (pieces : List (Nat × List Byte)) : Got Unit :=
  let wk := pieces.flatMap fun (a, bs) => (List.range bs.length).map fun i => engKey s l k e.dPool e.dPages (a + i)
  let (s, merge) := if e.dPool then memUnits s wk else agentUnits s wk
  if merge then .dfault s 1 else .ok (pieces.foldl (fun s (a, bs) => engPut s l k e a bs) s) ()

/-- Read a command's source: the state after the choices, and the pieces that it writes. -/
def engRead (s : State) (l k : Nat) (e : Engine) : Got (List (Nat × List Byte)) :=
  let reads := rangeAddrs e.op.source
  let (s, bad) := engBad s l k e.sPool e.sPages reads
  if bad then .dfault s 1
  else
    let s := if e.sPool then s else noteDeadKeys s (s.launch l).part (reads.map (engKey s l k false e.sPages))
    let (s, t) := engSees s ⟨l, k, e.hid⟩ e.sPool e.sPages reads
    .ok s (engPieces t l k e)

/-- Perform an engine command: write the rest of its destination, remove its table entries, and make its tag Done. -/
def engPerform (s : State) (l k : Nat) (e : Engine) : Got Unit :=
  match engRead s l k e with
  | .ok s pieces =>
    match engStore s l k e (engRest e pieces) with
    | .ok s _ =>
      .ok (s.updCore l k fun c =>
        let c := engBank c e (e.op.dest.any (0 < ·.2))
        { c with engines := c.engines.filter (· != e), tagDone := c.tagDone ||| (1#64 <<< e.tag.toNat) }) ()
    | r => r
  | .wait s w => .wait s w
  | .dfault s d => .dfault s d

/-- Write those of these destination bytes that the command has not written yet: it writes its bytes in no defined order, before it
completes (R262). -/
def engTransfer (s : State) (l k : Nat) (e : Engine) (dst : List Nat) : Got Unit :=
  match engRead s l k e with
  | .ok s pieces =>
    let pieces := pickPieces dst.contains (engRest e pieces)
    match engStore s l k e pieces with
    | .ok s _ =>
      .ok (s.updCore l k fun c =>
        { c with engines := c.engines.map fun x => if x == e then { x with moved := pieces.map (·.1) ++ x.moved } else x }) ()
    | r => r
  | .wait s w => .wait s w
  | .dfault s d => .dfault s d

/-! ## Near-memory updates (R298, R299) -/

/-- The keys of n bytes: a row lies in one mapping, whose bytes follow one another (R293). -/
def Loc.keys (s : State) (p : Nat) (a : Loc) (n : Nat) : List Nat :=
  let dies := (s.part p).dies
  (List.range n).map fun i => if pteTier a.e.pte = 0 then hbmKey dies (a.e.pa a.va + i) else sadKey dies (a.e.pa a.va + i)
/-- Byte b further on in a row. -/
def Loc.at (a : Loc) (b : Nat) : Loc := ⟨a.va + b, { a.e with frame := a.e.pa a.va + b - (a.va + b) % 65536 }⟩
def Loc.get (s : State) (p : Nat) (a : Loc) (n : Nat) : Nat := ofBytes ((a.keys s p n).map s.peek)
/-- What a near-memory update of a hart reads there (R264). -/
def Loc.read (s : State) (hid : HartId) (a : Loc) (n : Nat) : State × Nat :=
  aliased s hid (a.keys s (s.partOf hid) n) (a.get s (s.partOf hid) n)
def Loc.put (s : State) (p : Nat) (a : Loc) (n v : Nat) : State := homeWrite s p (a.keys s p n) (toBytes n v)

/-- The places an update touches, and the bytes of each. -/
def NbOp.locs : NbOp → List (Loc × Nat)
  | .add bf a _ => [(a, if bf then 2 else 4)]
  | .pair a _ => [(a, 4)]
  | .sgdm _ p m _ => [(p, 4), (m, 4)]
  | .adam _ p m v _ => [(p, 4), (m, 4), (v, 4)]
def NbItem.locs (i : NbItem) : List (Loc × Nat) := i.op.locs

/-- R299, .sgdm: the new momentum and parameter. -/
def sgdmStep (hp : NbHyper) (p m g : Nat) : Nat × Nat :=
  let m := (f32Round ((f32 hp.b1.toNat).fma .plain (f32 m) (f32 g))).1
  (m, (f32Add p (f32Neg (f32Mul hp.lr.toNat m).1)).1)

/-- R299, .adam: the new m, v and parameter. -/
def adamStep (hp : NbHyper) (p m v g : Nat) : Nat × Nat × Nat :=
  let m := (f32Round ((f32 hp.b1.toNat).fma .plain (f32 m) (f32 (f32Mul hp.a1.toNat g).1))).1
  let v := (f32Round ((f32 hp.b2.toNat).fma .plain (f32 v) (f32 (f32Mul hp.a2.toNat (f32Mul g g).1).1))).1
  let q := (f32Div (f32Mul m hp.c1.toNat).1 (f32Add (f32Sqrt (f32Mul v hp.c2.toNat).1).1 hp.eps.toNat).1).1
  (m, v, (f32Add p (f32Neg (f32Mul hp.lr.toNat q).1)).1)

/-- BF16 plus BF16, rounded once to BF16. -/
def bf16Sum (a u : Nat) : Nat := (FFmt.bf16.round ((FFmt.bf16.value a).add .plain (FFmt.bf16.value u)).1 .plain).1

/-- Perform one update of a hart, without its integrity check. -/
def NbOp.apply (s : State) (hid : HartId) : NbOp → State
  | .add true a u =>
    let (s, v) := a.read s hid 2
    a.put s (s.partOf hid) 2 (bf16Sum v u.toNat)
  | .add false a u =>
    let (s, v) := a.read s hid 4
    a.put s (s.partOf hid) 4 (f32Add v u.toNat).1
  | .pair a u =>
    let (s, w) := a.read s hid 4
    a.put s (s.partOf hid) 4 (bf16Sum (w % 65536) (u.toNat % 65536) + 65536 * bf16Sum (w / 65536) (u.toNat / 65536))
  | .sgdm hp x m g =>
    let (s, a) := x.read s hid 4
    let (s, b) := m.read s hid 4
    let (m', x') := sgdmStep hp a b g.toNat
    x.put (m.put s (s.partOf hid) 4 m') (s.partOf hid) 4 x'
  | .adam hp x m v g =>
    let (s, a) := x.read s hid 4
    let (s, b) := m.read s hid 4
    let (s, c) := v.read s hid 4
    let (m', v', x') := adamStep hp a b c g.toNat
    x.put (v.put (m.put s (s.partOf hid) 4 m') (s.partOf hid) 4 v') (s.partOf hid) 4 x'

/-- Perform one update of a hart (R292): the lines of its rows are recalled, and no copy of them stays in a cache (R294); a unit that it
reads may hold an uncorrectable error (R372). -/
def nbPerform (s : State) (hid : HartId) (i : NbItem) : Got Unit :=
  let p := s.partOf hid
  let rows := i.span.flatMap fun (a, n) => a.keys s p n
  let words := i.locs.flatMap fun (a, n) => a.keys s p n
  let (s, lost) := recallLines s true true false rows
  if lost || memBad s words then .dfault s 1
  else .ok (reconcile (i.op.apply (noteDeadKeys s p words) hid) rows) ()
/-- The row lines that hold bytes of a row, and those that share a column line with one of them (R230, R294, R308). -/
def Loc.lines (s : State) (p : Nat) (a : Loc) (n : Nat) : List Nat :=
  let dies := (s.part p).dies
  (a.keys s p n).map (· / 64) ++ (List.range (n / 64 + 2)).flatMap fun i =>
    let va := a.va / 64 * 64 + 64 * i
    if a.va + n ≤ va then [] else crossLines dies (a.at (max va a.va - a.va)).e (max va a.va)

/-! ## The order before a save (R351) -/

/-- Before a save a launch's engine commands complete, then its near-memory commands are performed, then its pooled lookups complete:
one of stage n happens once those before it have (log 32). -/
def stageOpen (s : State) (l n : Nat) : Bool :=
  (s.launch l).phase != .halted
  || ((n == 0 || s.cores.all fun x => x.1.1 != l || x.2.engines.isEmpty)
      && (n ≤ 1 || s.harts.all fun x => x.1.l != l || x.2.nb.isEmpty))

/-! ## Device faults (R354) -/

/-- Perform, or drop, each thing in flight of a launch that a device fault discards: a free choice for each. -/
def scatterLaunch (s : State) (l : Nat) : State :=
  let s := (s.cores.filter (·.1.1 == l)).foldl (fun s ((_, k), c) =>
    c.engines.foldl (fun s e =>
      let (s, b) := s.choose 2
      if b == 0 then s else match engPerform s l k e with
        | .ok s _ => s
        | .wait s _ => s
        | .dfault s _ => s) s) s
  (s.harts.filter (·.1.l == l)).foldl (fun s (id, h) =>
    h.nb.foldl (fun s i =>
      let (s, b) := s.choose 2
      if b == 0 then s else match nbPerform s id i with
        | .ok s _ => s
        | .wait s _ => s
        | .dfault s _ => s) s) s

/-- A posted store that a device fault of its partition lets happen, where this module is its target. -/
def landPosted (s : State) (x : Posted) : State :=
  if x.mod != s.md.modId || x.mod.isNone then s
  else match peerKeys s x.pa x.bytes.length with
    | none => s
    | some ks => (List.range ks.length).foldl (fun s i => countPut s (x.pa + i)) (homePut s (s.md.boundPart.getD 0) ks (x.bytes.map (·.2))).1

/-- A device fault of a partition: every launch of it is discarded with status 4 (R354). -/
def deviceFault (s : State) (p detail : Nat) : State :=
  let s := (s.launchesOf p).foldl scatterLaunch s
  let s := (s.posted.filter fun x => s.partOf x.h == p).foldl (fun s x =>
    let (s, b) := s.choose 2
    if b == 0 then s else landPosted s x) s
  (discardLaunches s p 4 detail).updPart p fun x => { x with clreds := [] }

/-- How an A-side instruction ends whose access meets a device fault. -/
def faulted (s : State) (detail : Nat) : AOut := .left (deviceFault s (s.partOf s.cur) detail)
/-- How it ends where a check fails: a walk that met an uncorrectable error is a device fault (R274), any other failure a trap. -/
def accTrap (s : State) (f : AccFault) (eix bound : Nat) : AOut :=
  if f.1 = eccCause then faulted s 1 else .trap s f.1 (BitVec.ofNat 64 f.2) eix bound

end Sys2Proof.Machine
end

