-- ==== Sys2Proof/Machine/Access.lean ====
section
/-! DEFINITION. Accesses of a hart to virtual memory: checks, waits, reads, writes and atomics on every tier. -/

namespace Sys2Proof.Machine

open Sys2Proof

/-! ## Checks -/

/-- The checks of R245, R247, R251 on the bytes [a, a + n): translation of every byte first, then permission. -/
def check67 (s : State) (hid : HartId) (acc : Acc) (a n : Nat) (far : Bool := false) : State × Except AccFault (List TlbEntry) :=
  let h := s.hart hid
  match checkRange s (s.partOf hid) h.root h.sup acc a n far with
  | (s, .error (7, v)) =>
    -- a later byte may still fail translation, which is checked first
    match checkByte s (s.partOf hid) h.root h.sup acc (a + n - 1) far with
    | (s, .error (6, _)) => (s, .error (6, max a (65536 * ((a + n - 1) / 65536))))
    | (s, _) => (s, .error (7, v))
  | r => r

/-! ## Waits -/

/-- A posted store to this module's own memory, of the hart or one that happens before its access, reaches one of the keys (R332,
R336). -/
def postedAlias (s : State) (hid : HartId) (ks : List Nat) : Bool :=
  (s.before hid).any fun p => p.mod.isSome && p.mod == s.md.modId
    && p.bytes.any fun b => match peerKey s (p.pa + b.1) with
      | some k => ks.contains k
      | none => false

/-- A near-memory update of the hart that an earlier command sent, to one of the bytes. -/
def nbPending (s : State) (hid : HartId) (ks : List Nat) : Bool :=
  (s.hart hid).nb.any fun i => i.locs.any fun (a, n) => (a.keys s (s.partOf hid) n).any ks.contains

/-- A row of a pooled lookup of the hart, of those that `f` accepts, has not been read yet and reaches one of the bytes (R308). -/
def poolReads (s : State) (hid : HartId) (ks : List Nat) (f : Pool → Bool := fun _ => true) : Bool :=
  (s.hart hid).lq.toList.any fun q => q.any fun e => e.pool.any fun p => f p && p.left.any fun b =>
    let g := p.bags.getD b (0, 0)
    p.rows.any fun r => g.1 ≤ r.1 && r.1 < g.2 && (r.2.keys s (s.partOf hid) (p.d * if p.half then 2 else 4)).any ks.contains
/-- What a write of the hart to these bytes waits for: pooled lookups that a release fence of it covers, and those that read them
(R308, R332, R335). -/
def writeWait (s : State) (hid : HartId) (ks : List Nat) : Option Wait :=
  if readsOut (s.hart hid) && (poolOut (s.hart hid) (·.rel) || poolReads s hid ks) then some .reads else none
/-- What a read of the hart at these bytes waits for: pooled lookups of it that read them too (R332). -/
def readWait (s : State) (hid : HartId) (ks : List Nat) : Option Wait :=
  if readsOut (s.hart hid) && poolReads s hid ks then some .reads else none

/-- What the access of a hart to [va, va + n) of one page waits for: an interlock entry, another hart's lease, the pooled lookups of the
hart that stand before it, or its own posted stores to the same bytes. -/
def blockedBy (s : State) (hid : HartId) (e : TlbEntry) (va n : Nat) (write : Bool) (col : Option (Int × Nat) := none) : Option Wait :=
  if e.isLocal then
    let ks := keysOf s (s.partOf hid) [e] va n
    match heldUp s hid [e] va n write col with
    | some w => some w
    | none =>
      match (if write then writeWait s hid ks else readWait s hid ks) with
      | some w => some w
      | none => if !s.posted.isEmpty && postedAlias s hid ks then some .posted else none
  else if interlocked (s.core hid.l hid.k) hid.h false va (va + n) then some .interlock
  else
    let ks := if e.isSelf s then (peerKeys s (e.pa va) n).getD [] else []
    match (if write then writeWait s hid ks else readWait s hid ks) with
    | some w => some w
    | none => if postedTo s hid e va n then some .posted else none

/-! ## Reads and writes -/

/-- How an access ends that reaches other modules or the host. -/
inductive Acted (α : Type) where
  | ok (s : State) (v : α)
  | wait (s : State) (w : Wait)
  | dfault (s : State) (detail : Nat)
  /-- The target rejects the address (R313). -/
  | reject (s : State)

/-- The hart is to stop at its next element boundary: its launch is being pre-empted or stopped, or its X side has met a trap (R111, R112). -/
def stopping (s : State) (hid : HartId) : Bool := (s.launch hid.l).preempt || (s.launch hid.l).stop || (s.hart hid).xstop
/-- Send a request to another module or the host, once, and wait for its answer; a hart that is to stop sends none. Where no Spoke
link is left, a peer access is rejected (R315). -/
def ask {α : Type} (s : State) (hid : HartId) (i : Nat) (e : TlbEntry) (va : Nat) (op : PeerOp) : Acted α :=
  if pteTier e.pte == 2 && s.md.linkOk == 0 then .reject s
  else if (s.hart hid).wait == some (.peer i) then .wait s (.peer i)
  else if stopping s hid then .wait s .boundary
  else
    let m : Sent := .request hid (if pteTier e.pte == 2 then some (pteMod e.pte) else none) (e.pa va) op
    .wait { s with md := { s.md with sent := m :: s.md.sent } } (.peer i)

/-- The keys of [va, va + n) that an access of a hart over this module's own links reaches, and what holds it up: another hart's lease, or
an access that arrived before it at one (R238, R311). -/
def selfKeys (s : State) (hid : HartId) (e : TlbEntry) (va n : Nat) (write : Bool) : Option (List Nat × Option Wait) :=
  (peerKeys s (e.pa va) n).map fun ks => (ks, ((arrivedBefore s hid).orElse fun _ => keysLeased s (some hid) write ks).map .lease)

/-- What a read returned came from these keys. -/
def readDone (s : State) (hid : HartId) (ks : List Nat) (v : Nat) : State × Nat :=
  aliased (hear s hid ks) hid ks v
/-- The hart observes what stands at these keys, but for what it may not have read there (R264, R341). -/
def observeNow (s : State) (hid : HartId) (ks : List Nat) : State := observe s hid s.epoch (ks.filter fun k => !engDest s hid k)
/-- A read at the home directory of keys of this module, for a hart of it (R311). -/
def homeRead (s : State) (hid : HartId) (ks : List Nat) : Got Nat :=
  let (s, bad) := needsBad s true ks
  if bad then .dfault s 1
  else
    let r := readDone (observeNow (noteDeadKeys s (s.md.boundPart.getD 0) ks) hid ks) hid ks (ofBytes (ks.map s.peek))
    .ok r.1 r.2

/-- Read n bytes of one page: element `i` of the instruction, of a `.c` form with pitch and width where `col` gives them. A bad unit of
this module that it reaches over its own links is a device fault of the hart's partition (log 73). -/
def readAt (s : State) (hid : HartId) (i : Nat) (e : TlbEntry) (va n : Nat) (col : Option (Int × Nat) := none) : Acted Nat :=
  match blockedBy s hid e va n false col with
  | some w => .wait s w
  | none =>
    if e.isLocal then
      match readElt s hid [e] va n (fun k => !engDest s hid k) with
      | .ok s v => let r := readDone s hid (keysOf s (s.partOf hid) [e] va n) v; .ok r.1 r.2
      | .wait s w => .wait s w
      | .dfault s d => .dfault s d
    else if e.isSelf s then
      match selfKeys s hid e va n false with
      | none => .reject s
      | some (_, some w) => .wait s w
      | some (ks, none) => match homeRead s hid ks with
        | .ok s v => .ok s v
        | .wait s w => .wait s w
        | .dfault s d => .dfault s d
    else match answerOf (s.hart hid) i with
      | .value v => .ok s (v % 2 ^ (8 * n))
      | .rejected => .reject s
      | .unanswered => ask s hid i e va (.load n)

/-- Write bytes to one page; `rels` is what the write carries as a release where it is posted (R335). -/
def writeAt (s : State) (hid : HartId) (e : TlbEntry) (va : Nat) (bs : List Byte) (rels : List (Nat × List Nat) := []) : Acted Unit :=
  if e.isLocal then
    match blockedBy s hid e va bs.length true with
    | some w => .wait s w
    | none =>
      match writeElt s hid [e] va bs with
      | .ok s v => .ok (announce s hid (keysOf s (s.partOf hid) [e] va bs.length) (s.hart hid).fenced false) v
      | .wait s w => .wait s w
      | .dfault s d => .dfault s d
  else if interlocked (s.core hid.l hid.k) hid.h false va (va + bs.length) then .wait s .interlock
  else match writeWait s hid (if e.isSelf s then (peerKeys s (e.pa va) bs.length).getD [] else []) with
    | some w => .wait s w
    | none => .ok (postStore s hid e va bs rels) ()

/-- Bytes of [a, a + n) on the page of a. -/
def firstPart (a n : Nat) : Nat := min n (65536 - a % 65536)

/-- Read [a, a + n), which may cross from one page into the next. -/
def loadBytes (s : State) (hid : HartId) (i : Nat) (pgs : List TlbEntry) (a n : Nat) : Acted Nat :=
  let k := firstPart a n
  match readAt s hid i (pageOf pgs a) a k with
  | .ok s v =>
    if k = n then .ok s v
    else match readAt s hid (i + 1) (pageOf pgs (a + k)) (a + k) (n - k) with
      | .ok s w => .ok s (v + 256 ^ k * w)
      | r => r
  | r => r

/-- Write bytes from a on, which may cross from one page into the next; neither part is written while one waits. -/
def storeBytes (s : State) (hid : HartId) (pgs : List TlbEntry) (a : Nat) (bs : List Byte) (rels : List (Nat × List Nat) := []) : Acted Unit :=
  let k := firstPart a bs.length
  if k = bs.length then writeAt s hid (pageOf pgs a) a bs rels
  else
    match (if (pageOf pgs (a + k)).isLocal then blockedBy s hid (pageOf pgs (a + k)) (a + k) (bs.length - k) true else none) with
    | some w => .wait s w
    | none =>
      match writeAt s hid (pageOf pgs a) a (bs.take k) rels with
      | .ok s _ => writeAt s hid (pageOf pgs (a + k)) (a + k) (bs.drop k) rels
      | r => r

/-! ## Atomics (R245, R254) -/

/-- The value an atomic leaves: w bytes, operand x, and n for a compare-and-swap that expects x. -/
def atomNew (op : AtomOp) (w old x n : Nat) : Nat :=
  let m := 2 ^ (8 * w)
  let x := x % m
  match op with
  | .add => (old + x) % m
  | .and => old &&& x
  | .or => old ||| x
  | .xor => old ^^^ x
  | .min => if sint (8 * w) x < sint (8 * w) old then x else old
  | .max => if sint (8 * w) old < sint (8 * w) x then x else old
  | .swp => x
  | .fadd => (f32Add old x).1
  | .cas => if old = x then n % m else old

/-- One indivisible read and write of w bytes at a checked address; it answers the old value. -/
def atomicAt (s : State) (hid : HartId) (i : Nat) (e : TlbEntry) (va w : Nat) (op : AtomOp) (x n : Dbl) : Acted Nat :=
  match blockedBy s hid e va w true with
  | some w => .wait s w
  | none =>
    if e.isLocal then
      let ks := keysOf s (s.partOf hid) [e] va w
      match readElt s hid [e] va w (fun k => !engDest s hid k) with
      | .ok s v =>
        let (s, old) := readDone s hid ks v
        match writeElt s hid [e] va (toBytes w (atomNew op w old x.toNat n.toNat)) with
        | .ok s _ => .ok (announce s hid ks (s.hart hid).fenced true) old
        | .wait s w => .wait s w
        | .dfault s d => .dfault s d
      | .wait s w => .wait s w
      | .dfault s d => .dfault s d
    else if e.isSelf s then
      match selfKeys s hid e va w true with
      | none => .reject s
      | some (_, some w) => .wait s w
      | some (ks, none) => match homeRead s hid ks with
        | .ok s old =>
          let (s, lost) := homePut s (s.md.boundPart.getD 0) ks (toBytes w (atomNew op w old x.toNat n.toNat))
          if lost then .dfault s 1 else .ok (announce s hid ks (s.hart hid).fenced true) old
        | .wait s w => .wait s w
        | .dfault s d => .dfault s d
    else match answerOf (s.hart hid) i with
      | .value v => .ok s (v % 2 ^ (8 * w))
      | .rejected => .reject s
      | .unanswered => ask s hid i e va (.atom op (w == 8) x n)

/-- The keys of an access that this module's memory holds, for what its ordering operand leaves behind (R335). A posted store leaves
nothing at its home before it is performed there (`posted`). -/
def orderKeys (s : State) (hid : HartId) (pgs : List TlbEntry) (va n : Nat) (posted : Bool := false) : List Nat :=
  (List.range n).filterMap fun i =>
    let e := pageOf pgs (va + i)
    if e.isLocal then some (e.key (s.part (s.partOf hid)).dies (va + i)) else if e.isSelf s && !posted then peerKey s (e.pa (va + i)) else none

end Sys2Proof.Machine
end

