-- ==== Sys2Proof/Machine/Memory.lean ====
section
/-! DEFINITION. Scalar loads, stores and atomics, leases and cache maintenance (group 0x2, R236 to R248). -/

namespace Sys2Proof.Machine

open Sys2Proof

/-- A trap of an access fault. -/
def trapAcc (s : State) (f : AccFault) (eix bound : Nat) : AOut := accTrap s f eix bound

/-- How an access that ended without a value ends its instruction (a rejection is an access fault at `va`, R313). -/
def Acted.aout {α : Type} (r : Acted α) (va eix bound : Nat) (f : State → α → AOut) : AOut :=
  match r with
  | .ok s v => f s v
  | .wait s w => .wait s w
  | .dfault s d => faulted s d
  | .reject s => .trap s 7 (BitVec.ofNat 64 va) eix bound

/-- The count of a counted load that R236 does not accept. -/
def badCount (h : Hart) : LHint → Option Dbl
  | .ct c => if h.s c = 0 ∨ 255 < (h.s c).toNat then some (h.s c) else none
  | .none => none
  | .st => none
  | .kp => none

def Ord.isPlain : Ord → Bool
  | .plain => true
  | .ord _ _ => false

/-! ## Loads and stores (R243, R244) -/

/-- A scalar load of n bytes, extended by `ext`. -/
def loadBody (x : Load) (n : Nat) (ext : Nat → Dbl) (s : State) (h : Hart) : AOut :=
  let a := effAddr h x.b x.off
  match badCount h x.h with
  | some c => .trap s 2 c 0 0
  | none =>
    if !Ord.isPlain x.o && a % n ≠ 0 then .trap s 8 (BitVec.ofNat 64 a) 0 0
    else
      match checkRange s (s.partOf s.cur) h.root h.sup .load a n with
      | (s, .error f) => trapAcc s f 0 0
      | (s, .ok pgs) =>
        match ordBefore s s.cur false x.o with
        | some w => .wait s w
        | none => (loadBytes s s.cur 0 pgs a n).aout a 0 0 fun s v =>
            .done ((ordAfter s s.cur false (orderKeys s s.cur pgs a n) x.o).updHart s.cur fun h => h.setS x.d (ext v))

def runLoad (x : Load) (n : Nat) (signed : Bool) (s : State) : Host.Outcome State Fault Refusal :=
  aside s x.g (loadBody x n (fun v => if signed then BitVec.ofInt 64 (sint (8 * n) v) else BitVec.ofNat 64 v) s)

def execLdb (x : Load) (s : State) := runLoad x 1 false s
def execLdh (x : Load) (s : State) := runLoad x 2 false s
def execLdw (x : Load) (s : State) := runLoad x 4 false s
def execLdd (x : Load) (s : State) := runLoad x 8 false s
def execLdbs (x : Load) (s : State) := runLoad x 1 true s
def execLdhs (x : Load) (s : State) := runLoad x 2 true s
def execLdws (x : Load) (s : State) := runLoad x 4 true s

/-- A scalar store of the low n bytes of sA. -/
def storeBody (x : Store) (n : Nat) (s : State) (h : Hart) : AOut :=
  let a := effAddr h x.b x.off
  if !Ord.isPlain x.o && a % n ≠ 0 then .trap s 8 (BitVec.ofNat 64 a) 0 0
  else
    match checkRange s (s.partOf s.cur) h.root h.sup .store a n with
    | (s, .error f) => trapAcc s f 0 0
    | (s, .ok pgs) =>
      match ordBefore s s.cur false x.o with
      | some w => .wait s w
      | none => (storeBytes s s.cur pgs a (toBytes n (h.s x.a).toNat) (ordRels s s.cur x.o)).aout a 0 0 fun s _ =>
          .done (ordAfter s s.cur false (orderKeys s s.cur pgs a n true) x.o)

def runStore (x : Store) (n : Nat) (s : State) : Host.Outcome State Fault Refusal :=
  aside s x.g (storeBody x n s)

def execStb (x : Store) (s : State) := runStore x 1 s
def execSth (x : Store) (s : State) := runStore x 2 s
def execStw (x : Store) (s : State) := runStore x 4 s
def execStd (x : Store) (s : State) := runStore x 8 s

/-! ## Atomics (R245) -/

/-- A scalar atomic of w bytes at sB + off. -/
def atomicBody (op : AtomOp) (w : Nat) (d b : SReg) (off : BitVec 29) (o : Ord) (x n : Dbl) (s : State) (h : Hart) : AOut :=
  let a := effAddr h b off
  match check67 s s.cur .both a w with
  | (s, .error f) => trapAcc s f 0 0
  | (s, .ok pgs) =>
    let e := pageOf pgs a
    if a % w ≠ 0 then .trap s 8 (BitVec.ofNat 64 a) 0 0
    else if pteTier e.pte == 3 && !(w == 8 && (op == .add || op == .cas)) then .trap s 16 (BitVec.ofNat 64 a) 0 0
    else
      match ordBefore s s.cur true o with
      | some w => .wait s w
      | none => (atomicAt s s.cur 0 e a w op x n).aout a 0 0 fun s old =>
          .done ((ordAfter s s.cur true (orderKeys s s.cur pgs a w) o).updHart s.cur fun h => h.setS d (BitVec.ofNat 64 old))

def runAtom (op : AtomOp) (x : Atom) (s : State) : Host.Outcome State Fault Refusal :=
  aside s x.g fun h => atomicBody op (if x.dbl then 8 else 4) x.d x.b x.off x.o (h.s x.a) 0 s h

def execAadd (x : Atom) (s : State) := runAtom .add x s
def execAand (x : Atom) (s : State) := runAtom .and x s
def execAor (x : Atom) (s : State) := runAtom .or x s
def execAxor (x : Atom) (s : State) := runAtom .xor x s
def execAmin (x : Atom) (s : State) := runAtom .min x s
def execAmax (x : Atom) (s : State) := runAtom .max x s
def execAswp (x : Atom) (s : State) := runAtom .swp x s
def execAcas (x : Acas) (s : State) : Host.Outcome State Fault Refusal :=
  aside s x.g fun h =>
    let w := if x.dbl then 8 else 4
    atomicBody .cas w x.d x.b x.off x.o (h.s x.e) (h.s x.n) s h
def execAfadd (x : Afadd) (s : State) : Host.Outcome State Fault Refusal :=
  aside s x.g fun h => atomicBody .fadd 4 x.d x.b x.off x.o (h.s x.a) 0 s h

/-! ## Leases (R237 to R240, R246, R247) -/

def Lease.held (s : State) (x : Lease) : Bool := s.cycle < x.until_
def Hart.heldLeases (s : State) (h : Hart) : List Lease := h.leases.filter (Lease.held s)

/-- What a LEASE of a row line waits for (R237): the hart's interlock entries on its bytes (R263), pooled lookups and posted stores of the
hart, which an access to the line would wait for (R370, log 13), and other leases on the line, or on a line that crosses it. -/
def leaseWait (s : State) (e : TlbEntry) (a line : Nat) : Option Wait :=
  let dies := (s.part (s.partOf s.cur)).dies
  if interlocked s.myCore s.cur.h false (a / 64 * 64) (a / 64 * 64 + 64) then some .interlock
  else if poolOut s.me fun _ => true then some .reads
  else if postedAlias s s.cur ((List.range 64).map (64 * line + ·)) then some .posted
  else match arrivedBefore s s.cur with
    | some l => some (.leaseGrant l)
    | none =>
      if leased s s.cur true line then some (.leaseGrant line)
      else (((crossLines dies e a).find? (leasedFar s s.cur)).orElse fun _ => crossFar s s.cur [line]).map .leaseGrant

/-- R240, then the wait and the grant of R237. A LEASE of a line that the hart holds takes no new lease (R239), and no new promise of R370
(log 13). -/
def leaseBody (x : Sys2Proof.Lease) (s : State) (h : Hart) : AOut :=
  let a := effAddr h x.b x.off
  let n := x.n.toNat
  if n < 16 ∨ 64 < n then .trap s 2 (BitVec.ofNat 64 n) 0 0
  else
    match checkRange s (s.partOf s.cur) h.root h.sup .both a 1 with
    | (s, .error f) => trapAcc s f 0 0
    | (s, .ok pgs) =>
      let e := pageOf pgs a
      let held := h.heldLeases s
      if !pteC e.pte || !e.isLocal then .trap s 14 (BitVec.ofNat 64 a) 0 0
      else if held.any (fun l => l.vline == a / 64) then .done s
      else if 4 ≤ held.length then .trap s 13 (BitVec.ofNat 64 a) 0 0
      else
        let dies := (s.part (s.partOf s.cur)).dies
        let line := e.key dies (a / 64 * 64) / 64
        match leaseWait s e a line with
        | some w => .wait s w
        | none => .done (s.updHart s.cur fun h => { h with leases := held ++ [⟨a / 64, line, s.cycle + n, n / 2, crossLines dies e a⟩] })

def execLease (x : Sys2Proof.Lease) (s : State) : Host.Outcome State Fault Refusal := aside s x.g (leaseBody x s)

def execUnlease (x : Unlease) (s : State) : Host.Outcome State Fault Refusal :=
  aside s x.g fun h =>
    let a := effAddr h x.b x.off
    .done (s.updHart s.cur fun h => { h with leases := h.leases.filter fun l => l.vline != a / 64 })

/-- R247, with R282's R and W permission for an STLC. -/
def stlcBody (x : Stlc) (s : State) (h : Hart) : AOut :=
  let a := effAddr h x.b x.off
  let w := 2 ^ x.z.toNat
  match check67 s s.cur .both a w with
  | (s, .error f) => trapAcc s f 0 0
  | (s, .ok pgs) =>
    if a % w ≠ 0 then .trap s 8 (BitVec.ofNat 64 a) 0 0
    else
      match ordBefore s s.cur true x.o with
      | some w => .wait s w
      | none =>
        if interlocked (s.core s.cur.l s.cur.k) s.cur.h false a (a + w) then .wait s .interlock
        else if (pageOf pgs a).isLocal && (h.heldLeases s).any (fun l => l.vline == a / 64) then
          (writeAt s s.cur (pageOf pgs a) a (toBytes w (h.s x.a).toNat)).aout a 0 0 fun s _ =>
            .done ((ordAfter s s.cur true (orderKeys s s.cur pgs a w) x.o).updHart s.cur fun h => h.setP x.d true)
        else .done (s.updHart s.cur fun h => h.setP x.d false)

def execStlc (x : Stlc) (s : State) : Host.Outcome State Fault Refusal := aside s x.g (stlcBody x s)

/-! ## Cache maintenance (R248) -/

/-- The bytes of the named line, as (virtual address, offset from `a`'s physical address) runs: the column line of a `.c`
on an orientable mapping that has one there, else the row line. -/
def lineKeys (dies : BitVec 4) (e : TlbEntry) (a : Nat) (col : Bool) : List Nat :=
  let row := (List.range 64).map fun i => e.key dies (a / 64 * 64 + i)
  if !(col && pteOri e.pte) then row
  else
    let w := 2 ^ pteWcode e.pte
    let p := 2 ^ (ptePcode e.pte + 6)
    let m := a % 2 ^ e.lg
    let first := m / p / 16 * 16
    if 2 ^ e.lg < (first + 16) * p then row
    else
      (List.range 16).flatMap fun t => (List.range w).map fun i =>
        let pa := e.pa a - m + (first + t) * p + m % p / w * w + i
        if pteTier e.pte = 0 then hbmKey dies pa else sadKey dies pa

/-- The row lines of a list of addresses of one mapping: the named line and each line that crosses it (R230, R248), as the keys
of all their bytes. A row line is crossed by the column lines of its 16 rows, a column line by the row lines of its elements. -/
def lineAndCrossing (dies : BitVec 4) (e : TlbEntry) (a : Nat) (col : Bool) : List Nat :=
  lineKeys dies e a col ++ (if col && pteOri e.pte then (crossLines dies e a).flatMap fun l => (List.range 64).map fun i => 64 * l + i
    else if crossLines dies e a = [] then []
    else
      let w := 2 ^ pteWcode e.pte
      (List.range (64 / w)).flatMap fun c => lineKeys dies e (a / 64 * 64 + c * w) true)

/-- CFLUSH and CINV: the 1-byte load checks; on a cacheable local page, the dirty copies of the line and of each that crosses it
reach memory, where every mapping sees them once a fence follows, and for CINV no copy of them stays (R248, R340). -/
def cmaintBody (inv : Bool) (x : Cmaint) (s : State) (h : Hart) : AOut :=
  let a := effAddr h x.b x.off
  match checkRange s (s.partOf s.cur) h.root h.sup .load a 1 with
  | (s, .error f) => trapAcc s f 0 0
  | (s, .ok pgs) =>
    let e := pageOf pgs a
    let dies := (s.part (s.partOf s.cur)).dies
    if !pteC e.pte || !e.isLocal then .done s
    else
      let ks := lineAndCrossing dies e a x.col
      match (arrivedBefore s s.cur).orElse fun _ => (ks.map (· / 64)).find? (leasedFar s s.cur) with
      | some l => .wait s (.lease l)
      | none =>
        let dirty := ks.filter fun k => s.cachedW.any (·.1 == k)
        let (s, lost) := recallLines s true true (!inv) ks
        if lost then faulted s 1
        else
          .done { s with flushed := (dirty.map fun k => (s.cur, k)) ++ s.flushed.filter (fun y => !(y.1 == s.cur && dirty.contains y.2)),
                         uncachedW := if inv then s.uncachedW.filter (fun k => !ks.contains k) else s.uncachedW }

def execCflush (x : Cmaint) (s : State) : Host.Outcome State Fault Refusal := aside s x.g (cmaintBody false x s)
def execCinv (x : Cmaint) (s : State) : Host.Outcome State Fault Refusal := aside s x.g (cmaintBody true x s)

/-- CPREF never traps. A fill walks the tables, and reads every unit of the line (R372). -/
def cprefBody (x : Cpref) (s : State) (h : Hart) : AOut :=
  let a := effAddr h x.b x.off
  if 255 < (h.s x.c).toNat ∨ (x.c ≠ 0 ∧ h.s x.c = 0) then .done s
  else
    match checkByte s (s.partOf s.cur) h.root h.sup .load a with
    | (s, .error _) => .done s
    | (s, .ok e) =>
      if !pteC e.pte || !e.isLocal then .done s
      else
        let ks := lineKeys (s.part (s.partOf s.cur)).dies e a x.col
        let (s, bad) := fillBad (noteDeadKeys s (s.partOf s.cur) ks) s.cur ks []
        if bad then faulted s 1 else .done s

def execCpref (x : Cpref) (s : State) : Host.Outcome State Fault Refusal := aside s x.g (cprefBody x s)

end Sys2Proof.Machine
end

