-- ==== Sys2Proof/Machine/Vector.lean ====
section
/-! DEFINITION. Vector and scratchpad accesses, VAMO, POPX and QDROP (group 0x3, R130, R187 to R191, R249 to R255). -/

namespace Sys2Proof.Machine

open Sys2Proof

/-! ## The two phases (R251) -/

/-- An element that passed the check phase: its index, its address, and its page where it lies in global memory. -/
abbrev Elem := Nat × Nat × TlbEntry

/-- The check phase over n elements from i on: the elements that pass below the first that fails, and that failure
(index, tcause, tval). -/
def checkPhase (skip : Nat → Bool) (chk : State → Nat → State × Except (Nat × Dbl) (Nat × TlbEntry)) :
    Nat → Nat → State → State × List Elem × Option (Nat × Nat × Dbl)
  | 0, _, s => (s, [], none)
  | n + 1, i, s =>
    if skip i then checkPhase skip chk n (i + 1) s
    else match chk s i with
      | (s, .error (c, v)) => (s, [], some (i, c, v))
      | (s, .ok (a, e)) =>
        let (s, l, f) := checkPhase skip chk n (i + 1) s
        (s, (i, a, e) :: l, f)

/-- How the perform phase ends. -/
inductive Performed where
  | all (s : State)
  | wait (s : State) (i : Nat) (w : Wait)
  | dfault (s : State) (detail : Nat)
  | reject (s : State) (i a : Nat)

/-- The perform phase, in increasing index order. -/
def performPhase (act : State → Elem → Acted Unit) : List Elem → State → Performed
  | [], s => .all s
  | x :: t, s =>
    match act s x with
    | .ok s _ => performPhase act t s
    | .wait s w => .wait s x.1 w
    | .dfault s d => .dfault s d
    | .reject s => .reject s x.1 x.2.1

/-- Run both phases of the current hart's instruction from its element index to vl, then what completes it (given the
failing element, if any). A rejection by an element's target is a failure of the check phase (R313). -/
def twoPhase (s : State) (vl : Nat) (skip : Nat → Bool) (chk : State → Nat → State × Except (Nat × Dbl) (Nat × TlbEntry))
    (act : State → Elem → Acted Unit) (finish : State → Option (Nat × Nat × Dbl) → AOut) : AOut :=
  let start := s.me.eix
  let (s, els, f) := checkPhase skip chk (vl - start) start s
  match performPhase act els s with
  | .all s => finish s f
  | .wait s i w => .wait (s.updHart s.cur fun h => { h with eix := i, answers := h.answers.filter (i ≤ ·.1) }) w
  | .dfault s d => faulted s d
  | .reject s i a => finish s (some (i, 7, BitVec.ofNat 64 a))

/-- A trap at element k, or the device fault that a check met. -/
def elemTrap (s : State) (c : Nat) (v : Dbl) (k vl : Nat) : AOut := if c = eccCause then faulted s 1 else .trap s c v k vl
/-- The usual end: trap at the failing element, or complete. -/
def finishOrTrap (vl : Nat) (t : Takes) (s : State) (f : Option (Nat × Nat × Dbl)) : AOut :=
  match f with
  | some (k, c, v) => elemTrap s c v k vl
  | none => .done (s.updHart s.cur fun h => h.finishQueues t)

/-- The check of one element in global memory (R251): its address's translation, permission, then alignment; an aligned element
exists whole or not at all. -/
def checkElem (acc : Acc) (w : Nat) (addr : Nat → Nat) (s : State) (i : Nat) :
    State × Except (Nat × Dbl) (Nat × TlbEntry) :=
  let a := addr i
  let h := s.me
  match checkByte s (s.partOf s.cur) h.root h.sup acc a with
  | (s, .error (c, _)) => (s, .error (c, BitVec.ofNat 64 a))
  | (s, .ok e) =>
    (s, if a % w ≠ 0 then .error (8, BitVec.ofNat 64 a)
        else if !wholeThere s (s.partOf s.cur) e a (a + w - 1) then .error (7, BitVec.ofNat 64 a) else .ok (a, e))

/-- The check of one scratchpad element (R190). -/
def checkScratch (w size : Nat) (addr : Nat → Int) (s : State) (i : Nat) : State × Except (Nat × Dbl) (Nat × TlbEntry) :=
  let a := addr i
  (s, if a < 0 ∨ size < a + w then .error (7, BitVec.ofInt 64 a)
      else if a % w ≠ 0 then .error (8, BitVec.ofInt 64 a)
      else .ok (a.toNat, { root := 0, vpn := 0, pte := 0, frame := 0, lg := 16 }))

/-! ## Operands -/

/-- The entry an instruction pops from a queue: its n-th unclaimed one. -/
def headSq (h : Hart) (q : SQ) (n : Nat) : QEntry := (sqOpen h q).getD n {}
/-- Word i of an index entry (R188). -/
def QEntry.index (e : QEntry) (i : Nat) : Nat := e.elt i 4
/-- The check of an element whose index word is read first: an uncorrectable error in it is a device fault (R362). -/
def checkIndex (q : SQ) (ie : QEntry) (chk : State → Nat → State × Except (Nat × Dbl) (Nat × TlbEntry)) (s : State) (i : Nat) :
    State × Except (Nat × Dbl) (Nat × TlbEntry) :=
  if entryBad s s.cur (sqSlot q ie) (4 * i) (4 * i + 4) then (s, .error (eccCause, 0)) else chk s i

/-- The form of a VLD, VST, VLDS or VSTS. -/
def stridedForm (h : Hart) (p : SReg) (col : Bool) : VForm := if p = 0 then .unit else .pitch col (h.s p).toInt
/-- The pitch and width of a `.c` form, which may fetch column lines; one with hint `.st` does not (R232). -/
def colForm (h : Hart) (p : SReg) (col : Bool) (w : Nat) (hint : LHint) : Option (Int × Nat) :=
  if col && p != 0 && hint != .st then some ((h.s p).toInt, w) else none
def Hart.rows (h : Hart) : Nat := shpRows h.shp
def Hart.cols (h : Hart) : Nat := shpCols h.shp

/-- The virtual address of element i, modulo 2^64 (R188, R250). -/
def globalAddr (h : Hart) (b : SReg) (off : BitVec 29) (f : VForm) (w i : Nat) : Nat :=
  wrap 64 ((h.s b + off.signExtend 64).toInt + elemOff f w h.rows h.cols i)
/-- The scratchpad offset of element i. -/
def scratchAddr (h : Hart) (b : SReg) (off : BitVec 29) (f : VForm) (w i : Nat) : Int :=
  (h.s b + off.signExtend 64).toInt + elemOff f w h.rows h.cols i

/-- What R189 and R236 check before any element, then the claims of R119. -/
def vectorStart (s : State) (h : Hart) (w : Nat) (col twoD indexed : Bool) (hint : LHint) (t : Takes)
    (body : State → Nat → AOut) : AOut :=
  let vl := h.vl.toNat
  if formBad vl w (s.vlen s.cur) h.rows h.cols col twoD indexed then .trap s 2 h.vl h.eix vl
  else
    match badCount h hint with
    | some c => .trap s 2 c h.eix vl
    | none =>
      match claimQueues h t w with
      | .error q => .wait s q
      | .ok h => body (s.setMe h) vl

/-! ## Performing one element -/

/-- Element i of w bytes goes into the reserved lq entry at once. -/
def fillElem (q : LQ) (w i v : Nat) (s : State) : Acted Unit :=
  let r := slotWrite s s.cur (lqSlot q (lqLast s.me q)) i w
  if r.2 then .dfault r.1 1 else .ok (r.1.updHart s.cur fun h => h.updLq q fun e => e.put i w v) ()
/-- Element i of w bytes of a popped entry feeds an access. -/
def drainElem (q : SQ) (d : QEntry) (w i : Nat) (s : State) (k : State → Acted Unit) : Acted Unit :=
  if entryBad s s.cur (sqSlot q d) (i * w) ((i + 1) * w) then .dfault s 1 else k s

/-- Read an element and send it to the reserved lq entry; it arrives later (R275). -/
def loadElem (q : LQ) (w : Nat) (col : Option (Int × Nat)) (s : State) (x : Elem) : Acted Unit :=
  match readAt s s.cur x.1 x.2.2 x.2.1 w col with
  | .ok s v =>
    let ks := orderKeys s s.cur [x.2.2] x.2.1 w
    .ok (s.updHart s.cur fun h => h.updLq q fun e =>
      { e with flight := (x.1, BitVec.ofNat 64 v) :: e.flight, src := (x.1, ks) :: e.src }) ()
  | .wait s w => .wait s w
  | .dfault s d => .dfault s d
  | .reject s => .reject s
/-- Read an element into the reserved lq entry at once, under the next ticket (R253). -/
def loadNow (q : LQ) (w : Nat) (col : Option (Int × Nat)) (s : State) (x : Elem) : Acted Unit :=
  match readAt s s.cur x.1 x.2.2 x.2.1 w col with
  | .ok s v => fillElem q w x.1 v { s with ticket := s.ticket + 1 }
  | .wait s w => .wait s w
  | .dfault s d => .dfault s d
  | .reject s => .reject s
/-- Write an element of a data entry. -/
def storeElem (q : SQ) (d : QEntry) (w : Nat) (s : State) (x : Elem) : Acted Unit :=
  drainElem q d w x.1 s fun s => writeAt s s.cur x.2.2 x.2.1 (toBytes w (d.elt x.1 w))
/-- Write an element under the next ticket (R253): in another module or in the host it is performed once it is acknowledged, before
the next element draws. -/
def storeNow (q : SQ) (d : QEntry) (w : Nat) (s : State) (x : Elem) : Acted Unit :=
  if s.me.wait == some (.scStore x.1) then
    if s.posted.any (·.h == s.cur) then .wait s (.scStore x.1) else .ok s ()
  else if !x.2.2.isLocal && stopping s s.cur then .wait s .boundary
  else match storeElem q d w s x with
    | .ok s _ =>
      let s := { s with ticket := s.ticket + 1 }
      if x.2.2.isLocal then .ok s () else .wait s (.scStore x.1)
    | r => r

/-- The pool keys of [a, a + w) in the current core's scratchpad. -/
def scratchKeys (s : State) (a w : Nat) : List Nat :=
  (List.range w).map fun i => poolKey s.cur.l s.cur.k (s.myCore.bnd1.toNat + a + i)
def scratchWait (s : State) (a w : Nat) : Option Wait :=
  if interlocked s.myCore s.cur.h true a (a + w) then some .interlock else none
def scratchLoad (q : LQ) (w : Nat) (s : State) (x : Elem) : Acted Unit :=
  match scratchWait s x.2.1 w with
  | some r => .wait s r
  | none =>
    let ks := scratchKeys s x.2.1 w
    if memBad s ks then .dfault s 1 else fillElem q w x.1 (ofBytes (ks.map s.peek)) (hear s s.cur ks)
def scratchStore (q : SQ) (d : QEntry) (w : Nat) (s : State) (x : Elem) : Acted Unit :=
  match (scratchWait s x.2.1 w).orElse fun _ => relWait s.me with
  | some r => .wait s r
  | none =>
    drainElem q d w x.1 s fun s =>
      let ks := scratchKeys s x.2.1 w
      let (s, merge) := memUnits s ks
      if merge then .dfault s 1
      else .ok (announce (s.pokes (ks.headD 0) (toBytes w (d.elt x.1 w))) s.cur ks s.me.fenced false) ()

/-! ## Vector loads and stores (R249 to R252) -/

def never (_ : Nat) : Bool := false

def vldBody (x : Vld) (s : State) (h : Hart) : AOut :=
  let w := 2 ^ x.z.toNat
  let t : Takes := { lq := some x.q }
  vectorStart s h w x.col (x.p != 0) false x.h t fun s vl =>
    twoPhase s vl never (checkElem .load w (globalAddr h x.b x.off (stridedForm h x.p x.col) w)) (loadElem x.q w (colForm h x.p x.col w x.h))
      (finishOrTrap vl t)
def execVld (x : Vld) (s : State) : Host.Outcome State Fault Refusal := asideQ s (.vld x) x.g (vldBody x s)

/-- R252: a failing element above the first checked one ends the load without a trap, and so does one that its target rejects
(R313). -/
def vldffBody (x : Vld) (s : State) (h : Hart) : AOut :=
  let w := 2 ^ x.z.toNat
  let t : Takes := { lq := some x.q }
  vectorStart s h w x.col (x.p != 0) false x.h t fun s vl =>
    let finish (s : State) (f : Option (Nat × Nat × Dbl)) : AOut :=
      let ended (s : State) (k : Nat) : AOut :=
        .done (s.updHart s.cur fun h => { h.finishQueues t with ffe := BitVec.ofNat 64 k })
      match f with
      | some (k, c, v) => if c = eccCause || some k = s.me.claim.map (·.first) then elemTrap s c v k vl else ended s k
      | none => ended s vl
    twoPhase s vl never (checkElem .load w (globalAddr h x.b x.off (stridedForm h x.p x.col) w)) (loadElem x.q w (colForm h x.p x.col w x.h)) finish
def execVldff (x : Vld) (s : State) : Host.Outcome State Fault Refusal := asideQ s (.vldff x) x.g (vldffBody x s)

def vldxBody (x : Vldx) (s : State) (h : Hart) : AOut :=
  let w := 2 ^ x.z.toNat
  let t : Takes := Takes.sq { lq := some x.q } x.i 1
  vectorStart s h w false false true .none t fun s vl =>
    let ie := headSq h x.i 0
    twoPhase s vl (fun i => !ie.has i 4) (checkIndex x.i ie (checkElem .load w (globalAddr h x.b x.off (.indexed ie.index) w))) (loadElem x.q w none)
      (finishOrTrap vl t)
def execVldx (x : Vldx) (s : State) : Host.Outcome State Fault Refusal := asideQ s (.vldx x) x.g (vldxBody x s)

def vstBody (x : Vst) (s : State) (h : Hart) : AOut :=
  let w := 2 ^ x.z.toNat
  let t : Takes := Takes.sq {} x.d 1
  vectorStart s h w x.col (x.p != 0) false .none t fun s vl =>
    let de := headSq h x.d 0
    twoPhase s vl (fun i => !de.has i w) (checkElem .store w (globalAddr h x.b x.off (stridedForm h x.p x.col) w))
      (storeElem x.d de w) (finishOrTrap vl t)
def execVst (x : Vst) (s : State) : Host.Outcome State Fault Refusal := asideQ s (.vst x) x.g (vstBody x s)

def vstxBody (x : Vstx) (s : State) (h : Hart) : AOut :=
  let w := 2 ^ x.z.toNat
  let t : Takes := Takes.sq (Takes.sq {} x.i 1) x.d 1
  vectorStart s h w false false true .none t fun s vl =>
    let ie := headSq h x.i 0
    let de := headSq h x.d 0
    twoPhase s vl (fun i => !(ie.has i 4 && de.has i w)) (checkIndex x.i ie (checkElem .store w (globalAddr h x.b x.off (.indexed ie.index) w)))
      (storeElem x.d de w) (finishOrTrap vl t)
def execVstx (x : Vstx) (s : State) : Host.Outcome State Fault Refusal := asideQ s (.vstx x) x.g (vstxBody x s)

/-! ## Sequentially consistent accesses (R253) -/

/-- What a VLDSC or VSTSC waits for before its first element: every earlier access of the hart performed. -/
def scWait (s : State) (h : Hart) : Option Wait :=
  if h.claim.isSome then none
  else if readsOut h then some .reads
  else if postedOut s s.cur then some .posted
  else none

/-- A reserved entry whose elements are not read before it is complete. -/
def noChain (q : LQ) (h : Hart) : Hart := h.updLq q fun e => { e with chain := false }

def vldscBody (x : Vlds) (s : State) (h : Hart) : AOut :=
  let w := 2 ^ x.z.toNat
  let t : Takes := { lq := some x.q }
  match scWait s h with
  | some r => if formBad h.vl.toNat w (s.vlen s.cur) h.rows h.cols x.col (x.p != 0) false then .trap s 2 h.vl h.eix h.vl.toNat
    else .wait s r
  | none =>
    vectorStart s h w x.col (x.p != 0) false .none t fun s vl =>
      twoPhase (s.updHart s.cur (noChain x.q)) vl never
        (checkElem .load w (globalAddr h x.b x.off (stridedForm h x.p x.col) w)) (loadNow x.q w (colForm h x.p x.col w .none)) (finishOrTrap vl t)
def execVldsc (x : Vlds) (s : State) : Host.Outcome State Fault Refusal := asideQ s (.vldsc x) x.g (vldscBody x s)

def vstscBody (x : Vsts) (s : State) (h : Hart) : AOut :=
  let w := 2 ^ x.z.toNat
  let t : Takes := Takes.sq {} x.d 1
  match scWait s h with
  | some r => if formBad h.vl.toNat w (s.vlen s.cur) h.rows h.cols x.col (x.p != 0) false then .trap s 2 h.vl h.eix h.vl.toNat
    else .wait s r
  | none =>
    vectorStart s h w x.col (x.p != 0) false .none t fun s vl =>
      let de := headSq h x.d 0
      twoPhase s vl (fun i => !de.has i w) (checkElem .store w (globalAddr h x.b x.off (stridedForm h x.p x.col) w))
        (storeNow x.d de w) (finishOrTrap vl t)
def execVstsc (x : Vsts) (s : State) : Host.Outcome State Fault Refusal := asideQ s (.vstsc x) x.g (vstscBody x s)

/-! ## Scratchpad accesses (R187 to R191) -/

/-- S: scratchpad bytes of the current core (R185). -/
def scratchSize (s : State) : Nat := s.myCore.bnd2.toNat - s.myCore.bnd1.toNat

def vldsBody (x : Vlds) (s : State) (h : Hart) : AOut :=
  let w := 2 ^ x.z.toNat
  let t : Takes := { lq := some x.q }
  vectorStart s h w x.col (x.p != 0) false .none t fun s vl =>
    twoPhase s vl never (checkScratch w (scratchSize s) (scratchAddr h x.b x.off (stridedForm h x.p x.col) w))
      (scratchLoad x.q w) (finishOrTrap vl t)
def execVlds (x : Vlds) (s : State) : Host.Outcome State Fault Refusal := asideQ s (.vlds x) x.g (vldsBody x s)

def vstsBody (x : Vsts) (s : State) (h : Hart) : AOut :=
  let w := 2 ^ x.z.toNat
  let t : Takes := Takes.sq {} x.d 1
  vectorStart s h w x.col (x.p != 0) false .none t fun s vl =>
    let de := headSq h x.d 0
    twoPhase s vl (fun i => !de.has i w)
      (checkScratch w (scratchSize s) (scratchAddr h x.b x.off (stridedForm h x.p x.col) w)) (scratchStore x.d de w)
      (finishOrTrap vl t)
def execVsts (x : Vsts) (s : State) : Host.Outcome State Fault Refusal := asideQ s (.vsts x) x.g (vstsBody x s)

def vldsxBody (x : Vldsx) (s : State) (h : Hart) : AOut :=
  let w := 2 ^ x.z.toNat
  let t : Takes := Takes.sq { lq := some x.q } x.i 1
  vectorStart s h w false false true .none t fun s vl =>
    let ie := headSq h x.i 0
    twoPhase s vl (fun i => !ie.has i 4) (checkIndex x.i ie (checkScratch w (scratchSize s) (scratchAddr h x.b x.off (.indexed ie.index) w)))
      (scratchLoad x.q w) (finishOrTrap vl t)
def execVldsx (x : Vldsx) (s : State) : Host.Outcome State Fault Refusal := asideQ s (.vldsx x) x.g (vldsxBody x s)

def vstsxBody (x : Vstsx) (s : State) (h : Hart) : AOut :=
  let w := 2 ^ x.z.toNat
  let t : Takes := Takes.sq (Takes.sq {} x.i 1) x.d 1
  vectorStart s h w false false true .none t fun s vl =>
    let ie := headSq h x.i 0
    let de := headSq h x.d 0
    twoPhase s vl (fun i => !(ie.has i 4 && de.has i w))
      (checkIndex x.i ie (checkScratch w (scratchSize s) (scratchAddr h x.b x.off (.indexed ie.index) w))) (scratchStore x.d de w)
      (finishOrTrap vl t)
def execVstsx (x : Vstsx) (s : State) : Host.Outcome State Fault Refusal := asideQ s (.vstsx x) x.g (vstsxBody x s)

/-! ## VAMO (R254, R255) -/

def vamoOp (op : BitVec 3) : AtomOp :=
  match op.toNat with
  | 0 => .add
  | 1 => .and
  | 2 => .or
  | 3 => .xor
  | 4 => .min
  | 5 => .max
  | 6 => .swp
  | _ => .fadd

/-- R255: R251's checks, then the bound, then the host operation. -/
def checkAmo (op : AtomOp) (w : Nat) (base bound : Dbl) (ie : QEntry) (s : State) (i : Nat) :
    State × Except (Nat × Dbl) (Nat × TlbEntry) :=
  let a := wrap 64 (base.toInt + (ie.index i * w : Nat))
  match checkElem .both w (fun _ => a) s i with
  | (s, .ok (a, e)) =>
    (s, if bound.toNat ≤ ie.index i then .error (15, BitVec.ofNat 64 (ie.index i))
        else if pteTier e.pte == 3 && !(w == 8 && op == .add) then .error (16, BitVec.ofNat 64 a)
        else .ok (a, e))
  | r => r

def amoElem (q : Option LQ) (op : AtomOp) (w : Nat) (dq : SQ) (de : QEntry) (s : State) (x : Elem) : Acted Unit :=
  drainElem dq de w x.1 s fun s =>
    match atomicAt s s.cur x.1 x.2.2 x.2.1 w op (BitVec.ofNat 64 (de.elt x.1 w)) 0 with
    | .ok s old => match q with
      | some q => fillElem q w x.1 old s
      | none => .ok s ()
    | .wait s w => .wait s w
    | .dfault s d => .dfault s d
    | .reject s => .reject s

def vamoBody (x : Vamo) (s : State) (h : Hart) : AOut :=
  let w := if x.dbl then 8 else 4
  let op := vamoOp x.op
  let vl := h.vl.toNat
  let t : Takes := Takes.sq (Takes.sq { lq := x.q } x.i 1) x.d 1
  if op == .fadd && x.dbl then .trap s 1 (tvalOf (.vamo x)) h.eix vl
  else if s.vlen s.cur < vl * 4 ∨ s.vlen s.cur < vl * w then .trap s 2 h.vl h.eix vl
  else
    match claimQueues h t w with
    | .error q => .wait s q
    | .ok h' =>
      let ie := headSq h x.i 0
      let de := headSq h x.d 0
      twoPhase (s.setMe h') vl (fun i => !(ie.has i 4 && de.has i w)) (checkIndex x.i ie (checkAmo op w (h.s x.b) (h.s x.l) ie))
        (amoElem x.q op w x.d de) (finishOrTrap vl t)
def execVamo (x : Vamo) (s : State) : Host.Outcome State Fault Refusal := asideQ s (.vamo x) x.g (vamoBody x s)

/-! ## POPX and QDROP (R130) -/

def execPopx (x : Popx) (s : State) : Host.Outcome State Fault Refusal :=
  asideQ s (.popx x) x.g fun h =>
    match h.xq with
    | [] => .wait s (.queue xqCode)
    | v :: t => .done (s.setMe ({ h with xq := t }.setS x.d v))

/-- Drop n entries of xq, then of an sq, one after another; it answers how many could be dropped. -/
def dropXq : Nat → Hart → Hart × Nat
  | 0, h => (h, 0)
  | n + 1, h => match h.xq with
    | [] => (h, 0)
    | _ :: t =>
      let (h, k) := dropXq n { h with xq := t }
      (h, k + 1)
def dropSq (q : SQ) : Nat → Hart → Hart × Nat
  | 0, h => (h, 0)
  | n + 1, h => match sqOpen h q with
    | [] => (h, 0)
    | e :: _ =>
      if e.done then
        let (h, k) := dropSq q n (h.popSq q 1)
        (h, k + 1)
      else (h, 0)

def qdropBody (x : Qdrop) (s : State) (h : Hart) : AOut :=
  let n := x.n.toNat
  let left := n - h.eix
  let (h', k) := match x.q with
    | .xq => dropXq left h
    | .sq q => dropSq q left h
  if left ≤ k then .done (s.setMe h')
  else .wait (s.setMe { h' with eix := h.eix + k }) (.queue (match x.q with
    | .xq => xqCode
    | .sq q => sqCode q))
def execQdrop (x : Qdrop) (s : State) : Host.Outcome State Fault Refusal := asideQ s (.qdrop x) x.g (qdropBody x s)

end Sys2Proof.Machine
end

