-- ==== Sys2Proof/Machine/Fetch.lean ====
section
/-! DEFINITION. Fetch lines (R39 to R46), the decoding of the slot at a hart's position, and transfers of control. -/

namespace Sys2Proof.Machine

open Sys2Proof

/-! ## Lines (R39 to R41, R43) -/

def lineWord (l : Line) : BitVec 32 := l.extractLsb' 480 32
/-- Template of slot k: 0 A side, 1 X side, 2 extension, 3 empty. -/
def tmpl (l : Line) (k : Nat) : BitVec 2 := (lineWord l).extractLsb' (14 + 2 * k) 2
/-- Slot k is a legal branch target. -/
def target (l : Line) (k : Nat) : Bool := (lineWord l).getLsbD (9 + k)
def slotWord (l : Line) (k : Nat) : IWord := l.extractLsb' (96 * k) 96

/-- R43. -/
def lineOk (l : Line) : Bool :=
  (lineWord l).extractLsb' 24 8 == lineParity l && (lineWord l).extractLsb' 0 9 == 0 && tmpl l 4 != 2
  && (List.range 4).all (fun k => !(tmpl l k == 2 && tmpl l (k + 1) == 3))
  && (List.range 5).all fun k => !(target l k && tmpl l k == 2)

/-- How reading a line ends. -/
inductive LineGot where
  | line (l : Line)
  | trap (cause : Nat) (val : Nat)
  | dfault (detail : Nat)

/-- Read the line at an address for a hart's fetch (R280, R282, R44, R372). A page that is not local gives an access
fault: text is mapped on TIER 0 (R36). A line that has been fetched before may be held still (R44), and its units are then not read. -/
def readLine (s : State) (hid : HartId) (a : Nat) : State × LineGot :=
  let h := s.hart hid
  let p := s.partOf hid
  match checkByte s p h.root h.sup .fetch a with
  | (s, .error (c, v)) => (s, if c = eccCause then .dfault 1 else .trap c v)
  | (s, .ok e) =>
    if !e.isLocal then (s, .trap 7 a)
    else
      let ks := keysOf s p [e] a 64
      let s := if pteTier e.pte == 0 then noteDead s p [e.pa a] else s
      let (s, bad) := needsBad s true ks
      if bad then (s, .dfault 1)
      else (s, .line (BitVec.ofNat 512 (ks.foldr (fun k acc => (s.peek k).toNat + 256 * acc) 0)))

/-- R46, with R45's range: the target is legal. A target whose line cannot be read is left to the fetch there. -/
def targetCheck (s : State) (hid : HartId) (t : Int) : State × Bool :=
  if t < 0 || 2 ^ 55 ≤ t || !isSlot t.toNat then (s, false)
  else
    match readLine s hid (t.toNat / 64 * 64) with
    | (s, .line l) => (s, target l (t.toNat % 64 / 12) && tmpl l (t.toNat % 64 / 12) != 2)
    | (s, _) => (s, true)

/-- Continue at a target checked by R46, or take the control-flow target fault. `done` is the instruction's effect,
made only where the target is legal. -/
def transfer (s : State) (t : Int) (done : State → State) : AOut :=
  match targetCheck s s.cur t with
  | (s, true) => .goto (done s) t.toNat
  | (s, false) => .trap s 4 (BitVec.ofInt 64 t) 0 0

/-- R45: the relative target, in ordinals; below ordinal 0 the division rounds down (log 69). -/
def relTarget (pc : Nat) (off : Int) : Int :=
  let n : Int := (slotOrdinal pc : Int) + off
  64 * (n / 5) + 12 * (n % 5)

/-! ## Who may issue -/

/-- No throttle holds the issue of the hart's core: of each die on its own (R365). The slots that a lease promises a hart are executed
before the lease ends all the same (R370, log 13). -/
def notHeld (s : State) (hid : HartId) : Bool :=
  s.md.throttleEnd.toList.getD (s.dieOf hid.l hid.k) 0 ≤ s.cycle || (s.hart hid).leases.any fun l => 0 < l.promise && s.cycle < l.until_
/-- The hart's A side may issue: it runs, its launch runs, no pause and no throttle holds it (R103, R365). -/
def canIssue (s : State) (hid : HartId) : Bool :=
  s.md.power == .ready && (s.hart hid).phase == .running && (s.launch hid.l).phase == .running
  && (s.hart hid).pause ≤ s.cycle && notHeld s hid

/-! ## The slot at the position (R42, R54, R56, R59) -/

/-- What the hart finds at its position. -/
inductive Slot where
  | instr (i : Instr)
  | trap (cause : Nat) (val : Dbl)
  /-- No instruction left in the line. -/
  | empty
  deriving DecidableEq, Repr

def rejectCause : Reject → Nat
  | .illegalInstr => 1
  | .illegalOperand => 2

/-- Decode slot k of a checked line, with the extension before it. -/
def slotAt (l : Line) (k : Nat) : Slot :=
  let w := slotWord l k
  let ext : Option IWord := if 0 < k && tmpl l (k - 1) == 2 then some (slotWord l (k - 1)) else none
  match decode (tmpl l k == 1) ext w with
  | .ok i => .instr i
  | .error r => .trap (rejectCause r) (w.extractLsb' 32 64)

/-- From slot k of a line on, past empty slots and the extensions that precede their instructions: the slot and what
it holds. A second extension traps at its own slot (R54). `n` counts the slots left. -/
def scanLine (l : Line) : Nat → Nat → Nat × Slot
  | 0, k => (k, .empty)
  | n + 1, k =>
    if tmpl l k == 3 then scanLine l n (k + 1)
    else if tmpl l k == 2 then
      if 0 < k && tmpl l (k - 1) == 2 then (k, .trap 1 ((slotWord l k).extractLsb' 32 64))
      else scanLine l n (k + 1)
    else (k, slotAt l k)

/-- The instruction keeps an A-side element index (R110). -/
def keepsEix : Instr → Bool
  | .vld _ | .vldff _ | .vldx _ | .vldsc _ | .vst _ | .vstx _ | .vstsc _ | .vlds _ | .vsts _ | .vldsx _ | .vstsx _
  | .vamo _ | .nbadd _ | .nbopt _ | .sfpool _ | .qdrop _ | .clred _ => true
  | _ => false
/-- The A side has come to slot k of a line: an instruction there that keeps an element index goes on at the hart's, where the position
was its slot (R348); every other begins whole. -/
def Hart.reach (h : Hart) (la k : Nat) (x : Slot) : Hart :=
  let stays : Bool := h.pc == la + 12 * k && match x with
    | .instr i => keepsEix i
    | .trap _ _ => false
    | .empty => false
  { h with pc := la + 12 * k, eix := if stays then h.eix else 0 }
/-- It has found no instruction in the line. -/
def Hart.leaveLine (h : Hart) (la : Nat) : Hart := { h with pc := la + 64, eix := 0, line := none }

/-- What a fetch at a hart's position gives: the state with the position at the slot reached, and the slot. -/
inductive Fetched where
  | run (s : State) (i : Instr)
  /-- The state is complete: a trap of this chapter, a device fault, or the next line's start. -/
  | ended (s : State)

/-- Fetch at a hart's position: enter its line if it is not the one entered, check it, and find the instruction. -/
def fetch (s : State) (hid : HartId) : Fetched :=
  let h := s.hart hid
  let la := h.pc / 64 * 64
  let got : State × LineGot := match h.line with
    | some (a, l) => if a = la then (s, .line l) else readLine s hid la
    | none => readLine s hid la
  match got with
  | (s, .trap c v) => .ended (trapA s hid c (BitVec.ofNat 64 v) h.eix h.eix)
  | (s, .dfault d) => .ended (deviceFault s (s.partOf hid) d)
  | (s, .line l) =>
    if !lineOk l then .ended (trapA s hid 3 (BitVec.ofNat 64 la) h.eix h.eix)
    else
      let k := h.pc % 64 / 12
      let (k', x) := scanLine l (5 - k) k
      match x with
      | .empty => .ended (s.updHart hid (·.leaveLine la))
      | .trap c v => .ended (trapA (s.updHart hid (·.reach la k' x)) hid c v 0 0)
      | .instr i => .run (s.updHart hid fun h => { h.reach la k' x with line := some (la, l) }) i

/-! ## Where a hart stops (R42, R111, R345) -/

/-- Bring the position of a hart whose A side is to stop to a slot that holds an instruction: past empty slots and extensions,
entering its line if it is not the one entered (R42, R54). False where the line holds none from there on: the position is then
the next line's start, and the A side has not stopped. A line that cannot be read or fails R43 executes no slot: the position
stays. -/
def settlePos (s : State) (hid : HartId) : State × Bool :=
  let h := s.hart hid
  let la := h.pc / 64 * 64
  let got : State × LineGot := match h.line with
    | some (a, l) => if a = la then (s, .line l) else readLine s hid la
    | none => readLine s hid la
  match got with
  | (s, .trap _ _) => (s, true)
  | (s, .dfault _) => (s, true)
  | (s, .line l) =>
    if !lineOk l then (s, true)
    else
      let k := h.pc % 64 / 12
      let r := scanLine l (5 - k) k
      match r.2 with
      | .empty => (s.updHart hid (·.leaveLine la), false)
      | .trap _ _ => (s.updHart hid (·.reach la r.1 r.2), true)
      | .instr _ => (s.updHart hid fun h => { h.reach la r.1 r.2 with line := some (la, l) }, true)

end Sys2Proof.Machine
end

