-- ==== Sys2Proof/Machine/Xside.lean ====
section
/-! DEFINITION. The X side's machinery: what an X-side instruction names, its pass into the window (R70, R107, R199,
R201, R205), and how a window entry reads, performs and writes elements (R108, R109, R138 to R140, R200). -/

namespace Sys2Proof.Machine

open Sys2Proof

/-! ## Format words (R69) and operand widths -/

def fwA (fw : Dbl) : Nat := (fw.extractLsb' 0 8).toNat
def fwB (fw : Dbl) : Nat := (fw.extractLsb' 8 8).toNat
def fwD (fw : Dbl) : Nat := (fw.extractLsb' 16 8).toNat
def fwRnd (fw : Dbl) : Nat := (fw.extractLsb' 24 4).toNat
def fwSat (fw : Dbl) : Bool := fw.getLsbD 28
def fwCba (fw : Dbl) : BitVec 4 := fw.extractLsb' 32 4
def fwCbb (fw : Dbl) : BitVec 4 := fw.extractLsb' 36 4
def fwSca (fw : Dbl) : VReg := fw.extractLsb' 40 5
def fwScb (fw : Dbl) : VReg := fw.extractLsb' 45 5
def fwScd (fw : Dbl) : VReg := fw.extractLsb' 50 5

def isCb (c : Nat) : Bool := c == 0x22 || c == 0x24 || c == 0x28
/-- Bits of an element of a format code. -/
def codeBits (c : Nat) : Nat := match fmtOf c with
  | some f => f.bits
  | none => 8
def codeFmt (c : Nat) : Fmt := (fmtOf c).getD (.int 8 true)

/-- Where an operand's element width comes from: a format field, or a number of bits. -/
inductive Wd where
  | a | b | d
  | w (n : Nat)
  deriving DecidableEq, Repr

def Wd.code (fw : Dbl) : Wd → Nat
  | .a => fwA fw
  | .b => fwB fw
  | .d => fwD fw
  | .w _ => 0
def Wd.bits (fw : Dbl) : Wd → Nat
  | .w n => n
  | x => codeBits (x.code fw)
/-- The bank that expands an operand, where its format is a codebook. -/
def Wd.bank (fw : Dbl) : Wd → Option (BitVec 4)
  | .a => if isCb (fwA fw) then some (fwCba fw) else none
  | .b => if isCb (fwB fw) then some (fwCbb fw) else none
  | .d => none
  | .w _ => none
/-- Bits of a W-class element (R51). -/
def wbits (z : BitVec 2) : Nat := 8 * 2 ^ z.toNat

/-! ## What an entry does -/

/-- What performing a window entry sees: the state, the hart as it stands, the entry. -/
structure XCtx where
  s : State
  hid : HartId
  h : Hart
  e : XEntry

/-- The outcome of one element of an element-wise entry: the destination element, the mask bit, a trap, or nothing. -/
inductive XEl where
  | vec (x : Nat) (fl : Fl)
  | bit (b : Bool) (fl : Fl)
  | trap (cause : Nat) (val : Dbl)

/-- A trap at an element; cause 0 is a device fault with detail 1 (R372). -/
structure XTrap where
  i : Nat
  cause : Nat
  val : Dbl

/-- What a whole entry, or a rank group, writes: destination elements of some width, mask bits, xq pushes, flags, and
its effect on the core. -/
structure XRes where
  regs : List (VDst × Nat × List (Nat × Nat)) := []
  masks : List (MReg × List (Nat × Bool)) := []
  xq : List Dbl := []
  fl : Fl := Fl.none
  post : State → State := fun s => s

inductive XSem where
  | elem (f : XCtx → Nat → XEl)
  | whole (f : XCtx → Except XTrap XRes)
  /-- By groups of `g` ranks; `need` gives the source elements that a rank reads, as ranges in the order in which they are
  examined, and `f` performs the group from one rank to another. -/
  | ranks (g : Dbl → State → HartId → Nat) (need : XCtx → Nat → List ((VSrc × Wd) × Nat × Nat))
      (f : XCtx → Nat → Nat → Except XTrap XRes)

/-- An X-side instruction: its operands with their widths, captured scalars, format sets, pass checks and effect. -/
structure XDef where
  /-- Its guards and SCH bits. -/
  ctl : XCtl
  srcs : List (VSrc × Wd) := []
  dsts : List (VDst × Wd) := []
  /-- A mask destination. -/
  md : Option MReg := none
  /-- Entries it pushes into xq. -/
  xq : Nat := 0
  /-- The first captured scalar, and the format word or second scalar. -/
  sa : SReg := 0
  fw : SReg := 0
  /-- F class: the format word is checked by R70 against these sets. -/
  fclass : Bool := false
  setA : Option (List Nat) := none
  setB : Option (List Nat) := none
  setD : Option (List Nat) := none
  /-- It reads the RND field, whose codes above 4 trap then; fields that it does not use are ignored (R70, log 60). -/
  usesRnd : Dbl → Bool := fun _ => true
  /-- Source B is a scalar that is read through BFMT. -/
  bScalar : Bool := false
  /-- R107's bound is replaced by the entry's own. -/
  ownBound : Bool := false
  /-- Banks it reads whatever its formats, and banks it writes. -/
  rbanks : List (BitVec 4) := []
  wbanks : List (BitVec 4) := []
  /-- It takes no element of its own: a reload fault is taken at element 0. -/
  noElem : Bool := false
  /-- The checks of its entry at the pass that need no descriptor, before R205's wait. -/
  pre : XCtx → Option (Nat × Dbl) := fun _ => none
  /-- The other checks of its entry. -/
  check : XCtx → Option (Nat × Dbl) := fun _ => none
  /-- What an element needs besides its guards to be active (R225). -/
  present : XCtx → Nat → Bool := fun _ _ => true
  /-- The source elements that a whole entry reads, where they are not its active ones. -/
  examined : Option (XCtx → List ((VSrc × Wd) × Nat × Nat)) := none
  /-- What its completion adds. -/
  fin : XCtx → State → State := fun _ s => s
  sem : XSem

def fmtF : List Nat := [0x08, 0x09, 0x0A, 0x0B, 0x0C]
def fmtC : List Nat := [0x22, 0x24, 0x28]
def fmtI : List Nat := [0x00, 0x01, 0x02, 0x03, 0x04]
def fmtB : List Nat := [0x12, 0x13, 0x14, 0x15, 0x16, 0x17, 0x18]
def fmtH : List Nat := [0x0A, 0x0B, 0x0C]

/-- IMM of an instruction's word, as tval holds it. -/
def immOf (i : Instr) : Dbl :=
  match encode i with
  | some (_, w) => (w.extractLsb' 5 32).setWidth 64
  | none => 0

/-! ## Banks at the pass (R198 to R201, R205) -/

/-- The banks an instruction's sources and its own rule read. -/
def XDef.reads (d : XDef) (fw : Dbl) : List (BitVec 4) :=
  d.rbanks ++ (if d.fclass then (d.srcs.map (·.2) ++ d.dsts.map (·.2) ++ if d.bScalar then [Wd.b] else []).filterMap (·.bank fw)
    else [])

/-- The writer of a bank: the hart of lowest hid it is allotted to (R198). -/
def bankWriter (s : State) (hid : HartId) (k : BitVec 4) : Option Nat :=
  ((s.coreHarts hid.l hid.k).find? fun id => (s.hart id).cbown.getLsbD k.toNat).map (·.h)

/-- The descriptor that the checks of the pass use: format, log2 of the group size (R201). -/
def descAt (c : Core) (h : Hart) (k : BitVec 4) : Nat × Nat :=
  let last := h.win.reverse.findSome? fun e => match e.i with
    | .cbld x => if x.k = k then some (some (x.fmt.toNat, x.lgg.toNat)) else none
    | .cbinv x => if x.m.getLsbD k.toNat then some none else none
    | _ => none
  match last with
  | some (some d) => d
  | some none => (0x0B, 0)
  | none => match (c.bank k).st with
    | .invalid => (0x0B, 0)
    | _ => ((c.bank k).fmt.toNat, (c.bank k).lgg.toNat)

/-- The banks a passed instruction writes. -/
def xWrites : Instr → List (BitVec 4)
  | .cbld x => [x.k]
  | .cbinv x => ((List.range 16).filter x.m.getLsbD).map (BitVec.ofNat 4)
  | _ => []

/-- A write of another hart to the bank is pending (R205). -/
def bankPending (s : State) (hid : HartId) (k : BitVec 4) : Bool :=
  (s.coreHarts hid.l hid.k).any (fun id => id != hid && (s.hart id).win.any fun e => (xWrites e.i).contains k)
  || (s.core hid.l hid.k).engines.any fun e => e.hid != hid.h && e.dstBank == some k

/-! ## The pass (R59 order 9, R70, R107) -/

def inSet (set : Option (List Nat)) (c : Nat) : Bool := match set with
  | some l => l.contains c
  | none => true

/-- R70. -/
def fwBad (d : XDef) (fw : Dbl) : Bool :=
  d.fclass && (fw.extractLsb' 55 9 != 0 || fw.extractLsb' 29 3 != 0 || (d.usesRnd fw && 4 < fwRnd fw)
    || !inSet d.setA (fwA fw) || !inSet d.setB (fwB fw) || !inSet d.setD (fwD fw))

/-- R107 for one operand: vl elements do not fit VLEN bytes; a codebook operand holds g values in an index (R200). -/
def opdOver (c : Core) (h : Hart) (vlen vl : Nat) (fw : Dbl) (w : Wd) : Bool :=
  let g := match w.bank fw with
    | some k => 2 ^ (descAt c h k).2
    | none => 1
  8 * vlen * g < vl * w.bits fw

/-- The captured entry of an instruction about to be passed. -/
def XDef.capture (d : XDef) (i : Instr) (s : State) (h : Hart) : XEntry :=
  let fw := h.s d.fw
  { i := i, sa := h.s d.sa, fw := fw, vl := h.vl.toNat, shp := h.shp, ffe := h.ffe.toNat, seed := h.srseed,
    icount := h.icount, seq := s.myCore.seq, banks := d.reads fw }

/-- The first check of the pass that fails once no bank it reads has a write pending: the entry's own, then R107's bound (log 61). -/
def XDef.late (d : XDef) (c : XCtx) : Option (Nat × Dbl) :=
  match d.check c with
  | some t => some t
  | none =>
    let core := c.s.core c.hid.l c.hid.k
    if !d.ownBound && (d.srcs.any (fun x => opdOver core c.h (c.s.vlen c.hid) c.e.vl c.e.fw x.2)
        || d.dsts.any fun x => opdOver core c.h (c.s.vlen c.hid) c.e.vl c.e.fw x.2) then some (2, c.h.vl)
    else none

/-- Pass an X-side instruction into the window of the current hart, which counts it (R104, R106, R107). In supervisor mode it is
illegal (R346). Where several checks fail, the format word's (R70) comes first, then R199's, then the entry's own, then R107's
(log 61). -/
def xpass (s : State) (i : Instr) (d : XDef) : Host.Outcome State Fault Refusal :=
  let h := s.me
  if h.phase != .running then .fault .noHart
  else if h.sup then .next (close s (AOut.trap s 1 (tvalOf i) 0 0).state)
  else if 32 ≤ h.win.length then .next (close s (AOut.wait s .window).state)
  else
    let e := d.capture i s h
    let c : XCtx := ⟨s, s.cur, h, e⟩
    let out : AOut :=
      if fwBad d e.fw then .trap s 2 e.fw 0 0
      else if d.fclass && (d.reads e.fw).any fun k => !h.cbown.getLsbD k.toNat then .trap s 2 e.fw 0 0
      else match d.pre c with
        | some (t, v) => .trap s t v 0 0
        | none =>
          if e.banks.any (bankPending s s.cur) then .wait s .bank
          else match d.late c with
            | some (t, v) => .trap s t v 0 0
            | none =>
              let s := s.updCore s.cur.l s.cur.k fun c => { c with seq := c.seq + 1 }
              .done (s.updHart s.cur fun h => { h with win := h.win ++ [e] })
    .next (close s out.state)

/-! ## Reading elements (R135, R138 to R140, R166, R200) -/

def XCtx.core (c : XCtx) : Core := c.s.core c.hid.l c.hid.k
/-- A source register as it stood before the instruction. -/
def XCtx.reg (c : XCtx) (r : VReg) : VVal :=
  match c.e.old with
  | some (q, v) => if q = r then v else c.h.vr r
  | none => c.h.vr r
/-- The head entry of a queue; bytes its pusher did not write are zero. -/
def headLq (h : Hart) (q : LQ) : Option QEntry := (h.lq[q.toNat]'(q.isLt)).head?
def XCtx.src (c : XCtx) : VSrc → VVal
  | .v r => c.reg r
  | .lq q => ((headLq c.h q).getD {}).data
/-- Element i of b bits of a source. -/
def XCtx.el (c : XCtx) (x : VSrc) (b i : Nat) : Nat := vget (c.src x) (b * i) b
/-- Bit i of a mask. -/
def XCtx.mbit (c : XCtx) (m : MReg) (i : Nat) : Bool := (c.h.mr m).getLsbD i
def guardAt (h : Hart) (i : Nat) : Guard → Bool
  | .always => true
  | .reg n m => ((h.mr m).getLsbD i) != n
/-- The ranges that handlers made inactive (R113). -/
def XCtx.skipped (c : XCtx) (i : Nat) : Bool := c.e.skips.any fun r => r.1 ≤ i && i < r.2
/-- The guards hold at i and no handler has made i inactive. -/
def XCtx.sel (c : XCtx) (g : Guards) (i : Nat) : Bool := !c.skipped i && guardAt c.h i g.a && guardAt c.h i g.b
/-- R138. -/
def XCtx.active (c : XCtx) (g : Guards) (i : Nat) : Bool := decide (i < c.e.vl) && c.sel g i
/-- The active elements below vl, in order. -/
def XCtx.actives (c : XCtx) (g : Guards) : List Nat := (List.range c.e.vl).filter (c.sel g)

/-- Value `v` of entry x of a bank (R196). -/
def XCtx.entry (c : XCtx) (k : BitVec 4) (x v : Nat) : Ex :=
  let b := c.core.bank k
  let a := c.core.bankBase k + (x * 2 ^ b.lgg.toNat + v) * b.ew
  (codeFmt b.fmt.toNat).value (c.s.peekN (poolKey c.hid.l c.hid.k a) b.ew)

/-- The keys of value `v` of entry x of a bank. -/
def XCtx.entryKeys (c : XCtx) (k : BitVec 4) (x v : Nat) : List Nat :=
  let b := c.core.bank k
  (List.range b.ew).map fun j => poolKey c.hid.l c.hid.k (c.core.bankBase k + (x * 2 ^ b.lgg.toNat + v) * b.ew + j)
/-- Entry x of a bank by an index of it: its value, R202's trap, or, as cause 0, an uncorrectable unit (R372). -/
def XCtx.lookup (c : XCtx) (k : BitVec 4) (x v : Nat) : Except (Nat × Dbl) Ex :=
  if (c.core.bank k).cnt ≤ x then .error (10, BitVec.ofNat 64 (x + 256 * k.toNat))
  else if badUnit c.s (c.entryKeys k x v) then .error (0, 0)
  else .ok (c.entry k x v)

/-- The exact value of element i of a source, or a trap of `lookup`. -/
def XCtx.val (c : XCtx) (w : Wd) (x : VSrc) (i : Nat) : Except (Nat × Dbl) Ex :=
  match w.bank c.e.fw with
  | some k =>
    let g := 2 ^ (c.core.bank k).lgg.toNat
    c.lookup k (c.el x (w.bits c.e.fw) (i / g)) (i % g)
  | none => .ok ((codeFmt (w.code c.e.fw)).value (c.el x (w.bits c.e.fw) i))

/-- How the entry rounds at draw index i (R72). -/
def XCtx.rnd (c : XCtx) (i : Nat) : Rnd :=
  { rm := RMode.of (fwRnd c.e.fw), sat := fwSat c.e.fw,
    draw := if 4 ≤ fwRnd c.e.fw then drawOf c.e.seed c.e.icount i else 0 }
/-- RoundTo(DFMT, x, RND) at draw index i. -/
def XCtx.roundD (c : XCtx) (x : Ex × Fl) (i : Nat) : Nat × Fl :=
  let (b, f) := (codeFmt (fwD c.e.fw)).round x.1 (c.rnd i)
  (b, x.2.or f)

/-! ## Writing elements -/

/-- Write element i of b bits into an entry; its map marks the bytes touched. -/
def QEntry.putBits (e : QEntry) (b i x : Nat) : QEntry :=
  let lo := b * i / 8
  { e with data := vset e.data (b * i) b x, written := markWritten e.written lo ((b * (i + 1) + 7) / 8 - lo) }
/-- Write element i of b bits of a destination: a register, or the entry reserved last in its queue. -/
def Hart.putD (h : Hart) (d : VDst) (b i x : Nat) : Hart :=
  match d with
  | .v r => h.setVr r (vset (h.vr r) (b * i) b x) ((b * (i + 1) + 7) / 8)
  | .sq q => { h with sq := h.sq.set q.toNat (mapLast (fun e => e.putBits b i x) (h.sq[q.toNat]'(q.isLt))) (q.isLt) }
def Hart.putM (h : Hart) (m : MReg) (i : Nat) (b : Bool) : Hart :=
  let bit : MVal := BitVec.ofNat 8192 (2 ^ i)
  h.setMr m (if b then h.mr m ||| bit else h.mr m &&& ~~~bit)

/-! ## Queues of an entry (R109, R139) -/

def XDef.lqs (d : XDef) : List LQ := d.srcs.filterMap fun x => match x.1 with
  | .lq q => some q
  | .v _ => none
def XDef.sqs (d : XDef) : List SQ := d.dsts.filterMap fun x => match x.1 with
  | .sq q => some q
  | .v _ => none

/-- These elements of a source, one by one. -/
def elemsAt (x : VSrc × Wd) (l : List Nat) : List ((VSrc × Wd) × Nat × Nat) := l.map fun i => (x, i, i + 1)

/-- Bytes of a source that elements [lo, hi) of the instruction lie in: a codebook operand holds an index for g of them (R200). -/
def srcBytes (c : XCtx) (w : Wd) (lo hi : Nat) : Nat × Nat :=
  let g := match w.bank c.e.fw with
    | some k => 2 ^ (c.core.bank k).lgg.toNat
    | none => 1
  let b := w.bits c.e.fw
  (b * (lo / g) / 8, (b * ((hi + g - 1) / g) + 7) / 8)

/-- Bytes [lo, hi) of an entry can be read: none of them is in flight, and none is still to be requested (R109, R253). -/
def QEntry.ready (e : QEntry) (lo hi : Nat) : Bool :=
  e.done || (e.chain && e.flight.all (fun x => !(x.1 * e.width < hi && lo < (x.1 + 1) * e.width))
    && e.pool.all (fun p => p.left.all fun b => !(4 * p.d * b < hi && lo < 4 * p.d * (b + 1)))
    && (e.issued || getBits e.written.toNat lo (hi - lo) == 2 ^ (hi - lo) - 1))

/-- An lq source can be read in elements [lo, hi) of the instruction. -/
def srcReady (c : XCtx) (x : VSrc × Wd) (lo hi : Nat) : Bool :=
  match x.1 with
  | .v _ => true
  | .lq q => match headLq c.h q with
    | none => false
    | some e =>
      let r := srcBytes c x.2 lo hi
      lo ≥ hi || e.ready r.1 r.2

/-- A destination queue without room (R109). -/
def sqFull (h : Hart) (q : SQ) : Bool := 4 ≤ (h.sq[q.toNat]'(q.isLt)).length
def xqRoom (h : Hart) : Nat := 16 - h.xq.length

/-- The operand code of the queue that the oldest entry waits on and that only the A side can serve (R120). -/
def xWaitsOn (c : XCtx) (d : XDef) : Option Nat :=
  let lq := d.lqs.find? fun q => match headLq c.h q with
    | none => true
    | some e => !e.done && e.flight.isEmpty && !e.issued && !(e.ready 0 1)
  match lq with
  | some q => some (lqCode q)
  | none =>
    if !c.e.begun then
      match d.sqs.find? (sqFull c.h) with
      | some q => some (sqCode q)
      | none => if xqRoom c.h < d.xq then some xqCode else none
    else none

/-- R204 and R205: an older engine write of the hart to a bank the entry reads, an older engine read of a bank it
writes, or other harts' older readers of such a bank. An entry that writes a bank and an engine write to it are not ordered (R368). -/
def bankHolds (c : XCtx) : Bool :=
  let w := xWrites c.e.i
  c.core.engines.any (fun g => g.seq < c.e.seq
    && (g.hid == c.hid.h && g.dstBank.any c.e.banks.contains || g.srcBank.any w.contains))
  || (c.s.coreHarts c.hid.l c.hid.k).any fun id => id != c.hid && (c.s.hart id).win.any fun x =>
    x.seq < c.e.seq && x.banks.any w.contains

/-- The entry may begin: its queues have entries and room, and no bank rule holds it. -/
def xMayBegin (c : XCtx) (d : XDef) : Bool :=
  !bankHolds c && d.lqs.all (fun q => (headLq c.h q).isSome) && (c.e.begun || d.sqs.all (!sqFull c.h ·)) && d.xq ≤ xqRoom c.h

/-- Reserve the destination entries, and keep what the destination register holds where it is also a source. -/
def xBegin (h : Hart) (d : XDef) : Hart :=
  match h.win with
  | [] => h
  | e :: t =>
    if e.begun then h
    else
      let h := d.sqs.foldl (fun h q => h.pushSq q {}) h
      let keep := d.dsts.findSome? fun x => match x.1 with
        | .v r => if d.srcs.any (fun y => y.1 == .v r) then some (r, h.vr r) else none
        | .sq _ => none
      { h with win := { e with begun := true, old := keep } :: t }

/-! ## The A side as the X side finds it -/

/-- The instruction at a hart's position, where its line has been entered. -/
def instrHere (h : Hart) : Option Instr :=
  match h.line with
  | none => none
  | some (a, l) =>
    if a = h.pc / 64 * 64 then
      match slotAt l (h.pc % 64 / 12) with
      | .instr i => some i
      | .trap _ _ => none
      | .empty => none
    else none

/-- The bound that AEIX takes: that of the A-side instruction at the position (R344). -/
def asideBound (h : Hart) : Nat := max h.eix (match instrHere h with
  | some i => aBound h.vl.toNat i
  | none => 0)

/-- Entries of sq0, sq1 and xq that an A-side instruction pops from element index e on (R369). -/
def popsOf (h : Hart) : Instr → Nat × Nat × Nat
  | .vldx x => one x.i
  | .vst x => one x.d
  | .vstx _ | .vstsx _ | .vamo _ | .nbadd _ | .nbopt _ => (1, 1, 0)
  | .vstsc x | .vsts x => one x.d
  | .vldsx x => one x.i
  | .sfpool x => let n := if x.op = 1 then 3 else 2
    if x.s = 0 then (n, 0, 0) else (0, n, 0)
  | .popx _ => (0, 0, 1)
  | .qdrop x => match x.q with
    | .xq => (0, 0, x.n.toNat - h.eix)
    | .sq q => if q = 0 then (x.n.toNat - h.eix, 0, 0) else (0, x.n.toNat - h.eix, 0)
  | _ => (0, 0, 0)
where
  one (q : SQ) : Nat × Nat × Nat := if q = 0 then (1, 0, 0) else (0, 1, 0)

/-- The claim of an instruction that waits for its queue entries: those of them that are there, since it claims its entries as it issues
(R369, log 17). -/
def waitingClaim (h : Hart) : Option Claim :=
  (instrHere h).map fun i =>
    let (a, b, x) := popsOf h i
    ⟨h.pc, h.eix, none, min a (sqOpen h 0).length, min b (sqOpen h 1).length, min x h.xq.length, true⟩
/-- The claim that a trap finds: of an instruction that waits for its entries, those there by now. -/
def Hart.trapClaim (h : Hart) : Option Claim :=
  let waits : Bool := match h.wait with
    | some (.queue _) => true
    | _ => h.claim.any (·.waits)
  if waits && !h.claim.any (!·.waits) then waitingClaim h else h.claim

/-! ## Progress -/

/-- The X side has made progress: an A side that waits for it tries again, and has claimed its entries as it issued (R369); the count of
R120 restarts. -/
def Hart.progressed (h : Hart) : Hart :=
  { h with
    blocked := 0, xstop := false
    claim := h.trapClaim
    wait := match h.wait with
      | some (.queue _) => none
      | some .window => none
      | some .xsync => none
      | some .exit => none
      | w => w }

/-- The entry frees: its sources are popped, its destination entries are complete, and leave where their claim was abandoned (R109,
R119, R139, R348). -/
def xFree (h : Hart) (d : XDef) : Hart :=
  let h := d.lqs.foldl (fun h q => { h with lq := h.lq.set q.toNat (h.lq[q.toNat]'(q.isLt)).tail (q.isLt) }) h
  let h := d.sqs.foldl (fun h q =>
    { h with sq := h.sq.set q.toNat (mapLast (fun e => { e with issued := true, done := true }) (h.sq[q.toNat]'(q.isLt))) (q.isLt) }) h
  { h with win := h.win.tail, sq := h.sq.map dropDead }.progressed

/-! ## Traps of the X side (R112, R345) -/

/-- Take an X-side trap at element i of the oldest entry; the A side has stopped at its position. -/
def trapX (h : Hart) (t : XTrap) : Hart :=
  let vl := match h.win with
    | e :: _ => e.vl
    | [] => 0
  { h with claim := h.trapClaim }.takeTrap true t.cause t.val t.i vl h.eix (asideBound h)

end Sys2Proof.Machine
end

