-- ==== Sys2Proof/Machine/XInt.lean ====
section
/-! DEFINITION. Vector integer work and mask work (groups 0x6 and 0x7, R143 to R163). -/

namespace Sys2Proof.Machine

open Sys2Proof

/-! ## Shapes -/

/-- An element without flags, where the element is active. -/
def XEl.plain (x : Nat) : XEl := .vec x Fl.none

/-- R143: two vector sources; `f w a b` is taken modulo 2^w. -/
def xWBin (x : WBin) (f : Nat → Nat → Nat → Nat) : XDef :=
  let w := wbits x.z
  { ctl := x.x, srcs := [(x.a, .w w), (x.b, .w w)], dsts := [(x.d, .w w)],
    sem := .elem fun c i => .plain (f w (c.el x.a w i) (c.el x.b w i) % 2 ^ w) }

/-- The low w bits of the signed 29-bit immediate (R141, R143). -/
def immW (w : Nat) (k : BitVec 29) : Nat := (k.signExtend 64).toNat % 2 ^ w

/-- R143: a vector and an immediate. -/
def xWImm (x : WImm) (f : Nat → Nat → Nat → Nat) : XDef :=
  let w := wbits x.z
  { ctl := x.x, srcs := [(x.a, .w w)], dsts := [(x.d, .w w)],
    sem := .elem fun c i => .plain (f w (c.el x.a w i) (immW w x.k) % 2 ^ w) }

/-- One vector source. -/
def xWUn (x : WUn) (f : Nat → Nat → Nat) : XDef :=
  let w := wbits x.z
  { ctl := x.x, srcs := [(x.a, .w w)], dsts := [(x.d, .w w)], sem := .elem fun c i => .plain (f w (c.el x.a w i) % 2 ^ w) }

/-- Leading zeros of a w-bit pattern. -/
def clzW (w a : Nat) : Nat := if a = 0 then w else w - 1 - a.log2
/-- Ones of a w-bit pattern. -/
def popW (w a : Nat) : Nat := ((List.range w).filter fun i => a.testBit i).length

/-- R133's conditions on w-bit patterns. -/
def condW (w : Nat) (c : Cond) (a b : Nat) : Bool :=
  match c with
  | .eq => a == b
  | .ne => a != b
  | .lt => sint w a < sint w b
  | .ge => sint w b ≤ sint w a
  | .ltu => a < b
  | .geu => b ≤ a
  | .gt => sint w b < sint w a
  | .le => sint w a ≤ sint w b
  | .gtu => b < a
  | .leu => a ≤ b
  | .tst => a &&& b != 0
  | .tstn => a &&& b == 0

/-! ## R143 -/

def xdVadd (x : WBin) : XDef := xWBin x fun _ a b => a + b
def execVadd (x : WBin) (s : State) := xpass s (.vadd x) (xdVadd x)
def xdVsub (x : WImm) : XDef := xWImm x fun w a b => a + (2 ^ w - b)
def execVsub (x : WImm) (s : State) := xpass s (.vsub x) (xdVsub x)
def xdVmul (x : WBin) : XDef := xWBin x fun _ a b => a * b
def execVmul (x : WBin) (s : State) := xpass s (.vmul x) (xdVmul x)
/-- The high w bits of the signed product. -/
def xdVmulh (x : WImm) : XDef := xWImm x fun w a b => wrap w (sint w a * sint w b / 2 ^ w)
def execVmulh (x : WImm) (s : State) := xpass s (.vmulh x) (xdVmulh x)
def xdVabs (x : WUn) : XDef := xWUn x fun w a => (sint w a).natAbs
def execVabs (x : WUn) (s : State) := xpass s (.vabs x) (xdVabs x)
def xdVneg (x : WUn) : XDef := xWUn x fun w a => 2 ^ w - a
def execVneg (x : WUn) (s : State) := xpass s (.vneg x) (xdVneg x)
def xdVmin (x : WBin) : XDef := xWBin x fun w a b => if sint w b < sint w a then b else a
def execVmin (x : WBin) (s : State) := xpass s (.vmin x) (xdVmin x)
def xdVmax (x : WImm) : XDef := xWImm x fun w a b => if sint w a < sint w b then b else a
def execVmax (x : WImm) (s : State) := xpass s (.vmax x) (xdVmax x)
def xdVand (x : WBin) : XDef := xWBin x fun _ a b => a &&& b
def execVand (x : WBin) (s : State) := xpass s (.vand x) (xdVand x)
def xdVor (x : WImm) : XDef := xWImm x fun _ a b => a ||| b
def execVor (x : WImm) (s : State) := xpass s (.vor x) (xdVor x)
def xdVxor (x : WBin) : XDef := xWBin x fun _ a b => a ^^^ b
def execVxor (x : WBin) (s : State) := xpass s (.vxor x) (xdVxor x)
def xdVnot (x : WUn) : XDef := xWUn x fun w a => 2 ^ w - 1 - a
def execVnot (x : WUn) (s : State) := xpass s (.vnot x) (xdVnot x)
/-- Shift counts are taken modulo w. -/
def xdVshl (x : WBin) : XDef := xWBin x fun w a b => a * 2 ^ (b % w)
def execVshl (x : WBin) (s : State) := xpass s (.vshl x) (xdVshl x)
def xdVshr (x : WImm) : XDef := xWImm x fun w a b => a / 2 ^ (b % w)
def execVshr (x : WImm) (s : State) := xpass s (.vshr x) (xdVshr x)
def xdVsra (x : WBin) : XDef := xWBin x fun w a b => wrap w (sint w a / 2 ^ (b % w))
def execVsra (x : WBin) (s : State) := xpass s (.vsra x) (xdVsra x)
def xdVclz (x : WUn) : XDef := xWUn x clzW
def execVclz (x : WUn) (s : State) := xpass s (.vclz x) (xdVclz x)
def xdVpopc (x : WUn) : XDef := xWUn x popW
def execVpopc (x : WUn) (s : State) := xpass s (.vpopc x) (xdVpopc x)

def xdVsel (x : Vsel) : XDef :=
  let w := wbits x.z
  { ctl := x.x, srcs := [(x.a, .w w), (x.b, .w w)], dsts := [(x.d, .w w)],
    sem := .elem fun c i => .plain (if c.mbit x.m i then c.el x.a w i else c.el x.b w i) }
def execVsel (x : Vsel) (s : State) := xpass s (.vsel x) (xdVsel x)

/-! ## Saturating and accumulating forms (R144 to R147) -/

/-- The exact integer of an element of an integer format code. -/
def intOf (code b : Nat) : Int := match fmtOf code with
  | some (.int w true) => sint w b
  | some (.int w false) => ((b % 2 ^ w : Nat) : Int)
  | _ => 0
/-- Clamp into an integer format where `sat`, else keep the low bits (R145 to R147). -/
def narrowTo (code : Nat) (sat : Bool) (x : Int) : Nat × Fl :=
  match fmtOf code with
  | some (.int w sg) => if sat then clampTo w sg x else (wrap w x, Fl.none)
  | _ => (0, Fl.none)

def allSame (c : XCtx) : Option (Nat × Dbl) :=
  if fwA c.e.fw = fwB c.e.fw ∧ fwB c.e.fw = fwD c.e.fw then none else some (2, c.e.fw)

def xdVadds (x : FBin) : XDef :=
  { ctl := x.x, srcs := [(x.a, .a), (x.b, .b)], dsts := [(x.d, .d)], fw := x.f, fclass := true, setA := some fmtI, setB := some fmtI,
    setD := some fmtI, usesRnd := fun _ => false, pre := allSame,
    sem := .elem fun c i =>
      let k := fwA c.e.fw
      let (v, f) := narrowTo k true (intOf k (c.el x.a (codeBits k) i) + intOf k (c.el x.b (codeBits k) i))
      .vec v f }
def execVadds (x : FBin) (s : State) := xpass s (.vadds x) (xdVadds x)

def xdVsubs (x : FImm) : XDef :=
  { ctl := x.x, srcs := [(x.a, .a)], dsts := [(x.d, .d)], fw := x.f, fclass := true, setA := some fmtI, setB := some fmtI,
    setD := some fmtI, usesRnd := fun _ => false, pre := allSame,
    sem := .elem fun c i =>
      let k := fwA c.e.fw
      let (v, f) := narrowTo k true (intOf k (c.el x.a (codeBits k) i) - x.i.toInt)
      .vec v f }
def execVsubs (x : FImm) (s : State) := xpass s (.vsubs x) (xdVsubs x)

/-- R145: the destination, also read, is at least as wide as each source. -/
def xdVmac (x : Vmac) : XDef :=
  { ctl := x.x, srcs := [(x.a, .a), (x.b, .b)], dsts := [(.v x.d, .d)], fw := x.f, fclass := true,
    setA := some [0x00, 0x01, 0x02, 0x03], setB := some [0x00, 0x01, 0x02, 0x03], setD := some [0x02, 0x03, 0x04], usesRnd := fun _ => false,
    pre := fun c =>
      if codeBits (fwA c.e.fw) ≤ codeBits (fwD c.e.fw) ∧ codeBits (fwB c.e.fw) ≤ codeBits (fwD c.e.fw) then none
      else some (2, c.e.fw),
    sem := .elem fun c i =>
      let a := fwA c.e.fw
      let b := fwB c.e.fw
      let d := fwD c.e.fw
      let (v, f) := narrowTo d (fwSat c.e.fw)
        (intOf d (c.el (.v x.d) (codeBits d) i) + intOf a (c.el x.a (codeBits a) i) * intOf b (c.el x.b (codeBits b) i))
      .vec v f }
def execVmac (x : Vmac) (s : State) := xpass s (.vmac x) (xdVmac x)

/-- R146: elements of va and vd are 32-bit words. -/
def xdVdot2 (x : Vdot2) : XDef :=
  { ctl := x.x, srcs := [(x.a, .w 32)], dsts := [(.v x.d, .w 32)], fw := x.f, fclass := true, setA := some [0x02], setB := some [0x02],
    setD := some [0x03], usesRnd := fun _ => false,
    sem := .elem fun c i =>
      let a := c.el x.a 32 i
      let h := x.h.toNat
      let (v, f) := narrowTo 0x03 (fwSat c.e.fw)
        (sint 32 (c.el (.v x.d) 32 i) + sint 16 a * sint 16 h + sint 16 (a / 65536) * sint 16 (h / 65536))
      .vec v f }
def execVdot2 (x : Vdot2) (s : State) := xpass s (.vdot2 x) (xdVdot2 x)

/-- R147. -/
def xdVsrar (x : Vsrar) : XDef :=
  { ctl := x.x, srcs := [(x.a, .a)], dsts := [(x.d, .d)], fw := x.f, fclass := true, setA := some [0x02, 0x03, 0x04], setD := some fmtI,
    pre := fun c =>
      if codeBits (fwA c.e.fw) < codeBits (fwD c.e.fw) then some (2, c.e.fw)
      else if codeBits (fwA c.e.fw) ≤ x.n.toNat then some (2, immOf (.vsrar x))
      else none,
    sem := .elem fun c i =>
      let a := intOf (fwA c.e.fw) (c.el x.a (codeBits (fwA c.e.fw)) i)
      let (q, _) := roundInt (if a < 0 then -1 else 1, a.natAbs, 2 ^ x.n.toNat) (c.rnd i)
      let (v, f) := narrowTo (fwD c.e.fw) (fwSat c.e.fw) q
      .vec v f }
def execVsrar (x : Vsrar) (s : State) := xpass s (.vsrar x) (xdVsrar x)

/-! ## Moves and splats (R148, R149) -/

def xdVmov (x : WUn) : XDef := xWUn x fun _ a => a
def execVmov (x : WUn) (s : State) := xpass s (.vmov x) (xdVmov x)

def xdVsplat (x : WSca) : XDef :=
  let w := wbits x.z
  { ctl := x.x, dsts := [(x.d, .w w)], sa := x.s, sem := .elem fun c _ => .plain (c.e.sa.toNat % 2 ^ w) }
def execVsplat (x : WSca) (s : State) := xpass s (.vsplat x) (xdVsplat x)

def xdVsplatX (x : VsplatX) : XDef :=
  let w := wbits x.z
  { ctl := x.x, dsts := [(x.d, .w w)], sem := .elem fun _ _ => .plain (x.v.toNat % 2 ^ w) }
def execVsplatX (x : VsplatX) (s : State) := xpass s (.vsplatX x) (xdVsplatX x)

def xdViota (x : Viota) : XDef :=
  let w := wbits x.z
  { ctl := x.x, dsts := [(x.d, .w w)], sa := x.s, sem := .elem fun c i => .plain (wrap w (c.e.sa.toNat + i * x.k.toInt)) }
def execViota (x : Viota) (s : State) := xpass s (.viota x) (xdViota x)

/-- Active elements i, each with `f i`. -/
def mapActive (c : XCtx) (g : Guards) (f : Nat → Nat) : List (Nat × Nat) := (c.actives g).map fun i => (i, f i)

/-- R149: the register a captured scalar selects. -/
def pickedReg (c : XCtx) : VReg := BitVec.ofNat 5 (c.e.sa.toNat % 32)
def xdVrmovf (x : WSca) : XDef :=
  let w := wbits x.z
  { ctl := x.x, dsts := [(x.d, .w w)], sa := x.s,
    sem := .whole fun c => .ok { regs := [(x.d, w, mapActive c x.x.g fun i => c.el (.v (pickedReg c)) w i)] } }
def execVrmovf (x : WSca) (s : State) := xpass s (.vrmovf x) (xdVrmovf x)

def xdVrmovt (x : Vrmovt) : XDef :=
  let w := wbits x.z
  { ctl := x.x, srcs := [(x.a, .w w)], sa := x.s,
    sem := .whole fun c => .ok { regs := [(.v (pickedReg c), w, mapActive c x.x.g fun i => c.el x.a w i)] } }
def execVrmovt (x : Vrmovt) (s : State) := xpass s (.vrmovt x) (xdVrmovt x)

/-! ## Compares and mask work (R150 to R152) -/

/-- Element i of a vector, or the low w bits of the captured scalar. -/
def XCtx.elS (c : XCtx) (x : VSrcS) (w i : Nat) : Nat := match x with
  | .vec v => c.el v w i
  | .s _ => c.e.sa.toNat % 2 ^ w
def vsReg : VSrcS → SReg
  | .vec _ => 0
  | .s r => r
def vsSrcs (x : VSrcS) (w : Wd) : List (VSrc × Wd) := match x with
  | .vec v => [(v, w)]
  | .s _ => []

def xdVcmp (x : Vcmp) : XDef :=
  let w := wbits x.z
  { ctl := x.x, srcs := (x.a, .w w) :: vsSrcs x.b (.w w), md := some x.d, sa := vsReg x.b,
    sem := .elem fun c i => .bit (condW w x.c (c.el x.a w i) (c.elS x.b w i)) Fl.none }
def execVcmp (x : Vcmp) (s : State) := xpass s (.vcmp x) (xdVcmp x)

/-- R151: in 64 bits; the entry holds sB in `fw`. -/
def xdVlbc (x : Vlbc) : XDef :=
  { ctl := x.x, md := some x.d, sa := x.a, fw := x.b,
    sem := .elem fun c i => .bit (condW 64 x.c ((c.e.sa.toNat + i) % 2 ^ 64) c.e.fw.toNat) Fl.none }
def execVlbc (x : Vlbc) (s : State) := xpass s (.vlbc x) (xdVlbc x)

def xdMlog (x : Mlog) : XDef :=
  { ctl := x.x, md := some x.d,
    sem := .elem fun c i => .bit (x.t.getLsbD ((if c.mbit x.a i then 2 else 0) + (if c.mbit x.b i then 1 else 0))) Fl.none }
def execMlog (x : Mlog) (s : State) := xpass s (.mlog x) (xdMlog x)

def xdMpopc (x : Mpush) : XDef :=
  { ctl := x.x, xq := 1,
    sem := .whole fun c => .ok { xq := [BitVec.ofNat 64 ((c.actives x.x.g).filter fun i => c.mbit x.m i).length] } }
def execMpopc (x : Mpush) (s : State) := xpass s (.mpopc x) (xdMpopc x)

def xdMffs (x : Mpush) : XDef :=
  { ctl := x.x, xq := 1,
    sem := .whole fun c => .ok { xq := [BitVec.ofNat 64 (((c.actives x.x.g).find? fun i => c.mbit x.m i).getD c.e.vl)] } }
def execMffs (x : Mpush) (s : State) := xpass s (.mffs x) (xdMffs x)

/-- Pair each index with the count of the listed ones before it that satisfy p. -/
def countBefore (p : Nat → Bool) : List Nat → Nat → List (Nat × Nat)
  | [], _ => []
  | i :: t, n => (i, n) :: countBefore p t (if p i then n + 1 else n)
/-- R152, MPFX: the count is of the active j below i. The .b width is an illegal instruction (decoding). -/
def xdMpfx (x : Mpfx) : XDef :=
  let w := wbits x.z
  { ctl := x.x, dsts := [(x.d, .w w)],
    sem := .whole fun c =>
      .ok { regs := [(x.d, w, (countBefore (c.mbit x.m) (c.actives x.x.g) 0).map fun p => (p.1, p.2 % 2 ^ w))] } }
def execMpfx (x : Mpfx) (s : State) := xpass s (.mpfx x) (xdMpfx x)

def xdMffe (x : Mffe) : XDef :=
  { ctl := x.x, md := some x.d, sem := .elem fun c i => .bit (decide (i < c.e.ffe)) Fl.none }
def execMffe (x : Mffe) (s : State) := xpass s (.mffe x) (xdMffe x)

/-! ## Slides, gathers, compress and expand (R153 to R155) -/

/-- R153: k lies in [0, 8192]. -/
def slideBad (i : Instr) (k : BitVec 29) (_ : XCtx) : Option (Nat × Dbl) :=
  if k.toInt < 0 ∨ 8192 < k.toInt then some (2, immOf i) else none

def xdVslideup (x : Slide) : XDef :=
  let w := wbits x.z
  let k := x.k.toNat
  { ctl := x.x, srcs := [(x.a, .w w)], dsts := [(x.d, .w w)], sa := x.s, pre := slideBad (.vslideup x) x.k,
    examined := some fun c => (elemsAt (x.a, .w w) (((c.actives x.x.g).filter (k ≤ ·)).map (· - k))),
    sem := .whole fun c =>
      .ok { regs := [(x.d, w, mapActive c x.x.g fun i => if k ≤ i then c.el x.a w (i - k) else c.e.sa.toNat % 2 ^ w)] } }
def execVslideup (x : Slide) (s : State) := xpass s (.vslideup x) (xdVslideup x)

def xdVslidedn (x : Slide) : XDef :=
  let w := wbits x.z
  let k := x.k.toNat
  { ctl := x.x, srcs := [(x.a, .w w)], dsts := [(x.d, .w w)], sa := x.s, pre := slideBad (.vslidedn x) x.k,
    examined := some fun c => (elemsAt (x.a, .w w) (((c.actives x.x.g).map (· + k)).filter (· < c.e.vl))),
    sem := .whole fun c =>
      .ok { regs := [(x.d, w, mapActive c x.x.g fun i => if i + k < c.e.vl then c.el x.a w (i + k) else c.e.sa.toNat % 2 ^ w)] } }
def execVslidedn (x : Slide) (s : State) := xpass s (.vslidedn x) (xdVslidedn x)

def xdVgathr (x : WBin) : XDef :=
  let w := wbits x.z
  { ctl := x.x, srcs := [(x.a, .w w), (x.b, .w w)], dsts := [(x.d, .w w)],
    examined := some fun c => elemsAt (x.b, .w w) (c.actives x.x.g)
      ++ elemsAt (x.a, .w w) (((c.actives x.x.g).map (c.el x.b w)).filter (· < c.e.vl)),
    sem := .whole fun c =>
      .ok { regs := [(x.d, w, mapActive c x.x.g fun i =>
        let n := c.el x.b w i
        if n < c.e.vl then c.el x.a w n else 0)] } }
def execVgathr (x : WBin) (s : State) := xpass s (.vgathr x) (xdVgathr x)

/-- The positions R155 selects. -/
def picked (c : XCtx) (g : Guards) (m : MReg) : List Nat := (c.actives g).filter fun i => c.mbit m i
def xdVcompr (x : Vpack) : XDef :=
  let w := wbits x.z
  { ctl := x.x, srcs := [(x.a, .w w)], dsts := [(x.d, .w w)],
    examined := some fun c => elemsAt (x.a, .w w) (picked c x.x.g x.m),
    sem := .whole fun c =>
      .ok { regs := [(x.d, w, (countBefore (fun _ => true) (picked c x.x.g x.m) 0).map fun p => (p.2, c.el x.a w p.1))] } }
def execVcompr (x : Vpack) (s : State) := xpass s (.vcompr x) (xdVcompr x)

def xdVexpnd (x : Vpack) : XDef :=
  let w := wbits x.z
  { ctl := x.x, srcs := [(x.a, .w w)], dsts := [(x.d, .w w)],
    examined := some fun c => elemsAt (x.a, .w w) (List.range (picked c x.x.g x.m).length),
    sem := .whole fun c =>
      .ok { regs := [(x.d, w, (countBefore (fun _ => true) (picked c x.x.g x.m) 0).map fun p => (p.1, c.el x.a w p.2))] } }
def execVexpnd (x : Vpack) (s : State) := xpass s (.vexpnd x) (xdVexpnd x)

/-! ## Reductions and scans (R156, R157) -/

/-- The vector destination of a reduction, for R107. -/
def rdDsts (d : RDst) (w : Wd) : List (VDst × Wd) := match d with
  | .v r => [(.v r, w)]
  | .xq => []
def rdPushes : RDst → Nat
  | .v _ => 0
  | .xq => 1
/-- Push a result, or write it to element 0 where vl is not 0. -/
def rdPut (d : RDst) (c : XCtx) (w r : Nat) (push : Dbl) (fl : Fl) : XRes := match d with
  | .v v => { regs := if c.e.vl = 0 then [] else [(.v v, w, [(0, r)])], fl := fl }
  | .xq => { xq := [push], fl := fl }

/-- R156: `id_ w` is the start where OP3 is s0. -/
def xRed (x : Vred) (id_ : Nat → Nat) (op : Nat → Nat → Nat → Nat) : XDef :=
  let w := wbits x.z
  { ctl := x.x, srcs := [(x.a, .w w)], dsts := rdDsts x.d (.w w), xq := rdPushes x.d, sa := x.s,
    sem := .whole fun c =>
      let start := if x.s = 0 then id_ w else c.e.sa.toNat % 2 ^ w
      let r := (c.actives x.x.g).foldl (fun r i => op w r (c.el x.a w i)) start
      .ok (rdPut x.d c w r (BitVec.ofInt 64 (sint w r)) Fl.none) }

def xdVredsum (x : Vred) : XDef := xRed x (fun _ => 0) fun w r a => (r + a) % 2 ^ w
def execVredsum (x : Vred) (s : State) := xpass s (.vredsum x) (xdVredsum x)
def xdVredmin (x : Vred) : XDef := xRed x (fun w => 2 ^ (w - 1) - 1) fun w r a => if sint w a < sint w r then a else r
def execVredmin (x : Vred) (s : State) := xpass s (.vredmin x) (xdVredmin x)
def xdVredmax (x : Vred) : XDef := xRed x (fun w => 2 ^ (w - 1)) fun w r a => if sint w r < sint w a then a else r
def execVredmax (x : Vred) (s : State) := xpass s (.vredmax x) (xdVredmax x)

/-- Running sums over the listed elements: exclusive or inclusive (R157). -/
def scanOver (excl : Bool) (w : Nat) (f : Nat → Nat) : List Nat → Nat → List (Nat × Nat)
  | [], _ => []
  | i :: t, r =>
    let r' := (r + f i) % 2 ^ w
    (i, if excl then r else r') :: scanOver excl w f t r'

def xdVscan (x : Slide) : XDef :=
  let w := wbits x.z
  { ctl := x.x, srcs := [(x.a, .w w)], dsts := [(x.d, .w w)], sa := x.s,
    pre := fun _ => if 1 < x.k.toNat then some (2, immOf (.vscan x)) else none,
    sem := .whole fun c =>
      .ok { regs := [(x.d, w, scanOver (x.k == 1) w (c.el x.a w) (c.actives x.x.g) (c.e.sa.toNat % 2 ^ w))] } }
def execVscan (x : Slide) (s : State) := xpass s (.vscan x) (xdVscan x)

/-! ## Duplicates and sorting (R158 to R160) -/

/-- R158. -/
def xdVconf (x : WUn) : XDef :=
  let w := wbits x.z
  { ctl := x.x, srcs := [(x.a, .w w)], dsts := [(x.d, .w w)],
    sem := .whole fun c =>
      let act := c.actives x.x.g
      .ok { regs := [(x.d, w, act.map fun i =>
        (i, ((act.find? fun j => c.el x.a w j == c.el x.a w i).getD i) % 2 ^ w))] } }
def execVconf (x : WUn) (s : State) := xpass s (.vconf x) (xdVconf x)

/-- One step of VCOMB's operation: integer, or FP32 with draw index i (R159). -/
def combStep (c : XCtx) (op : BitVec 2) (acc v i : Nat) : Nat × Fl :=
  let k := fwB c.e.fw
  let w := codeBits k
  if k = 0x0C then
    match op.toNat with
    | 0 =>
      let (x, f) := Ex.add (c.rnd i) (f32 acc) (f32 v)
      let (b, g) := FFmt.fp32.round x (c.rnd i)
      (b, f.or g)
    | 1 => ((FFmt.fp32.round ((f32 acc).min (f32 v)) Rnd.plain).1, Fl.none)
    | _ => ((FFmt.fp32.round ((f32 acc).max (f32 v)) Rnd.plain).1, Fl.none)
  else
    match op.toNat with
    | 0 => ((acc + v) % 2 ^ w, Fl.none)
    | 1 => (if sint w v < sint w acc then v else acc, Fl.none)
    | _ => (if sint w acc < sint w v then v else acc, Fl.none)

/-- The groups of VCOMB in order of their leaders: key, leader, accumulated value. -/
def combAdd (c : XCtx) (op : BitVec 2) (key v i : Nat) : List (Nat × Nat × Nat) → Fl → List (Nat × Nat × Nat) × Fl
  | [], f => ([(key, i, v)], f)
  | (k, l, a) :: t, f =>
    if k = key then
      let (a', g) := combStep c op a v i
      ((k, l, a') :: t, f.or g)
    else
      let (t', g) := combAdd c op key v i t f
      ((k, l, a) :: t', g)

def xdVcomb (x : Vcomb) : XDef :=
  { ctl := x.x, srcs := [(x.k, .a), (x.v, .b)], dsts := [(x.d, .d)], fw := x.f, fclass := true, setA := some [0x03, 0x04],
    setB := some [0x03, 0x04, 0x0C], setD := some [0x03, 0x04, 0x0C], usesRnd := fun fw => x.op == 0 && fwB fw == 0x0C,
    pre := fun c => if fwB c.e.fw = fwD c.e.fw then none else some (2, c.e.fw),
    sem := .whole fun c =>
      let wk := codeBits (fwA c.e.fw)
      let wv := codeBits (fwB c.e.fw)
      let act := c.actives x.x.g
      let (gs, fl) := act.foldl (fun g i => combAdd c x.op (c.el x.k wk i) (c.el x.v wv i) i g.1 g.2) ([], Fl.none)
      let lead (i : Nat) : Option Nat := (gs.find? fun g => g.2.1 == i).map (·.2.2)
      .ok { regs := [(x.d, wv, act.map fun i => (i, (lead i).getD 0))],
            masks := [(x.l, act.map fun i => (i, (lead i).isSome))], fl := fl } }
def execVcomb (x : Vcomb) (s : State) := xpass s (.vcomb x) (xdVcomb x)

/-- Insert into an ordered list after the entries that do not come after the new one: stable. -/
def insertBy {α : Type} (before : α → α → Bool) (x : α) : List α → List α
  | [] => [x]
  | y :: t => if before x y then x :: y :: t else y :: insertBy before x t
def sortBy {α : Type} (before : α → α → Bool) (l : List α) : List α := l.foldl (fun acc x => insertBy before x acc) []

/-- R160: bit 0 of f compares signed, bit 1 sorts in descending order. -/
def sortLess (w : Nat) (f : BitVec 29) (a b : Nat × Nat) : Bool :=
  let k (x : Nat) : Int := if f.getLsbD 0 then sint w x else x
  if f.getLsbD 1 then k b.1 < k a.1 else k a.1 < k b.1

def xdVsort (x : Vsort) : XDef :=
  let w := wbits x.z
  { ctl := x.x, srcs := [(x.k, .w w), (x.v, .w w)], dsts := [(x.kd, .w w), (x.vd, .w w)],
    pre := fun _ =>
      if 3 < x.fl.toNat then some (2, immOf (.vsort x)) else if x.kd = x.vd then some (2, tvalOf (.vsort x)) else none,
    sem := .whole fun c =>
      let act := c.actives x.x.g
      let q := sortBy (sortLess w x.fl) (act.map fun i => (c.el x.k w i, c.el x.v w i))
      .ok { regs := [(x.kd, w, act.zip (q.map (·.1))), (x.vd, w, act.zip (q.map (·.2)))] } }
def execVsort (x : Vsort) (s : State) := xpass s (.vsort x) (xdVsort x)

/-! ## Bytes and hashes (R161 to R163) -/

def xdVbcmp (x : Vbcmp) : XDef :=
  let w := wbits x.z
  { ctl := x.x, srcs := [(x.a, .w w), (x.b, .w w)], xq := 1,
    sem := .whole fun c =>
      .ok { xq := [match (c.actives x.x.g).find? (fun i => c.el x.a w i != c.el x.b w i) with
        | none => BitVec.ofNat 64 c.e.vl
        | some i => BitVec.ofNat 64 (i + 2 ^ 32 * (if c.el x.a w i < c.el x.b w i then 1 else 2))] } }
def execVbcmp (x : Vbcmp) (s : State) := xpass s (.vbcmp x) (xdVbcmp x)

def xdVbfind (x : Vbfind) : XDef :=
  let w := wbits x.z
  { ctl := x.x, srcs := [(x.a, .w w)], xq := 1, sa := x.s,
    sem := .whole fun c =>
      .ok { xq := [BitVec.ofNat 64
        (((c.actives x.x.g).find? fun i => c.el x.a w i == c.e.sa.toNat % 2 ^ w).getD c.e.vl)] } }
def execVbfind (x : Vbfind) (s : State) := xpass s (.vbfind x) (xdVbfind x)

def xdVhash (x : WBin) : XDef :=
  xWBin x fun w a b => (crcStep (w / 8) (BitVec.ofNat 32 a) b).toNat
def execVhash (x : WBin) (s : State) := xpass s (.vhash x) (xdVhash x)

def xdVxhash (x : Vxhash) : XDef :=
  let w := wbits x.z
  { ctl := x.x, srcs := [(x.a, .w w)], dsts := [(x.d, .w w)], sa := x.s,
    sem := .elem fun c i => .plain ((xmix c.e.sa (BitVec.ofNat 64 (c.el x.a w i))).toNat % 2 ^ w) }
def execVxhash (x : Vxhash) (s : State) := xpass s (.vxhash x) (xdVxhash x)

end Sys2Proof.Machine
end

