-- ==== Sys2Proof/Machine/XFloat.lean ====
section
/-! DEFINITION. Floating-point vectors, reductions, the Hadamard stage, block formats and division by a scale (groups
0x8 and 0x9, R164 to R180). -/

namespace Sys2Proof.Machine

open Sys2Proof

/-! ## Shapes (R164 to R167) -/

def fmtFC : List Nat := fmtF ++ fmtC

/-- One element rounded into DFMT from the exact values of sources A and B; where both meet a trap, A's is taken (log 63). -/
def xFBin (x : FBin) (f : Rnd → Ex → Ex → Ex × Fl) : XDef :=
  { ctl := x.x, srcs := [(x.a, .a), (x.b, .b)], dsts := [(x.d, .d)], fw := x.f, fclass := true, setA := some fmtFC, setB := some fmtFC,
    setD := some fmtF,
    sem := .elem fun c i =>
      match c.val .a x.a i, c.val .b x.b i with
      | .error t, _ => .trap t.1 t.2
      | _, .error t => .trap t.1 t.2
      | .ok a, .ok b =>
        let (v, fl) := c.roundD (f (c.rnd i) a b) i
        .vec v fl }

/-- One element rounded into DFMT from the exact value of source A. -/
def xFUn (x : FUn) (setA : List Nat) (f : Ex → Ex × Fl) : XDef :=
  { ctl := x.x, srcs := [(x.a, .a)], dsts := [(x.d, .d)], fw := x.f, fclass := true, setA := some setA, setD := some fmtF,
    sem := .elem fun c i =>
      match c.val .a x.a i with
      | .error t => .trap t.1 t.2
      | .ok a =>
        let (v, fl) := c.roundD (f a) i
        .vec v fl }

/-! ## Element-wise arithmetic (R168) -/

def xdVfadd (x : FBin) : XDef := xFBin x fun r a b => a.add r b
def execVfadd (x : FBin) (s : State) := xpass s (.vfadd x) (xdVfadd x)
def xdVfsub (x : FBin) : XDef := xFBin x fun r a b => a.add r b.neg
def execVfsub (x : FBin) (s : State) := xpass s (.vfsub x) (xdVfsub x)
def xdVfmul (x : FBin) : XDef := xFBin x fun _ a b => a.mul b
def execVfmul (x : FBin) (s : State) := xpass s (.vfmul x) (xdVfmul x)

/-- c is read at DFMT. -/
def xdVfma (x : Vfma) : XDef :=
  { ctl := x.x, srcs := [(x.a, .a), (x.b, .b), (x.c, .d)], dsts := [(x.d, .d)], fw := x.f, fclass := true, setA := some fmtFC,
    setB := some fmtFC, setD := some fmtF,
    sem := .elem fun c i =>
      match c.val .a x.a i, c.val .b x.b i, c.val .d x.c i with
      | .error t, _, _ => .trap t.1 t.2
      | _, .error t, _ => .trap t.1 t.2
      | _, _, .error t => .trap t.1 t.2
      | .ok a, .ok b, .ok e =>
        let (v, fl) := c.roundD (a.fma (c.rnd i) b e) i
        .vec v fl }
def execVfma (x : Vfma) (s : State) := xpass s (.vfma x) (xdVfma x)

/-- R168: a ÷ b with R77's special operands; by a zero that is not 0 ÷ 0 it sets DZ, an infinity among the dividends (log 62). -/
def Ex.vdiv (a b : Ex) : Ex × Fl :=
  match a with
  | .inf _ => if b.isZero then ((a.div b).1, .dz) else a.div b
  | _ => a.div b
def xdVfdiv (x : FBin) : XDef := xFBin x fun _ a b => a.vdiv b
def execVfdiv (x : FBin) (s : State) := xpass s (.vfdiv x) (xdVfdiv x)
def xdVfsqrt (x : FUn) : XDef := xFUn x fmtFC Ex.sqrt
def execVfsqrt (x : FUn) (s : State) := xpass s (.vfsqrt x) (xdVfsqrt x)
def xdVfmin (x : FBin) : XDef := xFBin x fun _ a b => (a.min b, Fl.none)
def execVfmin (x : FBin) (s : State) := xpass s (.vfmin x) (xdVfmin x)
def xdVfmax (x : FBin) : XDef := xFBin x fun _ a b => (a.max b, Fl.none)
def execVfmax (x : FBin) (s : State) := xpass s (.vfmax x) (xdVfmax x)

/-- R169: on the bits. -/
def xSign (x : FUn) (f : Nat → Nat → Nat) : XDef :=
  { ctl := x.x, srcs := [(x.a, .a)], dsts := [(x.d, .d)], fw := x.f, fclass := true, setA := some fmtF, setD := some fmtF, usesRnd := fun _ => false,
    pre := fun c => if fwA c.e.fw = fwD c.e.fw then none else some (2, c.e.fw),
    sem := .elem fun c i =>
      let w := codeBits (fwA c.e.fw)
      .plain (f w (c.el x.a w i)) }
def xdVfabs (x : FUn) : XDef := xSign x fun w a => a % 2 ^ (w - 1)
def execVfabs (x : FUn) (s : State) := xpass s (.vfabs x) (xdVfabs x)
def xdVfneg (x : FUn) : XDef := xSign x fun w a => a ^^^ 2 ^ (w - 1)
def execVfneg (x : FUn) (s : State) := xpass s (.vfneg x) (xdVfneg x)

/-- R170: the condition and whether an unordered pair sets NV. -/
def fcond (k : FCond) (a b : Ex) : Bool × Fl :=
  let un := a.isNan || b.isNan
  let sig : Fl := if un then Fl.nv else Fl.none
  match k with
  | .eq => (!un && !a.ltNum b && !b.ltNum a, Fl.none)
  | .ne => (un || a.ltNum b || b.ltNum a, Fl.none)
  | .lt => (!un && a.ltNum b, sig)
  | .ge => (!un && !a.ltNum b, sig)
  | .gt => (!un && b.ltNum a, sig)
  | .le => (!un && !b.ltNum a, sig)
  | .uo => (un, Fl.none)
  | .ord => (!un, Fl.none)

/-- The value of source B: a vector's element, or the captured scalar's low bits at BFMT. -/
def XCtx.valS (c : XCtx) (x : VSrcS) (i : Nat) : Except (Nat × Dbl) Ex :=
  match x with
  | .vec v => c.val .b v i
  | .s _ =>
    let w := codeBits (fwB c.e.fw)
    match Wd.b.bank c.e.fw with
    | some k => c.lookup k (c.e.sa.toNat % 2 ^ w) (i % 2 ^ (c.core.bank k).lgg.toNat)
    | none => .ok ((codeFmt (fwB c.e.fw)).value (c.e.sa.toNat % 2 ^ w))

/-- A scalar source under a codebook format also reads the bank. -/
def xdVfcmp (x : Vfcmp) : XDef :=
  { ctl := x.x, srcs := (x.a, .a) :: vsSrcs x.b .b, md := some x.d, sa := vsReg x.b, fw := x.f, fclass := true, setA := some fmtFC,
    setB := some fmtFC, bScalar := match x.b with
      | .vec _ => false
      | .s _ => true,
    usesRnd := fun _ => false,
    sem := .elem fun c i =>
      match c.val .a x.a i, c.valS x.b i with
      | .error t, _ => .trap t.1 t.2
      | _, .error t => .trap t.1 t.2
      | .ok a, .ok b =>
        let (r, fl) := fcond x.c a b
        .bit r fl }
def execVfcmp (x : Vfcmp) (s : State) := xpass s (.vfcmp x) (xdVfcmp x)

/-! ## Functions and conversion (R171, R172) -/

def xdVexp2 (x : FUn) : XDef := xFUn x fmtFC fun a => (a.exp2, Fl.none)
def execVexp2 (x : FUn) (s : State) := xpass s (.vexp2 x) (xdVexp2 x)
def xdVlog2 (x : FUn) : XDef := xFUn x fmtFC Ex.log2
def execVlog2 (x : FUn) (s : State) := xpass s (.vlog2 x) (xdVlog2 x)
def xdVrsqrt (x : FUn) : XDef := xFUn x fmtFC Ex.rsqrt
def execVrsqrt (x : FUn) (s : State) := xpass s (.vrsqrt x) (xdVrsqrt x)
def xdVrcp (x : FUn) : XDef := xFUn x fmtFC Ex.rcp
def execVrcp (x : FUn) (s : State) := xpass s (.vrcp x) (xdVrcp x)
def xdVtanh (x : FUn) : XDef := xFUn x fmtFC fun a => (a.tanh, Fl.none)
def execVtanh (x : FUn) (s : State) := xpass s (.vtanh x) (xdVtanh x)
def xdVerf (x : FUn) : XDef := xFUn x fmtFC fun a => (a.erf, Fl.none)
def execVerf (x : FUn) (s : State) := xpass s (.verf x) (xdVerf x)

/-- Convert element bits between formats: integer to integer by R74's narrowing, else RoundTo. -/
def convTo (src dst : Fmt) (b : Nat) (r : Rnd) : Nat × Fl :=
  match src, dst with
  | .int w sg, .int w' sg' => intToInt w' sg' (if sg then sint w b else ((b % 2 ^ w : Nat) : Int)) r.sat
  | f, t => t.round (f.value b) r

def xdVcvt (x : FUn) : XDef :=
  { ctl := x.x, srcs := [(x.a, .a)], dsts := [(x.d, .d)], fw := x.f, fclass := true, setA := some (fmtF ++ fmtI ++ fmtC),
    setD := some (fmtF ++ fmtI),
    sem := .elem fun c i =>
      if isCb (fwA c.e.fw) then
        match c.val .a x.a i with
        | .error t => .trap t.1 t.2
        | .ok a =>
          let (v, fl) := c.roundD (a, Fl.none) i
          .vec v fl
      else
        let (v, fl) := convTo (codeFmt (fwA c.e.fw)) (codeFmt (fwD c.e.fw)) (c.el x.a (codeBits (fwA c.e.fw)) i) (c.rnd i)
        .vec v fl }
def execVcvt (x : FUn) (s : State) := xpass s (.vcvt x) (xdVcvt x)

/-! ## Reductions (R79, R173, R174) -/

/-- One level of R79's tree over FP32 patterns. -/
def treeLevel : List (Option Nat) → Fl → List (Option Nat) × Fl
  | a :: b :: t, f =>
    let (x, g) : Option Nat × Fl := match a, b with
      | none, y => (y, f)
      | x, none => (x, f)
      | some x, some y =>
        let (z, g) := f32Add x y
        (some z, f.or g)
    let (l, g) := treeLevel t g
    (x :: l, g)
  | l, f => (l, f)
/-- R79; `n` levels suffice for 2^n positions. -/
def treeSum : Nat → List (Option Nat) → Fl → Nat × Fl
  | 0, l, f => ((l.head?.join).getD 0, f)
  | n + 1, l, f =>
    if l.length ≤ 1 then ((l.head?.join).getD 0, f)
    else
      let (l, f) := treeLevel l f
      treeSum n l f

/-- The exact values of the listed elements, or the trap of the first that has one. -/
def valsOf (c : XCtx) (w : Wd) (x : VSrc) : List Nat → Except XTrap (List (Nat × Ex))
  | [] => .ok []
  | i :: t =>
    match c.val w x i with
    | .error (k, v) => .error ⟨i, k, v⟩
    | .ok a => match valsOf c w x t with
      | .error e => .error e
      | .ok l => .ok ((i, a) :: l)

/-- The FP32 pattern of a value that FP32 holds exactly. -/
def asF32 (x : Ex) : Nat := (FFmt.fp32.round x Rnd.plain).1

def xdVfredsum (x : FRed) : XDef :=
  { ctl := x.x, srcs := [(x.a, .a)], dsts := rdDsts x.d .d, xq := rdPushes x.d, sa := x.s, fw := x.f, fclass := true,
    setA := some fmtFC, setD := some fmtF,
    sem := .whole fun c =>
      match valsOf c .a x.a (c.actives x.x.g) with
      | .error t => .error t
      | .ok vs =>
        let leaves := (List.range c.e.vl).map fun i => (vs.find? fun p => p.1 == i).map fun p => asF32 p.2
        let (root, fl) := treeSum 14 leaves Fl.none
        let (root, fl) := if x.s = 0 then (root, fl) else
          let (r, g) := f32Add root (c.e.sa.toNat % 2 ^ 32)
          (r, fl.or g)
        let (r, fl) := c.roundD (f32 root, fl) 0
        .ok (rdPut x.d c (codeBits (fwD c.e.fw)) r (BitVec.ofNat 64 r) fl) }
def execVfredsum (x : FRed) (s : State) := xpass s (.vfredsum x) (xdVfredsum x)

def xdVamax (x : FRed) : XDef :=
  { ctl := x.x, srcs := [(x.a, .a)], dsts := rdDsts x.d .d, xq := rdPushes x.d, sa := x.s, fw := x.f, fclass := true,
    setA := some fmtFC, setD := some fmtF,
    sem := .whole fun c =>
      match valsOf c .a x.a (c.actives x.x.g) with
      | .error t => .error t
      | .ok vs =>
        let start := if x.s = 0 then Ex.zero false else (f32 (c.e.sa.toNat % 2 ^ 32)).abs
        let m := vs.foldl (fun r p => r.max p.2.abs) start
        let (r, fl) := c.roundD (m, Fl.none) 0
        .ok (rdPut x.d c (codeBits (fwD c.e.fw)) r (BitVec.ofNat 64 r) fl) }
def execVamax (x : FRed) (s : State) := xpass s (.vamax x) (xdVamax x)

/-! ## The Hadamard stage (R175) -/

def Ex.half : Ex → Ex
  | .nan => .nan
  | .inf s => .inf s
  | .fin s n d => .fin s n (2 * d)

/-- Results of several elements, with the flags of all. -/
def collect (l : List (Nat × (Nat × Fl))) : List (Nat × Nat) × Fl :=
  (l.map fun p => (p.1, p.2.1), l.foldl (fun f p => f.or p.2.2) Fl.none)

def xdVbfly (x : Vbfly) : XDef :=
  { ctl := x.x, srcs := [(x.a, .a)], dsts := [(x.d, .d)], fw := x.f, fclass := true, setA := some fmtF, setD := some fmtF,
    pre := fun _ => if 12 < x.j.toNat then some (2, immOf (.vbfly x)) else none,
    examined := some fun c => elemsAt (x.a, .a) (c.actives x.x.g ++ ((c.actives x.x.g).map (· ^^^ 2 ^ x.j.toNat)).filter (· < c.e.vl)),
    sem := .whole fun c =>
      let h := 2 ^ x.j.toNat
      let a (i : Nat) : Ex := (codeFmt (fwA c.e.fw)).value (c.el x.a (codeBits (fwA c.e.fw)) i)
      let one (i : Nat) : Nat × Fl :=
        let p := i ^^^ h
        let y : Ex × Fl := if c.e.vl ≤ p then (a i, Fl.none)
          else if i &&& h = 0 then (a i).add (c.rnd i) (a p)
          else (a p).add (c.rnd i) (a i).neg
        c.roundD (if x.hv then (y.1.half, y.2) else y) i
      let (r, fl) := collect ((c.actives x.x.g).map fun i => (i, one i))
      .ok { regs := [(x.d, codeBits (fwD c.e.fw), r)], fl := fl } }
def execVbfly (x : Vbfly) (s : State) := xpass s (.vbfly x) (xdVbfly x)

/-! ## Block floating point (R177 to R179) -/

/-- R177's checks: the scale bytes fit, and the scale register is neither operand. -/
def bfpBad (i : Instr) (o vlen vl : Nat) (d : VDst) (a : VSrc) (sr : VReg) : Option (Nat × Dbl) :=
  if vlen < o + (vl + 47) / 48 || d == .v sr || a == .v sr then some (2, immOf i) else none

/-- The floor of log2 of a magnitude, 127 for an infinity. -/
def magLog : Ex → Int
  | .nan => 127
  | .inf _ => 127
  | .fin _ n d => ilog n d

/-- R178 for one block: its scale byte, mantissas and flags, from the active elements and their values. -/
def bfpBlock (c : XCtx) (m : Nat) (vs : List (Nat × Ex)) : Nat × List (Nat × Nat) × Fl :=
  if vs.any fun p => p.2.isNan then (0xFF, vs.map fun p => (p.1, 0), Fl.nv)
  else
    let a := vs.foldl (fun r p => r.max p.2.abs) (Ex.zero false)
    if a.isZero then (0, vs.map fun p => (p.1, 0), Fl.none)
    else
      let x : Nat := (min (max (magLog a + 128) 0) 0xFE).toNat
      let q (p : Nat × Ex) : Nat × (Nat × Fl) :=
        match p.2 with
        | .fin s n d =>
          let e : Int := (m : Int) - 1 - ((x : Int) - 127)
          let num := if 0 ≤ e then n * 2 ^ e.toNat else n
          let den := if 0 ≤ e then d else d * 2 ^ (-e).toNat
          let (k, inexact) := roundInt (if s then -1 else 1, num, den) (c.rnd p.1)
          let (v, f) := clampTo m true k
          (p.1, (v, f.or (if inexact then Fl.nx else Fl.none)))
        | .inf s => (p.1, (wrap m (if s then intLo m true else intHi m true), Fl.vsat))
        | .nan => (p.1, (0, Fl.none))
      let (r, fl) := collect (vs.map q)
      (x, r, fl)

def xdVqbfp (x : Vbfp) : XDef :=
  { ctl := x.x, srcs := [(x.a, .a)], dsts := [(x.d, .d)], fw := x.f, fclass := true, setA := some fmtH, setD := some fmtB,
    pre := fun c => bfpBad (.vqbfp x) x.o.toNat (c.s.vlen c.hid) c.e.vl x.d x.a (fwScd c.e.fw),
    sem := .whole fun c =>
      let m := codeBits (fwD c.e.fw)
      let w := codeBits (fwA c.e.fw)
      let act := c.actives x.x.g
      let blocks := (List.range ((c.e.vl + 47) / 48)).filterMap fun j =>
        let vs := (act.filter fun i => i / 48 == j).map fun i => (i, (codeFmt (fwA c.e.fw)).value (c.el x.a w i))
        if vs.isEmpty then none else some (j, bfpBlock c m vs)
      .ok { regs := [(x.d, m, blocks.flatMap fun b => b.2.2.1),
                     (.v (fwScd c.e.fw), 8, blocks.map fun b => (x.o.toNat + b.1, b.2.1))],
            fl := blocks.foldl (fun f b => f.or b.2.2.2) Fl.none } }
def execVqbfp (x : Vbfp) (s : State) := xpass s (.vqbfp x) (xdVqbfp x)

def xdVdqbfp (x : Vbfp) : XDef :=
  { ctl := x.x, srcs := [(x.a, .a)], dsts := [(x.d, .d)], fw := x.f, fclass := true, setA := some fmtB, setD := some fmtH,
    pre := fun c => bfpBad (.vdqbfp x) x.o.toNat (c.s.vlen c.hid) c.e.vl x.d x.a (fwSca c.e.fw),
    examined := some fun c => elemsAt (x.a, .a) (c.actives x.x.g)
      ++ elemsAt (.v (fwSca c.e.fw), .w 8) ((c.actives x.x.g).map fun i => x.o.toNat + i / 48),
    sem := .whole fun c =>
      let m := codeBits (fwA c.e.fw)
      let one (i : Nat) : Nat × Fl :=
        c.roundD (bfpValue m (c.el (.v (fwSca c.e.fw)) 8 (x.o.toNat + i / 48)) (c.el x.a m i), Fl.none) i
      let (r, fl) := collect ((c.actives x.x.g).map fun i => (i, one i))
      .ok { regs := [(x.d, codeBits (fwD c.e.fw), r)], fl := fl } }
def execVdqbfp (x : Vbfp) (s : State) := xpass s (.vdqbfp x) (xdVdqbfp x)

/-! ## Division by a scale (R180) -/

def xdVqsc (x : Vqsc) : XDef :=
  { ctl := x.x, srcs := (x.a, .a) :: vsSrcs x.b .b, dsts := [(x.d, .d)], sa := vsReg x.b, fw := x.f, fclass := true, setA := some fmtH,
    setB := some [0x0C], setD := some (fmtF ++ [0x00, 0x01, 0x02, 0x03]),
    sem := .elem fun c i =>
      let a := (codeFmt (fwA c.e.fw)).value (c.el x.a (codeBits (fwA c.e.fw)) i)
      let (v, fl) := c.roundD (a.div (f32 (c.elS x.b 32 i))) i
      .vec v fl }
def execVqsc (x : Vqsc) (s : State) := xpass s (.vqsc x) (xdVqsc x)

end Sys2Proof.Machine
end

