-- ==== Sys2Proof/Machine/XBank.lean ====
section
/-! DEFINITION. Codebook banks (R195 to R213): loads, stores, invalidation, expansion and quantization. -/

namespace Sys2Proof.Machine

open Sys2Proof

/-- The keys of bytes [lo, hi) of a bank slot. -/
def slotKey (c : XCtx) (k : BitVec 4) (j : Nat) : Nat := poolKey c.hid.l c.hid.k (c.core.bankBase k + j)

/-- R199 for a writer: the hart owns the bank and is its writer. -/
def notWriter (c : XCtx) (k : BitVec 4) : Bool := !c.h.cbown.getLsbD k.toNat || bankWriter c.s c.hid k != some c.hid.h

/-! ## CBLD (R209) -/

/-- U of the descriptor a CBLD sets. -/
def cbldSize (x : Cbld) : Nat := (x.n1.toNat + 1) * 2 ^ x.lgg.toNat * (codeBits x.fmt.toNat / 8)
/-- The descriptor and state it leaves (R197). -/
def cbldBank (x : Cbld) (src : Dbl) : Bank :=
  { fmt := x.fmt, cnt := x.n1.toNat + 1, lgg := x.lgg, st := if src = 0 then .dirty else .clean, lnd := false, src := src,
    reload := false }

/-- The slot takes the source bytes, where there is a source; bytes at or beyond U become zero. -/
def cbldWrite (c : XCtx) (x : Cbld) (s : State) : State :=
  let u := cbldSize x
  let s := s.wipe (slotKey c x.k u) (slotKey c x.k c.core.slotBytes)
  let s := match x.src with
    | some v => s.pokes (slotKey c x.k 0) (toBytes u (c.el v (8 * u) 0))
    | none => s
  let lo := if x.src.isSome then slotKey c x.k 0 else slotKey c x.k u
  let s := { s with bad := s.bad.filter fun k => !(lo ≤ k && k < slotKey c x.k c.core.slotBytes) }
  s.updCore c.hid.l c.hid.k fun core => core.setBank x.k (cbldBank x c.e.sa)

def xdCbld (x : Cbld) : XDef :=
  { ctl := ⟨⟨.always, .always⟩, x.sch⟩,
    srcs := match x.src with
      | some v => [(v, .w 8)]
      | none => [],
    sa := x.s, ownBound := true, wbanks := [x.k], noElem := true,
    pre := fun c => if notWriter c x.k then some (2, immOf (.cbld x)) else none,
    check := fun c =>
      if !fmtF.contains x.fmt.toNat then some (2, immOf (.cbld x))
      else if c.core.slotBytes < cbldSize x || (x.src.isSome && c.s.vlen c.hid < cbldSize x) then some (11, immOf (.cbld x))
      else none,
    examined := some fun _ => (match x.src with
      | some v => [((v, .w 8), 0, cbldSize x)]
      | none => []),
    sem := .whole fun c => .ok { post := cbldWrite c x } }
def execCbld (x : Cbld) (s : State) := xpass s (.cbld x) (xdCbld x)

/-! ## CBST (R210) -/

/-- The descriptor word (R196). -/
def Bank.word (b : Bank) : Dbl :=
  let st : Nat := match b.st with
    | .invalid => 0
    | .clean => 1
    | .dirty => 2
  BitVec.ofNat 64 (b.fmt.toNat + 2 ^ 8 * b.cnt + 2 ^ 17 * b.lgg.toNat + 2 ^ 19 * st + (if b.lnd then 2 ^ 21 else 0))

/-- Element i of w bytes of a slot; bytes at or beyond U are zero. -/
def slotElem (c : XCtx) (k : BitVec 4) (w i : Nat) : Nat :=
  ofBytes ((List.range w).map fun j =>
    if i * w + j < (c.core.bank k).used then c.s.peek (slotKey c k (i * w + j)) else 0)
/-- A byte that an element reads lies in an uncorrectable unit. -/
def slotBad (c : XCtx) (k : BitVec 4) (w i : Nat) : Bool :=
  badUnit c.s (((List.range w).filter fun j => i * w + j < (c.core.bank k).used).map fun j => slotKey c k (i * w + j))

def xdCbst (x : Cbst) : XDef :=
  let w := wbits x.z
  let pre := fun (c : XCtx) => if !c.h.cbown.getLsbD x.k.toNat then some (2, immOf (.cbst x)) else none
  match x.d with
  | .vec d =>
    { ctl := x.x, dsts := [(d, .w w)], rbanks := [x.k], pre := pre,
      sem := .whole fun c =>
        let act := c.actives x.x.g
        match act.find? (slotBad c x.k (w / 8)) with
        | some i => .error ⟨i, 0, 0⟩
        | none => .ok { regs := [(d, w, act.map fun i => (i, slotElem c x.k (w / 8) i))] } }
  | .xq =>
    { ctl := x.x, xq := 2, rbanks := [x.k], noElem := true, pre := pre,
      sem := .whole fun c => .ok { xq := [(c.core.bank x.k).word, (c.core.bank x.k).src] } }
def execCbst (x : Cbst) (s : State) := xpass s (.cbst x) (xdCbst x)

/-! ## CBINV (R211) -/

def cbinvBank (c : XCtx) (s : State) (k : BitVec 4) : State :=
  let s := s.wipe (slotKey c k 0) (slotKey c k c.core.slotBytes)
  let s := { s with bad := s.bad.filter fun u => !(slotKey c k 0 ≤ u && u < slotKey c k c.core.slotBytes) }
  s.updCore c.hid.l c.hid.k fun core => core.setBank k {}

def xdCbinv (x : Cbinv) : XDef :=
  { ctl := ⟨⟨.always, .always⟩, x.sch⟩, wbanks := xWrites (.cbinv x), noElem := true,
    pre := fun c => if (xWrites (.cbinv x)).any (notWriter c) then some (2, immOf (.cbinv x)) else none,
    sem := .whole fun c => .ok { post := fun s => (xWrites (.cbinv x)).foldl (cbinvBank c) s } }
def execCbinv (x : Cbinv) (s : State) := xpass s (.cbinv x) (xdCbinv x)

/-! ## VCBX and VCBQ (R212, R213) -/

def xdVcbx (x : FUn) : XDef := xFUn x fmtC fun a => (a, Fl.none)
def execVcbx (x : FUn) (s : State) := xpass s (.vcbx x) (xdVcbx x)

/-- Dist: none is an infinite distance. -/
def cbDist (p q : Ex) : Option (Nat × Nat) :=
  match p, q with
  | .fin s n d, .fin t m e =>
    let x : Int := (if s then -(n : Int) else n) * e - (if t then -(m : Int) else m) * d
    some (x.natAbs * x.natAbs, (d * e) * (d * e))
  | .inf s, .inf t => if s = t then some (0, 1) else none
  | _, _ => none
/-- Exact sum of distances. -/
def distSum : List (Option (Nat × Nat)) → Option (Nat × Nat)
  | [] => some (0, 1)
  | none :: _ => none
  | some (n, d) :: t => (distSum t).map fun r => (n * r.2 + r.1 * d, d * r.2)
/-- The first distance is less than the second. -/
def distLess : Option (Nat × Nat) → Option (Nat × Nat) → Bool
  | some (n, d), some (m, e) => n * e < m * d
  | some _, none => true
  | none, _ => false
/-- The least index of the least distance among those from `e` on, given the best so far. -/
def nearest (f : Nat → Option (Nat × Nat)) : Nat → Nat → Nat → Option (Nat × Nat) → Nat
  | 0, _, best, _ => best
  | n + 1, e, best, d => if distLess (f e) d then nearest f n (e + 1) e (f e) else nearest f n (e + 1) best d

/-- R213 for the group whose first element is i0: its index and flags. -/
def cbGroup (c : XCtx) (k : BitVec 4) (n i0 : Nat) (vs : List (Nat × Ex)) : Nat × Fl :=
  if vs.any fun p => p.2.isNan then (0, Fl.nv)
  else
    let d (e : Nat) := distSum (vs.map fun p => cbDist p.2 (c.entry k e (p.1 - i0)))
    (nearest d (n - 1) 1 0 (d 0), Fl.none)

def xdVcbq (x : FUn) : XDef :=
  { ctl := x.x, srcs := [(x.a, .a)], dsts := [(x.d, .b)], fw := x.f, fclass := true, setA := some fmtH, setB := some fmtC, setD := some fmtC, usesRnd := fun _ => false,
    pre := fun c => if fwB c.e.fw = fwD c.e.fw then none else some (2, c.e.fw),
    sem := .whole fun c =>
      let k := fwCbb c.e.fw
      let b := c.core.bank k
      let g := 2 ^ b.lgg.toNat
      let wd := codeBits (fwD c.e.fw)
      let act := c.actives x.x.g
      let heads := act.filter fun i => i % g == 0
      if b.cnt = 0 then match heads with
        | [] => .ok {}
        | i :: _ => .error ⟨i, 10, BitVec.ofNat 64 (256 * k.toNat)⟩
      else if !heads.isEmpty && badUnit c.s ((List.range (min b.cnt (2 ^ wd) * g * b.ew)).map (slotKey c k)) then .error ⟨heads.headD 0, 0, 0⟩
      else
        let value (i : Nat) : Ex := (codeFmt (fwA c.e.fw)).value (c.el x.a (codeBits (fwA c.e.fw)) i)
        let group (i0 : Nat) : List (Nat × Ex) := (act.filter fun i => i0 ≤ i && i < i0 + g).map fun i => (i, value i)
        let (r, fl) := collect (heads.map fun i0 => (i0 / g, cbGroup c k (min b.cnt (2 ^ wd)) i0 (group i0)))
        .ok { regs := [(x.d, wd, r)], fl := fl } }
def execVcbq (x : FUn) (s : State) := xpass s (.vcbq x) (xdVcbq x)

end Sys2Proof.Machine
end

