-- ==== Sys2Proof/Machine/XTile.lean ====
section
/-! DEFINITION. Tile accumulators and the matrix unit (group 0xA, R80, R214 to R229). -/

namespace Sys2Proof.Machine

open Sys2Proof

/-! ## Tiles -/

/-- Word n = 64 × row + column of a tile. -/
def tileWord (t : TileVal) (n : Nat) : Nat := getBits t.toNat (32 * n) 32
def tilePut (t : TileVal) (l : List (Nat × Nat)) : TileVal :=
  BitVec.ofNat _ (l.foldl (fun a p => setBits a (32 * p.1) 32 p.2) t.toNat)
def Core.tile (c : Core) (k : BitVec 2) : TileVal := c.tiles[k.toNat]'(k.isLt)
/-- Write words of a tile and set its written flag (R216). -/
def Core.setTile (c : Core) (k : BitVec 2) (t : TileVal) : Core :=
  { c with tiles := c.tiles.set k.toNat t (k.isLt), tileWritten := c.tileWritten ||| (1#4 <<< k.toNat) }
def tileWrite (c : XCtx) (k : BitVec 2) (l : List (Nat × Nat)) (s : State) : State :=
  s.updCore c.hid.l c.hid.k fun core => core.setTile k (tilePut (core.tile k) l)

def XCtx.rows (c : XCtx) : Nat := shpRows c.e.shp
def XCtx.cols (c : XCtx) : Nat := shpCols c.e.shp

/-- The first of the checks that fails. -/
def firstBad : List (Bool × Nat × Dbl) → Option (Nat × Dbl)
  | [] => none
  | (b, t) :: l => if b then some t else firstBad l

/-- R219, check 3: the tile is not the hart's. -/
def tileBad (c : XCtx) (i : Instr) (k : BitVec 2) : Bool × Nat × Dbl := (!c.h.tilown.getLsbD k.toNat, 2, immOf i)
/-- R217's shape check. -/
def shapeBad (c : XCtx) : Bool × Nat × Dbl :=
  (c.rows == 0 || 64 < c.rows || c.cols == 0 || 64 < c.cols, 2, c.e.shp)

/-! ## Outer products (R221 to R225) -/

inductive OpaClass where
  | half | eight | block | integer
  deriving DecidableEq, Repr

/-- R221: the class of two formats, a codebook standing as its bank's entry format. -/
def classOf (fw : Dbl) (sparse : Bool) (a b : Nat) : Option OpaClass :=
  let fp32 := fwD fw == 0x0C
  let wide (x : Nat) : Bool := fmtH.contains x
  let small (x : Nat) : Bool := x == 0x08 || x == 0x09
  let int (x : Nat) : Bool := x == 0x00 || x == 0x01 || x == 0x02
  if fp32 && fmtF.contains a && fmtF.contains b && (wide a || wide b) then some .half
  else if fp32 && small a && small b then some .eight
  else if fp32 && fmtB.contains a && fmtB.contains b && !sparse then some .block
  else if !fp32 && int a && int b then some .integer
  else none
/-- The class at the pass (R201). -/
def classAtPass (c : XCtx) (sparse : Bool) : Option OpaClass :=
  let eff (w : Wd) : Nat := match w.bank c.e.fw with
    | some k => (descAt c.core c.h k).1
    | none => w.code c.e.fw
  classOf c.e.fw sparse (eff .a) (eff .b)
/-- The class as the entry runs: its banks hold the descriptors of the pass (R201); an Invalid one counts as BF16. -/
def classNow (core : Core) (fw : Dbl) (sparse : Bool) : OpaClass :=
  let eff (w : Wd) : Nat := match w.bank fw with
    | some k => match (core.bank k).st with
      | .invalid => 0x0B
      | _ => (core.bank k).fmt.toNat
    | none => w.code fw
  (classOf fw sparse (eff .a) (eff .b)).getD .half

def OpaClass.group : OpaClass → Nat
  | .half => 16
  | .eight => 32
  | .block => 48
  | .integer => 1

/-- n elements of a source exceed VLEN bytes; a codebook source stores an index for g of them (R222). -/
def storedOver (c : XCtx) (w : Wd) (n : Nat) : Bool :=
  let g := match w.bank c.e.fw with
    | some k => 2 ^ (descAt c.core c.h k).2
    | none => 1
  8 * c.s.vlen c.hid < (n + g - 1) / g * w.bits c.e.fw

def opaCheck (i : Instr) (k : BitVec 2) (a b : VSrc) (sparse : Bool) (c : XCtx) : Option (Nat × Dbl) :=
  let cl := classAtPass c sparse
  let scale (r : VReg) : Bool := a == .v r || b == .v r
  firstBad [
    (cl.isNone, 2, c.e.fw), tileBad c i k, shapeBad c,
    (storedOver c .a (c.rows * c.e.vl) || storedOver c .b (c.e.vl * c.cols), 2, BitVec.ofNat 64 c.e.vl),
    (cl == some .block && (c.e.vl % 48 != 0 || scale (fwSca c.e.fw) || scale (fwScb c.e.fw)), 2, BitVec.ofNat 64 c.e.vl)]

/-- R80: the exact sum of a group's products. -/
def groupSum (l : List Ex) : Ex × Fl :=
  let pos := l.any (· == .inf false)
  let neg := l.any (· == .inf true)
  if pos && neg then (.nan, Fl.nv)
  else if l.any Ex.isNan then (.nan, Fl.none)
  else match l with
    | [] => (.zero false, Fl.none)
    | x :: t => (t.foldl (fun s y => (s.add .plain y).1) x, Fl.none)

/-- A block product: the mantissas' integer product under both scales. -/
def blockProd (ma mb xa xb a b : Nat) : Ex :=
  if xa = 0xFF ∨ xb = 0xFF then .nan
  else
    let v := sint ma a * sint mb b
    .dyadic (decide (v < 0)) v.natAbs ((xa : Int) - 127 - (ma - 1 : Nat) + ((xb : Int) - 127 - (mb - 1 : Nat)))

/-- The values of elements n(0) to n(count − 1) of a source, or the first trap. -/
def rankVals (c : XCtx) (w : Wd) (x : VSrc) (n : Nat → Nat) (count : Nat) : Except (Nat × Dbl) (List Ex) :=
  (List.range count).foldr (fun j acc =>
    match c.val w x (n j) with
    | .error t => .error t
    | .ok v => match acc with
      | .error t => .error t
      | .ok l => .ok (v :: l)) (.ok [])

/-- The values of the ranks of a group: A's column and B's row of each, A examined before B. -/
def ranksOf (c : XCtx) (a b : VSrc) (pos : Nat → Nat) : List Nat → Except XTrap (List (List Ex × List Ex))
  | [] => .ok []
  | p :: t =>
    match rankVals c .a a (fun r => pos p * c.rows + r) c.rows, rankVals c .b b (fun j => p * c.cols + j) c.cols with
    | .error e, _ => .error ⟨p, e.1, e.2⟩
    | .ok _, .error e => .error ⟨p, e.1, e.2⟩
    | .ok u, .ok v => match ranksOf c a b pos t with
      | .error e => .error e
      | .ok l => .ok ((u, v) :: l)

/-- Add a group's sum into one FP32 word. -/
def accWord (t : Nat) (prods : List (Ex × Fl)) : Nat × Fl :=
  let (s, g) := groupSum (prods.map (·.1))
  let fl := prods.foldl (fun f p => f.or p.2) g
  let (b, h) := f32Round ((f32 t).add .plain s)
  (b, fl.or h)

/-- The words of the rectangle, row by row. -/
def rectOf (c : XCtx) : List (Nat × Nat) := (List.range c.rows).flatMap fun r => (List.range c.cols).map fun j => (r, j)

/-- Perform the group of ranks [lo, hi) (R223, R225): `present` and `pos` are the rank's presence and the position of
its A operand. -/
def opaGroup (k : BitVec 2) (g : Guards) (a b : VSrc) (sparse : Bool) (present : XCtx → Nat → Bool) (pos : XCtx → Nat → Nat)
    (c : XCtx) (lo hi : Nat) : Except XTrap XRes :=
  let ranks := ((List.range (hi - lo)).map (lo + ·)).filter fun p => c.active g p && present c p
  if ranks.isEmpty then .ok {}
  else
    let tile := c.core.tile k
    let wa := codeBits (fwA c.e.fw)
    let wb := codeBits (fwB c.e.fw)
    let kk := c.e.vl
    let put (f : Nat → Nat → Nat → Nat × Fl) : Except XTrap XRes :=
      let (l, fl) := collect ((rectOf c).map fun p => (64 * p.1 + p.2, f p.1 p.2 (tileWord tile (64 * p.1 + p.2))))
      .ok { fl := fl, post := tileWrite c k l }
    match classNow c.core c.e.fw sparse with
    | .integer => put fun r j t =>
        let s := ranks.foldl (fun (acc : Int) p => acc + intOf (fwA c.e.fw) (c.el a wa (pos c p * c.rows + r))
          * intOf (fwB c.e.fw) (c.el b wb (p * c.cols + j))) 0
        (wrap 32 (t + s), Fl.none)
    | .block => put fun r j t =>
        accWord t (ranks.map fun p =>
          let n := r * kk + p
          let m := j * kk + p
          (blockProd wa wb (c.el (.v (fwSca c.e.fw)) 8 (n / 48)) (c.el (.v (fwScb c.e.fw)) 8 (m / 48)) (c.el a wa n)
            (c.el b wb m), Fl.none))
    | _ =>
      match ranksOf c a b (pos c) ranks with
      | .error e => .error e
      | .ok vs => put fun r j t => accWord t (vs.map fun v => (v.1.getD r .nan).mul (v.2.getD j .nan))

/-- The source elements that rank p of an outer product reads: A's, then B's, then in the block class the scales (R221 to R225). -/
def opaNeed (a b : VSrc) (sparse : Bool) (pos : XCtx → Nat → Nat) (c : XCtx) (p : Nat) : List ((VSrc × Wd) × Nat × Nat) :=
  match classNow c.core c.e.fw sparse with
  | .block =>
    let kk := c.e.vl
    let scale (r : VReg) (n : Nat) : (VSrc × Wd) × Nat × Nat := ((.v r, .w 8), n / 48, n / 48 + 1)
    ((List.range c.rows).map fun r => ((a, .a), r * kk + p, r * kk + p + 1))
      ++ ((List.range c.cols).map fun j => ((b, .b), j * kk + p, j * kk + p + 1))
      ++ ((List.range c.rows).map fun r => scale (fwSca c.e.fw) (r * kk + p))
      ++ (List.range c.cols).map fun j => scale (fwScb c.e.fw) (j * kk + p)
  | _ => [((a, .a), pos c p * c.rows, (pos c p + 1) * c.rows), ((b, .b), p * c.cols, (p + 1) * c.cols)]

/-- The group size of an entry (R80). -/
def opaStep (sparse : Bool) (fw : Dbl) (s : State) (hid : HartId) : Nat := (classNow (s.core hid.l hid.k) fw sparse).group

def opaSets (blocks : Bool) : List Nat := fmtFC ++ [0x00, 0x01, 0x02] ++ if blocks then fmtB else []

def xdOpa (x : Opa) : XDef :=
  { ctl := x.x, srcs := [(x.a, .a), (x.b, .b)], fw := x.f, fclass := true, setA := some (opaSets true), setB := some (opaSets true),
    setD := some [0x03, 0x0C], usesRnd := fun _ => false, ownBound := true, check := opaCheck (.opa x) x.k x.a x.b false,
    fin := fun c s => tileWrite c x.k [] s,
    sem := .ranks (opaStep false) (opaNeed x.a x.b false fun _ p => p) (opaGroup x.k x.x.g x.a x.b false (fun _ _ => true) (fun _ p => p)) }
def execOpa (x : Opa) (s : State) := xpass s (.opa x) (xdOpa x)

/-- Present ranks below p. -/
def presentBelow (c : XCtx) (m : MReg) (p : Nat) : Nat := ((List.range p).filter (c.mbit m)).length

def xdOpas (x : Opas) : XDef :=
  { ctl := x.x, srcs := [(x.a, .a), (x.b, .b)], fw := x.f, fclass := true, setA := some (opaSets false), setB := some (opaSets false),
    setD := some [0x03, 0x0C], usesRnd := fun _ => false, ownBound := true, check := opaCheck (.opas x) x.k x.a x.b true,
    fin := fun c s => tileWrite c x.k [] s, present := fun c p => c.mbit x.m p,
    sem := .ranks (opaStep true) (opaNeed x.a x.b true fun c p => presentBelow c x.m p)
      (opaGroup x.k x.x.g x.a x.b true (fun c p => c.mbit x.m p) (fun c p => presentBelow c x.m p)) }
def execOpas (x : Opas) (s : State) := xpass s (.opas x) (xdOpas x)

/-! ## TZERO, TLDS, TSTS (R226, R227) -/

/-- R219, check 2: guards where there must be none. -/
def guardBad (i : Instr) (g : Guards) : Bool × Nat × Dbl := (!g.absent, 1, tvalOf i)

def xdTzero (x : Tzero) : XDef :=
  { ctl := x.x, ownBound := true, check := fun c => firstBad [guardBad (.tzero x) x.x.g, tileBad c (.tzero x) x.k],
    sem := .whole fun c => .ok { post := fun s => s.updCore c.hid.l c.hid.k fun core => core.setTile x.k 0 } }
def execTzero (x : Tzero) (s : State) := xpass s (.tzero x) (xdTzero x)

/-- The word that element i of a line operand maps to (R227). -/
def lineWordOf (c : XCtx) (col : Bool) (i : Nat) : Nat :=
  let x := c.e.sa.toNat
  if col then 64 * (i % c.rows) + (x + i / c.rows) else 64 * (x + i / c.cols) + i % c.cols

def linesBad (c : XCtx) (col : Bool) : Bool × Nat × Dbl :=
  let l := if col then c.rows else c.cols
  (64 < c.e.sa.toNat + (c.e.vl + l - 1) / l, 2, c.e.sa)

def fmtLine : List Nat := fmtF ++ [0x00, 0x01, 0x02, 0x03]

def xdTlds (x : Tlds) : XDef :=
  { ctl := x.x, srcs := [(x.a, .a)], sa := x.s, fw := x.f, fclass := true, setA := some fmtLine, setD := some [0x0C, 0x03],
    check := fun c => firstBad [tileBad c (.tlds x) x.k, shapeBad c, linesBad c x.col],
    sem := .whole fun c =>
      let one (i : Nat) : Nat × Nat × Fl :=
        let n := lineWordOf c x.col i
        (n, convTo (codeFmt (fwA c.e.fw)) (codeFmt (fwD c.e.fw)) (c.el x.a (codeBits (fwA c.e.fw)) i) (c.rnd n))
      let (l, fl) := collect ((c.actives x.x.g).map one)
      .ok { fl := fl, post := tileWrite c x.k l } }
def execTlds (x : Tlds) (s : State) := xpass s (.tlds x) (xdTlds x)

def xdTsts (x : Tsts) : XDef :=
  { ctl := x.x, dsts := [(x.d, .d)], sa := x.s, fw := x.f, fclass := true, setA := some [0x0C, 0x03], setD := some fmtLine,
    check := fun c => firstBad [tileBad c (.tsts x) x.k, shapeBad c, linesBad c x.col],
    sem := .whole fun c =>
      let one (i : Nat) : Nat × Nat × Fl :=
        (i, convTo (codeFmt (fwA c.e.fw)) (codeFmt (fwD c.e.fw)) (tileWord (c.core.tile x.k) (lineWordOf c x.col i)) (c.rnd i))
      let (l, fl) := collect ((c.actives x.x.g).map one)
      .ok { regs := [(x.d, codeBits (fwD c.e.fw), l)], fl := fl } }
def execTsts (x : Tsts) (s : State) := xpass s (.tsts x) (xdTsts x)

/-! ## TROWV and TVROW (R228) -/

def rowBad (c : XCtx) : List (Bool × Nat × Dbl) :=
  [(63 < c.e.sa.toNat, 2, c.e.sa), (64 < c.e.vl, 2, BitVec.ofNat 64 c.e.vl)]
def rowWordOf (c : XCtx) (col : Bool) (i : Nat) : Nat :=
  if col then 64 * i + c.e.sa.toNat else 64 * c.e.sa.toNat + i

def xdTrowv (x : Trowv) : XDef :=
  { ctl := x.x, dsts := [(x.d, .w 32)], sa := x.s, check := fun c => firstBad (tileBad c (.trowv x) x.k :: rowBad c),
    sem := .whole fun c =>
      .ok { regs := [(x.d, 32, mapActive c x.x.g fun i => tileWord (c.core.tile x.k) (rowWordOf c x.col i))] } }
def execTrowv (x : Trowv) (s : State) := xpass s (.trowv x) (xdTrowv x)

def xdTvrow (x : Tvrow) : XDef :=
  { ctl := x.x, srcs := [(x.a, .w 32)], sa := x.s, check := fun c => firstBad (tileBad c (.tvrow x) x.k :: rowBad c),
    sem := .whole fun c =>
      .ok { post := tileWrite c x.k ((c.actives x.x.g).map fun i => (rowWordOf c x.col i, c.el x.a 32 i)) } }
def execTvrow (x : Tvrow) (s : State) := xpass s (.tvrow x) (xdTvrow x)

/-! ## TSCALE (R229) -/

/-- The tile is written whether or not an element is active (log 71). -/
def xdTscale (x : Tscale) : XDef :=
  let scalar := match x.src with
    | .vec _ => false
    | .s _ => true
  { ctl := x.x, srcs := vsSrcs x.src .b, sa := vsReg x.src, fw := x.f, fclass := true, setA := some [0x0C, 0x03], setB := some fmtF,
    setD := some [0x0C], ownBound := true,
    check := fun c =>
      let n := if x.col then c.rows else c.cols
      firstBad [
        (scalar && !x.x.g.absent, 1, tvalOf (.tscale x)), tileBad c (.tscale x) x.k, shapeBad c,
        (!scalar && 8 * c.s.vlen c.hid < n * codeBits (fwB c.e.fw), 2, BitVec.ofNat 64 c.e.vl)],
    examined := some fun c => (vsSrcs x.src .b).map fun y => (y, 0, if x.col then c.rows else c.cols),
    sem := .whole fun c =>
      let fb := codeFmt (fwB c.e.fw)
      let wb := codeBits (fwB c.e.fw)
      let t := c.core.tile x.k
      let words := (rectOf c).filter fun p => scalar || c.active x.x.g (if x.col then p.1 else p.2)
      let one (p : Nat × Nat) : Nat × Nat × Fl :=
        let n := 64 * p.1 + p.2
        let v := (codeFmt (fwA c.e.fw)).value (tileWord t n)
        (n, c.roundD (v.mul (fb.value (c.elS x.src wb (if x.col then p.1 else p.2)))) n)
      let (l, fl) := collect (words.map one)
      .ok { fl := fl, post := tileWrite c x.k l } }
def execTscale (x : Tscale) (s : State) := xpass s (.tscale x) (xdTscale x)

end Sys2Proof.Machine
end

