-- ==== Sys2Proof/Machine/XRun.lean ====
section
/-! DEFINITION. The X side at work: element groups and completions of the oldest window entry, bank reloads, X-side traps
(R108, R109, R112, R114, R115, R202, R207). -/

namespace Sys2Proof.Machine

open Sys2Proof

/-- What an X-side instruction is; none for an A-side instruction or an event. -/
def xdef : Instr → Option XDef
  | .vadd x => some (xdVadd x)
  | .vsub x => some (xdVsub x)
  | .vmul x => some (xdVmul x)
  | .vmulh x => some (xdVmulh x)
  | .vmac x => some (xdVmac x)
  | .vdot2 x => some (xdVdot2 x)
  | .vabs x => some (xdVabs x)
  | .vneg x => some (xdVneg x)
  | .vmin x => some (xdVmin x)
  | .vmax x => some (xdVmax x)
  | .vand x => some (xdVand x)
  | .vor x => some (xdVor x)
  | .vxor x => some (xdVxor x)
  | .vnot x => some (xdVnot x)
  | .vshl x => some (xdVshl x)
  | .vshr x => some (xdVshr x)
  | .vsra x => some (xdVsra x)
  | .vsrar x => some (xdVsrar x)
  | .vclz x => some (xdVclz x)
  | .vpopc x => some (xdVpopc x)
  | .vsel x => some (xdVsel x)
  | .vmov x => some (xdVmov x)
  | .vsplat x => some (xdVsplat x)
  | .vsplatX x => some (xdVsplatX x)
  | .viota x => some (xdViota x)
  | .vadds x => some (xdVadds x)
  | .vsubs x => some (xdVsubs x)
  | .vrmovf x => some (xdVrmovf x)
  | .vrmovt x => some (xdVrmovt x)
  | .vcmp x => some (xdVcmp x)
  | .vlbc x => some (xdVlbc x)
  | .mlog x => some (xdMlog x)
  | .mpopc x => some (xdMpopc x)
  | .mffs x => some (xdMffs x)
  | .mpfx x => some (xdMpfx x)
  | .mffe x => some (xdMffe x)
  | .vslideup x => some (xdVslideup x)
  | .vslidedn x => some (xdVslidedn x)
  | .vgathr x => some (xdVgathr x)
  | .vcompr x => some (xdVcompr x)
  | .vexpnd x => some (xdVexpnd x)
  | .vredsum x => some (xdVredsum x)
  | .vredmin x => some (xdVredmin x)
  | .vredmax x => some (xdVredmax x)
  | .vscan x => some (xdVscan x)
  | .vconf x => some (xdVconf x)
  | .vcomb x => some (xdVcomb x)
  | .vsort x => some (xdVsort x)
  | .vbcmp x => some (xdVbcmp x)
  | .vbfind x => some (xdVbfind x)
  | .vhash x => some (xdVhash x)
  | .vxhash x => some (xdVxhash x)
  | .vfadd x => some (xdVfadd x)
  | .vfsub x => some (xdVfsub x)
  | .vfmul x => some (xdVfmul x)
  | .vfma x => some (xdVfma x)
  | .vfdiv x => some (xdVfdiv x)
  | .vfsqrt x => some (xdVfsqrt x)
  | .vfmin x => some (xdVfmin x)
  | .vfmax x => some (xdVfmax x)
  | .vfabs x => some (xdVfabs x)
  | .vfneg x => some (xdVfneg x)
  | .vfcmp x => some (xdVfcmp x)
  | .vexp2 x => some (xdVexp2 x)
  | .vlog2 x => some (xdVlog2 x)
  | .vrsqrt x => some (xdVrsqrt x)
  | .vrcp x => some (xdVrcp x)
  | .vtanh x => some (xdVtanh x)
  | .verf x => some (xdVerf x)
  | .vcvt x => some (xdVcvt x)
  | .vfredsum x => some (xdVfredsum x)
  | .vbfly x => some (xdVbfly x)
  | .vamax x => some (xdVamax x)
  | .vqbfp x => some (xdVqbfp x)
  | .vdqbfp x => some (xdVdqbfp x)
  | .vqsc x => some (xdVqsc x)
  | .cbld x => some (xdCbld x)
  | .cbst x => some (xdCbst x)
  | .cbinv x => some (xdCbinv x)
  | .vcbx x => some (xdVcbx x)
  | .vcbq x => some (xdVcbq x)
  | .tzero x => some (xdTzero x)
  | .opa x => some (xdOpa x)
  | .opas x => some (xdOpas x)
  | .tlds x => some (xdTlds x)
  | .tsts x => some (xdTsts x)
  | .trowv x => some (xdTrowv x)
  | .tvrow x => some (xdTvrow x)
  | .tscale x => some (xdTscale x)
  | _ => none

/-! ## The oldest entry -/

/-- The oldest entry of a hart's window with what it is. -/
def xHead (s : State) (hid : HartId) : Option (XCtx × XDef) :=
  let h := s.hart hid
  match h.win with
  | [] => none
  | e :: _ => (xdef e.i).map fun d => (⟨s, hid, h, e⟩, d)

/-- The hart's X side may perform: the module and the launch run, in user mode (R346). -/
def xLive (s : State) (hid : HartId) : Bool :=
  s.md.power == .ready && (s.hart hid).phase == .running && (s.launch hid.l).phase == .running && !(s.hart hid).sup
  && notHeld s hid

/-- Elements of one element group: 64 bytes of the widest operand (R7, R114). -/
def groupLen (d : XDef) (fw : Dbl) : Nat :=
  let b := (d.srcs.map fun x => x.2.bits fw) ++ d.dsts.map fun x => x.2.bits fw
  512 / max (b.foldl max 1) 1

/-! ## Reload (R207) -/

/-- The keys of n bytes at va, where this module's memory holds all of them. -/
def sourceKeys (s : State) (p : Nat) (pgs : List TlbEntry) (va n : Nat) : Option (List Nat) :=
  ((List.range n).map fun j =>
    let e := pageOf pgs (va + j)
    if e.isLocal then some (e.key (s.part p).dies (va + j)) else if e.isSelf s then peerKey s (e.pa (va + j)) else none).allSome

/-- A value of n bytes that a reload reads at va, where memory no longer equals the bank: from memory here, one that those bytes have
held, never a mixture; what the memory of another module or of the host holds is no state of this one, so that its bytes are free
(log 20). -/
def reloadValue (s : State) (p : Nat) (pgs : List TlbEntry) (va n : Nat) : State × Nat :=
  match sourceKeys s p pgs va n with
  | some ks => heldElt s ks
  | none => (List.range n).foldl (fun (s, acc) _ => let (s, b) := s.draw; (s, acc * 256 + b.toNat)) (s, 0)

/-- The address at which a target rejects a reload's read (R311, R313, R315): the first byte that this module's home refuses or that no
link reaches; of the values in another module any one, or none. -/
def reloadReject (s : State) (pgs : List TlbEntry) (src used ew : Nat) : State × Option Nat :=
  let page (j : Nat) : TlbEntry := pageOf pgs (src + j)
  let refused (j : Nat) : Bool := pteTier (page j).pte == 2
    && if (page j).isSelf s then (peerKey s ((page j).pa (src + j))).isNone else s.md.linkOk == 0
  match (List.range used).find? refused with
  | some j => (s, some (src + j))
  | none =>
    let far := ((List.range (used / ew)).map (src + ew * ·)).filter fun a => pteTier (pageOf pgs a).pte == 2 && !(pageOf pgs a).isSelf s
    if far.isEmpty then (s, none)
    else
      let (s, c) := s.choose (far.length + 1)
      (s, far[c]?)

/-- Read a Clean bank's bytes again from its source (R207): where memory still equals the bank the same bytes, else values that those
bytes have held. -/
def reloadBank (s : State) (hid : HartId) (k : BitVec 4) : State × Except (Nat × Dbl) Unit :=
  let core := s.core hid.l hid.k
  let b := core.bank k
  if !b.reload || b.st != .clean then (s, .ok ())
  else
    let p := s.partOf hid
    let src := b.src.toNat
    match checkRange s p (s.hart hid).root false .load src b.used with
    | (s, .error (c, v)) => (s, .error (if c = eccCause then (0, 0) else (c, BitVec.ofNat 64 v)))
    | (s, .ok pgs) => match reloadReject s pgs src b.used b.ew with
      | (s, some a) => (s, .error (7, BitVec.ofNat 64 a))
      | (s, none) =>
        let ks := (List.range b.used).filterMap fun j => (sourceKeys s p pgs (src + j) 1).map fun l => (pteC (pageOf pgs (src + j)).pte, l.headD 0)
        let (s, bad) := needsAny s ks
        if bad then (s, .error (0, 0))
        else
          let s := noteDeadKeys s p (ks.map (·.2))
          let bank (j : Nat) : Byte := s.peek (poolKey hid.l hid.k (core.bankBase k + j))
          let same := (sourceKeys s p pgs src b.used).any fun l => (List.range b.used).all fun j => s.peek (l.getD j 0) == bank j
          let s := if same then s else (List.range (b.used / b.ew)).foldl (fun s i =>
            let (s, v) := reloadValue s p pgs (src + i * b.ew) b.ew
            s.pokes (poolKey hid.l hid.k (core.bankBase k + i * b.ew)) (toBytes b.ew v)) s
          (s.updCore hid.l hid.k fun c => c.setBank k { b with reload := false }, .ok ())

/-- Reload every listed bank that needs it. -/
def reloadAll (hid : HartId) : List (BitVec 4) → State → State × Except (Nat × Dbl) Unit
  | [], s => (s, .ok ())
  | k :: t, s =>
    match reloadBank s hid k with
    | (s, .ok ()) => reloadAll hid t s
    | r => r

/-- The source elements that elements or ranks [lo, hi) of an entry read, in the order in which they are examined. -/
def XDef.needs (d : XDef) (c : XCtx) (lo hi : Nat) : List ((VSrc × Wd) × Nat × Nat) :=
  match d.sem with
  | .ranks _ need _ => (((List.range (hi - lo)).map (lo + ·)).filter fun p => c.active d.ctl.g p && d.present c p).flatMap (need c)
  | .elem _ => d.srcs.map fun x => (x, lo, hi)
  | .whole _ => d.srcs.map fun x => (x, lo, hi)

/-- The source elements whose values elements or ranks [lo, hi) of an entry take: those of its active elements (R362, R372). -/
def XDef.reading (d : XDef) (c : XCtx) (lo hi : Nat) : List ((VSrc × Wd) × Nat × Nat) :=
  match d.sem with
  | .ranks _ _ _ => d.needs c lo hi
  | .elem _ => d.srcs.flatMap fun x => elemsAt x (((List.range (hi - lo)).map (lo + ·)).filter (c.active d.ctl.g))
  | .whole _ => match d.examined with
    | some f => f c
    | none => d.srcs.flatMap fun x => elemsAt x (c.actives d.ctl.g)

/-- Reload the banks of an entry's sources in the order in which its element i examines them, each operand's indices before the next
operand's bank (R202, R207, R224). -/
def reloadSrcs (hid : HartId) (fw : Dbl) (i : Nat) : List ((VSrc × Wd) × Nat × Nat) → State → State × Option XTrap
  | [], s => (s, none)
  | (x, lo, hi) :: t, s =>
    match x.2.bank fw with
    | none => reloadSrcs hid fw i t s
    | some k =>
      match reloadBank s hid k with
      | (s, .error (c, v)) => (s, some ⟨i, c, v⟩)
      | (s, .ok ()) =>
        let bad : Option (Nat × Dbl) := match xHead s hid with
          | some (c, _) => ((List.range (hi - lo)).map (lo + ·)).findSome? fun n => match c.val x.2 x.1 n with
            | .error e => some e
            | .ok _ => none
          | none => none
        match bad with
        | some (c, v) => (s, some ⟨i, c, v⟩)
        | none => reloadSrcs hid fw i t s

/-- The reloads that elements [lo, hi) of an entry cause, and the trap at the first active one where one fails. -/
def entryReload (c : XCtx) (d : XDef) (lo hi : Nat) : State × Option XTrap :=
  let banks := c.e.banks ++ if d.noElem then d.wbanks else []
  let first := if d.noElem then some 0
    else ((List.range (hi - lo)).map (lo + ·)).find? fun i => c.active d.ctl.g i && d.present c i
  if !banks.any (fun k => (c.core.bank k).reload) then (c.s, none)
  else match first with
    | none => (c.s, none)
    | some i =>
      match reloadSrcs c.hid c.e.fw i (if d.noElem then [] else d.needs c i (i + 1)) c.s with
      | (s, some t) => (s, some t)
      | (s, none) => match reloadAll c.hid banks s with
        | (s, .ok ()) => (s, none)
        | (s, .error (k, v)) => (s, some ⟨i, k, v⟩)

/-! ## Upsets in vector registers and queue slots (R372) -/

/-- The keys of bytes [lo, hi) of a vector register in the register region (R184). -/
def regKeys (s : State) (hid : HartId) (r : VReg) (lo hi : Nat) : List Nat := slotKeys s hid r.toNat lo hi
/-- A source's bytes in these elements hold an uncorrectable unit: of a register, or of the bytes that its pusher wrote in the slot of
a queue entry. -/
def srcBad (c : XCtx) (l : List ((VSrc × Wd) × Nat × Nat)) : Bool :=
  !c.s.bad.isEmpty && l.any fun x =>
    let b := srcBytes c x.1.2 x.2.1 x.2.2
    match x.1.1 with
    | .v r => badUnit c.s (regKeys c.s c.hid r b.1 b.2)
    | .lq q => match headLq c.h q with
      | none => false
      | some e => entryReadBad c.s c.hid (lqSlot q e) e b.1 b.2
/-- The slot of the register region that a destination writes: a register's, or that of the entry reserved last in its queue. -/
def dstSlot (h : Hart) : VDst → Nat
  | .v r => r.toNat
  | .sq q => sqSlot q ((h.sq[q.toNat]'(q.isLt)).getLastD {})
/-- Destination bytes written: units wholly replaced are sound again, and a merge into a bad one is a device fault. -/
def regWritten (s : State) (hid : HartId) (l : List (VDst × Nat × List Nat)) : State × Bool :=
  if s.bad.isEmpty then (s, false)
  else
    writeUnits s (l.flatMap fun x => x.2.2.flatMap fun i =>
      slotKeys s hid (dstSlot (s.hart hid) x.1) (x.2.1 * i / 8) ((x.2.1 * (i + 1) + 7) / 8))

/-! ## Results -/

/-- Perform elements i, i + 1, … of a group: their outcomes, and the first trap. -/
def runElems (c : XCtx) (d : XDef) (f : XCtx → Nat → XEl) : Nat → Nat → List (Nat × XEl) × Option XTrap
  | 0, _ => ([], none)
  | n + 1, i =>
    if c.active d.ctl.g i then
      match f c i with
      | .trap k v => ([], some ⟨i, k, v⟩)
      | r =>
        let (l, t) := runElems c d f n (i + 1)
        ((i, r) :: l, t)
    else runElems c d f n (i + 1)

/-- Write one element's outcome and OR in its flags (R76). -/
def putEl (d : XDef) (fw : Dbl) (h : Hart) (x : Nat × XEl) : Hart :=
  match x.2 with
  | .vec v fl => match d.dsts.head? with
    | some (t, w) => (h.putD t (w.bits fw) x.1 v).flag fl
    | none => h.flag fl
  | .bit b fl => match d.md with
    | some m => (h.putM m x.1 b).flag fl
    | none => h.flag fl
  | .trap _ _ => h

/-- Write what a whole entry or a rank group gives. -/
def putRes (s : State) (hid : HartId) (r : XRes) : State :=
  let s := s.updHart hid fun h =>
    let h := r.regs.foldl (fun h x => x.2.2.foldl (fun h e => h.putD x.1 x.2.1 e.1 e.2) h) h
    let h := r.masks.foldl (fun h x => x.2.foldl (fun h e => h.putM x.1 e.1 e.2) h) h
    { h.flag r.fl with xq := h.xq ++ r.xq }
  r.post s

/-- The A side is inside an element in another module or in the host: it waits for the answer, or has it and has not gone on. -/
def Hart.inAccess (h : Hart) : Bool := match h.wait with
  | some (.peer _) | some (.scStore _) => true
  | none => !h.answers.isEmpty
  | _ => false

/-- Take the trap of the oldest entry (R112, R345), or the device fault that cause 0 stands for. While the A side performs an
element in another module or in the host, it has not reached its boundary: it is to stop there, and the trap is not taken yet. Nor is
it while the A side has no slot at its position to stop at: it moves to the next line (R42). Until then the state is `old`. -/
def xTake (old s : State) (hid : HartId) (t : XTrap) : State :=
  if t.cause = 0 then deviceFault s (s.partOf hid) 1
  else if (s.hart hid).inAccess then old.updHart hid fun h => { h with xstop := true }
  else match settlePos s hid with
    | (s, true) => s.updHart hid fun h => trapX { h with wait := (old.hart hid).wait } t
    | (_, false) => (settlePos old hid).1

/-! ## Steps of the X side -/

/-- The oldest entry with its queue entry reserved. -/
def begunCtx (s : State) (hid : HartId) (d : XDef) : State := s.updHart hid fun h => xBegin h d
def setProg (p : Nat) (h : Hart) : Hart := match h.win with
  | e :: t => { h with win := { e with prog := p } :: t }.progressed
  | [] => h

/-- The next element group of the oldest entry (ELEMENT_GROUP): up to the next multiple of `n` elements. -/
def elemGroup (old : State) (c : XCtx) (d : XDef) (f : XCtx → Nat → XEl) (lo hi : Nat) : State :=
  let (l, t) := runElems c d f (hi - lo) lo
  let s := c.s.updHart c.hid fun h => setProg (match t with
    | some t => t.i
    | none => hi) (l.foldl (putEl d c.e.fw) h)
  let (s, merge) := regWritten s c.hid ((d.dsts.take 1).map fun x => (x.1, x.2.bits c.e.fw, l.map (·.1)))
  if merge then deviceFault s (s.partOf c.hid) 1
  else match t with
    | some t => xTake old s c.hid t
    | none => s

def rankGroup (old : State) (c : XCtx) (f : XCtx → Nat → Nat → Except XTrap XRes) (lo hi : Nat) : State :=
  match f c lo hi with
  | .error t => xTake old (c.s.updHart c.hid (setProg lo)) c.hid t
  | .ok r => putRes (c.s.updHart c.hid (setProg hi)) c.hid r

/-- Everything that must hold before elements [lo, hi) of the oldest entry are performed. -/
def groupReady (c : XCtx) (d : XDef) (lo hi : Nat) : Bool :=
  decide (lo < hi) && xLive c.s c.hid && xMayBegin c d && (d.needs c lo hi).all fun x => srcReady c x.1 x.2.1 x.2.2

def xGroup (s : State) (hid : HartId) : State :=
  match xHead s hid with
  | none => s
  | some (c, d) =>
    let start (lo hi : Nat) (k : State → XCtx → State) : State :=
      if !groupReady c d lo hi then s
      else
        match entryReload c d lo hi with
        | (t, some x) => xTake s t hid x
        | (t, none) =>
          match xHead (begunCtx t hid d) hid with
          | some (c, _) => if srcBad c (d.reading c lo hi) then deviceFault t (t.partOf hid) 1 else k t c
          | none => s
    let lo := c.e.prog
    match d.sem with
    | .whole _ => s
    | .elem f =>
      let n := groupLen d c.e.fw
      let hi := min c.e.vl ((lo / n + 1) * n)
      start lo hi fun _ c => elemGroup s c d f lo hi
    | .ranks g _ f =>
      let n := max (g c.e.fw s hid) 1
      let hi := min c.e.vl ((lo / n + 1) * n)
      start lo hi fun _ c => rankGroup s c f lo hi

/-- Free the oldest entry; a +yd entry defers its hart's lane groups for 16 cycles (R115). -/
def xComplete (s : State) (c : XCtx) (d : XDef) : State :=
  let s := d.fin c s
  s.updHart c.hid fun h =>
    let h := xFree h d
    if d.ctl.sch.getLsbD 1 then { h with ydEnd := s.cycle + 16 } else h

/-- The completion of the oldest entry (X_ENTRY_COMPLETION): a whole entry performs here. -/
def xFinish (s : State) (hid : HartId) : State :=
  match xHead s hid with
  | none => s
  | some (c, d) =>
    let popped := d.lqs.all fun q => match headLq c.h q with
      | some e => e.done
      | none => false
    if !(xLive s hid && xMayBegin c d && popped) then s
    else
      let t := begunCtx s hid d
      match d.sem with
      | .whole f =>
        match entryReload c d 0 c.e.vl with
        | (t, some x) => xTake s t hid x
        | (t, none) =>
          if srcBad c (d.reading c 0 c.e.vl) then deviceFault t (t.partOf hid) 1
          else match xHead t hid with
            | none => s
            | some (c, _) => match f c with
              | .error x => xTake s t hid x
              | .ok r =>
                let t := putRes (begunCtx t hid d) hid r
                let (t, merge) := regWritten t hid (r.regs.map fun x => (x.1, x.2.1, x.2.2.map (·.1)))
                if merge then deviceFault t (t.partOf hid) 1 else xComplete t c d
      | .elem _ => if c.e.prog < c.e.vl then s else xComplete t c d
      | .ranks _ _ _ => if c.e.prog < c.e.vl then s else xComplete t c d

/-! ## The events -/

/-- ELEMENT_GROUP. -/
def execElementGroup (h : HartId) (s : State) : Host.Outcome State Fault Refusal := .next (close s (xGroup s h))
/-- X_ENTRY_COMPLETION. -/
def execXEntryCompletion (h : HartId) (s : State) : Host.Outcome State Fault Refusal := .next (close s (xFinish s h))
/-- YIELD_HINT_END: the 16 cycles of a +yd entry are over (R115). -/
def execYieldHintEnd (h : HartId) (s : State) : Host.Outcome State Fault Refusal :=
  let x := s.hart h
  .next (close s (if x.ydEnd = 0 ∨ s.cycle < x.ydEnd then s else s.setHart h { x with ydEnd := 0 }))

end Sys2Proof.Machine
end

