-- ==== Sys2Proof/Machine/Engines.lean ====
section
/-! DEFINITION. Tags, Pannier Engine commands and the interlock table (R256 to R272, R193, R199, R204, R205). -/

namespace Sys2Proof.Machine

open Sys2Proof

/-! ## Tags (R256, R257, R271) -/

def tagIn (m : Dbl) (t : Nat) : Bool := m.getLsbD t
/-- The lowest tag of a mask that lies outside the hart's tagown. -/
def strayTag (h : Hart) (m : Dbl) : Option Nat := (List.range 64).find? fun t => tagIn m t && !tagIn h.tagown t
/-- A tag of the mask is Busy: an engine command in flight names it. -/
def busyIn (c : Core) (m : Dbl) : Bool := c.engines.any fun e => tagIn m e.tag.toNat
/-- DONE and M. -/
def doneIn (c : Core) (h : Hart) (m : Dbl) : Dbl := c.tagDone &&& h.tagown &&& m

/-- A tag instruction with mask M: R257, then its effect. -/
def tagOp (g : Guards) (m : SReg) (s : State) (f : Hart → Dbl → AOut) : Host.Outcome State Fault Refusal :=
  aside s g fun h => match strayTag h (h.s m) with
    | some t => .trap s 18 (BitVec.ofNat 64 t) 0 0
    | none => f h (h.s m)

def execTwaitany (x : Tmask2) (s : State) : Host.Outcome State Fault Refusal :=
  tagOp x.g x.m s fun h m =>
    let d := doneIn s.myCore h m
    if d = 0 ∧ busyIn s.myCore m then .wait s .tags else .done (s.setMe (h.setS x.d d))
def execTwaitall (x : Tmask) (s : State) : Host.Outcome State Fault Refusal :=
  tagOp x.g x.m s fun _ m => if busyIn s.myCore m then .wait s .tags else .done s

/-- Clear DONE bits of the current core. -/
def clearDone (s : State) (m : Dbl) : State := s.updCore s.cur.l s.cur.k fun c => { c with tagDone := c.tagDone &&& ~~~m }
def tagBit (t : Nat) : Dbl := BitVec.ofNat 64 (2 ^ t)

def execTfind (x : Tfind) (s : State) : Host.Outcome State Fault Refusal :=
  tagOp x.g x.m s fun h m =>
    match (List.range 64).find? (tagIn (doneIn s.myCore h m)) with
    | some t =>
      let s := s.setMe (h.setS x.d (BitVec.ofNat 64 t))
      .done (if x.c then clearDone s (tagBit t) else s)
    | none => .done (s.setMe (h.setS x.d 64))
def execTclr (x : Tmask) (s : State) : Host.Outcome State Fault Refusal :=
  tagOp x.g x.m s fun _ m => .done (clearDone s m)

/-! ## The ranges of a command (R259, R260) -/

/-- A range of a command: its space, its first address and its length. -/
structure ERange where
  pool : Bool
  a : Nat
  n : Nat
  deriving DecidableEq, Repr

def maxRange : Nat := 2 ^ 36

/-- R193 and R199 for a pool range: the tval of the reject, or the bank slot it lies in. -/
def poolCheck (s : State) (h : Hart) (write : Bool) (r : ERange) : Except Nat (Option (BitVec 4)) :=
  let c := s.myCore
  if r.n = 0 ∨ (c.bnd1.toNat ≤ r.a ∧ r.a + r.n ≤ c.bnd2.toNat) then .ok none
  else match c.slotOf r.a with
    | none => .error r.a
    | some k =>
      if c.bankBase k + c.slotBytes < r.a + r.n then .error r.a
      else if (if write then bankWriter s s.cur k == some s.cur.h else h.cbown.getLsbD k.toNat) then .ok (some k)
      else .error (c.bankBase k)

/-- Check one page of a global range from va up to hi: every byte of it is there, on a local tier. -/
def engPage (s : State) (acc : Acc) (va hi : Nat) : State × Except AccFault TlbEntry :=
  let h := s.me
  let p := s.partOf s.cur
  match checkByte s p h.root h.sup acc va with
  | (s, .error f) => (s, .error f)
  | (s, .ok e) =>
    if !e.isLocal then (s, .error (7, va))
    else
      let stop := min hi (65536 * (va / 65536 + 1))
      let rest := ((List.range 16).map fun i => 65536 * (va / 65536) + 4096 * i).filter fun a => va < a && a < stop
      match rest.find? fun a => !installed s (s.part p).dies e.pte (e.pa a) with
      | some a => (s, .error (7, a))
      | none => (s, .ok e)

/-- Check the pages of [va, hi), lowest first; `n` counts the pages left. -/
def engPages (acc : Acc) (hi : Nat) : Nat → State → Nat → State × Except AccFault (List TlbEntry)
  | 0, s, _ => (s, .ok [])
  | n + 1, s, va =>
    match engPage s acc va hi with
    | (s, .error f) => (s, .error f)
    | (s, .ok e) =>
      match engPages acc hi n s (65536 * (va / 65536 + 1)) with
      | (s, .error f) => (s, .error f)
      | (s, .ok r) => (s, .ok (e :: r))

/-- What the check of a range gives: its pages and the bank slot it lies in. -/
abbrev Checked := List TlbEntry × Option (BitVec 4)

/-- Steps 4 and 6 of R260: tcause and tval where the range fails. -/
def rangeCheck (s : State) (h : Hart) (write : Bool) (r : ERange) : State × Except (Nat × Nat) Checked :=
  if r.pool then
    (s, match poolCheck s h write r with
      | .error v => .error (17, v)
      | .ok k => .ok ([], k))
  else if r.n = 0 then (s, .ok ([], none))
  else match engPages (if write then .store else .load) (r.a + r.n) ((r.a + r.n - 1) / 65536 - r.a / 65536 + 1) s r.a with
    | (s, .error f) => (s, .error f)
    | (s, .ok l) => (s, .ok (l, none))

/-- The ranges lie in one space and share a byte (R260 step 7): an empty range shares none. -/
def rangesMeet (x y : ERange) : Bool := 0 < x.n && 0 < y.n && x.pool == y.pool && x.a < y.a + y.n && y.a < x.a + x.n

/-! ## What a command waits for (R261, R263, R205, R207) -/

/-- The interlock entry of a range: none for an empty one and for one in a codebook slot. -/
def ERange.ivl (c : Core) (r : ERange) (k : Option (BitVec 4)) : List Range :=
  if r.n = 0 ∨ k.isSome then []
  else if r.pool then [⟨true, r.a - c.bnd1.toNat, r.a + r.n - c.bnd1.toNat⟩]
  else [⟨false, r.a, r.a + r.n⟩]

/-- The parts of local physical memory that a global range covers: tier, first and past-the-end address. -/
def ERange.spans (r : ERange) (pgs : List TlbEntry) : List (Nat × Nat × Nat) :=
  pgs.map fun e =>
    let lo := max r.a (65536 * e.vpn)
    let hi := min (r.a + r.n) (65536 * (e.vpn + 1))
    (pteTier e.pte, e.frame + lo % 65536, e.frame + lo % 65536 + (hi - lo))

/-- A near-memory update of the hart that is not yet performed reaches the range. -/
def nbMeets (h : Hart) (r : ERange) (pgs : List TlbEntry) : Bool :=
  h.nb.any fun i => i.locs.any fun (a, n) => (r.spans pgs).any fun (t, lo, hi) =>
    t == pteTier a.e.pte && a.e.pa a.va < hi && lo < a.e.pa a.va + n

/-- A posted store to this module's own memory, of the hart or one that happens before its command, reaches the range (R332,
R336). -/
def postedMeets (s : State) (r : ERange) (pgs : List TlbEntry) : Bool :=
  (s.before s.cur).any fun p => p.mod.isSome && p.mod == s.md.modId && p.bytes.any fun b =>
    (r.spans pgs).any fun (t, lo, hi) =>
      let a := p.pa + b.1
      (if t = 0 then lo ≤ a && a < hi else 2 ^ 50 + lo ≤ a && a < 2 ^ 50 + hi)

/-- An element of a load of the hart that has not arrived, or a row that a pooled lookup of it is still to read, lies in the range. -/
def readMeets (s : State) (h : Hart) (r : ERange) (pgs : List TlbEntry) : Bool :=
  let dies := (s.part (s.partOf s.cur)).dies
  let spans := r.spans pgs
  h.lq.toList.any fun q => q.any fun e =>
    (e.flight.any fun x => e.src.any fun y => y.1 == x.1 && y.2.any fun key => (keyAddr dies key).any fun a =>
        spans.any fun (t, lo, hi) => t == a.1 && lo ≤ a.2 && a.2 < hi)
    || e.pool.any fun p => p.left.any fun b =>
      let g := p.bags.getD b (0, 0)
      let n := p.d * if p.half then 2 else 4
      p.rows.any fun y => g.1 ≤ y.1 && y.1 < g.2 && spans.any fun (t, lo, hi) =>
        t == pteTier y.2.e.pte && y.2.e.pa y.2.va < hi && lo < y.2.e.pa y.2.va + n

/-- A command of the hart that has not completed reads or writes a pool byte of the range. -/
def slotMeets (c : Core) (hid : Nat) (r : ERange) : Bool :=
  r.pool && c.engines.any fun e => e.hid == hid
    && ((if e.dPool then e.op.dest else []) ++ if e.sPool then e.op.source else []).any fun x => x.1 < r.a + r.n && r.a < x.1 + x.2

/-- What holds the hart's own access to a range up: its interlock entries (R263), and its earlier accesses to those
bytes that are not performed yet (R261). -/
def rangeWait (s : State) (h : Hart) (r : ERange) (ck : Checked) : Option Wait :=
  let c := s.myCore
  if (r.ivl c ck.2).any (fun v => interlocked c s.cur.h v.pool v.lo v.hi) then some .interlock
  else if ck.2.isSome && slotMeets c s.cur.h r then some .engine
  else if nbMeets h r ck.1 then some .nbfence
  else if readMeets s h r ck.1 then some .reads
  else if postedMeets s r ck.1 then some .posted
  else none

/-- An older or younger write of another hart to the bank of the source is pending (R205). -/
def sourceWait (s : State) (k : Option (BitVec 4)) : Option Wait :=
  match k with
  | some k => if bankPending s s.cur k then some .bank else none
  | none => none

/-- The first conditions of R261, and the release fences that stand before the command's writes (R335). -/
def engineWait (s : State) (h : Hart) (t : BitVec 6) (n : Nat) : Option Wait :=
  let c := s.myCore
  if c.engines.any (·.tag == t) then some .engine
  else if 32 < n + (c.engines.map (·.ivl.length)).sum then some .engine
  else relWait h

def firstWait : List (Option Wait) → Option Wait
  | [] => none
  | some w :: _ => some w
  | none :: t => firstWait t

/-! ## Issue (R260, R261) -/

/-- A command whose ranges have passed steps 4 and 6: step 7, the waits, and the issue. -/
def engIssue (s : State) (h : Hart) (t : BitVec 6) (op : EngOp) (src : Option ERange) (dst : ERange) (sc dc : Checked) : AOut :=
  if src.any (rangesMeet · dst) then .trap s 2 (BitVec.ofNat 64 dst.a) 0 0
  else
    let c := s.myCore
    let ivl := (match src with
      | some r => r.ivl c sc.2
      | none => []) ++ dst.ivl c dc.2
    match firstWait [engineWait s h t ivl.length, src.bind (rangeWait s h · sc), rangeWait s h dst dc, sourceWait s sc.2] with
    | some w => .wait s w
    | none =>
      match reloadAll s.cur (sc.2.toList ++ dc.2.toList) s with
      | (s, .error (0, _)) => faulted s 1
      | (s, .error (k, v)) => .trap s k v 0 0
      | (s, .ok ()) =>
        .done (s.updCore s.cur.l s.cur.k fun c =>
          { c with
            tagDone := c.tagDone &&& ~~~tagBit t.toNat, seq := c.seq + 1
            engines := c.engines ++ [{ hid := s.cur.h, tag := t, op := op, dPool := dst.pool, sPool := src.any (·.pool),
                                       sPages := sc.1, dPages := dc.1, ivl := ivl, seq := c.seq, dstBank := dc.2, srcBank := sc.2 }] })

/-- Steps 4, 6 and on of R260, for a command whose destination is known. -/
def engRanges (s : State) (h : Hart) (t : BitVec 6) (op : EngOp) (src : Option ERange) (dst : ERange) : AOut :=
  let got : State × Except (Nat × Nat) Checked := match src with
    | some r => rangeCheck s h false r
    | none => (s, .ok ([], none))
  match got with
  | (s, .error f) => accTrap s f 0 0
  | (s, .ok sc) =>
    match rangeCheck s h true dst with
    | (s, .error f) => accTrap s f 0 0
    | (s, .ok dc) => engIssue s h t op src dst sc dc

/-- R257 for the tag of a command. -/
def engTag (s : State) (h : Hart) (t : BitVec 6) (k : AOut) : AOut :=
  if tagIn h.tagown t.toNat then k else .trap s 18 (t.zeroExtend 64) 0 0

/-- Bytes of a two-dimensional range: (k − 1)·P + b, 0 for no rows. -/
def pitched (k p b : Nat) : Nat := if k = 0 then 0 else (k - 1) * p + b

def pcopyBody (x : Pcopy) (s : State) (h : Hart) : AOut :=
  let d := (h.s x.d).toNat
  let a := (h.s x.s).toNat
  let n := h.s x.n
  engTag s h x.t <|
    if x.p = 0 then
      if maxRange < n.toNat then .trap s 2 n 0 0
      else engRanges s h x.t (.copy d a n.toNat) (some ⟨x.sp, a, n.toNat⟩) ⟨x.dp, d, n.toNat⟩
    else
      let k := (n.extractLsb' 32 32).toNat
      let b := (n.extractLsb' 0 32).toNat
      let ps := ((h.s x.p).extractLsb' 0 32).toNat
      let pd := ((h.s x.p).extractLsb' 32 32).toNat
      if maxRange < pitched k ps b ∨ maxRange < pitched k pd b then .trap s 2 n 0 0
      else if ps < b ∨ pd < b then .trap s 2 (h.s x.p) 0 0
      else engRanges s h x.t (.copy2 d a k b ps pd) (some ⟨x.sp, a, pitched k ps b⟩) ⟨x.dp, d, pitched k pd b⟩
def execPcopy (x : Pcopy) (s : State) : Host.Outcome State Fault Refusal := aside s x.g (pcopyBody x s)

def pfillBody (x : Pfill) (s : State) (h : Hart) : AOut :=
  let w := 2 ^ x.z.toNat
  let n := h.s x.n
  engTag s h x.t <|
    if maxRange < n.toNat ∨ n.toNat % w ≠ 0 then .trap s 2 n 0 0
    else engRanges s h x.t (.fill (h.s x.d).toNat n.toNat w (h.s x.v)) none ⟨x.dp, (h.s x.d).toNat, n.toNat⟩
def execPfill (x : Pfill) (s : State) : Host.Outcome State Fault Refusal := aside s x.g (pfillBody x s)

/-! ## PDEC (R268) -/

/-- What the header read waits for, in program order: what any access of the hart to those bytes waits for, pending
writers of a bank it lies in, and leases on its lines. -/
def headerWait (s : State) (h : Hart) (r : ERange) (ck : Checked) (len : Nat) : Option Wait :=
  let hr : ERange := ⟨r.pool, r.a, min r.n len⟩
  firstWait [rangeWait s h hr ck, (arrivedBefore s s.cur).map .lease, sourceWait s ck.2,
    match ck.2 with
    | some k => if h.win.any (fun e => (xWrites e.i).contains k) then some .bank else none
    | none => none,
    if r.pool then none else
      ((List.range hr.n).findSome? fun i =>
        let l := (pageOf ck.1 (r.a + i)).key (s.part (s.partOf s.cur)).dies (r.a + i) / 64
        if leased s s.cur false l then some (Wait.lease l) else none)]

/-- Read the first `len` bytes of the source of a PDEC at issue (R268): what they wait for, the reload of the bank they lie in, and
an uncorrectable error in them, in the way; then `k` with them. -/
def pdecRead (s : State) (h : Hart) (src : ERange) (sc : Checked) (len : Nat) (k : State → (Nat → Byte) → AOut) : AOut :=
  match headerWait s h src sc len with
  | some w => .wait s w
  | none =>
    match reloadAll s.cur sc.2.toList s with
    | (s, .error (0, _)) => faulted s 1
    | (s, .error (k, v)) => .trap s k v 0 0
    | (s, .ok ()) =>
      let reads := (List.range (min src.n len)).map (src.a + ·)
      let (s, bad) := engBad s s.cur.l s.cur.k src.pool sc.1 reads
      if bad then faulted s 1
      else
        let s := if src.pool then s else noteDeadKeys s (s.partOf s.cur) (reads.map (engKey s s.cur.l s.cur.k false sc.1))
        let (s, t) := engSees s s.cur src.pool sc.1 reads
        k s fun o => engByte t s.cur.l s.cur.k src.pool sc.1 (src.a + o)

def pdecBody (x : Pdec) (s : State) (h : Hart) : AOut :=
  let d := (h.s x.d).toNat
  let a := (h.s x.s).toNat
  let n := h.s x.n
  let src : ERange := ⟨x.sp, a, n.toNat⟩
  engTag s h x.t <|
    if maxRange < n.toNat then .trap s 2 n 0 0
    else match rangeCheck s h false src with
      | (s, .error f) => accTrap s f 0 0
      | (s, .ok sc) =>
        pdecRead s h src sc 16 fun s f => match ransWidth f n.toNat with
          | none => .trap s 2 (h.s x.s) 0 0
          | some b => pdecRead s h src sc (ransSize b) fun s f => match ransHeader f n.toNat with
            | none => .trap s 2 (h.s x.s) 0 0
            | some r =>
              let dst : ERange := ⟨x.dp, d, (r.n * r.b + 7) / 8⟩
              match rangeCheck s h true dst with
              | (s, .error f) => accTrap s f 0 0
              | (s, .ok dc) => engIssue s h x.t (.dec d a n.toNat r.b r.n r.freq) (some src) dst sc dc
def execPdec (x : Pdec) (s : State) : Host.Outcome State Fault Refusal := aside s x.g (pdecBody x s)

/-! ## Completion (R262, R204, R205, R238) -/

/-- Window entries and engine commands that must be over before the command touches the slots it names. A CBLD of the hart and its
command into the same slot are not ordered (R368). Once the launch is halted, its commands complete before the save, and wait for no
window entry (R351; log 64). -/
def engHeld (s : State) (l k : Nat) (e : Engine) : Bool :=
  let older (f : HartId → XEntry → Bool) : Bool :=
    (s.launch l).phase == .running && (s.coreHarts l k).any fun id => (s.hart id).win.any fun x => x.seq < e.seq && f id x
  (match e.dstBank with
    | some b => older (fun _ x => x.banks.contains b)
        || (s.core l k).engines.any fun g => g.seq < e.seq && g.srcBank == some b
    | none => false)
  || (match e.srcBank with
    | some b => older fun id x => id.h == e.hid && (xWrites x.i).contains b
    | none => false)

/-- A line that the command reads or writes, or one that crosses a line it writes, is leased by another hart (R238). -/
def engLeased (s : State) (l k : Nat) (e : Engine) : Bool :=
  s.harts.any (fun x => x.2.leases.any fun y => s.cycle < y.until_) &&
    (let me : HartId := ⟨l, k, e.hid⟩
     (rangeAddrs e.op.source).any (fun a => !e.sPool && leased s me false (engKey s l k false e.sPages a / 64))
      || (rangeAddrs e.op.dest).any fun a => !e.dPool &&
        (let line := engKey s l k false e.dPages a / 64
         leased s me true line || (crossFar s me [line]).isSome
          || (crossLines (s.part (s.launch l).part).dies (pageOf e.dPages a) a).any (leasedFar s me)))

/-- The command with a tag goes on where nothing holds it up. -/
def engGo (s : State) (l k : Nat) (t : BitVec 6) (f : Engine → Got Unit) : State :=
  match (s.core l k).engines.find? (·.tag == t) with
  | none => s
  | some e =>
    if s.md.power != .ready || engHeld s l k e || engLeased s l k e then s
    else match f e with
      | .ok s _ => s
      | .wait s _ => s
      | .dfault s d => deviceFault s (s.launch l).part d
def engComplete (s : State) (l k : Nat) (t : BitVec 6) : State := engGo s l k t (engPerform s l k)
/-- A command writes some of its destination bytes before it completes (R262). A slot takes its bytes at the completion, before which
nothing reads them (R204, R205). -/
def engMove (s : State) (l k : Nat) (t : BitVec 6) (dst : List Nat) : State :=
  engGo s l k t fun e => if e.dstBank.isSome then .ok s () else engTransfer s l k e dst

/-- ENGINE_COMPLETION. -/
def execEngineCompletion (l k : Nat) (t : BitVec 6) (s : State) : Host.Outcome State Fault Refusal :=
  .next (close s (engComplete s l k t))

end Sys2Proof.Machine
end

