-- ==== Sys2Proof/Machine/Near.lean ====
section
/-! DEFINITION. Near-memory commands, pooled lookup and residency handles (R285 to R300, R304 to R309). -/

namespace Sys2Proof.Machine

open Sys2Proof

/-! ## Rows (R293, R297, R306) -/

/-- What a near-memory unit needs of a page: R293's rule, and R306's where only the saddlebag serves. -/
def nearPage (sad : Bool) (e : TlbEntry) : Bool :=
  (if sad then pteTier e.pte == 1 else e.isLocal) && pteNbc e.pte && ptePin e.pte
/-- The bytes [a, a + n) lie in the mapping that holds a (R281, R293). -/
def oneMapping (e : TlbEntry) (a n : Nat) : Bool := a / 2 ^ e.lg == (a + n - 1) / 2 ^ e.lg

/-- The checks of one row: the place of its first byte, or tcause and tval. -/
def rowCheck (s : State) (acc : Acc) (sad : Bool) (a n : Nat) : State × Except (Nat × Dbl) Loc :=
  match check67 s s.cur acc a n true with
  | (s, .error (c, v)) => (s, .error (c, BitVec.ofNat 64 v))
  | (s, .ok pgs) =>
    let e := pageOf pgs a
    (s, if nearPage sad e && oneMapping e a n then .ok ⟨a, e⟩ else .error (9, BitVec.ofNat 64 a))

/-- The checks of several rows in order. -/
def rowChecks (acc : Acc) (sad : Bool) (n : Nat) : List Nat → State → State × Except (Nat × Dbl) (List Loc)
  | [], s => (s, .ok [])
  | a :: t, s =>
    match rowCheck s acc sad a n with
    | (s, .error f) => (s, .error f)
    | (s, .ok x) =>
      match rowChecks acc sad n t s with
      | (s, .error f) => (s, .error f)
      | (s, .ok r) => (s, .ok (x :: r))

/-- The check phase over n index elements from i on: the rows below the first that fails, and that failure. -/
def rowPhase (skip : Nat → Bool) (chk : Nat → State → State × Except (Nat × Dbl) (List Loc)) :
    Nat → Nat → State → State × List (Nat × List Loc) × Option (Nat × Nat × Dbl)
  | 0, _, s => (s, [], none)
  | n + 1, i, s =>
    if skip i then rowPhase skip chk n (i + 1) s
    else match chk i s with
      | (s, .error (c, v)) => (s, [], some (i, c, v))
      | (s, .ok l) =>
        let (s, r, f) := rowPhase skip chk n (i + 1) s
        (s, (i, l) :: r, f)

/-- The address of row x of D elements of w bytes. -/
def rowAddr (base : Dbl) (d w x : Nat) : Nat := (base + BitVec.ofNat 64 (x * d * w)).toNat

/-- What sending a row waits for (R263, R295, R308): the hart's interlock entries, its pooled lookups that read it, and posted stores
there. -/
def rowWait (s : State) (n : Nat) (l : List Loc) : Option Wait :=
  if l.any (fun a => interlocked s.myCore s.cur.h false a.va (a.va + n)) then some .interlock
  else if readsOut s.me && l.any (fun a => poolReads s s.cur (a.keys s (s.partOf s.cur) n)) then some .reads
  else if !s.posted.isEmpty && l.any (fun a => postedAlias s s.cur (a.keys s (s.partOf s.cur) n)) then some .posted
  else relWait s.me

/-! ## NBADD and NBOPT (R296 to R299) -/

/-- The word updates of one row of an NBADD, from element c on: two written BF16 halves of one word go together. -/
def addItems (bf : Bool) (de : QEntry) (row : Loc) (base : Nat) : Nat → Nat → List NbOp
  | 0, _ => []
  | n + 1, c =>
    let w := if bf then 2 else 4
    let u (i : Nat) : BitVec 32 := BitVec.ofNat 32 (de.elt (base + i) w)
    let a := row.at (c * w)
    if !de.has (base + c) w then addItems bf de row base n (c + 1)
    else if bf && a.e.pa a.va % 4 == 0 && 0 < n && de.has (base + c + 1) 2 then
      .pair a (u c ||| (u (c + 1) <<< (16 : Nat))) :: (addItems bf de row base (n - 1) (c + 2))
    else .add bf a (u c) :: addItems bf de row base n (c + 1)

/-- Send the updates of one index element: one more row update of the hart, of rows of n bytes. -/
def sendRow (s : State) (l : List Loc) (n : Nat) (ops : List NbOp) : State :=
  s.updHart s.cur fun h =>
    let up := (h.nb.map (·.up)).foldl max 0 + 1
    { h with nb := h.nb ++ ops.map fun o => ⟨up, o, l.map fun a => (a, n)⟩ }

/-- Send the rows that passed, in order; `error` is the row that has to wait. -/
def sendRows (n : Nat) (ops : Nat → List Loc → List NbOp) : List (Nat × List Loc) → State → State × Option (Nat × Wait)
  | [], s => (s, none)
  | (i, l) :: t, s =>
    match rowWait s n l with
    | some w => (s, some (i, w))
    | none => sendRows n ops t (sendRow s l n (ops i l))

/-- R297: the checks of D and vl. -/
def nbBad (s : State) (h : Hart) (d : Dbl) (w : Nat) : Option Dbl :=
  let vl := h.vl.toNat
  if d = 0 ∨ 256 < d.toNat then some d
  else if s.vlen s.cur < vl * 4 ∨ s.vlen s.cur < vl * d.toNat * w then some h.vl
  else none

/-- Word i of an index entry is read: an uncorrectable error in it is a device fault (R362), else `k` checks its row. -/
def rowIndexed (q : SQ) (ie : QEntry) (k : Nat → State → State × Except (Nat × Dbl) (List Loc)) (i : Nat) (s : State) :
    State × Except (Nat × Dbl) (List Loc) :=
  if entryBad s s.cur (sqSlot q ie) (4 * i) (4 * i + 4) then (s, .error (eccCause, 0)) else k i s

/-- The check phase and the sending of rows, then the end of the instruction. `q` holds the index entry, `du` the data entry, of n
bytes for each row. -/
def nbRun (s : State) (t : Takes) (q : SQ) (ie : QEntry) (du : SQ × QEntry) (vl n : Nat) (rows : Nat → List Nat)
    (ops : Nat → List Loc → List NbOp) : AOut :=
  let start := s.me.eix
  let (s, l, f) := rowPhase (fun i => !ie.has i 4) (rowIndexed q ie fun i s => rowChecks .both false n (rows (ie.index i)) s) (vl - start) start s
  if l.any fun r => entryReadBad s s.cur (sqSlot du.1 du.2) du.2 (n * r.1) (n * (r.1 + 1)) then faulted s 1
  else match sendRows n ops l s with
  | (s, some (i, w)) => .wait (s.updHart s.cur fun h => { h with eix := i }) w
  | (s, none) => match f with
    | some (k, c, v) => elemTrap s c v k vl
    | none => .done (s.updHart s.cur fun h => h.finishQueues t)

def nbaddBody (x : Nbadd) (s : State) (h : Hart) : AOut :=
  let w := if x.bf then 2 else 4
  let d := h.s x.d
  let vl := h.vl.toNat
  let t : Takes := Takes.sq (Takes.sq {} x.i 1) x.u 1
  match nbBad s h d w with
  | some v => .trap s 2 v h.eix vl
  | none =>
    match claimQueues h t w with
    | .error q => .wait s q
    | .ok h' =>
      let ie := headSq h x.i 0
      let de := headSq h x.u 0
      nbRun (s.setMe h') t x.i ie (x.u, de) vl (d.toNat * w) (fun r => [rowAddr (h.s x.b) d.toNat w r])
        (fun i l => l.flatMap fun a => addItems x.bf de a (i * d.toNat) d.toNat 0)
def execNbadd (x : Nbadd) (s : State) : Host.Outcome State Fault Refusal := asideQ s (.nbadd x) x.g (nbaddBody x s)

/-- The hyperparameters and the two table offsets of a block (R299), from its six doubles. -/
def hyperOf (b : List Nat) : NbHyper × Nat × Nat :=
  let f (i : Nat) : BitVec 32 := BitVec.ofNat 32 (b.getD (i / 2) 0 / 2 ^ (32 * (i % 2)))
  ({ lr := f 0, b1 := f 1, a1 := f 2, b2 := f 3, a2 := f 4, eps := f 5, c1 := f 6, c2 := f 7 }, b.getD 4 0, b.getD 5 0)

/-- Read the doubles of a block, from number j on. -/
def readBlock (pgs : List TlbEntry) (a : Nat) : Nat → Nat → State → Acted (List Nat)
  | 0, _, s => .ok s []
  | n + 1, j, s =>
    match readAt s s.cur j (pageOf pgs (a + 8 * j)) (a + 8 * j) 8 with
    | .ok s v => match readBlock pgs a n (j + 1) s with
      | .ok s r => .ok s (v :: r)
      | .wait s w => .wait s w
      | .dfault s d => .dfault s d
      | .reject s => .reject s
    | .wait s w => .wait s w
    | .dfault s d => .dfault s d
    | .reject s => .reject s

/-- The word updates of one row of an NBOPT: the rows of the parameters and of one or two states. -/
def optItems (hp : NbHyper) (ge : QEntry) (base d : Nat) (l : List Loc) : List NbOp :=
  ((List.range d).filter fun c => ge.has (base + c) 4).flatMap fun c =>
    let g : BitVec 32 := BitVec.ofNat 32 (ge.elt (base + c) 4)
    match l with
    | [p, m] => [.sgdm hp (p.at (4 * c)) (m.at (4 * c)) g]
    | [p, m, v] => [.adam hp (p.at (4 * c)) (m.at (4 * c)) (v.at (4 * c)) g]
    | _ => []

/-- A command that waits between two rows, or goes on after a trap, reads its block again (log 65). -/
def nboptBody (x : Nbopt) (s : State) (h : Hart) : AOut :=
  let d := h.s x.d
  let vl := h.vl.toNat
  let hb := (h.s x.h).toNat
  let t : Takes := Takes.sq (Takes.sq {} x.i 1) x.gr 1
  match nbBad s h d 4 with
  | some v => .trap s 2 v h.eix vl
  | none =>
    if hb % 16 ≠ 0 then .trap s 8 (h.s x.h) h.eix vl
    else match checkRange s (s.partOf s.cur) h.root h.sup .load hb 48 with
      | (s, .error f) => trapAcc s f h.eix vl
      | (s, .ok pgs) =>
        match claimQueues h t 4 with
        | .error q => .wait s q
        | .ok h' =>
          let s := s.setMe h'
          (readBlock pgs hb 6 0 s).aout hb h.eix vl fun s b =>
            let (hp, o1, o2) := hyperOf b
            let base := h.s x.b
            let tabs := base :: (base + BitVec.ofNat 64 o1) :: if x.adam then [base + BitVec.ofNat 64 o2] else []
            nbRun s t x.i (headSq h x.i 0) (x.gr, headSq h x.gr 0) vl (d.toNat * 4) (fun r => tabs.map fun b => rowAddr b d.toNat 4 r)
              (fun i l => optItems hp (headSq h x.gr 0) (i * d.toNat) d.toNat l)
def execNbopt (x : Nbopt) (s : State) : Host.Outcome State Fault Refusal := asideQ s (.nbopt x) x.g (nboptBody x s)

/-- R300. -/
def execNbfence (x : Bare) (s : State) : Host.Outcome State Fault Refusal :=
  aside s x.g fun h => if h.nb.isEmpty then .done s else .wait s .nbfence

/-- Two updates reach a byte in common. -/
def nbOverlap (s : State) (p : Nat) (x y : NbItem) : Bool :=
  x.locs.any fun (a, n) => (a.keys s p n).any fun k => y.locs.any fun (b, m) => (b.keys s p m).contains k

/-- Rows of two updates share a byte. -/
def rowsMeet (x y : NbItem) : Bool :=
  x.span.any fun (a, n) => y.span.any fun (b, m) =>
    pteTier a.e.pte == pteTier b.e.pte && a.e.pa a.va < b.e.pa b.va + m && b.e.pa b.va < a.e.pa a.va + n
/-- The updates that may be performed now (R295): no earlier one belongs to an earlier update of a row that shares a byte with a row
of this one, or reaches one of its bytes. -/
def nbFree (s : State) (p : Nat) (l : List NbItem) (n : Nat) : Option NbItem :=
  match l[n]? with
  | none => none
  | some x =>
    if (l.take n).any (fun y => (y.up != x.up && rowsMeet y x) || nbOverlap s p y x) then none else some x

/-- A line of the update's rows is under lease, or a line that crosses one of theirs (R238, R294). -/
def nbLeased (s : State) (p : Nat) (x : NbItem) : Bool := linesLeased s (x.span.flatMap fun (a, n) => a.lines s p n)

def nbUpdate (s : State) (hid : HartId) (n : Nat) : State :=
  let h := s.hart hid
  let p := s.partOf hid
  match nbFree s p h.nb n with
  | none => s
  | some x =>
    if s.md.power != .ready || !stageOpen s hid.l 1 || nbLeased s p x then s
    else match nbPerform s hid x with
      | .ok s _ => s.updHart hid fun h => { h with nb := h.nb.eraseIdx n }
      | .wait s _ => s
      | .dfault s d => deviceFault s p d

/-- NEAR_MEMORY_UPDATE: update n of the hart's queue. -/
def execNearMemoryUpdate (h : HartId) (n : Nat) (s : State) : Host.Outcome State Fault Refusal := .next (close s (nbUpdate s h n))

/-! ## SFPOOL (R304 to R308) -/

/-- D and B of a geometry. -/
def geoD (g : Dbl) : Nat := (g.extractLsb' 0 9).toNat
def geoB (g : Dbl) : Nat := (g.extractLsb' 16 16).toNat

/-- The conditions of R305 that need no length: tval of the illegal-operand trap. -/
def poolShape (s : State) (h : Hart) (g : Dbl) : Option Dbl :=
  let d := geoD g
  let b := geoB g
  let vlen := s.vlen s.cur
  if d = 0 ∨ 256 < d ∨ b = 0 ∨ vlen / 4 < b ∨ g.extractLsb' 9 7 ≠ 0 ∨ g.extractLsb' 32 32 ≠ 0 then some g
  else if vlen < h.vl.toNat * 4 ∨ vlen < b * d * 4 then some h.vl
  else none
/-- R305: tval of its illegal-operand trap. -/
def poolBad (s : State) (h : Hart) (g : Dbl) (le : QEntry) : Option Dbl :=
  let sum := ((List.range (geoB g)).map fun j => le.elt j 4).sum
  match poolShape s h g with
  | some v => some v
  | none => if sum ≠ h.vl.toNat then some (BitVec.ofNat 64 sum) else none

/-- One contributing element of R307: the accumulator after n earlier ones. -/
def poolStep (op : Nat) (half : Bool) (v wt acc n : Nat) : Nat :=
  let x := if half then FFmt.bf16.value v else f32 v
  let t := if op = 1 then (f32 wt).mul x else (x, Fl.none)
  if op = 3 then (if n = 0 then (f32Round (x, Fl.none)).1 else (f32Round ((f32 acc).max x, Fl.none)).1)
  else if n = 0 then (f32Round t).1
  else (f32Round ((f32 acc).add .plain t.1)).1

/-- Element c of a bag: the list holds (row element, weight) of the contributing positions in order. -/
def poolBag (op : Nat) (half : Bool) (l : List (Nat × Nat)) : Nat :=
  let r := l.foldl (fun a x => (poolStep op half x.1 x.2 a.1 a.2, a.2 + 1)) (0, 0)
  if r.2 = 0 then 0 else if op = 2 then (f32Round ((f32 r.1).div (Ex.ofInt r.2))).1 else r.1

/-- The elements of each bag: the positions it covers (R304). -/
def bagRanges : Nat → List Nat → List (Nat × Nat)
  | _, [] => []
  | lo, n :: t => (lo, lo + n) :: bagRanges (lo + n) t

/-- Where a row is whose check passed before a trap: its place as the tables give it now; for a row that they no longer map, whose value
the spec does not state, a free place of the saddlebag (log 5). -/
def rowPlace (s : State) (a : Nat) : State × Loc :=
  let (s, e) := if 2 ^ 55 ≤ a then (s, noEntry 0 0) else xlate s (s.partOf s.cur) s.me.root (a / 65536)
  if pteV e.pte && nearPage true e then (s, ⟨a, e⟩)
  else
    let (s, c) := s.choose (sadSize (s.part (s.partOf s.cur)).dies / 65536 - 1)
    (s, ⟨a, { noEntry 0 (a / 65536) with pte := 65536, frame := 65536 * c }⟩)

/-- The places of the rows of positions that passed in an earlier check phase (R306). -/
def rowPlaces (row : Nat → Nat) : List Nat → State → State × List (Nat × Loc)
  | [], s => (s, [])
  | i :: t, s =>
    let (s, a) := rowPlace s (row i)
    let (s, l) := rowPlaces row t s
    (s, (i, a) :: l)

/-- SFPOOL: its operand checks, then the check phase from the element index on; once that has passed, the entries are popped, the A
side goes on, and the rows are requested (R305 to R308). -/
def sfpoolBody (x : Sfpool) (s : State) (h : Hart) : AOut :=
  let g := h.s x.geo
  let w := if x.half then 2 else 4
  let d := geoD g
  let op := x.op.toNat
  let vl := h.vl.toNat
  let t : Takes := Takes.sq { lq := some x.q } x.s (if op = 1 then 3 else 2)
  match claimQueues h t 4 with
  | .error q => .wait s q
  | .ok h' =>
    let s := s.setMe h'
    let ie := headSq h x.s 0
    let le := headSq h x.s 1
    let we := headSq h x.s 2
    if (poolShape s h g).isNone && entryReadBad s s.cur (sqSlot x.s le) le 0 (4 * geoB g) then faulted s 1
    else match poolBad s h g le with
    | some v => .trap s 2 v h.eix vl
    | none =>
      let skip (i : Nat) : Bool := !ie.has i 4 || h.askips.any fun r => r.1 ≤ i && i < r.2
      let row (i : Nat) : Nat := rowAddr (h.s x.b) d w (ie.index i)
      let chk (i : Nat) (s : State) : State × Except (Nat × Dbl) (List Loc) :=
        if (h.s x.l).toNat ≤ ie.index i then (s, .error (15, BitVec.ofNat 64 (ie.index i)))
        else rowChecks .load true (d * w) [row i] s
      match rowPhase skip (rowIndexed x.s ie chk) (vl - h.eix) h.eix s with
      | (s, _, some (k, c, v)) => elemTrap s c v k vl
      | (s, rows, none) =>
        let used := (List.range vl).filter fun i => !skip i
        if used.any fun i => entryBad s s.cur (sqSlot x.s ie) (4 * i) (4 * i + 4)
            || (op = 1 && entryReadBad s s.cur (sqSlot x.s we) we (4 * i) (4 * i + 4)) then faulted s 1
        else
        let (s, below) := rowPlaces row ((List.range (min h.eix vl)).filter fun i => !skip i) s
        let pool : Pool :=
          { no := ((s.me.lq.toList.flatMap fun q => q.filterMap (·.pool)).map (·.no)).foldl max 0 + 1
            op := op, half := x.half, d := d, bags := bagRanges 0 ((List.range (geoB g)).map fun j => le.elt j 4),
            rows := below ++ rows.flatMap fun r => r.2.map fun a => (r.1, a),
            weights := (List.range vl).map fun i => we.elt i 4, left := List.range (geoB g) }
        .done (s.updHart s.cur fun h => (h.updLq x.q fun e => { e with pool := some pool }).finishQueues t)
def execSfpool (x : Sfpool) (s : State) : Host.Outcome State Fault Refusal := asideQ s (.sfpool x) x.g (sfpoolBody x s)

/-! ## Arrivals (R275, R307, R308) -/

/-- Deliver the elements of an entry in flight that satisfy a predicate. -/
def QEntry.land (f : Nat → Bool) (e : QEntry) : QEntry :=
  let e' := (e.flight.filter fun x => f x.1).foldl (fun e x => e.put x.1 e.width x.2.toNat) e
  { e' with flight := e.flight.filter fun x => !f x.1 }.settle

/-- What the read of a row by pooled lookup `no` waits for (R308, R332): interlock entries, near-memory commands and posted stores of the
hart from before, its earlier pooled lookups that read the row too, and leases on its lines or on lines that cross them. -/
def poolHeld (s : State) (hid : HartId) (no n : Nat) (a : Loc) : Bool :=
  let p := s.partOf hid
  let ks := a.keys s p n
  interlocked (s.core hid.l hid.k) hid.h false a.va (a.va + n) || nbPending s hid ks || (!s.posted.isEmpty && postedAlias s hid ks)
    || poolReads s hid ks (·.no < no) || linesLeased s (a.lines s p n)

/-- The elements of a row from element c on, each of w bytes read at once (R264, R308). -/
def rowElts (hid : HartId) (p w : Nat) (a : Loc) : Nat → Nat → State → State × List Nat
  | 0, _, s => (s, [])
  | n + 1, c, s =>
    let x := a.at (c * w)
    let r := readDone (observeNow s hid (x.keys s p w)) hid (x.keys s p w) (x.get s p w)
    let (s, l) := rowElts hid p w a n (c + 1) r.1
    (s, r.2 :: l)
/-- The elements of the rows of a bag as they are read, with their positions. -/
def poolElts (hid : HartId) (p d w : Nat) : List (Nat × Loc) → State → State × List (Nat × List Nat)
  | [], s => (s, [])
  | (i, a) :: t, s =>
    let (s, v) := rowElts hid p w a d 0 s
    let (s, l) := poolElts hid p d w t s
    (s, (i, v) :: l)

/-- The entry with a bag's elements in place. -/
def QEntry.takeBag (e : QEntry) (pl : Pool) (b : Nat) (v : List Nat) : QEntry :=
  let e := ((List.range pl.d).zip v).foldl (fun e x => e.put (b * pl.d + x.1) 4 x.2) e
  let left := pl.left.filter (· != b)
  { e with pool := if left.isEmpty then none else some { pl with left := left } }.settle
def Hart.modLq (h : Hart) (q : LQ) (e : Nat) (f : QEntry → QEntry) : Hart :=
  { h with lq := h.lq.set q.toNat ((h.lq[q.toNat]'(q.isLt)).modify e f) (q.isLt) }

/-- SFPOOL_BAG_ARRIVAL: the rows of bag b of entry e of a queue are read and reduced in index order, and the bag arrives (R307,
R308). Dirty copies of the rows' lines are written back. -/
def bagArrive (s : State) (hid : HartId) (q : LQ) (e b : Nat) : State :=
  match ((s.hart hid).lq[q.toNat]'(q.isLt))[e]? with
  | none => s
  | some x => match x.pool with
    | none => s
    | some pl =>
      let p := s.partOf hid
      let w := if pl.half then 2 else 4
      let g := pl.bags.getD b (0, 0)
      let mine := pl.rows.filter fun r => g.1 ≤ r.1 && r.1 < g.2
      let locs := mine.map (·.2)
      let ks := locs.flatMap fun a => a.keys s p (pl.d * w)
      if !pl.left.contains b || !stageOpen s hid.l 2 || locs.any (poolHeld s hid pl.no (pl.d * w)) then s
      else
        let (s, lost) := recallLines s true true true ks
        if lost || memBad s ks then deviceFault s p 1
        else
        let s := { s with cachedW := s.cachedW.filter fun x => !ks.contains x.1, flushed := s.flushed.filter fun k => !ks.contains k.2 }
        let (s, rows) := poolElts hid p pl.d w mine s
        let v := (List.range pl.d).map fun c => poolBag pl.op pl.half (rows.map fun r => (r.2.getD c 0, pl.weights.getD r.1 0))
        let (s, merge) := if s.bad.isEmpty then (s, false) else writeUnits s (slotKeys s hid (lqSlot q x) (4 * pl.d * b) (4 * pl.d * (b + 1)))
        if merge then deviceFault s p 1 else s.updHart hid fun h => h.modLq q e fun x => x.takeBag pl b v
def execSfpoolBagArrival (h : HartId) (q : LQ) (e b : Nat) (s : State) : Host.Outcome State Fault Refusal :=
  .next (close s (if s.md.power == .ready then bagArrive s h q e b else s))

/-- A corrected error, or a replayed transfer, is counted and has no other effect (R303, R362). -/
def countCorrected (s : State) (c : Site) : State :=
  { s with md := { s.md with corrected := tput s.md.corrected c (tget 0 s.md.corrected c + 1) } }

/-- ELEMENT_ARRIVAL: element i of entry e of a queue arrives in its slot of the register region (R184); an error that the way back
corrected is counted (R362). -/
def elemArrive (s : State) (hid : HartId) (q : LQ) (e i : Nat) (corrected : Option Site) : State :=
  match ((s.hart hid).lq[q.toNat]'(q.isLt))[e]? with
  | none => s
  | some x =>
    if x.flight.any (·.1 == i) then
      let s := match corrected with
        | none => s
        | some c => countCorrected s c
      let (s, merge) := slotWrite s hid (lqSlot q x) i x.width
      if merge then deviceFault s (s.partOf hid) 1 else s.updHart hid fun h => (h.modLq q e (QEntry.land (· == i))).dropFed
    else s
def execElementArrival (h : HartId) (q : LQ) (e i : Nat) (corrected : Option Site) (s : State) :
    Host.Outcome State Fault Refusal :=
  .next (close s (if s.md.power == .ready then elemArrive s h q e i corrected else s))

/-! ## Residency handles (R285 to R291) -/

/-- RHOPEN (R289). -/
def rhopenBody (x : Rhopen) (s : State) (h : Hart) : AOut :=
  let n := h.s x.n
  let la := s.launch s.cur.l
  if n = 0 ∨ 2 ^ 40 < n.toNat then .trap s 2 n 0 0
  else match (List.range 256).find? fun i => !la.handles.any (·.1.toNat == i) with
    | none => .done (s.setMe (h.setS x.d (BitVec.allOnes 64)))
    | some i =>
      let hd : Handle := ⟨(h.s x.b).toNat, n.toNat, x.p⟩
      .done ((s.setLaunch s.cur.l { la with handles := tput la.handles (BitVec.ofNat 8 i) hd }).setMe (h.setS x.d (BitVec.ofNat 64 i)))
def execRhopen (x : Rhopen) (s : State) : Host.Outcome State Fault Refusal := aside s x.g (rhopenBody x s)

/-- An instruction that names an open handle (R288). -/
def withHandle (s : State) (h : Hart) (r : SReg) (f : BitVec 8 → Handle → AOut) : AOut :=
  let v := h.s r
  if 256 ≤ v.toNat then .trap s 2 v 0 0
  else match (s.launch s.cur.l).handles.find? fun x => x.1.toNat == v.toNat with
    | none => .trap s 2 v 0 0
    | some (i, x) => f i x
def setPrio (s : State) (i : BitVec 8) (x : Handle) (p : BitVec 3) : State :=
  let la := s.launch s.cur.l
  s.setLaunch s.cur.l { la with handles := tput la.handles i { x with prio := p } }

def execRhprio (x : Rhprio) (s : State) : Host.Outcome State Fault Refusal :=
  aside s x.g fun h => withHandle s h x.h fun i hd => .done (setPrio s i hd x.p)
/-- The keys among these, of units and of bytes that may be dirty, that lie in a virtual range as the tables map it now: a page of it
that has no translation has no line there. -/
def keysInRange (hid : HartId) (lo hi : Nat) (ks : List Nat) : Nat → Nat → State → State × List Nat
  | 0, _, s => (s, [])
  | n + 1, va, s =>
    if 2 ^ 55 ≤ va then (s, [])
    else
      let p := s.partOf hid
      let (s, e) := xlate s p (s.hart hid).root (va / 65536)
      let here : List Nat := if !(pteV e.pte && e.isLocal && !e.ecc) then [] else ks.filter fun key =>
        (keyAddr (s.part p).dies key).any fun a => pteTier e.pte == a.1 && e.frame ≤ a.2 && a.2 < e.frame + 65536
          && (let v := 65536 * (va / 65536) + (a.2 - e.frame); lo ≤ v && v < hi)
      let (s, r) := keysInRange hid lo hi ks n (65536 * (va / 65536 + 1)) s
      (s, here ++ r)
/-- RHEVICT in mode 0: the lines of the handle's range leave the L2 slices, dirty ones written back; what a cache region holds stays
(R290, R372). Where no line holds an error, nothing that can be seen changes. -/
def evictRange (s : State) (hd : Handle) : State × Bool :=
  if s.badL2.isEmpty && s.bad.isEmpty then (s, false)
  else
    let r := keysInRange s.cur hd.base (hd.base + hd.len) (s.badL2 ++ s.bad) ((hd.base + hd.len - 1) / 65536 - hd.base / 65536 + 1) hd.base s
    recallLines r.1 false true false r.2
/-- R290: mode 0 moves lines only, mode 1 lowers the priority. -/
def execRhevict (x : Rhbit) (s : State) : Host.Outcome State Fault Refusal :=
  aside s x.g fun h => withHandle s h x.h fun i hd =>
    if x.m then .done (setPrio s i hd 0)
    else
      let (s, lost) := evictRange s hd
      if lost then faulted s 1 else .done s

/-- The segments that R287 marks: of the virtual spans of 2 MiB wholly inside the range, lowest first from span v on, those that one
run or block on TIER 0 maps; and the first check of R291 that fails: a span without a translation, a segment that may not be written,
or one beyond the installed memory (R273). -/
def deadSegs (hid : HartId) (hi : Nat) : Nat → Nat → State → State × Except AccFault (List Loc)
  | 0, _, s => (s, .ok [])
  | n + 1, v, s =>
    if hi < 2097152 + v then (s, .ok [])
    else if 2 ^ 55 ≤ v then (s, .error (6, v))
    else
      let p := s.partOf hid
      let (s, e) := xlate s p (s.hart hid).root (v / 65536)
      if e.ecc then (s, .error (eccCause, v))
      else if !pteV e.pte then (s, .error (6, v))
      else if !(21 ≤ e.lg && pteTier e.pte == 0) then deadSegs hid hi n (2097152 + v) s
      else if !(permOk e.pte (s.hart hid).sup .store && installed s (s.part p).dies e.pte (e.pa v)) then (s, .error (7, v))
      else match deadSegs hid hi n (2097152 + v) s with
        | (s, .error f) => (s, .error f)
        | (s, .ok r) => (s, .ok (⟨v, e⟩ :: r))

/-- Mark one segment: its bytes become zero, and nothing of it is dirty, mismatched or bad any more. -/
def markDead1 (s : State) (p : Nat) (a : Loc) : State :=
  let dies := (s.part p).dies
  let blocks := (List.range 8192).map fun i => hbmKey dies (a.e.pa a.va + 256 * i)
  let gone (k : Nat) : Bool := blocks.contains (k / 256 * 256)
  let s := blocks.foldl (fun s k => s.wipe k (k + 256)) s
  let seg := (p, segOf a.e a.va)
  { s with notLive := if s.notLive.contains seg then s.notLive else seg :: s.notLive,
           cachedW := s.cachedW.filter fun x => !gone x.1, uncachedW := s.uncachedW.filter fun k => !gone k,
           flushed := s.flushed.filter fun k => !gone k.2, settled := s.settled.filter fun x => !gone x.2.2,
           seen := s.seen.filter fun x => !gone x.2.1,
           bad := s.bad.filter fun k => !gone k, badL2 := s.badL2.filter fun k => !gone k, badL1 := s.badL1.filter fun x => !gone x.2 }

/-- What marking waits for: the hart's interlock entries, another hart's lease, its own posted stores. -/
def deadWait (s : State) (l : List Loc) : Option Wait :=
  if l.any (fun a => interlocked s.myCore s.cur.h false a.va (2097152 + a.va)) then some .interlock
  else if !l.isEmpty && postedOut s s.cur then some .posted
  else if !l.isEmpty && readsOut s.me then some .reads
  else
    let lines := s.harts.flatMap fun x => if x.1 == s.cur then [] else (x.2.leases.filter fun y => s.cycle < y.until_).map (·.pline)
    let dies := (s.part (s.partOf s.cur)).dies
    match lines.find? fun y => l.any fun a => (List.range 8192).any fun i => hbmKey dies (a.e.pa a.va + 256 * i) / 256 == y / 4 with
    | some y => some (.lease y)
    | none => none

def rhcloseBody (x : Rhbit) (s : State) (h : Hart) : AOut :=
  withHandle s h x.h fun i hd =>
    let closed (s : State) : State :=
      let la := s.launch s.cur.l
      s.setLaunch s.cur.l { la with handles := tdel la.handles i }
    if !x.m then .done (closed s)
    else
      let lo := 2097152 * ((2097151 + hd.base) / 2097152)
      match deadSegs s.cur (hd.base + hd.len) (hd.len / 2097152 + 1) lo s with
      | (s, .error f) => accTrap s f 0 0
      | (s, .ok segs) =>
        match deadWait s segs with
        | some w => .wait s w
        | none => .done (closed (segs.foldl (fun s a => markDead1 s (s.partOf s.cur) a) s))
def execRhclose (x : Rhbit) (s : State) : Host.Outcome State Fault Refusal := aside s x.g (rhcloseBody x s)

end Sys2Proof.Machine
end

