-- ==== Sys2Proof/Machine/Queues.lean ====
section
/-! DEFINITION. User queues: notifies, hardware slots, mapping and unmapping (R85 to R88). -/

namespace Sys2Proof.Machine

open Sys2Proof

/-- Write the flags of a queue as its state asks for. -/
def flagsOrFault (s : State) (p q : Nat) : State :=
  match syncFlags s p q with
  | (s, none) => s
  | (s, some d) => deviceFault s p d

/-- Records that are ready: from head to the lesser of the producer count and the ring's end (R86). -/
def readyCount (t : QTab) (head notify : Nat) : Nat := min notify (head + 2 ^ t.lgsize) - head

/-- A queue becomes Wanting (R88), holding head and done as the table has them. -/
def becomeWanting (s : State) (p q : Nat) (t : QTab) : State :=
  let u := s.userQ p q
  let s := s.setQ p q { u with phase := .wanting, wantedAt := s.cycle, head := t.head, done := t.done, pending := false }
  s.updPart p fun x => { x with wanting := x.wanting ++ [q] }

/-- What a stored notify does to its queue (R87, R88), of a partition that has been started (R359). -/
def notified (s : State) (p q : Nat) : State :=
  if !(s.part p).started then s
  else
    match readTable s p q with
    | (s, .error d) => deviceFault s p d
    | (s, .ok t) =>
      if t.flags % 2 = 0 then s
      else match (s.userQ p q).phase with
        | .unmapped =>
          match readNotify s p q with
          | (s, .error d) => deviceFault s p d
          | (s, .ok n) => if readyCount t t.head n = 0 then s else becomeWanting s p q t
        | .wanting => s
        | .mapped => s
        | .unmapping => flagsOrFault (s.setQ p q { s.userQ p q with pending := true }) p q

/-! ## Hardware slots (R88) -/

/-- The queue that holds a hardware slot. -/
def slotQueue (s : State) (p slot : Nat) : Option Nat :=
  ((s.part p).queues.find? fun x => (x.2.phase == .mapped || x.2.phase == .unmapping) && x.2.slot == slot).map (·.1)
def freeSlot (s : State) (p : Nat) : Option Nat := (List.range 64).find? fun i => (slotQueue s p i).isNone

/-- QUEUE_MAP: the queue that has been Wanting longest takes the lowest free slot. -/
def queueMap (s : State) (p : Nat) : State :=
  match (s.part p).wanting, freeSlot s p with
  | q :: t, some slot =>
    match readTable s p q with
    | (s, .error d) => deviceFault s p d
    | (s, .ok e) =>
      let s := s.updPart p fun x => { x with wanting := t }
      let u := s.userQ p q
      flagsOrFault (s.setQ p q { u with phase := .mapped, slot := slot, mappedAt := s.cycle, activeAt := s.cycle,
                                         head := e.head, done := e.done }) p q
  | _, _ => s

/-- The queue has a launch running or saved, or a placement point: it is not unmapped. -/
def queueBusy (s : State) (p q : Nat) : Bool :=
  (s.userQ p q).taken.isSome || s.launches.any fun x => x.2.part == p && x.2.q == q

/-- The first element with the least value of a measure. -/
def leastBy (f : Nat → Nat) : List Nat → Option Nat
  | [] => none
  | a :: t => match leastBy f t with
    | none => some a
    | some b => if f b < f a then some b else some a

/-- The slot that unmapping would choose now: the longest idle one of those with no ready record, or, where a queue has
been Wanting for 64 slices, the one mapped longest. Where both rows of R88 apply, the spec does not say which picks the slot:
the model takes the second (log 59). -/
def unmapChoice (s : State) (p : Nat) : State × Except Nat (Option Nat) :=
  let pt := s.part p
  if pt.wanting.isEmpty then (s, .ok none)
  else
    let slots := (List.range 64).filter fun i => match slotQueue s p i with
      | some q => (s.userQ p q).phase == .mapped && !queueBusy s p q
      | none => false
    let qOf (i : Nat) : Nat := (slotQueue s p i).getD 0
    let late := pt.wanting.any fun q => (s.userQ p q).wantedAt + 64 * 2 ^ pt.slicelg ≤ s.cycle
    if late then (s, .ok (leastBy (fun i => (s.userQ p (qOf i)).mappedAt) slots))
    else
      let r : State × Except Nat (List Nat) := slots.foldl (fun acc i =>
        match acc with
        | (s, .error d) => (s, .error d)
        | (s, .ok l) =>
          match readTable s p (qOf i) with
          | (s, .error d) => (s, .error d)
          | (s, .ok t) =>
            match readNotify s p (qOf i) with
            | (s, .error d) => (s, .error d)
            | (s, .ok n) => (s, .ok (if readyCount t (s.userQ p (qOf i)).head n = 0 then l ++ [i] else l))) (s, .ok [])
      match r with
      | (s, .error d) => (s, .error d)
      | (s, .ok l) => (s, .ok (leastBy (fun i => (s.userQ p (qOf i)).activeAt) l))

/-- UNMAP_START. -/
def unmapStart (s : State) (p : Nat) : State :=
  match unmapChoice s p with
  | (s, .error d) => deviceFault s p d
  | (s, .ok none) => s
  | (s, .ok (some i)) => match slotQueue s p i with
    | some q => s.setQ p q { s.userQ p q with phase := .unmapping }
    | none => s

/-- UNMAP_COMPLETE: the slot is free again; the queue is Wanting where a notify came meanwhile or a record is ready. -/
def unmapComplete (s : State) (p slot : Nat) : State :=
  match slotQueue s p slot with
  | none => s
  | some q =>
    if (s.userQ p q).phase != .unmapping then s
    else
      match readTable s p q with
      | (s, .error d) => deviceFault s p d
      | (s, .ok t) =>
        match readNotify s p q with
        | (s, .error d) => deviceFault s p d
        | (s, .ok n) =>
          let u := s.userQ p q
          let again := u.pending || readyCount t u.head n ≠ 0
          let s := s.setQ p q { u with phase := .unmapped, pending := false }
          let s := if again then becomeWanting s p q { t with head := u.head, done := u.done } else s
          flagsOrFault s p q

/-- The partition is started, and power is up. -/
def partUp (s : State) (p : Nat) : Bool := s.md.power == .ready && (s.part p).started
/-- The partition's scheduler works: no STOP is halting the partition (R360). -/
def schedUp (s : State) (p : Nat) : Bool :=
  partUp s p && !s.md.waiting.any fun x => x.1.part.toNat == p && x.2 == .stop true

def execQueueMap (p : Nat) (s : State) : Host.Outcome State Fault Refusal := .next (close s (if schedUp s p then queueMap s p else s))
def execUnmapStart (p : Nat) (s : State) : Host.Outcome State Fault Refusal := .next (close s (if schedUp s p then unmapStart s p else s))
def execUnmapComplete (p slot : Nat) (s : State) : Host.Outcome State Fault Refusal :=
  .next (close s (if schedUp s p then unmapComplete s p slot else s))

end Sys2Proof.Machine
end

