-- ==== Sys2Proof/Machine/LaunchWide.lean ====
section
/-! DEFINITION. Launch-wide instructions (group 0x5): GONG, POST, WAITI, QNOTIFY, arrival counters and CLRED (R99 to
R101, R316 to R326). -/

namespace Sys2Proof.Machine

open Sys2Proof

/-! ## GONG (R99) -/

/-- The extent a GONG names: 0 by 0 is the whole launch. -/
def gongExtent (la : Launch) (x : Gong) : Nat × Nat :=
  if x.w = 0 ∧ x.h = 0 then (la.w, la.h) else (x.w.toNat, x.h.toNat)
def gongBad (la : Launch) (e : Nat × Nat) : Bool := e.1 == 0 || e.2 == 0 || la.w % e.1 != 0 || la.h % e.2 != 0

/-- The launch indices of the cores in the aligned sub-rectangle of an extent that holds core k. -/
def gongCores (la : Launch) (e : Nat × Nat) (k : Nat) : List Nat :=
  let x0 := k % la.w / e.1 * e.1
  let y0 := k / la.w / e.2 * e.2
  (List.range e.2).flatMap fun j => (List.range e.1).map fun i => (y0 + j) * la.w + x0 + i

/-- A hart's count of GONGs of an extent. -/
def Hart.episode (h : Hart) (e : Nat × Nat) : Nat := tget 0 h.gongs e
/-- Every hart of the sub-rectangle has arrived at the episode or has exited. -/
def gongMet (s : State) (e : Nat × Nat) (n : Nat) : Bool :=
  (gongCores (s.launch s.cur.l) e s.cur.k).all fun k => (s.coreHarts s.cur.l k).all fun id =>
    (s.hart id).phase == .exited || n ≤ (s.hart id).episode e

/-- Where what harts arrived with at an episode of a GONG is kept. -/
def gongKey (s : State) (e : Nat × Nat) (n : Nat) : Nat × Nat × (Nat × Nat) × Nat :=
  (s.cur.l, (gongCores (s.launch s.cur.l) e s.cur.k).headD 0, e, n)
/-- Posted stores that happen before what the current hart does next. -/
def learn (s : State) (ids : List Nat) : State :=
  match liveIds s ids with
  | [] => s
  | l => s.updHart s.cur fun h => { h with seen := l ++ h.seen.filter fun i => !l.contains i }

/-- Wait at the barrier, having arrived at an episode; the departure acquires what every hart arrived with. -/
def gongWait (s : State) (e : Nat × Nat) (n : Nat) : AOut :=
  if gongMet s e n then
    .done ((learn (fenceDone s s.cur .ar .package) (tget [] s.gongMsgs (gongKey s e n))).updHart s.cur fun h => { h with arrived := none })
  else .wait s .gong

def gongBody (x : Gong) (s : State) (h : Hart) : AOut :=
  let e := gongExtent (s.launch s.cur.l) x
  if gongBad (s.launch s.cur.l) e then .trap s 2 (immOf (.gong x)) 0 0
  else match h.arrived.filter fun a => a.1 == h.pc && a.2.1 == e with
    | some a => gongWait s e a.2.2
    | none =>
      match fenceWait s s.cur .ar .package with
      | some w => .wait s w
      | none =>
        let s := fenceDone s s.cur .ar .package
        let n := h.episode e + 1
        let ids := (s.before s.cur).map (·.id)
        let s := if ids.isEmpty then s else { s with gongMsgs := tput s.gongMsgs (gongKey s e n) (ids ++ tget [] s.gongMsgs (gongKey s e n)) }
        gongWait (s.updHart s.cur fun h => { h with gongs := tput h.gongs e n, arrived := some (h.pc, e, n) }) e n
def execGong (x : Gong) (s : State) : Host.Outcome State Fault Refusal := aside s x.g (gongBody x s)

/-! ## POST and WAITI (R100) -/

def Core.paceOf (c : Core) (ch : BitVec 2) : Dbl := c.pace[ch.toNat]'(ch.isLt)
def execPost (x : Post) (s : State) : Host.Outcome State Fault Refusal :=
  aside s x.g fun h =>
    match releaseWait s s.cur .package with
    | some w => .wait s w
    | none =>
      let key := (s.cur.l, s.cur.k, x.c.toNat)
      let ids := (s.before s.cur).map (·.id)
      let s := fenceDone s s.cur .rel .package
      let s := if ids.isEmpty then s else { s with paceMsgs := tput s.paceMsgs key (ids ++ liveIds s (tget [] s.paceMsgs key)) }
      .done (s.updCore s.cur.l s.cur.k fun c =>
        { c with pace := c.pace.set x.c.toNat (if (c.paceOf x.c).toNat < (h.s x.n).toNat then h.s x.n else c.paceOf x.c) (x.c.isLt) })

/-- The ring predecessor of a core of a launch. -/
def ringPred (la : Launch) (k : Nat) : Nat := (k + la.w * la.h - 1) % (la.w * la.h)
def execWaiti (x : Post) (s : State) : Host.Outcome State Fault Refusal :=
  aside s x.g fun h =>
    let v := (s.core s.cur.l (ringPred (s.launch s.cur.l) s.cur.k)).paceOf x.c
    if v.toNat < (h.s x.n).toNat then .wait s .waiti
    else match fenceWait s s.cur .acq .package with
      | some w => .wait s w
      | none =>
        let from_ := tget [] s.paceMsgs (s.cur.l, ringPred (s.launch s.cur.l) s.cur.k, x.c.toNat)
        .done (learn (fenceDone s s.cur .acq .package) from_)

/-! ## QNOTIFY (R101) -/

/-- Store a notify word through its page, with what it does to its queue. The store is the write of a release of the current hart
(R335). -/
def storeNotify (s : State) (p q : Nat) (pgs : List TlbEntry) (v : Nat) : State :=
  match schedPut s p pgs (notifyAddr s p q) (toBytes 8 v) with
  | (s, .error f) => deviceFault s p f.detail
  | (s, .ok ()) => notified (announceRel s s.cur (keysOf s p pgs (notifyAddr s p q) 8) .package) p q
/-- Where the store has made the partition take a device fault, the hart is gone with its launch. -/
def orGone (hid : HartId) (s : State) : AOut := if s.launches.any (·.1 == hid.l) then .done s else .left s

/-- The store waits as every store of the hart to these bytes does (R238, R263, R332). -/
def qnotifyBody (x : Qnotify) (s : State) (h : Hart) : AOut :=
  let p := s.partOf s.cur
  let q := (h.s x.q).toNat
  if 65536 ≤ q then .trap s 7 (h.s x.q) 0 0
  else match releaseWait s s.cur .package with
    | some w => .wait s w
    | none => match schedPages s p (· == 0) (notifyAddr s p q) 8 with
      | (s, .error f) => orGone s.cur (deviceFault s p f.detail)
      | (s, .ok pgs) => match blockedBy s s.cur (pageOf pgs (notifyAddr s p q)) (notifyAddr s p q) 8 true with
        | some w => .wait s w
        | none => orGone s.cur (storeNotify (fenceDone s s.cur .rel .package) p q pgs (h.s x.v).toNat)
def execQnotify (x : Qnotify) (s : State) : Host.Outcome State Fault Refusal := aside s x.g (qnotifyBody x s)

/-! ## Arrival counters (R316 to R320) -/

/-- A physical address of a local page as a peer names it (R311). -/
def peerPa (e : TlbEntry) (va : Nat) : Nat := (if pteTier e.pte = 0 then 0 else 2 ^ 50) + e.pa va

def Core.arrival (c : Core) (j : BitVec 4) : Arrival := c.arrivals[j.toNat]'(j.isLt)
def Core.setArrival (c : Core) (j : BitVec 4) (a : Arrival) : Core := { c with arrivals := c.arrivals.set j.toNat a (j.isLt) }

/-- ACSET checks every byte of its range for translation and W permission (R319); what a page of another module or of the host names
is not looked at. -/
def acsetBody (x : Acset) (s : State) (h : Hart) : AOut :=
  let e := h.s x.e
  let b := (h.s x.b).toNat
  let n := (h.s x.l).toNat
  let put (s : State) (f : Arrival → Arrival) : AOut :=
    .done (s.updCore s.cur.l s.cur.k fun c => c.setArrival x.j { f (c.arrival x.j) with e := e })
  if 2 ^ 40 < e.toNat then .trap s 2 e 0 0
  else if n = 0 then put s id
  else match checkRange s (s.partOf s.cur) h.root h.sup .store b n true with
    | (s, .error f) => trapAcc s f 0 0
    | (s, .ok pgs) =>
      let pg := pageOf pgs b
      if !pg.isLocal || !oneMapping pg b n then .trap s 2 (h.s x.b) 0 0
      else put s fun a => { a with lo := peerPa pg b, hi := peerPa pg b + n }
def execAcset (x : Acset) (s : State) : Host.Outcome State Fault Refusal := aside s x.g (acsetBody x s)

def execAcwait (x : Acwait) (s : State) : Host.Outcome State Fault Refusal :=
  aside s x.g fun _ =>
    let a := s.myCore.arrival x.j
    if a.c.toNat < a.e.toNat then .wait s .acwait
    else match fenceWait s s.cur .acq .domain with
      | some w => .wait s w
      | none => .done ((fenceDone s s.cur .acq .domain).updCore s.cur.l s.cur.k fun c => c.setArrival x.j { a with c := a.c - a.e })

/-! ## CLRED (R321 to R326) -/

/-- A group descriptor (R322). -/
structure Group where
  n : Nat
  gid : BitVec 32
  members : List Nat
  deriving DecidableEq, Repr

/-- R323, step 1: the descriptor's bytes as a number, and the root rank. -/
def parseGroup (s : State) (v root : Nat) : Option Group :=
  let f (off size : Nat) : Nat := getBits v (8 * off) (8 * size)
  let n := f 4 2
  let ms := (List.range n).map fun r => f (16 + r) 1
  let ok := f 0 4 == 0x52474C43 && 2 ≤ n && n ≤ 128 && f 6 2 == 0 && f 12 4 == 0 && decide (root < n)
    && f (16 + n) (128 - n) == 0 && decide ms.Nodup && ms.all s.md.members.contains && s.md.modId.any ms.contains
  if ok then some ⟨n, BitVec.ofNat 32 (f 8 4), ms⟩ else none

/-- Read n elements of w bytes, number i of the instruction on, each with what holds it up (R263, R238, R332). -/
def readRange (s : State) (pgs : List TlbEntry) (w : Nat) : Nat → Nat → Nat → State → Acted (List Byte)
  | 0, _, _, s => .ok s []
  | n + 1, i, a, t =>
    match loadBytes t s.cur i pgs a w with
    | .ok t v => match readRange s pgs w n (i + 1) (a + w) t with
      | .ok t r => .ok t (toBytes w v ++ r)
      | .wait t k => .wait t k
      | .dfault t d => .dfault t d
      | .reject t => .reject t
    | .wait t k => .wait t k
    | .dfault t d => .dfault t d
    | .reject t => .reject t

/-- Check a range of a CLRED (R323, step 3): translation and permission of every page, then that each is local and pinned; the source's
range comes first (log 75). -/
def clredPages (s : State) (h : Hart) (acc : Acc) (a n : Nat) : State × Except AccFault (List TlbEntry) :=
  match checkRange s (s.partOf s.cur) h.root h.sup acc a n with
  | (s, .error f) => (s, .error f)
  | (s, .ok pgs) => match pgs.find? fun e => !(e.isLocal && ptePin e.pte) with
    | some e => (s, .error (7, max a (65536 * e.vpn)))
    | none => (s, .ok pgs)

/-- The member whose rank this module has. -/
def rankOf (s : State) (g : Group) : Nat := g.members.idxOf (s.md.modId.getD 0)

/-- Send the contribution: the hart stands at element index 1 from here on (R326). It takes its count on the gid here, not before
(R325; log 66). -/
def clredSend (x : Clred) (s : State) (g : Group) (spgs dpgs : List TlbEntry) (h : Hart) : AOut :=
  let p := s.partOf s.cur
  let w := if x.dbl then 8 else 4
  let n := (h.s x.n).toNat
  let a := (h.s x.s).toNat
  if 8 ≤ (s.part p).clreds.length then .wait s .clred
  else if nbMeets h ⟨false, a, n⟩ spgs then .wait s .nbfence
  else
    (readRange s spgs w (n / w) 0 a s).aout a 0 1 fun s bs =>
      let c : Contribution :=
        { rank := rankOf s g, n := g.n, members := g.members, dbl := x.dbl, op := x.op, rootOnly := x.rootOnly,
          root := x.root.toNat, bytes := bs }
      let e := tget 0 (s.part p).clredCounts g.gid
      let s := s.updPart p fun pt =>
        { pt with clredCounts := tput pt.clredCounts g.gid (e + 1),
                  clreds := pt.clreds ++ [{ h := s.cur, gid := g.gid, e := e, c := c, d := (h.s x.d).toNat, pages := dpgs }] }
      let s := { s with md := { s.md with sent := .contribution c :: s.md.sent } }
      .wait (s.updHart s.cur fun h => { h with eix := 1 }) .clred

/-- Steps 2 to 4 of R323, then R324 up to the contribution. -/
def clredChecked (x : Clred) (s : State) (g : Group) (h : Hart) : AOut :=
  let w := if x.dbl then 8 else 4
  let n := (h.s x.n).toNat
  let a := (h.s x.s).toNat
  let d := (h.s x.d).toNat
  if n % w ≠ 0 ∨ n < w ∨ 65536 < n then .trap s 2 (h.s x.n) 0 1
  else match clredPages s h .load a n with
    | (s, .error f) => trapAcc s f 0 1
    | (s, .ok spgs) =>
      let dst : State × Except AccFault (List TlbEntry) :=
        if x.rootOnly && rankOf s g != x.root.toNat then (s, .ok []) else clredPages s h .store d n
      match dst with
      | (s, .error f) => trapAcc s f 0 1
      | (s, .ok dpgs) =>
        if !(x.rootOnly && rankOf s g != x.root.toNat) && a < d + n && d < a + n && a != d then .trap s 2 (h.s x.d) 0 1
        else match releaseWait s s.cur .domain with
          | some k => .wait s k
          | none =>
            if !dpgs.isEmpty && interlocked s.myCore s.cur.h false d (d + n) then .wait s .interlock
            else clredSend x (fenceDone s s.cur .rel .domain) g spgs dpgs h

/-- A descriptor that is not aligned to 16 bytes is none (R322; log 26). -/
def clredBody (x : Clred) (s : State) (h : Hart) : AOut :=
  let gd := (h.s x.gd).toNat
  if h.eix ≠ 0 then
    if (s.part (s.partOf s.cur)).clreds.any (·.h == s.cur) then .wait s .clred
    else match fenceWait s s.cur .acq .domain with
      | some k => .wait s k
      | none => .done (fenceDone s s.cur .acq .domain)
  else if gd % 16 ≠ 0 then .trap s 2 (h.s x.gd) 0 1
  else match checkRange s (s.partOf s.cur) h.root h.sup .load gd 144 with
    | (s, .error f) => trapAcc s f 0 1
    | (s, .ok pgs) => (readRange s pgs 8 18 0 gd s).aout gd 0 1 fun s bs =>
      match parseGroup s (ofBytes bs) x.root.toNat with
      | none => .trap s 2 (h.s x.gd) 0 1
      | some g => clredChecked x s g h
def execClred (x : Clred) (s : State) : Host.Outcome State Fault Refusal := aside s x.g (clredBody x s)

/-! ## The meeting (R324, R325) -/

/-- Two members of one meeting agree on its parameters. -/
def sameMeeting (a b : Contribution) : Bool :=
  a.n == b.n && a.members == b.members && a.dbl == b.dbl && a.op == b.op && a.rootOnly == b.rootOnly && a.root == b.root
  && a.bytes.length == b.bytes.length

/-- One element position of the result, from the elements in rank order. -/
def clredFold (op w : Nat) (l : List Nat) : Nat :=
  match op with
  | 0 => (treeSum 8 (l.map some) Fl.none).1
  | 1 => wrap (8 * w) ((l.map (sint (8 * w))).foldl min (sint (8 * w) (l.headD 0)))
  | 2 => wrap (8 * w) ((l.map (sint (8 * w))).foldl max (sint (8 * w) (l.headD 0)))
  | _ => l.foldl (· ^^^ ·) 0

/-- The result's bytes. -/
def clredValue (cs : List Contribution) (c : Contribution) : List Byte :=
  let w := if c.dbl then 8 else 4
  let ranked := (List.range c.n).filterMap fun r => cs.find? (·.rank == r)
  (List.range (c.bytes.length / w)).flatMap fun e =>
    toBytes w (clredFold c.op.toNat w (ranked.map fun x => ofBytes ((x.bytes.drop (w * e)).take w)))

/-- Write the result where this member receives it. -/
def clredWrite (s : State) (p : Nat) (o : ClredOp) (bs : List Byte) : Got Unit :=
  if o.pages.isEmpty then .ok s ()
  else
    let ks := keysOf s p o.pages o.d bs.length
    let dies := (s.part p).dies
    let lines := ks.map (· / 64)
    let crossed := (List.range (bs.length / 64 + 2)).flatMap fun i =>
      let va := max o.d (o.d / 64 * 64 + 64 * i)
      if o.d + bs.length ≤ va then [] else crossLines dies (pageOf o.pages va) va
    match ((lines.find? (leased s o.h true)).orElse fun _ => crossed.find? (leasedFar s o.h)).orElse fun _ => crossFar s o.h lines with
    | some k => .wait s (.lease k)
    | none =>
      let (s, merge) := agentUnits s ks
      if merge then .dfault s 1
      else .ok ((byPage o.d bs 2).foldl (fun s x =>
        putBytes s p o.h.l (pageOf o.pages x.1) x.1 (keysOf s p o.pages x.1 x.2.length) x.2) s) ()

/-- CLRED_RESULT: meeting n of a group, with the other members' contributions. The meeting is broken where they differ in
what they name, or where a member has faulted. -/
def clredResult (s : State) (p : Nat) (gid : BitVec 32) (n : Nat) (cs : List Contribution) (memberFault : Bool) : State :=
  match (s.part p).clreds.find? fun o => o.gid == gid && o.e == n with
  | none => s
  | some o =>
    let all := o.c :: cs.filter (·.rank != o.c.rank)
    if memberFault || cs.any (fun x => !sameMeeting o.c x) then deviceFault s p 5
    else if !(List.range o.c.n).all (fun r => all.any (·.rank == r)) then s
    else match clredWrite s p o (clredValue all o.c) with
      | .ok s _ => s.updPart p fun x => { x with clreds := x.clreds.filter (· != o) }
      | .wait _ _ => s
      | .dfault s d => deviceFault s p d
def execClredResult (p : Nat) (gid : BitVec 32) (n : Nat) (cs : List Contribution) (memberFault : Bool) (s : State) :
    Host.Outcome State Fault Refusal :=
  .next (close s (if s.md.power == .ready then clredResult s p gid n cs memberFault else s))

end Sys2Proof.Machine
end

