-- ==== Sys2Proof/Machine/Control.lean ====
section
/-! DEFINITION. Control transfers, strips, CSRs, fences, traps and boundaries (group 0x0; R102, R103, R122 to R129,
R183, R194, R337, R343 to R350). -/

namespace Sys2Proof.Machine

open Sys2Proof

/-! ## Transfers (R126, R127) -/

def execNop (x : Bare) (s : State) : Host.Outcome State Fault Refusal := aside s x.g fun _ => .done s
def execBr (x : GImm) (s : State) : Host.Outcome State Fault Refusal :=
  aside s x.g fun h => transfer s (relTarget h.pc x.imm.toInt) id
/-- The link is the slot after the CALL's; it is written only where the target is legal. -/
def execCall (x : GImm) (s : State) : Host.Outcome State Fault Refusal :=
  aside s x.g fun h => transfer s (relTarget h.pc x.imm.toInt) fun s =>
    s.updHart s.cur fun h => h.setS 63 (BitVec.ofNat 64 (nextSlot h.pc))
def execRet (x : Bare) (s : State) : Host.Outcome State Fault Refusal :=
  aside s x.g fun h => transfer s (h.s 63).toNat id
def execJmp (x : Jmp) (s : State) : Host.Outcome State Fault Refusal :=
  aside s x.g fun h => transfer s (h.s x.a).toNat id

/-- R127: vl from a count, the widest size code and the caps. -/
def stripVl (s : State) (h : Hart) (rem : Int) (z2 z3 z4 z5 : BitVec 2) : Dbl :=
  let wide := 2 ^ max (max z2.toNat z3.toNat) (max z4.toNat z5.toNat)
  BitVec.ofNat 64 (min (max rem 0).toNat (min h.vlcap.toNat (s.vlen s.cur / wide)))

/-- A pointer advances by vl elements (R127). -/
def stripPtr (vl : Dbl) (p : SReg) (z : BitVec 2) (h : Hart) : Hart := h.setS p (h.s p + (vl <<< z.toNat))

/-- No register other than s0 stands in two of OP1 to OP5 (R127). -/
def stripOk (x : Strip) : Bool :=
  let l := ([x.n, x.p2, x.p3, x.p4, x.p5] : List SReg).filter (· != 0)
  l.dedup.length == l.length

def stripEffect (x : Strip) (rem : Dbl) (s : State) : State :=
  s.updHart s.cur fun h =>
    let vl := h.vl
    let h := stripPtr vl x.p5 x.z5 (stripPtr vl x.p4 x.z4 (stripPtr vl x.p3 x.z3 (stripPtr vl x.p2 x.z2 h)))
    { h.setS x.n rem with vl := stripVl s h rem.toInt x.z2 x.z3 x.z4 x.z5 }

/-- STRIP: a taken one checks its target first (R59, order 8), then its registers (order 9). -/
def stripBody (x : Strip) (s : State) (h : Hart) : AOut :=
  let rem := h.s x.n - h.vl
  let dup (s : State) : AOut := .trap s 2 (tvalOf (.strip x)) 0 0
  if 0 < rem.toInt then
    let t := relTarget h.pc x.off.toInt
    match targetCheck s s.cur t with
    | (s, false) => .trap s 4 (BitVec.ofInt 64 t) 0 0
    | (s, true) => if stripOk x then .goto (stripEffect x rem s) t.toNat else dup s
  else if stripOk x then .done (stripEffect x rem s)
  else dup s
def execStrip (x : Strip) (s : State) : Host.Outcome State Fault Refusal := aside s x.g (stripBody x s)

def execVsetl (x : Vsetl) (s : State) : Host.Outcome State Fault Refusal :=
  aside s x.g fun h => .done (s.setMe { h with vl := stripVl s h (h.s x.n).toInt x.z2 x.z3 x.z4 x.z5 })

/-! ## Traps and returns (R348, R349) -/

def execTrap (x : GImm) (s : State) : Host.Outcome State Fault Refusal :=
  aside s x.g fun _ => .trap s 20 (x.imm.zeroExtend 64) 0 0
def execBkpt (x : GImm) (s : State) : Host.Outcome State Fault Refusal :=
  aside s x.g fun _ => .trap s 19 (x.imm.zeroExtend 64) 0 0
def execEret (x : Bare) (s : State) : Host.Outcome State Fault Refusal :=
  asideS s (.eret x) x.g fun h => .left (s.setMe h.eretTo)

/-! ## EXIT and YIELD (R102, R103, R117, R346) -/

/-- R117: shares rise over the harts still running, lowest hid first. -/
def regrant : List (Nat × Nat × Nat) → Nat → List (Nat × Nat × Nat)
  | [], _ => []
  | (i, req, g) :: t, free =>
    let g1 := if g < req && g ≤ free then 2 * g else g
    let free1 := if g < req && g ≤ free then free - g else free
    let g2 := if g1 < req && g1 ≤ free1 then 2 * g1 else g1
    let free2 := if g1 < req && g1 ≤ free1 then free1 - g1 else free1
    (i, req, g2) :: regrant t free2

/-- The harts of a core that have not executed EXIT. -/
def liveHarts (s : State) (l k : Nat) : List HartId := (s.coreHarts l k).filter fun id => (s.hart id).phase != .exited

def regrantCore (s : State) (l k : Nat) : State :=
  let live := liveHarts s l k
  let shares := live.map fun id => (id.h, (s.hart id).laneReq, (s.hart id).lanes)
  let free := 4 - (shares.map (·.2.2)).sum
  (regrant shares free).foldl (fun s (i, _, g) => s.updHart ⟨l, k, i⟩ fun h => { h with lanes := g }) s

/-- The queues and the window of a hart, emptied. -/
def Hart.discard (h : Hart) : Hart :=
  { h with win := [], lq := Vector.replicate 4 [], sq := Vector.replicate 2 [], xq := [], claim := none }

/-- R102 from step 4 on. -/
def exitNow (s : State) : State :=
  let s := s.updHart s.cur fun h =>
    { (h.discard.retire h.pc (!h.sup)) with leases := [], phase := .exited, lanes := 0, arrived := none, pause := 0 }
  regrantCore s s.cur.l s.cur.k

def exitBody (s : State) (h : Hart) : AOut :=
  if !h.sup && !h.win.isEmpty then .wait s .exit
  else
    let s := if h.sup then s.setMe h.discard else s
    if s.myCore.engines.any (·.hid == s.cur.h) || !h.nb.isEmpty || (releaseWait s s.cur .domain).isSome then .wait s .exit
    else .left (exitNow (fenceDone s s.cur .rel .domain))
def execExit (x : Bare) (s : State) : Host.Outcome State Fault Refusal := aside s x.g (exitBody s)

def execYield (x : Yield) (s : State) : Host.Outcome State Fault Refusal :=
  aside s x.g fun h => .done (s.setMe { h with pause := s.cycle + x.n.toNat })

/-! ## CSRs (R122 to R125, R128, R343, R344) -/

/-- The value a CSRR returns. -/
def csrRead (s : State) (h : Hart) (c : Csr) : Dbl :=
  let la := s.launch s.cur.l
  let core := s.myCore
  match c with
  | .vl => h.vl
  | .vlh => h.vlh
  | .vlmax => BitVec.ofNat 64 la.vlen
  | .vlcap => h.vlcap
  | .shp => h.shp
  | .ffe => h.ffe
  | .vsat => if h.vsat then 1 else 0
  | .fflags => h.fflags.setWidth 64
  | .srseed => h.srseed
  | .tagmap => core.tagDone &&& h.tagown
  | .tagown => h.tagown
  | .cbown => h.cbown.setWidth 64
  | .tilown => h.tilown.setWidth 64
  | .leases => BitVec.ofNat 64 (h.heldLeases s).length
  | .cx => BitVec.ofNat 64 (s.cur.k % la.w)
  | .cy => BitVec.ofNat 64 (s.cur.k / la.w)
  | .cw => BitVec.ofNat 64 la.w
  | .ch => BitVec.ofNat 64 la.h
  | .hid => BitVec.ofNat 64 s.cur.h
  | .nh => BitVec.ofNat 64 la.nh
  | .lanes => BitVec.ofNat 64 h.lanes
  | .ccount => Config.coreStart s.md.bootId (s.meshPos s.cur.l s.cur.k) + BitVec.ofNat 64 s.cycle
  | .icount => h.icount
  | .bnd0 => core.bnd0.setWidth 64
  | .bnd1 => core.bnd1.setWidth 64
  | .bnd2 => core.bnd2.setWidth 64
  | .tvec => h.tvec
  | .tcause => h.tcause.setWidth 64
  | .tside => if h.tside then 1 else 0
  | .tpc => h.tpc
  | .teix => h.teix.setWidth 64
  | .tval => h.tval
  | .tstat => (h.aeix.setWidth 64 <<< (16 : Nat)) ||| (if h.tpm then 1 else 0)
  | .tscratch => h.tscratch
  | .txw => h.txw.setWidth 64
  | .ptbase => h.ptbase
  | .savearea => h.savearea

/-- A write of teix or AEIX, clamped between the stop index and the bound (R113, R344). -/
def clampEix (stop bound v : Nat) : BitVec 14 := BitVec.ofNat 14 (if v < stop then stop else if bound < v then bound else v)

/-- A CSR whose fields are all RO; supervisor mode may write icount (R124). -/
def csrReadOnly (sup : Bool) : Csr → Bool
  | .vlh | .vlmax | .tagmap | .tagown | .cbown | .tilown | .leases | .cx | .cy | .cw | .ch | .hid | .nh | .lanes
  | .ccount | .bnd0 | .bnd1 | .bnd2 | .txw => true
  | .icount => !sup
  | _ => false

/-- The CSRs from 0x100 to 0x1FF, which only supervisor mode reaches (R124). -/
def csrSup : Csr → Bool
  | .tvec | .tcause | .tside | .tpc | .teix | .tval | .tstat | .tscratch | .txw | .ptbase | .savearea => true
  | _ => false

/-- The greatest slot address at or below bits 54:0 (R343). -/
def slotWarl (v : Dbl) : Dbl := BitVec.ofNat 64 (slotBelow (v.toNat % 2 ^ 55))
/-- What vlcap, shp, ffe and ptbase keep of a value (R123, R283). -/
def capWarl (v : Dbl) : Dbl := if v = 0 then 1 else if 8192 < v.toNat then 8192 else v
def shpWarl (v : Dbl) : Dbl := (v.setWidth 32).setWidth 64
def ffeWarl (v : Dbl) : Dbl := if 8192 < v.toNat then 8192 else v
def ptbaseWarl (v : Dbl) : Dbl := (v.extractLsb' 16 36).setWidth 64 <<< (16 : Nat)

/-- A CSR write: the writable fields take their bits, WARL fields a legal value. -/
def csrWrite (s : State) (h : Hart) (c : Csr) (v : Dbl) : Hart :=
  match c with
  | .vl => { h with vl := BitVec.ofNat 64 (min v.toNat (min h.vlcap.toNat (s.vlen s.cur))) }
  | .vlcap => { h with vlcap := capWarl v }
  | .shp => { h with shp := shpWarl v }
  | .ffe => { h with ffe := ffeWarl v }
  | .vsat => { h with vsat := v.getLsbD 0 }
  | .fflags => { h with fflags := v.setWidth 5 }
  | .srseed => { h with srseed := v }
  | .icount => { h with icount := v }
  | .tvec => { h with tvec := slotWarl v }
  | .tcause => { h with tcause := v.setWidth 8 }
  | .tside => { h with tside := v.getLsbD 0 }
  | .tpc => { h with tpc := slotWarl v }
  | .teix => { h with teix := clampEix h.stopT h.boundT (v.toNat % 2 ^ 14) }
  | .tval => { h with tval := v }
  | .tstat => { h with aeix := clampEix h.stopA h.boundA (v.toNat / 2 ^ 16 % 2 ^ 14), tpm := v.getLsbD 0 }
  | .tscratch => { h with tscratch := v }
  | .ptbase => { h with ptbase := ptbaseWarl v }
  | .savearea => { h with savearea := v }
  | .vlh | .vlmax | .tagmap | .tagown | .cbown | .tilown | .leases | .cx | .cy | .cw | .ch | .hid | .nh | .lanes
  | .ccount | .bnd0 | .bnd1 | .bnd2 | .txw => h

/-- A CSR instruction: the privilege check stands before the guards (R59, R124). -/
def asideCsr (s : State) (i : Instr) (c : Csr) (g : Guards) (body : Hart → AOut) : Host.Outcome State Fault Refusal :=
  if csrSup c then asideS s i g body else aside s g body

def execCsrr (x : CsrRd) (s : State) : Host.Outcome State Fault Refusal :=
  asideCsr s (.csrr x) x.c x.g fun h => .done (s.setMe (h.setS x.d (csrRead s h x.c)))

def CsrSrc.value (h : Hart) : CsrSrc → Dbl
  | .reg r => h.s r
  | .imm i => i.zeroExtend 64

/-- CSRW, CSRSET, CSRCLR: `f old v` is what is written (R128). -/
def csrBody (i : Instr) (x : CsrWr) (f : Dbl → Dbl → Dbl) (s : State) (h : Hart) : AOut :=
  if csrReadOnly h.sup x.c then .trap s 1 (tvalOf i) 0 0
  else .done (s.setMe (csrWrite s h x.c (f (csrRead s h x.c) (CsrSrc.value h x.src))))

def execCsrw (x : CsrWr) (s : State) : Host.Outcome State Fault Refusal :=
  asideCsr s (.csrw x) x.c x.g (csrBody (.csrw x) x (fun _ v => v) s)
def execCsrset (x : CsrWr) (s : State) : Host.Outcome State Fault Refusal :=
  asideCsr s (.csrset x) x.c x.g (csrBody (.csrset x) x (fun o v => o ||| v) s)
def execCsrclr (x : CsrWr) (s : State) : Host.Outcome State Fault Refusal :=
  asideCsr s (.csrclr x) x.c x.g (csrBody (.csrclr x) x (fun o v => o &&& ~~~v) s)

/-! ## FENCE, XSYNC, TLBINV, SETBND (R129, R194, R337, R350) -/

def execFence (x : Fence) (s : State) : Host.Outcome State Fault Refusal :=
  aside s x.g fun _ => match fenceWait s s.cur x.k x.s with
    | some w => .wait s w
    | none => .done (fenceDone s s.cur x.k x.s)

/-- XSYNC: in supervisor mode it is illegal (R346). -/
def execXsync (x : Bare) (s : State) : Host.Outcome State Fault Refusal :=
  asideQ s (.xsync x) x.g fun h => if h.win.isEmpty then .done s else .wait s .xsync

/-- A TLBINV has completed (R284, R350): no translation that it covers, made before, is used again. For k = 0 these are the mappings
of each size that hold the address. -/
def tlbDrop (pt : Part) (k : BitVec 2) (va : Nat) (root : BitVec 64) (epoch : Nat) : Part :=
  if k = 0 then
    if va < 2 ^ 55 then
      { pt with tlbPages := (([16, 21, 29] : List Nat).map fun lg => ((va / 2 ^ lg * 2 ^ (lg - 16), lg), epoch)) ++ pt.tlbPages }
    else pt
  else if k = 1 then { pt with tlbAll := epoch }
  else { pt with tlbRoots := tput pt.tlbRoots root epoch }

/-- TLBINV, with its release fence of package scope (k = 3 is illegal, R350: no word decodes to it). -/
def tlbinvBody (x : Tlbinv) (s : State) (h : Hart) : AOut :=
  if x.k = 3 then .trap s 1 (tvalOf (.tlbinv x)) 0 0
  else
    let s := fenceDone s s.cur .rel .package
    let s := { s.updPart (s.partOf s.cur) fun p => tlbDrop p x.k (h.s x.a).toNat h.ptbase (s.epoch + 1) with epoch := s.epoch + 1 }
    .done (s.updHart s.cur fun h => { h with root := h.ptbase })
def execTlbinv (x : Tlbinv) (s : State) : Host.Outcome State Fault Refusal := asideS s (.tlbinv x) x.g (tlbinvBody x s)

/-- The codebook and scratchpad bytes of a core, from bnd0 on, become zero, and with them what their check units held; the register
region stays as it is (R194). -/
def zeroPool (s : State) (l k bnd0 : Nat) : State :=
  let s := s.wipe (poolKey l k bnd0) (poolKey l (k + 1) 0)
  { s with bad := s.bad.filter fun u => !(poolKey l k bnd0 ≤ u && u < poolKey l (k + 1) 0) }

def setbndBody (x : A3) (s : State) (h : Hart) : AOut :=
  let l := s.cur.l
  let k := s.cur.k
  if (liveHarts s l k).any (· != s.cur) then .trap s 2 1 0 0
  else if !h.win.isEmpty then .trap s 2 3 0 0
  else if !s.myCore.engines.isEmpty || !h.nb.isEmpty then .wait s .setbnd
  else
    let la := s.launch l
    let a := (h.s x.a).toNat
    let b := (h.s x.b).toNat
    let c := (h.s x.c).toNat
    if (boundsBad a b c la.nh la.vlen la.scratch la.cbslot).isSome then .trap s 2 2 0 0
    else
      let (s, lost) := emptyL1 (s.setMe { h with leases := [] }) (· == (l, k))
      if lost then faulted s 1
      else
      let s := s.updCore l k fun core =>
        { core with banks := Vector.replicate 16 {}, bnd0 := BitVec.ofNat 21 a, bnd1 := BitVec.ofNat 21 b,
                    bnd2 := BitVec.ofNat 21 c }
      .done (zeroPool s l k a)
def execSetbnd (x : A3) (s : State) : Host.Outcome State Fault Refusal := asideS s (.setbnd x) x.g (setbndBody x s)

end Sys2Proof.Machine
end

