-- ==== Sys2Proof/Machine/Scalar.lean ====
section
/-! DEFINITION. Scalar integer instructions (group 0x1, R131 to R134). -/

namespace Sys2Proof.Machine

open Sys2Proof

/-! ## Shared forms -/

/-- sD := v. -/
def writeS (s : State) (d : SReg) (v : Dbl) : AOut := .done (s.setMe (s.me.setS d v))
/-- pD := b. -/
def writeP (s : State) (d : PReg) (b : Bool) : AOut := .done (s.setMe (s.me.setP d b))
/-- sD := f a b (R131, register forms). -/
def aBin (x : ABin) (f : Dbl → Dbl → Dbl) (s : State) : Host.Outcome State Fault Refusal :=
  aside s x.g fun h => writeS s x.d (f (h.s x.a) (h.s x.b))
/-- sD := f a i (R53, R131). -/
def aImm (x : AImm) (f : Dbl → Dbl → Dbl) (s : State) : Host.Outcome State Fault Refusal :=
  aside s x.g fun h => writeS s x.d (f (h.s x.a) (immS x.i))
/-- sD := f a u, u zero-extended (R131). -/
def aImmU (x : AImm) (f : Dbl → Dbl → Dbl) (s : State) : Host.Outcome State Fault Refusal :=
  aside s x.g fun h => writeS s x.d (f (h.s x.a) (immU x.i))
/-- sD := f a. -/
def aUn (x : AUn) (f : Dbl → Dbl) (s : State) : Host.Outcome State Fault Refusal :=
  aside s x.g fun h => writeS s x.d (f (h.s x.a))

/-! ## Values -/

def shlVal (a b : Dbl) : Dbl := a <<< (b.toNat % 64)
def shrVal (a b : Dbl) : Dbl := a >>> (b.toNat % 64)
def sraVal (a b : Dbl) : Dbl := a.sshiftRight (b.toNat % 64)
def mulhVal (a b : Dbl) : Dbl := ((a.signExtend 128 * b.signExtend 128) >>> (64 : Nat)).setWidth 64
def mulhuVal (a b : Dbl) : Dbl := ((a.zeroExtend 128 * b.zeroExtend 128) >>> (64 : Nat)).setWidth 64
/-- R132: quotients and remainders; division never traps. -/
def divVal (a b : Dbl) : Dbl := if b = 0 then BitVec.allOnes 64 else BitVec.ofInt 64 (a.toInt.tdiv b.toInt)
def remVal (a b : Dbl) : Dbl := if b = 0 then a else BitVec.ofInt 64 (a.toInt.tmod b.toInt)
def divuVal (a b : Dbl) : Dbl := if b = 0 then BitVec.allOnes 64 else BitVec.ofNat 64 (a.toNat / b.toNat)
def remuVal (a b : Dbl) : Dbl := if b = 0 then a else BitVec.ofNat 64 (a.toNat % b.toNat)
def minVal (a b : Dbl) : Dbl := if a.slt b then a else b
def maxVal (a b : Dbl) : Dbl := if a.slt b then b else a
def minuVal (a b : Dbl) : Dbl := if a.ult b then a else b
def maxuVal (a b : Dbl) : Dbl := if a.ult b then b else a
/-- Leading zeros of the low w bits of x (R131, R143). -/
def clzNat (w x : Nat) : Nat := if x = 0 then w else w - 1 - x.log2
/-- Trailing zeros, w for zero. -/
def ctzNat : Nat → Nat → Nat
  | 0, _ => 0
  | w + 1, x => if x % 2 = 1 then 0 else 1 + ctzNat w (x / 2)
/-- Count of ones in the low w bits. -/
def popNat : Nat → Nat → Nat
  | 0, _ => 0
  | w + 1, x => x % 2 + popNat w (x / 2)
/-- The low 8 × 2^z bits, sign- or zero-extended. -/
def sextVal (z : BitVec 2) (a : Dbl) : Dbl := BitVec.ofInt 64 (sint (8 * 2 ^ z.toNat) a.toNat)
def zextVal (z : BitVec 2) (a : Dbl) : Dbl := BitVec.ofNat 64 (a.toNat % 2 ^ (8 * 2 ^ z.toNat))
/-- R133: the conditions. -/
def condVal (c : Cond) (a b : Dbl) : Bool :=
  match c with
  | .eq => a == b
  | .ne => a != b
  | .lt => a.slt b
  | .ge => !a.slt b
  | .ltu => a.ult b
  | .geu => !a.ult b
  | .gt => b.slt a
  | .le => !b.slt a
  | .gtu => b.ult a
  | .leu => !b.ult a
  | .tst => a &&& b != 0
  | .tstn => a &&& b == 0

/-! ## Instructions -/

def execAdd (x : ABin) (s : State) := aBin x (· + ·) s
def execAddi (x : AImm) (s : State) := aImm x (· + ·) s
def execSub (x : ABin) (s : State) := aBin x (· - ·) s
def execMul (x : ABin) (s : State) := aBin x (· * ·) s
def execMuli (x : AImm) (s : State) := aImm x (· * ·) s
def execMulh (x : ABin) (s : State) := aBin x mulhVal s
def execMulhu (x : AImm) (s : State) := aImmU x mulhuVal s
def execDiv (x : ABin) (s : State) := aBin x divVal s
def execDivu (x : AImm) (s : State) := aImmU x divuVal s
def execRem (x : ABin) (s : State) := aBin x remVal s
def execRemu (x : AImm) (s : State) := aImmU x remuVal s
def execAnd (x : ABin) (s : State) := aBin x (· &&& ·) s
def execAndi (x : AImm) (s : State) := aImm x (· &&& ·) s
def execOr (x : ABin) (s : State) := aBin x (· ||| ·) s
def execOri (x : AImm) (s : State) := aImm x (· ||| ·) s
def execXor (x : ABin) (s : State) := aBin x (· ^^^ ·) s
def execXori (x : AImm) (s : State) := aImm x (· ^^^ ·) s
def execAndn (x : ABin) (s : State) := aBin x (fun a b => a &&& ~~~b) s
def execShl (x : ABin) (s : State) := aBin x shlVal s
def execShli (x : AImm) (s : State) := aImm x shlVal s
def execShr (x : ABin) (s : State) := aBin x shrVal s
def execShri (x : AImm) (s : State) := aImm x shrVal s
def execSra (x : ABin) (s : State) := aBin x sraVal s
def execSrai (x : AImm) (s : State) := aImm x sraVal s
def execMin (x : ABin) (s : State) := aBin x minVal s
def execMax (x : AImm) (s : State) := aImm x maxVal s
def execMinu (x : ABin) (s : State) := aBin x minuVal s
def execMaxu (x : AImm) (s : State) := aImmU x maxuVal s
def execClz (x : AUn) (s : State) := aUn x (fun a => BitVec.ofNat 64 (clzNat 64 a.toNat)) s
def execCtz (x : AUn) (s : State) := aUn x (fun a => BitVec.ofNat 64 (ctzNat 64 a.toNat)) s
def execPopc (x : AUn) (s : State) := aUn x (fun a => BitVec.ofNat 64 (popNat 64 a.toNat)) s
def execMov (x : AUn) (s : State) := aUn x id s
def execSext (x : AUnZ) (s : State) : Host.Outcome State Fault Refusal :=
  aside s x.g fun h => writeS s x.d (sextVal x.z (h.s x.a))
def execZext (x : AUnZ) (s : State) : Host.Outcome State Fault Refusal :=
  aside s x.g fun h => writeS s x.d (zextVal x.z (h.s x.a))
/-- R18, R131: MOVI's own immediate, sign-extended. -/
def execMovi (x : Movi) (s : State) : Host.Outcome State Fault Refusal :=
  aside s x.g fun _ => writeS s x.d (x.i.signExtend 64)
/-- R54: MOVI with an extension writes its 64 bits. -/
def execMoviX (x : MoviX) (s : State) : Host.Outcome State Fault Refusal :=
  aside s x.g fun _ => writeS s x.d x.v
/-- R133: pN ? a : i. -/
def execSel (x : Sel) (s : State) : Host.Outcome State Fault Refusal :=
  aside s x.g fun h => writeS s x.d (if h.pr x.p != x.neg then h.s x.a else (immS x.i))
def execCmp (x : Cmp) (s : State) : Host.Outcome State Fault Refusal :=
  aside s x.g fun h => writeP s x.d (condVal x.c (h.s x.a) (h.s x.b))
def execCmpi (x : Cmpi) (s : State) : Host.Outcome State Fault Refusal :=
  aside s x.g fun h => writeP s x.d (condVal x.c (h.s x.a) (immS x.i))
/-- R133: t bit (2 × pA + pB). -/
def execPlog (x : Plog) (s : State) : Host.Outcome State Fault Refusal :=
  aside s x.g fun h => writeP s x.d (x.t.getLsbD ((if h.pr x.a then 2 else 0) + if h.pr x.b then 1 else 0))
/-- R133: a + (x shl log2 k) + off. -/
def execLea (x : Lea) (s : State) : Host.Outcome State Fault Refusal :=
  aside s x.g fun h => writeS s x.d (h.s x.a + (h.s x.x <<< x.k.toNat) + (immS x.i))
/-- R134. -/
def execHashs (x : Hashs) (s : State) : Host.Outcome State Fault Refusal :=
  aside s x.g fun h => writeS s x.d
    ((crcStep (2 ^ x.z.toNat) ((h.s x.a).setWidth 32) (h.s x.b).toNat).setWidth 64)

end Sys2Proof.Machine
end

