-- ==== Sys2Proof/Machine/Run.lean ====
section
/-! DEFINITION. The meaning of an encoded instruction, as the events that resume a waiting instruction run it. -/

namespace Sys2Proof.Machine

open Sys2Proof

/-- The meaning of an encoded instruction; an event is not one. -/
def runInstr (i : Instr) (s : State) : Host.Outcome State Fault Refusal :=
  match i with
  | .nop x => execNop x s
  | .br x => execBr x s
  | .call x => execCall x s
  | .ret x => execRet x s
  | .jmp x => execJmp x s
  | .strip x => execStrip x s
  | .vsetl x => execVsetl x s
  | .trap x => execTrap x s
  | .bkpt x => execBkpt x s
  | .eret x => execEret x s
  | .exit x => execExit x s
  | .yield x => execYield x s
  | .csrr x => execCsrr x s
  | .csrw x => execCsrw x s
  | .csrset x => execCsrset x s
  | .csrclr x => execCsrclr x s
  | .fence x => execFence x s
  | .xsync x => execXsync x s
  | .tlbinv x => execTlbinv x s
  | .setbnd x => execSetbnd x s
  | .add x => execAdd x s
  | .addi x => execAddi x s
  | .sub x => execSub x s
  | .mul x => execMul x s
  | .muli x => execMuli x s
  | .mulh x => execMulh x s
  | .mulhu x => execMulhu x s
  | .div x => execDiv x s
  | .divu x => execDivu x s
  | .rem x => execRem x s
  | .remu x => execRemu x s
  | .and x => execAnd x s
  | .andi x => execAndi x s
  | .or x => execOr x s
  | .ori x => execOri x s
  | .xor x => execXor x s
  | .xori x => execXori x s
  | .andn x => execAndn x s
  | .shl x => execShl x s
  | .shli x => execShli x s
  | .shr x => execShr x s
  | .shri x => execShri x s
  | .sra x => execSra x s
  | .srai x => execSrai x s
  | .min x => execMin x s
  | .max x => execMax x s
  | .minu x => execMinu x s
  | .maxu x => execMaxu x s
  | .clz x => execClz x s
  | .ctz x => execCtz x s
  | .popc x => execPopc x s
  | .sext x => execSext x s
  | .zext x => execZext x s
  | .movi x => execMovi x s
  | .moviX x => execMoviX x s
  | .mov x => execMov x s
  | .sel x => execSel x s
  | .cmp x => execCmp x s
  | .cmpi x => execCmpi x s
  | .plog x => execPlog x s
  | .lea x => execLea x s
  | .hashs x => execHashs x s
  | .ldb x => execLdb x s
  | .ldh x => execLdh x s
  | .ldw x => execLdw x s
  | .ldd x => execLdd x s
  | .ldbs x => execLdbs x s
  | .ldhs x => execLdhs x s
  | .ldws x => execLdws x s
  | .stb x => execStb x s
  | .sth x => execSth x s
  | .stw x => execStw x s
  | .std x => execStd x s
  | .aadd x => execAadd x s
  | .aand x => execAand x s
  | .aor x => execAor x s
  | .axor x => execAxor x s
  | .amin x => execAmin x s
  | .amax x => execAmax x s
  | .aswp x => execAswp x s
  | .acas x => execAcas x s
  | .afadd x => execAfadd x s
  | .lease x => execLease x s
  | .unlease x => execUnlease x s
  | .stlc x => execStlc x s
  | .cflush x => execCflush x s
  | .cinv x => execCinv x s
  | .cpref x => execCpref x s
  | .vld x => execVld x s
  | .vldff x => execVldff x s
  | .vldx x => execVldx x s
  | .vldsc x => execVldsc x s
  | .vst x => execVst x s
  | .vstx x => execVstx x s
  | .vstsc x => execVstsc x s
  | .vlds x => execVlds x s
  | .vsts x => execVsts x s
  | .vldsx x => execVldsx x s
  | .vstsx x => execVstsx x s
  | .vamo x => execVamo x s
  | .popx x => execPopx x s
  | .qdrop x => execQdrop x s
  | .pcopy x => execPcopy x s
  | .pdec x => execPdec x s
  | .pfill x => execPfill x s
  | .twaitany x => execTwaitany x s
  | .twaitall x => execTwaitall x s
  | .tfind x => execTfind x s
  | .tclr x => execTclr x s
  | .nbadd x => execNbadd x s
  | .nbopt x => execNbopt x s
  | .nbfence x => execNbfence x s
  | .sfpool x => execSfpool x s
  | .rhopen x => execRhopen x s
  | .rhprio x => execRhprio x s
  | .rhevict x => execRhevict x s
  | .rhclose x => execRhclose x s
  | .gong x => execGong x s
  | .post x => execPost x s
  | .waiti x => execWaiti x s
  | .qnotify x => execQnotify x s
  | .acset x => execAcset x s
  | .acwait x => execAcwait x s
  | .clred x => execClred x s
  | .vadd x => execVadd x s
  | .vsub x => execVsub x s
  | .vmul x => execVmul x s
  | .vmulh x => execVmulh x s
  | .vmac x => execVmac x s
  | .vdot2 x => execVdot2 x s
  | .vabs x => execVabs x s
  | .vneg x => execVneg x s
  | .vmin x => execVmin x s
  | .vmax x => execVmax x s
  | .vand x => execVand x s
  | .vor x => execVor x s
  | .vxor x => execVxor x s
  | .vnot x => execVnot x s
  | .vshl x => execVshl x s
  | .vshr x => execVshr x s
  | .vsra x => execVsra x s
  | .vsrar x => execVsrar x s
  | .vclz x => execVclz x s
  | .vpopc x => execVpopc x s
  | .vsel x => execVsel x s
  | .vmov x => execVmov x s
  | .vsplat x => execVsplat x s
  | .vsplatX x => execVsplatX x s
  | .viota x => execViota x s
  | .vadds x => execVadds x s
  | .vsubs x => execVsubs x s
  | .vrmovf x => execVrmovf x s
  | .vrmovt x => execVrmovt x s
  | .vcmp x => execVcmp x s
  | .vlbc x => execVlbc x s
  | .mlog x => execMlog x s
  | .mpopc x => execMpopc x s
  | .mffs x => execMffs x s
  | .mpfx x => execMpfx x s
  | .mffe x => execMffe x s
  | .vslideup x => execVslideup x s
  | .vslidedn x => execVslidedn x s
  | .vgathr x => execVgathr x s
  | .vcompr x => execVcompr x s
  | .vexpnd x => execVexpnd x s
  | .vredsum x => execVredsum x s
  | .vredmin x => execVredmin x s
  | .vredmax x => execVredmax x s
  | .vscan x => execVscan x s
  | .vconf x => execVconf x s
  | .vcomb x => execVcomb x s
  | .vsort x => execVsort x s
  | .vbcmp x => execVbcmp x s
  | .vbfind x => execVbfind x s
  | .vhash x => execVhash x s
  | .vxhash x => execVxhash x s
  | .vfadd x => execVfadd x s
  | .vfsub x => execVfsub x s
  | .vfmul x => execVfmul x s
  | .vfma x => execVfma x s
  | .vfdiv x => execVfdiv x s
  | .vfsqrt x => execVfsqrt x s
  | .vfmin x => execVfmin x s
  | .vfmax x => execVfmax x s
  | .vfabs x => execVfabs x s
  | .vfneg x => execVfneg x s
  | .vfcmp x => execVfcmp x s
  | .vexp2 x => execVexp2 x s
  | .vlog2 x => execVlog2 x s
  | .vrsqrt x => execVrsqrt x s
  | .vrcp x => execVrcp x s
  | .vtanh x => execVtanh x s
  | .verf x => execVerf x s
  | .vcvt x => execVcvt x s
  | .vfredsum x => execVfredsum x s
  | .vbfly x => execVbfly x s
  | .vamax x => execVamax x s
  | .vqbfp x => execVqbfp x s
  | .vdqbfp x => execVdqbfp x s
  | .vqsc x => execVqsc x s
  | .cbld x => execCbld x s
  | .cbst x => execCbst x s
  | .cbinv x => execCbinv x s
  | .vcbx x => execVcbx x s
  | .vcbq x => execVcbq x s
  | .tzero x => execTzero x s
  | .opa x => execOpa x s
  | .opas x => execOpas x s
  | .tlds x => execTlds x s
  | .tsts x => execTsts x s
  | .trowv x => execTrowv x s
  | .tvrow x => execTvrow x s
  | .tscale x => execTscale x s
  | .elementGroup _ => .next s
  | .xEntryCompletion _ => .next s
  | .yieldHintEnd _ => .next s
  | .queueDeadlock _ => .next s
  | .yieldPauseEnd _ => .next s
  | .elementArrival _ _ _ _ _ => .next s
  | .leaseExpiry _ => .next s
  | .engineCompletion _ _ _ => .next s
  | .nearMemoryUpdate _ _ => .next s
  | .sfpoolBagArrival _ _ _ _ => .next s
  | .peerStoreAck _ => .next s
  | .queueMap _ => .next s
  | .unmapStart _ => .next s
  | .unmapComplete _ _ => .next s
  | .recordTake _ _ => .next s
  | .placement _ => .next s
  | .sliceTick _ => .next s
  | .sliceExpiry _ => .next s
  | .preemptionHalt _ => .next s
  | .contextSave _ => .next s
  | .resumption _ => .next s
  | .launchCompletion _ => .next s
  | .watchdogPoll _ _ => .next s
  | .vlWrite _ => .next s
  | .vlcapWrite _ => .next s
  | .teixWrite _ => .next s
  | .tvecWrite _ => .next s
  | .fflagsWrite _ => .next s
  | .ptbaseWrite _ => .next s
  | .xWindowFree _ => .next s
  | .queueEntryReady _ => .next s
  | .xsyncDone _ => .next s
  | .interlockWaitEnd _ => .next s
  | .leaseGrant _ => .next s
  | .gongDeparture _ => .next s
  | .waitiSatisfied _ => .next s
  | .twaitReturn _ => .next s
  | .engineIssue _ => .next s
  | .bankWriteWaitEnd _ => .next s
  | .nbfenceDone _ => .next s
  | .exitRetire _ => .next s
  | .acwaitReturn _ => .next s
  | .peerRequest _ => .next s
  | .postedStoreRejected _ => .next s
  | .peerAcceptance _ _ => .next s
  | .clredResult _ _ _ _ _ => .next s
  | .linkReplay _ => .next s
  | .spokeLinkFailure _ _ => .next s
  | .saddlebagLinkFailure _ => .next s
  | .notifyWrite _ _ _ => .next s
  | .serverRdmaWrite _ _ _ => .next s
  | .watchdogExpiry _ => .next s
  | .powerOn _ => .next s
  | .powerLoss => .next s
  | .throttle _ => .next s
  | .thermalShutdown => .next s
  | .ident _ => .next s
  | .reset _ _ => .next s
  | .partition _ => .next s
  | .load _ => .next s
  | .start _ => .next s
  | .stop _ => .next s
  | .attest _ => .next s
  | .counters _ => .next s
  | .thermal _ _ => .next s
  | .domain _ _ _ _ => .next s
  | .hostwin _ _ => .next s
  | .keys _ _ => .next s
  | .unsupportedRdmaRequest _ => .next s

end Sys2Proof.Machine
end

