-- ==== Sys2Proof/Machine/Wake.lean ====
section
/-! DEFINITION. The events at which a waiting A side goes on, CSR writes as events, and queue deadlock (R113, R120, R122,
R237, R239, R344). -/

namespace Sys2Proof.Machine

open Sys2Proof

/-- The hart's A side tries its instruction again where `f` accepts what it waits for and what the instruction is;
otherwise nothing happens. -/
def wake (s : State) (hid : HartId) (f : Option Wait → Instr → Bool) : Host.Outcome State Fault Refusal :=
  if canIssue s hid then
    match fetch { s with cur := hid } hid with
    | .run t i => if f (s.hart hid).wait i then runInstr i t else .next s
    | .ended _ => .next s
  else .next s

/-- The A side waits for this. -/
def waits (w : Wait) (x : Option Wait) (_ : Instr) : Bool := x == some w
def waitsQueue (x : Option Wait) (_ : Instr) : Bool := match x with
  | some (.queue _) => true
  | _ => false
def waitsGrant (x : Option Wait) (_ : Instr) : Bool := match x with
  | some (.leaseGrant _) => true
  | _ => false
/-- The A side waits at one of these instructions. -/
def waitsAt (f : Instr → Bool) (x : Option Wait) (i : Instr) : Bool := x.isSome && f i
def isEngine : Instr → Bool
  | .pcopy _ => true
  | .pdec _ => true
  | .pfill _ => true
  | _ => false
def isNbfence : Instr → Bool
  | .nbfence _ => true
  | _ => false
def isExit : Instr → Bool
  | .exit _ => true
  | _ => false

/-- X_WINDOW_FREE: the window has room again (R107). -/
def execXWindowFree (h : HartId) (s : State) : Host.Outcome State Fault Refusal := wake s h (waits .window)
/-- QUEUE_ENTRY_READY: the queue the A side waits on has an entry or room (R119, R369). -/
def execQueueEntryReady (h : HartId) (s : State) : Host.Outcome State Fault Refusal := wake s h waitsQueue
/-- XSYNC_DONE (R129). -/
def execXsyncDone (h : HartId) (s : State) : Host.Outcome State Fault Refusal := wake s h (waits .xsync)
/-- INTERLOCK_WAIT_END (R190, R263). -/
def execInterlockWaitEnd (h : HartId) (s : State) : Host.Outcome State Fault Refusal := wake s h (waits .interlock)
/-- LEASE_GRANT (R237). -/
def execLeaseGrant (h : HartId) (s : State) : Host.Outcome State Fault Refusal := wake s h waitsGrant
/-- GONG_DEPARTURE (R99). -/
def execGongDeparture (h : HartId) (s : State) : Host.Outcome State Fault Refusal := wake s h (waits .gong)
/-- WAITI_SATISFIED (R100). -/
def execWaitiSatisfied (h : HartId) (s : State) : Host.Outcome State Fault Refusal := wake s h (waits .waiti)
/-- TWAIT_RETURN (R271). -/
def execTwaitReturn (h : HartId) (s : State) : Host.Outcome State Fault Refusal := wake s h (waits .tags)
/-- ENGINE_ISSUE (R261). -/
def execEngineIssue (h : HartId) (s : State) : Host.Outcome State Fault Refusal := wake s h (waitsAt isEngine)
/-- BANK_WRITE_WAIT_END (R205). -/
def execBankWriteWaitEnd (h : HartId) (s : State) : Host.Outcome State Fault Refusal := wake s h (waits .bank)
/-- NBFENCE_DONE (R295, R300). -/
def execNbfenceDone (h : HartId) (s : State) : Host.Outcome State Fault Refusal := wake s h (waitsAt isNbfence)
/-- EXIT_RETIRE (R102). -/
def execExitRetire (h : HartId) (s : State) : Host.Outcome State Fault Refusal := wake s h (waitsAt isExit)
/-- ACWAIT_RETURN (R320). -/
def execAcwaitReturn (h : HartId) (s : State) : Host.Outcome State Fault Refusal := wake s h (waits .acwait)

/-- YIELD_PAUSE_END: the pause is over (R103). -/
def execYieldPauseEnd (h : HartId) (s : State) : Host.Outcome State Fault Refusal :=
  let x := s.hart h
  .next (close s (if x.pause = 0 ∨ s.cycle < x.pause then s else s.setHart h { x with pause := 0 }))

/-- LEASE_EXPIRY: the hart's leases whose cycles are over end (R239). -/
def execLeaseExpiry (h : HartId) (s : State) : Host.Outcome State Fault Refusal :=
  let x := s.hart h
  .next (close s (if x.leases.all (Lease.held s) then s else s.setHart h { x with leases := x.heldLeases s }))

/-! ## CSR writes -/

/-- The instruction writes this CSR. -/
def writesCsr (c : Csr) (_ : Option Wait) : Instr → Bool
  | .csrw x => x.c == c
  | .csrset x => x.c == c
  | .csrclr x => x.c == c
  | _ => false

/-- VL_WRITE: the hart's next instruction writes vl, which is capped (R122, R123). -/
def execVlWrite (h : HartId) (s : State) : Host.Outcome State Fault Refusal := wake s h (writesCsr .vl)
/-- VLCAP_WRITE (R123). -/
def execVlcapWrite (h : HartId) (s : State) : Host.Outcome State Fault Refusal := wake s h (writesCsr .vlcap)
/-- TEIX_WRITE (R113, R344). -/
def execTeixWrite (h : HartId) (s : State) : Host.Outcome State Fault Refusal := wake s h (writesCsr .teix)
/-- TVEC_WRITE (R343). -/
def execTvecWrite (h : HartId) (s : State) : Host.Outcome State Fault Refusal := wake s h (writesCsr .tvec)
/-- FFLAGS_WRITE (R76). -/
def execFflagsWrite (h : HartId) (s : State) : Host.Outcome State Fault Refusal := wake s h (writesCsr .fflags)
/-- PTBASE_WRITE (R283). -/
def execPtbaseWrite (h : HartId) (s : State) : Host.Outcome State Fault Refusal := wake s h (writesCsr .ptbase)

/-! ## Queue deadlock (R120) -/

/-- The code of what the A side waits for of the X side. -/
def aBlocked (h : Hart) : Option Nat :=
  match h.wait with
  | some (.queue c) => some c
  | some .window => some 0xFF
  | some .xsync => some 0xFF
  | some .exit => if h.win.isEmpty then none else some 0xFF
  | _ => none
/-- The code of what the X side waits for of the A side. -/
def xBlocked (s : State) (hid : HartId) : Option Nat :=
  match xHead s hid with
  | none => if (s.hart hid).win.isEmpty then some 0xFF else none
  | some (c, d) => xWaitsOn c d
/-- The hart's sides are blocked on each other, in user mode and not halted. -/
def bothBlocked (s : State) (hid : HartId) : Bool :=
  let h := s.hart hid
  h.phase == .running && (s.launch hid.l).phase == .running && !h.sup && (aBlocked h).isSome && (xBlocked s hid).isSome

/-- QUEUE_DEADLOCK: both sides have been blocked for 4,096 cycles. -/
def queueDeadlock (s : State) (hid : HartId) : State :=
  let h := s.hart hid
  if bothBlocked s hid && decide (4096 ≤ h.blocked) then
    let v := (aBlocked h).getD 0 + 256 * (xBlocked s hid).getD 0
    let s := s.setHart hid { h with claim := h.trapClaim }
    trapA s hid 12 (BitVec.ofNat 64 v) h.eix (asideBound h)
  else s
def execQueueDeadlock (h : HartId) (s : State) : Host.Outcome State Fault Refusal := .next (close s (queueDeadlock s h))

end Sys2Proof.Machine
end

