-- ==== Sys2Proof/Machine/Fabric.lean ====
section
/-! DEFINITION. Spoke, saddlebag links and the server: peer requests and answers, posted stores, links, RDMA (R303, R311 to
R317, R328, R330). -/

namespace Sys2Proof.Machine

open Sys2Proof

/-! ## Peer memory in this module (R311, R317, R372) -/

/-- The partition a domain binds. -/
def boundPart (s : State) : Nat := s.md.boundPart.getD 0

def peerAnswer (s : State) (r : PeerReq) (a : PeerAnswer) : State := { s with md := { s.md with sent := .peerReply r.src a :: s.md.sent } }

/-- Store bytes that arrive over Spoke; each counts (R317). -/
def peerStore (s : State) (pa : Nat) (ks : List Nat) (bs : List Byte) : State :=
  match homePut s (boundPart s) ks bs with
  | (s, true) => deviceFault s (boundPart s) 1
  | (s, false) => (List.range bs.length).foldl (fun s i => countPut s (pa + i)) s

def opBytes : PeerOp → Nat
  | .load n => n
  | .store bs => bs.length
  | .atom _ dbl _ _ => if dbl then 8 else 4

/-- A read at the home of keys, for a module of the domain: what it needs may hold an uncorrectable error (R372). -/
def peerRead (s : State) (ks : List Nat) : State × Option Nat :=
  let (s, bad) := needsBad s true ks
  if bad then (s, none) else (noteDeadKeys s (boundPart s) ks, some (ofBytes (ks.map s.peek)))

/-- PEER_REQUEST: accepted or rejected as one, then performed. A bad unit that it needs is a device fault of the bound partition (log
73). -/
def peerRequest (s : State) (r : PeerReq) : State :=
  let pa := r.pa.toNat
  let write := match r.op with
    | .load _ => false
    | .store _ | .atom _ _ _ _ => true
  if !s.md.members.contains r.src || s.md.linkOk == 0 then s
  else match peerKeys s pa (opBytes r.op) with
    | none => peerAnswer s r .reject
    | some ks =>
      if (keysLeased s none write ks).isSome then s
      else match r.op with
        | .load _ => match peerRead s ks with
          | (s, none) => deviceFault s (boundPart s) 1
          | (s, some v) => peerAnswer s r (.accept (BitVec.ofNat 64 v))
        | .store bs => peerAnswer (peerStore s pa ks bs) r (.accept 0)
        | .atom op dbl x n => match peerRead s ks with
          | (s, none) => deviceFault s (boundPart s) 1
          | (s, some old) => match homePut s (boundPart s) ks (toBytes (if dbl then 8 else 4) (atomNew op (if dbl then 8 else 4) old x.toNat n.toNat)) with
            | (s, true) => deviceFault s (boundPart s) 1
            | (s, false) => peerAnswer s r (.accept (BitVec.ofNat 64 old))
def execPeerRequest (r : PeerReq) (s : State) : Host.Outcome State Fault Refusal :=
  .next (close s (if s.md.power == .ready then peerRequest s r else s))

/-! ## Posted stores (R313, R314) -/

/-- A store to the same bytes that the same hart made earlier, or that happens before this one, is not yet acknowledged (R332, R336). -/
def postedBefore (s : State) (x : Posted) : Bool :=
  s.posted.any fun y => x.after.contains y.id && y.mod == x.mod && y.pa < x.pa + x.bytes.length && x.pa < y.pa + y.bytes.length
def dropPosted (s : State) (n : Nat) : State := { s with posted := s.posted.filter (·.id != n) }

/-- PEER_STORE_ACK: the destination has performed the store; where the destination is this module, it is performed now, and leaves
what the release fences before it cover (R335). -/
def peerStoreAck (s : State) (n : Nat) : State :=
  match s.posted.find? (·.id == n) with
  | none => s
  | some x =>
    if postedBefore s x then s
    else if x.mod.isSome && x.mod == s.md.modId then
      match peerKeys s x.pa x.bytes.length with
      | none => s
      | some ks =>
        if (keysLeased s (some x.h) true ks).isSome then s
        else dropPosted (announce (peerStore s x.pa ks (x.bytes.map (·.2))) x.h ks x.rels false) n
    else if x.mod.isSome && s.md.linkOk == 0 then s
    else dropPosted s n
def execPeerStoreAck (n : Nat) (s : State) : Host.Outcome State Fault Refusal :=
  .next (close s (if s.md.power == .ready then peerStoreAck s n else s))

/-- POSTED_STORE_REJECTED: a device fault of the sending partition. This module rejects only what R311 says. -/
def postedRejected (s : State) (n : Nat) : State :=
  match s.posted.find? (·.id == n) with
  | none => s
  | some x =>
    if x.mod.isSome && x.mod == s.md.modId && (peerKeys s x.pa x.bytes.length).isSome then s
    else deviceFault (dropPosted s n) (s.partOf x.h) 4
def execPostedStoreRejected (n : Nat) (s : State) : Host.Outcome State Fault Refusal :=
  .next (close s (if s.md.power == .ready then postedRejected s n else s))

/-- PEER_ACCEPTANCE: the answer to the access a hart waits for arrives; its A side goes on. -/
def execPeerAcceptance (h : HartId) (a : PeerAnswer) (s : State) : Host.Outcome State Fault Refusal :=
  match (s.hart h).wait with
  | some (.peer i) =>
    let t := s.updHart h fun x => { x with answers := (i, a) :: x.answers, wait := none }
    if s.md.power == .ready then wake t h fun _ _ => true else .next s
  | _ => .next s

/-! ## Links (R303, R315, R362) -/

/-- The place exists (R1, R363). -/
def siteReal : Site → Bool
  | .pool d => d < 4
  | .l2 d => d < 4
  | .stack n => n < 8
  | .saddlebag p => p < 8
  | .spokeLink n => n < 32
  | .saddlebagLink p => p < 8
/-- An error that is corrected, or a replay, is counted, with no other effect (R303, R362). -/
def corrected (s : State) (x : Site) : State := if s.md.power == .ready && siteReal x then countCorrected s x else s
/-- LINK_REPLAY: a replayed transfer, or an error corrected on the way. -/
def execLinkReplay (x : Site) (s : State) : Host.Outcome State Fault Refusal := .next (close s (corrected s x))

/-- A partition has a peer access, a counted put or a collective in flight. -/
def usesSpoke (s : State) (p : Nat) : Bool :=
  !(s.part p).clreds.isEmpty || s.posted.any (fun x => x.mod.isSome && s.partOf x.h == p)
  || s.harts.any fun x => s.partOf x.1 == p && match x.2.wait with
    | some (.peer _) => true
    | some (.scStore _) => true
    | _ => false
/-- SPOKE_LINK_FAILURE: the link leaves service; `users` are the partitions with transfers in flight over it. -/
def spokeLinkFailure (s : State) (link : Nat) (users : List Nat) : State :=
  let s := { s with md := { s.md with linkOk := s.md.linkOk &&& ~~~BitVec.ofNat 32 (2 ^ link) } }
  users.dedup.foldl (fun s p => if usesSpoke s p then deviceFault s p 2 else s) s
def execSpokeLinkFailure (link : Nat) (users : List Nat) (s : State) : Host.Outcome State Fault Refusal :=
  .next (close s (if s.md.power == .ready then spokeLinkFailure s link users else s))

/-- SADDLEBAG_LINK_FAILURE: the port is out of reach, and the partition that owns it takes a device fault. -/
def saddlebagLinkFailure (s : State) (port : Nat) : State :=
  let s := { s with md := { s.md with portOk := s.md.portOk &&& ~~~BitVec.ofNat 8 (2 ^ port) } }
  (s.parts.filter fun x => x.2.dies.getLsbD (port / 2)).foldl (fun s x => deviceFault s x.1 3) s
def execSaddlebagLinkFailure (port : Nat) (s : State) : Host.Outcome State Fault Refusal :=
  .next (close s (if s.md.power == .ready then saddlebagLinkFailure s port else s))

/-! ## The server (R328, R330, R359) -/

/-- The range lies in a region that HOSTWIN registered for the partition. -/
def registered (s : State) (p va n : Nat) : Bool :=
  s.md.regions.any fun r => r.part == p && r.base ≤ va && va + n ≤ r.base + r.len
/-- The Ethernet port that a frame of the server comes in by works (R328, R355). -/
def ethUp (s : State) (eth : BitVec 1) : Bool := s.md.power == .ready && s.md.ethOk.getLsbD eth.toNat

/-- Write bytes through a partition's translation, at the home of each, and go on; nothing is written where a page is out of reach, and
nothing happens yet where a leased line holds the write up (R238, log 36). -/
def serverPut (s : State) (p va : Nat) (bs : List Byte) (next : State → State) : State :=
  match schedPages s p (· < 2) va bs.length with
  | (s, .error .unreachable) => next s
  | (s, .error .uncorrectable) => next (deviceFault s p 1)
  | (s, .ok pgs) =>
    if (keysLeased s none true (keysOf s p pgs va bs.length)).isSome then s
    else match homePut s p (keysOf s p pgs va bs.length) bs with
      | (s, true) => next (deviceFault s p 1)
      | (s, false) => next s

/-- An RDMA WRITE of the server into a region registered for a partition. One that reaches the notify window, of 65,536 words, must
cover whole aligned words of it, which are then notifies in order; any other is discarded and counted (R328). -/
def serverWrite (s : State) (p va : Nat) (bs : List Byte) : State :=
  let w := (s.part p).notify.toNat
  let lo := max va w
  let hi := min (va + bs.length) (524288 + w)
  if !(s.parts.any (·.1 == p)) || !registered s p va bs.length then s
  else if hi ≤ lo then serverPut s p va bs id
  else if (lo - w) % 8 ≠ 0 ∨ (hi - w) % 8 ≠ 0 then { s with md := { s.md with discardedNotifies := s.md.discardedNotifies + 1 } }
  else serverPut s p va bs fun s => (List.range ((hi - lo) / 8)).foldl (fun s i => notified s p ((lo - w) / 8 + i)) s

/-- SERVER_RDMA_WRITE. -/
def execServerRdmaWrite (p : Inlet) (va : BitVec 64) (bytes : List Byte) (s : State) : Host.Outcome State Fault Refusal :=
  .next (close s (if ethUp s p.eth then serverWrite s p.part va.toNat bytes else s))

/-- NOTIFY_WRITE: a write at an offset of the partition's notify window. -/
def execNotifyWrite (p : Inlet) (off : Nat) (bytes : List Byte) (s : State) : Host.Outcome State Fault Refusal :=
  .next (close s (if ethUp s p.eth then serverWrite s p.part ((s.part p.part).notify.toNat + off) bytes else s))

/-- UNSUPPORTED_RDMA_REQUEST: answered with an invalid-request error. -/
def execUnsupportedRdmaRequest (s : State) (eth : BitVec 1 := 0) : Host.Outcome State Fault Refusal :=
  .next (close s (if ethUp s eth then { s with md := { s.md with sent := .invalidRequest :: s.md.sent } } else s))

end Sys2Proof.Machine
end

