-- ==== Sys2Proof/Machine/Context.lean ====
section
/-! DEFINITION. The save area of a launch (R352): its layout, how it is written at a save and read back at a resumption
(R353). Where R352 gives a field a size and no format, the format is the model's (log 30). -/

namespace Sys2Proof.Machine

open Sys2Proof

/-! ## Layout (R352) -/

def roundUp (n k : Nat) : Nat := (n + k - 1) / k * k
/-- S, L, Bh and Bc of a core of a launch. -/
def Core.scratchBytes (c : Core) : Nat := c.bnd2.toNat - c.bnd1.toNat
def hartBlock (la : Launch) : Nat := 65536 + 56 * la.vlen
def coreBlock (la : Launch) (c : Core) : Nat := roundUp (69632 + c.scratchBytes + 16 * c.slotBytes + la.nh * hartBlock la) 4096
/-- Bc of a launch: the largest of its cores' (log 30: SETBND may leave them with different boundaries). -/
def blockSize (s : State) (l : Nat) : Nat :=
  ((List.range ((s.launch l).w * (s.launch l).h)).map fun k => coreBlock (s.launch l) (s.core l k)).foldl max 0

/-- One item of the area: its offset and length, its bytes, how bytes read back become state, the bytes of a pool that a save of it
reads, and whether the area holds it from the last restore, so that a save does not write it again. -/
structure Item where
  off : Nat
  len : Nat
  get : State → List Byte
  set : Nat → State → State
  pool : List Nat := []
  kept : Bool := false

/-- Bytes of a core's pool. -/
def poolItem (l k off a n : Nat) : Item :=
  let ks := (List.range n).map fun i => poolKey l k (a + i)
  { off := off, len := n, get := fun s => ks.map s.peek, set := fun v s => s.pokes (poolKey l k a) (toBytes n v), pool := ks }

/-- A number of n bytes of a core. -/
def coreItem (l k off n : Nat) (get : Core → Nat) (set : Nat → Core → Core) : Item :=
  { off := off, len := n, get := fun s => toBytes n (get (s.core l k)), set := fun v s => s.updCore l k (set v) }
/-- A number of n bytes of a hart. -/
def hartItem (id : HartId) (off n : Nat) (get : Hart → Nat) (set : Nat → Hart → Hart) : Item :=
  { off := off, len := n, get := fun s => toBytes n (get (s.hart id)), set := fun v s => s.updHart id (set v) }

/-- Fields of a block, each a number at an offset of bytes, put together as one number. -/
def packAt : List (Nat × Nat) → Nat
  | [] => 0
  | (o, v) :: t => v * 256 ^ o + packAt t

/-! ## The launch (R286) -/

/-- Bytes 0 to 63: W, H, nh, VLEN, the boundaries of core 0 (log 30), Bc, Bh, and 1 for a save. -/
def headerItem (s : State) (l : Nat) : Item :=
  let la := s.launch l
  let c := s.core l 0
  let v := packAt [(0, la.w), (4, la.h), (8, la.nh), (12, la.vlen), (16, c.bnd0.toNat), (20, c.bnd1.toNat), (24, c.bnd2.toNat),
    (32, blockSize s l), (40, hartBlock la), (48, 1)]
  { off := 0, len := 64, get := fun _ => toBytes 64 v, set := fun _ s => s }
/-- Handle i: its base, then its length in bits 40:0, its priority in bits 43:41, and bit 63 where it is open. -/
def handleItem (l i : Nat) : Item :=
  let n := BitVec.ofNat 8 i
  { off := 64 + 16 * i, len := 16,
    get := fun s => toBytes 16 (match (s.launch l).handles.find? (·.1 == n) with
      | some x => x.2.base + 2 ^ 64 * x.2.len + 2 ^ 105 * x.2.prio.toNat + 2 ^ 127
      | none => 0),
    set := fun v s =>
      let la := s.launch l
      let t := la.handles.filter (·.1 != n)
      s.setLaunch l { la with handles := if getBits v 127 1 = 1 then
        t ++ [(n, ⟨getBits v 0 64, getBits v 64 41, BitVec.ofNat 3 (getBits v 105 3)⟩)] else t } }

/-! ## A core (R96, R207, R216) -/

/-- The bytes of a bank slot that a save holds (R207). -/
def Bank.saved (b : Bank) (slot : Nat) : Nat :=
  match b.st with
  | .invalid => if b.lnd then slot else 0
  | .clean => 0
  | .dirty => b.used
/-- A bank with the descriptor and the source address that a save holds (R196). -/
def Bank.restored (b : Bank) (v : Nat) : Bank :=
  { b with fmt := BitVec.ofNat 8 v, cnt := getBits v 8 9, lgg := BitVec.ofNat 2 (getBits v 17 2),
           st := if getBits v 19 2 = 0 then .invalid else if getBits v 19 2 = 1 then .clean else .dirty,
           lnd := getBits v 21 1 == 1, src := BitVec.ofNat 64 (getBits v 64 64) }

/-! ## A hart -/

/-- The CSRs from 0x000 to 0x120 that hold state of a hart or of its core, in the order of their numbers: vlmax, leases, the place
and the lanes follow from the record, the halt and the placement, and ccount is not saved (R123, R239, log 30). -/
def savedCsrs : List Csr :=
  [.vl, .vlh, .vlcap, .shp, .ffe, .vsat, .fflags, .srseed, .tagmap, .tagown, .cbown, .tilown, .icount, .bnd0, .bnd1, .bnd2,
   .tvec, .tcause, .tside, .tpc, .teix, .tval, .tstat, .tscratch, .txw, .ptbase, .savearea]
/-- A hart with the value that a save holds of a CSR, as far as the CSR can hold it (R10, R123); `n` is VLEN. -/
def Hart.csrBack (h : Hart) (n : Nat) (v : Dbl) : Csr → Hart
  | .vl => { h with vl := BitVec.ofNat 64 (min v.toNat n) }
  | .vlh => { h with vlh := BitVec.ofNat 64 (min v.toNat n) }
  | .vlcap => { h with vlcap := capWarl v }
  | .shp => { h with shp := shpWarl v }
  | .ffe => { h with ffe := ffeWarl v }
  | .vsat => { h with vsat := v.getLsbD 0 }
  | .fflags => { h with fflags := v.setWidth 5 }
  | .srseed => { h with srseed := v }
  | .tagown => { h with tagown := v }
  | .cbown => { h with cbown := v.setWidth 16 }
  | .tilown => { h with tilown := v.setWidth 4 }
  | .icount => { h with icount := v }
  | .tvec => { h with tvec := slotWarl v }
  | .tcause => { h with tcause := v.setWidth 8 }
  | .tside => { h with tside := v.getLsbD 0 }
  | .tpc => { h with tpc := slotWarl v }
  | .teix => { h with teix := v.setWidth 14 }
  | .tval => { h with tval := v }
  | .tstat => { h with aeix := v.extractLsb' 16 14, tpm := v.getLsbD 0 }
  | .tscratch => { h with tscratch := v }
  | .txw => { h with txw := v.setWidth 6 }
  | .ptbase => { h with ptbase := ptbaseWarl v }
  | .savearea => { h with savearea := v }
  | .vlmax | .tagmap | .leases | .cx | .cy | .cw | .ch | .hid | .nh | .lanes | .ccount | .bnd0 | .bnd1 | .bnd2 => h
/-- Its core with that value. -/
def Core.csrBack (c : Core) (own v : Dbl) : Csr → Core
  | .tagmap => { c with tagDone := (c.tagDone &&& ~~~own) ||| (v &&& own) }
  | .bnd0 => { c with bnd0 := v.setWidth 21 }
  | .bnd1 => { c with bnd1 := v.setWidth 21 }
  | .bnd2 => { c with bnd2 := v.setWidth 21 }
  | _ => c
def csrItem (id : HartId) (off : Nat) (c : Csr) : Item :=
  { off := off, len := 8, get := fun s => toBytes 8 (csrRead { s with cur := id } (s.hart id) c).toNat,
    set := fun v s =>
      let own := (s.hart id).tagown
      (s.updHart id fun h => h.csrBack (s.vlen id) (BitVec.ofNat 64 v) c).updCore id.l id.k fun k => k.csrBack own (BitVec.ofNat 64 v) c }

/-- p0 to p7, the mode, and the position (R110): 8 bytes each. -/
def posItem (id : HartId) (off : Nat) : Item :=
  hartItem id off 64 (fun h => packAt [(0, h.p.toNat), (8, if h.sup then 1 else 0), (16, h.pc), (24, h.eix)])
    fun v h => { h with p := BitVec.ofNat 8 v, sup := getBits v 64 1 == 1, pc := slotBelow (getBits v 128 55), eix := getBits v 192 64 }

/-- The extents of a launch's GONGs (R99), by width and then by height. -/
def gongExtents (la : Launch) : List (Nat × Nat) :=
  ((List.range (la.w + 1)).filter fun w => 0 < w && la.w % w == 0).flatMap fun w =>
    ((List.range (la.h + 1)).filter fun h => 0 < h && la.h % h == 0).map fun h => (w, h)
/-- The counts of the extents, 8 bytes each, and from byte 472 on the arrival that waits: slot address, extent, episode, and 1. -/
def gongItem (la : Launch) (id : HartId) (off : Nat) : Item :=
  let ext := gongExtents la
  hartItem id off 512
    (fun h => packAt (((List.range ext.length).zip ext).map (fun x => (8 * x.1, tget 0 h.gongs x.2)) ++ match h.arrived with
      | some a => [(472, a.1), (480, a.2.1.1), (488, a.2.1.2), (496, a.2.2), (504, 1)]
      | none => []))
    fun v h =>
      { h with
        gongs := ((List.range ext.length).zip ext).foldl (fun g x =>
          let n := getBits v (64 * x.1) 64
          if n = tget 0 g x.2 then g else tput g x.2 n) h.gongs,
        arrived := if getBits v 4032 1 = 1 then
          some (getBits v 3776 64, (getBits v 3840 64, getBits v 3904 64), getBits v 3968 64) else none }

/-- A list of n entries: the first ones, then whole empty ones. -/
def fitLen {α : Type} (d : α) (n : Nat) (l : List α) : List α := l.take n ++ List.replicate (n - l.length) d
/-- The slot of a queue's head: its entries end before the slot that the next one takes. -/
def headSlot (tail : BitVec 2) (l : List QEntry) : Nat := (tail - BitVec.ofNat 2 l.length).toNat
/-- A queue with the head and count that a save holds. -/
def queueBack (v off : Nat) (l : List QEntry) : List QEntry × BitVec 2 :=
  let head := getBits v (8 * off) 32
  let n := min 4 (getBits v (8 * off + 32) 32)
  let e : QEntry := { issued := true, done := true }
  ((fitLen e n l).mapIdx fun i x => { x with slot := BitVec.ofNat 2 (head + i) }, BitVec.ofNat 2 (head + n))
/-- The 16 entries of xq, then head and count, 4 bytes each, of lq0 to lq3, sq0, sq1 and xq. -/
def queueItem (id : HartId) (off : Nat) : Item :=
  let pos (i head n : Nat) : List (Nat × Nat) := [(128 + 8 * i, head), (132 + 8 * i, n)]
  hartItem id off 192
    (fun h => packAt (((List.range h.xq.length).zip h.xq).map (fun x => (8 * x.1, x.2.toNat))
      ++ (List.range 4).flatMap (fun q => let l := h.lq.toList.getD q []; pos q (headSlot (h.lqTail.toList.getD q 0) l) l.length)
      ++ (List.range 2).flatMap (fun q => let l := h.sq.toList.getD q []; pos (4 + q) (headSlot (h.sqTail.toList.getD q 0) l) l.length)
      ++ pos 6 0 h.xq.length))
    fun v h =>
      let lq := h.lq.mapIdx fun q l => queueBack v (128 + 8 * q) l
      let sq := h.sq.mapIdx fun q l => queueBack v (160 + 8 * q) l
      { h with
        xq := (List.range (min 16 (getBits v 1440 32))).map fun i => BitVec.ofNat 64 (getBits v (64 * i) 64),
        lq := lq.map (·.1), lqTail := lq.map (·.2), sq := sq.map (·.1), sqTail := sq.map (·.2) }

/-- An entry of the window in 128 bytes: word, extension, captured scalars, vl, shp, ffe, srseedI, icountI, progress. -/
def XEntry.saved (e : XEntry) : Nat :=
  let w := (encode e.i).getD (none, 0)
  packAt [(0, w.2.toNat), (16, (w.1.getD 0).toNat), (32, e.sa.toNat), (40, e.fw.toNat), (48, e.vl), (56, e.shp.toNat), (64, e.ffe),
    (72, e.seed.toNat), (80, e.icount.toNat), (88, e.prog)]
/-- The entry that 128 bytes hold, with what the area does not hold of it as it was; none where they hold no X-side instruction. -/
def XEntry.back (v : Nat) (old : Option XEntry) : Option XEntry :=
  let ext := getBits v 128 96
  match decode true (if ext = 0 then none else some (BitVec.ofNat 96 ext)) (BitVec.ofNat 96 (getBits v 0 96)) with
  | .error _ => none
  | .ok i =>
    let d (o : Nat) : Dbl := BitVec.ofNat 64 (getBits v (8 * o) 64)
    let e : XEntry := old.getD { i := i, sa := 0, fw := 0, vl := 0, shp := 0, ffe := 0, seed := 0, icount := 0, seq := 0 }
    some { e with i := i, sa := d 32, fw := d 40, vl := (d 48).toNat, shp := d 56, ffe := (d 64).toNat, seed := d 72, icount := d 80,
                  prog := (d 88).toNat }
/-- The entries from the i-th on, up to the first place that holds none. -/
def windowBack (v : Nat) : Nat → Nat → List XEntry → List XEntry
  | 0, _, _ => []
  | n + 1, i, old => match XEntry.back (getBits v (1024 * i) 1024) old.head? with
    | some e => e :: windowBack v n (i + 1) old.tail
    | none => []
def windowItem (id : HartId) (off : Nat) : Item :=
  hartItem id off 4096 (fun h => packAt (((List.range h.win.length).zip h.win).map fun x => (128 * x.1, x.2.saved)))
    fun v h => { h with win := windowBack v 32 0 h.win }

/-- The entry in a slot of the register region, from slot 32 on (R184). -/
def Hart.slotEntry (h : Hart) (slot : Nat) : Option QEntry :=
  if slot < 48 then (h.lq.toList.getD ((slot - 32) / 4) []).find? (·.slot.toNat == slot % 4)
  else (h.sq.toList.getD ((slot - 48) / 4) []).find? (·.slot.toNat == slot % 4)
/-- Change the entry in a slot. -/
def Hart.updSlot (h : Hart) (slot : Nat) (f : QEntry → QEntry) : Hart :=
  let g (l : List QEntry) : List QEntry := l.map fun e => if e.slot.toNat == slot % 4 then f e else e
  if slot < 48 then { h with lq := h.lq.mapIdx fun q l => if q = (slot - 32) / 4 then g l else l }
  else { h with sq := h.sq.mapIdx fun q l => if q = (slot - 48) / 4 then g l else l }

/-- Bytes [lo, hi) of vector register i, which lie in its slot of the register region (R184). -/
def regItem (s : State) (id : HartId) (off i lo hi : Nat) (kept : Bool) : Item :=
  { hartItem id (off + i * s.vlen id + lo) (hi - lo) (fun h => vget (h.vr (BitVec.ofNat 5 i)) (8 * lo) (8 * (hi - lo)))
      fun v h => { h with v := h.v.setIfInBounds i (vset (h.v.toList.getD i 0) (8 * lo) (8 * (hi - lo)) v) } with
    pool := slotKeys s id i lo hi, kept := kept }
/-- A register: what has not been written since the last restore is not written again, and its bytes above those that the area
then held are zero. -/
def regItems (s : State) (id : HartId) (off i : Nat) : List Item :=
  let h := s.hart id
  if h.vnew.getLsbD i then [regItem s id off i 0 h.vlh.toNat false]
  else [regItem s id off i 0 (min h.vkept h.vlh.toNat) true, regItem s id off i h.vkept h.vlh.toNat false]
/-- The entry in a slot: whole, and its map of written elements. -/
def slotItems (s : State) (id : HartId) (map off slot : Nat) : List Item :=
  match (s.hart id).slotEntry slot with
  | none => []
  | some e =>
    let n := s.vlen id
    let entry (h : Hart) : QEntry := (h.slotEntry slot).getD {}
    [{ hartItem id (off + slot * n) n (fun h => (entry h).data.toNat % 2 ^ (8 * n))
         fun v h => h.updSlot slot fun e => { e with data := BitVec.ofNat 65536 v } with
       pool := ((List.range n).filter e.written.getLsbD).flatMap fun j => slotKeys s id slot j (j + 1) },
     hartItem id (map + 1024 * (slot - 32)) 1024 (fun h => (entry h).written.toNat)
       fun v h => h.updSlot slot fun e => { e with written := BitVec.ofNat 8192 v }]

/-- The items of one hart, whose block begins at `off`. -/
def hartItems (s : State) (id : HartId) (off : Nat) : List Item :=
  (List.range 64).map (fun i => hartItem id (off + 8 * i) 8 (fun h => (h.s (BitVec.ofNat 6 i)).toNat)
      fun v h => h.setS (BitVec.ofNat 6 i) (BitVec.ofNat 64 v))
    ++ ((List.range savedCsrs.length).zip savedCsrs).map (fun x => csrItem id (512 + off + 8 * x.1) x.2)
    ++ [posItem id (1536 + off), gongItem (s.launch id.l) id (1600 + off), queueItem id (2112 + off), windowItem id (4096 + off)]
    ++ (List.range 24).map (fun i => hartItem id (8192 + off + 1024 * i) 1024 (fun h => (h.mr (BitVec.ofNat 5 i)).toNat)
      fun v h => h.setMr (BitVec.ofNat 5 i) (BitVec.ofNat 8192 v))
    ++ (List.range 32).flatMap (regItems s id (65536 + off))
    ++ (List.range 24).flatMap fun i => slotItems s id (32768 + off) (65536 + off) (32 + i)

/-- The items of one core block. -/
def coreItems (s : State) (l k off : Nat) : List Item :=
  let la := s.launch l
  let c := s.core l k
  let slots := 69632 + off + c.scratchBytes
  (List.range 4).map (fun i => coreItem l k (off + 8 * i) 8 (fun c => (c.pace.toList.getD i 0).toNat)
      fun v c => { c with pace := c.pace.setIfInBounds i (BitVec.ofNat 64 v) })
    ++ (List.range 16).map (fun i =>
      let b := BitVec.ofNat 4 i
      coreItem l k (64 + off + 16 * i) 16 (fun c => (c.bank b).word.toNat + 2 ^ 64 * (c.bank b).src.toNat)
        fun v c => c.setBank b ((c.bank b).restored v))
    ++ [coreItem l k (320 + off) 4 (fun c => c.tileWritten.toNat) fun v c => { c with tileWritten := BitVec.ofNat 4 v }]
    ++ ((List.range 4).filter c.tileWritten.getLsbD).map (fun i => coreItem l k (4096 + off + 16384 * i) 16384
      (fun c => (c.tiles.toList.getD i 0).toNat) fun v c => { c with tiles := c.tiles.setIfInBounds i (BitVec.ofNat _ v) })
    ++ [poolItem l k (69632 + off) c.bnd1.toNat c.scratchBytes]
    ++ (List.range 16).map (fun i =>
      let b := BitVec.ofNat 4 i
      poolItem l k (slots + i * c.slotBytes) (c.bankBase b) ((c.bank b).saved c.slotBytes))
    ++ (List.range la.nh).flatMap fun i => hartItems s ⟨l, k, i⟩ (slots + 16 * c.slotBytes + i * hartBlock la)

/-- The items of a launch. -/
def launchItems (s : State) (l : Nat) : List Item :=
  headerItem s l :: (List.range 256).map (handleItem l) ++ (List.range ((s.launch l).w * (s.launch l).h)).flatMap fun k =>
    coreItems s l k (8192 + k * blockSize s l)

/-! ## Reaching the area -/

/-- The area's address, and the root of the tables that reach it: the save area and the root of hart 0 of core 0, as they stand when the
save or the restore begins (log 30). -/
def saveBase (s : State) (l : Nat) : Nat × Dbl := ((s.hart ⟨l, 0, 0⟩).savearea.toNat, (s.hart ⟨l, 0, 0⟩).root)
/-- The keys of bytes [off, off + n) of the area, where this module's memory holds them. -/
def saveKeys (s : State) (l : Nat) (area : Nat × Dbl) (off n : Nat) : State × Except SFail (List Nat) :=
  let p := (s.launch l).part
  let a := area.1 + off
  match rootPages s p area.2 (· < 2) a n with
  | (s, .error f) => (s, .error f)
  | (s, .ok pgs) => (s, .ok (keysOf s p pgs a n))

/-- Write one item; the second result says that it met an uncorrectable unit (R354, R372). What no memory of this module holds is not
written (log 30). -/
def saveItem (l : Nat) (area : Nat × Dbl) (s : State) (x : Item) : State × Bool :=
  if x.kept then (s, false)
  else if badUnit s x.pool then (s, true)
  else match saveKeys s l area x.off x.len with
    | (s, .error f) => (s, f == .uncorrectable)
    | (s, .ok ks) => homePut s (s.launch l).part ks (x.get s)
/-- n free bytes, as a number. -/
def freeBytes : Nat → State → State × Nat
  | 0, s => (s, 0)
  | n + 1, s =>
    let (s, b) := s.draw
    let (s, r) := freeBytes n s
    (s, b.toNat + 256 * r)
/-- Read one item back; the second result says that it met an uncorrectable unit. What no memory of this module holds comes back as
free bytes (log 30). -/
def loadItem (l : Nat) (area : Nat × Dbl) (s : State) (x : Item) : State × Bool :=
  match saveKeys s l area x.off x.len with
  | (s, .error .uncorrectable) => (s, true)
  | (s, .error .unreachable) => let (s, v) := freeBytes x.len s; (x.set v s, false)
  | (s, .ok ks) =>
    let (s, bad) := needsBad (noteDeadKeys s (s.launch l).part ks) true ks
    if bad then (s, true) else (x.set (ofBytes (ks.map s.peek)) s, false)

/-- Run over items until one meets an uncorrectable unit. -/
def overItems (f : State → Item → State × Bool) : List Item → State → State × Bool
  | [], s => (s, false)
  | x :: t, s =>
    match f s x with
    | (s, true) => (s, true)
    | (s, false) => overItems f t s

/-- Write the area. -/
def saveContext (s : State) (l : Nat) : State × Bool := overItems (saveItem l (saveBase s l)) (launchItems s l) s
def loadContext (s : State) (l : Nat) : State × Bool := overItems (loadItem l (saveBase s l)) (launchItems s l) s

/-! ## What a resumption makes of the rest (R122, R207, R216, R353) -/

/-- A core at a resumption: a Clean bank is to be read again, and the bytes that no save holds are zero; those of a Clean bank stay
until then to be compared with what is read (R207). -/
def resumeCore (s : State) (l k : Nat) : State :=
  let c := s.core l k
  let s := (List.range 16).foldl (fun s i =>
    let b := c.bank (BitVec.ofNat 4 i)
    let base := c.bankBase (BitVec.ofNat 4 i)
    s.wipe (poolKey l k (base + if b.st == .clean then b.used else b.saved c.slotBytes)) (poolKey l k (base + c.slotBytes))) s
  s.updCore l k fun c =>
    { c with banks := c.banks.map fun b => if b.st == .clean then { b with reload := true } else b,
             tiles := (c.tiles.mapIdx fun i t => if c.tileWritten.getLsbD i then t else 0) }
/-- A vector register's bytes at or above vlh are zero (R122); the area holds those below. -/
def resumeRegs (h : Hart) : Hart :=
  { h with v := h.v.map fun v => BitVec.ofNat _ (v.toNat % 2 ^ (8 * h.vlh.toNat)), vnew := 0, vkept := h.vlh.toNat }

end Sys2Proof.Machine
end

