-- ==== Sys2Proof/Machine/Placement.lean ====
section
/-! DEFINITION. Records, placement, slices, pre-emption, resumption, completion and the watchdog (R83 to R97, R111, R116,
R351 to R354, R364). -/

namespace Sys2Proof.Machine

open Sys2Proof

/-! ## Taking a record (R91, R92, R374, R375) -/

/-- PW and PH (R83). -/
def partWidth (dies : BitVec 4) : Nat := if dies = 3 ∨ dies = 12 ∨ dies = 15 then 32 else 16
def partHeight (dies : BitVec 4) : Nat := if dies = 5 ∨ dies = 10 ∨ dies = 15 then 20 else 10

/-- done advances over a record that will not be placed. -/
def recordDone (s : State) (p q n : Nat) : State :=
  match finishRecord s p q n with
  | (s, none) => match refreshTokens s p with
    | (s, none) => s
    | (s, some d) => deviceFault s p d
  | (s, some d) => deviceFault s p d
/-- Complete a record that is never placed. -/
def rejectRecord (s : State) (p q n : Nat) (r : Record) (status detail : Nat) : State :=
  match writeCompletion s p r.compl.toNat r.seq.toNat status detail 0 0 with
  | (s, none) => recordDone s p q n
  | (s, some d) => deviceFault (recordDone s p q n) p d

/-- R361: the measurement of an image's header and text. -/
def measure (s : State) (p a : Nat) (m : Image) : State × Except Bool (BitVec 512) :=
  match imgNum s p a 96 with
  | (s, .error e) => (s, .error e)
  | (s, .ok v) => match imgNum s p (a + m.textoff) m.textsize with
    | (s, .ok t) => (s, .ok (Config.sha512 (toBytes 96 v ++ toBytes m.textsize t)))
    | (s, .error e) => (s, .error e)
/-- The image of a record as the loader prepares it, and its measurement. -/
def prepared (s : State) (p : Nat) (r : Record) : State × Except Bool (Image × Nat × BitVec 512) :=
  match prepare s p r with
  | (s, .error e) => (s, .error e)
  | (s, .ok (m, entry)) => match measure s p r.image.toNat m with
    | (s, .error e) => (s, .error e)
    | (s, .ok d) => (s, .ok (m, entry, d))

/-- A record that the checks of R91 pass waits at the placement point of its queue; or the detail of a device fault. -/
def acceptRecord (s : State) (p q n : Nat) (r : Record) (m : Image) (entry : Nat) (meas : BitVec 512) : State × Option Nat :=
  let vlen := 2 ^ r.vlen.toNat
  match tokensMet s p r with
  | (s, .error d) => (s, some d)
  | (s, .ok met) =>
    let t : Taken :=
      { n := n, meas := meas, rec_ := r, entry := entry, frame := roundUp (m.framea * vlen + m.frameb + m.spilln * vlen) 64,
        scratch := m.scratch, cbslot := m.cbslot, candidate := met, waited := 0 }
    (s.setQ p q { s.userQ p q with taken := some t }, none)

/-- The checks of R91, in order. `v` is the record as a number; `old` is the state before the take: a device fault while the record is
checked leaves it not taken (R354, log 28). -/
def checkRecord (old s : State) (p q n v : Nat) : State :=
  let r := parseRecord v
  match order1 s p q n v r with
  | (_, .error d) => deviceFault old p d
  | (s, .ok (some o)) => rejectRecord s p q n r 3 o
  | (s, .ok none) =>
    match prepared s p r with
    | (_, .error true) => deviceFault old p 1
    | (s, .error false) => rejectRecord s p q n r 2 0
    | (s, .ok (m, entry, meas)) =>
      if partWidth (s.part p).dies < r.width.toNat ∨ partHeight (s.part p).dies < r.height.toNat then rejectRecord s p q n r 1 0
      else match order4 r m.scratch m.cbslot with
        | some o => rejectRecord s p q n r 3 o
        | none => match acceptRecord s p q n r m entry meas with
          | (s, none) => s
          | (_, some d) => deviceFault old p d

/-- RECORD_TAKE: the queue of a slot has a ready record and no placement point. -/
def recordTake (s : State) (p slot : Nat) : State :=
  match slotQueue s p slot with
  | none => s
  | some q =>
    let u := s.userQ p q
    if u.phase != .mapped || u.taken.isSome then s
    else
      match readTable s p q with
      | (s, .error d) => deviceFault s p d
      | (s, .ok t) =>
        match readNotify s p q with
        | (s, .error d) => deviceFault s p d
        | (s, .ok n) =>
          if readyCount t u.head n = 0 then s
          else
            let i := u.head
            let old := s
            let s := s.setQ p q { u with head := i + 1, activeAt := s.cycle }
            match schedWrite s p (tableAddr s p q + 16) 8 (i + 1) with
            | (_, .error f) => deviceFault old p f.detail
            | (s, .ok ()) =>
              match schedRead s p (t.base + 128 * (i % 2 ^ t.lgsize)) 128 with
              | (_, .error .uncorrectable) => deviceFault old p 1
              | (s, .error .unreachable) => recordDone (countUnwritten s p) p q i
              | (s, .ok v) => checkRecord old s p q i v
def execRecordTake (p slot : Nat) (s : State) : Host.Outcome State Fault Refusal :=
  .next (close s (if schedUp s p then recordTake s p slot else s))

/-! ## Candidates (R92, R93) -/

/-- A candidate: a taken record of a queue, or a saved launch. -/
inductive Cand where
  | fresh (q : Nat)
  | saved (l : Nat)
  deriving DecidableEq, Repr

/-- Its priority, waiting count, slot and extent. -/
structure CandInfo where
  c : Cand
  prio : Nat
  waited : Nat
  slot : Nat
  w : Nat
  h : Nat
  deriving DecidableEq, Repr

def CandInfo.eff (x : CandInfo) : Nat := min 7 (x.prio + x.waited / 4)

def candidates (s : State) (p : Nat) : List CandInfo :=
  ((s.launches.filter fun x => x.2.part == p && x.2.phase == .saved).map fun (l, x) =>
      { c := .saved l, prio := x.rec_.prio.toNat, waited := x.waited, slot := x.slot, w := x.w, h := x.h : CandInfo })
    ++ (s.part p).queues.filterMap fun (q, u) =>
      match u.taken with
      | some t => if t.candidate then
          some { c := .fresh q, prio := t.rec_.prio.toNat, waited := t.waited, slot := u.slot, w := t.rec_.width.toNat, h := t.rec_.height.toNat }
        else none
      | none => none

/-- The order of R92. -/
def CandInfo.before (x y : CandInfo) : Bool :=
  y.eff < x.eff || (y.eff == x.eff && (y.waited < x.waited || (y.waited == x.waited && x.slot ≤ y.slot)))
/-- Insert in order, behind those that come before. -/
def insertCand (x : CandInfo) : List CandInfo → List CandInfo
  | [] => [x]
  | y :: t => if y.before x then y :: insertCand x t else x :: y :: t
def sortCands (l : List CandInfo) : List CandInfo := l.foldl (fun acc x => insertCand x acc) []

/-- The rectangles of cores that launches of the partition occupy: running, or halted until they are saved. -/
def occupied (s : State) (p : Nat) : List (Nat × Nat × Nat × Nat) :=
  (s.launches.filter fun x => x.2.part == p && x.2.phase != .saved).map fun (_, x) => (x.ox, x.oy, x.w, x.h)
def rectsMeet (a b : Nat × Nat × Nat × Nat) : Bool :=
  a.1 < b.1 + b.2.2.1 && b.1 < a.1 + a.2.2.1 && a.2.1 < b.2.1 + b.2.2.2 && b.2.1 < a.2.1 + a.2.2.2
/-- R93: the first origin. -/
def originFor (s : State) (p w h : Nat) : Option (Nat × Nat) :=
  let pw := partWidth (s.part p).dies
  let ph := partHeight (s.part p).dies
  ((List.range ph).flatMap fun y => (List.range pw).map fun x => (x, y)).find? fun o =>
    w != 0 && h != 0 && o.1 % w == 0 && o.2 % h == 0 && decide (o.1 + w ≤ pw) && decide (o.2 + h ≤ ph)
    && !(occupied s p).any (rectsMeet (o.1, o.2, w, h))

/-- The first candidate of the order that can be placed, and its origin; none behind one of effective priority 7. -/
def firstPlaced (s : State) (p : Nat) : List CandInfo → Option (CandInfo × Nat × Nat)
  | [] => none
  | x :: t => match originFor s p x.w x.h with
    | some o => some (x, o)
    | none => if x.eff = 7 then none else firstPlaced s p t
def choice (s : State) (p : Nat) : Option (CandInfo × Nat × Nat) := firstPlaced s p (sortCands (candidates s p))

/-! ## Placement (R94, R116, R361) -/

/-- The highest hid whose share is largest, among (hid, request, share). -/
def topShare (l : List (Nat × Nat × Nat)) : Nat :=
  (l.foldl (fun (a : Nat × Nat) x => if a.2 ≤ x.2.2 then (x.1, x.2.2) else a) (0, 0)).1
/-- R116: shares are halved until four suffice. -/
def grantShares : Nat → List (Nat × Nat × Nat) → List (Nat × Nat × Nat)
  | 0, l => l
  | n + 1, l =>
    if (l.map (·.2.2)).sum ≤ 4 then l
    else grantShares n (l.map fun x => if x.1 = topShare l then (x.1, x.2.1, x.2.2 / 2) else x)
/-- Grant the lane shares of a core to its harts that have not exited. -/
def grantLanes (s : State) (l k : Nat) : State :=
  let live := liveHarts s l k
  (grantShares 8 (live.map fun id => (id.h, (s.hart id).laneReq, (s.hart id).laneReq))).foldl
    (fun s (i, _, g) => s.updHart ⟨l, k, i⟩ fun h => { h with lanes := g }) s

/-- R94: hart `hid` of core k. -/
def freshHart (pt : Part) (t : Taken) (k hid : Nat) : Hart :=
  let r := t.rec_
  let j := k * r.harts.toNat + hid
  let tags := (List.range 64).foldl (fun (m : Dbl) i =>
    if r.tagBase hid ≤ i && i < r.tagBase hid + r.tagCount hid then m ||| BitVec.ofNat 64 (2 ^ i) else m) 0
  let h : Hart :=
    { Hart.idle with
      phase := .running, pc := t.entry, vlcap := r.vlcap.zeroExtend 64, tagown := tags, cbown := r.cbOwn hid, tilown := r.tileOwn hid,
      laneReq := 2 ^ r.laneCode hid, tvec := pt.tvec, ptbase := pt.ptbase, root := pt.ptbase, savearea := r.save }
  (h.setS 1 r.args).setS 62 (r.stack + BitVec.ofNat 64 ((j + 1) * t.frame))

def freshCore (r : Record) : Core := { Core.idle with bnd0 := r.bnd0.setWidth 21, bnd1 := r.bnd1.setWidth 21, bnd2 := r.bnd2.setWidth 21 }

/-- The entry is checked by R46 when the launch starts: a hart whose entry is no legal target traps there. -/
def startHart (s : State) (id : HartId) : State :=
  let e := (s.hart id).pc
  match targetCheck s id e with
  | (s, true) => s
  | (s, false) => trapA s id 4 (BitVec.ofNat 64 e) 0 0

/-- Place the record at the placement point of a queue at an origin. -/
def placeRecord (s : State) (p q : Nat) (t : Taken) (ox oy : Nat) : State :=
  let r := t.rec_
  let l := s.nextLaunch
  let u := s.userQ p q
  let la : Launch :=
    { part := p, q := q, slot := u.slot, rec_ := r, entry := t.entry, frame := t.frame, scratch := t.scratch, cbslot := t.cbslot,
      phase := .running, ox := ox, oy := oy, slices := 1, preempts := 0, waited := 0, begin_ := s.cycle, expired := false,
      preempt := false, handles := [] }
  let s := { s.setLaunch l la with nextLaunch := l + 1 }
  let s := s.setQ p q { u with taken := none, activeAt := s.cycle }
  let s := s.updPart p fun x => { x with images := x.images ++ [t.meas] }
  let s := (List.range (la.w * la.h)).foldl (fun s k =>
    let s := s.setCore l k (freshCore r)
    let s := (List.range la.nh).foldl (fun s i => s.setHart ⟨l, k, i⟩ (freshHart (s.part p) t k i)) s
    grantLanes s l k) s
  (s.launchHarts l).foldl startHart s

/-- PLACEMENT: the scheduler's choice is a record. -/
def placement (s : State) (p : Nat) : State :=
  match choice s p with
  | some (x, ox, oy) => match x.c with
    | .fresh q => match (s.userQ p q).taken with
      | some t => placeRecord s p q t ox oy
      | none => s
    | .saved _ => s
  | none => s
def execPlacement (p : Nat) (s : State) : Host.Outcome State Fault Refusal := .next (close s (if schedUp s p then placement s p else s))

/-! ## Slices (R95) -/

def sliceLen (pt : Part) : Nat := 2 ^ pt.slicelg
/-- SLICE_TICK: candidates wait one more, and the slices that are a slice length old expire. -/
def sliceTick (s : State) (p : Nat) : State :=
  let pt := s.part p
  let t := pt.startedAt + (pt.ticks + 1) * sliceLen pt
  if s.cycle < t then s
  else
    let queues := pt.queues.map fun (q, u) => (q, { u with taken := u.taken.map fun x => if x.candidate then { x with waited := x.waited + 1 } else x })
    let s := s.setPart p { pt with ticks := pt.ticks + 1, queues := queues }
    { s with launches := s.launches.map fun (l, x) =>
        if x.part != p then (l, x)
        else if x.phase == .saved then (l, { x with waited := x.waited + 1 })
        else if x.phase == .running && decide (x.begin_ + sliceLen pt ≤ t) then (l, { x with expired := true })
        else (l, x) }
def execSliceTick (p : Nat) (s : State) : Host.Outcome State Fault Refusal := .next (close s (if schedUp s p then sliceTick s p else s))

/-- SLICE_EXPIRY: the expired launch of the lowest slot is pre-empted where a candidate's effective priority is at least its
own priority; otherwise its slice starts again at the tick. -/
def sliceExpiry (s : State) (l : Nat) : State :=
  let x := s.launch l
  let pt := s.part x.part
  if !(s.launches.any (·.1 == l)) || !x.expired || x.phase != .running
      || s.launches.any (fun y => y.2.part == x.part && y.2.expired && decide (y.2.slot < x.slot)) then s
  else if (candidates s x.part).any fun c => x.rec_.prio.toNat ≤ c.eff then s.setLaunch l { x with expired := false, preempt := true }
  else s.setLaunch l { x with expired := false, begin_ := pt.startedAt + pt.ticks * sliceLen pt, slices := x.slices + 1 }
def execSliceExpiry (l : Nat) (s : State) : Host.Outcome State Fault Refusal :=
  .next (close s (if schedUp s (s.launch l).part then sliceExpiry s l else s))

/-! ## Pre-emption (R111, R351, R352) -/

/-- A hart that halts: its leases and its waits end (R111, R239). -/
def haltHart (h : Hart) : Hart :=
  if h.phase == .running then
    { h with phase := .halted, leases := [], wait := none, pause := 0, ydEnd := 0, blocked := 0, line := none, xstop := false, answers := [] } else h
/-- No A side of the launch is inside an access whose answer from outside it waits for or has yet to take: the others stand at an
instruction boundary or at an element boundary, and what a load has read of its parts is read again (R111). -/
def quiet (s : State) (l : Nat) : Bool := (s.launchHarts l).all fun id => !(s.hart id).inAccess
/-- Bring every running hart to a position that it may stop at (R42); false where one has yet to enter its next line. -/
def settleAll (s : State) (l : Nat) : State × Bool :=
  (s.launchHarts l).foldl (fun (s, ok) id =>
    if (s.hart id).phase == .running then let r := settlePos s id; (r.1, ok && r.2) else (s, ok)) (s, true)
/-- Halt every hart of a launch (R111). -/
def haltAll (s : State) (l : Nat) : State :=
  (s.launchHarts l).foldl (fun s id => s.updHart id haltHart) (s.setLaunch l { s.launch l with phase := .halted, preempt := false })

/-- PREEMPTION_HALT: the launch is pre-empted, and counted (R97); or a STOP halts it (R360). -/
def preemptionHalt (s : State) (l : Nat) : State :=
  let x := s.launch l
  if x.phase == .running && (x.preempt || x.stop) && quiet s l then
    match settleAll s l with
    | (s, false) => s
    | (s, true) => haltAll (if x.stop then s else s.setLaunch l { s.launch l with preempts := x.preempts + 1 }) l
  else s
def execPreemptionHalt (l : Nat) (s : State) : Host.Outcome State Fault Refusal :=
  .next (close s (if s.md.power == .ready then preemptionHalt s l else s))

/-- Nothing of the launch is in flight but the CLREDs it has sent (R326, R351). -/
def drained (s : State) (l : Nat) : Bool :=
  (s.cores.all fun x => x.1.1 != l || x.2.engines.isEmpty) && !s.posted.any (·.h.l == l)
  && (s.launchHarts l).all fun id => (s.hart id).nb.isEmpty && !readsOut (s.hart id)

/-- R351, step 5: every dirty line of the launch's cache regions is written back, and every mapping sees what it wrote. True: one held an
uncorrectable error. What its harts have observed so far bounds what they observe once resumed (R341). -/
def writeBackAll (s : State) (l : Nat) : State × Bool :=
  let (s, lost) := emptyL1 s (·.1 == l)
  ({ s with cachedW := s.cachedW.filter (·.2 != l),
            seen := s.seen.map fun x => if x.1.l == l then (x.1, x.2.1, x.2.2.1, true) else x }, lost)
/-- CONTEXT_SAVE: the area is written and the cores are free. A launch that a STOP halts is not saved (R360). -/
def contextSave (s : State) (l : Nat) : State :=
  let x := s.launch l
  if x.phase == .halted && !x.stop && drained s l then
    match writeBackAll s l with
    | (s, true) => deviceFault s x.part 1
    | (s, false) => match saveContext s l with
      | (s, true) => deviceFault s x.part 1
      | (s, false) => s.setLaunch l { s.launch l with phase := .saved, waited := 0 }
  else s
def execContextSave (l : Nat) (s : State) : Host.Outcome State Fault Refusal :=
  .next (close s (if s.md.power == .ready then contextSave s l else s))

/-! ## Resumption (R353) -/

def resumeHart (h : Hart) : Hart := if h.phase == .halted then resumeRegs { h with phase := .running } else h
def resumeLaunch (s : State) (l ox oy : Nat) : State :=
  let x := s.launch l
  match loadContext s l with
  | (s, true) => deviceFault s x.part 1
  | (s, false) =>
    -- every unit of the pools that the launch takes is written whole
    let s := { s with bad := s.bad.filter fun u => !(poolKey l 0 0 ≤ u && u < poolKey (l + 1) 0 0) }
    let s := s.setLaunch l { s.launch l with phase := .running, ox := ox, oy := oy, begin_ := s.cycle, slices := x.slices + 1, expired := false, preempt := false }
    let s := s.setQ x.part x.q { s.userQ x.part x.q with activeAt := s.cycle }
    let s := (s.launchHarts l).foldl (fun s id => s.updHart id resumeHart) s
    (List.range (x.w * x.h)).foldl (fun s k => grantLanes (resumeCore s l k) l k) s

/-- RESUMPTION: the scheduler's choice is a saved launch. -/
def resumption (s : State) (p : Nat) : State :=
  match choice s p with
  | some (x, ox, oy) => match x.c with
    | .saved l => resumeLaunch s l ox oy
    | .fresh _ => s
  | none => s
def execResumption (p : Nat) (s : State) : Host.Outcome State Fault Refusal := .next (close s (if schedUp s p then resumption s p else s))

/-! ## Completion and the watchdog (R97, R354, R364) -/

/-- LAUNCH_COMPLETION: every hart has executed EXIT. -/
def launchCompletion (s : State) (l : Nat) : State :=
  let p := (s.launch l).part
  if s.launches.any (·.1 == l) && (s.launch l).phase != .saved && (s.launchHarts l).all fun id => (s.hart id).phase == .exited then
    match endLaunch s l 0 0 with
    | (s, none) => s
    | (s, some d) => deviceFault s p d
  else s
def execLaunchCompletion (l : Nat) (s : State) : Host.Outcome State Fault Refusal :=
  .next (close s (if s.md.power == .ready then launchCompletion s l else s))

/-- Cycles between two polls, and without an answer until the fault (R364). -/
def pollPeriod : Nat := 1048576
def pollLimit : Nat := 16777216
/-- WATCHDOG_POLL: one is due every 2^20 cycles, and the partition's scheduler has answered it, or it has not. -/
def watchdogPoll (s : State) (p : Nat) (answered : Bool) : State :=
  let x := s.part p
  if s.cycle < pollPeriod + x.polledAt then s
  else s.setPart p { x with polledAt := pollPeriod + x.polledAt, answeredAt := if answered then s.cycle else x.answeredAt }
def execWatchdogPoll (p : Nat) (answered : Bool) (s : State) : Host.Outcome State Fault Refusal :=
  .next (close s (if partUp s p then watchdogPoll s p answered else s))
/-- WATCHDOG_EXPIRY: no answer for 2^24 cycles, with every poll made that was due. -/
def execWatchdogExpiry (p : Nat) (s : State) : Host.Outcome State Fault Refusal :=
  let x := s.part p
  .next (close s (if partUp s p && decide (pollLimit + x.answeredAt ≤ s.cycle) && decide (s.cycle < pollPeriod + x.polledAt) then
    (deviceFault s p 6).updPart p fun x => { x with answeredAt := s.cycle } else s))

end Sys2Proof.Machine
end

