-- ==== Sys2Proof/Machine/Clave.lean ====
section
/-! DEFINITION. The module and the Clave command set (R355 to R361, R363, R365, R373). -/

namespace Sys2Proof.Machine

open Sys2Proof

/-! ## Power (R4, R355, R365) -/

/-- The first draw that is not zero. -/
def bootDraw (l : List (BitVec 32)) : Option (BitVec 32) := l.find? (· != 0)
/-- The module after it has lost its power: only what stands outside it is kept. -/
def powerOff (s : State) : State :=
  { State.reset with agenda := s.agenda, cur := s.cur, fresh := s.fresh, md := { Module.off with sent := s.md.sent } }
/-- The Clave ROM brings the module up. -/
def boot (s : State) (f : BootFindings) (id : BitVec 32) : State :=
  let t := powerOff s
  let k := Config.firstOperatorKey
  { t with md :=
      { t.md with
        power := if f.dies = 15 ∧ f.hbm = 255 then .ready else .failed
        dieOk := f.dies, hbmOk := f.hbm, portOk := f.ports, linkOk := f.links, ethOk := f.eth, bootId := id
        opKeys := [(Config.sha512 k, k)] } }

/-- POWER_ON. -/
def execPowerOn (f : BootFindings) (s : State) : Host.Outcome State Fault Refusal :=
  match s.md.power, bootDraw f.draws with
  | .off, some id => .next (boot s f id)
  | _, _ => .next s
/-- POWER_LOSS. -/
def execPowerLoss (s : State) : Host.Outcome State Fault Refusal := .next (powerOff s)
/-- THERMAL_SHUTDOWN: the Clave ROM removes module power (R365). -/
def execThermalShutdown (s : State) : Host.Outcome State Fault Refusal := .next (powerOff s)
/-- THROTTLE: the cores of these dies hold issue for some cycles; the cycles that each has held it are counted (R363, R365). -/
def execThrottle (cycles : Throttle) (s : State) : Host.Outcome State Fault Refusal :=
  let m := s.md
  let ⟨dies, cycles⟩ := cycles
  let at' (v : Vector Nat 4) (f : Nat → Nat) : Vector Nat 4 := v.mapIdx fun d n => if dies.getLsbD d then f n else n
  .next (close s (if m.power == .ready then
    { s with md := { m with throttleEnd := at' m.throttleEnd fun n => max n (s.cycle + cycles),
                            throttled := m.throttled.mapIdx fun d n =>
                              if dies.getLsbD d then n + (s.cycle + cycles - max s.cycle (m.throttleEnd.toList.getD d 0)) else n } } else s))

/-! ## Acceptance and replies (R356, R357) -/

def cmdMagic : Nat := 0x43564C43
/-- The signed bytes of a command or of its reply: the header with a code and the count of the body, and the body. -/
def cmdBytes (magic code rsv len : Nat) (c : Cmd) (body : List Byte) : List Byte :=
  toBytes 4 magic ++ toBytes 2 code ++ toBytes 2 rsv ++ toBytes 4 c.seq.toNat ++ toBytes 4 c.boot.toNat
    ++ toBytes 4 len ++ toBytes 4 c.part.toNat ++ toBytes 64 c.key.toNat ++ body
/-- What the signature of a command covers. -/
def cmdSigned (c : Cmd) : List Byte := cmdBytes c.magic.toNat c.code.toNat c.rsv.toNat c.len.toNat c c.body

/-- Status 1 or 2 where the command is not accepted; before the first command under a key the last sequence number counts as 0 (log
76). -/
def refuse (s : State) (c : Cmd) : Option Nat :=
  match s.md.opKeys.find? (·.1 == c.key) with
  | none => some 1
  | some (_, pk) =>
    if !Config.ecdsaVerify pk (Config.sha512 (cmdSigned c)) c.sig then some 1
    else if c.boot != s.md.bootId || c.seq.toNat ≤ tget 0 s.md.lastSeq c.key then some 2
    else none
/-- A header that R356 does not give: another magic, a reserved field that is not zero, another code, a count above 8,000 or another
than the body's, a partition above 3 that is not the module's. -/
def headerBad (code : Nat) (c : Cmd) : Bool :=
  c.magic.toNat != cmdMagic || c.rsv != 0 || c.code.toNat != code || 8000 < c.len.toNat || c.len.toNat != c.body.length
  || (3 < c.part.toNat && c.part != 0xFF)

/-- The datagram reaches the Clave ROM: its Ethernet port works, and power is up. The row is that of its code, or of any command where
no command has the code (log 34). -/
def heard (s : State) (code : Nat) (c : Cmd) : Bool :=
  s.md.power != .off && s.md.ethOk.getLsbD c.port.toNat && (c.code.toNat == code || c.code == 0 || 12 < c.code.toNat)
/-- The reply to a command: its header with bit 15 of the code set, the status and a body, signed with the identity key. -/
def reply (s : State) (c : Cmd) (status : Nat) (body : List Byte) : State :=
  let r := toBytes 4 status ++ body
  let code := c.code.toNat ||| 0x8000
  let sig := toBytes 132 (Config.identitySign (cmdBytes cmdMagic code 0 r.length c r)).toNat
  { s with md := { s.md with sent := .reply code status body sig :: s.md.sent } }
/-- The command is accepted: its sequence number is the last one under its key. -/
def accepted (s : State) (c : Cmd) : State := { s with md := { s.md with lastSeq := tput s.md.lastSeq c.key c.seq.toNat } }

/-- A command to an existing partition. -/
def toPart (s : State) (c : Cmd) (f : Nat → State × Nat × List Byte) : State × Nat × List Byte :=
  if s.parts.any (·.1 == c.part.toNat) then f c.part.toNat else (s, 3, [])
/-- A command to the module: with another part it is malformed (log 34). -/
def toModule (s : State) (c : Cmd) (r : State × Nat × List Byte) : State × Nat × List Byte := if c.part = 0xFF then r else (s, 3, [])
/-- A command that either has its effect or is malformed. -/
def orMalformed (r : Option State) (s : State) : State × Nat × List Byte := match r with
  | some t => (t, 0, [])
  | none => (s, 3, [])

/-! ## IDENT, RESET (R358) -/

/-- What IDENT reports (R358), in its order; the widths of the version and of the states are the model's (log 34). -/
def identBody (s : State) : List Byte :=
  toBytes 4 Config.romVersion.toNat ++ toBytes 133 Config.identityKey.toNat ++ toBytes 4 s.md.bootId.toNat
    ++ toBytes 1 s.md.dieOk.toNat ++ toBytes 1 s.md.hbmOk.toNat ++ toBytes 1 s.md.portOk.toNat
/-- RESET to the module (log 34): as power-off and boot, without a reply; malformed, it is answered. -/
def resetModule (s : State) (c : Cmd) (f : BootFindings) : State :=
  if c.part != 0xFF || !c.body.isEmpty then reply s c 3 []
  else match bootDraw f.draws with
    | some id => boot s f id
    | none => s

/-! ## PARTITION (R373) -/

def formDies (d : Nat) : Bool := ([1, 2, 4, 8, 3, 12, 5, 10, 15] : List Nat).contains d
/-- The partition that a body names, where R373 accepts it. -/
def parsePartition (b : List Byte) : Option Part :=
  let f (off n : Nat) : Nat := ofBytes ((b.drop off).take n)
  let lg := f 2 1
  if b.length = 48 && formDies (f 0 1) && decide (f 1 1 ≤ 1) && (lg == 0 || (decide (10 ≤ lg) && decide (lg ≤ 30))) && f 3 5 == 0
      && f 40 8 == 0 && f 8 8 % 65536 == 0 && f 16 8 % 65536 == 0 && isSlot (f 24 8) && decide (f 24 8 < 2 ^ 55)
      && f 32 8 % 65536 == 0 && decide (f 32 8 < 2 ^ 52) then
    some { Part.idle with
      dies := BitVec.ofNat 4 (f 0 1), policy := BitVec.ofNat 8 (f 1 1), slicelg := if lg = 0 then 20 else lg
      qtable := BitVec.ofNat 64 (f 8 8), notify := BitVec.ofNat 64 (f 16 8), tvec := BitVec.ofNat 64 (f 24 8),
      ptbase := BitVec.ofNat 64 (f 32 8), body := b }
  else none

/-- Records taken and not placed complete with status 5, and done advances over them (R360). -/
def dropTaken (s : State) (p : Nat) : State :=
  (s.part p).queues.foldl (fun s (q, u) =>
    match u.taken with
    | some t =>
      let s := s.setQ p q { s.userQ p q with taken := none }
      rejectRecord s p q t.n t.rec_ 5 0
    | none => s) s
/-- A mapped queue is unmapped: its head, done and flags are written (R85); one that was Unmapping keeps no pending notify (R88). The
device fault that an access may be finds no launch. -/
def unmapQueue (s : State) (p q : Nat) : State :=
  let u := s.userQ p q
  if u.phase == .mapped || u.phase == .unmapping then
    let s := (schedWrite s p (tableAddr s p q + 16) 8 u.head).1
    let s := (schedWrite s p (tableAddr s p q + 24) 8 u.done).1
    (writeFlags s p q false false).1
  else s
/-- Every mapped queue is unmapped. -/
def unmapAll (s : State) (p : Nat) : State := (s.part p).queues.foldl (fun s x => unmapQueue s p x.1) s
/-- A partition is dissolved (R373); its binding to the domain and its registered regions go with it (log 74). -/
def dissolve (s : State) (p : Nat) : State :=
  let s := unmapAll (dropTaken s p) p
  { s with parts := tdel s.parts p, md := { s.md with boundPart := if s.md.boundPart = some p then none else s.md.boundPart,
                                                      regions := s.md.regions.filter (·.part != p) } }

/-- The partitions that forming partition p over these dies affects. -/
def affected (s : State) (p : Nat) (dies : BitVec 4) : List Nat :=
  (s.parts.filter fun x => x.1 == p || x.2.dies &&& dies != 0).map (·.1)
/-- Form partition p. The not-live marks of the partitions it affects go: their segments may name other bytes (log 67). -/
def formPart (s : State) (c : Cmd) : State × Nat × List Byte :=
  match parsePartition c.body with
  | none => (s, 3, [])
  | some pt =>
    let p := c.part.toNat
    if 3 < p then (s, 3, [])
    else
      let old := affected s p pt.dies
      if s.launches.any fun x => old.contains x.2.part then (s, 4, [])
      else
        let s := old.foldl dissolve s
        ({ s.setPart p pt with notLive := s.notLive.filter fun x => !old.contains x.1 }, 0, [])

/-! ## LOAD, START, STOP (R358 to R360) -/

/-- The keys of n bytes at a physical address of a tier of a partition; none where one is not there. -/
def tierKeys (s : State) (p tier a n : Nat) : Option (List Nat) :=
  let dies := (s.part p).dies
  if tier = 0 then (if a + n ≤ hbmSize dies then some ((List.range n).map fun i => hbmKey dies (a + i)) else none)
  else if tier = 1 && decide (a + n ≤ sadSize dies) && (List.range n).all (fun i => s.md.portOk.getLsbD (sadPort dies (a + i))) then
    some ((List.range n).map fun i => sadKey dies (a + i))
  else none
/-- LOAD. The device fault of a write that meets an uncorrectable error leaves its status at 0 (log 36). -/
def loadCmd (s : State) (p : Nat) (b : List Byte) : State × Nat × List Byte :=
  let f (off n : Nat) : Nat := ofBytes ((b.drop off).take n)
  let bs := b.drop 16
  if b.length < 16 ∨ f 1 7 ≠ 0 then (s, 3, [])
  else match tierKeys s p (f 0 1) (f 8 8) bs.length with
    | none => (s, 3, [])
    | some ks => match homePut s p ks bs with
      | (s, true) => (deviceFault s p 1, 0, [])
      | (s, false) => (s, 0, [])
/-- A line that a LOAD writes is leased: it waits as a probe (R238). -/
def loadHeld (s : State) (c : Cmd) : Bool :=
  let f (off n : Nat) : Nat := ofBytes ((c.body.drop off).take n)
  s.parts.any (·.1 == c.part.toNat) && decide (16 ≤ c.body.length) && f 1 7 == 0
    && (tierKeys s c.part.toNat (f 0 1) (f 8 8) (c.body.length - 16)).any fun ks => (keysLeased s none true ks).isSome

/-- START: the scheduler acts on what stands in the notify window (R359). The first one after PARTITION finds no translation of the
partition made before it (R373). -/
def startPart (s : State) (p : Nat) : State :=
  let s := if (s.part p).unstarted then { s.updPart p fun x => { x with tlbAll := s.epoch + 1 } with epoch := s.epoch + 1 } else s
  let s := s.updPart p fun x =>
    { x with started := true, startedAt := s.cycle, ticks := 0, answeredAt := s.cycle, polledAt := s.cycle, images := [], unstarted := false }
  (List.range 65536).foldl (fun s q => notified s p q) s

/-- STOP sets about halting every hart of the partition by R111. -/
def stopBegin (s : State) (p : Nat) : State :=
  { s with launches := s.launches.map fun (l, x) => if x.part == p && x.phase == .running then (l, { x with stop := true }) else (l, x) }
/-- Every launch is halted, and what it had in flight has ended; one that was being saved is saved (R351, R360). -/
def stopReady (s : State) (p : Nat) : Bool :=
  (s.launchesOf p).all fun l => (s.launch l).phase == .saved || ((s.launch l).phase == .halted && (s.launch l).stop && drained s l)
/-- The launch is there still, and `f` is done with it: a device fault may have discarded it. -/
def withLaunch (l : Nat) (f : State → State) (s : State) : State := if s.launches.any (·.1 == l) then f s else s
/-- STOP discards a launch with status 5 (R360). -/
def stopLaunch (s : State) (l : Nat) : State :=
  withLaunch l (fun s =>
    match endLaunch s l 5 0 with
    | (t, none) => t
    | (t, some d) => deviceFault t (s.launch l).part d) s
/-- The end of a STOP (R360). The CLREDs sent stay: their results are written (R326). -/
def stopPart (s : State) (p : Nat) : State :=
  (dropTaken ((s.launchesOf p).foldl stopLaunch s) p).updPart p fun x => { x with started := false }

/-! ## ATTEST, COUNTERS (R361, R363) -/

def digestBytes (d : BitVec 512) : List Byte := toBytes 64 d.toNat
/-- The measurement list (R361). -/
def measurements (s : State) : List Byte :=
  let ps := (List.range 4).filterMap fun p => if s.parts.any (·.1 == p) then some (s.part p) else none
  digestBytes Config.romMeasure ++ digestBytes Config.fuseMeasure ++ ps.flatMap (fun p => digestBytes (Config.sha512 p.body))
    ++ (s.md.opKeys ++ s.md.imageKeys).flatMap (fun k => digestBytes k.1) ++ ps.flatMap fun p => p.images.flatMap digestBytes

/-- The counts of R363, in its order. -/
def counterList (s : State) : List Nat :=
  let n (x : Site) : Nat := tget 0 s.md.corrected x
  (List.range 4).map (fun i => n (.pool i)) ++ (List.range 4).map (fun i => n (.l2 i)) ++ (List.range 8).map (fun i => n (.stack i))
    ++ (List.range 8).map (fun i => n (.saddlebag i)) ++ (List.range 32).map (fun i => n (.spokeLink i))
    ++ (List.range 8).map (fun i => n (.saddlebagLink i)) ++ (List.range 4).map (fun p => tget 0 s.md.notLiveReads p)
    ++ (List.range 4).map (fun p => tget 0 s.md.unwritten p) ++ [s.md.discardedNotifies] ++ s.md.throttled.toList

/-! ## THERMAL, DOMAIN, HOSTWIN, KEYS (R310, R328, R329, R358, R365) -/

/-- THERMAL: the power limit in watts. -/
def limitPower (s : State) (watts : Nat) : Option State :=
  if 1200 ≤ watts ∧ watts ≤ 2400 then some { s with md := { s.md with powerLimit := watts } } else none

/-- DOMAIN: the module's identifier, the partition it binds, the members. -/
def joinDomain (s : State) (id p : Nat) (ms : List Nat) : Option State :=
  if ms.contains id && ms.Nodup && decide (2 ≤ ms.length) && decide (ms.length ≤ 128) && ms.all (· < 128) && s.parts.any (·.1 == p) then
    some { s with md := { s.md with modId := some id, boundPart := some p, members := ms } }
  else none

/-- HOSTWIN: a host window, or a registered region. -/
def hostWindow (s : State) : HostwinArg → Option State
  | .window n qp rkey rbase len =>
    if n < 4096 ∧ len ≤ 2 ^ 40 then
      some { s with md := { s.md with windows := { n := n, qp := qp, rkey := rkey, rbase := rbase, len := len } :: s.md.windows.filter (·.n != n) } }
    else none
  | .region p base len =>
    if s.parts.any (·.1 == p) then some { s with md := { s.md with regions := { part := p, base := base, len := len } :: s.md.regions } }
    else none

/-- KEYS: at most eight of each kind; the fused key stays. To remove a key that is not installed is malformed (log 34). -/
def setKey (ks : List (BitVec 512 × List Byte)) (fused : BitVec 512 → Bool) (a : KeysArg) : Option (List (BitVec 512 × List Byte)) :=
  if a.install then
    if Config.sha512 a.pubkey != a.digest then none
    else if ks.any (·.1 == a.digest) then some ks
    else if 8 ≤ ks.length then none
    else some (ks ++ [(a.digest, a.pubkey)])
  else if fused a.digest || !ks.any (·.1 == a.digest) then none
  else some (ks.filter (·.1 != a.digest))
def installKey (s : State) (a : KeysArg) : Option State :=
  if a.image then (setKey s.md.imageKeys (fun _ => false) a).map fun k => { s with md := { s.md with imageKeys := k } }
  else (setKey s.md.opKeys (· == Config.sha512 Config.firstOperatorKey) a).map fun k => { s with md := { s.md with opKeys := k } }

/-! ## The commands in their order (R357, R360) -/

/-- What a command does when its turn comes: the state, and the status and body of its reply. -/
def orderRun (s : State) (c : Cmd) : Order → State × Nat × List Byte
  | .malformed | .reset _ => (s, 3, [])
  | .ident => (s, 0, identBody s)
  | .partition => formPart s c
  | .load => toPart s c fun p => loadCmd s p c.body
  | .start => toPart s c fun p => if c.body.isEmpty then (startPart s p, 0, []) else (s, 3, [])
  | .stop _ => toPart s c fun p => if c.body.isEmpty then (stopPart s p, 0, []) else (s, 3, [])
  | .attest => toModule s c (if c.body.length = 64 then (s, 0, c.body ++ measurements s) else (s, 3, []))
  | .counters => toModule s c (if c.body.isEmpty then (s, 0, (counterList s).flatMap (toBytes 8)) else (s, 3, []))
  | .thermal w => toModule s c (orMalformed (limitPower s w) s)
  | .domain i p ms => toModule s c (orMalformed (joinDomain s i p ms) s)
  | .hostwin a => toModule s c (orMalformed (hostWindow s a) s)
  | .keys a => toModule s c (orMalformed (installKey s a) s)
/-- A command has its effect and is answered; the step ends. -/
def finish (s : State) (c : Cmd) : Order → State
  | .reset f => resetModule s c f
  | o =>
    let (t, st, body) := orderRun s c o
    close s (reply t c st body)
/-- A command whose turn has come sets about what takes time. -/
def orderBegin (s : State) (c : Cmd) : Order → State × Order
  | .stop _ =>
    if s.parts.any (·.1 == c.part.toNat) && c.body.isEmpty then (stopBegin s c.part.toNat, .stop true) else (s, .malformed)
  | o => (s, o)
/-- A command whose turn has come can have its effect. -/
def orderReady (s : State) (c : Cmd) : Order → Bool
  | .load => !loadHeld s c
  | .stop _ => stopReady s c.part.toNat
  | _ => true
/-- Commands that are not finished, and that a command waits for: earlier ones to its partition, and every earlier one where it is to
the module (R357). -/
def behindOf (c : Cmd) (earlier : List (Cmd × Order)) : Bool := earlier.any fun x => c.part == 0xFF || x.1.part == c.part

/-- The command joins those that are not finished. -/
def keepOrder (s : State) (c : Cmd) (o : Order) : State := { s with md := { s.md with waiting := s.md.waiting ++ [(c, o)] } }
/-- An accepted command has its effect, or waits for its turn or for what holds it up. -/
def submit (s : State) (c : Cmd) (o : Order) : State :=
  if behindOf c s.md.waiting then keepOrder s c o
  else
    let (s, o) := orderBegin s c o
    if orderReady s c o then finish s c o else keepOrder s c o
/-- A signed command: refused with its status, or accepted; malformed, its effect is the answer alone. A failed module answers IDENT
alone (R355). -/
def command (s : State) (code : Nat) (c : Cmd) (o : Order) : State :=
  if s.md.power != .ready || !heard s code c then s
  else match refuse s c with
    | some st => reply s c st []
    | none => submit (accepted s c) c (if headerBad code c then .malformed else o)

/-- IDENT carries no key and no signature, and a failed module answers it too. It is a command to the module, and has its place in the
order of R357 (log 34). -/
def identReply (s : State) (c : Cmd) : State :=
  if !heard s 1 c || c.code != 1 then s
  else submit s c (if headerBad 1 c || c.part != 0xFF || c.key != 0 || !c.body.isEmpty then .malformed else .ident)

/-- Of the commands that wait, with those before each: the first whose turn has come and that can have its effect. -/
def nextOrder (s : State) : List (Cmd × Order) → List (Cmd × Order) → Option (Cmd × Order)
  | _, [] => none
  | before, x :: t => if !behindOf x.1 before && orderReady s x.1 x.2 then some x else nextOrder s (before ++ [x]) t
/-- Every command that waits and whose turn has come sets about what takes time. -/
def beginOrders (s : State) : List (Cmd × Order) → List (Cmd × Order) → State
  | before, [] => { s with md := { s.md with waiting := before } }
  | before, x :: t =>
    let (s, o) := if behindOf x.1 before then (s, x.2) else orderBegin s x.1 x.2
    beginOrders s (before ++ [(x.1, o)]) t
/-- Accepted commands go on: those whose turn has come begin, and one that can has its effect. -/
def commandsGo (s : State) : State :=
  let s := beginOrders s [] s.md.waiting
  match nextOrder s [] s.md.waiting with
  | some x => finish { s with md := { s.md with waiting := s.md.waiting.erase x } } x.1 x.2
  | none => s

def execIdent (s : State) (c : Cmd := identCmd) : Host.Outcome State Fault Refusal := .next (identReply s c)
def execReset (c : Cmd) (f : BootFindings) (s : State) : Host.Outcome State Fault Refusal := .next (command s 2 c (.reset f))
def execPartition (c : Cmd) (s : State) : Host.Outcome State Fault Refusal := .next (command s 3 c .partition)
def execLoad (c : Cmd) (s : State) : Host.Outcome State Fault Refusal := .next (command s 4 c .load)
def execStart (c : Cmd) (s : State) : Host.Outcome State Fault Refusal := .next (command s 5 c .start)
def execStop (c : Cmd) (s : State) : Host.Outcome State Fault Refusal := .next (command s 6 c (.stop false))
def execAttest (c : Cmd) (s : State) : Host.Outcome State Fault Refusal := .next (command s 7 c .attest)
def execCounters (c : Cmd) (s : State) : Host.Outcome State Fault Refusal := .next (command s 8 c .counters)
def execThermal (c : Cmd) (watts : Nat) (s : State) : Host.Outcome State Fault Refusal := .next (command s 9 c (.thermal watts))
def execDomain (c : Cmd) (id part : Nat) (members : List Nat) (s : State) : Host.Outcome State Fault Refusal :=
  .next (command s 10 c (.domain id part members))
def execHostwin (c : Cmd) (a : HostwinArg) (s : State) : Host.Outcome State Fault Refusal := .next (command s 11 c (.hostwin a))
def execKeys (c : Cmd) (a : KeysArg) (s : State) : Host.Outcome State Fault Refusal := .next (command s 12 c (.keys a))

end Sys2Proof.Machine
end

