-- ==== Sys2Proof/Machine/Dispatch.lean ====
section
/-! DEFINITION. The meaning of every instruction and event, one call for each. -/

namespace Sys2Proof.Machine

open Sys2Proof

def exec (i : Instr) (s : State) : Host.Outcome State Fault Refusal :=
  match i with
  | .nop x => Sys2Proof.Machine.execNop x s
  | .br x => Sys2Proof.Machine.execBr x s
  | .call x => Sys2Proof.Machine.execCall x s
  | .ret x => Sys2Proof.Machine.execRet x s
  | .jmp x => Sys2Proof.Machine.execJmp x s
  | .strip x => Sys2Proof.Machine.execStrip x s
  | .vsetl x => Sys2Proof.Machine.execVsetl x s
  | .trap x => Sys2Proof.Machine.execTrap x s
  | .bkpt x => Sys2Proof.Machine.execBkpt x s
  | .eret x => Sys2Proof.Machine.execEret x s
  | .exit x => Sys2Proof.Machine.execExit x s
  | .yield x => Sys2Proof.Machine.execYield x s
  | .csrr x => Sys2Proof.Machine.execCsrr x s
  | .csrw x => Sys2Proof.Machine.execCsrw x s
  | .csrset x => Sys2Proof.Machine.execCsrset x s
  | .csrclr x => Sys2Proof.Machine.execCsrclr x s
  | .fence x => Sys2Proof.Machine.execFence x s
  | .xsync x => Sys2Proof.Machine.execXsync x s
  | .tlbinv x => Sys2Proof.Machine.execTlbinv x s
  | .setbnd x => Sys2Proof.Machine.execSetbnd x s
  | .add x => Sys2Proof.Machine.execAdd x s
  | .addi x => Sys2Proof.Machine.execAddi x s
  | .sub x => Sys2Proof.Machine.execSub x s
  | .mul x => Sys2Proof.Machine.execMul x s
  | .muli x => Sys2Proof.Machine.execMuli x s
  | .mulh x => Sys2Proof.Machine.execMulh x s
  | .mulhu x => Sys2Proof.Machine.execMulhu x s
  | .div x => Sys2Proof.Machine.execDiv x s
  | .divu x => Sys2Proof.Machine.execDivu x s
  | .rem x => Sys2Proof.Machine.execRem x s
  | .remu x => Sys2Proof.Machine.execRemu x s
  | .and x => Sys2Proof.Machine.execAnd x s
  | .andi x => Sys2Proof.Machine.execAndi x s
  | .or x => Sys2Proof.Machine.execOr x s
  | .ori x => Sys2Proof.Machine.execOri x s
  | .xor x => Sys2Proof.Machine.execXor x s
  | .xori x => Sys2Proof.Machine.execXori x s
  | .andn x => Sys2Proof.Machine.execAndn x s
  | .shl x => Sys2Proof.Machine.execShl x s
  | .shli x => Sys2Proof.Machine.execShli x s
  | .shr x => Sys2Proof.Machine.execShr x s
  | .shri x => Sys2Proof.Machine.execShri x s
  | .sra x => Sys2Proof.Machine.execSra x s
  | .srai x => Sys2Proof.Machine.execSrai x s
  | .min x => Sys2Proof.Machine.execMin x s
  | .max x => Sys2Proof.Machine.execMax x s
  | .minu x => Sys2Proof.Machine.execMinu x s
  | .maxu x => Sys2Proof.Machine.execMaxu x s
  | .clz x => Sys2Proof.Machine.execClz x s
  | .ctz x => Sys2Proof.Machine.execCtz x s
  | .popc x => Sys2Proof.Machine.execPopc x s
  | .sext x => Sys2Proof.Machine.execSext x s
  | .zext x => Sys2Proof.Machine.execZext x s
  | .movi x => Sys2Proof.Machine.execMovi x s
  | .moviX x => Sys2Proof.Machine.execMoviX x s
  | .mov x => Sys2Proof.Machine.execMov x s
  | .sel x => Sys2Proof.Machine.execSel x s
  | .cmp x => Sys2Proof.Machine.execCmp x s
  | .cmpi x => Sys2Proof.Machine.execCmpi x s
  | .plog x => Sys2Proof.Machine.execPlog x s
  | .lea x => Sys2Proof.Machine.execLea x s
  | .hashs x => Sys2Proof.Machine.execHashs x s
  | .ldb x => Sys2Proof.Machine.execLdb x s
  | .ldh x => Sys2Proof.Machine.execLdh x s
  | .ldw x => Sys2Proof.Machine.execLdw x s
  | .ldd x => Sys2Proof.Machine.execLdd x s
  | .ldbs x => Sys2Proof.Machine.execLdbs x s
  | .ldhs x => Sys2Proof.Machine.execLdhs x s
  | .ldws x => Sys2Proof.Machine.execLdws x s
  | .stb x => Sys2Proof.Machine.execStb x s
  | .sth x => Sys2Proof.Machine.execSth x s
  | .stw x => Sys2Proof.Machine.execStw x s
  | .std x => Sys2Proof.Machine.execStd x s
  | .aadd x => Sys2Proof.Machine.execAadd x s
  | .aand x => Sys2Proof.Machine.execAand x s
  | .aor x => Sys2Proof.Machine.execAor x s
  | .axor x => Sys2Proof.Machine.execAxor x s
  | .amin x => Sys2Proof.Machine.execAmin x s
  | .amax x => Sys2Proof.Machine.execAmax x s
  | .aswp x => Sys2Proof.Machine.execAswp x s
  | .acas x => Sys2Proof.Machine.execAcas x s
  | .afadd x => Sys2Proof.Machine.execAfadd x s
  | .lease x => Sys2Proof.Machine.execLease x s
  | .unlease x => Sys2Proof.Machine.execUnlease x s
  | .stlc x => Sys2Proof.Machine.execStlc x s
  | .cflush x => Sys2Proof.Machine.execCflush x s
  | .cinv x => Sys2Proof.Machine.execCinv x s
  | .cpref x => Sys2Proof.Machine.execCpref x s
  | .vld x => Sys2Proof.Machine.execVld x s
  | .vldff x => Sys2Proof.Machine.execVldff x s
  | .vldx x => Sys2Proof.Machine.execVldx x s
  | .vldsc x => Sys2Proof.Machine.execVldsc x s
  | .vst x => Sys2Proof.Machine.execVst x s
  | .vstx x => Sys2Proof.Machine.execVstx x s
  | .vstsc x => Sys2Proof.Machine.execVstsc x s
  | .vlds x => Sys2Proof.Machine.execVlds x s
  | .vsts x => Sys2Proof.Machine.execVsts x s
  | .vldsx x => Sys2Proof.Machine.execVldsx x s
  | .vstsx x => Sys2Proof.Machine.execVstsx x s
  | .vamo x => Sys2Proof.Machine.execVamo x s
  | .popx x => Sys2Proof.Machine.execPopx x s
  | .qdrop x => Sys2Proof.Machine.execQdrop x s
  | .pcopy x => Sys2Proof.Machine.execPcopy x s
  | .pdec x => Sys2Proof.Machine.execPdec x s
  | .pfill x => Sys2Proof.Machine.execPfill x s
  | .twaitany x => Sys2Proof.Machine.execTwaitany x s
  | .twaitall x => Sys2Proof.Machine.execTwaitall x s
  | .tfind x => Sys2Proof.Machine.execTfind x s
  | .tclr x => Sys2Proof.Machine.execTclr x s
  | .nbadd x => Sys2Proof.Machine.execNbadd x s
  | .nbopt x => Sys2Proof.Machine.execNbopt x s
  | .nbfence x => Sys2Proof.Machine.execNbfence x s
  | .sfpool x => Sys2Proof.Machine.execSfpool x s
  | .rhopen x => Sys2Proof.Machine.execRhopen x s
  | .rhprio x => Sys2Proof.Machine.execRhprio x s
  | .rhevict x => Sys2Proof.Machine.execRhevict x s
  | .rhclose x => Sys2Proof.Machine.execRhclose x s
  | .gong x => Sys2Proof.Machine.execGong x s
  | .post x => Sys2Proof.Machine.execPost x s
  | .waiti x => Sys2Proof.Machine.execWaiti x s
  | .qnotify x => Sys2Proof.Machine.execQnotify x s
  | .acset x => Sys2Proof.Machine.execAcset x s
  | .acwait x => Sys2Proof.Machine.execAcwait x s
  | .clred x => Sys2Proof.Machine.execClred x s
  | .vadd x => Sys2Proof.Machine.execVadd x s
  | .vsub x => Sys2Proof.Machine.execVsub x s
  | .vmul x => Sys2Proof.Machine.execVmul x s
  | .vmulh x => Sys2Proof.Machine.execVmulh x s
  | .vmac x => Sys2Proof.Machine.execVmac x s
  | .vdot2 x => Sys2Proof.Machine.execVdot2 x s
  | .vabs x => Sys2Proof.Machine.execVabs x s
  | .vneg x => Sys2Proof.Machine.execVneg x s
  | .vmin x => Sys2Proof.Machine.execVmin x s
  | .vmax x => Sys2Proof.Machine.execVmax x s
  | .vand x => Sys2Proof.Machine.execVand x s
  | .vor x => Sys2Proof.Machine.execVor x s
  | .vxor x => Sys2Proof.Machine.execVxor x s
  | .vnot x => Sys2Proof.Machine.execVnot x s
  | .vshl x => Sys2Proof.Machine.execVshl x s
  | .vshr x => Sys2Proof.Machine.execVshr x s
  | .vsra x => Sys2Proof.Machine.execVsra x s
  | .vsrar x => Sys2Proof.Machine.execVsrar x s
  | .vclz x => Sys2Proof.Machine.execVclz x s
  | .vpopc x => Sys2Proof.Machine.execVpopc x s
  | .vsel x => Sys2Proof.Machine.execVsel x s
  | .vmov x => Sys2Proof.Machine.execVmov x s
  | .vsplat x => Sys2Proof.Machine.execVsplat x s
  | .vsplatX x => Sys2Proof.Machine.execVsplatX x s
  | .viota x => Sys2Proof.Machine.execViota x s
  | .vadds x => Sys2Proof.Machine.execVadds x s
  | .vsubs x => Sys2Proof.Machine.execVsubs x s
  | .vrmovf x => Sys2Proof.Machine.execVrmovf x s
  | .vrmovt x => Sys2Proof.Machine.execVrmovt x s
  | .vcmp x => Sys2Proof.Machine.execVcmp x s
  | .vlbc x => Sys2Proof.Machine.execVlbc x s
  | .mlog x => Sys2Proof.Machine.execMlog x s
  | .mpopc x => Sys2Proof.Machine.execMpopc x s
  | .mffs x => Sys2Proof.Machine.execMffs x s
  | .mpfx x => Sys2Proof.Machine.execMpfx x s
  | .mffe x => Sys2Proof.Machine.execMffe x s
  | .vslideup x => Sys2Proof.Machine.execVslideup x s
  | .vslidedn x => Sys2Proof.Machine.execVslidedn x s
  | .vgathr x => Sys2Proof.Machine.execVgathr x s
  | .vcompr x => Sys2Proof.Machine.execVcompr x s
  | .vexpnd x => Sys2Proof.Machine.execVexpnd x s
  | .vredsum x => Sys2Proof.Machine.execVredsum x s
  | .vredmin x => Sys2Proof.Machine.execVredmin x s
  | .vredmax x => Sys2Proof.Machine.execVredmax x s
  | .vscan x => Sys2Proof.Machine.execVscan x s
  | .vconf x => Sys2Proof.Machine.execVconf x s
  | .vcomb x => Sys2Proof.Machine.execVcomb x s
  | .vsort x => Sys2Proof.Machine.execVsort x s
  | .vbcmp x => Sys2Proof.Machine.execVbcmp x s
  | .vbfind x => Sys2Proof.Machine.execVbfind x s
  | .vhash x => Sys2Proof.Machine.execVhash x s
  | .vxhash x => Sys2Proof.Machine.execVxhash x s
  | .vfadd x => Sys2Proof.Machine.execVfadd x s
  | .vfsub x => Sys2Proof.Machine.execVfsub x s
  | .vfmul x => Sys2Proof.Machine.execVfmul x s
  | .vfma x => Sys2Proof.Machine.execVfma x s
  | .vfdiv x => Sys2Proof.Machine.execVfdiv x s
  | .vfsqrt x => Sys2Proof.Machine.execVfsqrt x s
  | .vfmin x => Sys2Proof.Machine.execVfmin x s
  | .vfmax x => Sys2Proof.Machine.execVfmax x s
  | .vfabs x => Sys2Proof.Machine.execVfabs x s
  | .vfneg x => Sys2Proof.Machine.execVfneg x s
  | .vfcmp x => Sys2Proof.Machine.execVfcmp x s
  | .vexp2 x => Sys2Proof.Machine.execVexp2 x s
  | .vlog2 x => Sys2Proof.Machine.execVlog2 x s
  | .vrsqrt x => Sys2Proof.Machine.execVrsqrt x s
  | .vrcp x => Sys2Proof.Machine.execVrcp x s
  | .vtanh x => Sys2Proof.Machine.execVtanh x s
  | .verf x => Sys2Proof.Machine.execVerf x s
  | .vcvt x => Sys2Proof.Machine.execVcvt x s
  | .vfredsum x => Sys2Proof.Machine.execVfredsum x s
  | .vbfly x => Sys2Proof.Machine.execVbfly x s
  | .vamax x => Sys2Proof.Machine.execVamax x s
  | .vqbfp x => Sys2Proof.Machine.execVqbfp x s
  | .vdqbfp x => Sys2Proof.Machine.execVdqbfp x s
  | .vqsc x => Sys2Proof.Machine.execVqsc x s
  | .cbld x => Sys2Proof.Machine.execCbld x s
  | .cbst x => Sys2Proof.Machine.execCbst x s
  | .cbinv x => Sys2Proof.Machine.execCbinv x s
  | .vcbx x => Sys2Proof.Machine.execVcbx x s
  | .vcbq x => Sys2Proof.Machine.execVcbq x s
  | .tzero x => Sys2Proof.Machine.execTzero x s
  | .opa x => Sys2Proof.Machine.execOpa x s
  | .opas x => Sys2Proof.Machine.execOpas x s
  | .tlds x => Sys2Proof.Machine.execTlds x s
  | .tsts x => Sys2Proof.Machine.execTsts x s
  | .trowv x => Sys2Proof.Machine.execTrowv x s
  | .tvrow x => Sys2Proof.Machine.execTvrow x s
  | .tscale x => Sys2Proof.Machine.execTscale x s
  | .elementGroup h => Sys2Proof.Machine.execElementGroup h s
  | .xEntryCompletion h => Sys2Proof.Machine.execXEntryCompletion h s
  | .yieldHintEnd h => Sys2Proof.Machine.execYieldHintEnd h s
  | .queueDeadlock h => Sys2Proof.Machine.execQueueDeadlock h s
  | .yieldPauseEnd h => Sys2Proof.Machine.execYieldPauseEnd h s
  | .elementArrival h q e n corrected => Sys2Proof.Machine.execElementArrival h q e n corrected s
  | .leaseExpiry h => Sys2Proof.Machine.execLeaseExpiry h s
  | .engineCompletion l k t => Sys2Proof.Machine.execEngineCompletion l k t s
  | .nearMemoryUpdate h n => Sys2Proof.Machine.execNearMemoryUpdate h n s
  | .sfpoolBagArrival h q e b => Sys2Proof.Machine.execSfpoolBagArrival h q e b s
  | .peerStoreAck n => Sys2Proof.Machine.execPeerStoreAck n s
  | .queueMap p => Sys2Proof.Machine.execQueueMap p s
  | .unmapStart p => Sys2Proof.Machine.execUnmapStart p s
  | .unmapComplete p slot => Sys2Proof.Machine.execUnmapComplete p slot s
  | .recordTake p slot => Sys2Proof.Machine.execRecordTake p slot s
  | .placement p => Sys2Proof.Machine.execPlacement p s
  | .sliceTick p => Sys2Proof.Machine.execSliceTick p s
  | .sliceExpiry l => Sys2Proof.Machine.execSliceExpiry l s
  | .preemptionHalt l => Sys2Proof.Machine.execPreemptionHalt l s
  | .contextSave l => Sys2Proof.Machine.execContextSave l s
  | .resumption p => Sys2Proof.Machine.execResumption p s
  | .launchCompletion l => Sys2Proof.Machine.execLaunchCompletion l s
  | .watchdogPoll p answered => Sys2Proof.Machine.execWatchdogPoll p answered s
  | .vlWrite h => Sys2Proof.Machine.execVlWrite h s
  | .vlcapWrite h => Sys2Proof.Machine.execVlcapWrite h s
  | .teixWrite h => Sys2Proof.Machine.execTeixWrite h s
  | .tvecWrite h => Sys2Proof.Machine.execTvecWrite h s
  | .fflagsWrite h => Sys2Proof.Machine.execFflagsWrite h s
  | .ptbaseWrite h => Sys2Proof.Machine.execPtbaseWrite h s
  | .xWindowFree h => Sys2Proof.Machine.execXWindowFree h s
  | .queueEntryReady h => Sys2Proof.Machine.execQueueEntryReady h s
  | .xsyncDone h => Sys2Proof.Machine.execXsyncDone h s
  | .interlockWaitEnd h => Sys2Proof.Machine.execInterlockWaitEnd h s
  | .leaseGrant h => Sys2Proof.Machine.execLeaseGrant h s
  | .gongDeparture h => Sys2Proof.Machine.execGongDeparture h s
  | .waitiSatisfied h => Sys2Proof.Machine.execWaitiSatisfied h s
  | .twaitReturn h => Sys2Proof.Machine.execTwaitReturn h s
  | .engineIssue h => Sys2Proof.Machine.execEngineIssue h s
  | .bankWriteWaitEnd h => Sys2Proof.Machine.execBankWriteWaitEnd h s
  | .nbfenceDone h => Sys2Proof.Machine.execNbfenceDone h s
  | .exitRetire h => Sys2Proof.Machine.execExitRetire h s
  | .acwaitReturn h => Sys2Proof.Machine.execAcwaitReturn h s
  | .peerRequest r => Sys2Proof.Machine.execPeerRequest r s
  | .postedStoreRejected n => Sys2Proof.Machine.execPostedStoreRejected n s
  | .peerAcceptance h a => Sys2Proof.Machine.execPeerAcceptance h a s
  | .clredResult p gid n cs memberFault => Sys2Proof.Machine.execClredResult p gid n cs memberFault s
  | .linkReplay x => Sys2Proof.Machine.execLinkReplay x s
  | .spokeLinkFailure link users => Sys2Proof.Machine.execSpokeLinkFailure link users s
  | .saddlebagLinkFailure port => Sys2Proof.Machine.execSaddlebagLinkFailure port s
  | .notifyWrite p off bytes => Sys2Proof.Machine.execNotifyWrite p off bytes s
  | .serverRdmaWrite p va bytes => Sys2Proof.Machine.execServerRdmaWrite p va bytes s
  | .watchdogExpiry p => Sys2Proof.Machine.execWatchdogExpiry p s
  | .powerOn f => Sys2Proof.Machine.execPowerOn f s
  | .powerLoss => Sys2Proof.Machine.execPowerLoss s
  | .throttle cycles => Sys2Proof.Machine.execThrottle cycles s
  | .thermalShutdown => Sys2Proof.Machine.execThermalShutdown s
  | .ident c => Sys2Proof.Machine.execIdent s c
  | .reset c f => Sys2Proof.Machine.execReset c f s
  | .partition c => Sys2Proof.Machine.execPartition c s
  | .load c => Sys2Proof.Machine.execLoad c s
  | .start c => Sys2Proof.Machine.execStart c s
  | .stop c => Sys2Proof.Machine.execStop c s
  | .attest c => Sys2Proof.Machine.execAttest c s
  | .counters c => Sys2Proof.Machine.execCounters c s
  | .thermal c watts => Sys2Proof.Machine.execThermal c watts s
  | .domain c id part members => Sys2Proof.Machine.execDomain c id part members s
  | .hostwin c a => Sys2Proof.Machine.execHostwin c a s
  | .keys c a => Sys2Proof.Machine.execKeys c a s
  | .unsupportedRdmaRequest eth => Sys2Proof.Machine.execUnsupportedRdmaRequest s eth

end Sys2Proof.Machine
end

