-- ==== Sys2Proof/Machine/Moves.lean ====
section
/-! DEFINITION. What a step does with the head of the agenda, and the round of moves that fills an empty one (log 1). -/

namespace Sys2Proof.Machine

open Sys2Proof

/-! ## The promise of a lease (R370) -/

/-- Every one of n bytes from an address lies in the leased row line. -/
def Lease.covers (l : Lease) (a n : Nat) : Bool := a / 64 == l.vline && (a + n - 1) / 64 == l.vline
/-- The instruction is of a kind that R370 lets stand in the slots after a LEASE: of group 0x1, BR, or a scalar access or STLC to
the leased row line. An access that crosses a line is not one to the leased line (log 13). -/
def underLease (h : Hart) (l : Lease) (i : Instr) : Bool :=
  let on (b : SReg) (off : BitVec 32) (n : Nat) : Bool := l.covers (effAddr h b off) n
  match i with
  | .br _ => true
  | .ldb x | .ldbs x => on x.b x.off 1
  | .ldh x | .ldhs x => on x.b x.off 2
  | .ldw x | .ldws x => on x.b x.off 4
  | .ldd x => on x.b x.off 8
  | .stb x => on x.b x.off 1
  | .sth x => on x.b x.off 2
  | .stw x => on x.b x.off 4
  | .std x => on x.b x.off 8
  | .stlc x => l.covers (effAddr h x.b x.off) (2 ^ x.z.toNat)
  | i => (fieldsOf i).any fun f => f.opc.toNat / 256 == 1

/-- n more of the promised slots of a hart's leases are executed; where `keep` fails, the promise ends. -/
def spend (s : State) (hid : HartId) (n : Nat) (keep : Lease → Bool) : State :=
  if (s.hart hid).leases.isEmpty then s
  else s.updHart hid fun h => { h with leases := h.leases.map fun l => { l with promise := if keep l then l.promise - n else 0 } }
/-- A hart has found instruction i: the slots passed up to it count, once, among those that its leases promise. `t` is the state after
the fetch. -/
def countSlots (s t : State) (hid : HartId) (i : Instr) : State :=
  let h := s.hart hid
  let n := if h.wait.isSome then 0 else (t.hart hid).pc % 64 / 12 + 1 - h.pc % 64 / 12
  spend t hid n fun l => underLease h l i
/-- It has found none: the rest of the line was empty, or it has left its place. -/
def countLine (s t : State) (hid : HartId) : State :=
  let h := s.hart hid
  spend t hid (5 - h.pc % 64 / 12) fun _ => (t.hart hid).pc == h.pc / 64 * 64 + 64

/-- A posted store to this module that the hart's domain-scope releases wait for is held up by a lease of another hart, which ends only
with the clock. -/
def postedStuck (s : State) (hid : HartId) : Bool :=
  (s.before hid).any fun p => p.mod.isSome && p.mod == s.md.modId
    && (peerKeys s p.pa p.bytes.length).any fun ks => (keysLeased s (some p.h) true ks).isSome
/-- The hart goes on without a cycle passing: it waits for nothing, or for the acknowledgement of posted stores that no lease holds up. In
the promised slots it waits for nothing else, since its LEASE has waited for all that (R237). -/
def goesOn (s : State) (hid : HartId) (h : Hart) : Bool := match h.wait with
  | none => true
  | some .posted => !postedStuck s hid
  | _ => false
/-- The ends of the leases whose promise holds the clock: the hart can issue, goes on, and has slots left. -/
def promisedEnds (s : State) : List Nat :=
  s.harts.flatMap fun (id, h) =>
    if h.leases.isEmpty || !goesOn s id h || !canIssue s id then [] else ((h.heldLeases s).filter (0 < ·.promise)).map (·.until_)

/-! ## Moves -/

/-- The A side of a hart takes the slot at its position: fetch, decode, execute. -/
def issue (s : State) (hid : HartId) : Host.Outcome State Fault Refusal :=
  let s := { s with cur := hid }
  if canIssue s hid then
    match fetch s hid with
    | .run t i => exec i (countSlots s t hid i)
    | .ended t => .next (close s (countLine s t hid))
  else .next s

/-- Cycles pass, up to n of them as far as leases promise slots (R370), and the counts of R120 with them. -/
def pass (s : State) (n : Nat) : State :=
  let c := max s.cycle ((promisedEnds s).foldl (fun c e => min c (e - 1)) (s.cycle + n))
  { s with cycle := c,
           harts := s.harts.map fun (id, h) => if bothBlocked s id then (id, { h with blocked := h.blocked + (c - s.cycle) }) else (id, h) }

/-- The unit lies in a segment that is not live: an error in it is in no byte that a read needs (R287). -/
def deadUnit (s : State) (u : Nat) : Bool :=
  s.notLive.any fun x => (hbmAddr (s.part x.1).dies u).any fun a => a / 2097152 == x.2
/-- A check unit takes an uncorrectable error (R372). -/
def upset (s : State) (key : Nat) : State := if deadUnit s (unitOf key) then s else { s with bad := unitOf key :: s.bad }
/-- A check unit of an L2 slice takes one, in its copy of a byte of global memory. -/
def upsetL2 (s : State) (key : Nat) : State :=
  if key < poolBase && !deadUnit s key then { s with badL2 := key / 8 * 8 :: s.badL2 } else s
/-- A slice gives up the clean copy that holds one. -/
def dropL2 (s : State) (key : Nat) : State := { s with badL2 := s.badL2.filter (· != key / 8 * 8) }
/-- A check unit of a core's cache region takes one, in its copy of a byte of global memory. -/
def upsetL1 (s : State) (l k key : Nat) : State :=
  if s.cores.any (·.1 == (l, k)) && key < poolBase && !deadUnit s key then { s with badL1 := ((l, k), key / 8 * 8) :: s.badL1 } else s
/-- A cache region gives up the clean copy of a line that holds one. -/
def dropL1 (s : State) (l k key : Nat) : State :=
  if mayDirty s key (· == l) then s else { s with badL1 := s.badL1.filter fun x => !(x.1 == (l, k) && x.2 / 64 == key / 64) }
/-- The partition whose memory holds a key. -/
def keyPart (s : State) (key : Nat) : Option Nat := (s.parts.find? fun x => (keyAddr x.2.dies key).isSome).map (·.1)
/-- A dirty copy of the line of a key, if there is one, is written back and stays (R233, R372). -/
def writeBack (s : State) (key : Nat) : State :=
  match recallLines s true true true [key] with
  | (s, false) => s
  | (s, true) => match keyPart s key with
    | some p => deviceFault s p 1
    | none => s
/-- A slice frees a line of a handle of priority 1 or more: the handle's priority falls to 0 (R286). -/
def evict (s : State) (l : Nat) (i : BitVec 8) : State :=
  if s.launches.any (·.1 == l) then
    s.setLaunch l { s.launch l with handles := (s.launch l).handles.map fun x => if x.1 == i then (x.1, { x.2 with prio := 0 }) else x }
  else s

/-- Change a hart that exists. -/
def onHart (s : State) (id : HartId) (f : Hart → Hart) : State := if s.harts.any (·.1 == id) then s.updHart id f else s
/-- A window entry after a soft error: another instruction of the X side, other captured values, other progress; what binds it to its
hart's order stays. -/
def XEntry.hit (x v : XEntry) : XEntry :=
  { v with i := if (xdef v.i).isSome then v.i else x.i, seq := x.seq, banks := x.banks, skips := x.skips, begun := x.begun, old := x.old }
/-- A byte of a destination of the command lies at a key. -/
def engReaches (s : State) (l k : Nat) (e : Engine) (key : Nat) : Bool :=
  (rangeAddrs e.op.dest).any fun a => engKey s l k e.dPool e.dPages a == key
/-- A soft error where no check stands (R362). An engine's staging buffer changes a byte of the command that now completes. -/
def softError (s : State) : Soft → State
  | .xq id i v => onHart s id fun h => { h with xq := h.xq.mapIdx fun j x => if j = i then v else x }
  | .lq id q e v => onHart s id fun h => { h with lq := h.lq.set q.toNat ((h.lq[q.toNat]'(q.isLt)).mapIdx fun j x => if j = e then { x with data := v } else x) (q.isLt) }
  | .sq id q e v => onHart s id fun h => { h with sq := h.sq.set q.toNat ((h.sq[q.toNat]'(q.isLt)).mapIdx fun j x => if j = e then { x with data := v } else x) (q.isLt) }
  | .tile l k t v => if s.cores.any (·.1 == (l, k)) then s.updCore l k fun c => { c with tiles := c.tiles.setIfInBounds t v } else s
  | .window id e v => onHart s id fun h => { h with win := h.win.mapIdx fun j x => if j = e then x.hit v else x }
  | .staging key b =>
    match (s.cores.flatMap fun x => x.2.engines.map fun e => (x.1, e)).find? fun x => engReaches s x.1.1 x.1.2 x.2 key with
    | none => s
    | some (k, e) =>
      let t := engComplete s k.1 k.2 e.tag
      if t.launches.any (·.1 == k.1) && !(t.core k.1 k.2).engines.any (·.tag == e.tag) then t.poke key b else t
  | .scalar id r v => onHart s id (·.setS r v)
  | .pred id r b => onHart s id (·.setP r b)
  | .vector id r v => onHart s id fun h => { h with v := h.v.set r.toNat v (r.isLt) }
  | .mask id r v => onHart s id (·.setMr r v)

/-- The line that a hart has fetched has changed: the one it has entered, or the one that it enters next (R43, R362, log 19). -/
def upsetLine (s : State) (hid : HartId) (v : Line) : State :=
  let h := s.hart hid
  if h.phase != .running then s
  else match h.line with
    | some (a, _) => s.setHart hid { h with line := some (a, v) }
    | none => match readLine s hid (h.pc / 64 * 64) with
      | (s, .line _) => s.updHart hid fun h => { h with line := some (h.pc / 64 * 64, v) }
      | (_, _) => s

/-- The bytes of global memory of this module that an atomic of the current hart writes at an address. -/
def atomKeys (s : State) (a w : Nat) : List Nat :=
  match check67 s s.cur .both a w with
  | (s, .ok pgs) => orderKeys s s.cur pgs a w
  | (_, .error _) => []
/-- The bytes that the arithmetic of the current hart's instruction writes, of a VAMO those of elements up to n. -/
def instrKeys (s : State) (i : Instr) (n : Nat) : List Nat :=
  let h := s.me
  let scalar (g : Guards) (b : SReg) (off : BitVec 29) (w : Nat) : List Nat := if h.guards g then atomKeys s (effAddr h b off) w else []
  match i with
  | .aadd x | .aand x | .aor x | .axor x | .amin x | .amax x | .aswp x => scalar x.g x.b x.off (if x.dbl then 8 else 4)
  | .acas x => scalar x.g x.b x.off (if x.dbl then 8 else 4)
  | .afadd x => scalar x.g x.b x.off 4
  | .vamo x =>
    let w := if x.dbl then 8 else 4
    if h.guards x.g then (List.range (n - h.eix)).flatMap fun j =>
      atomKeys s (wrap 64 ((h.s x.b).toInt + ((headSq h x.i 0).index (h.eix + j) * w : Nat))) w
    else []
  | _ => []
/-- The bytes of memory that arithmetic has written in a step from s to t (R254, R292, R324). -/
def arithKeys (s t : State) : Arith → List Nat
  | .issue hid => match fetch { s with cur := hid } hid with
    | .run u i =>
      let h := s.hart hid
      let x := t.hart hid
      let trapped : Bool := x.sup != h.sup || x.nest != h.nest
      if !t.harts.any (·.1 == hid) then []
      else match i with
        | .vamo _ => instrKeys u i (if trapped then x.teix.toNat else if x.pc = (u.hart hid).pc then x.eix else h.vl.toNat)
        | _ => if trapped || x.pc == (u.hart hid).pc then [] else instrKeys u i 0
    | .ended _ => []
  | .event (.nearMemoryUpdate hid n) =>
    match (s.hart hid).nb[n]? with
    | some i =>
      if t.harts.any (·.1 == hid) && decide ((t.hart hid).nb.length < (s.hart hid).nb.length) then
        i.locs.flatMap fun x => x.1.keys s (s.partOf hid) x.2
      else []
    | none => []
  | .event (.peerRequest r) => match r.op, t.md.sent.head? with
    | .atom _ dbl _ _, some (.peerReply _ (.accept _)) =>
      if s.md.sent.length < t.md.sent.length then (peerKeys s r.pa.toNat (if dbl then 8 else 4)).getD [] else []
    | _, _ => []
  | .event (.clredResult p gid n cs _) => match (s.part p).clreds.find? fun o => o.gid == gid && o.e == n with
    | some o =>
      let bs := clredValue (o.c :: cs.filter (·.rank != o.c.rank)) o.c
      let ks := keysOf s p o.pages o.d bs.length
      if !o.pages.isEmpty && !(t.part p).clreds.contains o && ks.map t.peek == bs then ks else []
    | none => []
  | .event _ => []
/-- A soft error in the arithmetic of a slice, a buffer chip, a near-memory unit or a collective, whose results land in memory: of the
bytes that it writes, those of `hits` are others (R362). -/
def arithHit (s : State) (hits : List (Nat × Byte)) (a : Arith) (t : State) : State :=
  let ops := (hits.filter fun x => (arithKeys s t a).contains x.1).map fun x => MemOp.put x.1 x.2
  let m := t.mem.commit ops
  { t with mem := m, old := noteStep s.mem m s.epoch ops t.old }
/-- The operation, with such an error. -/
def runArith (s : State) (hits : List (Nat × Byte)) (a : Arith) : Host.Outcome State Fault Refusal :=
  let r := match a with
    | .issue hid => issue s hid
    | .event e => exec e s
  match r with
  | .next t => .next (arithHit s hits a t)
  | .fault f => .fault f
  | .refused f => .refused f

def runMove (s : State) : Move → Host.Outcome State Fault Refusal
  | .issue h => issue s h
  | .event e => exec e s
  | .pass n => .next (pass s n)
  | .upset u => .next (upset s u)
  | .upsetL2 k => .next (upsetL2 s k)
  | .dropL2 k => .next (dropL2 s k)
  | .upsetL1 l k a => .next (upsetL1 s l k a)
  | .dropL1 l k a => .next (dropL1 s l k a)
  | .writeBack k => .next (close s (writeBack s k))
  | .transfer l k t dst => .next (close s (engMove s l k t dst))
  | .command => .next (commandsGo s)
  | .corrected x => .next (corrected s x)
  | .soft e => .next (close s (softError s e))
  | .upsetLine h v => .next (close s (upsetLine s h v))
  | .arith a hits => runArith s hits a
  | .evict l i => .next (evict s l i)

/-! ## A round -/

/-- What may happen on the X side and in the queues of a hart. -/
def hartMoves (id : HartId) (h : Hart) : List Move :=
  let arrivals := (List.range 4).flatMap fun q =>
    let l := h.lq.toList.getD q []
    (List.range l.length).flatMap fun e =>
      let x := l.getD e {}
      match x.pool with
      | none => x.flight.map fun f => .event (.elementArrival id (BitVec.ofNat 2 q) e f.1 none)
      | some pl => pl.left.map fun b => .event (.sfpoolBagArrival id (BitVec.ofNat 2 q) e b)
  arrivals ++ [.event (.elementGroup id), .event (.xEntryCompletion id), .event (.nearMemoryUpdate id 0), .event (.queueDeadlock id),
    .event (.leaseExpiry id), .event (.yieldPauseEnd id), .event (.yieldHintEnd id)]
/-- What a partition's scheduler may do. -/
def partMoves (p : Nat) : List Move :=
  let slots := List.range 64
  [.event (.sliceTick p), .event (.queueMap p), .event (.unmapStart p)] ++ slots.map (fun i => .event (.unmapComplete p i))
    ++ slots.map (fun i => .event (.recordTake p i)) ++ [.event (.placement p), .event (.resumption p), .event (.watchdogPoll p true)]
def launchMoves (l : Nat) : List Move :=
  [.event (.sliceExpiry l), .event (.preemptionHalt l), .event (.contextSave l), .event (.launchCompletion l)]

/-- The moves of one round: a cycle passes, every hart issues, and everything the module does of itself is tried. What comes
from outside (requests, answers, the server's writes and commands, failures, errors) is put on the agenda by whoever stands
outside. -/
def round (s : State) : List Move :=
  .pass 1 :: (s.harts.map (fun x => .issue x.1) ++ s.harts.flatMap (fun x => hartMoves x.1 x.2)
    ++ s.cores.flatMap (fun x => x.2.engines.map fun e => .event (.engineCompletion x.1.1 x.1.2 e.tag))
    ++ (s.posted.filter fun x => x.mod.isSome && x.mod == s.md.modId).map (fun x => .event (.peerStoreAck x.id))
    ++ s.launches.flatMap (fun x => launchMoves x.1) ++ s.parts.flatMap (fun x => partMoves x.1)
    ++ s.md.waiting.map fun _ => .command)

end Sys2Proof.Machine
end

