-- ==== Sys2Proof/Machine/Loading.lean ====
section
/-! DEFINITION. A line of one instruction placed where a hart fetches it, with the page tables, partition, launch and
hart that the fetch needs (log 7). -/

namespace Sys2Proof.Machine

open Sys2Proof

/-- The line word of a line whose slots 0 and 1 have these templates and whose other slots are empty (R40). -/
def placeLine (t0 t1 : Nat) (slots : Nat) : Line :=
  let l : Line := BitVec.ofNat 512 (slots + 2 ^ 480 * (2 ^ 14 * (t0 + 4 * t1 + 16 * 63)))
  l ||| (((lineParity l).zeroExtend 512) <<< (504 : Nat))

/-- A word of at most 96 bits in slot 0, or an extension in slot 0 and its instruction in slot 1. -/
def instrLine (nbits w : Nat) : Line :=
  let word := if nbits ≤ 96 then w % 2 ^ 96 else w / 2 ^ 96 % 2 ^ 96
  let side := if 6 ≤ word / 2 ^ 92 then 1 else 0
  if nbits ≤ 96 then placeLine side 3 word else placeLine 2 side (w % 2 ^ 192)

/-- A number's bytes at consecutive keys. -/
def Memory.puts (m : Memory) (k : Nat) : List Byte → Memory
  | [] => m
  | b :: t => Memory.puts (m.write k b) (k + 1) t

/-- R279: V and K with the frame of the next table. -/
def tableEntry (page : Nat) : Nat := 2 ^ 26 * page + 3
/-- V, R, X, U and C with the frame. -/
def textEntry (page : Nat) : Nat := 2 ^ 26 * page + 0x75

/-- A partition of die 0 with its page tables at HBM addresses 0, 0x1_0000 and 0x2_0000, a text page at virtual address
0, a launch of one core and one hart in user mode at the line, and the next move that hart's issue. -/
def placeInstr (s : State) (nbits w : Nat) : State :=
  let key (a : Nat) := hbmKey 1 a
  let m := s.mem.puts (key 0) (toBytes 8 (tableEntry 1))
  let m := m.puts (key 0x10000) (toBytes 8 (tableEntry 2))
  let m := m.puts (key 0x20000) (toBytes 8 (textEntry 3))
  let m := m.puts (key 0x30000) (toBytes 64 (instrLine nbits w).toNat)
  let l := s.nextLaunch
  let h : Hart := { Hart.idle with phase := .running, lanes := 1, vlcap := 512 }
  { s with
    mem := m
    md := { s.md with power := .ready, throttleEnd := Vector.replicate 4 0 }
    parts := tput s.parts 0 { Part.idle with dies := 1, started := true }
    launches := tput s.launches l { Launch.idle with phase := .running }
    cores := tput s.cores (l, 0) Core.idle
    harts := tput s.harts ⟨l, 0, 0⟩ h
    nextLaunch := l + 1
    agenda := .issue ⟨l, 0, 0⟩ :: s.agenda }

end Sys2Proof.Machine
end

