-- ==== Sys2Proof/Machine/Step.lean ====
section
/-! DEFINITION. One step of the machine. -/

namespace Sys2Proof.Machine

open Sys2Proof

/-- One indivisible step: the head of the agenda, or, where the agenda is empty, the next round is put on it. -/
def step (s : State) : Host.Outcome State Fault Refusal :=
  match s.agenda with
  | m :: t => runMove { s with agenda := t } m
  | [] => .next { s with agenda := round s }

/-- The instruction whose word is w, where the next step fetches it. -/
def State.withFetchWord (s : State) (nbits w : Nat) : State := placeInstr s nbits w

end Sys2Proof.Machine
end

