-- ==== Sys2Proof/Safety.lean ====
section
/-! DEFINITION. What a safe state and a safe run are, in the terms the statements use. -/

namespace Sys2Proof.Machine

open Sys2Proof

/-- Memory is in canonical form and no operation is left over from a step. -/
def State.Sound (s : State) : Prop := s.mem.wf ∧ s.wbuf = []

/-- The states reached by n steps, where none stops. -/
def Runs : Nat → State → State → Prop
  | 0, s, t => s = t
  | n + 1, s, t => ∃ u, step s = .next u ∧ Runs n u t

end Sys2Proof.Machine
end

