-- ==== Sys2Proof/Certificates/Slice0/Obligations.lean ====
section
/-! DEFINITION. The statements for the provers, and the words they are made of. -/

namespace Sys2Proof.Claims

open Sys2Proof Sys2Proof.Machine

/-! ## States and frames -/

/-- The current hart runs, and no memory operation is left from an earlier step. -/
def Live (s : State) : Prop := s.me.phase = .running ∧ s.wbuf = []
def UserMode (s : State) : Prop := Live s ∧ s.me.sup = false
def SupMode (s : State) : Prop := Live s ∧ s.me.sup = true

/-- Only the current hart differs: every byte of memory, every other hart, every core, launch and partition is as before. -/
def OnlyMe (s t : State) : Prop := t = { s with harts := t.harts } ∧ ∀ g, g ≠ s.cur → t.hart g = s.hart g

/-- Posted stores not yet acknowledged that the hart's next release of domain scope waits for: its own, and those that happen before
it (R314, R335). -/
def Behind (s : State) (p : Posted) : Prop := p ∈ s.posted ∧ (p.h = s.cur ∨ p.id ∈ s.me.seen)

/-- A pooled lookup of the hart has rows to read still, and F holds of it (R308, R335). -/
def RowsLeft (h : Hart) (F : Pool → Prop) : Prop :=
  ∃ q : LQ, ∃ e ∈ h.lq[q.toNat]'(q.isLt), ∃ p, e.pool = some p ∧ p.left ≠ [] ∧ F p

/-- Only hart `id` differs. -/
def OnlyHart (id : HartId) (s t : State) : Prop := t = { s with harts := t.harts } ∧ ∀ g, g ≠ id → t.hart g = s.hart g

/-- u is s with what a translation may leave: free choices drawn, and reads of not-live segments counted (R284, R287). -/
def Walked (s u : State) : Prop := u = { s with fresh := u.fresh, md := { s.md with notLiveReads := u.md.notLiveReads } }

/-- Beside what a translation may leave, only the current hart differs: every byte of memory is as before. -/
def OnlyMeWalked (s t : State) : Prop :=
  t = { s with harts := t.harts, fresh := t.fresh, md := { s.md with notLiveReads := t.md.notLiveReads } }
    ∧ ∀ g, g ≠ s.cur → t.hart g = s.hart g

/-- Only the current hart and its core differ. -/
def OnlyMyCore (s t : State) : Prop :=
  t = { s with harts := t.harts, cores := t.cores } ∧ (∀ g, g ≠ s.cur → t.hart g = s.hart g)
    ∧ ∀ l k, (l, k) ≠ (s.cur.l, s.cur.k) → t.core l k = s.core l k

/-- What the end of an A-side instruction does to its hart: the position is `pc`, nothing is awaited, and the instruction
counts in user mode (R45, R104, R106). -/
def Retires (h h' : Hart) (pc : Nat) : Prop :=
  h'.pc = pc ∧ h'.eix = 0 ∧ h'.wait = none ∧ h'.icount = if h.sup then h.icount else h.icount + 1

/-- h with the position and the count of h', and with what h' records of the instruction in progress (its line, wait,
answers, claims, skipped elements, arrival, and the count of R120). -/
def stepped (h h' : Hart) : Hart :=
  { h with pc := h'.pc, eix := h'.eix, line := h'.line, wait := h'.wait, answers := h'.answers, icount := h'.icount,
           claim := h'.claim, askips := h'.askips, blocked := h'.blocked, arrived := h'.arrived }

/-- The instruction completes at s, changes nothing but its hart, which takes the slot at `pc` next and is otherwise as P
says. -/
def Ends (i : Instr) (s : State) (pc : Nat) (P : Hart → Prop) : Prop :=
  ∃ t, exec i s = .next t ∧ OnlyMe s t ∧ Retires s.me t.me pc ∧ P t.me

/-- Scalar registers alone have changed: d holds v (s0 still reads as zero, R121). -/
def HoldsS (h : Hart) (d : SReg) (v : Dbl) (h' : Hart) : Prop :=
  h' = { stepped h h' with x := h'.x } ∧ ∀ r, h'.s r = if r = d ∧ d ≠ 0 then v else h.s r
/-- Predicates alone have changed: d holds b (p0 still reads as true, R121). -/
def HoldsP (h : Hart) (d : PReg) (b : Bool) (h' : Hart) : Prop :=
  h' = { stepped h h' with p := h'.p } ∧ ∀ r, h'.pr r = if r = d ∧ d ≠ 0 then b else h.pr r

/-- The instruction completes with v in scalar d and nothing else changed. -/
def WritesS (i : Instr) (s : State) (d : SReg) (v : Dbl) : Prop := Ends i s (nextSlot s.me.pc) (HoldsS s.me d v)
/-- The instruction completes with b in predicate d and nothing else changed. -/
def WritesP (i : Instr) (s : State) (d : PReg) (b : Bool) : Prop := Ends i s (nextSlot s.me.pc) (HoldsP s.me d b)
/-- The instruction completes and has no effect. -/
def Skips (i : Instr) (s : State) : Prop := Ends i s (nextSlot s.me.pc) fun h => h = stepped s.me h

/-! ## Traps (R345) -/

/-- The hart has taken a trap at element `eix`; `aeix` is the A side's element index where the X side trapped. -/
def TrapTaken (h h' : Hart) (xside : Bool) (cause : Nat) (val : Dbl) (eix aeix : Nat) : Prop :=
  h'.tcause = BitVec.ofNat 8 cause ∧ h'.tside = xside ∧ h'.tpc = BitVec.ofNat 64 (h.pc % 2 ^ 55)
    ∧ h'.teix = BitVec.ofNat 14 eix ∧ h'.tval = val ∧ h'.aeix = BitVec.ofNat 14 aeix ∧ h'.tpm = h.sup
    ∧ h'.txw = BitVec.ofNat 6 h.win.length ∧ h'.sup = true ∧ h'.pc = h.tvec.toNat ∧ h'.eix = 0 ∧ h'.wait = none
    ∧ h' = { h with tcause := h'.tcause, tside := xside, tpc := h'.tpc, teix := h'.teix, tval := val, aeix := h'.aeix,
                    tpm := h'.tpm, txw := h'.txw, sup := true, pc := h'.pc, eix := 0, line := none, wait := none,
                    pause := h'.pause, answers := h'.answers, stopT := h'.stopT, boundT := h'.boundT, stopA := h'.stopA,
                    boundA := h'.boundA, nest := h'.nest, xstop := false }

/-- The instruction takes this trap on the A side, at this element, and has no other effect. -/
def TrapsAt (i : Instr) (s : State) (cause : Nat) (val : Dbl) (eix : Nat) : Prop :=
  ∃ t, exec i s = .next t ∧ OnlyMe s t ∧ TrapTaken s.me t.me false cause val eix 0
/-- The same at element 0. -/
def Traps (i : Instr) (s : State) (cause : Nat) (val : Dbl) : Prop := TrapsAt i s cause val 0

/-- Bits 95:32 of an instruction's word. -/
def highBits (i : Instr) : Dbl := match encode i with
  | some (_, w) => (w >>> (32 : Nat)).setWidth 64
  | none => 0

/-! ## Guards and sides -/

/-- The guards of an A-side instruction; none for an X-side instruction or an event. -/
def aGuards : Instr → Option Guards
  | .nop x | .ret x | .eret x | .exit x | .xsync x | .nbfence x => some x.g
  | .br x | .call x | .trap x | .bkpt x => some x.g
  | .jmp x => some x.g
  | .strip x => some x.g
  | .vsetl x => some x.g
  | .yield x => some x.g
  | .csrr x => some x.g
  | .csrw x | .csrset x | .csrclr x => some x.g
  | .fence x => some x.g
  | .tlbinv x => some x.g
  | .setbnd x => some x.g
  | .add x | .sub x | .mul x | .mulh x | .div x | .rem x | .and x | .or x | .xor x | .andn x | .shl x | .shr x | .sra x
  | .min x | .minu x => some x.g
  | .addi x | .muli x | .mulhu x | .divu x | .remu x | .andi x | .ori x | .xori x | .shli x | .shri x | .srai x | .max x
  | .maxu x => some x.g
  | .clz x | .ctz x | .popc x | .mov x => some x.g
  | .sext x | .zext x => some x.g
  | .movi x => some x.g
  | .moviX x => some x.g
  | .sel x => some x.g
  | .cmp x => some x.g
  | .cmpi x => some x.g
  | .plog x => some x.g
  | .lea x => some x.g
  | .hashs x => some x.g
  | .ldb x | .ldh x | .ldw x | .ldd x | .ldbs x | .ldhs x | .ldws x => some x.g
  | .stb x | .sth x | .stw x | .std x => some x.g
  | .aadd x | .aand x | .aor x | .axor x | .amin x | .amax x | .aswp x => some x.g
  | .acas x => some x.g
  | .afadd x => some x.g
  | .lease x => some x.g
  | .unlease x => some x.g
  | .stlc x => some x.g
  | .cflush x | .cinv x => some x.g
  | .cpref x => some x.g
  | .vld x | .vldff x => some x.g
  | .vldx x => some x.g
  | .vldsc x | .vlds x => some x.g
  | .vst x => some x.g
  | .vstx x => some x.g
  | .vstsc x | .vsts x => some x.g
  | .vldsx x => some x.g
  | .vstsx x => some x.g
  | .vamo x => some x.g
  | .popx x => some x.g
  | .qdrop x => some x.g
  | .pcopy x => some x.g
  | .pdec x => some x.g
  | .pfill x => some x.g
  | .twaitany x => some x.g
  | .twaitall x | .tclr x => some x.g
  | .tfind x => some x.g
  | .nbadd x => some x.g
  | .nbopt x => some x.g
  | .sfpool x => some x.g
  | .rhopen x => some x.g
  | .rhprio x => some x.g
  | .rhevict x | .rhclose x => some x.g
  | .gong x => some x.g
  | .post x | .waiti x => some x.g
  | .qnotify x => some x.g
  | .acset x => some x.g
  | .acwait x => some x.g
  | .clred x => some x.g
  | _ => none

/-- A-side instructions that keep an element index (R110). -/
def elementWise : Instr → Bool
  | .vld _ | .vldff _ | .vldx _ | .vldsc _ | .vst _ | .vstx _ | .vstsc _ | .vlds _ | .vsts _ | .vldsx _ | .vstsx _
  | .vamo _ | .nbadd _ | .nbopt _ | .sfpool _ | .qdrop _ | .clred _ => true
  | _ => false
/-- A CSR whose number is 0x100 to 0x1FF (R124, R343). -/
def isTrapCsr : Csr → Bool
  | .tvec | .tcause | .tside | .tpc | .teix | .tval | .tstat | .tscratch | .txw | .ptbase | .savearea => true
  | _ => false
/-- Instructions of supervisor mode alone (R55, R124). -/
def needsSup : Instr → Bool
  | .eret _ | .setbnd _ | .tlbinv _ => true
  | .csrr x => isTrapCsr x.c
  | .csrw x | .csrset x | .csrclr x => isTrapCsr x.c
  | _ => false
/-- A-side instructions that name a queue, and XSYNC: illegal in supervisor mode where their guards hold (R48, R346). -/
def needsUser : Instr → Bool
  | .xsync _ | .vld _ | .vldff _ | .vldx _ | .vldsc _ | .vst _ | .vstx _ | .vstsc _ | .vlds _ | .vsts _ | .vldsx _ | .vstsx _
  | .vamo _ | .popx _ | .qdrop _ | .nbadd _ | .nbopt _ | .sfpool _ => true
  | _ => false

/-! ## Scalar values (R131 to R134), as the rules give them -/

/-- The third operand of an immediate form: sign-extended, or the extension's 64 bits. -/
def thirdS : Imm → Dbl
  | .imm i => i.signExtend 64
  | .ext v => v
/-- The same, zero-extended. -/
def thirdU : Imm → Dbl
  | .imm i => i.setWidth 64
  | .ext v => v
/-- The conditions of CMP and CMPI. -/
def condHolds (c : Cond) (a b : Dbl) : Bool :=
  match c with
  | .eq => decide (a = b)
  | .ne => decide (a ≠ b)
  | .lt => decide (a.toInt < b.toInt)
  | .ge => decide (b.toInt ≤ a.toInt)
  | .ltu => decide (a.toNat < b.toNat)
  | .geu => decide (b.toNat ≤ a.toNat)
  | .gt => decide (b.toInt < a.toInt)
  | .le => decide (a.toInt ≤ b.toInt)
  | .gtu => decide (b.toNat < a.toNat)
  | .leu => decide (a.toNat ≤ b.toNat)
  | .tst => decide (a &&& b ≠ 0)
  | .tstn => decide (a &&& b = 0)
/-- One byte into the reflected CRC32C state (R134). -/
def crcByte (c b : BitVec 32) : BitVec 32 :=
  (List.range 8).foldl (fun c _ => if c.getLsbD 0 then (c >>> (1 : Nat)) ^^^ 0x82F63B78#32 else c >>> (1 : Nat)) (c ^^^ b)
/-- The low n bytes of b into the state, lowest byte first. -/
def crcOf (n : Nat) (c : BitVec 32) (b : Dbl) : BitVec 32 :=
  (List.range n).foldl (fun c j => crcByte c ((b.extractLsb' (8 * j) 8).setWidth 32)) c

end Sys2Proof.Claims

open Sys2Proof Sys2Proof.Machine Sys2Proof.Claims

/-! ## The step, the fetch and the decoder -/

/-- An event at the head of the agenda happens; an issue of a hart that may issue runs the instruction its position holds, with the
position at that instruction's slot (R42, R54, R104), after what R370 promises of its leases has been counted; cycles pass, and
none that would end a lease whose promise still holds (R370). What the fetch gives is LinesAreReadCheckedAndFetched's. The agenda and the
passage of cycles are the model's choice (log 1, 13). -/
def Obligations.StepRunsTheDecodedInstruction : Prop :=
  ∀ (s : State) (rest : List Move),
    (∀ e, s.agenda = .event e :: rest → Machine.step s = exec e { s with agenda := rest })
    ∧ (∀ h i t, s.agenda = .issue h :: rest → canIssue { s with agenda := rest, cur := h } h = true →
        fetch { s with agenda := rest, cur := h } h = .run t i →
        ∃ u, Machine.step s = exec i u ∧ OnlyHart h t u
          ∧ ∃ f : Sys2Proof.Machine.Lease → Nat, (∀ x, f x ≤ x.promise)
            ∧ u.hart h = { t.hart h with leases := (t.hart h).leases.map fun x => { x with promise := f x } })
    ∧ (∀ n, s.agenda = .pass n :: rest → ∃ t, Machine.step s = .next t ∧ t.mem = s.mem ∧ s.cycle ≤ t.cycle ∧ t.cycle ≤ s.cycle + n
        ∧ ((promisedEnds s).all (s.cycle + n < ·) = true → t.cycle = s.cycle + n) ∧ ∀ e ∈ promisedEnds s, t.cycle < e)

/-- Where the line at a hart's position has been entered and passes R43's checks, and slot k of it (the position's, or the one
after the extension there) decodes to i with the extension before it, the fetch gives i at that slot's address. The element index stays
where the position was that slot and i keeps one, and is 0 otherwise (R110, R348). -/
def Sys2Proof.Claims.FetchFindsInstruction : Prop :=
  ∀ (s : State) (h : HartId) (l : Line) (k : Nat) (i : Instr), isSlot (s.hart h).pc = true →
    (s.hart h).line = some ((s.hart h).pc / 64 * 64, l) → lineOk l = true → k < 5 → (tmpl l k).toNat < 2 →
    (k = (s.hart h).pc % 64 / 12 ∨ (k = (s.hart h).pc % 64 / 12 + 1 ∧ tmpl l ((s.hart h).pc % 64 / 12) = 2
        ∧ ((s.hart h).pc % 64 / 12 = 0 ∨ tmpl l ((s.hart h).pc % 64 / 12 - 1) ≠ 2))
      ∨ ((s.hart h).pc % 64 / 12 < k ∧ ∀ j, (s.hart h).pc % 64 / 12 ≤ j → j < k → tmpl l j = 3)) →
    decode (tmpl l k == 1) (if 0 < k ∧ tmpl l (k - 1) = 2 then some (slotWord l (k - 1)) else none) (slotWord l k) = .ok i →
    ∃ t, fetch s h = .run t i ∧ OnlyHart h s t
      ∧ t.hart h = { s.hart h with pc := (s.hart h).pc / 64 * 64 + 12 * k, line := some ((s.hart h).pc / 64 * 64, l),
                                   eix := if k = (s.hart h).pc % 64 / 12 ∧ elementWise i = true then (s.hart h).eix else 0 }

/-- A line that a hart enters anew is the 64 bytes of memory at its address, through the translation of an executable local
page; a line that breaks R43 is a line-format fault at the position, with the line's address in tval. -/
def Sys2Proof.Claims.LineIsReadFromMemoryAndChecked : Prop :=
  ∀ (s u : State) (h : HartId) (e : TlbEntry), s.wbuf = [] → s.bad = [] → s.badL2 = [] → s.badL1 = [] → s.notLive = [] → (s.hart h).line = none →
    checkByte s (s.partOf h) (s.hart h).root (s.hart h).sup .fetch ((s.hart h).pc / 64 * 64) = (u, .ok e) →
    e.isLocal = true → e.vpn = (s.hart h).pc / 65536 →
    let a := (s.hart h).pc / 64 * 64
    let l : Line := BitVec.ofNat 512 (ofBytes ((List.range 64).map fun i => s.mem.read (e.key (s.part (s.partOf h)).dies (a + i))))
    readLine s h a = (u, .line l)
      ∧ (lineOk l = false → ∃ t, fetch s h = .ended t
          ∧ TrapTaken (s.hart h) (t.hart h) false 3 (BitVec.ofNat 64 a) (s.hart h).eix 0)

/-- R41 to R44, R54: a line entered anew is read from memory and checked, and the slot at the position gives its instruction. -/
def Obligations.LinesAreReadCheckedAndFetched : Prop :=
  Claims.FetchFindsInstruction ∧ Claims.LineIsReadFromMemoryAndChecked

/-- The line checks of R43, bit by bit. -/
def Obligations.LineFormatChecksAreThoseOfR43 : Prop :=
  ∀ l : Line, lineOk l = true ↔
    ((∀ j : Nat, j < 8 → l.getLsbD (480 + 24 + j) =
        ((List.range (if j = 7 then 32 else 64)).foldl (fun b i => b ^^ l.getLsbD (64 * j + i)) false))
      ∧ (∀ j : Nat, j < 9 → l.getLsbD (480 + j) = false)
      ∧ l.extractLsb' (480 + 22) 2 ≠ 2
      ∧ (∀ k : Nat, k < 4 → ¬(l.extractLsb' (480 + 14 + 2 * k) 2 = 2 ∧ l.extractLsb' (480 + 14 + 2 * (k + 1)) 2 = 3))
      ∧ ∀ k : Nat, k < 5 → ¬(l.getLsbD (480 + 9 + k) = true ∧ l.extractLsb' (480 + 14 + 2 * k) 2 = 2))

/-- The words of the spec's own examples, and a word of each group, decode to the instructions they stand for. The last word is of
group 0xB, which R57 leaves unassigned. -/
def Obligations.KnownWordsDecode : Prop :=
  let g : Guards := ⟨.always, .always⟩
  let x : XCtl := ⟨g, 0⟩
  decode false none 0x0057DF061028000025FFFF60#96
      = .ok (.strip { g := g, n := 3, p2 := 4, p3 := 5, p4 := 0, p5 := 0, z2 := 2, z3 := 2, z4 := 0, z5 := 0, off := 0xFFFFB })
  ∧ decode false none 0x00F7DF000000000000000360#96 = .ok (.fence ⟨g, .ar, .package⟩)
  ∧ decode false none 0x1287DF022000000000000020#96 = .ok (.cmp ⟨g, 1, 8, 0, .ne⟩)
  ∧ decode false none 0x2107DF001030000000000860#96 = .ok (.aadd ⟨g, 0, 4, 6, true, .plain, 8⟩)
  ∧ decode false none 0x3007DFC010400000000000A0#96 = .ok (.vld ⟨g, 0, 4, 8, .none, 1, true, 0⟩)
  ∧ decode false none 0x3107DFC000380000000000C0#96 = .ok (.vlds ⟨g, 0, 0, 7, 2, true, 0⟩)
  ∧ decode false none 0x4017DF0A1030000000000300#96 = .ok (.pdec ⟨g, 5, 4, 6, .none, 3, false, false⟩)
  ∧ decode false none 0x4107DF00102E4CA000000040#96 = .ok (.nbadd ⟨g, 4, 5, 0, 1, false⟩)
  ∧ decode false none 0x4187DFC0102E40C000000040#96 = .ok (.sfpool ⟨g, 0, 4, 5, 0, 6, false, 0⟩)
  ∧ decode false none 0x5017DF002400000000000020#96 = .ok (.post ⟨g, 9, 1⟩)
  ∧ decode true none 0x6057DF8704000280001FF400#96 = .ok (.vdot2 ⟨x, 3, .v 1, 0xFFA0, 20⟩)
  ∧ decode true none 0x7117DF830480000000000140#96 = .ok (.vslidedn ⟨x, .v 1, .v 1, 16, 2, 1⟩)
  ∧ decode true none 0x71B09FA13A7EB2A000000000#96
      = .ok (.vcomb { x := ⟨⟨.reg false 2, .always⟩, 0⟩, d := .v 16, l := 3, k := .v 14, v := .v 15, f := 21, op := 0 })
  ∧ decode true none 0x8037DF890614328000000000#96 = .ok (.vfma ⟨x, .v 4, .v 1, .v 2, .v 3, 20⟩)
  ∧ decode true none 0x9087DF018060000007816400#96
      = .ok (.cbld { sch := 0, src := some (.lq 0), s := 12, k := 2, fmt := 0x0B, lgg := 0, n1 := 15 })
  ∧ decode true none 0xA017DF018308028000000000#96 = .ok (.opa ⟨x, 0, .lq 0, .lq 1, 20⟩)
  ∧ decode false none 0xB007DF000000000000000000#96 = .error .illegalInstr

/-- Every well-formed instruction decodes from its own encoding, with every operand as it was. -/
def Sys2Proof.Claims.DecodeOfEncodeIsTheInstruction : Prop :=
  ∀ (i : Instr) (e : Option IWord) (w : IWord), i.wf = true → encode i = some (e, w) → decode i.xside e w = .ok i

/-- An encoding stands in a slot of one side: read as the other side's template, the same word is an illegal instruction. -/
def Sys2Proof.Claims.WrongSideIsIllegal : Prop :=
  ∀ (i : Instr) (e : Option IWord) (w : IWord), encode i = some (e, w) → decode (!i.xside) e w = .error .illegalInstr

/-- Decoding the encoding of a well-formed instruction gives it back, in a slot of its own side; in a slot of the other side the same
word is an illegal instruction (R56). -/
def Obligations.EncodingsRoundTripOnTheirOwnSide : Prop :=
  Claims.DecodeOfEncodeIsTheInstruction ∧ Claims.WrongSideIsIllegal

/-! ## Machine-wide rules -/

/-- At reset the module is off, nothing stands on it, and memory lists nothing (R4). Memory that reads as 0 is the model's choice (log
3, 7). -/
def Obligations.ResetIsPoweredOffAndEmpty : Prop :=
  State.reset.Sound ∧ State.reset.md.power = .off ∧ State.reset.harts = [] ∧ State.reset.cores = [] ∧ State.reset.launches = []
    ∧ State.reset.parts = [] ∧ State.reset.cycle = 0 ∧ ∀ k, State.reset.mem.read k = 0

/-- Every step keeps memory in its canonical form and leaves no operation over, from every state that has both. The canonical form and
the operations of a step are the model's own (log 2). -/
def Obligations.EveryStepKeepsMemoryCanonical : Prop := ∀ s t : State, s.Sound → Machine.step s = .next t → t.Sound

/-- No instruction and no event is refused, and a fault means only that the current hart does not run: where it runs, every encoded
instruction answers a next state; and an event always answers one. The fault of a hart that is not there is the model's own (log
55). -/
def Obligations.NothingIsRefused : Prop :=
  ∀ (i : Instr) (s : State), (∀ r, exec i s ≠ .refused r)
    ∧ ((encode i).isSome = true → s.me.phase = .running → ∃ t, exec i s = .next t)
    ∧ ((encode i).isSome = true → s.me.phase ≠ .running → exec i s = .fault .noHart)
    ∧ (encode i = none → ∃ t, exec i s = .next t)

/-- R48: an A-side instruction whose guards do not both hold retires, counts in user mode, and has no effect at all; one of supervisor
mode alone, where it stands in that mode. That the privilege check alone comes before the guard is a reading (log 14). -/
def Obligations.FalseGuardHasNoEffect : Prop :=
  ∀ (i : Instr) (g : Guards) (s : State), aGuards i = some g → Live s → (s.me.sup = false → needsSup i = false) → s.me.guards g = false → Skips i s

/-- R55, R124: in user mode ERET, SETBND, TLBINV and the CSR instructions of CSRs 0x100 to 0x1FF take the privilege trap, whatever
their guards hold. Under a false guard too: a reading (log 14). -/
def Obligations.SupervisorInstructionsTrapInUserMode : Prop :=
  ∀ (i : Instr) (s : State), UserMode s → needsSup i = true → Traps i s 5 (highBits i)

/-- R48, R59, R346: in supervisor mode every X-side instruction is an illegal instruction, whatever its masks hold, and so is every
A-side instruction that names a queue, and XSYNC, where its guards hold. -/
def Sys2Proof.Claims.SupervisorModeRefusesTheXSide : Prop :=
  ∀ (i : Instr) (s : State), SupMode s → (i.xside = true → Traps i s 1 (highBits i))
    ∧ ∀ g, aGuards i = some g → needsUser i = true → s.me.guards g = true → TrapsAt i s 1 (highBits i) s.me.eix

/-- R346: in supervisor mode the X side performs no element, and no entry completes; EXIT there discards every window entry and every
queue entry of the hart first, and then retires it, or waits for what R102 has it wait for. -/
def Sys2Proof.Claims.XSideStandsStillInSupervisorMode : Prop :=
  (∀ (s : State) (h : HartId), s.wbuf = [] → (s.hart h).sup = true →
    (∃ t, exec (.elementGroup h) s = .next t ∧ t.hart h = s.hart h ∧ t.mem = s.mem)
      ∧ ∃ t, exec (.xEntryCompletion h) s = .next t ∧ t.hart h = s.hart h ∧ t.mem = s.mem)
  ∧ ∀ (s : State) (x : Bare), SupMode s → s.me.guards x.g = true →
    ∃ t, exec (.exit x) s = .next t ∧ t.me.win = [] ∧ t.me.lq = Vector.replicate 4 [] ∧ t.me.sq = Vector.replicate 2 [] ∧ t.me.xq = []
      ∧ ((∃ e ∈ s.myCore.engines, e.hid = s.cur.h) ∨ s.me.nb ≠ [] ∨ (∃ p, Behind s p) →
          t.me.phase = .running ∧ t.me.wait = some .exit)
      ∧ ((∀ e ∈ s.myCore.engines, e.hid ≠ s.cur.h) → s.me.nb = [] → (∀ p, ¬Behind s p) → t.me.phase = .exited)

/-- R346: in supervisor mode X-side instructions, queue instructions and XSYNC are illegal instructions, and the X side stands still.
That a queue instruction and XSYNC trap only where their guards hold, and an X-side instruction always, is a reading (log 14);
what EXIT waits for is R102's. -/
def Obligations.SupervisorModeStopsTheXSide : Prop :=
  Claims.SupervisorModeRefusesTheXSide ∧ Claims.XSideStandsStillInSupervisorMode

/-! ## Scalar work (group 0x1) -/

/-- R132: division never traps: it completes with the quotient toward zero and its remainder; by 0 the quotient is all ones and the
remainder is a; −2^63 by −1 gives −2^63 and 0. -/
def Obligations.DivisionNeverTraps : Prop :=
  (∀ (s : State) (x : ABin), Live s → s.me.guards x.g = true →
    let a := s.me.s x.a
    let b := s.me.s x.b
    let q : Dbl := if b = 0 then 0xFFFFFFFFFFFFFFFF#64 else BitVec.ofInt 64 (a.toInt.tdiv b.toInt)
    let r : Dbl := if b = 0 then a else BitVec.ofInt 64 (a.toInt - b.toInt * a.toInt.tdiv b.toInt)
    WritesS (.div x) s x.d q ∧ WritesS (.rem x) s x.d r
      ∧ (a.toInt = -2 ^ 63 → b.toInt = -1 → q.toInt = -2 ^ 63 ∧ r = 0))
  ∧ ∀ (s : State) (x : AImm), Live s → s.me.guards x.g = true →
    let a := s.me.s x.a
    let u := thirdU x.i
    WritesS (.divu x) s x.d (if u = 0 then 0xFFFFFFFFFFFFFFFF#64 else BitVec.ofNat 64 (a.toNat / u.toNat))
      ∧ WritesS (.remu x) s x.d (if u = 0 then a else BitVec.ofNat 64 (a.toNat - u.toNat * (a.toNat / u.toNat)))

/-- R131: the register forms. -/
def Sys2Proof.Claims.RegisterFormsComputeTheirValue : Prop :=
  ∀ (s : State) (x : ABin), Live s → s.me.guards x.g = true →
    let a := s.me.s x.a
    let b := s.me.s x.b
    let put (i : Instr) (v : Dbl) : Prop := WritesS i s x.d v
    put (.add x) (a + b) ∧ put (.sub x) (a - b) ∧ put (.mul x) (a * b)
    ∧ put (.mulh x) (BitVec.ofInt 64 (a.toInt * b.toInt / 2 ^ 64))
    ∧ put (.and x) (a &&& b) ∧ put (.or x) (a ||| b) ∧ put (.xor x) (a ^^^ b) ∧ put (.andn x) (a &&& ~~~b)
    ∧ put (.shl x) (BitVec.ofNat 64 (a.toNat * 2 ^ (b.toNat % 64)))
    ∧ put (.shr x) (BitVec.ofNat 64 (a.toNat / 2 ^ (b.toNat % 64)))
    ∧ put (.sra x) (BitVec.ofInt 64 (a.toInt / 2 ^ (b.toNat % 64)))
    ∧ put (.min x) (if a.toInt ≤ b.toInt then a else b) ∧ put (.minu x) (if a.toNat ≤ b.toNat then a else b)

/-- R53, R54, R131: the immediate forms, with IMM or with an extension. -/
def Sys2Proof.Claims.ImmediateFormsComputeTheirValue : Prop :=
  ∀ (s : State) (x : AImm), Live s → s.me.guards x.g = true →
    let a := s.me.s x.a
    let i := thirdS x.i
    let u := thirdU x.i
    let put (j : Instr) (v : Dbl) : Prop := WritesS j s x.d v
    put (.addi x) (a + i) ∧ put (.muli x) (a * i)
    ∧ put (.mulhu x) (BitVec.ofNat 64 (a.toNat * u.toNat / 2 ^ 64))
    ∧ put (.andi x) (a &&& i) ∧ put (.ori x) (a ||| i) ∧ put (.xori x) (a ^^^ i)
    ∧ put (.shli x) (BitVec.ofNat 64 (a.toNat * 2 ^ (i.toNat % 64)))
    ∧ put (.shri x) (BitVec.ofNat 64 (a.toNat / 2 ^ (i.toNat % 64)))
    ∧ put (.srai x) (BitVec.ofInt 64 (a.toInt / 2 ^ (i.toNat % 64)))
    ∧ put (.max x) (if i.toInt ≤ a.toInt then a else i) ∧ put (.maxu x) (if u.toNat ≤ a.toNat then a else u)

/-- R131 to R134: the counts, extensions, moves, SEL, LEA and HASHS. -/
def Sys2Proof.Claims.OneSourceAndAddressFormsComputeTheirValue : Prop :=
  ∀ s : State, Live s →
    (∀ x : AUn, s.me.guards x.g = true →
      let a := s.me.s x.a
      (∃ n ≤ 64, WritesS (.clz x) s x.d (BitVec.ofNat 64 n) ∧ (∀ i < n, a.getLsbD (63 - i) = false)
        ∧ (n < 64 → a.getLsbD (63 - n) = true))
      ∧ (∃ n ≤ 64, WritesS (.ctz x) s x.d (BitVec.ofNat 64 n) ∧ (∀ i < n, a.getLsbD i = false) ∧ (n < 64 → a.getLsbD n = true))
      ∧ WritesS (.popc x) s x.d (BitVec.ofNat 64 ((List.range 64).filter a.getLsbD).length)
      ∧ WritesS (.mov x) s x.d a)
    ∧ (∀ x : AUnZ, s.me.guards x.g = true →
      let a := s.me.s x.a
      WritesS (.sext x) s x.d ((a.setWidth (8 * 2 ^ x.z.toNat)).signExtend 64)
      ∧ WritesS (.zext x) s x.d ((a.setWidth (8 * 2 ^ x.z.toNat)).setWidth 64))
    ∧ (∀ x : Movi, s.me.guards x.g = true → WritesS (.movi x) s x.d (x.i.signExtend 64))
    ∧ (∀ x : MoviX, s.me.guards x.g = true → WritesS (.moviX x) s x.d x.v)
    ∧ (∀ x : Sel, s.me.guards x.g = true →
      WritesS (.sel x) s x.d (if (s.me.pr x.p ^^ x.neg) then s.me.s x.a else thirdS x.i))
    ∧ (∀ x : Lea, s.me.guards x.g = true → WritesS (.lea x) s x.d (s.me.s x.a + s.me.s x.x * BitVec.ofNat 64 (2 ^ x.k.toNat) + thirdS x.i))
    ∧ ∀ x : Hashs, s.me.guards x.g = true →
      WritesS (.hashs x) s x.d ((crcOf (2 ^ x.z.toNat) ((s.me.s x.a).setWidth 32) (s.me.s x.b)).setWidth 64)

/-- R133: CMP, CMPI and PLOG set their predicate. -/
def Sys2Proof.Claims.ComparesSetTheirPredicate : Prop :=
  ∀ s : State, Live s →
    (∀ x : Cmp, s.me.guards x.g = true → WritesP (.cmp x) s x.d (condHolds x.c (s.me.s x.a) (s.me.s x.b)))
    ∧ (∀ x : Cmpi, s.me.guards x.g = true → WritesP (.cmpi x) s x.d (condHolds x.c (s.me.s x.a) (thirdS x.i)))
    ∧ ∀ x : Plog, s.me.guards x.g = true →
      WritesP (.plog x) s x.d (x.t.getLsbD (2 * (s.me.pr x.a).toNat + (s.me.pr x.b).toNat))

/-- R131, R133, R134: every scalar form completes with the value its rule gives, in its destination alone. -/
def Obligations.ScalarFormsComputeTheirValue : Prop :=
  Claims.RegisterFormsComputeTheirValue ∧ Claims.ImmediateFormsComputeTheirValue ∧ Claims.OneSourceAndAddressFormsComputeTheirValue
    ∧ Claims.ComparesSetTheirPredicate

/-! ## Transfers and strips -/

namespace Sys2Proof.Claims

/-- R45: SlotAddr(Ordinal(pc) + off). -/
def relative (pc : Nat) (off : Int) : Int :=
  let n : Int := 5 * (pc / 64 : Nat) + (pc % 64 / 12 : Nat) + off
  64 * (n / 5) + 12 * (n % 5)

/-- R45, R46: t may be transferred to; u is the state after its line has been read. -/
def LegalTarget (s u : State) (t : Int) : Prop :=
  0 ≤ t ∧ t < 2 ^ 55 ∧ isSlot t.toNat = true ∧ ∃ l, readLine s s.cur (t.toNat / 64 * 64) = (u, .line l)
    ∧ l.getLsbD (480 + 9 + t.toNat % 64 / 12) = true ∧ l.extractLsb' (480 + 14 + 2 * (t.toNat % 64 / 12)) 2 ≠ 2
/-- R45, R46: a transfer to t is a control-flow target fault. -/
def IllegalTarget (s : State) (t : Int) : Prop :=
  t < 0 ∨ 2 ^ 55 ≤ t ∨ isSlot t.toNat = false ∨ ∃ u l, readLine s s.cur (t.toNat / 64 * 64) = (u, .line l)
    ∧ (l.getLsbD (480 + 9 + t.toNat % 64 / 12) = false ∨ l.extractLsb' (480 + 14 + 2 * (t.toNat % 64 / 12)) 2 = 2)

/-- The instruction transfers to t, its hart being otherwise as P says. -/
def GoesTo (i : Instr) (s : State) (t : Int) (P : Hart → Prop) : Prop :=
  ∃ s', exec i s = .next s' ∧ OnlyMeWalked s s' ∧ Retires s.me s'.me t.toNat ∧ s'.me.line = none ∧ P s'.me
/-- The instruction takes the control-flow target fault, with no other effect. -/
def TargetFaults (i : Instr) (s : State) (t : Int) : Prop :=
  ∃ s', exec i s = .next s' ∧ OnlyMeWalked s s' ∧ TrapTaken s.me s'.me false 4 (BitVec.ofInt 64 t) 0 0

/-- No register but s0 is named twice (R127). -/
def stripDistinct (x : Strip) : Prop := ([x.n, x.p2, x.p3, x.p4, x.p5].filter (· ≠ 0)).Nodup
/-- min(Max(n, 0), vlcap, VLEN div wide). -/
def granted (s : State) (n : Int) (z2 z3 z4 z5 : BitVec 2) : Nat :=
  min n.toNat (min s.me.vlcap.toNat (s.vlen s.cur / max (max (2 ^ z2.toNat) (2 ^ z3.toNat)) (max (2 ^ z4.toNat) (2 ^ z5.toNat))))
/-- A STRIP's effect: the count, the pointers and vl. -/
def Stripped (s : State) (x : Strip) (h' : Hart) : Prop :=
  let h := s.me
  h' = { stepped h h' with x := h'.x, vl := h'.vl }
    ∧ h'.vl = BitVec.ofNat 64 (granted s (h.s x.n - h.vl).toInt x.z2 x.z3 x.z4 x.z5)
    ∧ ∀ r, h'.s r = if r = 0 then 0 else if r = x.n then h.s r - h.vl else if r = x.p2 then h.s r + h.vl * BitVec.ofNat 64 (2 ^ x.z2.toNat)
        else if r = x.p3 then h.s r + h.vl * BitVec.ofNat 64 (2 ^ x.z3.toNat)
        else if r = x.p4 then h.s r + h.vl * BitVec.ofNat 64 (2 ^ x.z4.toNat)
        else if r = x.p5 then h.s r + h.vl * BitVec.ofNat 64 (2 ^ x.z5.toNat) else h.s r

/-- A release of scope sc makes definite what its hart had flushed, and what a hart had whose release reached it: for every mapping of
the package at package and domain scope, and below for the harts of the scope (R335, R340). -/
def FlushDone (s t : State) (sc : Scope) : Prop :=
  let all := sc = .package ∨ sc = .domain
  let reached := fun k => (s.cur, k) ∈ s.flushed ∨ ∃ g n, (g, n, k) ∈ s.settled ∧ scopeHas s n g s.cur = true
  (∀ b, b ∈ t.cachedW ↔ b ∈ s.cachedW ∧ (all → ¬reached b.1)) ∧ (∀ x, x ∈ t.flushed ↔ x ∈ s.flushed ∧ (all → x.1 ≠ s.cur))
    ∧ ∀ y, y ∈ t.settled ↔ y ∈ s.settled ∨ (¬all ∧ y.1 = s.cur ∧ y.2.1 = scopeRank sc ∧ reached y.2.2)
/-- The entries of a load queue are as they were, but that the rows still to be read of each pooled lookup stand before a release
fence (R335). -/
def PoolsCovered (l l' : List QEntry) : Prop :=
  List.Forall₂ (fun e e' => e' = { e with pool := e'.pool } ∧ (∀ p, e.pool = some p → ∃ b, e'.pool = some { p with rel := b } ∧ (p.left ≠ [] → b = true))
    ∧ (e.pool = none → e'.pool = none)) l l'

/-- A fence of kind k and scope sc has completed: it moves no byte and no register, and only what the model keeps of order may differ; a
release covers pooled lookups and makes memory definite at what its hart had flushed (R335, R337, R340). -/
def Fenced (s t : State) (k : OKind) (sc : Scope) : Prop :=
  t = { s with harts := t.harts, cachedW := t.cachedW, flushed := t.flushed, settled := t.settled } ∧ (∀ g, g ≠ s.cur → t.hart g = s.hart g)
    ∧ Retires s.me t.me (nextSlot s.me.pc) ∧ t.me = { stepped s.me t.me with seen := t.me.seen, fenced := t.me.fenced, lq := t.me.lq }
    ∧ (k = .acq → t.me.lq = s.me.lq ∧ t.cachedW = s.cachedW ∧ t.flushed = s.flushed ∧ t.settled = s.settled)
    ∧ (k ≠ .acq → (∀ q : LQ, PoolsCovered (s.me.lq[q.toNat]'(q.isLt)) (t.me.lq[q.toNat]'(q.isLt))) ∧ FlushDone s t sc)

end Sys2Proof.Claims

/-- R45, R46, R126: BR, CALL, RET and JMP continue at a legal target; CALL alone writes its link to s63. -/
def Sys2Proof.Claims.TransfersReachALegalTarget : Prop :=
  ∀ s : State, Live s →
    (∀ (x : GImm) u, s.me.guards x.g = true → LegalTarget s u (relative s.me.pc x.imm.toInt) →
      GoesTo (.br x) s (relative s.me.pc x.imm.toInt) (fun h => h = stepped s.me h)
      ∧ GoesTo (.call x) s (relative s.me.pc x.imm.toInt) (HoldsS s.me 63 (BitVec.ofNat 64 (nextSlot s.me.pc))))
    ∧ (∀ (x : Bare) u, s.me.guards x.g = true → LegalTarget s u (s.me.s 63).toNat →
      GoesTo (.ret x) s (s.me.s 63).toNat fun h => h = stepped s.me h)
    ∧ ∀ (x : Jmp) u, s.me.guards x.g = true → LegalTarget s u (s.me.s x.a).toNat →
      GoesTo (.jmp x) s (s.me.s x.a).toNat fun h => h = stepped s.me h

/-- R46: a taken transfer to an illegal target is a control-flow target fault with the target in tval, and no effect: CALL writes
no link, STRIP changes neither its count, its pointers nor vl. The address of a relative target below 0, which R45 and R46 do not give, is
log 69's (DESIGN CHOICE). -/
def Sys2Proof.Claims.IllegalTargetFaults : Prop :=
  ∀ s : State, Live s →
    (∀ x : GImm, s.me.guards x.g = true → IllegalTarget s (relative s.me.pc x.imm.toInt) →
      TargetFaults (.br x) s (relative s.me.pc x.imm.toInt) ∧ TargetFaults (.call x) s (relative s.me.pc x.imm.toInt))
    ∧ (∀ x : Bare, s.me.guards x.g = true → IllegalTarget s (s.me.s 63).toNat → TargetFaults (.ret x) s (s.me.s 63).toNat)
    ∧ (∀ x : Jmp, s.me.guards x.g = true → IllegalTarget s (s.me.s x.a).toNat → TargetFaults (.jmp x) s (s.me.s x.a).toNat)
    ∧ ∀ x : Strip, s.me.guards x.g = true → 0 < (s.me.s x.n - s.me.vl).toInt → IllegalTarget s (relative s.me.pc x.off.toInt) →
      TargetFaults (.strip x) s (relative s.me.pc x.off.toInt)

/-- R45, R46, R126: a transfer continues at a legal target, and faults at an illegal one with no effect. A target whose line cannot be
read is left to the fetch there (log 15). The address of a relative target below 0 is the model's choice (log 69). -/
def Obligations.TransfersReachTheirTargetOrFault : Prop :=
  Claims.TransfersReachALegalTarget ∧ Claims.IllegalTargetFaults

/-- R50, R127: STRIP takes vl from its count, moves its pointers, sets the new vl, and branches while elements remain; one that names a
register other than s0 twice is an illegal operand, with instruction bits 95:32 in tval (a taken one whose target is legal: R59's order).
VSETL only sets vl. -/
def Sys2Proof.Claims.StripAndVsetlGrantTheLength : Prop :=
  ∀ s : State, Live s →
    (∀ x : Strip, s.me.guards x.g = true → stripDistinct x →
      ((s.me.s x.n - s.me.vl).toInt ≤ 0 → Ends (.strip x) s (nextSlot s.me.pc) (Stripped s x))
      ∧ ∀ u, 0 < (s.me.s x.n - s.me.vl).toInt → LegalTarget s u (relative s.me.pc x.off.toInt) →
        GoesTo (.strip x) s (relative s.me.pc x.off.toInt) (Stripped s x))
    ∧ (∀ x : Strip, s.me.guards x.g = true → ¬stripDistinct x →
      ((s.me.s x.n - s.me.vl).toInt ≤ 0 → Traps (.strip x) s 2 (highBits (.strip x)))
      ∧ ∀ u, 0 < (s.me.s x.n - s.me.vl).toInt → LegalTarget s u (relative s.me.pc x.off.toInt) →
        ∃ t, exec (.strip x) s = .next t ∧ OnlyMeWalked s t ∧ TrapTaken s.me t.me false 2 (highBits (.strip x)) 0 0)
    ∧ ∀ x : Vsetl, s.me.guards x.g = true → Ends (.vsetl x) s (nextSlot s.me.pc) fun h =>
        h = { stepped s.me h with vl := BitVec.ofNat 64 (granted s (s.me.s x.n).toInt x.z2 x.z3 x.z4 x.z5) }

/-- R103, R126, R129, R314, R337, R340: NOP, YIELD, FENCE and XSYNC complete with no effect but the pause of YIELD and what a FENCE
orders: FENCE where nothing that its kind and scope name is outstanding (else it waits), XSYNC where the window is empty. -/
def Sys2Proof.Claims.NopYieldFenceXsyncComplete : Prop :=
  ∀ s : State, Live s →
    (∀ x : Bare, s.me.guards x.g = true → Skips (.nop x) s)
    ∧ (∀ x : Yield, s.me.guards x.g = true → Ends (.yield x) s (nextSlot s.me.pc) fun h =>
        h = { stepped s.me h with pause := s.cycle + x.n.toNat })
    ∧ (∀ x : Fence, s.me.guards x.g = true →
        ((x.k ≠ .rel → ∀ q : LQ, ∀ e ∈ s.me.lq[q.toNat]'(q.isLt), e.flight = [] ∧ e.pool = none) →
          (x.k ≠ .acq → x.s = .domain → ∀ p, ¬Behind s p) → ∃ t, exec (.fence x) s = .next t ∧ Fenced s t x.k x.s)
        ∧ (x.k ≠ .acq → x.s = .domain → (∃ p, Behind s p) → ∃ t, exec (.fence x) s = .next t ∧ t.me.pc = s.me.pc ∧ t.me.wait = some .posted)
        ∧ (x.k = .acq → (∃ (q : LQ) (e : QEntry), e ∈ s.me.lq[q.toNat]'(q.isLt) ∧ (e.flight ≠ [] ∨ e.pool ≠ none)) →
            ∃ t, exec (.fence x) s = .next t ∧ t.me.pc = s.me.pc ∧ t.me.wait = some .reads))
    ∧ ∀ x : Bare, s.me.guards x.g = true → s.me.sup = false → s.me.win = [] → Skips (.xsync x) s

/-- R103, R126, R127, R129, R337: STRIP, VSETL, NOP, YIELD, FENCE and XSYNC have their effect and nothing else. What FENCE waits for
is the model's reading (log 4, 58). -/
def Obligations.StripsAndPlainControlComplete : Prop :=
  Claims.StripAndVsetlGrantTheLength ∧ Claims.NopYieldFenceXsyncComplete

/-- R345, R349: TRAP and BKPT trap with their number in tval, in either mode; they write the trap CSRs, enter supervisor mode
and continue at tvec, are not counted, and change nothing else; under a false guard they have no effect. Their number is IMM 31:0,
and no other field is set. -/
def Obligations.TrapAndBkptTakeTheirTrap : Prop :=
  (∀ (s : State) (x : GImm), Live s →
    (s.me.guards x.g = true → Traps (.trap x) s 20 (x.imm.setWidth 64) ∧ Traps (.bkpt x) s 19 (x.imm.setWidth 64))
    ∧ (s.me.guards x.g = false → Skips (.trap x) s ∧ Skips (.bkpt x) s))
  ∧ ∀ n : BitVec 32, encode (.trap ⟨⟨.always, .always⟩, n⟩) = some (none, 0x0077DF000000000000000000#96 + n.setWidth 96 * 32)
    ∧ encode (.bkpt ⟨⟨.always, .always⟩, n⟩) = some (none, 0x0137DF000000000000000000#96 + n.setWidth 96 * 32)

/-- R113, R348, R369: ERET restores the mode, the position and the element index of the A side; after an X-side trap whose teix was
raised, the oldest entry skips the elements between; where the handler has changed tpc, the instruction's claims are abandoned,
and its arrival at a GONG is dropped. That both outlast the return from a trap which the handler itself took (`nest` counts those)
is log 16's reading (DEDUCED). Scalars, masks, vectors and every other CSR stay. That claims and an arrival outlast the return
from a trap which the handler itself took is a reading (log 16). -/
def Obligations.EretReturnsToTheTrappedPosition : Prop :=
  ∀ (s : State) (x : Bare), SupMode s → s.me.guards x.g = true →
    ∃ t, exec (.eret x) s = .next t ∧ OnlyMe s t ∧ t.me.sup = s.me.tpm ∧ t.me.pc = s.me.tpc.toNat ∧ t.me.wait = none
      ∧ t.me.eix = (if s.me.tside then s.me.aeix.toNat else s.me.teix.toNat) ∧ t.me.icount = s.me.icount
      ∧ t.me = { s.me with pc := t.me.pc, eix := t.me.eix, sup := t.me.sup, line := t.me.line, wait := t.me.wait, win := t.me.win,
                           lq := t.me.lq, sq := t.me.sq, xq := t.me.xq, claim := t.me.claim, askips := t.me.askips,
                           arrived := t.me.arrived, nest := t.me.nest }
      ∧ (∀ e rest, s.me.win = e :: rest → t.me.win =
          if s.me.tside = true ∧ s.me.stopT < s.me.teix.toNat then { e with skips := (s.me.stopT, s.me.teix.toNat) :: e.skips } :: rest
          else e :: rest)
      ∧ (0 < s.me.nest → s.me.tpm = true → t.me.claim = s.me.claim ∧ t.me.arrived = s.me.arrived ∧ t.me.askips = s.me.askips
          ∧ t.me.lq = s.me.lq ∧ t.me.sq = s.me.sq ∧ t.me.xq = s.me.xq ∧ t.me.nest + 1 = s.me.nest)
      ∧ (s.me.nest = 0 ∨ s.me.tpm = false →
          ((∀ c, s.me.claim = some c → c.pc = s.me.tpc.toNat) →
            t.me.claim = (s.me.claim.map fun c => { c with first := t.me.eix }) ∧ t.me.lq = s.me.lq ∧ t.me.sq = s.me.sq ∧ t.me.xq = s.me.xq)
          ∧ (∀ c, s.me.claim = some c → c.pc ≠ s.me.tpc.toNat → t.me.claim = none ∧ t.me.xq = s.me.xq.drop c.xq)
          ∧ (∀ a, s.me.arrived = some a → t.me.arrived = if a.1 = s.me.tpc.toNat then some a else none) ∧ t.me.nest = 0)

/-- R102, R335, R346: EXIT retires its hart once its window and the rows of its pooled lookups (in user mode), its engine commands, its
near-memory updates and the posted stores that a release of domain scope waits for are over, and waits until then: queues and leases are
gone, its lane groups go back, and other harts of the core can only gain lane groups. -/
def Obligations.ExitRetiresTheHart : Prop :=
  ∀ (s : State) (x : Bare), Live s → s.me.guards x.g = true →
    let out := (∃ e ∈ s.myCore.engines, e.hid = s.cur.h) ∨ s.me.nb ≠ [] ∨ (∃ p, Behind s p)
      ∨ (s.me.sup = false ∧ (s.me.win ≠ [] ∨ RowsLeft s.me fun _ => True))
    (out → ∃ t, exec (.exit x) s = .next t ∧ t.me.phase = .running ∧ t.me.wait = some .exit ∧ t.me.pc = s.me.pc)
    ∧ (¬out →
    ∃ t, exec (.exit x) s = .next t ∧ t = { s with harts := t.harts, cachedW := t.cachedW, flushed := t.flushed } ∧ t.me.phase = .exited
      ∧ FlushDone s t .domain ∧ t.me.win = [] ∧ t.me.leases = []
      ∧ t.me.lq = Vector.replicate 4 [] ∧ t.me.sq = Vector.replicate 2 [] ∧ t.me.xq = [] ∧ t.me.lanes = 0
      ∧ t.me.icount = (if s.me.sup then s.me.icount else s.me.icount + 1) ∧ t.me.x = s.me.x ∧ t.me.v = s.me.v
      ∧ ∀ g, g ≠ s.cur → t.hart g = { s.hart g with lanes := (t.hart g).lanes } ∧ (s.hart g).lanes ≤ (t.hart g).lanes)

/-! ## CSRs, translations and boundaries -/

namespace Sys2Proof.Claims

/-- What a CSR of the current hart reads as (R75, R84, R116, R122, R123, R237, R256, R343). -/
def csrValue (s : State) (c : Csr) : Dbl :=
  let h := s.me
  let la := s.launch s.cur.l
  let n (x : Nat) : Dbl := BitVec.ofNat 64 x
  match c with
  | .vl => h.vl
  | .vlh => h.vlh
  | .vlmax => n (2 ^ la.rec_.vlen.toNat)
  | .vlcap => h.vlcap
  | .shp => h.shp
  | .ffe => h.ffe
  | .vsat => n h.vsat.toNat
  | .fflags => n h.fflags.toNat
  | .srseed => h.srseed
  | .tagmap => s.myCore.tagDone &&& h.tagown
  | .tagown => h.tagown
  | .cbown => n h.cbown.toNat
  | .tilown => n h.tilown.toNat
  | .leases => n (h.leases.filter fun x => s.cycle < x.until_).length
  | .cx => n (s.cur.k % la.rec_.width.toNat)
  | .cy => n (s.cur.k / la.rec_.width.toNat)
  | .cw => n la.rec_.width.toNat
  | .ch => n la.rec_.height.toNat
  | .hid => n s.cur.h
  | .nh => n la.rec_.harts.toNat
  | .lanes => n h.lanes
  | .ccount => Config.coreStart s.md.bootId (s.meshPos s.cur.l s.cur.k) + n s.cycle
  | .icount => h.icount
  | .bnd0 => n s.myCore.bnd0.toNat
  | .bnd1 => n s.myCore.bnd1.toNat
  | .bnd2 => n s.myCore.bnd2.toNat
  | .tvec => h.tvec
  | .tcause => n h.tcause.toNat
  | .tside => n h.tside.toNat
  | .tpc => h.tpc
  | .teix => n h.teix.toNat
  | .tval => h.tval
  | .tstat => n (h.aeix.toNat * 2 ^ 16 + h.tpm.toNat)
  | .tscratch => h.tscratch
  | .txw => n h.txw.toNat
  | .ptbase => h.ptbase
  | .savearea => h.savearea

/-- Every field of the CSR is RO to the mode (R123, R124). -/
def readOnly (sup : Bool) : Csr → Bool
  | .vlh | .vlmax | .tagmap | .tagown | .cbown | .tilown | .leases | .cx | .cy | .cw | .ch | .hid | .nh | .lanes | .ccount
  | .bnd0 | .bnd1 | .bnd2 | .txw => true
  | .icount => !sup
  | _ => false

/-- a is the greatest slot address at or below n. -/
def SlotBelow (a n : Nat) : Prop := isSlot a = true ∧ a ≤ n ∧ ∀ b, isSlot b = true → b ≤ n → b ≤ a
def between (lo hi v : Nat) : Nat := if v < lo then lo else min hi v

/-- What a CSR reads as after v is written to it (R113, R123, R343, R344); a value that WARL does not take becomes a legal one. -/
def Written (s : State) (c : Csr) (v w : Dbl) : Prop :=
  let h := s.me
  match c with
  | .vl => w = BitVec.ofNat 64 (min v.toNat (min h.vlcap.toNat (2 ^ (s.launch s.cur.l).rec_.vlen.toNat)))
  | .vlcap => w = if v = 0 then 1 else BitVec.ofNat 64 (min v.toNat 8192)
  | .shp => w = BitVec.ofNat 64 (v.toNat % 2 ^ 32)
  | .ffe => w = BitVec.ofNat 64 (min v.toNat 8192)
  | .vsat => w = BitVec.ofNat 64 (v.toNat % 2)
  | .fflags => w = BitVec.ofNat 64 (v.toNat % 2 ^ 5)
  | .tvec => SlotBelow w.toNat (v.toNat % 2 ^ 55)
  | .tcause => w = BitVec.ofNat 64 (v.toNat % 2 ^ 8)
  | .tside => w = BitVec.ofNat 64 (v.toNat % 2)
  | .tpc => SlotBelow w.toNat (v.toNat % 2 ^ 55)
  | .teix => h.stopT ≤ h.boundT → h.boundT < 2 ^ 14 → w = BitVec.ofNat 64 (between h.stopT h.boundT (v.toNat % 2 ^ 14))
  | .tstat => h.stopA ≤ h.boundA → h.boundA < 2 ^ 14 →
      w = BitVec.ofNat 64 (between h.stopA h.boundA (v.toNat / 2 ^ 16 % 2 ^ 14) * 2 ^ 16 + v.toNat % 2)
  | .ptbase => w = BitVec.ofNat 64 (v.toNat % 2 ^ 52 / 2 ^ 16 * 2 ^ 16)
  | _ => w = v

/-- h with the CSRs of h'. -/
def csrsOf (h h' : Hart) : Hart :=
  { h with vl := h'.vl, vlcap := h'.vlcap, shp := h'.shp, ffe := h'.ffe, vsat := h'.vsat, fflags := h'.fflags, srseed := h'.srseed,
           icount := h'.icount, tvec := h'.tvec, tcause := h'.tcause, tside := h'.tside, tpc := h'.tpc, teix := h'.teix,
           tval := h'.tval, aeix := h'.aeix, tpm := h'.tpm, tscratch := h'.tscratch, ptbase := h'.ptbase, savearea := h'.savearea }

/-- The instruction writes v to CSR c: that CSR then reads as R123 and R343 say, every other CSR but the instruction count reads
as before, and nothing but CSRs has changed. -/
def WritesCsr (i : Instr) (s : State) (c : Csr) (v : Dbl) : Prop :=
  ∃ t, exec i s = .next t ∧ OnlyMe s t ∧ t.me = csrsOf (stepped s.me t.me) t.me ∧ t.me.pc = nextSlot s.me.pc ∧ t.me.wait = none
    ∧ Written s c v (csrValue t c) ∧ (∀ d, d ≠ c → d ≠ .icount → csrValue t d = csrValue s d)
    ∧ (c ≠ .icount → t.me.icount = if s.me.sup then s.me.icount else s.me.icount + 1)

/-- The source of a CSR write (R128). -/
def csrSource (h : Hart) : CsrSrc → Dbl
  | .reg r => h.s r
  | .imm i => i.setWidth 64

/-- TLBINV drops this translation (R350). -/
def Dropped (k : BitVec 2) (va : Nat) (base : Dbl) (e : TlbEntry) : Prop :=
  (k = 0 ∧ va < 2 ^ 55 ∧ e.vpn * 65536 / 2 ^ e.lg = va / 2 ^ e.lg) ∨ k = 1 ∨ (k = 2 ∧ e.root = base)

/-- R182: what the boundaries of a core must satisfy. -/
def BoundsOk (a b c nh vlen scratch cbslot : Nat) : Prop :=
  a % 0x1000 = 0 ∧ b % 0x1000 = 0 ∧ c % 0x10000 = 0 ∧ nh * 56 * vlen ≤ a ∧ a ≤ b ∧ b ≤ c ∧ c ≤ 0x1E0000 ∧ scratch ≤ c - b
    ∧ cbslot ≤ (b - a) / 16

end Sys2Proof.Claims

/-- R123, R128, R343: CSRR reads every CSR the mode lets it. What ccount counts from is a free value of the core's place (log 56). -/
def Sys2Proof.Claims.CsrrReadsEveryCsr : Prop :=
  ∀ (s : State) (x : CsrRd), Live s → (isTrapCsr x.c = true → s.me.sup = true) → s.me.guards x.g = true →
    WritesS (.csrr x) s x.d (csrValue s x.c)

/-- R113, R122 to R124, R128, R343, R344: CSRW, CSRSET and CSRCLR write v, CSR or v, and CSR and not v. -/
def Sys2Proof.Claims.CsrWritesTakeLegalValues : Prop :=
  ∀ (s : State) (x : CsrWr), Live s → (isTrapCsr x.c = true → s.me.sup = true) → s.me.guards x.g = true →
    readOnly s.me.sup x.c = false →
    let v := csrSource s.me x.src
    let old := csrValue s x.c
    WritesCsr (.csrw x) s x.c v ∧ WritesCsr (.csrset x) s x.c (old ||| v) ∧ WritesCsr (.csrclr x) s x.c (old &&& ~~~v)

/-- R124: a write to a CSR whose fields are all RO is an illegal instruction; in supervisor mode icount is not one. -/
def Sys2Proof.Claims.ReadOnlyCsrWritesAreIllegal : Prop :=
  ∀ (s : State) (x : CsrWr), Live s → (isTrapCsr x.c = true → s.me.sup = true) → s.me.guards x.g = true →
    readOnly s.me.sup x.c = true →
    Traps (.csrw x) s 1 (highBits (.csrw x)) ∧ Traps (.csrset x) s 1 (highBits (.csrset x)) ∧ Traps (.csrclr x) s 1 (highBits (.csrclr x))

/-- R113, R122 to R124, R128, R343, R344: CSRs read as their tables say, take legal values, and a CSR whose fields are all RO is not
written. The values of writes above ffe's range and the bits a write of teix uses are readings (log 42); what ccount counts from
is free (log 56). -/
def Obligations.CsrsAreReadAndWritten : Prop :=
  Claims.CsrrReadsEveryCsr ∧ Claims.CsrWritesTakeLegalValues ∧ Claims.ReadOnlyCsrWritesAreIllegal

/-- R284, R350: TLBINV drops exactly the translations its kind names: of those made before, an access may use one that it names no
longer, and every other as before; and the hart's later accesses translate through its current ptbase (an address at or above 2^55
drops nothing). k = 3 is an illegal instruction (the decoder refuses its words), user mode takes the privilege trap, and a false
guard gives no effect. That the privilege trap is taken under a false guard too is a reading (log 14), and so are the decoder's
refusal of k = 3 (log 41) and what a TLB may hold (log 47). -/
def Obligations.TlbinvDropsTranslations : Prop :=
  (∀ (s : State) (x : Tlbinv), UserMode s → Traps (.tlbinv x) s 5 (highBits (.tlbinv x)))
  ∧ (∀ (s : State) (x : Tlbinv), SupMode s → s.me.guards x.g = false → x.k ≠ 3 → Skips (.tlbinv x) s)
  ∧ (∀ (s : State) (x : Tlbinv), SupMode s → s.me.guards x.g = true → x.k = 3 → Traps (.tlbinv x) s 1 (highBits (.tlbinv x)))
  ∧ (∀ (k : BitVec 2) (a : SReg), encode (.tlbinv ⟨⟨.always, .always⟩, a, k⟩) =
      some (none, 0x0117DF000000000000000000#96 + a.setWidth 96 * 2 ^ 58 + k.setWidth 96 * 32))
  ∧ (∀ a : SReg, decode false none (0x0117DF000000000000000000#96 + a.setWidth 96 * 2 ^ 58 + 96) = .error .illegalInstr)
  ∧ ∀ (s : State) (x : Tlbinv), SupMode s → s.me.guards x.g = true → x.k ≠ 3 →
    ∃ t, exec (.tlbinv x) s = .next t
      ∧ t = { s with harts := t.harts, parts := t.parts, cachedW := t.cachedW, flushed := t.flushed, epoch := s.epoch + 1 }
      ∧ (∀ g, g ≠ s.cur → t.hart g = s.hart g) ∧ Retires s.me t.me (nextSlot s.me.pc)
      ∧ t.me = { stepped s.me t.me with root := s.me.ptbase, fenced := t.me.fenced, lq := t.me.lq }
      ∧ (∀ q : LQ, PoolsCovered (s.me.lq[q.toNat]'(q.isLt)) (t.me.lq[q.toNat]'(q.isLt))) ∧ FlushDone s t .package
      ∧ (∀ p, p ≠ s.partOf s.cur → t.part p = s.part p)
      ∧ (let q := t.part (s.partOf s.cur)
         q = { s.part (s.partOf s.cur) with tlbAll := q.tlbAll, tlbRoots := q.tlbRoots, tlbPages := q.tlbPages })
      ∧ ∀ (e : TlbEntry) (ep : Nat), ep ≤ s.epoch → (e.lg = 16 ∨ e.lg = 21 ∨ e.lg = 29) →
          (mayHold (t.part (s.partOf s.cur)) (e, some ep) = true ↔
            mayHold (s.part (s.partOf s.cur)) (e, some ep) = true ∧ ¬Dropped x.k (s.me.s x.a).toNat s.me.ptbase e)

/-- R182, R194: SETBND of the last live hart of a core with nothing in flight sets the boundaries, makes every bank Invalid and the
codebook and scratchpad bytes zero, with the errors their check units held, and empties the cache region, of which no line that
may be dirty holds an error; every other byte, those of the register region among them, stays as it is. Boundaries that break R182
trap with tval 2, another live hart with tval 1, a window entry with tval 3; an engine command or a near-memory update out makes
it wait. That the zeroed bytes are all those that memory keeps from bnd0 on is the model's reading (log 45). -/
def Obligations.SetbndMovesTheBoundaries : Prop :=
  ∀ (s : State) (x : A3), SupMode s → s.mem.wf → s.me.guards x.g = true →
    let la := s.launch s.cur.l
    let a := (s.me.s x.a).toNat
    let b := (s.me.s x.b).toNat
    let c := (s.me.s x.c).toNat
    let ok := BoundsOk a b c la.rec_.harts.toNat (2 ^ la.rec_.vlen.toNat) la.scratch la.cbslot
    let alone := ∀ h < la.rec_.harts.toNat, h ≠ s.cur.h → (s.hart ⟨s.cur.l, s.cur.k, h⟩).phase = .exited
    (¬alone → Traps (.setbnd x) s 2 1) ∧ (alone → s.me.win ≠ [] → Traps (.setbnd x) s 2 3)
    ∧ (alone → s.me.win = [] → (s.myCore.engines ≠ [] ∨ s.me.nb ≠ []) →
        ∃ t, exec (.setbnd x) s = .next t ∧ t.me = { s.me with wait := some .setbnd, waitNo := t.me.waitNo })
    ∧ (alone → s.me.win = [] → s.myCore.engines = [] → s.me.nb = [] → ¬ok → Traps (.setbnd x) s 2 2)
    ∧ (alone → s.me.win = [] → s.myCore.engines = [] → s.me.nb = [] → ok →
      (∀ y ∈ s.badL1, y.1 = (s.cur.l, s.cur.k) → mayDirty s y.2 (· == s.cur.l) = false) →
      ∃ t, exec (.setbnd x) s = .next t ∧ t = { s with harts := t.harts, cores := t.cores, mem := t.mem, bad := t.bad, badL1 := t.badL1 }
        ∧ (∀ y, y ∈ t.badL1 ↔ y ∈ s.badL1 ∧ y.1 ≠ (s.cur.l, s.cur.k))
        ∧ (∀ g, g ≠ s.cur → t.hart g = s.hart g) ∧ (∀ l k, (l, k) ≠ (s.cur.l, s.cur.k) → t.core l k = s.core l k)
        ∧ Retires s.me t.me (nextSlot s.me.pc) ∧ t.me = { stepped s.me t.me with leases := [] }
        ∧ t.myCore = { s.myCore with bnd0 := BitVec.ofNat 21 a, bnd1 := BitVec.ofNat 21 b, bnd2 := BitVec.ofNat 21 c,
                                     banks := Vector.replicate 16 {} }
        ∧ (∀ k, t.mem.read k = if poolKey s.cur.l s.cur.k a ≤ k ∧ k < poolKey s.cur.l (s.cur.k + 1) 0 then 0 else s.mem.read k)
        ∧ ∀ u, u ∈ t.bad ↔ u ∈ s.bad ∧ ¬(poolKey s.cur.l s.cur.k a ≤ u ∧ u < poolKey s.cur.l (s.cur.k + 1) 0))

/-! ## Scalar accesses to memory -/

namespace Sys2Proof.Claims

/-- The key of the byte at a virtual address, through the pages that an access of the current hart has checked. -/
def keyAt (s : State) (pgs : List TlbEntry) (va : Nat) : Nat := (pageOf pgs va).key (s.part (s.partOf s.cur)).dies va
/-- The number that n bytes hold. -/
def valueAt (s : State) (pgs : List TlbEntry) (a n : Nat) : Nat :=
  ofBytes ((List.range n).map fun i => s.mem.read (keyAt s pgs (a + i)))

/-- No unit of the row line of a byte holds an uncorrectable error, in a memory, an L2 slice or a core's cache region; on an uncacheable
page, its own unit of memory holds none (R372). -/
def NoError (s : State) (c : Bool) (k : Nat) : Prop :=
  (c = true → ∀ u, u ∈ s.bad ∨ u ∈ s.badL2 ∨ (∃ x, (x, u) ∈ s.badL1) → u / 64 ≠ k / 64) ∧ (c = false → unitOf k ∉ s.bad)
/-- Every byte lies on a local page, and nothing holds the access up: no range of an engine command (R263), no lease of another
hart, no access that arrived before at a leased line (R238), no posted store that happens before it (R332, R336), no row that a
pooled lookup of the hart has still to read there (R308, R332), no uncorrectable error on the lines it touches (R372); for a write, no
lease of another core on a line that crosses it or on one that a line crossing it crosses (R238), nor, behind a release fence, any pooled
lookup (R335). -/
def Unheld (s : State) (pgs : List TlbEntry) (write : Bool) (a n : Nat) : Prop :=
  interlocked s.myCore s.cur.h false a (a + n) = false ∧ (∀ p, ¬Behind s p) ∧ (∀ l, behind s s.cur l = false)
    ∧ (write = true → ¬RowsLeft s.me (·.rel = true))
    ∧ ∀ i < n, (pageOf pgs (a + i)).isLocal = true ∧ leased s s.cur write (keyAt s pgs (a + i) / 64) = false
      ∧ poolReads s s.cur [keyAt s pgs (a + i)] = false
      ∧ NoError s (pteC (pageOf pgs (a + i)).pte) (keyAt s pgs (a + i))
      ∧ (write = true → crossFar s s.cur [keyAt s pgs (a + i) / 64] = none
        ∧ ∀ l ∈ crossLines (s.part (s.partOf s.cur)).dies (pageOf pgs (a + i)) (a + i), leasedFar s s.cur l = false)
/-- The access of the current hart passes its checks, with u the state and pgs the pages they give, and nothing holds it up. -/
def Reaches (s u : State) (acc : Acc) (write : Bool) (a n : Nat) (pgs : List TlbEntry) : Prop :=
  checkRange s (s.partOf s.cur) s.me.root s.me.sup acc a n = (u, .ok pgs) ∧ Unheld s pgs write a n
/-- A read through a mapping of this kind returns the present value of a byte: it was not last written through the other kind, or is
settled for the hart (R340), nor does an engine command of the hart that is in flight write it (R264). -/
def PlainRead (s : State) (c : Bool) (k : Nat) : Prop :=
  (c = true → k ∉ s.uncachedW) ∧ (c = false → (∀ l, (k, l) ∉ s.cachedW) ∨ settledFor s s.cur k = true) ∧ engDest s s.cur k = false
def Coherent (s : State) (pgs : List TlbEntry) (a n : Nat) : Prop :=
  ∀ i < n, PlainRead s (pteC (pageOf pgs (a + i)).pte) (keyAt s pgs (a + i))

/-- h with what the model keeps of the order of its accesses (R335). -/
def ordered (h h' : Hart) : Hart := { h with seen := h'.seen, heard := h'.heard }
/-- Only the current hart differs, beside what translations, reads and orderings leave: every byte of memory is as before. -/
def OnlyMeRead (s t : State) : Prop :=
  t = { s with harts := t.harts, fresh := t.fresh, msgs := t.msgs, seen := t.seen, md := { s.md with notLiveReads := t.md.notLiveReads } }
    ∧ ∀ g, g ≠ s.cur → t.hart g = s.hart g
/-- Only the current hart and memory differ, beside what translations, reads, writes and orderings leave. -/
def OnlyMeStored (s t : State) : Prop :=
  t = { s with harts := t.harts, fresh := t.fresh, msgs := t.msgs, md := { s.md with notLiveReads := t.md.notLiveReads }, mem := t.mem,
               cachedW := t.cachedW, uncachedW := t.uncachedW, flushed := t.flushed, settled := t.settled, seen := t.seen, old := t.old,
               epoch := t.epoch, notLive := t.notLive, badL1 := t.badL1 }
    ∧ (∀ g, g ≠ s.cur → t.hart g = s.hart g) ∧ ∀ x, x ∈ t.badL1 ↔ x ∈ s.badL1
/-- An ordering operand finds no rows of the hart's pooled lookups still to be read (R335). -/
def Orderable (s : State) (o : Ord) : Prop := o ≠ .plain → ¬RowsLeft s.me fun _ => True
/-- The instruction waits, with no effect but its translations. -/
def WaitsFor (i : Instr) (s : State) (w : Wait) : Prop :=
  ∃ t, exec i s = .next t ∧ t = { s with harts := t.harts, fresh := t.fresh, waitNos := s.waitNos + 1,
                                         md := { s.md with notLiveReads := t.md.notLiveReads } }
    ∧ (∀ g, g ≠ s.cur → t.hart g = s.hart g) ∧ t.me = { s.me with wait := some w, waitNo := t.me.waitNo }
/-- Memory at t is that of s with byte i of f stored at each address a + i, i < n, and every other byte as before. -/
def StoresAt (s t : State) (pgs : List TlbEntry) (a n : Nat) (f : Nat → Byte) : Prop :=
  ∀ k, t.mem.read k = match (List.range n).reverse.find? fun i => keyAt s pgs (a + i) == k with
    | some i => f i
    | none => s.mem.read k
/-- Byte i of a number. -/
def byteOf {w : Nat} (v : BitVec w) (i : Nat) : Byte := v.extractLsb' (8 * i) 8

/-- The instruction takes a trap, with no other effect than its translations. -/
def TrapsWalked (i : Instr) (s : State) (cause : Nat) (val : Dbl) : Prop :=
  ∃ t, exec i s = .next t ∧ OnlyMeWalked s t ∧ TrapTaken s.me t.me false cause val 0 0
/-- The instruction completes without effect but its translations. -/
def SkipsWalked (i : Instr) (s : State) : Prop :=
  ∃ t, exec i s = .next t ∧ OnlyMeWalked s t ∧ Retires s.me t.me (nextSlot s.me.pc) ∧ t.me = stepped s.me t.me

def loadForms : List ((Load → Instr) × Nat × Bool) :=
  [(.ldb, 1, false), (.ldh, 2, false), (.ldw, 4, false), (.ldd, 8, false), (.ldbs, 1, true), (.ldhs, 2, true), (.ldws, 4, true)]
def storeForms : List ((Store → Instr) × Nat) := [(.stb, 1), (.sth, 2), (.stw, 4), (.std, 8)]
def atomForms : List ((Atom → Instr) × AtomOp) :=
  [(.aadd, .add), (.aand, .and), (.aor, .or), (.axor, .xor), (.amin, .min), (.amax, .max), (.aswp, .swp)]

/-- sB + off, modulo 2^64. -/
def addrOf {w : Nat} (s : State) (b : SReg) (off : BitVec w) : Nat := (s.me.s b + off.signExtend 64).toNat
/-- R236: the count of a counted load is 1 to 255. -/
def CountOk (h : Hart) (x : LHint) : Prop := ∀ c, x = .ct c → h.s c ≠ 0 ∧ (h.s c).toNat ≤ 255

/-- R245: the value an atomic leaves. -/
def atomValue {b : Nat} (op : AtomOp) (old x n : BitVec b) : BitVec b :=
  match op with
  | .add => old + x
  | .and => old &&& x
  | .or => old ||| x
  | .xor => old ^^^ x
  | .min => if x.toInt < old.toInt then x else old
  | .max => if old.toInt < x.toInt then x else old
  | .swp => x
  | .fadd => BitVec.ofNat b (f32Add old.toNat x.toNat).1
  | .cas => if old = x then n else old

/-- The atomic of w bytes completes: its register takes the old value, its bytes the new one, and nothing else changes. -/
def AtomGives (i : Instr) (s : State) (op : AtomOp) (w : Nat) (d b : SReg) (off : BitVec 29) (o : Ord) (x n : Dbl) : Prop :=
  ∀ u pgs, Orderable s o → addrOf s b off % w = 0 → Reaches s u .both true (addrOf s b off) w pgs → Coherent s pgs (addrOf s b off) w →
    let old := valueAt s pgs (addrOf s b off) w
    let new := atomValue op (BitVec.ofNat (8 * w) old) (x.setWidth (8 * w)) (n.setWidth (8 * w))
    ∃ t, exec i s = .next t ∧ OnlyMeStored s t ∧ Retires s.me t.me (nextSlot s.me.pc) ∧ HoldsS (ordered s.me t.me) d (BitVec.ofNat 64 old) t.me
      ∧ StoresAt s t pgs (addrOf s b off) w (byteOf new)

/-- The atomic of w bytes takes the traps of R245; a walk that met an uncorrectable error is no trap (R274). -/
def AtomTraps (i : Instr) (s : State) (op : AtomOp) (w : Nat) (b : SReg) (off : BitVec 29) : Prop :=
  (∀ u c v, check67 s s.cur .both (addrOf s b off) w = (u, .error (c, v)) → c ≠ eccCause → TrapsWalked i s c (BitVec.ofNat 64 v))
    ∧ ∀ u pgs, check67 s s.cur .both (addrOf s b off) w = (u, .ok pgs) →
      (addrOf s b off % w ≠ 0 → TrapsWalked i s 8 (BitVec.ofNat 64 (addrOf s b off)))
      ∧ (addrOf s b off % w = 0 → pteTier (pageOf pgs (addrOf s b off)).pte = 3 → ¬(w = 8 ∧ (op = .add ∨ op = .cas)) →
          TrapsWalked i s 16 (BitVec.ofNat 64 (addrOf s b off)))

end Sys2Proof.Claims

/-- R244: a scalar load reads its bytes through the checked pages, extends them, and changes its register alone: a load with
sD = s0 too, which changes none. -/
def Sys2Proof.Claims.ScalarLoadsReadTheirBytes : Prop :=
  ∀ (s u : State) (x : Load) (pgs : List TlbEntry), ∀ f ∈ loadForms, Live s → s.me.guards x.g = true → CountOk s.me x.h → x.o.forLoad = true →
    (x.o = .plain ∨ addrOf s x.b x.off % f.2.1 = 0) → Reaches s u .load false (addrOf s x.b x.off) f.2.1 pgs →
    Coherent s pgs (addrOf s x.b x.off) f.2.1 →
    let v := BitVec.ofNat (8 * f.2.1) (valueAt s pgs (addrOf s x.b x.off) f.2.1)
    ∃ t, exec (f.1 x) s = .next t ∧ OnlyMeRead s t ∧ Retires s.me t.me (nextSlot s.me.pc)
      ∧ HoldsS (ordered s.me t.me) x.d (if f.2.2 then v.signExtend 64 else v.setWidth 64) t.me

/-- R244, R335: a scalar store writes the low bytes of sA at sB + off, and every other byte of memory stays; one with a release waits
while rows of a pooled lookup of the hart are still to be read. -/
def Sys2Proof.Claims.ScalarStoresWriteTheirBytes : Prop :=
  ∀ (s u : State) (x : Store) (pgs : List TlbEntry), ∀ f ∈ storeForms, Live s → s.mem.wf → s.me.guards x.g = true → x.o.forStore = true →
    (x.o = .plain ∨ addrOf s x.b x.off % f.2 = 0) → Reaches s u .store true (addrOf s x.b x.off) f.2 pgs →
    (Orderable s x.o → ∃ t, exec (f.1 x) s = .next t ∧ OnlyMeStored s t ∧ Retires s.me t.me (nextSlot s.me.pc)
      ∧ t.me = stepped (ordered s.me t.me) t.me ∧ StoresAt s t pgs (addrOf s x.b x.off) f.2 (byteOf (s.me.s x.a)))
    ∧ (¬Orderable s x.o → WaitsFor (f.1 x) s .reads)

/-- R236, R244, R245: the traps of scalar loads, stores and atomics, in their order: a count that R236 does not accept, an ordered
access that is not aligned, a fault of the lowest failing byte; for an atomic translation, then permission, then alignment, then an
operation that host memory does not take. A store or an atomic that traps writes no byte. -/
def Obligations.ScalarAccessesTrap : Prop :=
  ∀ s : State, Live s →
    (∀ x : Load, ∀ f ∈ loadForms, s.me.guards x.g = true →
      (∀ c, x.h = .ct c → (s.me.s c = 0 ∨ 255 < (s.me.s c).toNat) → Traps (f.1 x) s 2 (s.me.s c))
      ∧ (CountOk s.me x.h → x.o ≠ .plain → addrOf s x.b x.off % f.2.1 ≠ 0 →
          Traps (f.1 x) s 8 (BitVec.ofNat 64 (addrOf s x.b x.off)))
      ∧ ∀ u c v, CountOk s.me x.h → (x.o = .plain ∨ addrOf s x.b x.off % f.2.1 = 0) →
          checkRange s (s.partOf s.cur) s.me.root s.me.sup .load (addrOf s x.b x.off) f.2.1 = (u, .error (c, v)) →
          c ≠ eccCause → TrapsWalked (f.1 x) s c (BitVec.ofNat 64 v))
    ∧ (∀ x : Store, ∀ f ∈ storeForms, s.me.guards x.g = true →
      (x.o ≠ .plain → addrOf s x.b x.off % f.2 ≠ 0 → Traps (f.1 x) s 8 (BitVec.ofNat 64 (addrOf s x.b x.off)))
      ∧ ∀ u c v, (x.o = .plain ∨ addrOf s x.b x.off % f.2 = 0) →
          checkRange s (s.partOf s.cur) s.me.root s.me.sup .store (addrOf s x.b x.off) f.2 = (u, .error (c, v)) →
          c ≠ eccCause → TrapsWalked (f.1 x) s c (BitVec.ofNat 64 v))
    ∧ (∀ x : Atom, ∀ f ∈ atomForms, s.me.guards x.g = true → AtomTraps (f.1 x) s f.2 (if x.dbl then 8 else 4) x.b x.off)
    ∧ (∀ x : Acas, s.me.guards x.g = true → AtomTraps (.acas x) s .cas (if x.dbl then 8 else 4) x.b x.off)
    ∧ ∀ x : Afadd, s.me.guards x.g = true → AtomTraps (.afadd x) s .fadd 4 x.b x.off

/-- R245: an atomic returns what its element held and leaves the value of its table row. -/
def Sys2Proof.Claims.AtomicsReadAndWriteOneElement : Prop :=
  ∀ s : State, Live s → s.mem.wf →
    (∀ x : Atom, ∀ f ∈ atomForms, s.me.guards x.g = true →
      AtomGives (f.1 x) s f.2 (if x.dbl then 8 else 4) x.d x.b x.off x.o (s.me.s x.a) 0)
    ∧ (∀ x : Acas, s.me.guards x.g = true →
      AtomGives (.acas x) s .cas (if x.dbl then 8 else 4) x.d x.b x.off x.o (s.me.s x.e) (s.me.s x.n))
    ∧ ∀ x : Afadd, s.me.guards x.g = true → AtomGives (.afadd x) s .fadd 4 x.d x.b x.off x.o (s.me.s x.a) 0

/-- R244, R245: scalar loads read, stores write and atomics change exactly their bytes. Performing them at their step is a reading
(log 4, 8). -/
def Obligations.ScalarAccessesMoveTheirBytes : Prop :=
  Claims.ScalarLoadsReadTheirBytes ∧ Claims.ScalarStoresWriteTheirBytes ∧ Claims.AtomicsReadAndWriteOneElement

/-- R237, R238, R240, R246, R263, R370: LEASE is granted, has no effect where the hart already holds the line, waits where another hart
holds it or a line that crosses it, or came first, or traps; UNLEASE ends the leases on its row line and changes nothing else. That LEASE
waits for the engine commands of its hart that hold bytes of the line, for its pooled lookups and for posted stores to the line, so that
what R370 promises holds, is log 13's reading (DESIGN CHOICE). -/
def Sys2Proof.Claims.LeasesAreTakenAndEnded : Prop :=
  ∀ s : State, Live s →
    (∀ x : Sys2Proof.Lease, s.me.guards x.g = true →
      let a := addrOf s x.b x.off
      let n := x.n.toNat
      let held := s.me.leases.filter fun l => s.cycle < l.until_
      (n < 16 ∨ 64 < n → Traps (.lease x) s 2 (BitVec.ofNat 64 n))
      ∧ ∀ u pgs, 16 ≤ n → n ≤ 64 → checkRange s (s.partOf s.cur) s.me.root s.me.sup .both a 1 = (u, .ok pgs) →
        let e := pageOf pgs a
        (pteC e.pte = false ∨ e.isLocal = false → TrapsWalked (.lease x) s 14 (BitVec.ofNat 64 a))
        ∧ (pteC e.pte = true → e.isLocal = true →
          ((∃ l ∈ held, l.vline = a / 64) → SkipsWalked (.lease x) s)
          ∧ ((∀ l ∈ held, l.vline ≠ a / 64) → 4 ≤ held.length → TrapsWalked (.lease x) s 13 (BitVec.ofNat 64 a))
          ∧ ((∀ l ∈ held, l.vline ≠ a / 64) → held.length < 4 →
            let line := keyAt s pgs (a / 64 * 64) / 64
            let busy := interlocked s.myCore s.cur.h false (a / 64 * 64) (a / 64 * 64 + 64) = true
            let free := leased s s.cur true line = false ∧ (∀ l, behind s s.cur l = false) ∧ crossFar s s.cur [line] = none
              ∧ ∀ l ∈ crossLines (s.part (s.partOf s.cur)).dies e a, leasedFar s s.cur l = false
            (busy → WaitsFor (.lease x) s .interlock) ∧ (¬busy → RowsLeft s.me (fun _ => True) → WaitsFor (.lease x) s .reads)
            ∧ (¬busy → ¬RowsLeft s.me (fun _ => True) → (∀ p, ¬Behind s p) →
            (free → ∃ t, exec (.lease x) s = .next t ∧ OnlyMeWalked s t ∧ Retires s.me t.me (nextSlot s.me.pc)
              ∧ t.me = { stepped s.me t.me with leases := held ++ [⟨a / 64, line, s.cycle + n, n / 2, crossLines (s.part (s.partOf s.cur)).dies e a⟩] })
            ∧ (¬free → ∃ l, WaitsFor (.lease x) s (.leaseGrant l))))))
    ∧ ∀ x : Unlease, s.me.guards x.g = true → Ends (.unlease x) s (nextSlot s.me.pc) fun h =>
        h = { stepped s.me h with leases := s.me.leases.filter fun l => l.vline ≠ addrOf s x.b x.off / 64 }

/-- R247, R312: STLC stores and sets its predicate where the hart holds a lease on the line, and else, and on a page of another module or
of the host, clears it and stores nothing; translation, permission and alignment are checked first, in this order, and trap. -/
def Sys2Proof.Claims.StlcStoresUnderALease : Prop :=
  ∀ (s u : State) (x : Stlc) (pgs : List TlbEntry), Live s → s.mem.wf → s.me.guards x.g = true →
    let a := addrOf s x.b x.off
    let w := 2 ^ x.z.toNat
    (∀ c v, check67 s s.cur .both a w = (u, .error (c, v)) → c ≠ eccCause → TrapsWalked (.stlc x) s c (BitVec.ofNat 64 v))
    ∧ (check67 s s.cur .both a w = (u, .ok pgs) → a % w ≠ 0 → TrapsWalked (.stlc x) s 8 (BitVec.ofNat 64 a))
    ∧ (a % w = 0 → Orderable s x.o → check67 s s.cur .both a w = (u, .ok pgs) → (pageOf pgs a).isLocal = false → (∀ p, ¬Behind s p) →
      interlocked s.myCore s.cur.h false a (a + w) = false →
      ∃ t, exec (.stlc x) s = .next t ∧ OnlyMeWalked s t ∧ Retires s.me t.me (nextSlot s.me.pc) ∧ HoldsP s.me x.d false t.me)
    ∧ (a % w = 0 → Orderable s x.o → Reaches s u .both true a w pgs →
    (∀ l ∈ s.me.leases, l.vline = a / 64 → s.cycle < l.until_ →
      ∃ t, exec (.stlc x) s = .next t ∧ OnlyMeStored s t ∧ Retires s.me t.me (nextSlot s.me.pc) ∧ HoldsP (ordered s.me t.me) x.d true t.me
        ∧ StoresAt s t pgs a w (byteOf (s.me.s x.a)))
    ∧ ((∀ l ∈ s.me.leases, l.vline = a / 64 → l.until_ ≤ s.cycle) →
      ∃ t, exec (.stlc x) s = .next t ∧ OnlyMeWalked s t ∧ Retires s.me t.me (nextSlot s.me.pc) ∧ HoldsP s.me x.d false t.me))

/-- R230, R248, R340: CFLUSH and CINV, and CPREF, change no register and no byte of memory; on a cacheable local page, the dirty
copies of the named line and of each line that crosses it are written back, which every mapping sees once a fence of the hart
follows, and for CINV no copy of them stays. The named line is the row line, or, with .c on an orientable mapping that has one
there, the column line; CFLUSH and CINV wait for another core's lease on one of these lines. -/
def Sys2Proof.Claims.CacheMaintenanceChangesNoByte : Prop :=
  ∀ s : State, Live s →
    (∀ (x : Cmaint) (u : State) (pgs : List TlbEntry), s.me.guards x.g = true →
      checkRange s (s.partOf s.cur) s.me.root s.me.sup .load (addrOf s x.b x.off) 1 = (u, .ok pgs) →
      let a := addrOf s x.b x.off
      let e := pageOf pgs a
      let dies := (s.part (s.partOf s.cur)).dies
      let ks := lineAndCrossing dies e a x.col
      let w := 2 ^ pteWcode e.pte
      let pitch := 2 ^ (ptePcode e.pte + 6)
      let m := a % 2 ^ e.lg
      (pteC e.pte = false ∨ e.isLocal = false → SkipsWalked (.cflush x) s ∧ SkipsWalked (.cinv x) s)
      ∧ (x.col = false → ∀ i < 64, keyAt s pgs (a / 64 * 64 + i) ∈ ks)
      ∧ (x.col = true → pteOri e.pte = true → (m / pitch / 16 * 16 + 16) * pitch ≤ 2 ^ e.lg → ∀ t < 16, ∀ i < w,
          let pa := e.pa a - m + (m / pitch / 16 * 16 + t) * pitch + m % pitch / w * w + i
          (if pteTier e.pte = 0 then hbmKey dies pa else sadKey dies pa) ∈ ks)
      ∧ (pteC e.pte = true → e.isLocal = true →
        ∀ f ∈ [(Instr.cflush, false), (Instr.cinv, true)],
          ((∀ l, behind s s.cur l = false) → (∀ k ∈ ks, leasedFar s s.cur (k / 64) = false) →
            ((∀ k ∈ ks, NoError s true k) ∨ ∀ k ∈ ks, mayDirty s k (fun _ => true) = false) →
            ∃ t, exec (f.1 x) s = .next t
              ∧ t = { s with harts := t.harts, fresh := t.fresh, flushed := t.flushed, uncachedW := t.uncachedW, badL1 := t.badL1,
                             badL2 := t.badL2, md := { s.md with notLiveReads := t.md.notLiveReads } }
              ∧ (∀ g, g ≠ s.cur → t.hart g = s.hart g) ∧ Retires s.me t.me (nextSlot s.me.pc) ∧ t.me = stepped s.me t.me
              ∧ (∀ y, y ∈ t.flushed ↔ y ∈ s.flushed ∨ (y.1 = s.cur ∧ y.2 ∈ ks ∧ ∃ l, (y.2, l) ∈ s.cachedW))
              ∧ (f.2 = false → t.uncachedW = s.uncachedW ∧ t.badL1 = s.badL1 ∧ t.badL2 = s.badL2)
              ∧ (f.2 = true → (∀ k, k ∈ t.uncachedW ↔ k ∈ s.uncachedW ∧ k ∉ ks)
                ∧ (∀ u, u ∈ t.badL2 ↔ u ∈ s.badL2 ∧ ∀ k ∈ ks, u / 64 ≠ k / 64) ∧ ∀ y, y ∈ t.badL1 ↔ y ∈ s.badL1 ∧ ∀ k ∈ ks, y.2 / 64 ≠ k / 64))
          ∧ ((∃ k ∈ ks, leasedFar s s.cur (k / 64) = true) → ∃ l, WaitsFor (f.1 x) s (.lease l))))
    ∧ ∀ x : Cpref, s.me.guards x.g = true → s.bad = [] → s.badL1 = [] → s.badL2 = [] → SkipsWalked (.cpref x) s

/-- R237, R240, R246 to R248, R340: LEASE, UNLEASE and STLC; CFLUSH, CINV and CPREF change no byte. Lines are matched as the lease
named them (log 43), and reconciled as log 51 says. What LEASE waits for of its own hart, and a LEASE of a held line, are log
13's. -/
def Obligations.LeasesAndCacheInstructionsDoTheirWork : Prop :=
  Claims.LeasesAreTakenAndEnded ∧ Claims.StlcStoresUnderALease ∧ Claims.CacheMaintenanceChangesNoByte

/-- R311, R313 to R315, R329: a plain store to a page of another module or of the host is posted, and no byte of this module's memory
changes; a load there asks once and waits, and completes with what was answered; a rejected one, or one over a Spoke of which no
link is left, is an access fault. The wait and the second execution are the model's (log 38). -/
def Obligations.RemoteStoresArePostedAndLoadsWait : Prop :=
  ∀ (s u : State), Live s → (∀ p, ¬Behind s p) →
    (∀ (x : Store) (pgs : List TlbEntry), ∀ f ∈ storeForms, s.me.guards x.g = true → x.o = .plain →
      let a := addrOf s x.b x.off
      let e := pageOf pgs a
      a % 65536 + f.2 ≤ 65536 → checkRange s (s.partOf s.cur) s.me.root s.me.sup .store a f.2 = (u, .ok pgs) →
      e.isLocal = false → interlocked s.myCore s.cur.h false a (a + f.2) = false → ¬RowsLeft s.me (·.rel = true) →
      (e.isSelf s = true → ¬RowsLeft s.me fun _ => True) →
      let p : Posted := { id := s.nextPosted, h := s.cur, mod := if pteTier e.pte = 2 then some (pteMod e.pte) else none,
                          pa := e.pa a, bytes := (List.range f.2).map fun i => (i, byteOf (s.me.s x.a) i), rels := s.me.fenced }
      ∃ t, exec (f.1 x) s = .next t ∧ Retires s.me t.me (nextSlot s.me.pc) ∧ t.me = stepped s.me t.me
        ∧ (∀ g, g ≠ s.cur → t.hart g = s.hart g)
        ∧ t = { s with harts := t.harts, fresh := t.fresh, posted := s.posted ++ [p], nextPosted := s.nextPosted + 1,
                       md := { s.md with sent := .posted p :: s.md.sent, notLiveReads := t.md.notLiveReads } })
    ∧ ∀ (x : Load) (pgs : List TlbEntry), ∀ f ∈ loadForms, s.me.guards x.g = true → x.o = .plain → CountOk s.me x.h →
      let a := addrOf s x.b x.off
      let e := pageOf pgs a
      a % 65536 + f.2.1 ≤ 65536 → checkRange s (s.partOf s.cur) s.me.root s.me.sup .load a f.2.1 = (u, .ok pgs) →
      e.isLocal = false → e.isSelf s = false → interlocked s.myCore s.cur.h false a (a + f.2.1) = false →
      (s.me.answers = [] → s.me.wait = none → (pteTier e.pte = 2 → s.md.linkOk ≠ 0) → stopping s s.cur = false →
        ∃ t, exec (f.1 x) s = .next t ∧ t.me = { s.me with wait := some (.peer 0), waitNo := t.me.waitNo }
          ∧ t = { s with harts := t.harts, fresh := t.fresh, waitNos := s.waitNos + 1,
                         md := { s.md with notLiveReads := t.md.notLiveReads,
                                           sent := .request s.cur (if pteTier e.pte = 2 then some (pteMod e.pte) else none)
                                                  (e.pa a) (.load f.2.1) :: s.md.sent } })
      ∧ (s.me.answers = [] → pteTier e.pte = 2 → s.md.linkOk = 0 → TrapsWalked (f.1 x) s 7 (BitVec.ofNat 64 a))
      ∧ (s.me.answers = [(0, .reject)] → TrapsWalked (f.1 x) s 7 (BitVec.ofNat 64 a))
      ∧ ∀ d, s.me.answers = [(0, .accept d)] →
        let v := d.setWidth (8 * f.2.1)
        ∃ t, exec (f.1 x) s = .next t ∧ OnlyMeWalked s t ∧ Retires s.me t.me (nextSlot s.me.pc)
          ∧ HoldsS s.me x.d (if f.2.2 then v.signExtend 64 else v.setWidth 64) t.me

/-! ## Vector, scratchpad and queue accesses -/

namespace Sys2Proof.Claims

/-- The A side is at the start of an instruction: element index 0, nothing claimed, no element posted and awaited, no entry of an
abandoned claim or of a load that is still under way. -/
def FreshA (h : Hart) : Prop :=
  h.eix = 0 ∧ h.claim = none ∧ (∀ i, h.wait ≠ some (.scStore i)) ∧ ∀ q : SQ, ∀ e ∈ h.sq[q.toNat]'(q.isLt), e.dead = false ∧ e.feeds = none
def lqOf (h : Hart) (q : LQ) : List QEntry := h.lq[q.toNat]'(q.isLt)
def sqOf (h : Hart) (q : SQ) : List QEntry := h.sq[q.toNat]'(q.isLt)
/-- The slot that the next entry of an lq takes (log 19). -/
def tailOf (h : Hart) (q : LQ) : BitVec 2 := h.lqTail[q.toNat]'(q.isLt)
/-- No element and no bag of the hart's loads is in flight (R253, R337). -/
def NoReadsOut (h : Hart) : Prop := ∀ q : LQ, ∀ e ∈ lqOf h q, e.flight = [] ∧ e.pool = none
def rowsOf (h : Hart) : Nat := h.shp.toNat % 65536
def colsOf (h : Hart) : Nat := h.shp.toNat / 65536 % 65536

/-- What R189 asks of a vector access with elements of w bytes. -/
def FormOk (s : State) (w : Nat) (col twoD indexed : Prop) : Prop :=
  (col → twoD ∨ indexed) ∧ (twoD → rowsOf s.me ≠ 0 ∧ colsOf s.me ≠ 0 ∧ s.me.vl.toNat ≤ rowsOf s.me * colsOf s.me)
    ∧ s.me.vl.toNat * w ≤ s.vlen s.cur ∧ (indexed → s.me.vl.toNat * 4 ≤ s.vlen s.cur)
/-- R188: how far element i lies from the base, in the unit form and in the two forms with a pitch. -/
def spanOf (h : Hart) (p : SReg) (col : Bool) (w i : Nat) : Int :=
  if p = 0 then (i * w : Nat)
  else if col then ((i % rowsOf h : Nat) : Int) * (h.s p).toInt + ((i / rowsOf h) * w : Nat)
  else ((i / colsOf h : Nat) : Int) * (h.s p).toInt + ((i % colsOf h) * w : Nat)
def baseOf (s : State) (b : SReg) (off : BitVec 29) : Int := (s.me.s b + off.signExtend 64).toInt
/-- A virtual address, modulo 2^64. -/
def virt (a : Int) : Nat := (a % 2 ^ 64).toNat

/-- The key of byte j of an element that the check phase passed. -/
def elemKey (s : State) (y : Elem) (j : Nat) : Nat := y.2.2.key (s.part (s.partOf s.cur)).dies (y.2.1 + j)
def elemValue (s : State) (w : Nat) (y : Elem) : Nat := ofBytes ((List.range w).map fun j => s.mem.read (elemKey s y j))
/-- The elements lie on local pages and nothing holds them up (as Unheld says; a read of a `.c` form that fetches column lines also
waits for what a write waits for at the lines that cross them, R238), and no uncorrectable error stands (R372); where they are read,
each byte gives its present value. -/
def ElemsFree (s : State) (els : List Elem) (write read : Bool) (w : Nat) (col : Option (Int × Nat) := none) : Prop :=
  (∀ p, ¬Behind s p) ∧ (∀ l, behind s s.cur l = false) ∧ s.bad = [] ∧ s.badL1 = [] ∧ s.badL2 = []
    ∧ (write = true → ¬RowsLeft s.me (·.rel = true))
    ∧ ∀ y ∈ els, y.2.2.isLocal = true ∧ interlocked s.myCore s.cur.h false y.2.1 (y.2.1 + w) = false
      ∧ (write = true ∨ colFetch y.2.2 col = true →
          ∀ l ∈ crossLines (s.part (s.partOf s.cur)).dies y.2.2 y.2.1, leasedFar s s.cur l = false)
      ∧ ∀ j < w, leased s s.cur write (elemKey s y j / 64) = false ∧ poolReads s s.cur [elemKey s y j] = false
        ∧ (write = true → crossFar s s.cur [elemKey s y j / 64] = none)
        ∧ (read = true → PlainRead s (pteC y.2.2.pte) (elemKey s y j))
/-- The elements are those of [0, n) that are not skipped, in order, at these addresses. -/
def Covers (els : List Elem) (n : Nat) (skip : Nat → Bool) (addr : Nat → Nat) : Prop :=
  els.map (fun y => (y.1, y.2.1)) = ((List.range n).filter fun i => !skip i).map fun i => (i, addr i)

/-- The sq's with these numbers of entries popped. -/
def Popped (s : State) (pops : SQ → Nat) (r : SQ) : List QEntry := (sqOf s.me r).drop (pops r)
/-- The queues after an access: an entry at the tail of lq q, in the next slot of that queue (log 19), and these sq's. -/
def QueuesMoved (s t : State) (q : LQ) (e : QEntry) (after : SQ → List QEntry) : Prop :=
  lqOf t.me q = lqOf s.me q ++ [e] ∧ e.slot = tailOf s.me q ∧ tailOf t.me q = tailOf s.me q + 1
    ∧ (∀ r, r ≠ q → lqOf t.me r = lqOf s.me r ∧ tailOf t.me r = tailOf s.me r) ∧ ∀ r, sqOf t.me r = after r
/-- What a load has requested (R251, R275): its elements, in flight. -/
def InFlight (s : State) (w : Nat) (els : List Elem) : List (Nat × BitVec 64) :=
  (els.map fun y => (y.1, BitVec.ofNat 64 (elemValue s w y))).reverse
/-- Where they come from. -/
def Sources (s : State) (w : Nat) (els : List Elem) : List (Nat × List Nat) :=
  (els.map fun y => (y.1, (List.range w).map (elemKey s y))).reverse

/-- The load has read its elements and sent them to a new entry at the tail of its queue; nothing else changes but ffe. -/
def LoadsElements (i : Instr) (s : State) (q : LQ) (w : Nat) (els : List Elem) (after : SQ → List QEntry) (ffe : Dbl) : Prop :=
  ∃ t, exec i s = .next t ∧ OnlyMeRead s t ∧ Retires s.me t.me (nextSlot s.me.pc)
    ∧ t.me = { stepped (ordered s.me t.me) t.me with lq := t.me.lq, lqTail := t.me.lqTail, sq := t.me.sq, ffe := ffe }
    ∧ QueuesMoved s t q { width := w, issued := true, done := els.isEmpty, slot := tailOf s.me q, flight := InFlight s w els,
                          src := Sources s w els } after

/-- A byte after writes, the last of which counts. -/
def lastWrite (m : Memory) (l : List (Nat × Byte)) (k : Nat) : Byte := match l.reverse.find? fun x => x.1 == k with
  | some x => x.2
  | none => m.read k

/-- The store has written elements of entry d at these keys, in order; nothing else changes but the queues popped. -/
def StoresElements (i : Instr) (s : State) (w : Nat) (els : List (Nat × (Nat → Nat))) (d : QEntry) (pops : SQ → Nat) (tickets : Nat) :
    Prop :=
  ∃ t, exec i s = .next t
    ∧ OnlyMeStored { s with ticket := s.ticket + tickets } t
    ∧ Retires s.me t.me (nextSlot s.me.pc) ∧ t.me = { stepped (ordered s.me t.me) t.me with sq := t.me.sq }
    ∧ (∀ r, sqOf t.me r = (sqOf s.me r).drop (pops r))
    ∧ ∀ k, t.mem.read k =
        lastWrite s.mem (els.flatMap fun y => (List.range w).map fun j => (y.2 j, BitVec.ofNat 8 (d.elt y.1 w / 256 ^ j))) k

/-- The entry holds these values in w bytes each, at these elements, and has no other element written. -/
def HoldsElements (e : QEntry) (w : Nat) (l : List (Nat × Nat)) : Prop :=
  (∀ y ∈ l, e.has y.1 w = true ∧ e.elt y.1 w = y.2) ∧ ∀ i, (∀ y ∈ l, y.1 ≠ i) → e.has i w = false

/-- R190: the elements of a scratchpad access that are not skipped lie in the scratchpad, aligned, and nothing holds them up. -/
def ScratchOk (s : State) (write : Bool) (w : Nat) (skip : Nat → Bool) (addr : Nat → Int) : Prop :=
  s.bad = [] ∧ s.badL2 = [] ∧ (write = true → ¬RowsLeft s.me (·.rel = true)) ∧ ∀ i < s.me.vl.toNat, skip i = false →
    0 ≤ addr i ∧ addr i + w ≤ (s.myCore.bnd2.toNat - s.myCore.bnd1.toNat : Nat) ∧ addr i % w = 0
      ∧ interlocked s.myCore s.cur.h true (addr i).toNat ((addr i).toNat + w) = false
/-- The key of byte j of the scratchpad element at offset a. -/
def scratchKey (s : State) (a : Int) (j : Nat) : Nat := poolKey s.cur.l s.cur.k (s.myCore.bnd1.toNat + a.toNat + j)
/-- The load has filled a new entry at the tail of its queue from the scratchpad; nothing else changes. -/
def LoadsScratch (i : Instr) (s : State) (q : LQ) (w : Nat) (skip : Nat → Bool) (addr : Nat → Int) (pops : SQ → Nat) : Prop :=
  ∃ t e, exec i s = .next t ∧ OnlyMe s t ∧ Retires s.me t.me (nextSlot s.me.pc)
    ∧ t.me = { stepped (ordered s.me t.me) t.me with lq := t.me.lq, lqTail := t.me.lqTail, sq := t.me.sq }
    ∧ QueuesMoved s t q e (Popped s pops)
    ∧ e = { data := e.data, written := e.written, issued := true, done := true, width := w, slot := e.slot }
    ∧ HoldsElements e w (((List.range s.me.vl.toNat).filter fun i => !skip i).map fun i =>
        (i, ofBytes ((List.range w).map fun j => s.mem.read (scratchKey s (addr i) j))))

/-- What an element trap leaves in a hart that has claimed its queue entries (h): the trap, at element k, beside what the elements
below it left in the entry it has reserved and in the order of its accesses. -/
def ElementTrap (h : Hart) (t : State) (c : Nat) (v : Dbl) (k : Nat) : Prop :=
  TrapTaken { ordered h t.me with lq := t.me.lq } t.me false c v k 0
/-- A load traps at element k, those below it being in the entry that it has reserved, which E describes. -/
def LoadTraps (i : Instr) (s : State) (h : Hart) (q : LQ) (tickets : Nat) (E : QEntry → Prop) (c : Nat) (v : Dbl) (k : Nat) : Prop :=
  ∃ t e, exec i s = .next t ∧ OnlyMeRead { s with ticket := s.ticket + tickets } t ∧ ElementTrap h t c v k
    ∧ QueuesMoved s t q e (Popped s fun _ => 0) ∧ E e
/-- The reserved entry of w-byte elements, with these in flight. -/
def Requested (s : State) (w : Nat) (els : List Elem) (e : QEntry) : Prop :=
  e = { width := w, slot := e.slot, flight := InFlight s w els, src := Sources s w els }
/-- The reserved entry of w-byte elements, with these delivered. -/
def Delivered (chain : Bool) (w : Nat) (l : List (Nat × Nat)) (e : QEntry) : Prop :=
  e = { data := e.data, written := e.written, width := w, slot := e.slot, chain := chain } ∧ HoldsElements e w l
/-- A store traps at element k, those below it being written, with no entry popped. -/
def StoreTraps (i : Instr) (s : State) (h : Hart) (w : Nat) (els : List (Nat × (Nat → Nat))) (d : QEntry) (tickets c : Nat) (v : Dbl)
    (k : Nat) : Prop :=
  ∃ t, exec i s = .next t ∧ OnlyMeStored { s with ticket := s.ticket + tickets } t ∧ ElementTrap h t c v k ∧ t.me.lq = s.me.lq
    ∧ t.me.sq = s.me.sq
    ∧ ∀ a, t.mem.read a =
        lastWrite s.mem (els.flatMap fun y => (List.range w).map fun j => (y.2 j, BitVec.ofNat 8 (d.elt y.1 w / 256 ^ j))) a
/-- Nothing holds up scratchpad elements that have passed their check. -/
def ScratchFree (s : State) (write : Bool) (els : List Elem) (w : Nat) : Prop :=
  s.bad = [] ∧ s.badL2 = [] ∧ (write = true → ¬RowsLeft s.me (·.rel = true)) ∧ ∀ y ∈ els, interlocked s.myCore s.cur.h true y.2.1 (y.2.1 + w) = false
def scratchValue (s : State) (w : Nat) (y : Elem) : Nat := ofBytes ((List.range w).map fun j => s.mem.read (scratchKey s y.2.1 j))

/-- n entries popped from one sq. -/
def pop1 (q r : SQ) : Nat := if r = q then 1 else 0
def noSkip (_ : Nat) : Bool := false

/-- A byte map with a number of whole bytes written at keys. -/
def putKeys {b : Nat} (m : Nat → Byte) (ks : List Nat) (v : BitVec b) : Nat → Byte := fun k =>
  match (List.range ks.length).reverse.find? fun i => ks.getD i 0 == k with
  | some i => byteOf v i
  | none => m k
/-- R255: atomics one after another, each given by its keys and its operand: the bytes they leave and the old values. -/
def amoRun (op : AtomOp) (w : Nat) : List (List Nat × Nat) → (Nat → Byte) → (Nat → Byte) × List Nat
  | [], m => (m, [])
  | (ks, x) :: t, m =>
    let old := ofBytes (ks.map m)
    let r := amoRun op w t (putKeys m ks (atomValue op (BitVec.ofNat (8 * w) old) (BitVec.ofNat (8 * w) x) 0))
    (r.1, old :: r.2)

end Sys2Proof.Claims

/-- R188, R236, R249 to R252, R275: VLD and VLDFF read their elements, in the unit form and both pitched ones, into a new entry
of their lq, where they arrive later; VLDFF sets ffe to vl, or to the index of a failing element above the first. An element whose walk met an
uncorrectable error is a device fault instead (R274). The address is taken modulo 2^64 (log 44, DEDUCED). -/
def Sys2Proof.Claims.VectorLoadsFillAnEntry : Prop :=
  ∀ (s u : State) (h : Hart) (x : Vld) (els : List Elem) (f : Option (Nat × Nat × Dbl)), UserMode s → FreshA s.me →
    s.me.guards x.g = true →
    let w := 2 ^ x.z.toNat
    let addr := fun i => virt (baseOf s x.b x.off + spanOf s.me x.p x.col w i)
    FormOk s w (x.col = true) (x.p ≠ 0) False → CountOk s.me x.h → claimQueues s.me { lq := some x.q } w = .ok h →
    checkPhase noSkip (checkElem .load w addr) s.me.vl.toNat 0 (s.setMe h) = (u, els, f) →
    ElemsFree s els false true w (colForm s.me x.p x.col w x.h) →
    (f = none → Covers els s.me.vl.toNat noSkip addr ∧ LoadsElements (.vld x) s x.q w els (Popped s fun _ => 0) s.me.ffe
      ∧ LoadsElements (.vldff x) s x.q w els (Popped s fun _ => 0) s.me.vl)
    ∧ ∀ k c v, f = some (k, c, v) → k ≠ 0 → c ≠ eccCause → Covers els k noSkip addr
      ∧ LoadsElements (.vldff x) s x.q w els (Popped s fun _ => 0) (BitVec.ofNat 64 k)

/-- R188, R190, R249, R250: VLDX reads element i at base + x[i] · w for every index its pusher wrote; the index entry stays with the new
entry until its last element arrives, and is popped at once where there is none. The address is taken modulo 2^64 (log 44, DEDUCED). -/
def Sys2Proof.Claims.IndexedLoadsFillAnEntry : Prop :=
  ∀ (s u : State) (h : Hart) (x : Vldx) (els : List Elem) (ie : QEntry) (ri : List QEntry), UserMode s → FreshA s.me →
    s.me.guards x.g = true → sqOf s.me x.i = ie :: ri →
    let w := 2 ^ x.z.toNat
    let addr := fun i => virt (baseOf s x.b x.off + (ie.elt i 4 * w : Nat))
    FormOk s w False False True → claimQueues s.me (Takes.sq { lq := some x.q } x.i 1) w = .ok h →
    checkPhase (fun i => !ie.has i 4) (checkIndex x.i ie (checkElem .load w addr)) s.me.vl.toNat 0 (s.setMe h) = (u, els, none) →
    ElemsFree s els false true w →
    Covers els s.me.vl.toNat (fun i => !ie.has i 4) addr ∧ LoadsElements (.vldx x) s x.q w els
      (if els.isEmpty then Popped s (pop1 x.i)
        else fun r => if r = x.i then { ie with feeds := some (x.q, tailOf s.me x.q) } :: ri else sqOf s.me r) s.me.ffe

/-- R253: with every earlier access performed, VLDSC reads its elements at once, draws one ticket for each, and leaves a complete
entry that no element chains out of. -/
def Sys2Proof.Claims.OrderedLoadsDrawTickets : Prop :=
  ∀ (s u : State) (h : Hart) (x : Vlds) (els : List Elem), UserMode s → FreshA s.me → s.me.guards x.g = true →
    NoReadsOut s.me →
    let w := 2 ^ x.z.toNat
    let addr := fun i => virt (baseOf s x.b x.off + spanOf s.me x.p x.col w i)
    FormOk s w (x.col = true) (x.p ≠ 0) False → s.me.vl.toNat * w ≤ 8192 → claimQueues s.me { lq := some x.q } w = .ok h →
    checkPhase noSkip (checkElem .load w addr) s.me.vl.toNat 0 ((s.setMe h).updHart s.cur (noChain x.q)) = (u, els, none) →
    ElemsFree s els false true w (colForm s.me x.p x.col w .none) →
    Covers els s.me.vl.toNat noSkip addr ∧ ∃ t e, exec (.vldsc x) s = .next t
      ∧ OnlyMeRead { s with ticket := s.ticket + els.length } t ∧ Retires s.me t.me (nextSlot s.me.pc)
      ∧ t.me = { stepped (ordered s.me t.me) t.me with lq := t.me.lq, lqTail := t.me.lqTail, sq := t.me.sq }
      ∧ QueuesMoved s t x.q e (Popped s fun _ => 0)
      ∧ e = { data := e.data, written := e.written, issued := true, done := true, width := w, slot := e.slot, chain := false }
      ∧ HoldsElements e w (els.map fun y => (y.1, elemValue s w y))

/-- R188, R190, R236, R249 to R253, R275: the vector loads append one entry with the elements their addresses name. Values are read at
issue (log 8). Which of its queue's four slots a new lq entry takes is a reading (log 19). -/
def Obligations.VectorLoadsFillTheirEntries : Prop :=
  Claims.VectorLoadsFillAnEntry ∧ Claims.IndexedLoadsFillAnEntry ∧ Claims.OrderedLoadsDrawTickets

/-- R188, R190, R250, R253: VST, VSTSC and VSTX write exactly the elements that their pushers wrote, at their addresses, in index
order, and pop their entries; VSTSC draws a ticket for each. -/
def Sys2Proof.Claims.VectorStoresWriteTheirElements : Prop :=
  ∀ (s u : State) (h : Hart) (els : List Elem) (de : QEntry) (rd : List QEntry), UserMode s → FreshA s.me → s.mem.wf →
    (∀ x : Vst, s.me.guards x.g = true → sqOf s.me x.d = de :: rd →
      let w := 2 ^ x.z.toNat
      let addr := fun i => virt (baseOf s x.b x.off + spanOf s.me x.p x.col w i)
      FormOk s w (x.col = true) (x.p ≠ 0) False → claimQueues s.me (Takes.sq {} x.d 1) w = .ok h →
      checkPhase (fun i => !de.has i w) (checkElem .store w addr) s.me.vl.toNat 0 (s.setMe h) = (u, els, none) →
      ElemsFree s els true false w →
      Covers els s.me.vl.toNat (fun i => !de.has i w) addr
        ∧ StoresElements (.vst x) s w (els.map fun y => (y.1, elemKey s y)) de (pop1 x.d) 0
        ∧ (NoReadsOut s.me →
          StoresElements (.vstsc ⟨x.g, x.b, x.p, x.d, x.z, x.col, x.off⟩) s w (els.map fun y => (y.1, elemKey s y)) de (pop1 x.d)
            els.length))
    ∧ ∀ (x : Vstx) (ie : QEntry) (ri : List QEntry), s.me.guards x.g = true → x.i ≠ x.d → sqOf s.me x.d = de :: rd →
      sqOf s.me x.i = ie :: ri →
      let w := 2 ^ x.z.toNat
      let addr := fun i => virt (baseOf s x.b x.off + (ie.elt i 4 * w : Nat))
      let skip := fun i => !(ie.has i 4 && de.has i w)
      FormOk s w False False True → claimQueues s.me (Takes.sq (Takes.sq {} x.i 1) x.d 1) w = .ok h →
      checkPhase skip (checkIndex x.i ie (checkElem .store w addr)) s.me.vl.toNat 0 (s.setMe h) = (u, els, none) →
      ElemsFree s els true false w →
      Covers els s.me.vl.toNat skip addr ∧ StoresElements (.vstx x) s w (els.map fun y => (y.1, elemKey s y)) de (fun _ => 1) 0

/-- R188 to R190: VLDS, VLDSX, VSTS and VSTSX move elements between a queue entry and the core's scratchpad. -/
def Sys2Proof.Claims.ScratchpadAccessesMoveTheirElements : Prop :=
  ∀ s : State, UserMode s → FreshA s.me → s.mem.wf →
    (∀ x : Vlds, s.me.guards x.g = true → (lqOf s.me x.q).length < 4 →
      let w := 2 ^ x.z.toNat
      let addr := fun i => baseOf s x.b x.off + spanOf s.me x.p x.col w i
      FormOk s w (x.col = true) (x.p ≠ 0) False → s.me.vl.toNat * w ≤ 8192 → ScratchOk s false w noSkip addr →
      LoadsScratch (.vlds x) s x.q w noSkip addr (fun _ => 0))
    ∧ (∀ (x : Vldsx) (ie : QEntry) (ri : List QEntry), s.me.guards x.g = true → (lqOf s.me x.q).length < 4 →
      sqOf s.me x.i = ie :: ri → ie.done = true →
      let w := 2 ^ x.z.toNat
      let addr := fun i => baseOf s x.b x.off + (ie.elt i 4 * w : Nat)
      FormOk s w False False True → s.me.vl.toNat * w ≤ 8192 → ScratchOk s false w (fun i => !ie.has i 4) addr →
      LoadsScratch (.vldsx x) s x.q w (fun i => !ie.has i 4) addr (pop1 x.i))
    ∧ (∀ (x : Vsts) (de : QEntry) (rd : List QEntry), s.me.guards x.g = true → sqOf s.me x.d = de :: rd → de.done = true →
      let w := 2 ^ x.z.toNat
      let addr := fun i => baseOf s x.b x.off + spanOf s.me x.p x.col w i
      FormOk s w (x.col = true) (x.p ≠ 0) False → ScratchOk s true w (fun i => !de.has i w) addr →
      StoresElements (.vsts x) s w (((List.range s.me.vl.toNat).filter fun i => de.has i w).map fun i => (i, scratchKey s (addr i)))
        de (pop1 x.d) 0)
    ∧ ∀ (x : Vstsx) (ie de : QEntry) (ri rd : List QEntry), s.me.guards x.g = true → x.i ≠ x.d → sqOf s.me x.i = ie :: ri →
      ie.done = true → sqOf s.me x.d = de :: rd → de.done = true →
      let w := 2 ^ x.z.toNat
      let addr := fun i => baseOf s x.b x.off + (ie.elt i 4 * w : Nat)
      FormOk s w False False True → ScratchOk s true w (fun i => !(ie.has i 4 && de.has i w)) addr →
      StoresElements (.vstsx x) s w
        (((List.range s.me.vl.toNat).filter fun i => ie.has i 4 && de.has i w).map fun i => (i, scratchKey s (addr i))) de (fun _ => 1) 0

/-- R188 to R190, R250, R253: vector stores and scratchpad accesses move exactly their elements. Addresses are formed as log 44 says.
Which of its queue's four slots a new lq entry takes is a reading (log 19). -/
def Obligations.VectorStoresAndScratchpadMoveTheirElements : Prop :=
  Claims.VectorStoresWriteTheirElements ∧ Claims.ScratchpadAccessesMoveTheirElements

/-- R254, R255: VAMO performs its elements as atomics in index order, and returns the old values to its lq where it names one. Their
addresses are taken modulo 2^64 (log 44, DEDUCED). Which of its queue's four slots a new lq entry takes is a reading (log 19). -/
def Obligations.VectorAtomicsApplyInIndexOrder : Prop :=
  ∀ (s u : State) (h : Hart) (x : Vamo) (els : List Elem) (ie de : QEntry) (ri rd : List QEntry), UserMode s → FreshA s.me → s.mem.wf →
    s.me.guards x.g = true → x.i ≠ x.d → sqOf s.me x.i = ie :: ri → sqOf s.me x.d = de :: rd → ¬(x.op = 7 ∧ x.dbl = true) →
    let w := if x.dbl then 8 else 4
    let vl := s.me.vl.toNat
    let addr := fun i => virt ((s.me.s x.b).toInt + (ie.elt i 4 * w : Nat))
    let skip := fun i => !(ie.has i 4 && de.has i w)
    vl * 4 ≤ s.vlen s.cur → vl * w ≤ s.vlen s.cur → vl * w ≤ 8192 →
    claimQueues s.me (Takes.sq (Takes.sq { lq := x.q } x.i 1) x.d 1) w = .ok h →
    checkPhase skip (checkIndex x.i ie (checkAmo (vamoOp x.op) w (s.me.s x.b) (s.me.s x.l) ie)) vl 0 (s.setMe h) = (u, els, none) →
    ElemsFree s els true true w → (∀ y ∈ els, ∀ z ∈ els, pteC y.2.2.pte = pteC z.2.2.pte) →
    let run := amoRun (vamoOp x.op) w (els.map fun y => ((List.range w).map (elemKey s y), de.elt y.1 w)) s.mem.read
    Covers els vl skip addr ∧ (∀ y ∈ els, ie.elt y.1 4 < (s.me.s x.l).toNat)
    ∧ ∃ t, exec (.vamo x) s = .next t ∧ OnlyMeStored s t ∧ Retires s.me t.me (nextSlot s.me.pc)
      ∧ t.me = { stepped (ordered s.me t.me) t.me with lq := t.me.lq, lqTail := t.me.lqTail, sq := t.me.sq }
      ∧ (∀ k, t.mem.read k = run.1 k) ∧ (x.q = none → t.me.lq = s.me.lq ∧ t.me.lqTail = s.me.lqTail ∧ ∀ r, sqOf t.me r = (sqOf s.me r).drop 1)
      ∧ ∀ q, x.q = some q → ∃ e, QueuesMoved s t q e (Popped s fun _ => 1)
          ∧ e = { data := e.data, written := e.written, issued := true, done := true, width := w, slot := e.slot }
          ∧ HoldsElements e w ((els.map (·.1)).zip run.2)

/-- R130: POPX pops the head of xq into its register; QDROP discards n entries of xq, or n complete entries of an sq. -/
def Obligations.PopxAndQdropTakeQueueHeads : Prop :=
  ∀ s : State, UserMode s → FreshA s.me →
    (∀ (x : Popx) v rest, s.me.guards x.g = true → s.me.xq = v :: rest → Ends (.popx x) s (nextSlot s.me.pc) fun h =>
      HoldsS { s.me with xq := rest } x.d v h)
    ∧ ∀ x : Qdrop, s.me.guards x.g = true →
      (x.q = .xq → x.n.toNat ≤ s.me.xq.length → Ends (.qdrop x) s (nextSlot s.me.pc) fun h =>
        h = { stepped s.me h with xq := s.me.xq.drop x.n.toNat })
      ∧ ∀ q, x.q = .sq q → x.n.toNat ≤ (sqOf s.me q).length → (∀ e ∈ (sqOf s.me q).take x.n.toNat, e.done = true) →
        Ends (.qdrop x) s (nextSlot s.me.pc) fun h => h = { stepped s.me h with sq := h.sq } ∧ ∀ r, sqOf h r =
          if r = q then (sqOf s.me q).drop x.n.toNat else sqOf s.me r

/-- R189, R255: a vector access whose form, pitch or length does not fit traps with vl in tval before any element; R190, R251, R252,
R255: every vector and scratchpad access traps at its first failing element (VLDFF at its first only), those below it being
performed, and keeps what it has claimed. What stays claimed is a reading (log 16, 44). Which of its queue's four slots a new lq
entry takes is a reading (log 19). -/
def Obligations.VectorAccessesTrapAtTheirElement : Prop :=
  ∀ s : State, UserMode s → FreshA s.me →
    (∀ x : Vld, s.me.guards x.g = true → ¬FormOk s (2 ^ x.z.toNat) (x.col = true) (x.p ≠ 0) False →
      Traps (.vld x) s 2 s.me.vl ∧ Traps (.vldff x) s 2 s.me.vl)
    ∧ (∀ x : Vlds, s.me.guards x.g = true → ¬FormOk s (2 ^ x.z.toNat) (x.col = true) (x.p ≠ 0) False →
      Traps (.vldsc x) s 2 s.me.vl ∧ Traps (.vlds x) s 2 s.me.vl)
    ∧ (∀ x : Vst, s.me.guards x.g = true → ¬FormOk s (2 ^ x.z.toNat) (x.col = true) (x.p ≠ 0) False → Traps (.vst x) s 2 s.me.vl)
    ∧ (∀ x : Vsts, s.me.guards x.g = true → ¬FormOk s (2 ^ x.z.toNat) (x.col = true) (x.p ≠ 0) False →
      Traps (.vstsc x) s 2 s.me.vl ∧ Traps (.vsts x) s 2 s.me.vl)
    ∧ (∀ x : Vldx, s.me.guards x.g = true → ¬FormOk s (2 ^ x.z.toNat) False False True → Traps (.vldx x) s 2 s.me.vl)
    ∧ (∀ x : Vldsx, s.me.guards x.g = true → ¬FormOk s (2 ^ x.z.toNat) False False True → Traps (.vldsx x) s 2 s.me.vl)
    ∧ (∀ x : Vstx, s.me.guards x.g = true → ¬FormOk s (2 ^ x.z.toNat) False False True → Traps (.vstx x) s 2 s.me.vl)
    ∧ (∀ x : Vstsx, s.me.guards x.g = true → ¬FormOk s (2 ^ x.z.toNat) False False True → Traps (.vstsx x) s 2 s.me.vl)
    ∧ (∀ x : Vamo, s.me.guards x.g = true → ¬(x.op = 7 ∧ x.dbl = true) →
      ¬(s.me.vl.toNat * 4 ≤ s.vlen s.cur ∧ s.me.vl.toNat * (if x.dbl then 8 else 4) ≤ s.vlen s.cur) → Traps (.vamo x) s 2 s.me.vl)
    ∧ ∀ (u : State) (h : Hart) (els : List Elem) (k c : Nat) (v : Dbl), c ≠ eccCause →
      let vl := s.me.vl.toNat
      let strided (b p : SReg) (col : Bool) (off : BitVec 29) (w : Nat) := fun i => baseOf s b off + spanOf s.me p col w i
      let indexed (b : SReg) (off : BitVec 29) (ie : QEntry) (w : Nat) := fun i => baseOf s b off + (ie.elt i 4 * w : Nat)
      let lacks (e : QEntry) (w : Nat) := fun i => !e.has i w
      let fails (skip : Nat → Bool) (chk : State → Nat → State × Except (Nat × Dbl) (Nat × TlbEntry)) :=
        checkPhase skip chk vl 0 (s.setMe h) = (u, els, some (k, c, v))
      let globals : List (Nat × (Nat → Nat)) := els.map fun y => (y.1, elemKey s y)
      let locals : List (Nat × (Nat → Nat)) := els.map fun y => (y.1, scratchKey s y.2.1)
      (∀ x : Vld, s.me.guards x.g = true →
        let w := 2 ^ x.z.toNat
        FormOk s w (x.col = true) (x.p ≠ 0) False → CountOk s.me x.h → claimQueues s.me { lq := some x.q } w = .ok h →
        fails noSkip (checkElem .load w fun i => virt (strided x.b x.p x.col x.off w i)) →
        ElemsFree s els false true w (colForm s.me x.p x.col w x.h) →
        LoadTraps (.vld x) s h x.q 0 (Requested s w els) c v k
          ∧ (k = 0 → LoadTraps (.vldff x) s h x.q 0 (Requested s w els) c v k))
      ∧ (∀ (x : Vldx) (ie : QEntry) (ri : List QEntry), s.me.guards x.g = true → sqOf s.me x.i = ie :: ri →
        let w := 2 ^ x.z.toNat
        FormOk s w False False True → claimQueues s.me (Takes.sq { lq := some x.q } x.i 1) w = .ok h →
        fails (lacks ie 4) (checkIndex x.i ie (checkElem .load w fun i => virt (indexed x.b x.off ie w i))) →
        ElemsFree s els false true w → LoadTraps (.vldx x) s h x.q 0 (Requested s w els) c v k)
      ∧ (∀ x : Vlds, s.me.guards x.g = true →
        let w := 2 ^ x.z.toNat
        FormOk s w (x.col = true) (x.p ≠ 0) False → vl * w ≤ 8192 → claimQueues s.me { lq := some x.q } w = .ok h →
        (NoReadsOut s.me → ElemsFree s els false true w (colForm s.me x.p x.col w .none) →
          checkPhase noSkip (checkElem .load w fun i => virt (strided x.b x.p x.col x.off w i)) vl 0
            ((s.setMe h).updHart s.cur (noChain x.q)) = (u, els, some (k, c, v)) →
          LoadTraps (.vldsc x) s h x.q els.length (Delivered false w (els.map fun y => (y.1, elemValue s w y))) c v k)
        ∧ (fails noSkip (checkScratch w (s.myCore.bnd2.toNat - s.myCore.bnd1.toNat) (strided x.b x.p x.col x.off w)) →
          ScratchFree s false els w → LoadTraps (.vlds x) s h x.q 0 (Delivered true w (els.map fun y => (y.1, scratchValue s w y))) c v k))
      ∧ (∀ (x : Vldsx) (ie : QEntry) (ri : List QEntry), s.me.guards x.g = true → sqOf s.me x.i = ie :: ri →
        let w := 2 ^ x.z.toNat
        FormOk s w False False True → vl * w ≤ 8192 → claimQueues s.me (Takes.sq { lq := some x.q } x.i 1) w = .ok h →
        fails (lacks ie 4) (checkIndex x.i ie (checkScratch w (s.myCore.bnd2.toNat - s.myCore.bnd1.toNat) (indexed x.b x.off ie w))) →
        ScratchFree s false els w → LoadTraps (.vldsx x) s h x.q 0 (Delivered true w (els.map fun y => (y.1, scratchValue s w y))) c v k)
      ∧ (s.mem.wf → ∀ (de : QEntry) (rd : List QEntry),
        (∀ x : Vst, s.me.guards x.g = true → sqOf s.me x.d = de :: rd →
          let w := 2 ^ x.z.toNat
          let y : Vsts := ⟨x.g, x.b, x.p, x.d, x.z, x.col, x.off⟩
          FormOk s w (x.col = true) (x.p ≠ 0) False → claimQueues s.me (Takes.sq {} x.d 1) w = .ok h →
          (fails (lacks de w) (checkElem .store w fun i => virt (strided x.b x.p x.col x.off w i)) → ElemsFree s els true false w →
            StoreTraps (.vst x) s h w globals de 0 c v k
              ∧ (NoReadsOut s.me → StoreTraps (.vstsc y) s h w globals de els.length c v k))
          ∧ (fails (lacks de w) (checkScratch w (s.myCore.bnd2.toNat - s.myCore.bnd1.toNat) (strided x.b x.p x.col x.off w)) →
            ScratchFree s true els w → StoreTraps (.vsts y) s h w locals de 0 c v k))
        ∧ ∀ (x : Vstx) (ie : QEntry) (ri : List QEntry), s.me.guards x.g = true → x.i ≠ x.d → sqOf s.me x.d = de :: rd →
          sqOf s.me x.i = ie :: ri →
          let w := 2 ^ x.z.toNat
          let skip := fun i => !(ie.has i 4 && de.has i w)
          FormOk s w False False True → claimQueues s.me (Takes.sq (Takes.sq {} x.i 1) x.d 1) w = .ok h →
          (fails skip (checkIndex x.i ie (checkElem .store w fun i => virt (indexed x.b x.off ie w i))) → ElemsFree s els true false w →
            StoreTraps (.vstx x) s h w globals de 0 c v k)
          ∧ (fails skip (checkIndex x.i ie (checkScratch w (s.myCore.bnd2.toNat - s.myCore.bnd1.toNat) (indexed x.b x.off ie w))) →
            ScratchFree s true els w → StoreTraps (.vstsx ⟨x.g, x.b, x.i, x.d, x.z, x.off⟩) s h w locals de 0 c v k))
      ∧ (s.mem.wf → ∀ (x : Vamo) (ie de : QEntry) (ri rd : List QEntry), s.me.guards x.g = true → x.i ≠ x.d →
        sqOf s.me x.i = ie :: ri → sqOf s.me x.d = de :: rd → ¬(x.op = 7 ∧ x.dbl = true) →
        let w := if x.dbl then 8 else 4
        vl * 4 ≤ s.vlen s.cur → vl * w ≤ s.vlen s.cur → vl * w ≤ 8192 →
        claimQueues s.me (Takes.sq (Takes.sq { lq := x.q } x.i 1) x.d 1) w = .ok h →
        fails (fun i => !(ie.has i 4 && de.has i w)) (checkIndex x.i ie (checkAmo (vamoOp x.op) w (s.me.s x.b) (s.me.s x.l) ie)) →
        ElemsFree s els true true w → (∀ y ∈ els, ∀ z ∈ els, pteC y.2.2.pte = pteC z.2.2.pte) →
        let run := amoRun (vamoOp x.op) w (els.map fun y => ((List.range w).map (elemKey s y), de.elt y.1 w)) s.mem.read
        ∃ t, exec (.vamo x) s = .next t ∧ OnlyMeStored s t ∧ ElementTrap h t c v k ∧ (∀ a, t.mem.read a = run.1 a)
          ∧ t.me.sq = s.me.sq ∧ (x.q = none → t.me.lq = s.me.lq)
          ∧ ∀ q, x.q = some q → ∃ e, QueuesMoved s t q e (Popped s fun _ => 0) ∧ Delivered true w ((els.map (·.1)).zip run.2) e)

/-! ## Tags, engines, near-memory commands, pooled lookup and residency handles -/

namespace Sys2Proof.Claims

/-- The lowest bit set in a mask, or 64. -/
def lowestOf (d : Dbl) : Nat := ((List.range 64).find? d.getLsbD).getD 64
/-- DONE and M, of the tags of the current hart. -/
def doneOf (s : State) (m : Dbl) : Dbl := s.myCore.tagDone &&& s.me.tagown &&& m
/-- No tag of M is Busy. -/
def NoneBusy (s : State) (m : Dbl) : Prop := ∀ e ∈ s.myCore.engines, m.getLsbD e.tag.toNat = false

/-- Only the current hart and its core differ, beside what a translation leaves. -/
def OnlyMyCoreWalked (s t : State) : Prop :=
  t = { s with harts := t.harts, cores := t.cores, fresh := t.fresh, md := { s.md with notLiveReads := t.md.notLiveReads } }
    ∧ (∀ g, g ≠ s.cur → t.hart g = s.hart g) ∧ ∀ l k, (l, k) ≠ (s.cur.l, s.cur.k) → t.core l k = s.core l k

/-- Nothing of the current core is in flight: no engine command, no window entry, no near-memory update, no load of the hart, no
posted store that happens before, no lease of another hart, no uncorrectable error, no bank to be read again. -/
def CoreIdle (s : State) : Prop :=
  s.myCore.engines = [] ∧ s.me.win = [] ∧ (∀ g ∈ s.coreHarts s.cur.l s.cur.k, (s.hart g).win = []) ∧ s.me.nb = [] ∧ (∀ p, ¬Behind s p)
    ∧ NoReadsOut s.me ∧ (∀ x ∈ s.harts, x.1 ≠ s.cur → x.2.leases = []) ∧ (∀ l, behind s s.cur l = false) ∧ s.bad = [] ∧ s.badL2 = []
    ∧ s.badL1 = [] ∧ ∀ b : BitVec 4, (s.myCore.bank b).reload = false
/-- No byte of global memory that these pages reach was last written through one kind of mapping without the other seeing it yet
(R340). -/
def Agreed (s : State) (p : Nat) (pgs : List TlbEntry) : Prop :=
  ∀ k, (∃ l, (k, l) ∈ s.cachedW) ∨ k ∈ s.uncachedW → throughPages (s.part p).dies pgs k = none

/-- The command issues: its tag becomes Busy and it joins the core's commands; nothing else changes. -/
def EngineIssues (i : Instr) (s : State) (t : BitVec 6) (op : EngOp) (src : Option ERange) (dst : ERange) (sc dc : Checked) : Prop :=
  ∃ t', exec i s = .next t' ∧ OnlyMyCoreWalked s t' ∧ Retires s.me t'.me (nextSlot s.me.pc) ∧ t'.me = stepped s.me t'.me
    ∧ t'.myCore = { s.myCore with
        tagDone := s.myCore.tagDone &&& ~~~(1#64 <<< t.toNat), seq := s.myCore.seq + 1
        engines := [{ hid := s.cur.h, tag := t, op := op, dPool := dst.pool, sPool := src.any (·.pool), dPages := dc.1, sPages := sc.1,
                      ivl := (match src with
                        | some r => r.ivl s.myCore sc.2
                        | none => []) ++ dst.ivl s.myCore dc.2,
                      seq := s.myCore.seq, dstBank := dc.2, srcBank := sc.2 }] }

/-- The source range and the destination range pass their checks in this order (R260). -/
def RangesPass (s : State) (src dst : ERange) (sc dc : Checked) : Prop :=
  ∃ u v, rangeCheck s s.me false src = (u, .ok sc) ∧ rangeCheck u s.me true dst = (v, .ok dc) ∧ rangesMeet src dst = false

/-- R269: the symbol of a slot: the s with cum[s] ≤ slot < cum[s] + f[s]. -/
def symbolAt (f : List Nat) (slot : Nat) : Nat := ((List.range f.length).find? fun s => decide (slot < (f.take (s + 1)).sum)).getD 0
/-- R269: the 32 states and the offset of the next word once i symbols have been decoded. -/
def ransAfter (f : List Nat) (x : Nat → Nat) (w : Nat) (word : Nat → Nat) : Nat → (Nat → Nat) × Nat
  | 0 => (x, w)
  | i + 1 =>
    let a := ransAfter f x w word i
    let j := i % 32
    let slot := a.1 j % 4096
    let y := f.getD (symbolAt f slot) 0 * (a.1 j / 4096) + slot - (f.take (symbolAt f slot)).sum
    if y < 0x10000 then (fun k => if k = j then (y * 2 ^ 16 + word a.2) % 2 ^ 32 else a.1 k, a.2 + 2)
    else (fun k => if k = j then y else a.1 k, a.2)
/-- R268, R269: byte o of what n symbols of b bits decode to, from a stream of m bytes: symbol i at bit i × b, zeros above the last. -/
def decodedByte (byte : Nat → Byte) (m b n : Nat) (f : List Nat) (o : Nat) : Byte :=
  let at_ (k : Nat) : Nat := if k < m then (byte k).toNat else 0
  let h := 16 + 2 ^ (b + 1)
  let start (j : Nat) : Nat := ((List.range 4).map fun t => at_ (h + 4 * j + t) * 256 ^ t).sum
  let state := ransAfter f start (h + 128) fun w => at_ w + 256 * at_ (w + 1)
  let symbol (i : Nat) : Nat := symbolAt f ((state i).1 (i % 32) % 4096)
  BitVec.ofNat 8 ((List.range 8).map fun t =>
    if 8 * o + t < n * b then symbol ((8 * o + t) / b) / 2 ^ ((8 * o + t) % b) % 2 * 2 ^ t else 0).sum

/-- What a command writes: destination addresses with their bytes (R265, R266, R269); a PDEC decodes by the header that it read at
issue (R268). -/
def commandWrites (s : State) (l k : Nat) (e : Engine) : List (Nat × Byte) :=
  let src (a : Nat) : Byte := engByte s l k e.sPool e.sPages a
  match e.op with
  | .copy d a n => (List.range n).map fun i => (d + i, src (a + i))
  | .copy2 d a rows bytes sp dp => (List.range rows).flatMap fun j => (List.range bytes).map fun i => (d + j * dp + i, src (a + j * sp + i))
  | .fill d n w v => (List.range n).map fun i => (d + i, byteOf v (i % w))
  | .dec d a n b m fr => (List.range ((m * b + 7) / 8)).map fun o => (d + o, decodedByte (fun i => src (a + i)) n b m fr o)
/-- A PDEC in flight has a header that R268 accepts. -/
def HeaderOk : EngOp → Prop
  | .dec _ _ _ b _ f => b ∈ [2, 4, 8] ∧ f.length = 2 ^ b ∧ f.sum = 4096
  | _ => True

/-- The number in n bytes of a row from its first byte on. -/
def locValue (s : State) (p : Nat) (a : Loc) (n : Nat) : Nat := ofBytes ((a.keys s p n).map s.mem.read)
/-- fl(x): the pattern of RoundTo(f, x, RNE) (R298, R299, R307). -/
def fl (f : FFmt) (x : Ex) : Nat := (f.round x .plain).1
/-- Exact sums, products, quotients and roots of FP32 patterns. -/
def sumOf (a b : Nat) : Ex := ((FFmt.fp32.value a).add .plain (FFmt.fp32.value b)).1
def diffOf (a b : Nat) : Ex := ((FFmt.fp32.value a).add .plain (FFmt.fp32.value b).neg).1
def prodOf (a b : Nat) : Ex := ((FFmt.fp32.value a).mul (FFmt.fp32.value b)).1
def quotOf (a b : Nat) : Ex := ((FFmt.fp32.value a).div (FFmt.fp32.value b)).1
def rootOf (a : Nat) : Ex := ((FFmt.fp32.value a).sqrt).1
/-- a × b + c, exactly. -/
def fmaOf (a b c : Nat) : Ex := (((FFmt.fp32.value a).mul (FFmt.fp32.value b)).1.add .plain (FFmt.fp32.value c)).1
/-- R298 at BF16: fl(a + u). -/
def bf16Add (a u : Nat) : Nat := fl .bf16 ((FFmt.bf16.value a).add .plain (FFmt.bf16.value u)).1
/-- What an update writes: places, lengths and values, by the steps of R298 and R299 (R292). -/
def nbWrites (s : State) (p : Nat) : NbOp → List (Loc × Nat × Nat)
  | .add true a u => [(a, 2, bf16Add (locValue s p a 2) u.toNat)]
  | .add false a u => [(a, 4, fl .fp32 (sumOf (locValue s p a 4) u.toNat))]
  | .pair a u => [(a, 4, bf16Add (locValue s p a 4 % 65536) (u.toNat % 65536)
      + 65536 * bf16Add (locValue s p a 4 / 65536) (u.toNat / 65536))]
  | .sgdm hp x m g =>
    let m' := fl .fp32 (fmaOf hp.b1.toNat (locValue s p m 4) g.toNat)
    [(m, 4, m'), (x, 4, fl .fp32 (diffOf (locValue s p x 4) (fl .fp32 (prodOf hp.lr.toNat m'))))]
  | .adam hp x m v g =>
    let m' := fl .fp32 (fmaOf hp.b1.toNat (locValue s p m 4) (fl .fp32 (prodOf hp.a1.toNat g.toNat)))
    let v' := fl .fp32 (fmaOf hp.b2.toNat (locValue s p v 4)
      (fl .fp32 (prodOf hp.a2.toNat (fl .fp32 (prodOf g.toNat g.toNat)))))
    let q := fl .fp32 (quotOf (fl .fp32 (prodOf m' hp.c1.toNat))
      (fl .fp32 (sumOf (fl .fp32 (rootOf (fl .fp32 (prodOf v' hp.c2.toNat)))) hp.eps.toNat)))
    [(m, 4, m'), (v, 4, v'), (x, 4, fl .fp32 (diffOf (locValue s p x 4) (fl .fp32 (prodOf hp.lr.toNat q))))]

/-- R307: the accumulator and the count n after the contributing elements of a bag, given in index order as (row element, weight). -/
def bagRun (op : Nat) (half : Bool) : List (Nat × Nat) → Nat × Nat → Nat × Nat
  | [], a => a
  | (x, wt) :: rest, (acc, n) =>
    let v : Ex := if half then FFmt.bf16.value x else FFmt.fp32.value x
    let t : Ex := if op = 1 then ((FFmt.fp32.value wt).mul v).1 else v
    let next : Nat := if op = 3 then (if n = 0 then fl .fp32 v else fl .fp32 ((FFmt.fp32.value acc).max v))
      else if n = 0 then fl .fp32 t else fl .fp32 ((FFmt.fp32.value acc).add .plain t).1
    bagRun op half rest (next, n + 1)
/-- R307: an element of a bag: +0 for no contributing element, the quotient by n for a mean. -/
def bagElement (op : Nat) (half : Bool) (l : List (Nat × Nat)) : Nat :=
  let r := bagRun op half l (0, 0)
  if r.2 = 0 then 0 else if op = 2 then fl .fp32 ((FFmt.fp32.value r.1).div (.fin false r.2 1)).1 else r.1

end Sys2Proof.Claims

/-- R257, R271: TWAITANY, TWAITALL, TFIND and TCLR; a mask that names a tag outside tagown traps with the lowest such tag. -/
def Obligations.TagInstructionsReadAndClearDone : Prop :=
  ∀ (s : State) (g : Guards) (d m : SReg) (c : Bool), Live s → s.me.guards g = true →
    let v := s.me.s m
    (v &&& ~~~s.me.tagown = 0 →
      ((doneOf s v ≠ 0 ∨ NoneBusy s v) → WritesS (.twaitany ⟨g, d, m⟩) s d (doneOf s v))
      ∧ (NoneBusy s v → Skips (.twaitall ⟨g, m⟩) s)
      ∧ (∃ t, exec (.tfind ⟨g, d, m, c⟩) s = .next t ∧ OnlyMyCore s t ∧ Retires s.me t.me (nextSlot s.me.pc)
          ∧ HoldsS s.me d (BitVec.ofNat 64 (lowestOf (doneOf s v))) t.me
          ∧ t.myCore = { s.myCore with tagDone := if c ∧ doneOf s v ≠ 0 then
              s.myCore.tagDone &&& ~~~(1#64 <<< lowestOf (doneOf s v)) else s.myCore.tagDone })
      ∧ ∃ t, exec (.tclr ⟨g, m⟩) s = .next t ∧ OnlyMyCore s t ∧ Retires s.me t.me (nextSlot s.me.pc) ∧ t.me = stepped s.me t.me
          ∧ t.myCore = { s.myCore with tagDone := s.myCore.tagDone &&& ~~~v })
    ∧ (v &&& ~~~s.me.tagown ≠ 0 → ∀ i ∈ [Instr.twaitany ⟨g, d, m⟩, .twaitall ⟨g, m⟩, .tfind ⟨g, d, m, c⟩, .tclr ⟨g, m⟩],
        Traps i s 18 (BitVec.ofNat 64 (lowestOf (v &&& ~~~s.me.tagown))))

/-- R257 to R261, R268: PCOPY in both forms, PFILL and PDEC issue once their ranges pass: the tag is Busy, the command is in flight
(a PDEC with the header it has read), and no byte of memory changes; a tag outside tagown traps. -/
def Sys2Proof.Claims.EngineCommandsIssue : Prop :=
  ∀ s : State, Live s →
    (∀ (x : Pcopy) (sc dc : Checked), s.me.guards x.g = true → s.me.tagown.getLsbD x.t.toNat = true → CoreIdle s →
      let d := (s.me.s x.d).toNat
      let a := (s.me.s x.s).toNat
      let n := (s.me.s x.n).toNat
      (x.p = 0 → n ≤ 2 ^ 36 → RangesPass s ⟨x.sp, a, n⟩ ⟨x.dp, d, n⟩ sc dc →
        EngineIssues (.pcopy x) s x.t (.copy d a n) (some ⟨x.sp, a, n⟩) ⟨x.dp, d, n⟩ sc dc)
      ∧ (x.p ≠ 0 →
        let k := n / 2 ^ 32
        let b := n % 2 ^ 32
        let ps := (s.me.s x.p).toNat % 2 ^ 32
        let pd := (s.me.s x.p).toNat / 2 ^ 32
        let len (p : Nat) : Nat := if k = 0 then 0 else (k - 1) * p + b
        len ps ≤ 2 ^ 36 → len pd ≤ 2 ^ 36 → b ≤ ps → b ≤ pd → RangesPass s ⟨x.sp, a, len ps⟩ ⟨x.dp, d, len pd⟩ sc dc →
        EngineIssues (.pcopy x) s x.t (.copy2 d a k b ps pd) (some ⟨x.sp, a, len ps⟩) ⟨x.dp, d, len pd⟩ sc dc))
    ∧ (∀ (x : Pfill) (u : State) (dc : Checked), s.me.guards x.g = true → s.me.tagown.getLsbD x.t.toNat = true → CoreIdle s →
      let d := (s.me.s x.d).toNat
      let n := (s.me.s x.n).toNat
      n ≤ 2 ^ 36 → n % 2 ^ x.z.toNat = 0 → rangeCheck s s.me true ⟨x.dp, d, n⟩ = (u, .ok dc) →
      EngineIssues (.pfill x) s x.t (.fill d n (2 ^ x.z.toNat) (s.me.s x.v)) none ⟨x.dp, d, n⟩ ([], none) dc)
    ∧ (∀ (x : Pdec) (sc dc : Checked) (r : Rans), s.me.guards x.g = true → s.me.tagown.getLsbD x.t.toNat = true → CoreIdle s →
      let d := (s.me.s x.d).toNat
      let a := (s.me.s x.s).toNat
      let n := (s.me.s x.n).toNat
      n ≤ 2 ^ 36 → s.notLive = [] → (x.sp = false → Agreed s (s.partOf s.cur) sc.1) →
      ransHeader (fun o => engByte s s.cur.l s.cur.k x.sp sc.1 (a + o)) n = some r →
      RangesPass s ⟨x.sp, a, n⟩ ⟨x.dp, d, (r.n * r.b + 7) / 8⟩ sc dc →
      EngineIssues (.pdec x) s x.t (.dec d a n r.b r.n r.freq) (some ⟨x.sp, a, n⟩) ⟨x.dp, d, (r.n * r.b + 7) / 8⟩ sc dc)
    ∧ (∀ x : Pcopy, s.me.guards x.g = true → s.me.tagown.getLsbD x.t.toNat = false → Traps (.pcopy x) s 18 (x.t.setWidth 64))
    ∧ (∀ x : Pfill, s.me.guards x.g = true → s.me.tagown.getLsbD x.t.toNat = false → Traps (.pfill x) s 18 (x.t.setWidth 64))
    ∧ ∀ x : Pdec, s.me.guards x.g = true → s.me.tagown.getLsbD x.t.toNat = false → Traps (.pdec x) s 18 (x.t.setWidth 64)

/-- R262, R265, R266, R269: at its completion a command has written its destination bytes, every other byte of memory is as before,
its entries are gone and its tag is Done. -/
def Sys2Proof.Claims.EngineCommandsComplete : Prop :=
  ∀ (s : State) (l k : Nat) (e : Engine), s.wbuf = [] → s.mem.wf → s.md.power = .ready → s.bad = [] → s.badL2 = [] →
    s.badL1 = [] → (s.core l k).engines = [e] → e.moved = [] → HeaderOk e.op → (∀ g ∈ s.coreHarts l k, (s.hart g).win = []) →
    (∀ x ∈ s.harts, x.2.leases = []) →
    (e.sPool = false → Agreed s (s.launch l).part e.sPages
      ∧ ∀ a, inRanges e.op.source a = true → engDest s ⟨l, k, e.hid⟩ (engKey s l k false e.sPages a) = false) →
    ∃ t, exec (.engineCompletion l k e.tag) s = .next t
      ∧ t = { s with cores := t.cores, mem := t.mem, cachedW := t.cachedW, uncachedW := t.uncachedW, flushed := t.flushed,
                     settled := t.settled, old := t.old, epoch := t.epoch, notLive := t.notLive, fresh := t.fresh,
                     md := { s.md with notLiveReads := t.md.notLiveReads } }
      ∧ (∀ l' k', (l', k') ≠ (l, k) → t.core l' k' = s.core l' k')
      ∧ t.core l k = { s.core l k with engines := [], tagDone := (s.core l k).tagDone ||| (1#64 <<< e.tag.toNat),
                                       banks := (t.core l k).banks }
      ∧ (e.dstBank = none → (t.core l k).banks = (s.core l k).banks)
      ∧ ∀ a, t.mem.read a =
          lastWrite s.mem ((commandWrites s l k e).map fun x => (engKey s l k e.dPool e.dPages x.1, x.2)) a

/-- R257 to R262, R265, R266, R269: engine commands are in flight after their issue and have written their bytes at their completion.
One command performs as a whole (log 8), and its checks have the order of log 23. -/
def Obligations.EngineCommandsIssueAndComplete : Prop :=
  Claims.EngineCommandsIssue ∧ Claims.EngineCommandsComplete

/-- R295, R297 to R300: NBADD and NBOPT whose rows pass their checks pop their entries and send one update for each written element,
in index order, and change no byte; NBFENCE completes where none is outstanding. -/
def Sys2Proof.Claims.NearMemoryCommandsSendTheirUpdates : Prop :=
  ∀ s : State,
    (∀ (x : Nbadd) (u : State) (h : Hart) (rows : List (Nat × List Loc)) (ie de : QEntry) (ri rd : List QEntry), UserMode s →
      FreshA s.me → s.me.guards x.g = true → x.i ≠ x.u → sqOf s.me x.i = ie :: ri → sqOf s.me x.u = de :: rd →
      let w := if x.bf then 2 else 4
      let d := (s.me.s x.d).toNat
      let vl := s.me.vl.toNat
      1 ≤ d → d ≤ 256 → vl * 4 ≤ s.vlen s.cur → vl * d * w ≤ s.vlen s.cur → s.myCore.engines = [] → (∀ p, ¬Behind s p) →
      NoReadsOut s.me → s.bad = [] →
      claimQueues s.me (Takes.sq (Takes.sq {} x.i 1) x.u 1) w = .ok h →
      rowPhase (fun i => !ie.has i 4)
        (fun i s => rowChecks .both false (d * w) [(s.me.s x.b + BitVec.ofNat 64 (ie.elt i 4 * d * w)).toNat] s) vl 0 (s.setMe h)
        = (u, rows, none) →
      ∃ t, exec (.nbadd x) s = .next t ∧ OnlyMeWalked s t ∧ Retires s.me t.me (nextSlot s.me.pc)
        ∧ t.me = { stepped s.me t.me with sq := t.me.sq, nb := t.me.nb } ∧ (∀ r, sqOf t.me r = (sqOf s.me r).drop 1)
        ∧ rows.map (·.1) = (List.range vl).filter (ie.has · 4)
        ∧ ∃ items, t.me.nb = s.me.nb ++ items ∧ items.map (·.op) =
            rows.flatMap fun r => r.2.flatMap fun a => addItems x.bf de a (r.1 * d) d 0)
    ∧ (∀ (x : Nbopt) (u v z : State) (h : Hart) (b : List Nat) (pgs : List TlbEntry) (rows : List (Nat × List Loc)) (ie ge : QEntry)
        (ri rg : List QEntry), UserMode s →
      FreshA s.me → s.me.guards x.g = true → x.i ≠ x.gr → sqOf s.me x.i = ie :: ri → sqOf s.me x.gr = ge :: rg →
      let d := (s.me.s x.d).toNat
      let vl := s.me.vl.toNat
      let hb := (s.me.s x.h).toNat
      1 ≤ d → d ≤ 256 → vl * 4 ≤ s.vlen s.cur → vl * d * 4 ≤ s.vlen s.cur → s.myCore.engines = [] → NoReadsOut s.me → s.bad = [] →
      hb % 16 = 0 →
      Reaches s u .load false hb 48 pgs → Coherent s pgs hb 48 →
      claimQueues s.me (Takes.sq (Takes.sq {} x.i 1) x.gr 1) 4 = .ok h → readBlock pgs hb 6 0 (u.setMe h) = .ok v b →
      let hyp := hyperOf b
      let tabs := (s.me.s x.b) :: (s.me.s x.b + BitVec.ofNat 64 hyp.2.1)
        :: (if x.adam then [s.me.s x.b + BitVec.ofNat 64 hyp.2.2] else [])
      rowPhase (fun i => !ie.has i 4)
        (fun i s => rowChecks .both false (d * 4) (tabs.map fun t => (t + BitVec.ofNat 64 (ie.elt i 4 * d * 4)).toNat) s) vl 0 v
        = (z, rows, none) →
      b = (List.range 6).map (fun j => valueAt s pgs (hb + 8 * j) 8)
      ∧ ∃ t, exec (.nbopt x) s = .next t ∧ OnlyMeRead s t ∧ Retires s.me t.me (nextSlot s.me.pc)
        ∧ t.me = { stepped (ordered s.me t.me) t.me with sq := t.me.sq, nb := t.me.nb } ∧ (∀ r, sqOf t.me r = (sqOf s.me r).drop 1)
        ∧ rows.map (·.1) = (List.range vl).filter (ie.has · 4)
        ∧ ∃ items, t.me.nb = s.me.nb ++ items ∧ items.map (·.op) = rows.flatMap fun r => optItems hyp.1 ge (r.1 * d) d r.2)
    ∧ ∀ x : Bare, Live s → s.me.guards x.g = true → s.me.nb = [] → Skips (.nbfence x) s

/-- R292, R294, R298, R299, R351: an update that is free to be performed writes the new words of its row, leaves the hart's queue, and
leaves no copy of its rows in a cache. Before a save it waits for the launch's engine commands. A word that an engine command of the hart
writes by another address is left out: it may give any value that it has held (R264). -/
def Sys2Proof.Claims.NearMemoryUpdatesWriteTheirWords : Prop :=
  ∀ (s : State) (g : HartId) (x : NbItem) (rest : List NbItem), s.wbuf = [] → s.mem.wf → s.md.power = .ready → s.bad = [] →
    s.badL2 = [] → s.badL1 = [] → (s.hart g).nb = x :: rest → (∀ y ∈ s.harts, y.2.leases = []) →
    ((s.launch g.l).phase = .halted → ∀ y ∈ s.cores, y.1.1 = g.l → y.2.engines = []) →
    (∀ y ∈ x.op.locs, ∀ k ∈ y.1.keys s (s.partOf g) y.2, engDest s g k = false) →
    ∃ t, exec (.nearMemoryUpdate g 0) s = .next t
      ∧ t = { s with harts := t.harts, mem := t.mem, cachedW := t.cachedW, uncachedW := t.uncachedW, flushed := t.flushed,
                     settled := t.settled, old := t.old, epoch := t.epoch, notLive := t.notLive, fresh := t.fresh,
                     md := { s.md with notLiveReads := t.md.notLiveReads } }
      ∧ (∀ f, f ≠ g → t.hart f = s.hart f) ∧ t.hart g = { s.hart g with nb := rest }
      ∧ (∀ y ∈ x.span, ∀ k ∈ y.1.keys s (s.partOf g) y.2, (∀ l, (k, l) ∉ t.cachedW) ∧ k ∉ t.uncachedW)
      ∧ ∀ a, t.mem.read a = lastWrite s.mem ((nbWrites s (s.partOf g) x.op).flatMap fun y =>
          (y.1.keys s (s.partOf g) y.2.1).zip ((List.range y.2.1).map fun j => BitVec.ofNat 8 (y.2.2 / 256 ^ j))) a

/-- R292, R295, R297 to R300: near-memory commands send updates, and updates write the words of their rows. The order of checks is a
reading (log 24), and so is the order of what ends before a save (log 32). -/
def Obligations.NearMemoryCommandsUpdateTheirRows : Prop :=
  Claims.NearMemoryCommandsSendTheirUpdates ∧ Claims.NearMemoryUpdatesWriteTheirWords

/-- R304 to R306, R308: SFPOOL whose rows pass pops its entries and reserves one for its bags, which are then in flight, each with the
positions, rows and weights of its elements. -/
def Sys2Proof.Claims.SfpoolPoolsItsBags : Prop :=
  ∀ (s u : State) (h : Hart) (x : Sfpool) (rows : List (Nat × List Loc)), UserMode s → FreshA s.me → s.me.askips = [] →
    s.me.guards x.g = true → s.bad = [] →
    let g := (s.me.s x.geo).toNat
    let d := g % 512
    let b := g / 65536
    let w := if x.half then 2 else 4
    let vl := s.me.vl.toNat
    let en (n : Nat) : QEntry := (sqOf s.me x.s).getD n {}
    1 ≤ d → d ≤ 256 → 1 ≤ b → b * 4 ≤ s.vlen s.cur → g / 512 % 128 = 0 → b < 65536 → vl * 4 ≤ s.vlen s.cur → b * d * 4 ≤ s.vlen s.cur →
    ((List.range b).map fun j => (en 1).elt j 4).sum = vl →
    claimQueues s.me (Takes.sq { lq := some x.q } x.s (if x.op = 1 then 3 else 2)) 4 = .ok h →
    let chk (i : Nat) (s' : State) : State × Except (Nat × Dbl) (List Loc) :=
      if (s.me.s x.l).toNat ≤ (en 0).elt i 4 then (s', .error (15, BitVec.ofNat 64 ((en 0).elt i 4)))
      else rowChecks .load true (d * w) [(s.me.s x.b + BitVec.ofNat 64 ((en 0).elt i 4 * d * w)).toNat] s'
    rowPhase (fun i => !(en 0).has i 4) chk vl 0 (s.setMe h) = (u, rows, none) →
    ∃ t e pl, exec (.sfpool x) s = .next t ∧ OnlyMeWalked s t ∧ Retires s.me t.me (nextSlot s.me.pc)
      ∧ t.me = { stepped s.me t.me with lq := t.me.lq, lqTail := t.me.lqTail, sq := t.me.sq }
      ∧ QueuesMoved s t x.q e (Popped s fun r => if r = x.s then (if x.op = 1 then 3 else 2) else 0)
      ∧ e = { width := 4, issued := true, slot := e.slot, pool := some pl }
      ∧ pl = { op := x.op.toNat, half := x.half, d := d, bags := bagRanges 0 ((List.range b).map fun j => (en 1).elt j 4),
               rows := rows.flatMap fun r => r.2.map fun a => (r.1, a), weights := (List.range vl).map fun i => (en 2).elt i 4,
               left := List.range b, no := pl.no }
      ∧ ∀ (r : LQ), ∀ y ∈ lqOf s.me r, ∀ o, y.pool = some o → o.no < pl.no

/-- R251, R275, R307, R308, R351: an element arrives in the entry that waits for it; the elements of a bag, reduced from its rows as
they stand then and its weights, arrive together once nothing holds up the reads of its rows. Nothing else changes. -/
def Sys2Proof.Claims.ArrivalsDeliverElements : Prop :=
  ∀ (s : State) (g : HartId) (q : LQ) (n i : Nat) (e : QEntry), s.wbuf = [] → s.md.power = .ready → s.bad = [] →
    (lqOf (s.hart g) q)[n]? = some e →
    let after (t : State) (e' : QEntry) : Prop :=
      (∀ f, f ≠ g → t.hart f = s.hart f) ∧ t.hart g = { s.hart g with lq := (t.hart g).lq, sq := (t.hart g).sq, heard := (t.hart g).heard }
        ∧ lqOf (t.hart g) q = (lqOf (s.hart g) q).set n e' ∧ (∀ r, r ≠ q → lqOf (t.hart g) r = lqOf (s.hart g) r)
        ∧ e' = { e with data := e'.data, written := e'.written, flight := e'.flight, pool := e'.pool,
                        done := e.issued && e'.flight.isEmpty && e'.pool.isNone }
    let fed (t : State) : Prop := ∀ r, sqOf (t.hart g) r = (sqOf (s.hart g) r).filter fun y =>
      decide (∀ x, y.feeds = some x → ∃ z ∈ lqOf (t.hart g) x.1, z.slot = x.2 ∧ z.done = false)
    (∀ v, (i, v) ∈ e.flight → (∀ y ∈ e.flight, y.1 = i → y.2 = v) → (i + 1) * e.width ≤ 8192 → v.toNat < 256 ^ e.width →
      ∃ t e', exec (.elementArrival g q n i none) s = .next t ∧ OnlyHart g s t ∧ after t e' ∧ fed t
        ∧ (t.hart g).heard = (s.hart g).heard ∧ e'.flight = e.flight.filter (·.1 ≠ i)
        ∧ e'.pool = e.pool ∧ e'.has i e.width = true ∧ e'.elt i e.width = v.toNat
        ∧ ∀ j, j ≠ i → e'.has j e.width = e.has j e.width ∧ e'.elt j e.width = e.elt j e.width)
    ∧ ∀ pl lo hi, e.pool = some pl → i ∈ pl.left → pl.bags[i]? = some (lo, hi) → (i + 1) * pl.d * 4 ≤ 8192 → s.badL2 = [] → s.badL1 = [] →
      let p := s.partOf g
      let w := if pl.half then 2 else 4
      let mine := pl.rows.filter fun r => decide (lo ≤ r.1) && decide (r.1 < hi)
      (∀ r ∈ mine, poolHeld s g pl.no (pl.d * w) r.2 = false ∧ ∀ k ∈ r.2.keys s p (pl.d * w), engDest s g k = false) → stageOpen s g.l 2 = true →
      ∃ t e', exec (.sfpoolBagArrival g q n i) s = .next t
        ∧ t = { s with harts := t.harts, fresh := t.fresh, cachedW := t.cachedW, flushed := t.flushed, seen := t.seen } ∧ after t e'
        ∧ (t.hart g).sq = (s.hart g).sq ∧ e'.flight = e.flight
        ∧ e'.pool = (if ∀ j ∈ pl.left, j = i then none else some { pl with left := pl.left.filter (· ≠ i) })
        ∧ (∀ c < pl.d, e'.has (i * pl.d + c) 4 = true ∧ e'.elt (i * pl.d + c) 4 = bagElement pl.op pl.half
            (mine.map fun r => (locValue s p (r.2.at (c * w)) w, pl.weights.getD r.1 0)) % 2 ^ 32)
        ∧ ∀ j, (j < i * pl.d ∨ (i + 1) * pl.d ≤ j) → e'.has j 4 = e.has j 4 ∧ e'.elt j 4 = e.elt j 4

/-- R251, R275, R304 to R308: SFPOOL pools its bags, and elements arrive in the entries that wait for them. When values are read is a
reading (log 8), and so is the order of what ends before a save (log 32). Which of its queue's four slots a new lq entry takes is
a reading (log 19). -/
def Obligations.PooledAndLoadedElementsArrive : Prop :=
  Claims.SfpoolPoolsItsBags ∧ Claims.ArrivalsDeliverElements

/-- R285 to R291: RHOPEN opens the lowest free handle, RHPRIO and RHEVICT set its priority, RHCLOSE closes it; with the dead flag the
segments it marks read as zero, and every other byte of memory stays; a span that may not be marked traps before any effect. A
handle that is not open traps. Priorities change no value, and the order of RHCLOSE's checks is a reading (log 25). -/
def Obligations.ResidencyHandlesOpenAndClose : Prop :=
  ∀ s : State, Live s →
    let la := s.launch s.cur.l
    let only (t : State) (hs : List (BitVec 8 × Handle)) : Prop :=
      t = { s with harts := t.harts, launches := t.launches } ∧ (∀ g, g ≠ s.cur → t.hart g = s.hart g)
        ∧ (∀ l, l ≠ s.cur.l → t.launch l = s.launch l) ∧ t.launch s.cur.l = { la with handles := hs }
        ∧ Retires s.me t.me (nextSlot s.me.pc)
    (∀ x : Rhopen, s.me.guards x.g = true →
      let n := (s.me.s x.n).toNat
      (n = 0 ∨ 2 ^ 40 < n → Traps (.rhopen x) s 2 (s.me.s x.n))
      ∧ (1 ≤ n → n ≤ 2 ^ 40 → (∀ i : BitVec 8, ∃ y ∈ la.handles, y.1 = i) → WritesS (.rhopen x) s x.d (BitVec.allOnes 64))
      ∧ ∀ i : BitVec 8, 1 ≤ n → n ≤ 2 ^ 40 → (∀ y ∈ la.handles, y.1 ≠ i) → (∀ j, j < i → ∃ y ∈ la.handles, y.1 = j) →
        ∃ t, exec (.rhopen x) s = .next t ∧ only t (la.handles ++ [(i, ⟨(s.me.s x.b).toNat, n, x.p⟩)])
          ∧ HoldsS s.me x.d (i.setWidth 64) t.me)
    ∧ (∀ (x : Rhprio) (hd : Handle) (i : BitVec 8) (a b : List (BitVec 8 × Handle)), s.me.guards x.g = true →
      s.me.s x.h = i.setWidth 64 → la.handles = a ++ (i, hd) :: b → (∀ y ∈ a ++ b, y.1 ≠ i) →
      ∃ t, exec (.rhprio x) s = .next t ∧ only t (a ++ (i, { hd with prio := x.p }) :: b) ∧ t.me = stepped s.me t.me)
    ∧ (∀ (x : Rhbit) (hd : Handle) (i : BitVec 8) (a b : List (BitVec 8 × Handle)), s.me.guards x.g = true →
      s.me.s x.h = i.setWidth 64 → la.handles = a ++ (i, hd) :: b → (∀ y ∈ a ++ b, y.1 ≠ i) →
      (x.m = false → s.bad = [] → s.badL2 = [] → Skips (.rhevict x) s)
      ∧ (x.m = true → ∃ t, exec (.rhevict x) s = .next t ∧ only t (a ++ (i, { hd with prio := 0 }) :: b) ∧ t.me = stepped s.me t.me)
      ∧ (x.m = false → ∃ t, exec (.rhclose x) s = .next t ∧ only t (a ++ b) ∧ t.me = stepped s.me t.me)
      ∧ (∀ (u : State) (c v : Nat), x.m = true →
        deadSegs s.cur (hd.base + hd.len) (hd.len / 2097152 + 1) ((hd.base + 2097151) / 2097152 * 2097152) s = (u, .error (c, v)) →
        c ≠ eccCause → TrapsWalked (.rhclose x) s c (BitVec.ofNat 64 v))
      ∧ ∀ (u : State) (segs : List Loc), x.m = true → s.mem.wf → CoreIdle s →
        deadSegs s.cur (hd.base + hd.len) (hd.len / 2097152 + 1) ((hd.base + 2097151) / 2097152 * 2097152) s = (u, .ok segs) →
        ∃ t, exec (.rhclose x) s = .next t ∧ t.me = stepped s.me t.me ∧ Retires s.me t.me (nextSlot s.me.pc)
          ∧ t = { s with harts := t.harts, fresh := t.fresh, mem := t.mem, cachedW := t.cachedW, uncachedW := t.uncachedW,
                         flushed := t.flushed, settled := t.settled, seen := t.seen, old := t.old, epoch := t.epoch, notLive := t.notLive,
                         launches := t.launches,
                         md := { s.md with notLiveReads := t.md.notLiveReads } }
          ∧ (∀ g, g ≠ s.cur → t.hart g = s.hart g) ∧ t.launch s.cur.l = { la with handles := a ++ b }
          ∧ (∀ y ∈ segs, (s.partOf s.cur, y.e.pa y.va / 2097152) ∈ t.notLive)
          ∧ (∀ l, l ≠ s.cur.l → t.launch l = s.launch l)
          ∧ ∀ k, let dead := ∃ y ∈ segs, ∃ j < 8192, hbmKey (s.part (s.partOf s.cur)).dies (y.e.pa y.va + 256 * j) ≤ k
                  ∧ k < hbmKey (s.part (s.partOf s.cur)).dies (y.e.pa y.va + 256 * j) + 256
              (dead → t.mem.read k = 0) ∧ (¬dead → t.mem.read k = s.mem.read k))
    ∧ ∀ (g : Guards) (h : SReg) (p : BitVec 3) (m : Bool), s.me.guards g = true → (∀ y ∈ la.handles, s.me.s h ≠ y.1.setWidth 64) →
      Traps (.rhprio ⟨g, h, p⟩) s 2 (s.me.s h) ∧ Traps (.rhevict ⟨g, h, m⟩) s 2 (s.me.s h) ∧ Traps (.rhclose ⟨g, h, m⟩) s 2 (s.me.s h)

/-! ## Launch-wide instructions, arrival counters and CLRED -/

namespace Sys2Proof.Claims

/-- h with what the model keeps of the order of its accesses, after a fence (R335). -/
def fenced (h h' : Hart) : Hart := { ordered h h' with fenced := h'.fenced }
/-- Only the current hart differs, beside what a fence makes of flushed bytes and the messages of Pacelines and GONGs (R335, R338,
R340). -/
def OnlyMeFenced (s t : State) : Prop :=
  t = { s with harts := t.harts, cachedW := t.cachedW, flushed := t.flushed, paceMsgs := t.paceMsgs, gongMsgs := t.gongMsgs }
    ∧ (∀ g, g ≠ s.cur → t.hart g = s.hart g) ∧ ∀ b ∈ t.cachedW, b ∈ s.cachedW
/-- The instruction waits at its slot; its hart is otherwise as P says. -/
def WaitsAt (i : Instr) (s : State) (w : Wait) (P : Hart → Prop) : Prop :=
  ∃ t, exec i s = .next t ∧ OnlyMeFenced { s with waitNos := s.waitNos + 1 } t ∧ t.me.pc = s.me.pc ∧ t.me.icount = s.me.icount
    ∧ t.me.wait = some w ∧ P t.me
/-- What a release finds: rows of the hart's pooled lookups still to be read (R335). -/
def RowsOut (h : Hart) : Prop := RowsLeft h fun _ => True
/-- One level of R79's tree over present leaves, and its root. -/
def pairsAdded : List Nat → List Nat
  | a :: b :: t => fl .fp32 (sumOf a b) :: pairsAdded t
  | l => l
/-- R324: one element of the result, from the members' elements in rank order. -/
def folded (op w : Nat) (l : List Nat) : BitVec (8 * w) :=
  let e (x : Nat) : BitVec (8 * w) := BitVec.ofNat (8 * w) x
  match op with
  | 0 => e ((pairsAdded^[7] l).headD 0)
  | 1 => (l.map e).foldl (fun a b => if b.toInt < a.toInt then b else a) (e (l.headD 0))
  | 2 => (l.map e).foldl (fun a b => if a.toInt < b.toInt then b else a) (e (l.headD 0))
  | _ => (l.map e).foldl (· ^^^ ·) 0
/-- R324: the result's bytes, from the contributions of ranks 0 to n − 1. -/
def foldedBytes (of_ : Nat → Contribution) (c : Contribution) : List Byte :=
  let w := if c.dbl then 8 else 4
  (List.range (c.bytes.length / w)).flatMap fun e =>
    let v := folded c.op.toNat w ((List.range c.n).map fun r => ofBytes (((of_ r).bytes.drop (w * e)).take w))
    (List.range w).map fun j => byteOf v j
/-- Bytes as a number's lowest n. -/
def bytesOf (v n : Nat) : List Byte := (List.range n).map fun i => BitVec.ofNat 8 (v / 256 ^ i)

end Sys2Proof.Claims

/-- R99, R100, R335: GONG arrives, and completes where every other hart of its sub-rectangle has arrived as often or has exited, else
waits; an extent that does not divide the launch traps and nothing arrives; POST raises the Paceline value, never lowers it, once the
rows of earlier pooled lookups are read; WAITI completes where the ring predecessor's value has been reached. -/
def Sys2Proof.Claims.GongPostAndWaitiMeet : Prop :=
  ∀ s : State, Live s →
    (∀ x : Gong, s.me.guards x.g = true → s.me.arrived = none → NoReadsOut s.me →
      let la := s.launch s.cur.l
      let e := if x.w = 0 ∧ x.h = 0 then (la.w, la.h) else (x.w.toNat, x.h.toNat)
      let legal := e.1 ≠ 0 ∧ e.2 ≠ 0 ∧ la.w % e.1 = 0 ∧ la.h % e.2 = 0
      let n := tget 0 s.me.gongs e + 1
      let met := ∀ k ∈ gongCores la e s.cur.k, ∀ g ∈ s.coreHarts s.cur.l k, g ≠ s.cur →
        (s.hart g).phase = .exited ∨ n ≤ tget 0 (s.hart g).gongs e
      (¬legal → Traps (.gong x) s 2 (BitVec.ofNat 64 (x.w.toNat + 256 * x.h.toNat)))
      ∧ (legal → met → ∃ t, exec (.gong x) s = .next t ∧ OnlyMeFenced s t ∧ Retires s.me t.me (nextSlot s.me.pc)
          ∧ t.me = { stepped (fenced s.me t.me) t.me with gongs := tput s.me.gongs e n })
      ∧ (legal → ¬met → WaitsAt (.gong x) s .gong fun h =>
          h = { fenced s.me h with gongs := tput s.me.gongs e n, arrived := some (s.me.pc, e, n), wait := some .gong, waitNo := h.waitNo }))
    ∧ (∀ x : Post, s.me.guards x.g = true → RowsOut s.me →
      WaitsAt (.post x) s .reads fun h => h = { s.me with wait := some .reads, waitNo := h.waitNo })
    ∧ (∀ x : Post, s.me.guards x.g = true → ¬RowsOut s.me →
      ∃ t, exec (.post x) s = .next t ∧ OnlyMeFenced { s with cores := t.cores } t
        ∧ (∀ l k, (l, k) ≠ (s.cur.l, s.cur.k) → t.core l k = s.core l k) ∧ Retires s.me t.me (nextSlot s.me.pc)
        ∧ t.me = stepped (fenced s.me t.me) t.me
        ∧ t.myCore = { s.myCore with pace := t.myCore.pace }
        ∧ ∀ c : BitVec 2, t.myCore.pace[c.toNat]'(c.isLt) =
            if c = x.c then BitVec.ofNat 64 (max (s.myCore.pace[c.toNat]'(c.isLt)).toNat (s.me.s x.n).toNat)
            else s.myCore.pace[c.toNat]'(c.isLt))
    ∧ ∀ x : Post, s.me.guards x.g = true →
      let cores := (s.launch s.cur.l).w * (s.launch s.cur.l).h
      let v := (s.core s.cur.l ((s.cur.k + cores - 1) % cores)).pace[x.c.toNat]'(x.c.isLt)
      ((s.me.s x.n).toNat ≤ v.toNat → NoReadsOut s.me → ∃ t, exec (.waiti x) s = .next t ∧ OnlyMeFenced s t
          ∧ Retires s.me t.me (nextSlot s.me.pc) ∧ t.me = stepped (fenced s.me t.me) t.me)
      ∧ (v.toNat < (s.me.s x.n).toNat → WaitsAt (.waiti x) s .waiti fun h => h = { s.me with wait := some .waiti, waitNo := h.waitNo })

/-- R86 to R88, R101: QNOTIFY stores its notify word through the partition's own tables; where the queue is already Wanting or Mapped
nothing else happens. A queue number of 65,536 or more is an access fault. As a release it waits while rows of earlier pooled lookups
are to be read (R335), and as a store for another hart's lease on the word's line (R238). -/
def Sys2Proof.Claims.QnotifyStoresTheNotifyWord : Prop :=
  ∀ (s : State) (x : Qnotify), Live s → s.me.guards x.g = true →
    let q := (s.me.s x.q).toNat
    let p := s.partOf s.cur
    (65536 ≤ q → Traps (.qnotify x) s 7 (s.me.s x.q))
    ∧ (q < 65536 → RowsOut s.me → WaitsAt (.qnotify x) s .reads fun h => h = { s.me with wait := some .reads, waitNo := h.waitNo })
    ∧ (∀ (u : State) (pgs : List TlbEntry), q < 65536 → ¬RowsOut s.me → notifyAddr s p q % 8 = 0 →
      schedPages s p (· == 0) (notifyAddr s p q) 8 = (u, .ok pgs) →
      interlocked s.myCore s.cur.h false (notifyAddr s p q) (notifyAddr s p q + 8) = false → (∀ l, behind s s.cur l = false) →
      leased s s.cur true (keyAt s pgs (notifyAddr s p q) / 64) = true → ∃ l, WaitsFor (.qnotify x) s (.lease l))
    ∧ ∀ (u w : State) (pgs : List TlbEntry) (tb : QTab), q < 65536 → ¬RowsOut s.me → s.mem.wf → s.bad = [] → s.badL2 = [] → s.badL1 = [] →
      (∃ la, (s.cur.l, la) ∈ s.launches) → notifyAddr s p q % 8 = 0 → schedPages s p (· == 0) (notifyAddr s p q) 8 = (u, .ok pgs) →
      Unheld s pgs true (notifyAddr s p q) 8 →
      ((s.part p).started = false ∨ (((s.userQ p q).phase = .mapped ∨ (s.userQ p q).phase = .wanting)
        ∧ readTable (schedWrite s p (notifyAddr s p q) 8 (s.me.s x.v).toNat).1 p q = (w, .ok tb) ∧ tb.flags % 2 = 1)) →
      ∃ t, exec (.qnotify x) s = .next t
        ∧ t = { s with harts := t.harts, fresh := t.fresh, mem := t.mem, cachedW := t.cachedW, uncachedW := t.uncachedW,
                       flushed := t.flushed, settled := t.settled, msgs := t.msgs, old := t.old, epoch := t.epoch, notLive := t.notLive,
                       md := { s.md with notLiveReads := t.md.notLiveReads } }
        ∧ (∀ g, g ≠ s.cur → t.hart g = s.hart g) ∧ Retires s.me t.me (nextSlot s.me.pc) ∧ t.me = stepped (fenced s.me t.me) t.me
        ∧ ∀ k, t.mem.read k = lastWrite s.mem ((keysOf s p pgs (notifyAddr s p q) 8).zip (bytesOf (s.me.s x.v).toNat 8)) k

/-- R86 to R88, R99 to R101: GONG, POST, WAITI and QNOTIFY. The layout of GONG's immediate in tval is a reading (log 46). -/
def Obligations.LaunchWideInstructionsMeet : Prop :=
  Claims.GongPostAndWaitiMeet ∧ Claims.QnotifyStoresTheNotifyWord

/-- R316 to R320: ACSET sets its counter's range and expected value, and keeps the count; ACWAIT takes the expected value from a count
that has reached it, and else waits. A range that a check stops, or that is not one local mapping, traps. -/
def Obligations.ArrivalCountersAreSetAndTaken : Prop :=
  ∀ s : State, Live s →
    (∀ x : Acset, s.me.guards x.g = true →
      let old := s.myCore.arrivals[x.j.toNat]'(x.j.isLt)
      let b := (s.me.s x.b).toNat
      let n := (s.me.s x.l).toNat
      let sets (a : Arrival) : Prop :=
        ∃ t, exec (.acset x) s = .next t ∧ OnlyMyCoreWalked s t ∧ Retires s.me t.me (nextSlot s.me.pc) ∧ t.me = stepped s.me t.me
          ∧ t.myCore = { s.myCore with arrivals := s.myCore.arrivals.set x.j.toNat a (x.j.isLt) }
      (2 ^ 40 < (s.me.s x.e).toNat → Traps (.acset x) s 2 (s.me.s x.e))
      ∧ ((s.me.s x.e).toNat ≤ 2 ^ 40 → n = 0 → sets { old with e := s.me.s x.e })
      ∧ (∀ u c v, (s.me.s x.e).toNat ≤ 2 ^ 40 → n ≠ 0 →
        checkRange s (s.partOf s.cur) s.me.root s.me.sup .store b n true = (u, .error (c, v)) → c ≠ eccCause →
        TrapsWalked (.acset x) s c (BitVec.ofNat 64 v))
      ∧ ∀ u pgs, (s.me.s x.e).toNat ≤ 2 ^ 40 → n ≠ 0 →
        checkRange s (s.partOf s.cur) s.me.root s.me.sup .store b n true = (u, .ok pgs) →
        let e := pageOf pgs b
        let pa := (if pteTier e.pte = 0 then 0 else 2 ^ 50) + e.pa b
        let one := e.isLocal = true ∧ b / 2 ^ e.lg = (b + n - 1) / 2 ^ e.lg
        (one → sets { old with lo := pa, hi := pa + n, e := s.me.s x.e }) ∧ (¬one → TrapsWalked (.acset x) s 2 (s.me.s x.b)))
    ∧ ∀ x : Acwait, s.me.guards x.g = true →
      let a := s.myCore.arrivals[x.j.toNat]'(x.j.isLt)
      (a.e.toNat ≤ a.c.toNat → NoReadsOut s.me →
        ∃ t, exec (.acwait x) s = .next t ∧ OnlyMyCore s t ∧ Retires s.me t.me (nextSlot s.me.pc)
          ∧ t.me = stepped (ordered s.me t.me) t.me
          ∧ t.myCore = { s.myCore with arrivals := s.myCore.arrivals.set x.j.toNat { a with c := a.c - a.e } (x.j.isLt) })
      ∧ (a.c.toNat < a.e.toNat → WaitsAt (.acwait x) s .acwait fun h => h = { s.me with wait := some .acwait, waitNo := h.waitNo })

/-- R321 to R326: a CLRED whose descriptor and ranges pass sends its bytes as this module's contribution and waits; the meeting's
result writes every element, folded over the members in rank order, where this member receives it; the CLRED then completes. A
descriptor that is not aligned traps; a meeting whose members differ in what they name, or one of which has faulted, is a device
fault of the partition with detail 5. Counting from 0, the trap of a descriptor that is not aligned and the moment of the count
are readings (log 26, 66). -/
def Obligations.ClredContributesAndReceives : Prop :=
  (∀ (s u v v1 v2 z : State) (x : Clred) (pgs spgs dpgs : List TlbEntry) (ds bs : List Byte) (g : Group), Live s → s.me.guards x.g = true →
    s.me.eix = 0 → CoreIdle s → (s.me.s x.gd).toNat % 16 = 0 →
    let p := s.partOf s.cur
    let w := if x.dbl then 8 else 4
    let a := (s.me.s x.s).toNat
    let d := (s.me.s x.d).toNat
    let n := (s.me.s x.n).toNat
    checkRange s p s.me.root s.me.sup .load (s.me.s x.gd).toNat 144 = (u, .ok pgs) →
    readRange u pgs 8 18 0 (s.me.s x.gd).toNat u = .ok v ds → parseGroup s (ofBytes ds) x.root.toNat = some g →
    n % w = 0 → w ≤ n → n ≤ 65536 → clredPages v s.me .load a n = (v1, .ok spgs) →
    (if x.rootOnly = true ∧ g.members.idxOf (s.md.modId.getD 0) ≠ x.root.toNat then (v1, .ok []) else clredPages v1 s.me .store d n)
      = (v2, .ok dpgs) →
    (x.rootOnly = false ∨ g.members.idxOf (s.md.modId.getD 0) = x.root.toNat → ¬(a < d + n ∧ d < a + n ∧ a ≠ d)) →
    (s.part p).clreds.length < 8 →
    readRange (fenceDone v2 s.cur .rel .domain) spgs w (n / w) 0 a (fenceDone v2 s.cur .rel .domain) = .ok z bs → Coherent s spgs a n →
    let c : Contribution :=
      { rank := g.members.idxOf (s.md.modId.getD 0), n := g.n, members := g.members, dbl := x.dbl, op := x.op, rootOnly := x.rootOnly,
        root := x.root.toNat, bytes := (List.range n).map fun i => s.mem.read (keyAt s spgs (a + i)) }
    let e := tget 0 (s.part p).clredCounts g.gid
    ∃ t, exec (.clred x) s = .next t
      ∧ t = { s with harts := t.harts, parts := t.parts, fresh := t.fresh, cachedW := t.cachedW, flushed := t.flushed,
                     seen := t.seen, waitNos := s.waitNos + 1,
                     md := { s.md with notLiveReads := t.md.notLiveReads, sent := .contribution c :: s.md.sent } }
      ∧ t.me = { fenced s.me t.me with eix := 1, wait := some .clred, waitNo := t.me.waitNo } ∧ (∀ h, h ≠ s.cur → t.hart h = s.hart h)
      ∧ (∀ r, r ≠ p → t.part r = s.part r)
      ∧ t.part p = { s.part p with clredCounts := tput (s.part p).clredCounts g.gid (e + 1),
                                   clreds := (s.part p).clreds ++ [{ h := s.cur, gid := g.gid, e := e, c := c, d := d, pages := dpgs }] })
  ∧ (∀ (s : State) (x : Clred), Live s → s.me.guards x.g = true → s.me.eix = 0 → (s.me.s x.gd).toNat % 16 ≠ 0 →
      Traps (.clred x) s 2 (s.me.s x.gd))
  ∧ (∀ (s : State) (x : Clred), Live s → s.me.guards x.g = true → s.me.eix ≠ 0 → NoReadsOut s.me →
      (∀ o ∈ (s.part (s.partOf s.cur)).clreds, o.h ≠ s.cur) → ∃ t, exec (.clred x) s = .next t ∧ OnlyMe s t
        ∧ Retires s.me t.me (nextSlot s.me.pc) ∧ t.me = stepped (ordered s.me t.me) t.me)
  ∧ (∀ (s : State) (p n : Nat) (gid : BitVec 32) (o : ClredOp) (cs : List Contribution) (b : Bool), s.md.power = .ready →
      (s.part p).clreds.find? (fun o => o.gid == gid && o.e == n) = some o → (b = true ∨ ∃ c ∈ cs, sameMeeting o.c c = false) →
      exec (.clredResult p gid n cs b) s = .next (close s (deviceFault s p 5))
        ∧ (∀ y ∈ (deviceFault s p 5).launches, y.2.part ≠ p) ∧ ((deviceFault s p 5).part p).clreds = [])
  ∧ ∀ (s : State) (p n : Nat) (gid : BitVec 32) (o : ClredOp) (cs : List Contribution), s.wbuf = [] → s.mem.wf → s.md.power = .ready →
    s.bad = [] → s.badL2 = [] → s.badL1 = [] → (∀ y ∈ s.harts, y.2.leases = []) → (s.part p).clreds.find? (fun o => o.gid == gid && o.e == n) = some o →
    o.c.bytes.length ≤ 65536 → (∀ c ∈ cs, sameMeeting o.c c = true) → (∀ r < o.c.n, r = o.c.rank ∨ ∃ c ∈ cs, c.rank = r) →
    o.c.n ≤ 128 →
    let bs := foldedBytes (fun r => if r = o.c.rank then o.c else (cs.find? (·.rank == r)).getD o.c) o.c
    ∃ t, exec (.clredResult p gid n cs false) s = .next t
      ∧ t = { s with parts := t.parts, mem := t.mem, cachedW := t.cachedW, uncachedW := t.uncachedW, flushed := t.flushed,
                     settled := t.settled, old := t.old, epoch := t.epoch, notLive := t.notLive }
      ∧ (∀ r, r ≠ p → t.part r = s.part r) ∧ t.part p = { s.part p with clreds := (s.part p).clreds.filter (· != o) }
      ∧ ∀ k, t.mem.read k =
          if o.pages = [] then s.mem.read k else lastWrite s.mem ((keysOf s p o.pages o.d bs.length).zip bs) k

/-! ## The X side: passing, element groups, whole entries -/

namespace Sys2Proof.Claims

/-- The window entry that passing i appends: what it has captured (R107, R201). -/
def passed (s : State) (i : Instr) (d : XDef) : XEntry :=
  { i := i, sa := s.me.s d.sa, fw := s.me.s d.fw, vl := s.me.vl.toNat, shp := s.me.shp, ffe := s.me.ffe.toNat, seed := s.me.srseed,
    icount := s.me.icount, seq := s.myCore.seq, banks := d.reads (s.me.s d.fw) }
/-- R70: the format word is legal for the instruction; RND counts where the instruction rounds by it (log 60 says which do). -/
def FormatOk (d : XDef) (fw : Dbl) : Prop :=
  d.fclass = true → fw.toNat / 2 ^ 55 = 0 ∧ fw.toNat / 2 ^ 29 % 8 = 0 ∧ (d.usesRnd fw = true → fw.toNat / 2 ^ 24 % 16 ≤ 4)
    ∧ (∀ l, d.setA = some l → fw.toNat % 256 ∈ l) ∧ (∀ l, d.setB = some l → fw.toNat / 2 ^ 8 % 256 ∈ l)
    ∧ ∀ l, d.setD = some l → fw.toNat / 2 ^ 16 % 256 ∈ l

/-- In user mode, with room in the window, i passes: its format word, banks and operands pass their checks, and no write to a bank
it reads is pending. -/
def MayPass (s : State) (i : Instr) (d : XDef) : Prop :=
  xdef i = some d ∧ UserMode s ∧ s.me.win.length < 32 ∧ FormatOk d (s.me.s d.fw)
    ∧ (d.fclass = true → ∀ k ∈ d.reads (s.me.s d.fw), s.me.cbown.getLsbD k.toNat = true) ∧ d.pre ⟨s, s.cur, s.me, passed s i d⟩ = none
    ∧ (∀ k ∈ d.reads (s.me.s d.fw), bankPending s s.cur k = false) ∧ d.late ⟨s, s.cur, s.me, passed s i d⟩ = none

/-- The hart's X side may work: power, launch and hart run, in user mode; no throttle holds its die; no check unit is bad and no bank is to be read again. -/
def XWorks (s : State) (g : HartId) : Prop :=
  s.wbuf = [] ∧ s.md.power = .ready ∧ (s.hart g).phase = .running ∧ (s.launch g.l).phase = .running ∧ (s.hart g).sup = false
    ∧ notHeld s g = true ∧ s.bad = [] ∧ ∀ b : BitVec 4, ((s.core g.l g.k).bank b).reload = false

/-- Element i of b bits of a vector, a queue slot or a tile row. -/
def elt (v : VVal) (b i : Nat) : Nat := v.toNat / 2 ^ (b * i) % 2 ^ b
/-- Every element of b bits that lies inside a register is l's value where l gives one, and as before elsewhere. -/
def EltsAre (old new : VVal) (b : Nat) (l : Nat → Option Nat) : Prop :=
  ∀ i, b * (i + 1) ≤ 65536 → elt new b i = match l i with
    | some x => x % 2 ^ b
    | none => elt old b i

/-- What an element gives a vector destination, and a mask. -/
def vecOf : XEl → Option Nat
  | .vec x _ => some x
  | .bit _ _ => none
  | .trap _ _ => none
def bitOf : XEl → Option Bool
  | .vec _ _ => none
  | .bit b _ => some b
  | .trap _ _ => none
def flagsOf : XEl → Fl
  | .vec _ f => f
  | .bit _ f => f
  | .trap _ _ => Fl.none

/-- The hart with the fields of h' that its X side writes. -/
def xWritten (h h' : Hart) : Hart :=
  { h with v := h'.v, vlh := h'.vlh, vnew := h'.vnew, m := h'.m, sq := h'.sq, sqTail := h'.sqTail, lq := h'.lq, xq := h'.xq,
           fflags := h'.fflags, vsat := h'.vsat, win := h'.win, blocked := h'.blocked, wait := h'.wait, xstop := h'.xstop,
           ydEnd := h'.ydEnd, claim := h'.claim }
/-- An sq without the complete entries whose claim was abandoned (R348). -/
def kept (q : List QEntry) : List QEntry := q.filter fun e => !(e.dead && e.done)

/-- The hart has entered the line l of its position, l passes R43's checks, and slot k of it is the one that the position reaches, past
empty slots (R42). -/
def StandsAt (h : Hart) (l : Line) (k : Nat) : Prop :=
  isSlot h.pc = true ∧ h.line = some (h.pc / 64 * 64, l) ∧ lineOk l = true ∧ h.pc % 64 / 12 ≤ k ∧ k < 5 ∧ (tmpl l k).toNat < 2
    ∧ ∀ j, h.pc % 64 / 12 ≤ j → j < k → tmpl l j = 3
/-- The claim that the A side's instruction holds: one that waits on a queue, and has not claimed its entries for good, has claimed
those there by now (R369; log 17). -/
def claimAt (h : Hart) : Option Claim := match h.claim with
  | some c => if c.waits then waitingClaim h else some c
  | none => match h.wait with
    | some (.queue _) => waitingClaim h
    | _ => none

/-- Of the hart only what its X side writes has changed; an A side that waited on a queue holds what it had claimed (R369), and tries
again. -/
def XMoved (h h' : Hart) : Prop := h' = xWritten h h' ∧ h'.claim = claimAt { h' with claim := h.claim, wait := h.wait }

end Sys2Proof.Claims

/-- R59, R70, R104, R107, R199, R201, R205: in user mode, with room in the window, every X-side instruction whose format word, banks
and operands pass enters the window with the scalars, vl, shp, ffe, srseed and icount it captures, and the A side goes on. -/
def Sys2Proof.Claims.XInstructionsEnterTheWindow : Prop :=
  ∀ (s : State) (i : Instr) (d : XDef), MayPass s i d →
    ∃ t, exec i s = .next t ∧ OnlyMyCore s t ∧ Retires s.me t.me (nextSlot s.me.pc)
      ∧ t.me = { stepped s.me t.me with win := s.me.win ++ [passed s i d] } ∧ t.myCore = { s.myCore with seq := s.myCore.seq + 1 }

/-- R70, R107, R199: at the pass a format word outside the instruction's sets, or a codebook bank that the hart does not own, traps
with the format word in tval; a vl whose elements do not fit VLEN traps with vl in tval. Nothing enters the window. -/
def Sys2Proof.Claims.PassChecksTrap : Prop :=
  ∀ (s : State) (i : Instr) (d : XDef), xdef i = some d → UserMode s → s.me.win.length < 32 →
    (¬FormatOk d (s.me.s d.fw) → Traps i s 2 (s.me.s d.fw))
    ∧ (FormatOk d (s.me.s d.fw) → d.fclass = true → (∃ k ∈ d.reads (s.me.s d.fw), s.me.cbown.getLsbD k.toNat = false) →
      Traps i s 2 (s.me.s d.fw))
    ∧ (FormatOk d (s.me.s d.fw) → (d.fclass = true → ∀ k ∈ d.reads (s.me.s d.fw), s.me.cbown.getLsbD k.toNat = true) →
      d.pre ⟨s, s.cur, s.me, passed s i d⟩ = none → (∀ k ∈ d.reads (s.me.s d.fw), bankPending s s.cur k = false) →
      d.check ⟨s, s.cur, s.me, passed s i d⟩ = none → d.ownBound = false →
      (∃ w ∈ d.srcs.map (·.2) ++ d.dsts.map (·.2), w.bank (s.me.s d.fw) = none
        ∧ 8 * s.vlen s.cur < s.me.vl.toNat * w.bits (s.me.s d.fw)) → Traps i s 2 s.me.vl)

/-- R59, R70, R104, R107, R199, R201, R205: an X-side instruction enters the window, or its pass traps. That RND above 4 traps only
where the instruction uses RND (log 60), and the order of the checks (log 61), are readings. -/
def Obligations.XInstructionsPassOrTrap : Prop :=
  Claims.XInstructionsEnterTheWindow ∧ Claims.PassChecksTrap

/-- R76, R108, R109, R112, R138 to R140, R345: an element group of the oldest entry gives every active element of [lo, hi) its result,
and leaves every other element of the destination, every other register, mask and queue as it was; a trap at an element leaves the
entry in the window at that element, and the A side, which stands at an element boundary, stops at the slot that its position
reaches (R42). Only the oldest entry performs (log 10); when an X-side trap is taken is a reading (log 18). The claim that a trap
finds of an A side which waits on a queue is a reading (log 17). -/
def Obligations.ElementGroupsPerformActiveElements : Prop :=
  ∀ (s : State) (g : HartId) (e e' : XEntry) (rest rest' : List XEntry) (d : XDef) (f : XCtx → Nat → XEl), XWorks s g →
    (s.hart g).win = e :: rest → xdef e.i = some d → d.sem = .elem f →
    let lo := e.prog
    let hi := min e.vl ((lo / groupLen d e.fw + 1) * groupLen d e.fw)
    groupReady ⟨s, g, s.hart g, e⟩ d lo hi = true →
    let u := begunCtx s g d
    (u.hart g).win = e' :: rest' →
    let c : XCtx := ⟨u, g, u.hart g, e'⟩
    let on := fun i => decide (lo ≤ i ∧ i < hi) && c.active d.ctl.g i
    let group := fun n => ((List.range (n - lo)).map (lo + ·)).filter on
    ((∀ i, on i = true → ∀ k v, f c i ≠ .trap k v) →
      ∃ t, exec (.elementGroup g) s = .next t ∧ OnlyHart g s t ∧ XMoved (s.hart g) (t.hart g)
        ∧ (t.hart g).win = { e' with prog := hi } :: rest ∧ (t.hart g).xq = (s.hart g).xq ∧ (t.hart g).lq = (s.hart g).lq
        ∧ (t.hart g).fflags = (group hi).foldl (fun a i => a ||| (flagsOf (f c i)).f) (s.hart g).fflags
        ∧ (t.hart g).vsat = (group hi).foldl (fun a i => a || (flagsOf (f c i)).sat) (s.hart g).vsat
        ∧ (∀ r w, d.dsts = [(.v r, w)] → hi * w.bits e.fw ≤ 65536 → (t.hart g).m = (s.hart g).m ∧ (t.hart g).sq = (s.hart g).sq
          ∧ EltsAre ((s.hart g).vr r) ((t.hart g).vr r) (w.bits e.fw) (fun i => if on i then vecOf (f c i) else none)
          ∧ ∀ q, q ≠ r → (t.hart g).vr q = (s.hart g).vr q)
        ∧ (∀ q w, d.dsts = [(.sq q, w)] → hi * w.bits e.fw ≤ 65536 → (t.hart g).m = (s.hart g).m ∧ (t.hart g).v = (s.hart g).v
          ∧ (∀ r, r ≠ q → sqOf (t.hart g) r = sqOf (s.hart g) r)
          ∧ ∀ l x, sqOf (u.hart g) q = l ++ [x] → ∃ y, sqOf (t.hart g) q = l ++ [y]
            ∧ EltsAre x.data y.data (w.bits e.fw) (fun i => if on i then vecOf (f c i) else none))
        ∧ (d.dsts = [] → (t.hart g).v = (s.hart g).v ∧ (t.hart g).sq = (s.hart g).sq)
        ∧ ∀ m, d.md = some m → m.toNat < 24 → hi ≤ 8192 → d.dsts = [] → (∀ n, n ≠ m → (t.hart g).mr n = (s.hart g).mr n)
          ∧ ∀ i, i < 8192 → ((t.hart g).mr m).getLsbD i = (((if on i then bitOf (f c i) else none)).getD (((s.hart g).mr m).getLsbD i)))
    ∧ ∀ i k v, on i = true → f c i = .trap k v → k ≠ 0 → (∀ j, j < i → on j = true → ∀ k v, f c j ≠ .trap k v) →
      (∀ n, (s.hart g).wait ≠ some (.peer n) ∧ (s.hart g).wait ≠ some (.scStore n)) → (s.hart g).answers = [] →
      ∀ l n, StandsAt (s.hart g) l n →
      ∃ t h, exec (.elementGroup g) s = .next t ∧ OnlyHart g s t ∧ h = xWritten (s.hart g) h ∧ h.claim = (s.hart g).claim ∧ h.win = { e' with prog := i } :: rest
        ∧ TrapTaken { h with pc := (s.hart g).pc / 64 * 64 + 12 * n,
                             claim := claimAt { h with pc := (s.hart g).pc / 64 * 64 + 12 * n, wait := (s.hart g).wait } }
            (t.hart g) true k v i (s.hart g).eix

/-- R108, R109, R119, R139: a whole entry whose sources are complete performs at its completion: the elements it writes take their
values and every other element stays, its pushes join xq, its destination entries are complete, its source entries are popped and
it leaves the window. -/
def Sys2Proof.Claims.WholeEntriesPerformAtCompletion : Prop :=
  ∀ (s : State) (g : HartId) (e : XEntry) (rest : List XEntry) (d : XDef) (f : XCtx → Except XTrap XRes) (r : XRes), XWorks s g →
    (s.hart g).win = e :: rest → xdef e.i = some d → d.sem = .whole f →
    let c : XCtx := ⟨s, g, s.hart g, e⟩
    xMayBegin c d = true → (∀ q ∈ d.lqs, ∀ x, (lqOf (s.hart g) q).head? = some x → x.done = true) → d.lqs.Nodup → f c = .ok r →
    (∀ y, r.post y = y) → (∀ c y, d.fin c y = y) → (r.regs.map (·.1)).Nodup →
    (∀ p ∈ r.regs, (p.2.2.map (·.1)).Nodup ∧ ∀ x ∈ p.2.2, p.2.1 * (x.1 + 1) ≤ 65536) → (∀ q, (∃ p ∈ r.regs, p.1 = .sq q) → q ∈ d.sqs) →
    d.sqs.Nodup →
    ∃ t, exec (.xEntryCompletion g) s = .next t ∧ OnlyHart g s t ∧ XMoved (s.hart g) (t.hart g)
      ∧ (t.hart g).win = rest ∧ (t.hart g).xq = (s.hart g).xq ++ r.xq
      ∧ (t.hart g).fflags = (s.hart g).fflags ||| r.fl.f ∧ (t.hart g).vsat = ((s.hart g).vsat || r.fl.sat)
      ∧ (∀ q, lqOf (t.hart g) q = if q ∈ d.lqs then (lqOf (s.hart g) q).tail else lqOf (s.hart g) q)
      ∧ (∀ q, (∀ p ∈ r.regs, p.1 ≠ .v q) → (t.hart g).vr q = (s.hart g).vr q)
      ∧ (∀ q b l, (VDst.v q, b, l) ∈ r.regs → EltsAre ((s.hart g).vr q) ((t.hart g).vr q) b (fun i => (l.find? (·.1 == i)).map (·.2)))
      ∧ (∀ q, q ∉ d.sqs → sqOf (t.hart g) q = kept (sqOf (s.hart g) q))
      ∧ (e.begun = false → ∀ q, q ∈ d.sqs → ∃ y, sqOf (t.hart g) q = kept (sqOf (s.hart g) q) ++ [y] ∧ y.done = true
        ∧ ∀ b l, (VDst.sq q, b, l) ∈ r.regs → EltsAre 0 y.data b (fun i => (l.find? (·.1 == i)).map (·.2)))
      ∧ (r.masks = [] → (t.hart g).m = (s.hart g).m)
      ∧ ∀ m l, r.masks = [(m, l)] → m.toNat < 24 → (l.map (·.1)).Nodup → (∀ n, n ≠ m → (t.hart g).mr n = (s.hart g).mr n)
        ∧ ∀ i, i < 8192 → ((t.hart g).mr m).getLsbD i = ((l.find? (·.1 == i)).map (·.2)).getD (((s.hart g).mr m).getLsbD i)

/-- R109, R115, R119: an element-wise entry that has performed all its elements leaves the window: its source entries are popped, its
destination entries are complete, and a +yd entry defers its hart's lane groups for 16 cycles. -/
def Sys2Proof.Claims.PerformedEntriesLeaveTheWindow : Prop :=
  ∀ (s : State) (g : HartId) (e : XEntry) (rest : List XEntry) (d : XDef) (f : XCtx → Nat → XEl), XWorks s g →
    (s.hart g).win = e :: rest → xdef e.i = some d → d.sem = .elem f → e.begun = true → e.vl ≤ e.prog → d.lqs.Nodup → d.sqs.Nodup →
    xMayBegin ⟨s, g, s.hart g, e⟩ d = true → (∀ q ∈ d.lqs, ∀ x, (lqOf (s.hart g) q).head? = some x → x.done = true) →
    (∀ c y, d.fin c y = y) →
    ∃ t, exec (.xEntryCompletion g) s = .next t ∧ OnlyHart g s t ∧ XMoved (s.hart g) (t.hart g)
      ∧ (t.hart g).win = rest ∧ (t.hart g).v = (s.hart g).v ∧ (t.hart g).m = (s.hart g).m ∧ (t.hart g).xq = (s.hart g).xq
      ∧ (∀ q, lqOf (t.hart g) q = if q ∈ d.lqs then (lqOf (s.hart g) q).tail else lqOf (s.hart g) q)
      ∧ (∀ q, q ∉ d.sqs → sqOf (t.hart g) q = kept (sqOf (s.hart g) q))
      ∧ (∀ q l x, q ∈ d.sqs → sqOf (s.hart g) q = l ++ [x] → sqOf (t.hart g) q = kept (l ++ [{ x with issued := true, done := true }]))
      ∧ (t.hart g).ydEnd = (if d.ctl.sch.getLsbD 1 then s.cycle + 16 else (s.hart g).ydEnd)

/-- R107 to R109, R112, R139, R140, R345: a whole entry performs at its completion; a performed entry leaves the window. Only the
oldest entry performs (log 10). -/
def Obligations.WholeEntriesPerformAndLeave : Prop :=
  Claims.WholeEntriesPerformAtCompletion ∧ Claims.PerformedEntriesLeaveTheWindow

/-! ## What each X-side instruction computes -/

namespace Sys2Proof.Claims

/-- Element k of w bits of a source, as the instruction found it. -/
def el (c : XCtx) (x : VSrc) (w k : Nat) : BitVec w := (c.src x).extractLsb' (w * k) w
/-- The instruction gives each active element k of its destination, of the width w names, this value with these flags. -/
def Gives (i : Instr) (g : XCtl) (d : VDst) (w : Wd) (val : XCtx → Nat → Nat × Fl) : Prop :=
  ∃ D f, xdef i = some D ∧ D.ctl = g ∧ D.dsts = [(d, w)] ∧ D.md = none ∧ D.sem = .elem f
    ∧ ∀ c k, f c k = .vec (val c k).1 (val c k).2
/-- The same without flags, of an integer width. -/
def GivesW (i : Instr) (g : XCtl) (d : VDst) (z : BitVec 2) (val : XCtx → Nat → BitVec (8 * 2 ^ z.toNat)) : Prop :=
  Gives i g d (.w (8 * 2 ^ z.toNat)) fun c k => ((val c k).toNat, Fl.none)
/-- The instruction gives each active bit k of its mask this value. -/
def GivesBit (i : Instr) (g : XCtl) (m : MReg) (val : XCtx → Nat → Bool) : Prop :=
  ∃ D f, xdef i = some D ∧ D.ctl = g ∧ D.dsts = [] ∧ D.md = some m ∧ D.sem = .elem f ∧ ∀ c k, f c k = .bit (val c k) Fl.none

def leading {w : Nat} (a : BitVec w) : Nat := (((List.range w).reverse).takeWhile fun i => !a.getLsbD i).length
def ones {w : Nat} (a : BitVec w) : Nat := ((List.range w).filter fun i => a.getLsbD i).length
/-- The low w bits of the sign-extended immediate. -/
def immOfWidth (w : Nat) (k : BitVec 29) : BitVec w := (k.signExtend 64).setWidth w

def binForms : List ((WBin → Instr) × ((w : Nat) → BitVec w → BitVec w → BitVec w)) :=
  [(.vadd, fun _ a b => a + b), (.vmul, fun _ a b => a * b), (.vmin, fun _ a b => if b.toInt < a.toInt then b else a),
   (.vand, fun _ a b => a &&& b), (.vxor, fun _ a b => a ^^^ b), (.vshl, fun w a b => a <<< (b.toNat % w)),
   (.vsra, fun w a b => a.sshiftRight (b.toNat % w))]
def immForms : List ((WImm → Instr) × ((w : Nat) → BitVec w → BitVec w → BitVec w)) :=
  [(.vsub, fun _ a b => a - b), (.vmulh, fun w a b => BitVec.ofInt w (a.toInt * b.toInt / 2 ^ w)),
   (.vmax, fun _ a b => if a.toInt < b.toInt then b else a), (.vor, fun _ a b => a ||| b), (.vshr, fun w a b => a >>> (b.toNat % w))]
def unForms : List ((WUn → Instr) × ((w : Nat) → BitVec w → BitVec w)) :=
  [(.vabs, fun _ a => if a.toInt < 0 then -a else a), (.vneg, fun _ a => -a), (.vnot, fun _ a => ~~~a),
   (.vclz, fun w a => BitVec.ofNat w (leading a)), (.vpopc, fun w a => BitVec.ofNat w (ones a)), (.vmov, fun _ a => a)]

/-- The conditions of VCMP on patterns of w bits. -/
def condOf {w : Nat} (c : Cond) (a b : BitVec w) : Bool :=
  match c with
  | .eq => decide (a = b)
  | .ne => decide (a ≠ b)
  | .lt => decide (a.toInt < b.toInt)
  | .ge => decide (b.toInt ≤ a.toInt)
  | .ltu => decide (a.toNat < b.toNat)
  | .geu => decide (b.toNat ≤ a.toNat)
  | .gt => decide (b.toInt < a.toInt)
  | .le => decide (a.toInt ≤ b.toInt)
  | .gtu => decide (b.toNat < a.toNat)
  | .leu => decide (a.toNat ≤ b.toNat)
  | .tst => decide (a &&& b ≠ 0)
  | .tstn => decide (a &&& b = 0)
/-- Element k of a vector, or the captured scalar's low bits. -/
def elOrS (c : XCtx) (x : VSrcS) (w k : Nat) : BitVec w := match x with
  | .vec v => el c v w k
  | .s _ => c.e.sa.setWidth w

/-- The number an exact value is. -/
def ratOf : Ex → ℚ
  | .fin s n d => (if s then -(n : ℚ) else n) / d
  | .nan => 0
  | .inf _ => 0
def Finite : Ex → Prop
  | .fin _ _ d => d ≠ 0
  | .nan => False
  | .inf _ => False
/-- A finite one has a denominator. -/
def Valid : Ex → Prop
  | .fin _ _ d => d ≠ 0
  | .nan => True
  | .inf _ => True
/-- a < b as numbers: −0 equals +0, the infinities lie outermost, and a NaN is below nothing. -/
def NumLess : Ex → Ex → Prop
  | .nan, _ => False
  | .inf _, .nan => False
  | .fin _ _ _, .nan => False
  | .inf s, .inf t => s = true ∧ t = false
  | .inf s, .fin _ _ _ => s = true
  | .fin _ _ _, .inf t => t = false
  | .fin s n d, .fin t m e => ratOf (.fin s n d) < ratOf (.fin t m e)
/-- R81, R168: the order of a minimum and a maximum, −0 below +0. -/
def MinLess (a b : Ex) : Prop := NumLess a b ∨ ∃ d e, a = .fin true 0 d ∧ b = .fin false 0 e
/-- R170's table: when the condition is true, and that a NaN operand sets NV in lt, ge, gt and le alone. -/
def FcondIs (k : FCond) (a b : Ex) (x : Bool × Fl) : Prop :=
  let un := a = .nan ∨ b = .nan
  (x.1 = true ↔ match k with
    | .eq => ¬un ∧ ¬NumLess a b ∧ ¬NumLess b a
    | .ne => un ∨ NumLess a b ∨ NumLess b a
    | .lt => ¬un ∧ NumLess a b
    | .ge => ¬un ∧ ¬NumLess a b
    | .gt => ¬un ∧ NumLess b a
    | .le => ¬un ∧ ¬NumLess b a
    | .uo => un
    | .ord => ¬un)
  ∧ x.2 = if un ∧ (k = .lt ∨ k = .ge ∨ k = .gt ∨ k = .le) then Fl.nv else Fl.none
/-- An operation on exact values is exact: it gives the number q, finite, and sets no flag. -/
def Exactly (x : Ex × Fl) (q : ℚ) : Prop := Finite x.1 ∧ ratOf x.1 = q ∧ x.2 = Fl.none

/-- The exact value of an element of format code f. -/
def valueOf (f : Nat) (c : XCtx) (x : VSrc) (k : Nat) : Ex := (codeFmt f).value (el c x (codeBits f) k).toNat
/-- The formats of sources A and B, and of the destination. -/
def fmtA (c : XCtx) : Nat := c.e.fw.toNat % 256
def fmtB' (c : XCtx) : Nat := c.e.fw.toNat / 2 ^ 8 % 256
def fmtD (c : XCtx) : Nat := c.e.fw.toNat / 2 ^ 16 % 256
/-- A codebook format. -/
def Coded (f : Nat) : Prop := f = 0x22 ∨ f = 0x24 ∨ f = 0x28
/-- The index that element k of a codebook source reads (R200). -/
def indexAt (f : Nat) (b : BitVec 4) (c : XCtx) (x : VSrc) (k : Nat) : Nat :=
  (el c x (codeBits f) (k / 2 ^ ((c.s.core c.hid.l c.hid.k).bank b).lgg.toNat)).toNat
/-- The exact value of element k of a source of format f: its own, or that of the entry of bank b that its index selects. -/
def valueIn (f : Nat) (b : BitVec 4) (c : XCtx) (x : VSrc) (k : Nat) : Ex :=
  if f = 0x22 ∨ f = 0x24 ∨ f = 0x28 then c.entry b (indexAt f b c x k) (k % 2 ^ ((c.s.core c.hid.l c.hid.k).bank b).lgg.toNat)
  else valueOf f c x k
/-- A codebook index selects an entry of its bank, and no check unit is bad. -/
def Readable (f : Nat) (b : BitVec 4) (c : XCtx) (x : VSrc) (k : Nat) : Prop :=
  Coded f → c.s.bad = [] ∧ indexAt f b c x k < ((c.s.core c.hid.l c.hid.k).bank b).cnt
/-- Sources A and B, through CBA and CBB where they are codebooks. -/
def valA (c : XCtx) (x : VSrc) (k : Nat) : Ex := valueIn (fmtA c) (c.e.fw.extractLsb' 32 4) c x k
def valB (c : XCtx) (x : VSrc) (k : Nat) : Ex := valueIn (fmtB' c) (c.e.fw.extractLsb' 36 4) c x k
def ReadA (c : XCtx) (x : VSrc) (k : Nat) : Prop := Readable (fmtA c) (c.e.fw.extractLsb' 32 4) c x k
def ReadB (c : XCtx) (x : VSrc) (k : Nat) : Prop := Readable (fmtB' c) (c.e.fw.extractLsb' 36 4) c x k
/-- RoundTo(DFMT, x, RND) with the flags of x and of the rounding (R71 to R76). -/
def rounded (c : XCtx) (x : Ex × Fl) (k : Nat) : Nat × Fl :=
  let r := (codeFmt (fmtD c)).round x.1 (c.rnd k)
  (r.1, x.2.or r.2)
/-- The instruction rounds this value of its source elements into DFMT, where they can be read. -/
def Rounds (i : Instr) (g : XCtl) (d : VDst) (ok : XCtx → Nat → Prop) (x : XCtx → Nat → Ex × Fl) : Prop :=
  ∃ D f, xdef i = some D ∧ D.ctl = g ∧ D.dsts = [(d, .d)] ∧ D.fclass = true ∧ D.sem = .elem f
    ∧ ∀ c k, ok c k → f c k = .vec (rounded c (x c k) k).1 (rounded c (x c k) k).2

/-- R77, R168: VFDIV's quotient; of an infinity by a zero it sets DZ (log 62). -/
def quotient (a b : Ex) : Ex × Fl := match a, b with
  | .inf s, .fin t 0 _ => (.inf (s != t), Fl.dz)
  | _, _ => a.div b
def fbinForms : List ((FBin → Instr) × (Rnd → Ex → Ex → Ex × Fl)) :=
  [(.vfadd, fun r a b => a.add r b), (.vfsub, fun r a b => a.add r b.neg), (.vfmul, fun _ a b => a.mul b), (.vfdiv, fun _ a b => quotient a b),
   (.vfmin, fun _ a b => (a.min b, Fl.none)), (.vfmax, fun _ a b => (a.max b, Fl.none))]
def funForms : List ((FUn → Instr) × (Ex → Ex × Fl)) :=
  [(.vfsqrt, Ex.sqrt), (.vexp2, fun a => (a.exp2, Fl.none)), (.vlog2, Ex.log2), (.vrsqrt, Ex.rsqrt), (.vrcp, Ex.rcp),
   (.vtanh, fun a => (a.tanh, Fl.none)), (.verf, fun a => (a.erf, Fl.none))]

/-- An integer format code with its width and sign. -/
def intForm (f : Nat) : Option (Nat × Bool) := match f with
  | 0x00 => some (8, true)
  | 0x01 => some (8, false)
  | 0x02 => some (16, true)
  | 0x03 => some (32, true)
  | 0x04 => some (64, true)
  | _ => none
/-- The exact integer of an element of an integer format. -/
def intAt (f : Nat) (c : XCtx) (x : VSrc) (k : Nat) : Int := match intForm f with
  | some (w, true) => (el c x w k).toInt
  | some (w, false) => (el c x w k).toNat
  | none => 0
/-- Narrow an exact integer: clamp it where `sat`, vsat saying that this changed it, else keep its low bits (R144 to R147). -/
def narrow (f : Nat) (sat : Bool) (x : Int) : Nat × Fl := match intForm f with
  | none => (0, Fl.none)
  | some (w, sg) =>
    let lo : Int := if sg then -(2 ^ (w - 1) : Int) else 0
    let hi : Int := if sg then (2 ^ (w - 1) : Int) - 1 else (2 ^ w : Int) - 1
    let y := if sat then max lo (min hi x) else x
    ((y % (2 ^ w : Int)).toNat, if sat ∧ y ≠ x then Fl.vsat else Fl.none)
/-- A pattern at AFMT converted into DFMT at draw index k: integer to integer by R74's narrowing, else RoundTo of its value. -/
def converted (c : XCtx) {w : Nat} (x : BitVec w) (k : Nat) : Nat × Fl :=
  match intForm (fmtA c), intForm (fmtD c) with
  | some (_, sg), some _ => narrow (fmtD c) (c.e.fw.getLsbD 28) (if sg then x.toInt else x.toNat)
  | _, _ => rounded c ((codeFmt (fmtA c)).value x.toNat, Fl.none) k
/-- The instruction narrows this exact integer into DFMT (clamping always, or where SAT is set). -/
def Narrows (i : Instr) (g : XCtl) (d : VDst) (w : Wd) (clamps : XCtx → Bool) (fmt : XCtx → Nat) (ok : XCtx → Prop) (x : XCtx → Nat → Int) :
    Prop :=
  ∃ D f, xdef i = some D ∧ D.ctl = g ∧ D.dsts = [(d, w)] ∧ D.fclass = true ∧ D.sem = .elem f
    ∧ ∀ c k, ok c → (intForm (fmt c)).isSome = true → f c k = .vec (narrow (fmt c) (clamps c) (x c k)).1 (narrow (fmt c) (clamps c) (x c k)).2

/-- The whole instruction writes this, where its pass has let it by. -/
def Performs (i : Instr) (g : XCtl) (val : XCtx → XRes) : Prop :=
  ∃ D f, xdef i = some D ∧ D.ctl = g ∧ D.sem = .whole f ∧ ∀ c, f c = .ok (val c)
/-- The active elements in order. -/
def acts (c : XCtx) (g : XCtl) : List Nat :=
  (List.range c.e.vl).filter fun i => !(c.e.skips.any fun r => r.1 ≤ i && i < r.2) && guardAt c.h i g.g.a && guardAt c.h i g.g.b
/-- One destination element per active element. -/
def perElement (c : XCtx) (g : XCtl) (d : VDst) (w : Nat) (f : Nat → Nat) : XRes := { regs := [(d, w, (acts c g).map fun i => (i, f i))] }
/-- A reduction's result: pushed, or written to element 0 where vl is not 0. -/
def reduced (d : RDst) (c : XCtx) (w r : Nat) (push : Dbl) : XRes := match d with
  | .v v => { regs := if c.e.vl = 0 then [] else [(.v v, w, [(0, r)])] }
  | .xq => { xq := [push] }
def redForms : List ((Vred → Instr) × ((w : Nat) → BitVec w) × ((w : Nat) → BitVec w → BitVec w → BitVec w)) :=
  [(.vredsum, fun _ => 0, fun _ r a => r + a), (.vredmin, fun w => BitVec.ofNat w (2 ^ (w - 1) - 1), fun _ r a => if a.toInt < r.toInt then a else r),
   (.vredmax, fun w => BitVec.ofNat w (2 ^ (w - 1)), fun _ r a => if r.toInt < a.toInt then a else r)]
/-- R159: one step of VCOMB's operation, of formats INT32, INT64 and FP32, an FP32 sum rounded by RND with the draw of index i. -/
def combine (c : XCtx) (op : BitVec 2) (acc v i : Nat) : Nat × Fl :=
  let a : BitVec (codeBits (fmtB' c)) := BitVec.ofNat _ acc
  let b : BitVec (codeBits (fmtB' c)) := BitVec.ofNat _ v
  if fmtB' c = 0x0C then
    let x := FFmt.fp32.value acc
    let y := FFmt.fp32.value v
    if op = 0 then
      let r := FFmt.fp32.round (x.add (c.rnd i) y).1 (c.rnd i)
      (r.1, (x.add (c.rnd i) y).2.or r.2)
    else (fl .fp32 (if op = 1 then x.min y else x.max y), Fl.none)
  else ((if op = 0 then a + b else if op = 1 then (if b.toInt < a.toInt then b else a) else if a.toInt < b.toInt then b else a).toNat, Fl.none)
/-- How many of a list come before i. -/
def before (l : List Nat) (i : Nat) : Nat := (l.filter (· < i)).length

end Sys2Proof.Claims

/-- R143, R148, R162, R163: the integer element-wise instructions give the values of their tables, modulo 2^w, in every width and
form, and set no flag. -/
def Sys2Proof.Claims.IntegerElementsAreThoseOfTheTables : Prop :=
  (∀ x : WBin, ∀ p ∈ binForms, GivesW (p.1 x) x.x x.d x.z fun c k => p.2 _ (el c x.a _ k) (el c x.b _ k))
  ∧ (∀ x : WImm, ∀ p ∈ immForms, GivesW (p.1 x) x.x x.d x.z fun c k => p.2 _ (el c x.a _ k) (immOfWidth _ x.k))
  ∧ (∀ x : WUn, ∀ p ∈ unForms, GivesW (p.1 x) x.x x.d x.z fun c k => p.2 _ (el c x.a _ k))
  ∧ (∀ x : Vsel, GivesW (.vsel x) x.x x.d x.z fun c k => if (c.h.mr x.m).getLsbD k then el c x.a _ k else el c x.b _ k)
  ∧ (∀ x : WSca, GivesW (.vsplat x) x.x x.d x.z fun c _ => c.e.sa.setWidth _)
  ∧ (∀ x : VsplatX, GivesW (.vsplatX x) x.x x.d x.z fun _ _ => x.v.setWidth _)
  ∧ (∀ x : Viota, GivesW (.viota x) x.x x.d x.z fun c k => BitVec.ofInt _ (c.e.sa.toNat + (k : Int) * x.k.toInt))
  ∧ (∀ x : WBin, 2 ≤ x.z.toNat → GivesW (.vhash x) x.x x.d x.z fun c k =>
      (crcOf (2 ^ x.z.toNat) ((el c x.a (8 * 2 ^ x.z.toNat) k).setWidth 32) ((el c x.b (8 * 2 ^ x.z.toNat) k).setWidth 64)).setWidth _)
  ∧ ∀ x : Vxhash, GivesW (.vxhash x) x.x x.d x.z fun c k => (xmix c.e.sa ((el c x.a (8 * 2 ^ x.z.toNat) k).setWidth 64)).setWidth _

/-- R144 to R147: VADDS, VSUBS, VMAC, VDOT2 and VSRAR narrow their exact integers, and set vsat where a clamp has changed one. -/
def Sys2Proof.Claims.SaturatingElementsNarrowExactIntegers : Prop :=
  (∀ x : FBin, Narrows (.vadds x) x.x x.d .d (fun _ => true) fmtA (fun _ => True) fun c k => intAt (fmtA c) c x.a k + intAt (fmtA c) c x.b k)
  ∧ (∀ x : FImm, Narrows (.vsubs x) x.x x.d .d (fun _ => true) fmtA (fun _ => True) fun c k => intAt (fmtA c) c x.a k - x.i.toInt)
  ∧ (∀ x : Vmac, Narrows (.vmac x) x.x (.v x.d) .d (fun c => c.e.fw.getLsbD 28) fmtD
      (fun c => (intForm (fmtA c)).isSome = true ∧ (intForm (fmtB' c)).isSome = true) fun c k =>
        intAt (fmtD c) c (.v x.d) k + intAt (fmtA c) c x.a k * intAt (fmtB' c) c x.b k)
  ∧ (∀ x : Vdot2, Narrows (.vdot2 x) x.x (.v x.d) (.w 32) (fun c => c.e.fw.getLsbD 28) (fun _ => 3) (fun _ => True) fun c k =>
      (el c (.v x.d) 32 k).toInt + ((el c x.a 32 k).extractLsb' 0 16).toInt * (x.h.extractLsb' 0 16).toInt
        + ((el c x.a 32 k).extractLsb' 16 16).toInt * (x.h.extractLsb' 16 16).toInt)
  ∧ ∀ x : Vsrar, Narrows (.vsrar x) x.x x.d .d (fun c => c.e.fw.getLsbD 28) fmtD (fun c => (intForm (fmtA c)).isSome = true) fun c k =>
      (roundInt (if intAt (fmtA c) c x.a k < 0 then -1 else 1, (intAt (fmtA c) c x.a k).natAbs, 2 ^ x.n.toNat) (c.rnd k)).1

/-- R150 to R152: VCMP, VLBC, MLOG and MFFE set each active bit of their mask. -/
def Sys2Proof.Claims.MaskElementsAreThoseOfTheTables : Prop :=
  (∀ x : Vcmp, GivesBit (.vcmp x) x.x x.d fun c k => condOf x.c (el c x.a (8 * 2 ^ x.z.toNat) k) (elOrS c x.b _ k))
  ∧ (∀ x : Vlbc, GivesBit (.vlbc x) x.x x.d fun c k => condOf x.c (c.e.sa + BitVec.ofNat 64 k) c.e.fw)
  ∧ (∀ x : Mlog, GivesBit (.mlog x) x.x x.d fun c k =>
      x.t.getLsbD (2 * ((c.h.mr x.a).getLsbD k).toNat + ((c.h.mr x.b).getLsbD k).toNat))
  ∧ ∀ x : Mffe, GivesBit (.mffe x) x.x x.d fun c k => decide (k < c.e.ffe)

/-- R143 to R148, R150 to R152, R162, R163: the elements of the integer and mask instructions. -/
def Obligations.IntegerAndMaskElementsAreThoseOfTheTables : Prop :=
  Claims.IntegerElementsAreThoseOfTheTables ∧ Claims.SaturatingElementsNarrowExactIntegers ∧ Claims.MaskElementsAreThoseOfTheTables

/-- R168 to R172, R180, R200, R202, R212: the floating-point element-wise instructions round the exact result of their operands once
into DFMT: a sum, a product, a quotient, a reciprocal and a fused sum of finite operands is the rational number of that name;
VFABS and VFNEG change the sign bit alone; VFMIN and VFMAX take the smaller and the larger with −0 below +0, and NaN of a NaN; of
an infinity by a zero VFDIV sets DZ, by R168's sentence and not R77's row (log 62, DEDUCED); VFCMP compares exact values by R170's
table; VCBX gives the entry its index selects, and traps where the index is at or beyond the bank's count. The exact values of
VFSQRT, VRSQRT, VEXP2, VLOG2, VTANH and VERF are those of the model's functions: roots with a remainder bit, and bounded series
with one, a reading whose rounding is not established for every argument (log 39). Infinity by zero without DZ (log 62), A's trap
before B's (log 63) and a scalar of VFCMP under a codebook format (log 49) are readings too. -/
def Obligations.FloatElementsRoundExactResults : Prop :=
  (∀ x : FBin, ∀ p ∈ fbinForms, Rounds (p.1 x) x.x x.d (fun c k => ReadA c x.a k ∧ ReadB c x.b k) fun c k =>
      p.2 (c.rnd k) (valA c x.a k) (valB c x.b k))
  ∧ (∀ x : Vfma, Rounds (.vfma x) x.x x.d (fun c k => ReadA c x.a k ∧ ReadB c x.b k) fun c k =>
      (valA c x.a k).fma (c.rnd k) (valB c x.b k) (valueOf (fmtD c) c x.c k))
  ∧ (∀ x : FUn, ∀ p ∈ funForms, Rounds (p.1 x) x.x x.d (fun c k => ReadA c x.a k) fun c k => p.2 (valA c x.a k))
  ∧ (∀ x : FUn, ∃ D f, xdef (.vcvt x) = some D ∧ D.ctl = x.x ∧ D.dsts = [(x.d, .d)] ∧ D.sem = .elem f
      ∧ ∀ c k,
        (fmtA c ∈ fmtF ++ fmtI → fmtD c ∈ fmtF ++ fmtI →
          f c k = .vec (converted c (el c x.a (codeBits (fmtA c)) k) k).1 (converted c (el c x.a (codeBits (fmtA c)) k) k).2)
        ∧ (Coded (fmtA c) → ReadA c x.a k →
          f c k = .vec (rounded c (valA c x.a k, Fl.none) k).1 (rounded c (valA c x.a k, Fl.none) k).2))
  ∧ (∀ x : FUn, Gives (.vfabs x) x.x x.d .d fun c k =>
      ((el c x.a (codeBits (fmtA c)) k).toNat % 2 ^ (codeBits (fmtA c) - 1), Fl.none))
  ∧ (∀ x : FUn, Gives (.vfneg x) x.x x.d .d fun c k =>
      ((el c x.a (codeBits (fmtA c)) k).toNat ^^^ 2 ^ (codeBits (fmtA c) - 1), Fl.none))
  ∧ (∀ x : Vqsc, Rounds (.vqsc x) x.x x.d (fun _ _ => True) fun c k => (valueOf (fmtA c) c x.a k).div (f32 (elOrS c x.b 32 k).toNat))
  ∧ (∀ x : Vfcmp, ∃ D f, xdef (.vfcmp x) = some D ∧ D.ctl = x.x ∧ D.md = some x.d ∧ D.sem = .elem f ∧ ∀ c k, ReadA c x.a k →
      (∀ v, x.b = .vec v → ReadB c v k →
        ∃ y, f c k = .bit y.1 y.2 ∧ FcondIs x.c (valA c x.a k) (valB c v k) y)
      ∧ ∀ r, x.b = .s r → ¬Coded (fmtB' c) →
        ∃ y, f c k = .bit y.1 y.2
          ∧ FcondIs x.c (valA c x.a k) ((codeFmt (fmtB' c)).value (c.e.sa.toNat % 2 ^ codeBits (fmtB' c))) y)
  ∧ (∀ (r : Rnd) (a b c : Ex), Finite a → Finite b → Finite c →
      Exactly (a.add r b) (ratOf a + ratOf b) ∧ Exactly (a.add r b.neg) (ratOf a - ratOf b) ∧ Exactly (a.mul b) (ratOf a * ratOf b)
        ∧ Exactly (a.fma r b c) (ratOf a * ratOf b + ratOf c)
        ∧ (ratOf b ≠ 0 → Exactly (a.div b) (ratOf a / ratOf b) ∧ Exactly b.rcp (1 / ratOf b)))
  ∧ (∀ a b : Ex, (a = .nan ∨ b = .nan → a.min b = .nan ∧ a.max b = .nan)
      ∧ (a ≠ .nan → b ≠ .nan → Valid a → Valid b → (a.min b = a ∨ a.min b = b) ∧ (a.max b = a ∨ a.max b = b)
        ∧ (MinLess a b → a.min b = a ∧ a.max b = b) ∧ (MinLess b a → a.min b = b ∧ a.max b = a)))
  ∧ ∀ x : FUn, Rounds (.vcbx x) x.x x.d (fun c k => ReadA c x.a k) (fun c k => (valA c x.a k, Fl.none))
      ∧ ∃ D f, xdef (.vcbx x) = some D ∧ D.sem = .elem f ∧ ∀ c k, Coded (fmtA c) →
        let b : BitVec 4 := c.e.fw.extractLsb' 32 4
        let n := indexAt (fmtA c) b c x.a k
        ((c.s.core c.hid.l c.hid.k).bank b).cnt ≤ n → f c k = .trap 10 (BitVec.ofNat 64 (n + 256 * b.toNat))

/-- R149, R152 to R158, R161: the whole integer instructions write, or push, the values of their rules. -/
def Sys2Proof.Claims.WholeIntegerEntriesAreThoseOfTheRules : Prop :=
  (∀ x : WSca, Performs (.vrmovf x) x.x fun c => perElement c x.x x.d (8 * 2 ^ x.z.toNat) fun i =>
      (el c (.v (c.e.sa.setWidth 5)) (8 * 2 ^ x.z.toNat) i).toNat)
  ∧ (∀ x : Vrmovt, Performs (.vrmovt x) x.x fun c => perElement c x.x (.v (c.e.sa.setWidth 5)) (8 * 2 ^ x.z.toNat) fun i =>
      (el c x.a (8 * 2 ^ x.z.toNat) i).toNat)
  ∧ (∀ x : Slide, Performs (.vslideup x) x.x fun c => perElement c x.x x.d (8 * 2 ^ x.z.toNat) fun i =>
      if x.k.toNat ≤ i then (el c x.a (8 * 2 ^ x.z.toNat) (i - x.k.toNat)).toNat else (c.e.sa.setWidth (8 * 2 ^ x.z.toNat)).toNat)
  ∧ (∀ x : Slide, Performs (.vslidedn x) x.x fun c => perElement c x.x x.d (8 * 2 ^ x.z.toNat) fun i =>
      if i + x.k.toNat < c.e.vl then (el c x.a (8 * 2 ^ x.z.toNat) (i + x.k.toNat)).toNat
      else (c.e.sa.setWidth (8 * 2 ^ x.z.toNat)).toNat)
  ∧ (∀ x : WBin, Performs (.vgathr x) x.x fun c => perElement c x.x x.d (8 * 2 ^ x.z.toNat) fun i =>
      let n := (el c x.b (8 * 2 ^ x.z.toNat) i).toNat
      if n < c.e.vl then (el c x.a (8 * 2 ^ x.z.toNat) n).toNat else 0)
  ∧ (∀ x : Vpack, Performs (.vcompr x) x.x fun c =>
      let l := (acts c x.x).filter fun i => (c.h.mr x.m).getLsbD i
      { regs := [(x.d, 8 * 2 ^ x.z.toNat, l.map fun i => (before l i, (el c x.a (8 * 2 ^ x.z.toNat) i).toNat))] })
  ∧ (∀ x : Vpack, Performs (.vexpnd x) x.x fun c =>
      let l := (acts c x.x).filter fun i => (c.h.mr x.m).getLsbD i
      { regs := [(x.d, 8 * 2 ^ x.z.toNat, l.map fun i => (i, (el c x.a (8 * 2 ^ x.z.toNat) (before l i)).toNat))] })
  ∧ (∀ x : Mpush, Performs (.mpopc x) x.x fun c =>
      { xq := [BitVec.ofNat 64 ((acts c x.x).filter fun i => (c.h.mr x.m).getLsbD i).length] })
  ∧ (∀ x : Mpush, Performs (.mffs x) x.x fun c =>
      { xq := [BitVec.ofNat 64 (((acts c x.x).find? fun i => (c.h.mr x.m).getLsbD i).getD c.e.vl)] })
  ∧ (∀ x : Mpfx, Performs (.mpfx x) x.x fun c => perElement c x.x x.d (8 * 2 ^ x.z.toNat) fun i =>
      before ((acts c x.x).filter fun j => (c.h.mr x.m).getLsbD j) i % 2 ^ (8 * 2 ^ x.z.toNat))
  ∧ (∀ x : Vred, ∀ p ∈ redForms, Performs (p.1 x) x.x fun c =>
      let start : BitVec (8 * 2 ^ x.z.toNat) := if x.s = 0 then p.2.1 _ else c.e.sa.setWidth _
      let r := (acts c x.x).foldl (fun r i => p.2.2 _ r (el c x.a _ i)) start
      reduced x.d c (8 * 2 ^ x.z.toNat) r.toNat (r.signExtend 64))
  ∧ (∀ x : Slide, Performs (.vscan x) x.x fun c => perElement c x.x x.d (8 * 2 ^ x.z.toNat) fun i =>
      ((((acts c x.x).filter fun j => if x.k = 1 then j < i else j ≤ i).foldl (fun r j => r + el c x.a (8 * 2 ^ x.z.toNat) j)
        (c.e.sa.setWidth (8 * 2 ^ x.z.toNat)))).toNat)
  ∧ (∀ x : WUn, Performs (.vconf x) x.x fun c => perElement c x.x x.d (8 * 2 ^ x.z.toNat) fun i =>
      (((acts c x.x).find? fun j => el c x.a (8 * 2 ^ x.z.toNat) j == el c x.a (8 * 2 ^ x.z.toNat) i).getD i) % 2 ^ (8 * 2 ^ x.z.toNat))
  ∧ (∀ x : Vbcmp, Performs (.vbcmp x) x.x fun c =>
      { xq := [match (acts c x.x).find? fun i => el c x.a (8 * 2 ^ x.z.toNat) i != el c x.b (8 * 2 ^ x.z.toNat) i with
        | none => BitVec.ofNat 64 c.e.vl
        | some i => BitVec.ofNat 64
            (i + (if el c x.a (8 * 2 ^ x.z.toNat) i < el c x.b (8 * 2 ^ x.z.toNat) i then 1 else 2) * 2 ^ 32)] })
  ∧ ∀ x : Vbfind, Performs (.vbfind x) x.x fun c =>
      { xq := [BitVec.ofNat 64 (((acts c x.x).find? fun i => el c x.a (8 * 2 ^ x.z.toNat) i == c.e.sa.setWidth _).getD c.e.vl)] }

/-- R159, R160: VSORT leaves the active pairs in order of their keys, equal keys in element order, at the active positions; VCOMB
gives each first occurrence of a key its values combined in element order, one step and one rounding each, and zero elsewhere, with the
leaders in its mask, and ORs the flags of every step. -/
def Sys2Proof.Claims.SortAndCombineKeepElementOrder : Prop :=
  (∀ x : Vsort, ∃ D f, xdef (.vsort x) = some D ∧ D.ctl = x.x ∧ D.sem = .whole f ∧ ∀ c, ∃ q : List (Nat × Nat × Nat),
    let w := 8 * 2 ^ x.z.toNat
    let key (k : Nat) : Int := if x.fl.getLsbD 0 then (BitVec.ofNat w k).toInt else k
    let less (a b : Nat) : Prop := if x.fl.getLsbD 1 then key b < key a else key a < key b
    q.Perm ((acts c x.x).map fun i => (i, (el c x.k w i).toNat, (el c x.v w i).toNat))
      ∧ q.Pairwise (fun a b => less a.2.1 b.2.1 ∨ (¬less b.2.1 a.2.1 ∧ a.1 < b.1))
      ∧ f c = .ok { regs := [(x.kd, w, (acts c x.x).zip (q.map (·.2.1))), (x.vd, w, (acts c x.x).zip (q.map (·.2.2)))] })
  ∧ ∀ x : Vcomb, ∃ D f, xdef (.vcomb x) = some D ∧ D.ctl = x.x ∧ D.sem = .whole f ∧ ∀ c,
    let key (i : Nat) : Nat := (el c x.k (codeBits (fmtA c)) i).toNat
    let val (i : Nat) : Nat := (el c x.v (codeBits (fmtB' c)) i).toNat
    let lead (i : Nat) : Bool := (acts c x.x).all fun j => i ≤ j || key j != key i
    let first (i : Nat) : Nat := ((acts c x.x).find? fun j => key j == key i).getD i
    let upTo (l n : Nat) : Nat :=
      ((acts c x.x).filter fun j => l < j && j < n && key j == key l).foldl (fun a j => (combine c x.op a (val j) j).1) (val l)
    let step (i : Nat) : Fl := if lead i then Fl.none else (combine c x.op (upTo (first i) i) (val i) i).2
    f c = .ok { regs := [(x.d, codeBits (fmtB' c), (acts c x.x).map fun i => (i, if lead i then upTo i c.e.vl else 0))],
                masks := [(x.l, (acts c x.x).map fun i => (i, lead i))], fl := (acts c x.x).foldl (fun f i => f.or (step i)) Fl.none }

/-- R149, R152 to R161: the whole integer instructions, VSORT and VCOMB give the values of their rules. -/
def Obligations.WholeIntegerEntriesGiveTheirValues : Prop :=
  Claims.WholeIntegerEntriesAreThoseOfTheRules ∧ Claims.SortAndCombineKeepElementOrder

/-! ## Rounding, floating-point entries, banks and tiles -/

namespace Sys2Proof.Claims

/-- The greatest finite value of a format (R62). -/
def greatest (f : FFmt) : ℚ := match f with
  | .e4m3 => 448
  | .e5m2 => 57344
  | .fp16 => 65504
  | .bf16 => 255 * 2 ^ 120
  | .fp32 => 16777215 * 2 ^ 104

/-- The smallest normal value (R62), and the spacing of R71's grid beyond the greatest one. -/
def leastNormal (f : FFmt) : ℚ := match f with
  | .e4m3 => 1 / 2 ^ 6
  | .e5m2 => 1 / 2 ^ 14
  | .fp16 => 1 / 2 ^ 14
  | .bf16 => 1 / 2 ^ 126
  | .fp32 => 1 / 2 ^ 126
def topUnit (f : FFmt) : ℚ := match f with
  | .e4m3 => 2 ^ 5
  | .e5m2 => 2 ^ 13
  | .fp16 => 2 ^ 5
  | .bf16 => 2 ^ 120
  | .fp32 => 2 ^ 104
/-- A finite pattern of the format has this value. -/
def HasValue (f : FFmt) (z : ℚ) : Prop := ∃ b, b < 2 ^ f.bits ∧ Finite (f.value b) ∧ ratOf (f.value b) = z
/-- R71, R72: for a magnitude a above the greatest value the choice lies beyond that value. On a tie E4M3's greatest value, whose last
bit is 0, is taken, and every other format goes beyond. -/
def GoesBeyond (f : FFmt) (neg : Bool) (a : ℚ) (r : Rnd) : Prop :=
  let g := greatest f
  let u := topUnit f
  g + u ≤ a ∨ match r.rm with
    | .rne => if f = .e4m3 then g + u / 2 < a else g + u / 2 ≤ a
    | .rtz => False
    | .up => neg = false
    | .down => neg = true
    | .stoch => if neg then ¬(r.draw : ℤ) < ⌊2 ^ 32 * (g + u - a) / u⌋ else (r.draw : ℤ) < ⌊2 ^ 32 * (a - g) / u⌋
/-- The rows of R73's table without SAT that give ±Max. -/
def R73Max (neg : Bool) : RMode → Prop
  | .rne => False
  | .rtz => True
  | .up => neg = true
  | .down => neg = false
  | .stoch => False
/-- ±Max, and ±∞ or E4M3's canonical NaN. -/
def IsMax (f : FFmt) (neg : Bool) (b : Nat) : Prop := b < 2 ^ f.bits ∧ Finite (f.value b) ∧ ratOf (f.value b) = if neg then -greatest f else greatest f
def IsHuge (f : FFmt) (neg : Bool) (b : Nat) : Prop := b < 2 ^ f.bits ∧ if f = .e4m3 then b = 0x7F else f.value b = .inf neg

/-- The integer that a mode chooses for q, by R71's and R72's choices on the grid of integers (R74). -/
def intChoice (q : ℚ) (r : Rnd) : ℤ :=
  if q = ⌊q⌋ then ⌊q⌋ else match r.rm with
    | .rne => if q - ⌊q⌋ < 1 / 2 ∨ (q - ⌊q⌋ = 1 / 2 ∧ ⌊q⌋ % 2 = 0) then ⌊q⌋ else ⌊q⌋ + 1
    | .rtz => if 0 ≤ q then ⌊q⌋ else ⌊q⌋ + 1
    | .up => ⌊q⌋ + 1
    | .down => ⌊q⌋
    | .stoch => if (r.draw : ℤ) < ⌊2 ^ 32 * (q - ⌊q⌋)⌋ then ⌊q⌋ + 1 else ⌊q⌋
/-- The pattern of w bits of an integer, and the ends of an integer format. -/
def patOf (w : Nat) (n : ℤ) : Nat := (n % 2 ^ w).toNat
def leastInt (w : Nat) (sg : Bool) : ℤ := if sg then -2 ^ (w - 1) else 0
def greatestInt (w : Nat) (sg : Bool) : ℤ := if sg then 2 ^ (w - 1) - 1 else 2 ^ w - 1
/-- R74: RoundTo an integer format of w bits. -/
def intRounded (w : Nat) (sg : Bool) (x : Ex) (r : Rnd) : Nat × Fl :=
  let out (low : Bool) : Nat × Fl :=
    if r.sat then (patOf w (if low then leastInt w sg else greatestInt w sg), Fl.vsat) else (patOf w (leastInt w sg), Fl.nv)
  match x with
  | .nan => (if r.sat then 0 else patOf w (leastInt w sg), Fl.nv)
  | .inf s => out s
  | .fin _ _ _ =>
    let n := intChoice (ratOf x) r
    if n < leastInt w sg then out true else if greatestInt w sg < n then out false
    else (patOf w n, if ratOf x = n then Fl.none else Fl.nx)
/-- The canonical NaN of a format (R64). -/
def canonNaN : FFmt → Nat
  | .e4m3 => 0x7F
  | .e5m2 => 0x7E
  | .fp16 => 0x7E00
  | .bf16 => 0x7FC0
  | .fp32 => 0x7FC00000

/-- The value of R79's tree over the positions [k × 2^n, (k + 1) × 2^n); an absent partner adds nothing. -/
def treeAt (leaf : Nat → Option Nat) : Nat → Nat → Option Nat × Fl
  | 0, k => (leaf k, Fl.none)
  | n + 1, k => match treeAt leaf n (2 * k), treeAt leaf n (2 * k + 1) with
    | (none, f), (y, g) => (y, f.or g)
    | (x, f), (none, g) => (x, f.or g)
    | (some a, f), (some b, g) => (some (f32Add a b).1, (f.or g).or (f32Add a b).2)

/-- The whole instruction writes this where its operands are as ok says. -/
def PerformsIf (i : Instr) (g : XCtl) (ok : XCtx → Prop) (val : XCtx → XRes) : Prop :=
  ∃ D f, xdef i = some D ∧ D.ctl = g ∧ D.sem = .whole f ∧ ∀ c, ok c → f c = .ok (val c)
/-- One destination element of w bits per active element, with the flags of all. -/
def eachActive (c : XCtx) (g : XCtl) (d : VDst) (w : Nat) (f : Nat → Nat × Fl) : XRes :=
  { regs := [(d, w, (acts c g).map fun i => (i, (f i).1))], fl := (acts c g).foldl (fun a i => a.or (f i).2) Fl.none }

/-- The scale exponent of R178 for the active values of a block that is neither NaN nor zero: Floor(log2) of the greatest
magnitude, 127 for an infinity. -/
def BlockExponent (vs : List Ex) (e : Int) : Prop :=
  (e = 127 ∧ ∃ v ∈ vs, v.abs = .inf false)
    ∨ (∀ v ∈ vs, Finite v ∧ |ratOf v| < (2 : ℚ) ^ (e + 1)) ∧ ∃ v ∈ vs, (2 : ℚ) ^ e ≤ |ratOf v|
/-- The mantissa of m bits of a value under scale byte x: RoundInt(a × 2^(m − 1 − (x − 127)), RND), clamped (R178). -/
def mantissa (m : Nat) (x : Int) (r : Rnd) : Ex → Nat × Fl
  | .fin s n d =>
    let e : Int := (m : Int) - 1 - (x - 127)
    let q := roundInt (if s then -1 else 1, n * 2 ^ e.toNat, d * 2 ^ (-e).toNat) r
    let lo : Int := -(2 ^ (m - 1) : Int)
    let hi : Int := (2 ^ (m - 1) : Int) - 1
    ((max lo (min hi q.1) % (2 ^ m : Int)).toNat,
      ⟨if q.2 then 16 else 0, decide (q.1 < lo ∨ hi < q.1)⟩)
  | .inf s => (if s then 2 ^ (m - 1) else 2 ^ (m - 1) - 1, Fl.vsat)
  | .nan => (0, Fl.none)
/-- R178 for one block of active elements: its scale byte and its mantissas with their flags. -/
def BlockIs (c : XCtx) (m : Nat) (val : Nat → Ex) (l : List Nat) (x : Nat) (q : Nat → Nat × Fl) (fl : Fl) : Prop :=
  ((∃ i ∈ l, val i = .nan) → x = 0xFF ∧ fl = Fl.nv ∧ ∀ i ∈ l, q i = (0, Fl.none))
  ∧ ((∀ i ∈ l, (val i).isZero = true) → x = 0 ∧ fl = Fl.none ∧ ∀ i ∈ l, q i = (0, Fl.none))
  ∧ ((∀ i ∈ l, val i ≠ .nan) → (∃ i ∈ l, (val i).isZero = false) → fl = Fl.none ∧ ∃ e, BlockExponent (l.map val) e
      ∧ (x : Int) = max 0 (min 0xFE (e + 128)) ∧ ∀ i ∈ l, q i = mantissa m x (c.rnd i) (val i))

/-- The sum of squared distances from a group's values to an entry (R213). -/
def entryDistance (c : XCtx) (k : BitVec 4) (i0 : Nat) (vs : List (Nat × Ex)) (e : Nat) : Option (Nat × Nat) :=
  distSum (vs.map fun p => cbDist p.2 (c.entry k e (p.1 - i0)))

/-- Word n = 64 × row + column of a tile. -/
def twd (v : TileVal) (n : Nat) : BitVec 32 := v.extractLsb' (32 * n) 32
/-- The entry at the head of g's window leaves it: its sources are popped, and nothing of the hart changes but its flags. -/
def LeavesWindow (s t : State) (g : HartId) (rest : List XEntry) (lqs : List LQ) : Prop :=
  t.hart g = { xWritten (s.hart g) (t.hart g) with v := (s.hart g).v, vlh := (s.hart g).vlh, vnew := (s.hart g).vnew, m := (s.hart g).m,
                                                    sq := (s.hart g).sq.map kept, sqTail := (s.hart g).sqTail, xq := (s.hart g).xq }
    ∧ (t.hart g).claim = claimAt { t.hart g with claim := (s.hart g).claim, wait := (s.hart g).wait }
    ∧ (∀ h, h ≠ g → t.hart h = s.hart h) ∧ (t.hart g).win = rest
    ∧ ∀ q, lqOf (t.hart g) q = if q ∈ lqs then (lqOf (s.hart g) q).tail else lqOf (s.hart g) q
/-- Tile k takes these words, its written flag is set, and every other word, tile and core stays. -/
def TileTakes (s t : State) (g : HartId) (k : BitVec 2) (w : Nat → Option (Nat × Fl)) : Prop :=
  let a := s.core g.l g.k
  let b := t.core g.l g.k
  t = { s with harts := t.harts, cores := t.cores } ∧ (∀ l c, (l, c) ≠ (g.l, g.k) → t.core l c = s.core l c)
    ∧ b = { a with tiles := b.tiles, tileWritten := a.tileWritten ||| (1#4 <<< k.toNat) } ∧ (∀ j, j ≠ k → b.tile j = a.tile j)
    ∧ (∀ n, n < 4096 → twd (b.tile k) n = match w n with
        | some x => BitVec.ofNat 32 x.1
        | none => twd (a.tile k) n)
    ∧ (t.hart g).fflags = (List.range 4096).foldl (fun f n => f ||| ((w n).getD (0, Fl.none)).2.f) (s.hart g).fflags
    ∧ (t.hart g).vsat = (List.range 4096).foldl (fun f n => f || ((w n).getD (0, Fl.none)).2.sat) (s.hart g).vsat
/-- The sources of a lq operand have arrived. -/
def Arrived (h : Hart) (l : List LQ) : Prop := l.Nodup ∧ ∀ q ∈ l, ∃ x xs, lqOf h q = x :: xs ∧ x.done = true
def lqsOf : List VSrc → List LQ
  | [] => []
  | .lq q :: t => q :: lqsOf t
  | .v _ :: t => lqsOf t
/-- The word of a tile that element i of a line operand maps to (R227), and of a row or column (R228). -/
def lineWord (c : XCtx) (col : Bool) (i : Nat) : Nat :=
  let x := c.e.sa.toNat
  if col then 64 * (i % shpRows c.e.shp) + (x + i / shpRows c.e.shp) else 64 * (x + i / shpCols c.e.shp) + i % shpCols c.e.shp
def rowWord (c : XCtx) (col : Bool) (i : Nat) : Nat := if col then 64 * i + c.e.sa.toNat else 64 * c.e.sa.toNat + i
/-- R217, R227: the shape is legal, and the lines lie in the tile. -/
def ShapeOk (c : XCtx) : Prop := 0 < shpRows c.e.shp ∧ shpRows c.e.shp ≤ 64 ∧ 0 < shpCols c.e.shp ∧ shpCols c.e.shp ≤ 64
def LinesOk (c : XCtx) (col : Bool) : Prop :=
  let l := if col then shpRows c.e.shp else shpCols c.e.shp
  c.e.sa.toNat + (c.e.vl + l - 1) / l ≤ 64
/-- The element of the active ones that maps to word n. -/
def mapsTo (c : XCtx) (g : XCtl) (place : Nat → Nat) (n : Nat) : Option Nat := (acts c g).find? fun i => place i == n
/-- Whether element i is active (R138), below vl. -/
def isOn (c : XCtx) (g : XCtl) (i : Nat) : Bool := (acts c g).contains i

/-- The products of an outer product for word (r, j) of the tile, over the active ranks of a group. -/
structure Outer where
  /-- The position of rank p's A operand (R222, R225). -/
  pos : Nat → Nat
  a : VSrc
  b : VSrc
def Outer.product (o : Outer) (c : XCtx) (r j p : Nat) : Ex × Fl :=
  (valA c o.a (o.pos p * shpRows c.e.shp + r)).mul (valB c o.b (p * shpCols c.e.shp + j))
def Outer.intProduct (o : Outer) (c : XCtx) (r j p : Nat) : Int :=
  intAt (fmtA c) c o.a (o.pos p * shpRows c.e.shp + r) * intAt (fmtB' c) c o.b (p * shpCols c.e.shp + j)
/-- A BFP product under the scales of the registers SCA and SCB (R66, R222). -/
def Outer.blockProduct (o : Outer) (c : XCtx) (r j p : Nat) : Ex × Fl :=
  let n := r * c.e.vl + p
  let m := j * c.e.vl + p
  let ma := codeBits (fmtA c)
  let mb := codeBits (fmtB' c)
  let xa := (el c (.v (c.e.fw.extractLsb' 40 5)) 8 (n / 48)).toNat
  let xb := (el c (.v (c.e.fw.extractLsb' 45 5)) 8 (m / 48)).toNat
  let v := (el c o.a ma n).toInt * (el c o.b mb m).toInt
  (if xa = 0xFF ∨ xb = 0xFF then Ex.nan
   else .dyadic (decide (v < 0)) v.natAbs (((xa : Int) - 127 - ((ma : Int) - 1)) + ((xb : Int) - 127 - ((mb : Int) - 1))), Fl.none)
/-- R80: one rounding of the old word plus the exact sum of the group's products. -/
def accumulated (old : BitVec 32) (l : List (Ex × Fl)) : Nat × Fl :=
  let s := groupSum (l.map (·.1))
  let y := FFmt.fp32.round ((f32 old.toNat).add .plain s.1).1 .plain
  (y.1, (l.foldl (fun f p => f.or p.2) s.2).or (((f32 old.toNat).add .plain s.1).2.or y.2))

end Sys2Proof.Claims

/-- R64, R71 to R74: RoundTo. A floating format: within the range it takes the neighbour that its mode names: the nearest value, an
even one on a tie; the next toward zero; the next above; the next below; that of the draw. An exact value sets no flag, every
other NX, with UF below the smallest normal value; a NaN gives the canonical NaN, an infinity itself, E4M3's NaN, or ±Max with
vsat under SAT. A choice beyond the greatest value overflows with OF and NX into what R73's table gives, and a choice of ±Max
gives it with NX alone. That a value of the grid beyond the greatest one overflows too is log 77's reading (DEDUCED). An integer
format: the integer of its mode's choice, with NX where it is not exact; outside the range the nearest end with vsat under SAT,
else the least value with NV; of a NaN 0 or the least value, with NV. RoundInt, which VSRAR and VQBFP narrow (R147, R178), is that
choice. That an exact value of the grid beyond the greatest value overflows is a reading (log 77). -/
def Obligations.RoundToTakesTheNeighbourOfItsMode : Prop :=
  (∀ (f : FFmt) (s : Bool) (n d : Nat) (r : Rnd), d ≠ 0 →
    let x := ratOf (.fin s n d)
    let b := (f.round (.fin s n d) r).1
    let fs := (f.round (.fin s n d) r).2
    let y := ratOf (f.value b)
    (|x| ≤ greatest f → Finite (f.value b) ∧ b < 2 ^ f.bits ∧ b.testBit (f.bits - 1) = s ∧ (x = y → fs = Fl.none)
      ∧ (x ≠ y → fs = ⟨if |x| < leastNormal f then 24 else 16, false⟩)
      ∧ (r.rm = .stoch → ∀ lo hi, HasValue f lo → HasValue f hi → lo < x → x < hi → (∀ z, HasValue f z → z ≤ lo ∨ hi ≤ z) →
          y = if (r.draw : ℤ) < ⌊2 ^ 32 * (x - lo) / (hi - lo)⌋ then hi else lo)
      ∧ ∀ b', b' < 2 ^ f.bits → Finite (f.value b') → let z := ratOf (f.value b')
        (z = x → y = x)
        ∧ (r.rm = .rne → |x - y| ≤ |x - z| ∧ (|x - y| = |x - z| → z ≠ y → b % 2 = 0))
        ∧ (r.rm = .rtz → |y| ≤ |x| ∧ (|z| ≤ |x| → |z| ≤ |y|))
        ∧ (r.rm = .up → x ≤ y ∧ (x ≤ z → y ≤ z))
        ∧ (r.rm = .down → y ≤ x ∧ (z ≤ x → z ≤ y)))
    ∧ (greatest f < |x| →
      (¬GoesBeyond f s |x| r → IsMax f s b ∧ fs = ⟨16, false⟩)
      ∧ (GoesBeyond f s |x| r → fs = ⟨20, r.sat⟩ ∧ (r.sat = true ∨ R73Max s r.rm → IsMax f s b) ∧ (¬(r.sat = true ∨ R73Max s r.rm) → IsHuge f s b))))
  ∧ (∀ (f : FFmt) (r : Rnd), f.round .nan r = (canonNaN f, Fl.none)
      ∧ ∀ s, (r.sat = true → IsMax f s (f.round (.inf s) r).1 ∧ (f.round (.inf s) r).2 = Fl.vsat)
        ∧ (r.sat = false → IsHuge f s (f.round (.inf s) r).1 ∧ (f.round (.inf s) r).2 = Fl.none))
  ∧ (∀ (neg : Bool) (n d : Nat) (r : Rnd), d ≠ 0 →
      let q := ratOf (.fin neg n d)
      (roundInt (if neg then -1 else 1, n, d) r).1 = intChoice q r ∧ ((roundInt (if neg then -1 else 1, n, d) r).2 = true ↔ q ≠ ⌊q⌋))
  ∧ ∀ (c w : Nat) (sg : Bool) (x : Ex) (r : Rnd), intForm c = some (w, sg) → Valid x → (codeFmt c).round x r = intRounded w sg x r

/-- R79, R173 to R175, R177 to R179, R196, R210, R213, R227, R228: the whole floating-point instructions, CBST, TSTS and TROWV write,
or push, the values of their rules. -/
def Obligations.WholeFloatEntriesAreThoseOfTheRules : Prop :=
  (∀ x : FRed, PerformsIf (.vfredsum x) x.x (fun c => c.e.vl ≤ 8192 ∧ ∀ i ∈ acts c x.x, ReadA c x.a i) fun c =>
      let t := treeAt (fun i => if i ∈ acts c x.x then some (FFmt.fp32.round (valA c x.a i) .plain).1 else none) 13 0
      let y : Nat × Fl := if x.s = 0 then (t.1.getD 0, t.2)
        else ((f32Add (t.1.getD 0) (c.e.sa.toNat % 2 ^ 32)).1, t.2.or (f32Add (t.1.getD 0) (c.e.sa.toNat % 2 ^ 32)).2)
      let r := rounded c (f32 y.1, y.2) 0
      { reduced x.d c (codeBits (fmtD c)) r.1 (BitVec.ofNat 64 r.1) with fl := r.2 })
  ∧ (∀ x : FRed, PerformsIf (.vamax x) x.x (fun c => ∀ i ∈ acts c x.x, ReadA c x.a i) fun c =>
      let start := if x.s = 0 then Ex.zero false else (f32 (c.e.sa.toNat % 2 ^ 32)).abs
      let r := rounded c ((acts c x.x).foldl (fun r i => r.max (valA c x.a i).abs) start, Fl.none) 0
      { reduced x.d c (codeBits (fmtD c)) r.1 (BitVec.ofNat 64 r.1) with fl := r.2 })
  ∧ (∀ x : Vbfly, PerformsIf (.vbfly x) x.x (fun _ => True) fun c =>
      eachActive c x.x x.d (codeBits (fmtD c)) fun i =>
        let a := valueOf (fmtA c) c x.a
        let p := i ^^^ 2 ^ x.j.toNat
        let y : Ex × Fl := if c.e.vl ≤ p then (a i, Fl.none)
          else if i.testBit x.j.toNat then (a p).add (c.rnd i) (a i).neg
          else (a i).add (c.rnd i) (a p)
        rounded c (if x.hv then (y.1.mul (.fin false 1 2)).1 else y.1, y.2) i)
  ∧ (∀ x : Vbfp, ∃ D f, xdef (.vqbfp x) = some D ∧ D.ctl = x.x ∧ D.sem = .whole f ∧ ∀ c, ∃ (q : Nat → Nat × Fl) (sc : Nat → Nat) (bf : Nat → Fl),
      let m := codeBits (fmtD c)
      let block (j : Nat) : List Nat := (acts c x.x).filter fun i => i / 48 == j
      let js := (List.range ((c.e.vl + 47) / 48)).filter fun j => !(block j).isEmpty
      (fmtA c ∈ fmtH → fmtD c ∈ fmtB → (∀ j ∈ js, BlockIs c m (valueOf (fmtA c) c x.a) (block j) (sc j) q (bf j))
        ∧ f c = .ok { regs := [(x.d, m, (acts c x.x).map fun i => (i, (q i).1)),
                               (.v (c.e.fw.extractLsb' 50 5), 8, js.map fun j => (x.o.toNat + j, sc j))],
                      fl := js.foldl (fun a j => a.or (bf j)) ((acts c x.x).foldl (fun a i => a.or (q i).2) Fl.none) }))
  ∧ (∀ x : Vbfp, PerformsIf (.vdqbfp x) x.x (fun _ => True) fun c =>
      eachActive c x.x x.d (codeBits (fmtD c)) fun i =>
        let m := codeBits (fmtA c)
        let e := (el c (.v (c.e.fw.extractLsb' 40 5)) 8 (x.o.toNat + i / 48)).toNat
        let k := (el c x.a m i).toInt
        rounded c (if e = 0xFF then Ex.nan else .dyadic (decide (k < 0)) k.natAbs ((e : Int) - 127 - ((m : Int) - 1)), Fl.none) i)
  ∧ (∀ x : FUn, ∃ D f, xdef (.vcbq x) = some D ∧ D.ctl = x.x ∧ D.sem = .whole f ∧ ∀ c, c.s.bad = [] →
      let k : BitVec 4 := c.e.fw.extractLsb' 36 4
      let bank := (c.s.core c.hid.l c.hid.k).bank k
      let g := 2 ^ bank.lgg.toNat
      let n := min bank.cnt (2 ^ codeBits (fmtD c))
      let heads := (acts c x.x).filter fun i => i % g == 0
      let group (i0 : Nat) : List (Nat × Ex) := ((acts c x.x).filter fun i => i / g == i0 / g).map fun i => (i, valueOf (fmtA c) c x.a i)
      let nans (i0 : Nat) : Bool := (group i0).any fun p => p.2 == .nan
      (bank.cnt = 0 → ∀ i l, heads = i :: l → f c = .error ⟨i, 10, BitVec.ofNat 64 (256 * k.toNat)⟩)
      ∧ (bank.cnt ≠ 0 → ∃ y : Nat → Nat,
          f c = .ok { regs := [(x.d, codeBits (fmtD c), heads.map fun i => (i / g, y i))], fl := if heads.any nans then Fl.nv else Fl.none }
          ∧ ∀ i0 ∈ heads, (nans i0 = true → y i0 = 0)
            ∧ (nans i0 = false → y i0 < n ∧ ∀ e, e < n →
                distLess (entryDistance c k i0 (group i0) e) (entryDistance c k i0 (group i0) (y i0)) = false
                ∧ (e < y i0 → distLess (entryDistance c k i0 (group i0) (y i0)) (entryDistance c k i0 (group i0) e) = true))))
  ∧ (∀ (x : Cbst) (d : VDst), x.d = .vec d → PerformsIf (.cbst x) x.x (fun c => c.s.bad = []) fun c =>
      let core := c.s.core c.hid.l c.hid.k
      perElement c x.x d (8 * 2 ^ x.z.toNat) fun i => ofBytes ((List.range (2 ^ x.z.toNat)).map fun j =>
        if i * 2 ^ x.z.toNat + j < (core.bank x.k).used then
          c.s.peek (poolKey c.hid.l c.hid.k (core.bnd0.toNat + x.k.toNat * ((core.bnd1.toNat - core.bnd0.toNat) / 16) + (i * 2 ^ x.z.toNat + j)))
        else 0))
  ∧ (∀ x : Cbst, x.d = .xq → ∃ D f, xdef (.cbst x) = some D ∧ D.ctl = x.x ∧ D.sem = .whole f ∧ ∀ c,
      let b := (c.s.core c.hid.l c.hid.k).bank x.k
      b.cnt ≤ 256 → ∃ w : Dbl, f c = .ok { xq := [w, b.src] } ∧ w.extractLsb' 0 8 = b.fmt ∧ (w.extractLsb' 8 9).toNat = b.cnt
        ∧ w.extractLsb' 17 2 = b.lgg ∧ (w.extractLsb' 19 2 = 0 ↔ b.st = .invalid) ∧ (w.extractLsb' 19 2 = 1 ↔ b.st = .clean)
        ∧ (w.extractLsb' 19 2 = 2 ↔ b.st = .dirty) ∧ w.getLsbD 21 = b.lnd ∧ w.extractLsb' 22 42 = 0)
  ∧ (∀ x : Tsts, PerformsIf (.tsts x) x.x (fun c => fmtA c ∈ [0x0C, 0x03] ∧ fmtD c ∈ fmtF ++ [0x00, 0x01, 0x02, 0x03]) fun c =>
      eachActive c x.x x.d (codeBits (fmtD c)) fun i =>
        converted c (twd ((c.s.core c.hid.l c.hid.k).tile x.k) (lineWord c x.col i)) i)
  ∧ ∀ x : Trowv, PerformsIf (.trowv x) x.x (fun _ => True) fun c =>
      perElement c x.x x.d 32 fun i => (twd ((c.s.core c.hid.l c.hid.k).tile x.k) (rowWord c x.col i)).toNat

/-- R216, R217, R226 to R229: TZERO, TLDS, TVROW and TSCALE write their words of the tile at their completion, and set its written
flag; every other word of the tile keeps its value. OPA and OPAS, their groups performed, only set the flag (R223). -/
def Sys2Proof.Claims.TileEntriesWriteTheirWords : Prop :=
  ∀ (s : State) (g : HartId) (e : XEntry) (rest : List XEntry), XWorks s g → (s.hart g).win = e :: rest →
    let c : XCtx := ⟨s, g, s.hart g, e⟩
    bankHolds c = false →
    let does (lqs : List LQ) (k : BitVec 2) (w : Nat → Option (Nat × Fl)) : Prop := Arrived (s.hart g) lqs →
      ∃ t, exec (.xEntryCompletion g) s = .next t ∧ LeavesWindow s t g rest lqs ∧ TileTakes s t g k w
    (∀ x, e.i = .tzero x → does [] x.k fun _ => some (0, Fl.none))
    ∧ (∀ x, e.i = .tlds x → ShapeOk c → LinesOk c x.col → fmtA c ∈ fmtF ++ [0x00, 0x01, 0x02, 0x03] → fmtD c ∈ [0x0C, 0x03] →
        does (lqsOf [x.a]) x.k fun n => (mapsTo c x.x (lineWord c x.col) n).map fun i => converted c (el c x.a (codeBits (fmtA c)) i) n)
    ∧ (∀ x, e.i = .tvrow x → c.e.sa.toNat < 64 → c.e.vl ≤ 64 →
        does (lqsOf [x.a]) x.k fun n => (mapsTo c x.x (rowWord c x.col) n).map fun i => ((el c x.a 32 i).toNat, Fl.none))
    ∧ (∀ x, e.i = .tscale x → ShapeOk c →
        let one (n : Nat) (v : Ex) : Nat × Fl := rounded c (((codeFmt (fmtA c)).value (twd ((s.core g.l g.k).tile x.k) n).toNat).mul v) n
        (∀ v, x.src = .vec v → does (lqsOf [v]) x.k fun n =>
          let i := if x.col then n / 64 else n % 64
          if n / 64 < shpRows e.shp ∧ n % 64 < shpCols e.shp ∧ isOn c x.x i = true then some (one n (valueOf (fmtB' c) c v i)) else none)
        ∧ ∀ r, x.src = .s r → does [] x.k fun n =>
          if n / 64 < shpRows e.shp ∧ n % 64 < shpCols e.shp then
            some (one n ((codeFmt (fmtB' c)).value (e.sa.toNat % 2 ^ codeBits (fmtB' c)))) else none)
    ∧ (∀ x, e.i = .opa x → e.begun = true → e.vl ≤ e.prog → does (lqsOf [x.a, x.b]) x.k fun _ => none)
    ∧ ∀ x, e.i = .opas x → e.begun = true → e.vl ≤ e.prog → does (lqsOf [x.a, x.b]) x.k fun _ => none

/-- R80: the sum of a group is exact: the sum of its finite products as rational numbers, −0 only where every product is −0; infinities
of one sign give that infinity; a NaN, or infinities of both signs, give NaN. -/
def Sys2Proof.Claims.GroupSumsAreExact : Prop :=
  ∀ l : List Ex, l ≠ [] →
    ((∀ x ∈ l, Finite x) → Finite (groupSum l).1 ∧ ratOf (groupSum l).1 = (l.map ratOf).sum ∧ (groupSum l).2 = Fl.none
      ∧ ((∃ d, (groupSum l).1 = .fin true 0 d) ↔ ∀ x ∈ l, ∃ d, x = .fin true 0 d))
    ∧ ((∃ x ∈ l, x = .nan) ∨ (.inf false ∈ l ∧ .inf true ∈ l) → (groupSum l).1 = .nan)
    ∧ ((groupSum l).2 = Fl.nv ↔ (.inf false ∈ l ∧ .inf true ∈ l))
    ∧ ∀ b, .inf b ∈ l → .inf (!b) ∉ l → .nan ∉ l → (groupSum l).1 = .inf b

/-- R80, R217, R221 to R225: an element group of OPA or OPAS adds, to each word of the shape's rectangle, the exact sum of its active
ranks' products in one rounding, or modulo 2^32; a group with no active rank leaves the tile as it is. Ranks of OPAS are those its
mask holds, with the columns of A packed. -/
def Sys2Proof.Claims.RankGroupsAccumulate : Prop :=
  ∀ (s : State) (g : HartId) (e e' : XEntry) (rest rest' : List XEntry) (d : XDef), XWorks s g → (s.hart g).win = e :: rest →
    xdef e.i = some d →
    let c : XCtx := ⟨begunCtx s g d, g, (begunCtx s g d).hart g, e'⟩
    ((begunCtx s g d).hart g).win = e' :: rest' → ShapeOk c → Arrived (s.hart g) d.lqs →
    let does (o : Outer) (k : BitVec 2) (sparse : Bool) (on : Nat → Bool) : Prop :=
      let cl := classNow (s.core g.l g.k) e.fw sparse
      let n := match cl with
        | .half => 16
        | .eight => 32
        | .block => 48
        | .integer => 1
      let hi := min e.vl ((e.prog / n + 1) * n)
      let ranks := ((List.range hi).filter fun p => decide (e.prog ≤ p) && on p)
      let inside (w : Nat) : Prop := w / 64 < shpRows e.shp ∧ w % 64 < shpCols e.shp
      let old (w : Nat) : BitVec 32 := twd ((s.core g.l g.k).tile k) w
      let word (w : Nat) : Nat × Fl := match cl with
        | .integer => ((old w + BitVec.ofInt 32 ((ranks.map (o.intProduct c (w / 64) (w % 64))).sum)).toNat, Fl.none)
        | .block => accumulated (old w) (ranks.map (o.blockProduct c (w / 64) (w % 64)))
        | .half => accumulated (old w) (ranks.map (o.product c (w / 64) (w % 64)))
        | .eight => accumulated (old w) (ranks.map (o.product c (w / 64) (w % 64)))
      groupReady ⟨s, g, s.hart g, e⟩ d e.prog hi = true → (cl = .integer → (intForm (fmtA c)).isSome = true ∧ (intForm (fmtB' c)).isSome = true) →
      (cl = .half ∨ cl = .eight → ∀ p ∈ ranks, (∀ r, r < shpRows e.shp → ReadA c o.a (o.pos p * shpRows e.shp + r))
        ∧ ∀ j, j < shpCols e.shp → ReadB c o.b (p * shpCols e.shp + j)) →
      ∃ t, exec (.elementGroup g) s = .next t ∧ (t.hart g).win = { e' with prog := hi } :: rest
        ∧ (∀ h, h ≠ g → t.hart h = s.hart h) ∧ XMoved (s.hart g) (t.hart g) ∧ (t.hart g).v = (s.hart g).v
        ∧ (t.hart g).lq = (s.hart g).lq
        ∧ (ranks = [] → t = { s with harts := t.harts } ∧ (t.hart g).fflags = (s.hart g).fflags)
        ∧ (ranks ≠ [] → TileTakes s t g k fun w => if inside w then some (word w) else none)
    (∀ x, e.i = .opa x → does ⟨fun p => p, x.a, x.b⟩ x.k false (isOn c x.x))
    ∧ ∀ x, e.i = .opas x →
      does ⟨fun p => ((List.range p).filter fun q => (c.h.mr x.m).getLsbD q).length, x.a, x.b⟩ x.k true fun p => (c.h.mr x.m).getLsbD p && isOn c x.x p

/-- R80, R217, R221 to R225: a rank group's products are summed exactly and added to the tile in one rounding. A group is performed
once the elements its ranks read have arrived (log 11). -/
def Obligations.RankGroupsAccumulateExactSums : Prop :=
  Claims.GroupSumsAreExact ∧ Claims.RankGroupsAccumulate

namespace Sys2Proof.Claims

/-- The pool key of byte j of bank k's slot (R195). -/
def slotByte (s : State) (g : HartId) (k : BitVec 4) (j : Nat) : Nat :=
  let core := s.core g.l g.k
  poolKey g.l g.k (core.bnd0.toNat + k.toNat * ((core.bnd1.toNat - core.bnd0.toNat) / 16) + j)
/-- The bytes of a slot. -/
def slotSize (s : State) (g : HartId) : Nat := ((s.core g.l g.k).bnd1.toNat - (s.core g.l g.k).bnd0.toNat) / 16
/-- Only memory, the hart and its core's banks differ. -/
def OnlyBanks (s t : State) (g : HartId) : Prop :=
  t = { s with harts := t.harts, cores := t.cores, mem := t.mem } ∧ (∀ l c, (l, c) ≠ (g.l, g.k) → t.core l c = s.core l c)
    ∧ t.core g.l g.k = { s.core g.l g.k with banks := (t.core g.l g.k).banks } ∧ (t.hart g).fflags = (s.hart g).fflags
    ∧ (t.hart g).vsat = (s.hart g).vsat

end Sys2Proof.Claims

/-- R194 to R197, R209, R211: CBLD gives its bank the descriptor, the state and the source address, and its slot the source's U bytes
with zeros after them (or, without a source, leaves the U bytes as they are); CBINV leaves each named bank Invalid and its slot
zero. Every other byte of memory and every other bank stays. -/
def Sys2Proof.Claims.BanksAreLoadedAndInvalidated : Prop :=
  ∀ (s : State) (g : HartId) (e : XEntry) (rest : List XEntry), XWorks s g → (s.hart g).win = e :: rest → s.mem.wf →
    let c : XCtx := ⟨s, g, s.hart g, e⟩
    bankHolds c = false →
    (∀ x : Cbld, e.i = .cbld x →
      let u := (x.n1.toNat + 1) * 2 ^ x.lgg.toNat * (codeBits x.fmt.toNat / 8)
      u ≤ slotSize s g → Arrived (s.hart g) (match x.src with
        | some v => lqsOf [v]
        | none => []) →
      ∃ t, exec (.xEntryCompletion g) s = .next t ∧ OnlyBanks s t g ∧ LeavesWindow s t g rest (match x.src with
          | some v => lqsOf [v]
          | none => [])
        ∧ (t.core g.l g.k).bank x.k = { fmt := x.fmt, cnt := x.n1.toNat + 1, lgg := x.lgg, st := if e.sa = 0 then .dirty else .clean,
                                         lnd := false, src := e.sa, reload := false }
        ∧ (∀ k, k ≠ x.k → (t.core g.l g.k).bank k = (s.core g.l g.k).bank k)
        ∧ (∀ j, j < slotSize s g → t.mem.read (slotByte s g x.k j) =
            if j < u then (match x.src with
              | some v => el c v 8 j
              | none => s.mem.read (slotByte s g x.k j)) else 0)
        ∧ ∀ a, (∀ j, j < slotSize s g → a ≠ slotByte s g x.k j) → t.mem.read a = s.mem.read a)
    ∧ ∀ x : Cbinv, e.i = .cbinv x → ∃ t, exec (.xEntryCompletion g) s = .next t ∧ OnlyBanks s t g ∧ LeavesWindow s t g rest []
        ∧ (∀ k : BitVec 4, (t.core g.l g.k).bank k = if x.m.getLsbD k.toNat then {} else (s.core g.l g.k).bank k)
        ∧ (∀ (k : BitVec 4) j, x.m.getLsbD k.toNat = true → j < slotSize s g → t.mem.read (slotByte s g k j) = 0)
        ∧ ∀ a, (∀ (k : BitVec 4) j, x.m.getLsbD k.toNat = true → j < slotSize s g → a ≠ slotByte s g k j) → t.mem.read a = s.mem.read a

/-- R194 to R197, R209, R211, R216, R217, R226 to R229: the tile instructions and the codebook instructions. The moment of a reload is
a reading (log 20). That TSCALE sets the tile's written flag at every completion is the model's choice (log 71). -/
def Obligations.TilesAndBanksTakeTheirWords : Prop :=
  Claims.TileEntriesWriteTheirWords ∧ Claims.BanksAreLoadedAndInvalidated

/-! ## Events of a hart -/

namespace Sys2Proof.Claims

/-- The hart may issue, and what it finds at its position is i, with t the state at that slot. -/
def Finds (s t : State) (h : HartId) (i : Instr) : Prop := canIssue s h = true ∧ fetch { s with cur := h } h = .run t i
/-- The event is the execution of i at t, and answers a next state u with Q u. -/
def Runs (e i : Instr) (s t : State) (Q : State → Prop) : Prop := exec e s = exec i t ∧ ∃ u, exec e s = .next u ∧ Q u
/-- It retires there and changes nothing of its hart but as P says. -/
def RunsTo (e i : Instr) (s t : State) (P : Hart → Prop) : Prop :=
  Runs e i s t fun u => Retires t.me u.me (nextSlot t.me.pc) ∧ P u.me

end Sys2Proof.Claims

/-- R99, R100, R102, R107, R119, R129, R190, R205, R237, R261, R271, R300, R320: when what a waiting instruction waits for has come
about, its event executes it, and it completes as it does where it need not wait. -/
def Obligations.WakingEventsCompleteTheInstruction : Prop :=
  ∀ (s t : State) (h : HartId) (i : Instr), Finds s t h i → Live t → (∀ g, aGuards i = some g → t.me.guards g = true) →
    let w := (s.hart h).wait
    let same (e : Instr) : Prop := RunsTo e i s t fun x => x = stepped t.me x
    let acquires (e : Instr) : Prop := RunsTo e i s t fun x => x = stepped (fenced t.me x) x
    (∀ d, MayPass t i d → let enters (e : Instr) : Prop := RunsTo e i s t fun x => x = { stepped t.me x with win := t.me.win ++ [passed t i d] }
      (w = some .window → enters (.xWindowFree h)) ∧ (w = some .bank → enters (.bankWriteWaitEnd h)))
    ∧ (∀ c x v rest, w = some (.queue c) → i = .popx x → t.me.sup = false → FreshA t.me → t.me.xq = v :: rest →
        RunsTo (.queueEntryReady h) i s t fun y => HoldsS { t.me with xq := rest } x.d v y)
    ∧ (∀ x, w = some .xsync → i = .xsync x → t.me.sup = false → t.me.win = [] → same (.xsyncDone h))
    ∧ (∀ x, w ≠ none → i = .nbfence x → t.me.nb = [] → same (.nbfenceDone h))
    ∧ (∀ x, w ≠ none → i = .exit x → (t.me.sup = false → t.me.win = [] ∧ ¬RowsOut t.me) → (∀ e ∈ t.myCore.engines, e.hid ≠ h.h) → t.me.nb = [] →
        (∀ p, ¬Behind t p) → Runs (.exitRetire h) i s t fun u => u.me.phase = .exited ∧ u.me.leases = [] ∧ u.me.lanes = 0)
    ∧ (∀ x v, w = some .waiti → i = .waiti x → let cores := (t.launch h.l).w * (t.launch h.l).h
        v = (t.core h.l ((h.k + cores - 1) % cores)).pace[x.c.toNat]'(x.c.isLt) → (t.me.s x.n).toNat ≤ v.toNat → NoReadsOut t.me →
        acquires (.waitiSatisfied h))
    ∧ (∀ x, w = some .gong → i = .gong x → ∀ n, let la := t.launch h.l
        let e := if x.w = 0 ∧ x.h = 0 then (la.w, la.h) else (x.w.toNat, x.h.toNat)
        e.1 ≠ 0 → e.2 ≠ 0 → la.w % e.1 = 0 → la.h % e.2 = 0 → t.me.arrived = some (t.me.pc, e, n) → NoReadsOut t.me →
        (∀ k ∈ gongCores la e h.k, ∀ g ∈ t.coreHarts h.l k, (t.hart g).phase = .exited ∨ n ≤ tget 0 (t.hart g).gongs e) →
        acquires (.gongDeparture h))
    ∧ (∀ x, w = some .tags → i = .twaitall x → t.me.s x.m &&& ~~~t.me.tagown = 0 → NoneBusy t (t.me.s x.m) → same (.twaitReturn h))
    ∧ (∀ x, w = some .tags → i = .twaitany x → t.me.s x.m &&& ~~~t.me.tagown = 0 →
        Claims.doneOf t (t.me.s x.m) ≠ 0 ∨ NoneBusy t (t.me.s x.m) →
        RunsTo (.twaitReturn h) i s t (HoldsS t.me x.d (Claims.doneOf t (t.me.s x.m))))
    ∧ (∀ x, w = some .acwait → i = .acwait x → let a := t.myCore.arrivals[x.j.toNat]'(x.j.isLt)
        a.e.toNat ≤ a.c.toNat → NoReadsOut t.me → Runs (.acwaitReturn h) i s t fun u => Retires t.me u.me (nextSlot t.me.pc)
          ∧ u.myCore.arrivals[x.j.toNat]'(x.j.isLt) = { a with c := a.c - a.e })
    ∧ (∀ x u pgs n, w = some (.leaseGrant n) → i = .lease x → let a := addrOf t x.b x.off
        let held := t.me.leases.filter fun l => t.cycle < l.until_
        16 ≤ x.n.toNat → x.n.toNat ≤ 64 → checkRange t (t.partOf h) t.me.root t.me.sup .both a 1 = (u, .ok pgs) →
        pteC (pageOf pgs a).pte = true → (pageOf pgs a).isLocal = true → (∀ l ∈ held, l.vline ≠ a / 64) → held.length < 4 →
        interlocked t.myCore h.h false (a / 64 * 64) (a / 64 * 64 + 64) = false → ¬RowsLeft t.me (fun _ => True) → (∀ p, ¬Behind t p) →
        leased t h true (keyAt t pgs (a / 64 * 64) / 64) = false → (∀ l, behind t h l = false) →
        crossFar t h [keyAt t pgs (a / 64 * 64) / 64] = none →
        (∀ l ∈ crossLines (t.part (t.partOf h)).dies (pageOf pgs a) a, leasedFar t h l = false) →
        RunsTo (.leaseGrant h) i s t fun y => y = { stepped t.me y with
          leases := held ++ [⟨a / 64, keyAt t pgs (a / 64 * 64) / 64, t.cycle + x.n.toNat, x.n.toNat / 2,
            crossLines (t.part (t.partOf h)).dies (pageOf pgs a) a⟩] })
    ∧ (∀ x u pgs, ∀ f ∈ loadForms, w = some .interlock → i = f.1 x → CountOk t.me x.h → x.o = .plain →
        Reaches t u .load false (addrOf t x.b x.off) f.2.1 pgs → Coherent t pgs (addrOf t x.b x.off) f.2.1 →
        let v := BitVec.ofNat (8 * f.2.1) (valueAt t pgs (addrOf t x.b x.off) f.2.1)
        RunsTo (.interlockWaitEnd h) i s t fun y => HoldsS (ordered t.me y) x.d (if f.2.2 then v.signExtend 64 else v.setWidth 64) y)
    ∧ ∀ x u dc, w ≠ none → i = .pfill x → t.me.tagown.getLsbD x.t.toNat = true → CoreIdle t →
        (t.me.s x.n).toNat ≤ 2 ^ 36 → (t.me.s x.n).toNat % 2 ^ x.z.toNat = 0 →
        rangeCheck t t.me true ⟨x.dp, (t.me.s x.d).toNat, (t.me.s x.n).toNat⟩ = (u, .ok dc) →
        Runs (.engineIssue h) i s t fun u => Retires t.me u.me (nextSlot t.me.pc) ∧ u.myCore.tagDone.getLsbD x.t.toNat = false
          ∧ ∃ e, u.myCore.engines = [e] ∧ e.tag = x.t ∧ e.hid = h.h
              ∧ e.op = .fill (t.me.s x.d).toNat (t.me.s x.n).toNat (2 ^ x.z.toNat) (t.me.s x.v)

/-- R76, R113, R122, R123, R283, R343, R344: the write of vl, vlcap, teix, tvec, fflags or ptbase is the execution of the CSR
instruction that makes it, and leaves the CSR at the value it takes. The bits a write of teix uses, and the values of writes above
ffe's range, are readings (log 42). -/
def Obligations.CsrWriteEventsMakeTheWrite : Prop :=
  ∀ (s t : State) (h : HartId) (i : Instr) (x : CsrWr), Finds s t h i → Live t → t.me.guards x.g = true →
    (isTrapCsr x.c = true → t.me.sup = true) →
    ∀ p ∈ [(Instr.vlWrite, Csr.vl), (.vlcapWrite, .vlcap), (.teixWrite, .teix), (.tvecWrite, .tvec), (.fflagsWrite, .fflags),
      (.ptbaseWrite, .ptbase)], x.c = p.2 →
      ∀ q ∈ [(Instr.csrw x, csrSource t.me x.src), (.csrset x, csrValue t x.c ||| csrSource t.me x.src),
        (.csrclr x, csrValue t x.c &&& ~~~csrSource t.me x.src)], i = q.1 →
        Runs (p.1 h) i s t fun u => Retires t.me u.me (nextSlot t.me.pc) ∧ Written t x.c q.2 (csrValue u x.c)
          ∧ u.me = csrsOf (stepped t.me u.me) u.me

namespace Sys2Proof.Claims

/-- R120: what each side waits for of the other: 0xFF for the window, XSYNC, EXIT or an empty window, else the queue's operand code. -/
def aWaits (h : Hart) (c : Nat) : Prop :=
  h.wait = some (.queue c) ∨ (c = 0xFF ∧ (h.wait = some .window ∨ h.wait = some .xsync ∨ (h.wait = some .exit ∧ h.win ≠ [])))
/-- The head entry of an lq is complete. -/
def HeadDone (h : Hart) (q : LQ) : Prop := ∃ y ys, lqOf h q = y :: ys ∧ y.done = true
/-- The oldest window entry waits for the A side: for the first of its sources that has no entry, or one of which nothing has been
requested; or, its sources complete and its queue entries not reserved, for room in a queue that it pushes. -/
def xWaits (h : Hart) (c : Nat) : Prop :=
  (c = 0xFF ∧ h.win = []) ∨ ∃ e rest d, h.win = e :: rest ∧ xdef e.i = some d
    ∧ ((∃ l1 q l2, d.lqs = l1 ++ q :: l2 ∧ (∀ p ∈ l1, HeadDone h p) ∧ c = 0x60 + q.toNat
          ∧ (lqOf h q = [] ∨ ∃ y ys, lqOf h q = y :: ys ∧ y.done = false ∧ y.issued = false ∧ y.flight = [] ∧ y.written.getLsbD 0 = false))
      ∨ ((∀ q ∈ d.lqs, HeadDone h q) ∧ e.begun = false
        ∧ ((∃ l1 q l2, d.sqs = l1 ++ q :: l2 ∧ (∀ p ∈ l1, (sqOf h p).length < 4) ∧ 4 ≤ (sqOf h q).length ∧ c = 0x64 + q.toNat)
          ∨ ((∀ q ∈ d.sqs, (sqOf h q).length < 4) ∧ 16 < h.xq.length + d.xq ∧ h.xq.length ≤ 16 ∧ c = 0x66))))

end Sys2Proof.Claims

/-- R103, R115, R120, R239, R311, R313: a pause, a +yd deferral and a lease end when their cycles are over, and not before; both sides
of a hart blocked on each other for 4,096 cycles take the queue-deadlock trap, and not before, with the claim of its A side (log
17); the answer to a hart's peer access lets its instruction go on with it. What a queue deadlock claims is a reading (log 17),
and which queue its tval shows (log 70); cycles pass as log 13 says; that an answer is recorded and the instruction then executed
again is the model's (log 38). -/
def Obligations.HartEventsHappenAtTheirTime : Prop :=
  ∀ (s : State) (h : HartId), s.wbuf = [] →
    let x := s.hart h
    let sets (e : Instr) (P : Hart → Prop) : Prop := ∃ t, exec e s = .next t ∧ OnlyHart h s t ∧ P (t.hart h)
    (x.pause ≠ 0 → x.pause ≤ s.cycle → sets (.yieldPauseEnd h) fun y => y = { x with pause := 0 })
    ∧ (s.cycle < x.pause → sets (.yieldPauseEnd h) fun y => y = x)
    ∧ (x.ydEnd ≠ 0 → x.ydEnd ≤ s.cycle → sets (.yieldHintEnd h) fun y => y = { x with ydEnd := 0 })
    ∧ (s.cycle < x.ydEnd → sets (.yieldHintEnd h) fun y => y = x)
    ∧ sets (.leaseExpiry h) (fun y => y = { x with leases := x.leases.filter fun l => s.cycle < l.until_ })
    ∧ (∀ a b, x.phase = .running → (s.launch h.l).phase = .running → x.sup = false → aWaits x a → xWaits x b →
        (x.blocked < 4096 → sets (.queueDeadlock h) fun y => y = x)
        ∧ (4096 ≤ x.blocked → x.eix < 2 ^ 14 → sets (.queueDeadlock h) fun y =>
            TrapTaken { x with claim := claimAt x } y false 12 (BitVec.ofNat 64 (a + 256 * b)) x.eix 0))
    ∧ (∀ n a i t, x.wait = some (.peer n) → s.md.power = .ready →
        Finds (s.updHart h fun y => { y with answers := (n, a) :: y.answers, wait := none }) t h i →
        (exec (.peerAcceptance h a) s = exec i t
        ∧ ∀ (ld : Load) (u : State) (pgs : List TlbEntry) (d : BitVec 64), i = .ldd ld → Live t → t.me.guards ld.g = true → CountOk t.me ld.h →
          ld.o = .plain → n = 0 → x.answers = [] → a = .accept d → (∀ p, ¬Behind t p) →
          let va := addrOf t ld.b ld.off
          va % 65536 + 8 ≤ 65536 → checkRange t (t.partOf h) t.me.root t.me.sup .load va 8 = (u, .ok pgs) →
          (pageOf pgs va).isLocal = false → (pageOf pgs va).isSelf t = false → interlocked t.myCore h.h false va (va + 8) = false →
          ∃ z, exec (.peerAcceptance h a) s = .next z ∧ Retires t.me (z.hart h) (nextSlot t.me.pc) ∧ HoldsS (ordered t.me (z.hart h)) ld.d d (z.hart h)))

/-! ## The queue scheduler -/

namespace Sys2Proof.Claims

/-- Beside free choices drawn and reads of not-live segments counted, only memory differs, written at its home: with it what the model
keeps of earlier values, of copies and of not-live segments (R287, R340). -/
def AtHome (s t : State) : Prop :=
  t = { s with fresh := t.fresh, mem := t.mem, cachedW := t.cachedW, uncachedW := t.uncachedW, flushed := t.flushed,
               settled := t.settled, old := t.old, epoch := t.epoch, notLive := t.notLive, md := { s.md with notLiveReads := t.md.notLiveReads } }
/-- Beside what `AtHome` names, only the partition's queues differ, and of them only q. -/
def OnlyQueue (s t : State) (p q : Nat) : Prop :=
  AtHome { s with parts := t.parts } t ∧ (∀ r, r ≠ p → t.part r = s.part r)
    ∧ t.part p = { s.part p with queues := (t.part p).queues, wanting := (t.part p).wanting } ∧ ∀ r, r ≠ q → t.userQ p r = s.userQ p r
/-- At x the flags byte of queue q holds v, and its page is reached: z is the state after both. -/
def FlagsReach (x y z : State) (p q v : Nat) (pgs : List TlbEntry) : Prop :=
  schedRead x p (tableAddr x p q + 9) 1 = (y, .ok v) ∧ schedPages y p (· == 0) (tableAddr y p q + 9) 1 = (z, .ok pgs)
/-- Memory has changed in the flags byte alone: bit 1 is `pending`, bit 2 `mapped`, the others as they were (R85). -/
def FlagsStored (s t z : State) (p q v : Nat) (pgs : List TlbEntry) (pending mapped : Bool) : Prop :=
  ∀ k, t.mem.read k = lastWrite s.mem ((keysOf z p pgs (tableAddr z p q + 9) 1).zip
    [BitVec.ofNat 8 (v / 8 * 8 + v % 2 + 2 * pending.toNat + 4 * mapped.toNat)]) k
/-- The launch is in the table. -/
def Present (s : State) (l : Nat) : Prop := ∃ la, (l, la) ∈ s.launches
/-- The harts of launch l. -/
def OfLaunch (s : State) (l : Nat) (g : HartId) : Prop :=
  g.l = l ∧ g.k < (s.launch l).w * (s.launch l).h ∧ g.h < (s.launch l).nh

end Sys2Proof.Claims

/-- R85 to R88: QUEUE_MAP gives the queue that has been Wanting longest the lowest free slot and takes head and done from its table
entry; UNMAP_START chooses a mapped queue with nothing in it; UNMAP_COMPLETE frees the slot, and the queue is Wanting again where
a notify came meanwhile or a record is ready. Each writes the queue's flags, and no other byte of memory. The lowest free slot
(log 27), and the row that picks where both rows of R88 apply (log 59), are the model's choice. -/
def Obligations.QueuesAreMappedAndUnmapped : Prop :=
  ∀ (s : State) (p q : Nat), s.wbuf = [] → s.mem.wf → s.badL1 = [] → schedUp s p = true →
    (∀ (rest : List Nat) (slot v : Nat) (u y z : State) (e : QTab) (pgs : List TlbEntry), (s.part p).wanting = q :: rest → slot < 64 →
      slotQueue s p slot = none → (∀ i, i < slot → slotQueue s p i ≠ none) →
      readTable s p q = (u, .ok e) →
      let m : UserQ := { s.userQ p q with phase := .mapped, slot := slot, mappedAt := s.cycle, activeAt := s.cycle, head := e.head, done := e.done }
      FlagsReach ((u.updPart p fun x => { x with wanting := rest }).setQ p q m) y z p q v pgs →
      ∃ t, exec (.queueMap p) s = .next t ∧ OnlyQueue s t p q ∧ t.userQ p q = m ∧ (t.part p).wanting = rest
        ∧ FlagsStored s t z p q v pgs m.pending true)
    ∧ (∀ (u : State) (i : Nat), unmapChoice s p = (u, .ok (some i)) → slotQueue s p i = some q →
      ∃ t, exec (.unmapStart p) s = .next t ∧ OnlyQueue s t p q ∧ t.userQ p q = { s.userQ p q with phase := .unmapping } ∧ t.mem = s.mem
        ∧ (t.part p).wanting = (s.part p).wanting ∧ (s.part p).wanting ≠ [] ∧ (s.userQ p q).phase = .mapped ∧ (s.userQ p q).taken = none
        ∧ ∀ y ∈ s.launches, y.2.part = p → y.2.q ≠ q)
    ∧ ∀ (slot n v : Nat) (u w y z : State) (e : QTab) (pgs : List TlbEntry), slotQueue s p slot = some q → (s.userQ p q).phase = .unmapping →
      readTable s p q = (u, .ok e) → readNotify u p q = (w, .ok n) →
      let h := s.userQ p q
      let again := h.pending = true ∨ h.head < min n (h.head + 2 ^ e.lgsize)
      (¬again → FlagsReach (w.setQ p q { h with phase := .unmapped, pending := false }) y z p q v pgs →
        ∃ t, exec (.unmapComplete p slot) s = .next t ∧ OnlyQueue s t p q ∧ t.userQ p q = { h with phase := .unmapped, pending := false }
          ∧ (t.part p).wanting = (s.part p).wanting ∧ FlagsStored s t z p q v pgs false false)
      ∧ (again → FlagsReach (becomeWanting (w.setQ p q { h with phase := .unmapped, pending := false }) p q
            { e with head := h.head, done := h.done }) y z p q v pgs →
        ∃ t, exec (.unmapComplete p slot) s = .next t ∧ OnlyQueue s t p q
          ∧ t.userQ p q = { h with phase := .wanting, wantedAt := s.cycle, pending := false }
          ∧ (t.part p).wanting = (s.part p).wanting ++ [q] ∧ FlagsStored s t z p q v pgs false false)

/-- R89 to R92, R374: RECORD_TAKE takes the record at head, which moves on; a record that passes every check waits at the placement
point with its image's entry, sizes and measurement, a candidate once its tokens are met, and no hart keeps a line of the image that it
fetched before; one that breaks order 1 is completed with status 3, and not placed. -/
def Sys2Proof.Claims.RecordsAreTaken : Prop :=
  ∀ (s u w x y z : State) (p slot q n v : Nat) (e : QTab), s.wbuf = [] → schedUp s p = true → slotQueue s p slot = some q →
    (s.userQ p q).phase = .mapped → (s.userQ p q).taken = none → readTable s p q = (u, .ok e) → readNotify u p q = (w, .ok n) →
    let i := (s.userQ p q).head
    let h : UserQ := { s.userQ p q with head := i + 1, activeAt := s.cycle }
    let r := parseRecord v
    i < min n (i + 2 ^ e.lgsize) → schedWrite (w.setQ p q h) p (tableAddr w p q + 16) 8 (i + 1) = (x, .ok ()) →
    schedRead x p (e.base + 128 * (i % 2 ^ e.lgsize)) 128 = (y, .ok v) →
    (∀ (m : Image) (entry : Nat) (d : BitVec 512) (z1 z2 z3 : State) (met : Bool), order1 y p q i v r = (z, .ok none) →
      prepare z p r = (z1, .ok (m, entry)) → measure z1 p r.image.toNat m = (z2, .ok d) →
      r.width.toNat ≤ partWidth (s.part p).dies → r.height.toNat ≤ partHeight (s.part p).dies → order4 r m.scratch m.cbslot = none →
      tokensMet z2 p r = (z3, .ok met) →
      let size := m.framea * 2 ^ r.vlen.toNat + m.frameb + m.spilln * 2 ^ r.vlen.toNat
      ∃ t, exec (.recordTake p slot) s = .next t ∧ OnlyQueue { s with harts := t.harts, bad := t.bad, badL2 := t.badL2, badL1 := t.badL1 } t p q
        ∧ (∀ g, t.hart g = { s.hart g with line := (t.hart g).line } ∧ ((t.hart g).line = (s.hart g).line ∨ (t.hart g).line = none)
          ∧ ∀ a ln, s.partOf g = p → (t.hart g).line = some (a, ln) →
            a < r.image.toNat + m.textoff ∨ r.image.toNat + m.textoff + m.textsize ≤ a)
        ∧ t.userQ p q = { h with taken := some { n := i, meas := d, rec_ := r, entry := entry, frame := (size + 63) / 64 * 64,
                                                 scratch := m.scratch, cbslot := m.cbslot, candidate := met, waited := 0 } })
    ∧ ∀ (o : Nat) (z1 z2 z3 : State), order1 y p q i v r = (z, .ok (some o)) →
      writeCompletion z p r.compl.toNat r.seq.toNat 3 o 0 0 = (z1, none) → finishRecord z1 p q i = (z2, none) →
      refreshTokens z2 p = (z3, none) →
      ∃ t, exec (.recordTake p slot) s = .next t ∧ t.harts = s.harts ∧ t.cores = s.cores ∧ t.launches = s.launches
        ∧ (t.userQ p q).taken = none ∧ (t.userQ p q).head = i + 1 ∧ t.mem = s.mem.commit z3.wbuf

/-- R83, R92 to R94, R116, R121: PLACEMENT places the first candidate of the order that fits, at an origin that is a multiple of its
extent and meets no occupied core; none of a higher effective priority could be placed. Its harts start in user mode at the
entry (or with R46's trap there) with the registers and the boundaries the record gives, and at most four lane groups a core. -/
def Sys2Proof.Claims.PlacementStartsTheLaunch : Prop :=
  ∀ (s : State) (p q ox oy : Nat) (c : CandInfo) (k : Taken), s.wbuf = [] → schedUp s p = true →
    ((s.part p).queues.map (·.1)).Nodup → choice s p = some (c, ox, oy) → c.c = .fresh q → (s.userQ p q).taken = some k →
    let r := k.rec_
    let l := s.nextLaunch
    let w := r.width.toNat
    let h := r.height.toNat
    let nh := r.harts.toNat
    (ox % w = 0 ∧ oy % h = 0 ∧ ox + w ≤ partWidth (s.part p).dies ∧ oy + h ≤ partHeight (s.part p).dies
      ∧ (∀ y ∈ s.launches, y.2.part = p → y.2.phase ≠ .saved → ox + w ≤ y.2.ox ∨ y.2.ox + y.2.w ≤ ox ∨ oy + h ≤ y.2.oy ∨ y.2.oy + y.2.h ≤ oy)
      ∧ ∀ y ∈ candidates s p, c.eff < y.eff → originFor s p y.w y.h = none ∧ y.eff < 7)
    ∧ ∃ t, exec (.placement p) s = .next t ∧ t.nextLaunch = l + 1 ∧ t.mem = s.mem ∧ t.posted = s.posted
      ∧ t.md = { s.md with notLiveReads := t.md.notLiveReads } ∧ (t.part p).images = (s.part p).images ++ [k.meas]
      ∧ t.launch l = { part := p, q := q, slot := (s.userQ p q).slot, rec_ := r, entry := k.entry, frame := k.frame, scratch := k.scratch,
                       cbslot := k.cbslot, phase := .running, ox := ox, oy := oy, slices := 1, preempts := 0, waited := 0,
                       begin_ := s.cycle, expired := false, preempt := false, handles := [] }
      ∧ (∀ m, m ≠ l → t.launch m = s.launch m) ∧ (∀ g, g.l ≠ l → t.hart g = s.hart g) ∧ (∀ m j, m ≠ l → t.core m j = s.core m j)
      ∧ (t.userQ p q).taken = none
      ∧ ∀ j, j < w * h → t.core l j = { Core.idle with bnd0 := r.bnd0.setWidth 21, bnd1 := r.bnd1.setWidth 21, bnd2 := r.bnd2.setWidth 21 }
        ∧ (nh ≤ 4 → (∀ i, i < nh → r.laneCode i ≤ 2) → ((List.range nh).map fun i => (t.hart ⟨l, j, i⟩).lanes).sum ≤ 4
            ∧ ∀ i, i < nh → 1 ≤ (t.hart ⟨l, j, i⟩).lanes)
        ∧ ∀ i, i < nh →
          let y := t.hart ⟨l, j, i⟩
          y.phase = .running ∧ (∀ n, y.s n = if n = 1 then r.args
              else if n = 62 then r.stack + BitVec.ofNat 64 ((j * nh + i + 1) * k.frame) else 0)
          ∧ y.p = 1 ∧ y.v = Vector.replicate 32 0 ∧ y.m = Vector.replicate 24 0 ∧ y.vl = 0 ∧ y.vlcap = r.vlcap.setWidth 64 ∧ y.icount = 0
          ∧ (∀ b, b < 64 → y.tagown.getLsbD b = decide (r.tagBase i ≤ b ∧ b < r.tagBase i + r.tagCount i)) ∧ y.cbown = r.cbOwn i
          ∧ y.tilown = r.tileOwn i ∧ y.laneReq = 2 ^ r.laneCode i ∧ y.tvec = (s.part p).tvec ∧ y.ptbase = (s.part p).ptbase
          ∧ y.root = (s.part p).ptbase ∧ y.savearea = r.save
          ∧ ((y.sup = false ∧ y.pc = k.entry ∧ y.eix = 0)
            ∨ (y.sup = true ∧ y.pc = (s.part p).tvec.toNat ∧ y.tcause = 4 ∧ y.tval = BitVec.ofNat 64 k.entry ∧ y.tpc = BitVec.ofNat 64 (k.entry % 2 ^ 55)))

/-- R83, R89 to R94, R116, R121, R374: the scheduler takes a record, and places it. Ties are broken as log 27 says, images are checked
as log 29 says, and a fault of the scheduler leaves the record untaken (log 28). -/
def Obligations.RecordsAreTakenAndPlaced : Prop :=
  Claims.RecordsAreTaken ∧ Claims.PlacementStartsTheLaunch

/-- R92, R95, R96, R111, R351: at a tick candidates wait one more and slices a slice length old expire; an expired launch is to be
pre-empted where a candidate's effective priority is at least its own, and else begins a new slice; the halt, of a pre-emption or of a
STOP (R360), stops its harts between instructions or elements, each at a slot that holds an instruction, ends their leases, keeps every
register, and counts a pre-emption. -/
def Sys2Proof.Claims.SlicesExpireAndLaunchesHalt : Prop :=
  ∀ (s : State), s.wbuf = [] →
    (∀ p, schedUp s p = true →
      let pt := s.part p
      let at_ := pt.startedAt + (pt.ticks + 1) * 2 ^ pt.slicelg
      (s.cycle < at_ → exec (.sliceTick p) s = .next s)
      ∧ (at_ ≤ s.cycle → ∃ t, exec (.sliceTick p) s = .next t ∧ t = { s with parts := t.parts, launches := t.launches }
        ∧ (∀ r, r ≠ p → t.part r = s.part r) ∧ t.part p = { pt with ticks := pt.ticks + 1, queues := (t.part p).queues }
        ∧ (∀ q, t.userQ p q = { s.userQ p q with
            taken := (s.userQ p q).taken.map fun k => if k.candidate then { k with waited := k.waited + 1 } else k })
        ∧ ∀ l, Present s l → t.launch l =
            if (s.launch l).part ≠ p then s.launch l
            else if (s.launch l).phase = .saved then { s.launch l with waited := (s.launch l).waited + 1 }
            else if (s.launch l).phase = .running ∧ (s.launch l).begin_ + 2 ^ pt.slicelg ≤ at_ then { s.launch l with expired := true }
            else s.launch l))
    ∧ (∀ l, Present s l → schedUp s (s.launch l).part = true → (s.launch l).expired = true → (s.launch l).phase = .running →
      (∀ y ∈ s.launches, y.2.part = (s.launch l).part → y.2.expired = true → (s.launch l).slot ≤ y.2.slot) →
      let x := s.launch l
      let pt := s.part x.part
      let sets (y : Launch) : Prop := ∃ t, exec (.sliceExpiry l) s = .next t ∧ t = { s with launches := t.launches } ∧ t.launch l = y
        ∧ ∀ m, m ≠ l → t.launch m = s.launch m
      ((∃ c ∈ candidates s x.part, x.rec_.prio.toNat ≤ min 7 (c.prio + c.waited / 4)) → sets { x with expired := false, preempt := true })
      ∧ ((∀ c ∈ candidates s x.part, min 7 (c.prio + c.waited / 4) < x.rec_.prio.toNat) →
        sets { x with expired := false, begin_ := pt.startedAt + pt.ticks * 2 ^ pt.slicelg, slices := x.slices + 1 }))
    ∧ ∀ l, Present s l → s.md.power = .ready → (s.launch l).phase = .running → ((s.launch l).preempt = true ∨ (s.launch l).stop = true) →
      (∀ g, OfLaunch s l g → ∀ n, (s.hart g).wait ≠ some (.peer n) ∧ (s.hart g).wait ≠ some (.scStore n)) →
      (∀ g, OfLaunch s l g → (s.hart g).wait = none → (s.hart g).answers = []) →
      ∀ pos : HartId → Nat, (∀ g, OfLaunch s l g → (s.hart g).phase = .running →
        ∃ ln n, StandsAt (s.hart g) ln n ∧ pos g = (s.hart g).pc / 64 * 64 + 12 * n) →
      ∃ t, exec (.preemptionHalt l) s = .next t ∧ t = { s with harts := t.harts, launches := t.launches }
        ∧ t.launch l = { s.launch l with phase := .halted, preempt := false,
                                              preempts := (s.launch l).preempts + if (s.launch l).stop then 0 else 1 }
        ∧ (∀ m, m ≠ l → t.launch m = s.launch m) ∧ (∀ g, ¬OfLaunch s l g → t.hart g = s.hart g)
        ∧ ∀ g, OfLaunch s l g → ((s.hart g).phase ≠ .running → t.hart g = s.hart g)
          ∧ ((s.hart g).phase = .running → t.hart g =
              { s.hart g with phase := .halted, pc := pos g, leases := [], wait := none, pause := 0, ydEnd := 0, blocked := 0, line := none,
                              xstop := false, answers := [] })

/-- R207, R216, R341, R351 to R353: a halted launch with nothing in flight is saved, its registers, queues and windows kept, what its cores
had in their caches written back, and what its harts had observed kept as a bound; a resumption takes
what the area holds, puts the launch at its new origin, lets its halted harts run again, and marks its Clean banks to be read again. -/
def Sys2Proof.Claims.LaunchesAreSavedAndResumed : Prop :=
  ∀ (s u : State) (l : Nat), s.wbuf = [] → Present s l →
    let x := s.launch l
    (s.md.power = .ready → x.phase = .halted → (∀ y ∈ s.cores, y.1.1 = l → y.2.engines = []) → (∀ y ∈ s.posted, y.h.l ≠ l) →
      (∀ g, OfLaunch s l g → (s.hart g).nb = [] ∧ readsOut (s.hart g) = false) → x.stop = false →
      (∀ y ∈ s.badL1, y.1.1 ≠ l) →
      let w := { s with cachedW := s.cachedW.filter fun y => y.2 ≠ l,
                        seen := s.seen.map fun y => if y.1.l = l then (y.1, y.2.1, y.2.2.1, true) else y }
      saveContext w l = (u, false) →
      ∃ t, exec (.contextSave l) s = .next t
        ∧ AtHome { s with launches := t.launches, bad := t.bad, badL2 := t.badL2, badL1 := t.badL1, seen := w.seen } t
        ∧ t.mem = s.mem.commit u.wbuf ∧ (∀ y ∈ t.cachedW, y ∈ s.cachedW ∧ y.2 ≠ l)
        ∧ t.launch l = { x with phase := .saved, waited := 0 } ∧ ∀ m, m ≠ l → t.launch m = s.launch m)
    ∧ ∀ (c : CandInfo) (ox oy : Nat), schedUp s x.part = true → choice s x.part = some (c, ox, oy) → c.c = .saved l →
      loadContext s l = (u, false) →
      ∃ t, exec (.resumption x.part) s = .next t
        ∧ t.launch l = { u.launch l with phase := .running, ox := ox, oy := oy, begin_ := s.cycle, slices := x.slices + 1,
                                            expired := false, preempt := false }
        ∧ (∀ m, m ≠ l → t.launch m = s.launch m) ∧ (∀ g, g.l ≠ l → t.hart g = s.hart g)
        ∧ (∀ g, OfLaunch s l g → ((u.hart g).phase ≠ .halted → (t.hart g).phase = (u.hart g).phase)
          ∧ ((u.hart g).phase = .halted →
            t.hart g = { u.hart g with phase := .running, v := (t.hart g).v, vnew := 0, vkept := (u.hart g).vlh.toNat,
                                       lanes := (t.hart g).lanes }
            ∧ ∀ r, (t.hart g).vr r = BitVec.ofNat _ (((u.hart g).vr r).toNat % 2 ^ (8 * (u.hart g).vlh.toNat))))
        ∧ ∀ k, k < x.w * x.h → ∀ b : BitVec 4, (t.core l k).bank b =
            if ((u.core l k).bank b).st = .clean then { (u.core l k).bank b with reload := true } else (u.core l k).bank b

/-- R92, R95, R96, R111, R207, R216, R351 to R353: slices expire, launches halt, are saved and resume. The formats of the save area's
fields and what is kept beside it are the model's choice (log 30), and the moment of the halt is a reading (log 32). -/
def Obligations.SlicesEndAndLaunchesResume : Prop :=
  Claims.SlicesExpireAndLaunchesHalt ∧ Claims.LaunchesAreSavedAndResumed

/-- R85, R90, R97, R354, R364: a launch whose harts have all executed EXIT completes: its record is written with status 0, done moves
over every leading completed record, and nothing of it is left. A scheduler that has not answered for 2^24 cycles discards every
launch of its partition; a poll is due every 2^20 cycles. The restart of the watchdog's count is a reading (log 33). -/
def Obligations.LaunchesCompleteAndTheWatchdogExpires : Prop :=
  ∀ (s : State), s.wbuf = [] →
    (∀ (u w z y : State) (l : Nat) (e : TlbEntry), Present s l → s.md.power = .ready → (s.launch l).phase ≠ .saved →
      (∀ g, OfLaunch s l g → (s.hart g).phase = .exited) →
      let x := s.launch l
      let r := x.rec_
      let q := s.userQ x.part x.q
      r.compl.toNat % 32 = 0 → schedPages s x.part (· != 2) r.compl.toNat 32 = (u, .ok [e]) → e.isLocal = true →
      writeCompletion s x.part r.compl.toNat r.seq.toNat 0 0 x.slices x.preempts = (w, none) →
      finishRecord (w.setQ x.part x.q { w.userQ x.part x.q with activeAt := s.cycle }) x.part x.q r.seq.toNat = (z, none) →
      refreshTokens (dropLaunch z l) x.part = (y, none) →
      (∀ k, w.peek k = lastWrite s.mem ((keysOf u x.part [e] r.compl.toNat 32).zip
        (bytesOf r.seq.toNat 8 ++ bytesOf 0 4 ++ bytesOf 0 4 ++ bytesOf x.slices 4 ++ bytesOf x.preempts 4 ++ bytesOf 0 8)) k)
      ∧ ∃ t, exec (.launchCompletion l) s = .next t ∧ (∀ y ∈ t.launches, y.1 ≠ l) ∧ (∀ y ∈ t.harts, y.1.l ≠ l) ∧ (∀ y ∈ t.cores, y.1.1 ≠ l)
        ∧ (∀ y ∈ t.posted, y.h.l ≠ l) ∧ (∀ y ∈ t.badL1, y.1.1 ≠ l) ∧ (∀ m, m ≠ l → t.launch m = s.launch m) ∧ (∀ g, g.l ≠ l → t.hart g = s.hart g)
        ∧ (s.mem.wf → ∀ k, t.mem.read k = if poolKey l 0 0 ≤ k ∧ k < poolKey (l + 1) 0 0 then 0 else z.peek k)
        ∧ q.done ≤ (t.userQ x.part x.q).done ∧ (t.userQ x.part x.q).done ∉ r.seq.toNat :: q.finished
        ∧ ∀ n, q.done ≤ n → n < (t.userQ x.part x.q).done → n ∈ r.seq.toNat :: q.finished)
    ∧ ∀ p, partUp s p = true →
      (∀ b, (s.cycle < (s.part p).polledAt + 2 ^ 20 → exec (.watchdogPoll p b) s = .next s)
        ∧ ((s.part p).polledAt + 2 ^ 20 ≤ s.cycle → ∃ t, exec (.watchdogPoll p b) s = .next t ∧ t = { s with parts := t.parts }
          ∧ t.part p = { s.part p with polledAt := (s.part p).polledAt + 2 ^ 20,
                                       answeredAt := if b then s.cycle else (s.part p).answeredAt }))
      ∧ (s.cycle < (s.part p).answeredAt + 2 ^ 24 ∨ (s.part p).polledAt + 2 ^ 20 ≤ s.cycle → exec (.watchdogExpiry p) s = .next s)
      ∧ ((s.part p).answeredAt + 2 ^ 24 ≤ s.cycle → s.cycle < (s.part p).polledAt + 2 ^ 20 →
        ∃ t, exec (.watchdogExpiry p) s = .next t ∧ (∀ y ∈ t.launches, y.2.part ≠ p)
        ∧ (t.part p).answeredAt = s.cycle ∧ (t.part p).started = true)

/-! ## Spoke, the links and the server -/

namespace Sys2Proof.Claims

/-- The keys that n bytes at a peer physical address name in this module; none where it rejects one of them (R311). -/
def PeerBytes (s : State) (pa n : Nat) (ks : List Nat) : Prop := ks.length = n ∧ ∀ i (h : i < ks.length), peerKey s (pa + i) = some ks[i]
/-- No line of the keys is leased by another hart than `me`, nor, for a write, one that crosses a line that crosses it (R238). -/
def NoLease (s : State) (write : Bool) (ks : List Nat) (me : Option HartId := none) : Prop :=
  ∀ x ∈ s.harts, ∀ y ∈ x.2.leases, me ≠ some x.1 ∧ s.cycle < y.until_ → ∀ k ∈ ks, k / 64 ≠ y.pline ∧ (write = true → k / 64 ∉ y.cross)
/-- No check unit is bad. -/
def NoErrors (s : State) : Prop := s.bad = [] ∧ s.badL2 = [] ∧ s.badL1 = []
/-- The bytes that a peer's request names. -/
def opWidth : PeerOp → Nat
  | .load n => n
  | .store bs => bs.length
  | .atom _ dbl _ _ => if dbl then 8 else 4
/-- The request writes. -/
def opWrites : PeerOp → Bool
  | .load _ => false
  | .store _ => true
  | .atom _ _ _ _ => true
/-- A store to the same bytes that happens before the posted store x is not yet acknowledged (R332, R336). -/
def Follows (s : State) (x : Posted) : Prop :=
  ∃ y ∈ s.posted, y.id ∈ x.after ∧ y.mod = x.mod ∧ y.pa < x.pa + x.bytes.length ∧ x.pa < y.pa + y.bytes.length
/-- Bytes have arrived at these keys: memory holds them, and each counts at the counters of the bound partition's cores that watch its
physical address (R317). -/
def BytesArrive (s t : State) (pa : Nat) (ks : List Nat) (bs : List Byte) (counted : Bool) : Prop :=
  (∀ k, t.mem.read k = lastWrite s.mem (ks.zip bs) k)
    ∧ (∀ l k, t.core l k = { s.core l k with arrivals := (t.core l k).arrivals })
    ∧ ∀ l k, Claims.Present s l → (∃ c, ((l, k), c) ∈ s.cores) → ∀ j : Fin 16, (t.core l k).arrivals[j] =
        if counted = true ∧ s.md.boundPart = some (s.launch l).part then
          let a := (s.core l k).arrivals[j]
          { a with c := a.c + BitVec.ofNat 64 ((List.range bs.length).filter fun i => decide (a.lo ≤ pa + i ∧ pa + i < a.hi)).length }
        else (s.core l k).arrivals[j]
/-- What an arriving write leaves besides memory, cores, what has been sent and the stores in flight. -/
def OnlyArrival (s t : State) : Prop :=
  t = { s with cores := t.cores, mem := t.mem, md := { s.md with sent := t.md.sent, notLiveReads := t.md.notLiveReads }, fresh := t.fresh,
               cachedW := t.cachedW, uncachedW := t.uncachedW, flushed := t.flushed, settled := t.settled, old := t.old, epoch := t.epoch,
               notLive := t.notLive, posted := t.posted, msgs := t.msgs }
/-- The notify of queue r, as memory stands at w, makes it Wanting (R87, R88): it is unmapped, and its valid entry h has a ready record. -/
def Wakes (s w : State) (p r : Nat) (h : QTab) : Prop :=
  (s.userQ p r).phase = .unmapped ∧ readTable w p r = (w, .ok h) ∧ h.flags % 2 = 1
    ∧ ∃ n, readNotify w p r = (w, .ok n) ∧ h.head < min n (h.head + 2 ^ h.lgsize)
/-- The tables of m queues from q on are read at w with no free choice, and none of the queues is being unmapped. -/
def Notifiable (s w : State) (p q m : Nat) : Prop :=
  NoErrors s ∧ s.notLive = [] ∧ ∀ r, q ≤ r → r < q + m →
    (s.userQ p r).phase ≠ .unmapping ∧ (∃ h, readTable w p r = (w, .ok h)) ∧ ∃ n, readNotify w p r = (w, .ok n)
/-- The notify words of m queues from q on have been acted on in their order: those that they wake are Wanting, no other queue has
changed. -/
def NotifiesActed (s w t : State) (p q m : Nat) : Prop :=
  ∃ l, (t.part p).wanting = (s.part p).wanting ++ l ∧ l.Pairwise (· < ·)
    ∧ (∀ r, r ∈ l ↔ q ≤ r ∧ r < q + m ∧ ∃ h, Wakes s w p r h) ∧ (∀ r, r ∉ l → t.userQ p r = s.userQ p r)
    ∧ ∀ r ∈ l, ∀ h, Wakes s w p r h → t.userQ p r =
        { s.userQ p r with phase := .wanting, wantedAt := s.cycle, head := h.head, done := h.done, pending := false }
/-- The place of a correctable error or of a replay exists (R1, R363). -/
def RealSite (x : Site) : Prop := ∃ n, (n < 4 ∧ (x = .pool n ∨ x = .l2 n)) ∨ (n < 8 ∧ (x = .stack n ∨ x = .saddlebag n ∨ x = .saddlebagLink n))
  ∨ (n < 32 ∧ x = .spokeLink n)

end Sys2Proof.Claims

/-- R245, R311, R313, R314, R317: a peer's access is performed and answered as one, or rejected as one where a byte of it lies outside what
the bound partition shows; one to a leased line waits (R238). That a bound partition has been started, and is faulted at no time but
that of its fault, is log 73's choice, and which port a saddlebag byte lies behind log 72's. A posted store is performed, where this module
is its destination, and acknowledged, after those to its bytes that happen before it, and where another hart's lease does not hold it; one that is rejected, by this module where it does not show a byte,
discards the launches of its partition. With no link left, no request arrives. -/
def Sys2Proof.Claims.PeerAccessesAreAnsweredAsOne : Prop :=
  ∀ (s : State), s.wbuf = [] → s.mem.wf → s.md.power = .ready →
    (∀ (r : PeerReq) (ks : List Nat), r.src ∈ s.md.members → s.md.linkOk ≠ 0 →
      let pa := r.pa.toNat
      let answers (t : State) (a : PeerAnswer) : Prop := t.md.sent = .peerReply r.src a :: s.md.sent ∧ t.posted = s.posted
      ((∃ i, i < opWidth r.op ∧ peerKey s (pa + i) = none) →
        ∃ t, exec (.peerRequest r) s = .next t ∧ t = { s with md := { s.md with sent := t.md.sent } } ∧ answers t .reject)
      ∧ (PeerBytes s pa (opWidth r.op) ks → ¬NoLease s (opWrites r.op) ks → exec (.peerRequest r) s = .next s)
      ∧ (∀ n, r.op = .load n → PeerBytes s pa n ks → NoErrors s → NoLease s false ks → ∃ t, exec (.peerRequest r) s = .next t ∧ OnlyArrival s t
        ∧ answers t (.accept (BitVec.ofNat 64 (ofBytes (ks.map s.mem.read)))) ∧ t.mem = s.mem ∧ t.cores = s.cores)
      ∧ (∀ bs, r.op = .store bs → PeerBytes s pa bs.length ks → NoErrors s → NoLease s true ks →
        ∃ t, exec (.peerRequest r) s = .next t ∧ OnlyArrival s t
        ∧ answers t (.accept 0) ∧ BytesArrive s t pa ks bs true)
      ∧ ∀ op (dbl : Bool) x n, r.op = .atom op dbl x n →
        let w := if dbl then 8 else 4
        PeerBytes s pa w ks → NoErrors s → NoLease s true ks → ∃ t, exec (.peerRequest r) s = .next t ∧ OnlyArrival s t
          ∧ answers t (.accept (BitVec.ofNat 64 (ofBytes (ks.map s.mem.read))))
          ∧ BytesArrive s t pa ks (bytesOf (atomValue op (BitVec.ofNat (8 * w) (ofBytes (ks.map s.mem.read))) (x.setWidth (8 * w))
              (n.setWidth (8 * w))).toNat w) false)
    ∧ (∀ r : PeerReq, r.src ∉ s.md.members ∨ s.md.linkOk = 0 → exec (.peerRequest r) s = .next s)
    ∧ ∀ (n : Nat) (x : Posted), s.posted.find? (·.id == n) = some x →
      (Follows s x → exec (.peerStoreAck n) s = .next s)
      ∧ (¬Follows s x →
        ((x.mod = none ∨ (x.mod ≠ s.md.modId ∧ s.md.linkOk ≠ 0)) → ∃ t, exec (.peerStoreAck n) s = .next t ∧ t = { s with posted := s.posted.filter (·.id ≠ n) })
        ∧ ∀ ks, x.mod ≠ none → x.mod = s.md.modId → PeerBytes s x.pa x.bytes.length ks → NoErrors s →
          (¬NoLease s true ks (some x.h) → exec (.peerStoreAck n) s = .next s)
          ∧ (NoLease s true ks (some x.h) → ∃ t, exec (.peerStoreAck n) s = .next t ∧ OnlyArrival s t ∧ t.md = s.md ∧ t.posted = s.posted.filter (·.id ≠ n)
            ∧ BytesArrive s t x.pa ks (x.bytes.map (·.2)) true))
      ∧ (x.mod = none ∨ x.mod ≠ s.md.modId ∨ (∃ i, i < x.bytes.length ∧ peerKey s (x.pa + i) = none) →
        ∃ t, exec (.postedStoreRejected n) s = .next t ∧ (∀ y ∈ t.posted, y.id ≠ n) ∧ ∀ y ∈ t.launches, y.2.part ≠ s.partOf x.h)
      ∧ (x.mod ≠ none → x.mod = s.md.modId →
        ((∃ i, i < x.bytes.length ∧ peerKey s (x.pa + i) = none) → exec (.peerStoreAck n) s = .next s)
        ∧ ∀ ks, PeerBytes s x.pa x.bytes.length ks → exec (.postedStoreRejected n) s = .next s)

/-- R303, R315, R362: a replay, or an error that is corrected, is counted and has no other effect; a link that fails leaves service, and the launches of the partitions
that used it are discarded, as are those of a partition whose saddlebag port is lost: port 2 × die and 2 × die + 1 belong to a die by log
72's choice. -/
def Sys2Proof.Claims.LinksReplayAndFail : Prop :=
  ∀ (s : State), s.wbuf = [] → s.md.power = .ready →
    (∀ x, RealSite x → ∃ t, exec (.linkReplay x) s = .next t ∧ t = { s with md := t.md }
      ∧ t.md = { s.md with corrected := t.md.corrected } ∧ ∀ y, tget 0 t.md.corrected y = tget 0 s.md.corrected y + (if y = x then 1 else 0))
    ∧ (∀ (link : Nat) (users : List Nat), link < 32 → ∃ t, exec (.spokeLinkFailure link users) s = .next t
      ∧ (∀ i, i < 32 → t.md.linkOk.getLsbD i = (decide (i ≠ link) && s.md.linkOk.getLsbD i))
      ∧ ((∀ p ∈ users, usesSpoke s p = false) → t = { s with md := { s.md with linkOk := t.md.linkOk } })
      ∧ ∀ p ∈ users, usesSpoke s p = true → ∀ y ∈ t.launches, y.2.part ≠ p)
    ∧ ∀ port : Nat, port < 8 → ∃ t, exec (.saddlebagLinkFailure port) s = .next t
      ∧ (∀ i, i < 8 → t.md.portOk.getLsbD i = (decide (i ≠ port) && s.md.portOk.getLsbD i))
      ∧ ((∀ y ∈ s.parts, y.2.dies.getLsbD (port / 2) = false) → t = { s with md := { s.md with portOk := t.md.portOk } })
      ∧ ∀ y ∈ s.parts, y.2.dies.getLsbD (port / 2) = true → ∀ z ∈ t.launches, z.2.part ≠ y.1

/-- R245, R303, R311, R313 to R315, R317, R362: accesses of other modules are answered as one; links replay and fail. Who used a link
is the outside's word (log 52); writes are homed as log 36 says. Which die a saddlebag port belongs to (log 72), and that a
partition is faulted only at the moment of its fault and counts as stopped until its first START (log 73), are the model's
choices. -/
def Obligations.FabricRequestsAndLinks : Prop :=
  Claims.PeerAccessesAreAnsweredAsOne ∧ Claims.LinksReplayAndFail

/-- R86 to R88, R328, R330, R359: the server writes the bytes of a registered range through the partition's translation, and nothing
where the range is not registered; a write that reaches the notify window must cover whole aligned words of it, and is else
discarded and counted; notifies of whole words are stored and acted on in order: an unmapped, valid queue that one makes ready
becomes Wanting; a request of another kind is answered with an error. A write to a leased line has no effect yet (R238, log 36).
Nothing arrives by an Ethernet port that does not work. Regions are virtual ranges, and a write that meets the window is notifies
or nothing (log 37); writes are homed as log 36 says. That a write to a leased line has no effect yet is a reading (log 36). -/
def Obligations.ServerWritesAndNotifies : Prop :=
  ∀ (s : State) (eth : BitVec 1) (p : Nat), s.wbuf = [] → s.mem.wf → s.md.power = .ready → NoErrors s →
    let up : Prop := s.md.ethOk.getLsbD eth.toNat = true
    let inside (a n : Nat) : Prop := (∃ pt, (p, pt) ∈ s.parts) ∧ ∃ r ∈ s.md.regions, r.part = p ∧ r.base ≤ a ∧ a + n ≤ r.base + r.len
    let base := (s.part p).notify.toNat
    let lo (a : Nat) : Nat := max a base
    let hi (a n : Nat) : Nat := min (a + n) (base + 524288)
    let wholeWords (a n : Nat) : Prop := (lo a - base) % 8 = 0 ∧ (hi a n - base) % 8 = 0
    (∀ (e : Instr) (a : Nat) (bs : List Byte), ((∃ va : BitVec 64, e = .serverRdmaWrite ⟨eth, p⟩ va bs ∧ va.toNat = a)
        ∨ ∃ off, e = .notifyWrite ⟨eth, p⟩ off bs ∧ a = base + off) →
      (¬up ∨ ¬inside a bs.length → exec e s = .next s)
      ∧ (up → inside a bs.length → lo a < hi a bs.length → ¬wholeWords a bs.length →
          exec e s = .next { s with md := { s.md with discardedNotifies := s.md.discardedNotifies + 1 } })
      ∧ (∀ (u : State) (pgs : List TlbEntry), up → inside a bs.length →
        (hi a bs.length ≤ lo a ∨ (wholeWords a bs.length ∧ (s.part p).started = false)) →
        schedPages s p (· < 2) a bs.length = (u, .ok pgs) → NoLease s true (keysOf u p pgs a bs.length) →
        ∃ t, exec e s = .next t ∧ AtHome s t ∧ ∀ k, t.mem.read k = lastWrite s.mem ((keysOf u p pgs a bs.length).zip bs) k)
      ∧ (∀ (u : State) (pgs : List TlbEntry), up → inside a bs.length → (hi a bs.length ≤ lo a ∨ wholeWords a bs.length) →
        schedPages s p (· < 2) a bs.length = (u, .ok pgs) → ¬NoLease s true (keysOf u p pgs a bs.length) →
        ∃ t, exec e s = .next t ∧ t = { s with fresh := t.fresh, md := { s.md with notLiveReads := t.md.notLiveReads } })
      ∧ ∀ (q : Nat) (u w x y : State) (pgs : List TlbEntry) (h : QTab) (n : Nat), up → inside a bs.length → a = base + 8 * q → q < 65536 →
        bs.length = 8 → schedPages s p (· < 2) a 8 = (u, .ok pgs) → NoLease s true (keysOf u p pgs a 8) → w = serverPut s p a bs id → (s.part p).started = true →
        (s.userQ p q).phase = .unmapped → readTable w p q = (x, .ok h) → h.flags % 2 = 1 → readNotify x p q = (y, .ok n) →
        ∃ t, exec e s = .next t ∧ AtHome { s with parts := t.parts } t
          ∧ (∀ k, t.mem.read k = lastWrite s.mem ((keysOf u p pgs a 8).zip bs) k)
          ∧ (h.head < min n (h.head + 2 ^ h.lgsize) → (t.part p).wanting = (s.part p).wanting ++ [q] ∧ t.userQ p q =
              { s.userQ p q with phase := .wanting, wantedAt := s.cycle, head := h.head, done := h.done, pending := false })
          ∧ (¬h.head < min n (h.head + 2 ^ h.lgsize) → t.parts = s.parts))
    ∧ (∀ (e : Instr) (a q m : Nat) (bs : List Byte) (u : State) (pgs : List TlbEntry),
      ((∃ va : BitVec 64, e = .serverRdmaWrite ⟨eth, p⟩ va bs ∧ va.toNat = a) ∨ ∃ off, e = .notifyWrite ⟨eth, p⟩ off bs ∧ a = base + off) →
      up → inside a bs.length → a = base + 8 * q → bs.length = 8 * m → q + m ≤ 65536 → (s.part p).started = true →
      schedPages s p (· < 2) a bs.length = (u, .ok pgs) → NoLease s true (keysOf u p pgs a bs.length) →
      Notifiable s (serverPut s p a bs id) p q m →
      ∃ t, exec e s = .next t ∧ AtHome { s with parts := t.parts } t
        ∧ (∀ k, t.mem.read k = lastWrite s.mem ((keysOf u p pgs a bs.length).zip bs) k) ∧ NotifiesActed s (serverPut s p a bs id) t p q m)
    ∧ (up → exec (.unsupportedRdmaRequest eth) s = .next { s with md := { s.md with sent := .invalidRequest :: s.md.sent } })
    ∧ (¬up → exec (.unsupportedRdmaRequest eth) s = .next s)

/-! ## The module and the Clave commands -/

namespace Sys2Proof.Claims

/-- The bytes of a header of R356 and of a body, with the fields that command and reply share. -/
def headed (magic code rsv len : Nat) (c : Cmd) (body : List Byte) : List Byte :=
  bytesOf magic 4 ++ bytesOf code 2 ++ bytesOf rsv 2 ++ bytesOf (c.seq.toNat + 2 ^ 32 * c.boot.toNat) 8 ++ bytesOf len 4
    ++ bytesOf c.part.toNat 4 ++ bytesOf c.key.toNat 64 ++ body
/-- The key is installed and the signature verifies under it over the command's bytes. -/
def Signed (s : State) (c : Cmd) : Prop :=
  ∃ k, s.md.opKeys.find? (·.1 == c.key) = some k
    ∧ Config.ecdsaVerify k.2 (Config.sha512 (headed c.magic.toNat c.code.toNat c.rsv.toNat c.len.toNat c c.body)) c.sig = true
/-- The boot identifier is the current one, and the sequence number is greater than the last one accepted under the key. -/
def InSequence (s : State) (c : Cmd) : Prop := c.boot = s.md.bootId ∧ tget 0 s.md.lastSeq c.key < c.seq.toNat
/-- The header is one of R356 with this code. -/
def Formed (code : Nat) (c : Cmd) : Prop :=
  c.magic.toNat = 0x43564C43 ∧ c.rsv = 0 ∧ c.code.toNat = code ∧ c.len.toNat ≤ 8000 ∧ c.len.toNat = c.body.length
    ∧ (c.part.toNat ≤ 3 ∨ c.part = 0xFF)
/-- The datagram comes in by an Ethernet port that works, as a command of this code or with a code that no command has. -/
def Heard (s : State) (code : Nat) (c : Cmd) : Prop :=
  s.md.ethOk.getLsbD c.port.toNat = true ∧ (c.code.toNat = code ∨ c.code = 0 ∨ 12 < c.code.toNat)
/-- No earlier command that is not finished holds the command up: one to its partition, or any where it is to the module (R357). -/
def Turn (s : State) (c : Cmd) : Prop := ∀ x ∈ s.md.waiting, c.part ≠ 0xFF ∧ x.1.part ≠ c.part
/-- R357: a ready module accepts the command, and its turn has come. -/
def Accepted (s : State) (code : Nat) (c : Cmd) : Prop :=
  s.md.power = .ready ∧ s.wbuf = [] ∧ Heard s code c ∧ Signed s c ∧ InSequence s c ∧ Formed code c ∧ Turn s c
/-- The command is accepted, and joins those that are not finished, as o. -/
def Joins (e : Instr) (s : State) (c : Cmd) (o : Order) : Prop :=
  exec e s = .next { s with md := { s.md with lastSeq := tput s.md.lastSeq c.key c.seq.toNat, waiting := s.md.waiting ++ [(c, o)] } }
/-- What a reply adds to what the module has sent: its code with bit 15 set, its status and body, signed by the identity key. -/
def replied (c : Cmd) (status : Nat) (body : List Byte) : Sent :=
  .reply (c.code.toNat ||| 0x8000) status body
    (bytesOf (Config.identitySign (headed 0x43564C43 (c.code.toNat ||| 0x8000) 0 (4 + body.length) c (bytesOf status 4 ++ body))).toNat 132)
/-- The command is answered with this status and body, and has this effect on the module: `md` is the module before its reply. -/
def Answers (e : Instr) (s : State) (c : Cmd) (status : Nat) (body : List Byte) (md : Module → Module) (P : State → Prop) : Prop :=
  ∃ t, exec e s = .next t ∧ P t ∧ t.md = { md s.md with
    lastSeq := tput s.md.lastSeq c.key c.seq.toNat, sent := replied c status body :: s.md.sent }
/-- Nothing but the module's own record differs. -/
def OnlyModule (s t : State) : Prop := t = { s with md := t.md }
/-- A signed command of the module, with its code and what it has to do. -/
def IsModuleCommand (c : Cmd) (e : Instr) (code : Nat) (o : Order) : Prop :=
  (∃ f, e = .reset c f ∧ code = 2 ∧ o = .reset f) ∨ (e = .attest c ∧ code = 7 ∧ o = .attest) ∨ (e = .counters c ∧ code = 8 ∧ o = .counters)
    ∨ (∃ w, e = .thermal c w ∧ code = 9 ∧ o = .thermal w) ∨ (∃ i p ms, e = .domain c i p ms ∧ code = 10 ∧ o = .domain i p ms)
    ∨ (∃ a, e = .hostwin c a ∧ code = 11 ∧ o = .hostwin a) ∨ ∃ a, e = .keys c a ∧ code = 12 ∧ o = .keys a
/-- A signed command with its code and what it has to do. -/
def IsCommand (c : Cmd) (e : Instr) (code : Nat) (o : Order) : Prop :=
  IsModuleCommand c e code o ∨ (e = .partition c ∧ code = 3 ∧ o = .partition) ∨ (e = .load c ∧ code = 4 ∧ o = .load)
    ∨ (e = .start c ∧ code = 5 ∧ o = .start) ∨ (e = .stop c ∧ code = 6 ∧ o = .stop false)
/-- Every launch of the partition is saved, or a STOP has halted it and nothing of it is in flight but the CLREDs it has sent (R351,
R360). -/
def StopReady (s : State) (p : Nat) : Prop :=
  ∀ y ∈ s.launches, y.2.part = p → (s.launch y.1).phase = .saved ∨ ((s.launch y.1).phase = .halted ∧ (s.launch y.1).stop = true
    ∧ (∀ x ∈ s.cores, x.1.1 = y.1 → x.2.engines = []) ∧ (∀ x ∈ s.posted, x.h.l ≠ y.1)
    ∧ ∀ g, OfLaunch s y.1 g → (s.hart g).nb = [] ∧ readsOut (s.hart g) = false)
/-- STOP has set about halting the launches of the partition that run. -/
def stopping (s : State) (p : Nat) : List (Nat × Launch) :=
  s.launches.map fun y => if y.2.part = p ∧ y.2.phase = .running then (y.1, { y.2 with stop := true }) else y
/-- The partition has been stopped: its launches are discarded, and no record that was taken waits. -/
def Stopped (s t : State) (c : Cmd) (p : Nat) : Prop :=
  (t.part p).started = false ∧ (∀ y ∈ t.launches, y.2.part ≠ p) ∧ (∃ more, t.md.sent = replied c 0 [] :: more)
    ∧ (((s.part p).queues.map (·.1)).Nodup → ∀ q, (t.userQ p q).taken = none)
/-- The die of a hart's core: that of its mesh position (x, y) (R2). -/
def dieOfHart (s : State) (h : HartId) : Nat :=
  let la := s.launch h.l
  let d := ([0, 1, 2, 3].filter fun i => (s.part la.part).dies.getLsbD i).headD 0
  let x := 16 * (d % 2) + la.ox + h.k % max la.w 1
  let y := 10 * (d / 2) + la.oy + h.k / max la.w 1
  x / 16 + 2 * (y / 10)

/-- The fields of a PARTITION body (R373). -/
def bodyNat (b : List Byte) (off n : Nat) : Nat := ofBytes ((b.drop off).take n)
def PartitionOk (b : List Byte) : Prop :=
  b.length = 48 ∧ bodyNat b 0 1 ∈ [1, 2, 4, 8, 3, 12, 5, 10, 15] ∧ bodyNat b 1 1 ≤ 1
    ∧ (bodyNat b 2 1 = 0 ∨ (10 ≤ bodyNat b 2 1 ∧ bodyNat b 2 1 ≤ 30)) ∧ bodyNat b 3 5 = 0 ∧ bodyNat b 40 8 = 0
    ∧ bodyNat b 8 8 % 65536 = 0 ∧ bodyNat b 16 8 % 65536 = 0 ∧ isSlot (bodyNat b 24 8) = true ∧ bodyNat b 24 8 < 2 ^ 55
    ∧ bodyNat b 32 8 % 65536 = 0 ∧ bodyNat b 32 8 < 2 ^ 52

end Sys2Proof.Claims

/-- R4, R355, R358, R365: power brings the module up with no partition and the boot identifier of its first draw that is not zero,
ready where every die and stack works; RESET does the same; a loss of power, and the shutdown at 110 °C, lose every state of it;
while throttled the cores of a die hold issue, none of their element groups is performed, and the cycles are counted. A hart can
issue where the module, its launch and itself run, no pause holds it and no throttle its die, but that the slots which a lease
promises are executed before it ends all the same (R370, log 13). Memory that reads as 0 after power-on is the model's choice (log
3), and a throttle that names its dies a reading (log 53). -/
def Obligations.ModulePowersUpAndDown : Prop :=
  ∀ (s : State),
    let promised (h : HartId) : Prop := ∃ l ∈ (s.hart h).leases, 0 < l.promise ∧ s.cycle < l.until_
    let cleared (t : State) : Prop := t.harts = [] ∧ t.cores = [] ∧ t.launches = [] ∧ t.parts = [] ∧ t.posted = [] ∧ t.bad = [] ∧ t.badL2 = []
      ∧ t.badL1 = [] ∧ t.md.waiting = [] ∧ t.mem.cells = []
      ∧ t.wbuf = [] ∧ t.cycle = 0 ∧ t.md.modId = none ∧ t.md.members = [] ∧ t.md.regions = [] ∧ t.md.windows = [] ∧ t.md.lastSeq = []
      ∧ t.md.imageKeys = [] ∧ t.md.powerLimit = 2400
    let booted (t : State) (f : BootFindings) (id : BitVec 32) : Prop := cleared t
      ∧ t.md.power = (if f.dies = 15 ∧ f.hbm = 255 then .ready else .failed) ∧ t.md.bootId = id ∧ t.md.dieOk = f.dies ∧ t.md.hbmOk = f.hbm
      ∧ t.md.portOk = f.ports ∧ t.md.linkOk = f.links ∧ t.md.ethOk = f.eth ∧ t.md.opKeys = [(Config.sha512 Config.firstOperatorKey, Config.firstOperatorKey)]
    (∀ (f : BootFindings) (zeros rest : List (BitVec 32)) (id : BitVec 32), f.draws = zeros ++ id :: rest → (∀ z ∈ zeros, z = 0) → id ≠ 0 →
      (s.md.power = .off → ∃ t, exec (.powerOn f) s = .next t ∧ booted t f id ∧ t.md.sent = s.md.sent)
      ∧ ∀ c : Cmd, Accepted s 2 c → c.part = 0xFF → c.body = [] → ∃ t, exec (.reset c f) s = .next t ∧ booted t f id ∧ t.md.sent = s.md.sent)
    ∧ (∀ e ∈ [Instr.powerLoss, .thermalShutdown], ∃ t, exec e s = .next t ∧ cleared t ∧ t.md.power = .off ∧ t.md.opKeys = [])
    ∧ (∀ (dies : BitVec 4) (n : Nat), s.wbuf = [] →
      (s.md.power ≠ .ready → exec (.throttle ⟨dies, n⟩) s = .next s)
      ∧ (s.md.power = .ready → ∃ t, exec (.throttle ⟨dies, n⟩) s = .next t
        ∧ t = { s with md := { s.md with throttleEnd := t.md.throttleEnd, throttled := t.md.throttled } }
        ∧ ∀ d : Fin 4, t.md.throttleEnd[d] = (if dies.getLsbD d then max s.md.throttleEnd[d] (s.cycle + n) else s.md.throttleEnd[d])
          ∧ t.md.throttled[d] = s.md.throttled[d] + (if dies.getLsbD d then s.cycle + n - max s.cycle s.md.throttleEnd[d] else 0)))
    ∧ (∀ (h : HartId) (d : Fin 4), d = dieOfHart s h → s.cycle < s.md.throttleEnd[d] → ¬promised h →
      canIssue s h = false
      ∧ (s.wbuf = [] → exec (.elementGroup h) s = .next s ∧ exec (.xEntryCompletion h) s = .next s)
      ∧ ∀ rest, s.agenda = .issue h :: rest → Machine.step s = .next { s with agenda := rest, cur := h })
    ∧ ∀ (h : HartId) (d : Fin 4), d = dieOfHart s h →
      (canIssue s h = true ↔ s.md.power = .ready ∧ (s.hart h).phase = .running ∧ (s.launch h.l).phase = .running
        ∧ (s.hart h).pause ≤ s.cycle ∧ (s.md.throttleEnd[d] ≤ s.cycle ∨ promised h))

/-- R355 to R358: a command, RESET too, whose key, signature, boot identifier or sequence number does not pass is answered with its
status and has no effect; one whose header R356 does not give is answered with status 3; an accepted one waits for the earlier
ones to its partition, or, to the module, for every earlier one, and the last number accepted is its own from then on; a failed
module answers only IDENT, and a module without power nothing. IDENT takes its place among the commands to the module, and its
reply holds what R358 lists (log 34). The bytes and the order of IDENT's reply, and which row a datagram of an unknown code is,
are the model's choice (log 34); the silence of a failed module is a reading (log 35), and so is that 0 counts as the last number
before the first (log 76). Which part field IDENT must carry is log 34's choice too. -/
def Obligations.CommandsAreAcceptedOrRefused : Prop :=
  ∀ (s : State) (c : Cmd), s.wbuf = [] →
    (∀ e code o, IsCommand c e code o →
      let refused (status : Nat) : Prop := exec e s = .next { s with md := { s.md with sent := replied c status [] :: s.md.sent } }
      (s.md.power = .ready → Heard s code c →
        (¬Signed s c → refused 1) ∧ (Signed s c → ¬InSequence s c → refused 2)
        ∧ (Signed s c → InSequence s c → Turn s c → ¬Formed code c → Answers e s c 3 [] id (OnlyModule s))
        ∧ (Signed s c → InSequence s c → ¬Turn s c → (Formed code c → Joins e s c o) ∧ (¬Formed code c → Joins e s c .malformed)))
      ∧ (s.md.power ≠ .ready ∨ ¬Heard s code c → exec e s = .next s))
    ∧ (s.md.power ≠ .off → Heard s 1 c → c.code = 1 →
      let answered (status : Nat) (b : List Byte) : Prop :=
        exec (.ident c) s = .next { s with md := { s.md with sent := replied c status b :: s.md.sent } }
      let joins (o : Order) : Prop := exec (.ident c) s = .next { s with md := { s.md with waiting := s.md.waiting ++ [(c, o)] } }
      (Formed 1 c → c.part = 0xFF → c.key = 0 → c.body = [] → (¬Turn s c → joins .ident) ∧ (Turn s c → answered 0
        (bytesOf Config.romVersion.toNat 4 ++ bytesOf Config.identityKey.toNat 133 ++ bytesOf s.md.bootId.toNat 4
          ++ bytesOf s.md.dieOk.toNat 1 ++ bytesOf s.md.hbmOk.toNat 1 ++ bytesOf s.md.portOk.toNat 1)))
      ∧ (¬Formed 1 c ∨ c.part ≠ 0xFF ∨ c.key ≠ 0 ∨ c.body ≠ [] → (¬Turn s c → joins .malformed) ∧ (Turn s c → answered 3 [])))
    ∧ (s.md.power = .off ∨ ¬Heard s 1 c ∨ c.code ≠ 1 → exec (.ident c) s = .next s)

/-- R83, R358 to R360, R373: PARTITION forms the partition its body names, dissolving every partition that it affects and that has no
launch, refuses a body that R373 rejects, and is busy while an affected partition has a launch; that a dissolved partition's binding to
the domain and its registered regions go with it is log 74's choice. LOAD writes its bytes, and refuses what does not lie in the
partition's memory or stands behind a lost port (log 72 says behind which); that it waits for a lease on one of their lines, and writes each
at its home, is log 36's reading (DEDUCED). START lets the scheduler
take records, and acts on the notify words stored before it; after the first one no translation made before it is used (R373). STOP halts
the launches of the partition that run and waits, with its number accepted, until what they have in flight has ended; then it discards
every launch and every taken record. -/
def Sys2Proof.Claims.PartitionCommandsHaveTheirEffect : Prop :=
  ∀ (s : State) (c : Cmd),
    let p := c.part.toNat
    let b := c.body
    let here : Prop := ∃ pt, (p, pt) ∈ s.parts
    let malformed (e : Instr) : Prop := Answers e s c 3 [] id (OnlyModule s)
    (Accepted s 3 c →
      let d := BitVec.ofNat 4 (bodyNat b 0 1)
      let hit (r : Nat) : Prop := ∃ x ∈ s.parts, x.1 = r ∧ (r = p ∨ x.2.dies &&& d ≠ 0)
      let formed : Part := { Part.idle with
        dies := d, policy := BitVec.ofNat 8 (bodyNat b 1 1), slicelg := if bodyNat b 2 1 = 0 then 20 else bodyNat b 2 1
        qtable := BitVec.ofNat 64 (bodyNat b 8 8), notify := BitVec.ofNat 64 (bodyNat b 16 8), tvec := BitVec.ofNat 64 (bodyNat b 24 8)
        ptbase := BitVec.ofNat 64 (bodyNat b 32 8), body := b }
      (¬PartitionOk b ∨ c.part = 0xFF → malformed (.partition c))
      ∧ (PartitionOk b → p ≤ 3 → (∃ y ∈ s.launches, hit y.2.part) → Answers (.partition c) s c 4 [] id (OnlyModule s))
      ∧ (PartitionOk b → p ≤ 3 → (∀ r, ¬hit r) →
          Answers (.partition c) s c 0 [] id fun t => t = { s with md := t.md, parts := t.parts } ∧ (∀ r, r ≠ p → t.part r = s.part r)
            ∧ t.part p = formed)
      ∧ (PartitionOk b → p ≤ 3 → (∀ y ∈ s.launches, ¬hit y.2.part) →
          ∃ t more, exec (.partition c) s = .next t ∧ t.md.sent = replied c 0 [] :: more ∧ t.md.lastSeq = tput s.md.lastSeq c.key c.seq.toNat
            ∧ t.part p = formed ∧ (∀ r, r ≠ p → hit r → ∀ x ∈ t.parts, x.1 ≠ r) ∧ (∀ r, r ≠ p → ¬hit r → t.part r = s.part r)
            ∧ t.harts = s.harts ∧ t.launches = s.launches
            ∧ (∀ r, s.md.boundPart = some r → t.md.boundPart = none ∨ (t.md.boundPart = some r ∧ ¬hit r))
            ∧ ∀ y ∈ t.md.regions, y ∈ s.md.regions ∧ ¬hit y.part))
    ∧ (Accepted s 4 c → here → s.mem.wf → NoErrors s →
      let tier := bodyNat b 0 1
      let a := bodyNat b 8 8
      let n := b.length - 16
      let lost : Prop := ∃ i, i < n ∧ s.md.portOk.getLsbD (sadPort (s.part p).dies (a + i)) = false
      let leased (key : Nat → Nat) : Prop := ¬NoLease s true ((List.range n).map fun i => key (a + i))
      let loads (key : Nat → Nat) : Prop := (leased key → Joins (.load c) s c .load) ∧ (¬leased key → Answers (.load c) s c 0 [] id fun t =>
        AtHome { s with md := { t.md with notLiveReads := s.md.notLiveReads } } t ∧ t.md.notLiveReads = s.md.notLiveReads
          ∧ ∀ k, t.mem.read k = lastWrite s.mem (((List.range n).map fun i => key (a + i)).zip (b.drop 16)) k)
      (b.length < 16 ∨ 1 < tier ∨ bodyNat b 1 7 ≠ 0 ∨ (tier = 0 ∧ hbmSize (s.part p).dies < a + n)
          ∨ (tier = 1 ∧ (sadSize (s.part p).dies < a + n ∨ lost)) → malformed (.load c))
      ∧ (16 ≤ b.length → bodyNat b 1 7 = 0 →
        (tier = 0 → a + n ≤ hbmSize (s.part p).dies → loads (hbmKey (s.part p).dies))
        ∧ (tier = 1 → a + n ≤ sadSize (s.part p).dies → ¬lost → loads (sadKey (s.part p).dies))))
    ∧ (Accepted s 5 c → here →
      (b = [] → ∃ t, exec (.start c) s = .next t ∧ (t.part p).started = true ∧ (t.part p).startedAt = s.cycle ∧ (t.part p).polledAt = s.cycle
        ∧ (t.part p).ticks = 0 ∧ (t.part p).images = [] ∧ (∃ more, t.md.sent = replied c 0 [] :: more)
        ∧ (t.part p).unstarted = false ∧ ((s.part p).unstarted = true → (t.part p).tlbAll = s.epoch + 1 ∧ s.epoch < t.epoch)
        ∧ (Notifiable s s p 0 65536 → NotifiesActed s s t p 0 65536))
      ∧ (b ≠ [] → malformed (.start c)))
    ∧ (Accepted s 6 c → here →
      (b = [] → StopReady s p → ∃ t, exec (.stop c) s = .next t ∧ Stopped s t c p)
      ∧ (b = [] → ¬StopReady s p → exec (.stop c) s = .next { s with
          launches := stopping s p
          md := { s.md with lastSeq := tput s.md.lastSeq c.key c.seq.toNat, waiting := s.md.waiting ++ [(c, .stop true)] } })
      ∧ (b ≠ [] → malformed (.stop c)))
    ∧ (∀ rest, s.agenda = .command :: rest → s.wbuf = [] → s.md.waiting = [(c, .stop true)] → here → b = [] → stopping s p = s.launches →
      (StopReady s p → ∃ t, Machine.step s = .next t ∧ Stopped s t c p ∧ t.md.waiting = [])
      ∧ (¬StopReady s p → Machine.step s = .next { s with agenda := rest }))
    ∧ (¬here → ∀ e ∈ [(Instr.load c, 4), (.start c, 5), (.stop c, 6)], Accepted s e.2 c → malformed e.1)

/-- R34, R310, R328, R329, R358, R361, R363, R365: the module commands: ATTEST and COUNTERS reply, THERMAL sets a limit from 1,200 to
2,400 W, DOMAIN joins a domain, HOSTWIN installs a window or registers a region, KEYS installs or removes a key, of which there are
at most eight of each kind, one that is installed stays as it is, and so does the fused one. A body or a number that the command does
not take is answered with status 3. -/
def Sys2Proof.Claims.ModuleCommandsHaveTheirEffect : Prop :=
  (∀ (s : State) (c : Cmd) e code o, IsModuleCommand c e code o → Accepted s code c → c.part ≠ 0xFF → Answers e s c 3 [] id (OnlyModule s))
  ∧ ∀ (s : State) (c : Cmd), c.part = 0xFF →
    let malformed (e : Instr) : Prop := Answers e s c 3 [] id (OnlyModule s)
    (Accepted s 7 c → (c.body.length = 64 → Answers (.attest c) s c 0 (c.body ++ measurements s) id (OnlyModule s))
      ∧ (c.body.length ≠ 64 → malformed (.attest c)))
    ∧ (∀ f, Accepted s 2 c → c.body ≠ [] → malformed (.reset c f))
    ∧ (Accepted s 8 c → c.body ≠ [] → malformed (.counters c))
    ∧ (Accepted s 8 c → c.body = [] → ∃ b, b.length = 77 * 8 ∧ Answers (.counters c) s c 0 b id (OnlyModule s)
      ∧ let count (i : Nat) : List Byte := (b.drop (8 * i)).take 8
        (∀ i, i < 4 → count i = bytesOf (tget 0 s.md.corrected (.pool i)) 8)
        ∧ (∀ i, i < 4 → count (4 + i) = bytesOf (tget 0 s.md.corrected (.l2 i)) 8)
        ∧ (∀ i, i < 8 → count (8 + i) = bytesOf (tget 0 s.md.corrected (.stack i)) 8)
        ∧ (∀ i, i < 8 → count (16 + i) = bytesOf (tget 0 s.md.corrected (.saddlebag i)) 8)
        ∧ (∀ i, i < 32 → count (24 + i) = bytesOf (tget 0 s.md.corrected (.spokeLink i)) 8)
        ∧ (∀ i, i < 8 → count (56 + i) = bytesOf (tget 0 s.md.corrected (.saddlebagLink i)) 8)
        ∧ (∀ i, i < 4 → count (64 + i) = bytesOf (tget 0 s.md.notLiveReads i) 8) ∧ (∀ i, i < 4 → count (68 + i) = bytesOf (tget 0 s.md.unwritten i) 8)
        ∧ count 72 = bytesOf s.md.discardedNotifies 8
        ∧ ∀ i : Fin 4, count (73 + i) = bytesOf s.md.throttled[i] 8)
    ∧ (∀ w, Accepted s 9 c →
      (1200 ≤ w → w ≤ 2400 → Answers (.thermal c w) s c 0 [] (fun m => { m with powerLimit := w }) (OnlyModule s))
      ∧ (w < 1200 ∨ 2400 < w → Answers (.thermal c w) s c 3 [] id (OnlyModule s)))
    ∧ (∀ (i p : Nat) (ms : List Nat), Accepted s 10 c →
      let ok := i ∈ ms ∧ ms.Nodup ∧ 2 ≤ ms.length ∧ ms.length ≤ 128 ∧ (∀ m ∈ ms, m < 128) ∧ ∃ pt, (p, pt) ∈ s.parts
      (ok → Answers (.domain c i p ms) s c 0 [] (fun m => { m with modId := some i, boundPart := some p, members := ms }) (OnlyModule s))
      ∧ (¬ok → Answers (.domain c i p ms) s c 3 [] id (OnlyModule s)))
    ∧ (Accepted s 11 c →
      (∀ n qp rkey rbase len, n < 4096 → len ≤ 2 ^ 40 → Answers (.hostwin c (.window n qp rkey rbase len)) s c 0 []
          (fun m => { m with windows := ⟨n, qp, rkey, rbase, len⟩ :: m.windows.filter (·.n ≠ n) }) (OnlyModule s))
      ∧ (∀ n qp rkey rbase len, 4096 ≤ n ∨ 2 ^ 40 < len → malformed (.hostwin c (.window n qp rkey rbase len)))
      ∧ (∀ p base len, (∃ pt, (p, pt) ∈ s.parts) → Answers (.hostwin c (.region p base len)) s c 0 []
          (fun m => { m with regions := ⟨p, base, len⟩ :: m.regions }) (OnlyModule s))
      ∧ ∀ p base len, (¬∃ pt, (p, pt) ∈ s.parts) → Answers (.hostwin c (.region p base len)) s c 3 [] id (OnlyModule s))
    ∧ ∀ a : KeysArg, Accepted s 12 c →
      let ks := if a.image then s.md.imageKeys else s.md.opKeys
      let sets (l : List (BitVec 512 × List Byte)) : Prop := Answers (.keys c a) s c 0 []
        (fun m => if a.image then { m with imageKeys := l } else { m with opKeys := l }) (OnlyModule s)
      (a.install = true → Config.sha512 a.pubkey = a.digest → (∃ k ∈ ks, k.1 = a.digest) → sets ks)
      ∧ (a.install = true → Config.sha512 a.pubkey ≠ a.digest → malformed (.keys c a))
      ∧ (a.install = true → Config.sha512 a.pubkey = a.digest → (∀ k ∈ ks, k.1 ≠ a.digest) → ks.length < 8 → sets (ks ++ [(a.digest, a.pubkey)]))
      ∧ (a.install = true → Config.sha512 a.pubkey = a.digest → (∀ k ∈ ks, k.1 ≠ a.digest) → 8 ≤ ks.length → malformed (.keys c a))
      ∧ (a.install = false → (∀ k ∈ ks, k.1 ≠ a.digest) → malformed (.keys c a))
      ∧ (a.install = false → (a.image = true ∨ a.digest ≠ Config.sha512 Config.firstOperatorKey) → (∃ k ∈ ks, k.1 = a.digest) →
          sets (ks.filter (·.1 ≠ a.digest)))
      ∧ (a.install = false → a.image = false → a.digest = Config.sha512 Config.firstOperatorKey → Answers (.keys c a) s c 3 [] id (OnlyModule s))

/-- R34, R83, R310, R328, R329, R358 to R361, R363, R365, R373: an accepted Clave command has its effect and its reply. The layouts of
bodies and of the counters' reply, the part field of a module command and the status of a KEYS that removes a missing key (log
34), the status of a command to no partition (log 54), what goes with a dissolved one (log 74) and the port of a saddlebag byte
(log 72) are the model's choices; readings are LOAD's wait for leases and its homing (log 36), the count of throttled cycles (log
53), when a STOP goes on (log 32) and what PARTITION does to not-live marks (log 67). -/
def Obligations.AcceptedCommandsHaveTheirEffect : Prop :=
  Claims.PartitionCommandsHaveTheirEffect ∧ Claims.ModuleCommandsHaveTheirEffect
end

