-- ==== Sys2Proof/Laws/DecodeShapes.lean ====
section
/-! SUPPORT. Each decoder of an argument structure reads back what its encoder wrote. -/

namespace Sys2Proof.Laws

open Sys2Proof

set_option linter.unusedSimpArgs false
set_option linter.unusedVariables false

theorem ex_lo {m n : Nat} (x : BitVec m) (y : BitVec n) (s w : Nat) (h : s + w ≤ n) :
    (x ++ y).extractLsb' s w = y.extractLsb' s w := by
  ext i hi
  have : s + i < n := by omega
  simp [BitVec.getLsbD_append, this]
theorem ex_hi {m n : Nat} (x : BitVec m) (y : BitVec n) (s w : Nat) (h : n ≤ s) :
    (x ++ y).extractLsb' s w = x.extractLsb' (s - n) w := by
  ext i hi
  have h1 : ¬ s + i < n := by omega
  have h2 : s + i - n = s - n + i := by omega
  simp [BitVec.getLsbD_append, h1, h2]
theorem ex_full {n : Nat} (y : BitVec n) (s : Nat) (h : s = 0) : y.extractLsb' s n = y := by
  subst h; ext i hi; simp
theorem ex_zero (n s w : Nat) : (0#n).extractLsb' s w = 0#w := by
  ext i hi; simp
theorem ofBool_eq_one (b : Bool) : (BitVec.ofBool b == 1#1) = b := by cases b <;> rfl

/-- The fields of a word made of fields are those fields (R47). -/
theorem unpack_pack (f : Fields) : unpack f.ext (pack f) = f := by
  cases f
  simp (disch := decide) only [unpack, pack, ex_lo, ex_hi, ex_full, -Nat.reduceAdd]

@[simp] theorem ok_bind {ε α β : Type} (a : α) (f : α → Except ε β) : ((Except.ok a : Except ε α) >>= f) = f a := rfl
@[simp] theorem rsv_true : rsv true = .ok () := rfl
@[simp] theorem opd_true : opd true = .ok () := rfl


theorem decGuard_enc (lim : Nat) (g : Guard) (h : g.wf lim = true) (hl : lim ≤ 31) : decGuard lim (encGuard g) = .ok g := by
  cases g with
  | always => rfl
  | reg n r =>
    simp only [Guard.wf, decide_eq_true_eq] at h
    have e : encGuard (.reg n r) ≠ 0x1F#6 := by
      intro he
      have h1 : (encGuard (.reg n r)).extractLsb' 0 5 = r := by
        simp (disch := decide) only [encGuard, ex_lo, ex_full, -Nat.reduceAdd]
      rw [he] at h1
      have : r.toNat = 31 := by rw [← h1]; decide
      omega
    have h1 : (encGuard (.reg n r)).extractLsb' 0 5 = r := by
      simp (disch := decide) only [encGuard, ex_lo, ex_full, -Nat.reduceAdd]
    have h2 : (encGuard (.reg n r)).extractLsb' 5 1 = BitVec.ofBool n := by
      simp (disch := decide) only [encGuard, ex_hi, ex_full, -Nat.reduceAdd]
    simp only [decGuard, e, h1, h2, h, ofBool_eq_one, if_true, if_false]
@[simp] theorem decS_enc (r : SReg) : decS (encS r) = .ok r := by revert r; decide
@[simp] theorem decVR_enc (r : VReg) : decVR (encVR r) = .ok r := by revert r; decide
@[simp] theorem decLQ_enc (r : LQ) : decLQ (encLQ r) = .ok r := by revert r; decide
@[simp] theorem decSQ_enc (r : SQ) : decSQ (encSQ r) = .ok r := by revert r; decide
@[simp] theorem decXQ_enc : decXQ encXQ = .ok () := rfl
@[simp] theorem decM_enc (r : MReg) (h : mwf r = true) : decM (encM r) = .ok r := by revert r; decide
@[simp] theorem decP_enc (r : PReg) : decP (encP r) = .ok r := by revert r; decide
@[simp] theorem decV_enc (x : VSrc) : decV (encV x) = .ok x := by
  cases x with
  | v r => revert r; decide
  | lq r => revert r; decide
@[simp] theorem decD_enc (x : VDst) : decD (encD x) = .ok x := by
  cases x with
  | v r => revert r; decide
  | sq r => revert r; decide
@[simp] theorem decVS_enc (x : VSrcS) : decVS (encVS x) = .ok x := by
  rcases x with (r | r) | r
  · revert r; decide
  · revert r; decide
  · revert r; decide
@[simp] theorem decR_enc (x : RDst) : decR (encR x) = .ok x := by
  cases x with
  | v r => revert r; decide
  | xq => rfl
@[simp] theorem decCB_enc (x : CbDst) : decCB (encCB x) = .ok x := by
  rcases x with (r | r) | _
  · revert r; decide
  · revert r; decide
  · rfl
@[simp] theorem decDQ_enc (x : DropQ) : decDQ (encDQ x) = .ok x := by
  cases x with
  | sq r => revert r; decide
  | xq => rfl
@[simp] theorem decOLQ_enc (x : Option LQ) : decOLQ (encOLQ x) = .ok x := by
  cases x with
  | none => rfl
  | some r => revert r; decide
@[simp] theorem decOV_enc (x : Option VSrc) : decOV (encOV x) = .ok x := by
  rcases x with _ | (r | r)
  · rfl
  · revert r; decide
  · revert r; decide
@[simp] theorem decCond_enc (c : Cond) : decCond (encCond c) = .ok c := by cases c <;> rfl
@[simp] theorem decFcond_enc (c : FCond) : decFcond (encFcond c) = .ok c := by cases c <;> rfl
@[simp] theorem decScope_enc (c : Scope) : decScope (encScope c) = .ok c := by cases c <;> rfl
@[simp] theorem decOkind_enc (c : OKind) : decOkind (encOkind c) = .ok c := by cases c <;> rfl
@[simp] theorem decCsr_enc (c : Csr) : decCsr (encCsr c) = .ok c := by cases c <;> rfl
@[simp] theorem decSHint_enc (c : SHint) : decSHint (encSHint c) = .ok c := by cases c <;> rfl
@[simp] theorem decLHint_enc (c : LHint) : decLHint (encLHint c) (encLHintReg c) = .ok c := by
  cases c with
  | ct r => simp [decLHint, encLHint, encLHintReg]
  | _ => rfl
@[simp] theorem decWd_enc (b : Bool) : decWd (encWd b) = .ok b := by cases b <;> rfl
@[simp] theorem decWh_enc (b : Bool) : decWh (encWh b) = .ok b := by cases b <;> rfl
@[simp] theorem decOrdAny_enc (o : Ord) : decOrdAny (encOrd o) = .ok o := by
  rcases o with _ | ⟨k, s⟩
  · rfl
  · cases k <;> cases s <;> rfl
@[simp] theorem decOrdLoad_enc (o : Ord) (h : o.forLoad = true) : decOrdLoad (encOrd o) = .ok o := by
  simp [decOrdLoad, h]
@[simp] theorem decOrdStore_enc (o : Ord) (h : o.forStore = true) : decOrdStore (encOrd o) = .ok o := by
  simp [decOrdStore, h]
theorem decImm_enc (f : Fields) (i : Imm) (h1 : f.imm = encImm i) (h2 : f.ext = encExt i) : decImm f = .ok i := by
  cases i with
  | imm i => simp [decImm, h1, h2, encImm, encExt]
  | ext v =>
    have e1 : (0#32 ++ v).extractLsb' 64 32 = 0#32 := by
      simp (disch := decide) only [ex_hi, ex_full, -Nat.reduceAdd]
    have e2 : (0#32 ++ v).extractLsb' 0 64 = v := by
      simp (disch := decide) only [ex_lo, ex_full, -Nat.reduceAdd]
    simp only [decImm, h1, h2, encImm, encExt, e1, e2]; rfl
theorem decGuards_enc (lim : Nat) (hl : lim ≤ 31) (f : Fields) (g : Guards) (ha : g.a.wf lim = true) (hb : g.b.wf lim = true)
    (h1 : f.ga = encGuard g.a) (h2 : f.gb = encGuard g.b) : decGuards lim f = .ok g := by
  simp [decGuards, h1, h2, decGuard_enc lim _ ha hl, decGuard_enc lim _ hb hl]


theorem hint_reg (h : LHint) : (encLHint h == 3 || encLHintReg h == 0) = true := by cases h <;> rfl
theorem decBare_encBare (c : BitVec 12) (x : Bare) (h : (x.g.awf) = true) : decBare (encBare c x) = .ok x := by
  simp only [Guards.awf, XCtl.wf, Guards.absent, Bool.and_eq_true] at h
  have hg := decGuards_enc 8 (by decide) (encBare c x) x.g (by simp_all) (by simp_all) rfl rfl
  unfold decBare
  rw [hg]
  simp (disch := first | decide | exact h.2 | exact h.1.2 | exact h.1.1.2 | exact h) only [encBare, Fields.a, Fields.x, Fields.s, Fields.plain, ex_lo, ex_hi, ex_full, ex_zero, ok_bind, decS_enc, decVR_enc, decLQ_enc, decSQ_enc, decXQ_enc, decP_enc, decV_enc, decD_enc, decVS_enc, decR_enc, decCB_enc, decDQ_enc, decOLQ_enc, decOV_enc, decCond_enc, decFcond_enc, decScope_enc, decOkind_enc, decCsr_enc, decSHint_enc, decLHint_enc, decWd_enc, decWh_enc, decOrdAny_enc, decM_enc, decOrdLoad_enc, decOrdStore_enc, h, hint_reg, opd_true, beq_self_eq_true, Bool.and_self, Bool.or_true, Bool.true_or, Bool.true_and, Option.getD_some, rsv_true, ofBool_eq_one, -Nat.reduceAdd]
  rfl
theorem decGImm_encGImm (c : BitVec 12) (x : GImm) (h : (x.g.awf) = true) : decGImm (encGImm c x) = .ok x := by
  simp only [Guards.awf, XCtl.wf, Guards.absent, Bool.and_eq_true] at h
  have hg := decGuards_enc 8 (by decide) (encGImm c x) x.g (by simp_all) (by simp_all) rfl rfl
  unfold decGImm
  rw [hg]
  simp (disch := first | decide | exact h.2 | exact h.1.2 | exact h.1.1.2 | exact h) only [encGImm, Fields.a, Fields.x, Fields.s, Fields.plain, ex_lo, ex_hi, ex_full, ex_zero, ok_bind, decS_enc, decVR_enc, decLQ_enc, decSQ_enc, decXQ_enc, decP_enc, decV_enc, decD_enc, decVS_enc, decR_enc, decCB_enc, decDQ_enc, decOLQ_enc, decOV_enc, decCond_enc, decFcond_enc, decScope_enc, decOkind_enc, decCsr_enc, decSHint_enc, decLHint_enc, decWd_enc, decWh_enc, decOrdAny_enc, decM_enc, decOrdLoad_enc, decOrdStore_enc, h, hint_reg, opd_true, beq_self_eq_true, Bool.and_self, Bool.or_true, Bool.true_or, Bool.true_and, Option.getD_some, rsv_true, ofBool_eq_one, -Nat.reduceAdd]
  rfl
theorem decJmp_encJmp (c : BitVec 12) (x : Jmp) (h : (x.g.awf) = true) : decJmp (encJmp c x) = .ok x := by
  simp only [Guards.awf, XCtl.wf, Guards.absent, Bool.and_eq_true] at h
  have hg := decGuards_enc 8 (by decide) (encJmp c x) x.g (by simp_all) (by simp_all) rfl rfl
  unfold decJmp
  rw [hg]
  simp (disch := first | decide | exact h.2 | exact h.1.2 | exact h.1.1.2 | exact h) only [encJmp, Fields.a, Fields.x, Fields.s, Fields.plain, ex_lo, ex_hi, ex_full, ex_zero, ok_bind, decS_enc, decVR_enc, decLQ_enc, decSQ_enc, decXQ_enc, decP_enc, decV_enc, decD_enc, decVS_enc, decR_enc, decCB_enc, decDQ_enc, decOLQ_enc, decOV_enc, decCond_enc, decFcond_enc, decScope_enc, decOkind_enc, decCsr_enc, decSHint_enc, decLHint_enc, decWd_enc, decWh_enc, decOrdAny_enc, decM_enc, decOrdLoad_enc, decOrdStore_enc, h, hint_reg, opd_true, beq_self_eq_true, Bool.and_self, Bool.or_true, Bool.true_or, Bool.true_and, Option.getD_some, rsv_true, ofBool_eq_one, -Nat.reduceAdd]
  rfl
theorem decStrip_encStrip (c : BitVec 12) (x : Strip) (h : (x.g.awf) = true) : decStrip (encStrip c x) = .ok x := by
  simp only [Guards.awf, XCtl.wf, Guards.absent, Bool.and_eq_true] at h
  have hg := decGuards_enc 8 (by decide) (encStrip c x) x.g (by simp_all) (by simp_all) rfl rfl
  unfold decStrip
  rw [hg]
  simp (disch := first | decide | exact h.2 | exact h.1.2 | exact h.1.1.2 | exact h) only [encStrip, Fields.a, Fields.x, Fields.s, Fields.plain, ex_lo, ex_hi, ex_full, ex_zero, ok_bind, decS_enc, decVR_enc, decLQ_enc, decSQ_enc, decXQ_enc, decP_enc, decV_enc, decD_enc, decVS_enc, decR_enc, decCB_enc, decDQ_enc, decOLQ_enc, decOV_enc, decCond_enc, decFcond_enc, decScope_enc, decOkind_enc, decCsr_enc, decSHint_enc, decLHint_enc, decWd_enc, decWh_enc, decOrdAny_enc, decM_enc, decOrdLoad_enc, decOrdStore_enc, h, hint_reg, opd_true, beq_self_eq_true, Bool.and_self, Bool.or_true, Bool.true_or, Bool.true_and, Option.getD_some, rsv_true, ofBool_eq_one, -Nat.reduceAdd]
  rfl
theorem decVsetl_encVsetl (c : BitVec 12) (x : Vsetl) (h : (x.g.awf) = true) : decVsetl (encVsetl c x) = .ok x := by
  simp only [Guards.awf, XCtl.wf, Guards.absent, Bool.and_eq_true] at h
  have hg := decGuards_enc 8 (by decide) (encVsetl c x) x.g (by simp_all) (by simp_all) rfl rfl
  unfold decVsetl
  rw [hg]
  simp (disch := first | decide | exact h.2 | exact h.1.2 | exact h.1.1.2 | exact h) only [encVsetl, Fields.a, Fields.x, Fields.s, Fields.plain, ex_lo, ex_hi, ex_full, ex_zero, ok_bind, decS_enc, decVR_enc, decLQ_enc, decSQ_enc, decXQ_enc, decP_enc, decV_enc, decD_enc, decVS_enc, decR_enc, decCB_enc, decDQ_enc, decOLQ_enc, decOV_enc, decCond_enc, decFcond_enc, decScope_enc, decOkind_enc, decCsr_enc, decSHint_enc, decLHint_enc, decWd_enc, decWh_enc, decOrdAny_enc, decM_enc, decOrdLoad_enc, decOrdStore_enc, h, hint_reg, opd_true, beq_self_eq_true, Bool.and_self, Bool.or_true, Bool.true_or, Bool.true_and, Option.getD_some, rsv_true, ofBool_eq_one, -Nat.reduceAdd]
  rfl
theorem decYield_encYield (c : BitVec 12) (x : Yield) (h : (x.g.awf) = true) : decYield (encYield c x) = .ok x := by
  simp only [Guards.awf, XCtl.wf, Guards.absent, Bool.and_eq_true] at h
  have hg := decGuards_enc 8 (by decide) (encYield c x) x.g (by simp_all) (by simp_all) rfl rfl
  unfold decYield
  rw [hg]
  simp (disch := first | decide | exact h.2 | exact h.1.2 | exact h.1.1.2 | exact h) only [encYield, Fields.a, Fields.x, Fields.s, Fields.plain, ex_lo, ex_hi, ex_full, ex_zero, ok_bind, decS_enc, decVR_enc, decLQ_enc, decSQ_enc, decXQ_enc, decP_enc, decV_enc, decD_enc, decVS_enc, decR_enc, decCB_enc, decDQ_enc, decOLQ_enc, decOV_enc, decCond_enc, decFcond_enc, decScope_enc, decOkind_enc, decCsr_enc, decSHint_enc, decLHint_enc, decWd_enc, decWh_enc, decOrdAny_enc, decM_enc, decOrdLoad_enc, decOrdStore_enc, h, hint_reg, opd_true, beq_self_eq_true, Bool.and_self, Bool.or_true, Bool.true_or, Bool.true_and, Option.getD_some, rsv_true, ofBool_eq_one, -Nat.reduceAdd]
  rfl
theorem decCsrRd_encCsrRd (c : BitVec 12) (x : CsrRd) (h : (x.g.awf) = true) : decCsrRd (encCsrRd c x) = .ok x := by
  simp only [Guards.awf, XCtl.wf, Guards.absent, Bool.and_eq_true] at h
  have hg := decGuards_enc 8 (by decide) (encCsrRd c x) x.g (by simp_all) (by simp_all) rfl rfl
  unfold decCsrRd
  rw [hg]
  simp (disch := first | decide | exact h.2 | exact h.1.2 | exact h.1.1.2 | exact h) only [encCsrRd, Fields.a, Fields.x, Fields.s, Fields.plain, ex_lo, ex_hi, ex_full, ex_zero, ok_bind, decS_enc, decVR_enc, decLQ_enc, decSQ_enc, decXQ_enc, decP_enc, decV_enc, decD_enc, decVS_enc, decR_enc, decCB_enc, decDQ_enc, decOLQ_enc, decOV_enc, decCond_enc, decFcond_enc, decScope_enc, decOkind_enc, decCsr_enc, decSHint_enc, decLHint_enc, decWd_enc, decWh_enc, decOrdAny_enc, decM_enc, decOrdLoad_enc, decOrdStore_enc, h, hint_reg, opd_true, beq_self_eq_true, Bool.and_self, Bool.or_true, Bool.true_or, Bool.true_and, Option.getD_some, rsv_true, ofBool_eq_one, -Nat.reduceAdd]
  rfl
theorem decFence_encFence (c : BitVec 12) (x : Fence) (h : (x.g.awf) = true) : decFence (encFence c x) = .ok x := by
  simp only [Guards.awf, XCtl.wf, Guards.absent, Bool.and_eq_true] at h
  have hg := decGuards_enc 8 (by decide) (encFence c x) x.g (by simp_all) (by simp_all) rfl rfl
  unfold decFence
  rw [hg]
  simp (disch := first | decide | exact h.2 | exact h.1.2 | exact h.1.1.2 | exact h) only [encFence, Fields.a, Fields.x, Fields.s, Fields.plain, ex_lo, ex_hi, ex_full, ex_zero, ok_bind, decS_enc, decVR_enc, decLQ_enc, decSQ_enc, decXQ_enc, decP_enc, decV_enc, decD_enc, decVS_enc, decR_enc, decCB_enc, decDQ_enc, decOLQ_enc, decOV_enc, decCond_enc, decFcond_enc, decScope_enc, decOkind_enc, decCsr_enc, decSHint_enc, decLHint_enc, decWd_enc, decWh_enc, decOrdAny_enc, decM_enc, decOrdLoad_enc, decOrdStore_enc, h, hint_reg, opd_true, beq_self_eq_true, Bool.and_self, Bool.or_true, Bool.true_or, Bool.true_and, Option.getD_some, rsv_true, ofBool_eq_one, -Nat.reduceAdd]
  rfl
theorem decTlbinv_encTlbinv (c : BitVec 12) (x : Tlbinv) (h : (x.g.awf && x.k != 3) = true) : decTlbinv (encTlbinv c x) = .ok x := by
  simp only [Guards.awf, XCtl.wf, Guards.absent, Bool.and_eq_true] at h
  have hg := decGuards_enc 8 (by decide) (encTlbinv c x) x.g (by simp_all) (by simp_all) rfl rfl
  unfold decTlbinv
  rw [hg]
  simp (disch := first | decide | exact h.2 | exact h.1.2 | exact h.1.1.2 | exact h) only [encTlbinv, Fields.a, Fields.x, Fields.s, Fields.plain, ex_lo, ex_hi, ex_full, ex_zero, ok_bind, decS_enc, decVR_enc, decLQ_enc, decSQ_enc, decXQ_enc, decP_enc, decV_enc, decD_enc, decVS_enc, decR_enc, decCB_enc, decDQ_enc, decOLQ_enc, decOV_enc, decCond_enc, decFcond_enc, decScope_enc, decOkind_enc, decCsr_enc, decSHint_enc, decLHint_enc, decWd_enc, decWh_enc, decOrdAny_enc, decM_enc, decOrdLoad_enc, decOrdStore_enc, h, hint_reg, opd_true, beq_self_eq_true, Bool.and_self, Bool.or_true, Bool.true_or, Bool.true_and, Option.getD_some, rsv_true, ofBool_eq_one, -Nat.reduceAdd]
  rfl
theorem decA3_encA3 (c : BitVec 12) (x : A3) (h : (x.g.awf) = true) : decA3 (encA3 c x) = .ok x := by
  simp only [Guards.awf, XCtl.wf, Guards.absent, Bool.and_eq_true] at h
  have hg := decGuards_enc 8 (by decide) (encA3 c x) x.g (by simp_all) (by simp_all) rfl rfl
  unfold decA3
  rw [hg]
  simp (disch := first | decide | exact h.2 | exact h.1.2 | exact h.1.1.2 | exact h) only [encA3, Fields.a, Fields.x, Fields.s, Fields.plain, ex_lo, ex_hi, ex_full, ex_zero, ok_bind, decS_enc, decVR_enc, decLQ_enc, decSQ_enc, decXQ_enc, decP_enc, decV_enc, decD_enc, decVS_enc, decR_enc, decCB_enc, decDQ_enc, decOLQ_enc, decOV_enc, decCond_enc, decFcond_enc, decScope_enc, decOkind_enc, decCsr_enc, decSHint_enc, decLHint_enc, decWd_enc, decWh_enc, decOrdAny_enc, decM_enc, decOrdLoad_enc, decOrdStore_enc, h, hint_reg, opd_true, beq_self_eq_true, Bool.and_self, Bool.or_true, Bool.true_or, Bool.true_and, Option.getD_some, rsv_true, ofBool_eq_one, -Nat.reduceAdd]
  rfl
theorem decABin_encABin (c : BitVec 12) (x : ABin) (h : (x.g.awf) = true) : decABin (encABin c x) = .ok x := by
  simp only [Guards.awf, XCtl.wf, Guards.absent, Bool.and_eq_true] at h
  have hg := decGuards_enc 8 (by decide) (encABin c x) x.g (by simp_all) (by simp_all) rfl rfl
  unfold decABin
  rw [hg]
  simp (disch := first | decide | exact h.2 | exact h.1.2 | exact h.1.1.2 | exact h) only [encABin, Fields.a, Fields.x, Fields.s, Fields.plain, ex_lo, ex_hi, ex_full, ex_zero, ok_bind, decS_enc, decVR_enc, decLQ_enc, decSQ_enc, decXQ_enc, decP_enc, decV_enc, decD_enc, decVS_enc, decR_enc, decCB_enc, decDQ_enc, decOLQ_enc, decOV_enc, decCond_enc, decFcond_enc, decScope_enc, decOkind_enc, decCsr_enc, decSHint_enc, decLHint_enc, decWd_enc, decWh_enc, decOrdAny_enc, decM_enc, decOrdLoad_enc, decOrdStore_enc, h, hint_reg, opd_true, beq_self_eq_true, Bool.and_self, Bool.or_true, Bool.true_or, Bool.true_and, Option.getD_some, rsv_true, ofBool_eq_one, -Nat.reduceAdd]
  rfl
theorem decAImm_encAImm (c : BitVec 12) (x : AImm) (h : (x.g.awf) = true) : decAImm (encAImm c x) = .ok x := by
  simp only [Guards.awf, XCtl.wf, Guards.absent, Bool.and_eq_true] at h
  have hg := decGuards_enc 8 (by decide) (encAImm c x) x.g (by simp_all) (by simp_all) rfl rfl
  have hi := decImm_enc (encAImm c x) x.i rfl rfl
  unfold decAImm
  rw [hg]
  rw [hi]
  simp (disch := first | decide | exact h.2 | exact h.1.2 | exact h.1.1.2 | exact h) only [encAImm, Fields.a, Fields.x, Fields.s, Fields.plain, ex_lo, ex_hi, ex_full, ex_zero, ok_bind, decS_enc, decVR_enc, decLQ_enc, decSQ_enc, decXQ_enc, decP_enc, decV_enc, decD_enc, decVS_enc, decR_enc, decCB_enc, decDQ_enc, decOLQ_enc, decOV_enc, decCond_enc, decFcond_enc, decScope_enc, decOkind_enc, decCsr_enc, decSHint_enc, decLHint_enc, decWd_enc, decWh_enc, decOrdAny_enc, decM_enc, decOrdLoad_enc, decOrdStore_enc, h, hint_reg, opd_true, beq_self_eq_true, Bool.and_self, Bool.or_true, Bool.true_or, Bool.true_and, Option.getD_some, rsv_true, ofBool_eq_one, -Nat.reduceAdd]
  rfl
theorem decAUn_encAUn (c : BitVec 12) (x : AUn) (h : (x.g.awf) = true) : decAUn (encAUn c x) = .ok x := by
  simp only [Guards.awf, XCtl.wf, Guards.absent, Bool.and_eq_true] at h
  have hg := decGuards_enc 8 (by decide) (encAUn c x) x.g (by simp_all) (by simp_all) rfl rfl
  unfold decAUn
  rw [hg]
  simp (disch := first | decide | exact h.2 | exact h.1.2 | exact h.1.1.2 | exact h) only [encAUn, Fields.a, Fields.x, Fields.s, Fields.plain, ex_lo, ex_hi, ex_full, ex_zero, ok_bind, decS_enc, decVR_enc, decLQ_enc, decSQ_enc, decXQ_enc, decP_enc, decV_enc, decD_enc, decVS_enc, decR_enc, decCB_enc, decDQ_enc, decOLQ_enc, decOV_enc, decCond_enc, decFcond_enc, decScope_enc, decOkind_enc, decCsr_enc, decSHint_enc, decLHint_enc, decWd_enc, decWh_enc, decOrdAny_enc, decM_enc, decOrdLoad_enc, decOrdStore_enc, h, hint_reg, opd_true, beq_self_eq_true, Bool.and_self, Bool.or_true, Bool.true_or, Bool.true_and, Option.getD_some, rsv_true, ofBool_eq_one, -Nat.reduceAdd]
  rfl
theorem decAUnZ_encAUnZ (c : BitVec 12) (x : AUnZ) (h : (x.g.awf) = true) : decAUnZ (encAUnZ c x) = .ok x := by
  simp only [Guards.awf, XCtl.wf, Guards.absent, Bool.and_eq_true] at h
  have hg := decGuards_enc 8 (by decide) (encAUnZ c x) x.g (by simp_all) (by simp_all) rfl rfl
  unfold decAUnZ
  rw [hg]
  simp (disch := first | decide | exact h.2 | exact h.1.2 | exact h.1.1.2 | exact h) only [encAUnZ, Fields.a, Fields.x, Fields.s, Fields.plain, ex_lo, ex_hi, ex_full, ex_zero, ok_bind, decS_enc, decVR_enc, decLQ_enc, decSQ_enc, decXQ_enc, decP_enc, decV_enc, decD_enc, decVS_enc, decR_enc, decCB_enc, decDQ_enc, decOLQ_enc, decOV_enc, decCond_enc, decFcond_enc, decScope_enc, decOkind_enc, decCsr_enc, decSHint_enc, decLHint_enc, decWd_enc, decWh_enc, decOrdAny_enc, decM_enc, decOrdLoad_enc, decOrdStore_enc, h, hint_reg, opd_true, beq_self_eq_true, Bool.and_self, Bool.or_true, Bool.true_or, Bool.true_and, Option.getD_some, rsv_true, ofBool_eq_one, -Nat.reduceAdd]
  rfl
theorem decMovi_encMovi (c : BitVec 12) (x : Movi) (h : (x.g.awf) = true) : decMovi (encMovi c x) = .ok x := by
  simp only [Guards.awf, XCtl.wf, Guards.absent, Bool.and_eq_true] at h
  have hg := decGuards_enc 8 (by decide) (encMovi c x) x.g (by simp_all) (by simp_all) rfl rfl
  unfold decMovi
  rw [hg]
  simp (disch := first | decide | exact h.2 | exact h.1.2 | exact h.1.1.2 | exact h) only [encMovi, Fields.a, Fields.x, Fields.s, Fields.plain, ex_lo, ex_hi, ex_full, ex_zero, ok_bind, decS_enc, decVR_enc, decLQ_enc, decSQ_enc, decXQ_enc, decP_enc, decV_enc, decD_enc, decVS_enc, decR_enc, decCB_enc, decDQ_enc, decOLQ_enc, decOV_enc, decCond_enc, decFcond_enc, decScope_enc, decOkind_enc, decCsr_enc, decSHint_enc, decLHint_enc, decWd_enc, decWh_enc, decOrdAny_enc, decM_enc, decOrdLoad_enc, decOrdStore_enc, h, hint_reg, opd_true, beq_self_eq_true, Bool.and_self, Bool.or_true, Bool.true_or, Bool.true_and, Option.getD_some, rsv_true, ofBool_eq_one, -Nat.reduceAdd]
  rfl
theorem decMoviX_encMoviX (c : BitVec 12) (x : MoviX) (h : (x.g.awf) = true) : decMoviX (encMoviX c x) = .ok x := by
  simp only [Guards.awf, XCtl.wf, Guards.absent, Bool.and_eq_true] at h
  have hg := decGuards_enc 8 (by decide) (encMoviX c x) x.g (by simp_all) (by simp_all) rfl rfl
  unfold decMoviX
  rw [hg]
  simp (disch := first | decide | exact h.2 | exact h.1.2 | exact h.1.1.2 | exact h) only [encMoviX, Fields.a, Fields.x, Fields.s, Fields.plain, ex_lo, ex_hi, ex_full, ex_zero, ok_bind, decS_enc, decVR_enc, decLQ_enc, decSQ_enc, decXQ_enc, decP_enc, decV_enc, decD_enc, decVS_enc, decR_enc, decCB_enc, decDQ_enc, decOLQ_enc, decOV_enc, decCond_enc, decFcond_enc, decScope_enc, decOkind_enc, decCsr_enc, decSHint_enc, decLHint_enc, decWd_enc, decWh_enc, decOrdAny_enc, decM_enc, decOrdLoad_enc, decOrdStore_enc, h, hint_reg, opd_true, beq_self_eq_true, Bool.and_self, Bool.or_true, Bool.true_or, Bool.true_and, Option.getD_some, rsv_true, ofBool_eq_one, -Nat.reduceAdd]
  rfl
theorem decSel_encSel (c : BitVec 12) (x : Sel) (h : (x.g.awf) = true) : decSel (encSel c x) = .ok x := by
  simp only [Guards.awf, XCtl.wf, Guards.absent, Bool.and_eq_true] at h
  have hg := decGuards_enc 8 (by decide) (encSel c x) x.g (by simp_all) (by simp_all) rfl rfl
  have hi := decImm_enc (encSel c x) x.i rfl rfl
  unfold decSel
  rw [hg]
  rw [hi]
  simp (disch := first | decide | exact h.2 | exact h.1.2 | exact h.1.1.2 | exact h) only [encSel, Fields.a, Fields.x, Fields.s, Fields.plain, ex_lo, ex_hi, ex_full, ex_zero, ok_bind, decS_enc, decVR_enc, decLQ_enc, decSQ_enc, decXQ_enc, decP_enc, decV_enc, decD_enc, decVS_enc, decR_enc, decCB_enc, decDQ_enc, decOLQ_enc, decOV_enc, decCond_enc, decFcond_enc, decScope_enc, decOkind_enc, decCsr_enc, decSHint_enc, decLHint_enc, decWd_enc, decWh_enc, decOrdAny_enc, decM_enc, decOrdLoad_enc, decOrdStore_enc, h, hint_reg, opd_true, beq_self_eq_true, Bool.and_self, Bool.or_true, Bool.true_or, Bool.true_and, Option.getD_some, rsv_true, ofBool_eq_one, -Nat.reduceAdd]
  rfl
theorem decCmp_encCmp (c : BitVec 12) (x : Cmp) (h : (x.g.awf) = true) : decCmp (encCmp c x) = .ok x := by
  simp only [Guards.awf, XCtl.wf, Guards.absent, Bool.and_eq_true] at h
  have hg := decGuards_enc 8 (by decide) (encCmp c x) x.g (by simp_all) (by simp_all) rfl rfl
  unfold decCmp
  rw [hg]
  simp (disch := first | decide | exact h.2 | exact h.1.2 | exact h.1.1.2 | exact h) only [encCmp, Fields.a, Fields.x, Fields.s, Fields.plain, ex_lo, ex_hi, ex_full, ex_zero, ok_bind, decS_enc, decVR_enc, decLQ_enc, decSQ_enc, decXQ_enc, decP_enc, decV_enc, decD_enc, decVS_enc, decR_enc, decCB_enc, decDQ_enc, decOLQ_enc, decOV_enc, decCond_enc, decFcond_enc, decScope_enc, decOkind_enc, decCsr_enc, decSHint_enc, decLHint_enc, decWd_enc, decWh_enc, decOrdAny_enc, decM_enc, decOrdLoad_enc, decOrdStore_enc, h, hint_reg, opd_true, beq_self_eq_true, Bool.and_self, Bool.or_true, Bool.true_or, Bool.true_and, Option.getD_some, rsv_true, ofBool_eq_one, -Nat.reduceAdd]
  rfl
theorem decCmpi_encCmpi (c : BitVec 12) (x : Cmpi) (h : (x.g.awf) = true) : decCmpi (encCmpi c x) = .ok x := by
  simp only [Guards.awf, XCtl.wf, Guards.absent, Bool.and_eq_true] at h
  have hg := decGuards_enc 8 (by decide) (encCmpi c x) x.g (by simp_all) (by simp_all) rfl rfl
  have hi := decImm_enc (encCmpi c x) x.i rfl rfl
  unfold decCmpi
  rw [hg]
  rw [hi]
  simp (disch := first | decide | exact h.2 | exact h.1.2 | exact h.1.1.2 | exact h) only [encCmpi, Fields.a, Fields.x, Fields.s, Fields.plain, ex_lo, ex_hi, ex_full, ex_zero, ok_bind, decS_enc, decVR_enc, decLQ_enc, decSQ_enc, decXQ_enc, decP_enc, decV_enc, decD_enc, decVS_enc, decR_enc, decCB_enc, decDQ_enc, decOLQ_enc, decOV_enc, decCond_enc, decFcond_enc, decScope_enc, decOkind_enc, decCsr_enc, decSHint_enc, decLHint_enc, decWd_enc, decWh_enc, decOrdAny_enc, decM_enc, decOrdLoad_enc, decOrdStore_enc, h, hint_reg, opd_true, beq_self_eq_true, Bool.and_self, Bool.or_true, Bool.true_or, Bool.true_and, Option.getD_some, rsv_true, ofBool_eq_one, -Nat.reduceAdd]
  rfl
theorem decPlog_encPlog (c : BitVec 12) (x : Plog) (h : (x.g.awf) = true) : decPlog (encPlog c x) = .ok x := by
  simp only [Guards.awf, XCtl.wf, Guards.absent, Bool.and_eq_true] at h
  have hg := decGuards_enc 8 (by decide) (encPlog c x) x.g (by simp_all) (by simp_all) rfl rfl
  unfold decPlog
  rw [hg]
  simp (disch := first | decide | exact h.2 | exact h.1.2 | exact h.1.1.2 | exact h) only [encPlog, Fields.a, Fields.x, Fields.s, Fields.plain, ex_lo, ex_hi, ex_full, ex_zero, ok_bind, decS_enc, decVR_enc, decLQ_enc, decSQ_enc, decXQ_enc, decP_enc, decV_enc, decD_enc, decVS_enc, decR_enc, decCB_enc, decDQ_enc, decOLQ_enc, decOV_enc, decCond_enc, decFcond_enc, decScope_enc, decOkind_enc, decCsr_enc, decSHint_enc, decLHint_enc, decWd_enc, decWh_enc, decOrdAny_enc, decM_enc, decOrdLoad_enc, decOrdStore_enc, h, hint_reg, opd_true, beq_self_eq_true, Bool.and_self, Bool.or_true, Bool.true_or, Bool.true_and, Option.getD_some, rsv_true, ofBool_eq_one, -Nat.reduceAdd]
  rfl
theorem decLea_encLea (c : BitVec 12) (x : Lea) (h : (x.g.awf) = true) : decLea (encLea c x) = .ok x := by
  simp only [Guards.awf, XCtl.wf, Guards.absent, Bool.and_eq_true] at h
  have hg := decGuards_enc 8 (by decide) (encLea c x) x.g (by simp_all) (by simp_all) rfl rfl
  have hi := decImm_enc (encLea c x) x.i rfl rfl
  unfold decLea
  rw [hg]
  rw [hi]
  simp (disch := first | decide | exact h.2 | exact h.1.2 | exact h.1.1.2 | exact h) only [encLea, Fields.a, Fields.x, Fields.s, Fields.plain, ex_lo, ex_hi, ex_full, ex_zero, ok_bind, decS_enc, decVR_enc, decLQ_enc, decSQ_enc, decXQ_enc, decP_enc, decV_enc, decD_enc, decVS_enc, decR_enc, decCB_enc, decDQ_enc, decOLQ_enc, decOV_enc, decCond_enc, decFcond_enc, decScope_enc, decOkind_enc, decCsr_enc, decSHint_enc, decLHint_enc, decWd_enc, decWh_enc, decOrdAny_enc, decM_enc, decOrdLoad_enc, decOrdStore_enc, h, hint_reg, opd_true, beq_self_eq_true, Bool.and_self, Bool.or_true, Bool.true_or, Bool.true_and, Option.getD_some, rsv_true, ofBool_eq_one, -Nat.reduceAdd]
  rfl
theorem decHashs_encHashs (c : BitVec 12) (x : Hashs) (h : (x.g.awf) = true) : decHashs (encHashs c x) = .ok x := by
  simp only [Guards.awf, XCtl.wf, Guards.absent, Bool.and_eq_true] at h
  have hg := decGuards_enc 8 (by decide) (encHashs c x) x.g (by simp_all) (by simp_all) rfl rfl
  unfold decHashs
  rw [hg]
  simp (disch := first | decide | exact h.2 | exact h.1.2 | exact h.1.1.2 | exact h) only [encHashs, Fields.a, Fields.x, Fields.s, Fields.plain, ex_lo, ex_hi, ex_full, ex_zero, ok_bind, decS_enc, decVR_enc, decLQ_enc, decSQ_enc, decXQ_enc, decP_enc, decV_enc, decD_enc, decVS_enc, decR_enc, decCB_enc, decDQ_enc, decOLQ_enc, decOV_enc, decCond_enc, decFcond_enc, decScope_enc, decOkind_enc, decCsr_enc, decSHint_enc, decLHint_enc, decWd_enc, decWh_enc, decOrdAny_enc, decM_enc, decOrdLoad_enc, decOrdStore_enc, h, hint_reg, opd_true, beq_self_eq_true, Bool.and_self, Bool.or_true, Bool.true_or, Bool.true_and, Option.getD_some, rsv_true, ofBool_eq_one, -Nat.reduceAdd]
  rfl
theorem decLoad_encLoad (c : BitVec 12) (x : Load) (h : (x.g.awf && x.o.forLoad) = true) : decLoad (encLoad c x) = .ok x := by
  simp only [Guards.awf, XCtl.wf, Guards.absent, Bool.and_eq_true] at h
  have hg := decGuards_enc 8 (by decide) (encLoad c x) x.g (by simp_all) (by simp_all) rfl rfl
  unfold decLoad
  rw [hg]
  simp (disch := first | decide | exact h.2 | exact h.1.2 | exact h.1.1.2 | exact h) only [encLoad, Fields.a, Fields.x, Fields.s, Fields.plain, ex_lo, ex_hi, ex_full, ex_zero, ok_bind, decS_enc, decVR_enc, decLQ_enc, decSQ_enc, decXQ_enc, decP_enc, decV_enc, decD_enc, decVS_enc, decR_enc, decCB_enc, decDQ_enc, decOLQ_enc, decOV_enc, decCond_enc, decFcond_enc, decScope_enc, decOkind_enc, decCsr_enc, decSHint_enc, decLHint_enc, decWd_enc, decWh_enc, decOrdAny_enc, decM_enc, decOrdLoad_enc, decOrdStore_enc, h, hint_reg, opd_true, beq_self_eq_true, Bool.and_self, Bool.or_true, Bool.true_or, Bool.true_and, Option.getD_some, rsv_true, ofBool_eq_one, -Nat.reduceAdd]
  rfl
theorem decStore_encStore (c : BitVec 12) (x : Store) (h : (x.g.awf && x.o.forStore) = true) : decStore (encStore c x) = .ok x := by
  simp only [Guards.awf, XCtl.wf, Guards.absent, Bool.and_eq_true] at h
  have hg := decGuards_enc 8 (by decide) (encStore c x) x.g (by simp_all) (by simp_all) rfl rfl
  unfold decStore
  rw [hg]
  simp (disch := first | decide | exact h.2 | exact h.1.2 | exact h.1.1.2 | exact h) only [encStore, Fields.a, Fields.x, Fields.s, Fields.plain, ex_lo, ex_hi, ex_full, ex_zero, ok_bind, decS_enc, decVR_enc, decLQ_enc, decSQ_enc, decXQ_enc, decP_enc, decV_enc, decD_enc, decVS_enc, decR_enc, decCB_enc, decDQ_enc, decOLQ_enc, decOV_enc, decCond_enc, decFcond_enc, decScope_enc, decOkind_enc, decCsr_enc, decSHint_enc, decLHint_enc, decWd_enc, decWh_enc, decOrdAny_enc, decM_enc, decOrdLoad_enc, decOrdStore_enc, h, hint_reg, opd_true, beq_self_eq_true, Bool.and_self, Bool.or_true, Bool.true_or, Bool.true_and, Option.getD_some, rsv_true, ofBool_eq_one, -Nat.reduceAdd]
  rfl
theorem decAtom_encAtom (c : BitVec 12) (x : Atom) (h : (x.g.awf) = true) : decAtom (encAtom c x) = .ok x := by
  simp only [Guards.awf, XCtl.wf, Guards.absent, Bool.and_eq_true] at h
  have hg := decGuards_enc 8 (by decide) (encAtom c x) x.g (by simp_all) (by simp_all) rfl rfl
  unfold decAtom
  rw [hg]
  simp (disch := first | decide | exact h.2 | exact h.1.2 | exact h.1.1.2 | exact h) only [encAtom, Fields.a, Fields.x, Fields.s, Fields.plain, ex_lo, ex_hi, ex_full, ex_zero, ok_bind, decS_enc, decVR_enc, decLQ_enc, decSQ_enc, decXQ_enc, decP_enc, decV_enc, decD_enc, decVS_enc, decR_enc, decCB_enc, decDQ_enc, decOLQ_enc, decOV_enc, decCond_enc, decFcond_enc, decScope_enc, decOkind_enc, decCsr_enc, decSHint_enc, decLHint_enc, decWd_enc, decWh_enc, decOrdAny_enc, decM_enc, decOrdLoad_enc, decOrdStore_enc, h, hint_reg, opd_true, beq_self_eq_true, Bool.and_self, Bool.or_true, Bool.true_or, Bool.true_and, Option.getD_some, rsv_true, ofBool_eq_one, -Nat.reduceAdd]
  rfl
theorem decAcas_encAcas (c : BitVec 12) (x : Acas) (h : (x.g.awf) = true) : decAcas (encAcas c x) = .ok x := by
  simp only [Guards.awf, XCtl.wf, Guards.absent, Bool.and_eq_true] at h
  have hg := decGuards_enc 8 (by decide) (encAcas c x) x.g (by simp_all) (by simp_all) rfl rfl
  unfold decAcas
  rw [hg]
  simp (disch := first | decide | exact h.2 | exact h.1.2 | exact h.1.1.2 | exact h) only [encAcas, Fields.a, Fields.x, Fields.s, Fields.plain, ex_lo, ex_hi, ex_full, ex_zero, ok_bind, decS_enc, decVR_enc, decLQ_enc, decSQ_enc, decXQ_enc, decP_enc, decV_enc, decD_enc, decVS_enc, decR_enc, decCB_enc, decDQ_enc, decOLQ_enc, decOV_enc, decCond_enc, decFcond_enc, decScope_enc, decOkind_enc, decCsr_enc, decSHint_enc, decLHint_enc, decWd_enc, decWh_enc, decOrdAny_enc, decM_enc, decOrdLoad_enc, decOrdStore_enc, h, hint_reg, opd_true, beq_self_eq_true, Bool.and_self, Bool.or_true, Bool.true_or, Bool.true_and, Option.getD_some, rsv_true, ofBool_eq_one, -Nat.reduceAdd]
  rfl
theorem decAfadd_encAfadd (c : BitVec 12) (x : Afadd) (h : (x.g.awf) = true) : decAfadd (encAfadd c x) = .ok x := by
  simp only [Guards.awf, XCtl.wf, Guards.absent, Bool.and_eq_true] at h
  have hg := decGuards_enc 8 (by decide) (encAfadd c x) x.g (by simp_all) (by simp_all) rfl rfl
  unfold decAfadd
  rw [hg]
  simp (disch := first | decide | exact h.2 | exact h.1.2 | exact h.1.1.2 | exact h) only [encAfadd, Fields.a, Fields.x, Fields.s, Fields.plain, ex_lo, ex_hi, ex_full, ex_zero, ok_bind, decS_enc, decVR_enc, decLQ_enc, decSQ_enc, decXQ_enc, decP_enc, decV_enc, decD_enc, decVS_enc, decR_enc, decCB_enc, decDQ_enc, decOLQ_enc, decOV_enc, decCond_enc, decFcond_enc, decScope_enc, decOkind_enc, decCsr_enc, decSHint_enc, decLHint_enc, decWd_enc, decWh_enc, decOrdAny_enc, decM_enc, decOrdLoad_enc, decOrdStore_enc, h, hint_reg, opd_true, beq_self_eq_true, Bool.and_self, Bool.or_true, Bool.true_or, Bool.true_and, Option.getD_some, rsv_true, ofBool_eq_one, -Nat.reduceAdd]
  rfl
theorem decLease_encLease (c : BitVec 12) (x : Lease) (h : (x.g.awf) = true) : decLease (encLease c x) = .ok x := by
  simp only [Guards.awf, XCtl.wf, Guards.absent, Bool.and_eq_true] at h
  have hg := decGuards_enc 8 (by decide) (encLease c x) x.g (by simp_all) (by simp_all) rfl rfl
  unfold decLease
  rw [hg]
  simp (disch := first | decide | exact h.2 | exact h.1.2 | exact h.1.1.2 | exact h) only [encLease, Fields.a, Fields.x, Fields.s, Fields.plain, ex_lo, ex_hi, ex_full, ex_zero, ok_bind, decS_enc, decVR_enc, decLQ_enc, decSQ_enc, decXQ_enc, decP_enc, decV_enc, decD_enc, decVS_enc, decR_enc, decCB_enc, decDQ_enc, decOLQ_enc, decOV_enc, decCond_enc, decFcond_enc, decScope_enc, decOkind_enc, decCsr_enc, decSHint_enc, decLHint_enc, decWd_enc, decWh_enc, decOrdAny_enc, decM_enc, decOrdLoad_enc, decOrdStore_enc, h, hint_reg, opd_true, beq_self_eq_true, Bool.and_self, Bool.or_true, Bool.true_or, Bool.true_and, Option.getD_some, rsv_true, ofBool_eq_one, -Nat.reduceAdd]
  rfl
theorem decUnlease_encUnlease (c : BitVec 12) (x : Unlease) (h : (x.g.awf) = true) : decUnlease (encUnlease c x) = .ok x := by
  simp only [Guards.awf, XCtl.wf, Guards.absent, Bool.and_eq_true] at h
  have hg := decGuards_enc 8 (by decide) (encUnlease c x) x.g (by simp_all) (by simp_all) rfl rfl
  unfold decUnlease
  rw [hg]
  simp (disch := first | decide | exact h.2 | exact h.1.2 | exact h.1.1.2 | exact h) only [encUnlease, Fields.a, Fields.x, Fields.s, Fields.plain, ex_lo, ex_hi, ex_full, ex_zero, ok_bind, decS_enc, decVR_enc, decLQ_enc, decSQ_enc, decXQ_enc, decP_enc, decV_enc, decD_enc, decVS_enc, decR_enc, decCB_enc, decDQ_enc, decOLQ_enc, decOV_enc, decCond_enc, decFcond_enc, decScope_enc, decOkind_enc, decCsr_enc, decSHint_enc, decLHint_enc, decWd_enc, decWh_enc, decOrdAny_enc, decM_enc, decOrdLoad_enc, decOrdStore_enc, h, hint_reg, opd_true, beq_self_eq_true, Bool.and_self, Bool.or_true, Bool.true_or, Bool.true_and, Option.getD_some, rsv_true, ofBool_eq_one, -Nat.reduceAdd]
  rfl
theorem decStlc_encStlc (c : BitVec 12) (x : Stlc) (h : (x.g.awf) = true) : decStlc (encStlc c x) = .ok x := by
  simp only [Guards.awf, XCtl.wf, Guards.absent, Bool.and_eq_true] at h
  have hg := decGuards_enc 8 (by decide) (encStlc c x) x.g (by simp_all) (by simp_all) rfl rfl
  unfold decStlc
  rw [hg]
  simp (disch := first | decide | exact h.2 | exact h.1.2 | exact h.1.1.2 | exact h) only [encStlc, Fields.a, Fields.x, Fields.s, Fields.plain, ex_lo, ex_hi, ex_full, ex_zero, ok_bind, decS_enc, decVR_enc, decLQ_enc, decSQ_enc, decXQ_enc, decP_enc, decV_enc, decD_enc, decVS_enc, decR_enc, decCB_enc, decDQ_enc, decOLQ_enc, decOV_enc, decCond_enc, decFcond_enc, decScope_enc, decOkind_enc, decCsr_enc, decSHint_enc, decLHint_enc, decWd_enc, decWh_enc, decOrdAny_enc, decM_enc, decOrdLoad_enc, decOrdStore_enc, h, hint_reg, opd_true, beq_self_eq_true, Bool.and_self, Bool.or_true, Bool.true_or, Bool.true_and, Option.getD_some, rsv_true, ofBool_eq_one, -Nat.reduceAdd]
  rfl
theorem decCmaint_encCmaint (c : BitVec 12) (x : Cmaint) (h : (x.g.awf) = true) : decCmaint (encCmaint c x) = .ok x := by
  simp only [Guards.awf, XCtl.wf, Guards.absent, Bool.and_eq_true] at h
  have hg := decGuards_enc 8 (by decide) (encCmaint c x) x.g (by simp_all) (by simp_all) rfl rfl
  unfold decCmaint
  rw [hg]
  simp (disch := first | decide | exact h.2 | exact h.1.2 | exact h.1.1.2 | exact h) only [encCmaint, Fields.a, Fields.x, Fields.s, Fields.plain, ex_lo, ex_hi, ex_full, ex_zero, ok_bind, decS_enc, decVR_enc, decLQ_enc, decSQ_enc, decXQ_enc, decP_enc, decV_enc, decD_enc, decVS_enc, decR_enc, decCB_enc, decDQ_enc, decOLQ_enc, decOV_enc, decCond_enc, decFcond_enc, decScope_enc, decOkind_enc, decCsr_enc, decSHint_enc, decLHint_enc, decWd_enc, decWh_enc, decOrdAny_enc, decM_enc, decOrdLoad_enc, decOrdStore_enc, h, hint_reg, opd_true, beq_self_eq_true, Bool.and_self, Bool.or_true, Bool.true_or, Bool.true_and, Option.getD_some, rsv_true, ofBool_eq_one, -Nat.reduceAdd]
  rfl
theorem decCpref_encCpref (c : BitVec 12) (x : Cpref) (h : (x.g.awf) = true) : decCpref (encCpref c x) = .ok x := by
  simp only [Guards.awf, XCtl.wf, Guards.absent, Bool.and_eq_true] at h
  have hg := decGuards_enc 8 (by decide) (encCpref c x) x.g (by simp_all) (by simp_all) rfl rfl
  unfold decCpref
  rw [hg]
  simp (disch := first | decide | exact h.2 | exact h.1.2 | exact h.1.1.2 | exact h) only [encCpref, Fields.a, Fields.x, Fields.s, Fields.plain, ex_lo, ex_hi, ex_full, ex_zero, ok_bind, decS_enc, decVR_enc, decLQ_enc, decSQ_enc, decXQ_enc, decP_enc, decV_enc, decD_enc, decVS_enc, decR_enc, decCB_enc, decDQ_enc, decOLQ_enc, decOV_enc, decCond_enc, decFcond_enc, decScope_enc, decOkind_enc, decCsr_enc, decSHint_enc, decLHint_enc, decWd_enc, decWh_enc, decOrdAny_enc, decM_enc, decOrdLoad_enc, decOrdStore_enc, h, hint_reg, opd_true, beq_self_eq_true, Bool.and_self, Bool.or_true, Bool.true_or, Bool.true_and, Option.getD_some, rsv_true, ofBool_eq_one, -Nat.reduceAdd]
  rfl
theorem decVld_encVld (c : BitVec 12) (x : Vld) (h : (x.g.awf) = true) : decVld (encVld c x) = .ok x := by
  simp only [Guards.awf, XCtl.wf, Guards.absent, Bool.and_eq_true] at h
  have hg := decGuards_enc 8 (by decide) (encVld c x) x.g (by simp_all) (by simp_all) rfl rfl
  unfold decVld
  rw [hg]
  simp (disch := first | decide | exact h.2 | exact h.1.2 | exact h.1.1.2 | exact h) only [encVld, Fields.a, Fields.x, Fields.s, Fields.plain, ex_lo, ex_hi, ex_full, ex_zero, ok_bind, decS_enc, decVR_enc, decLQ_enc, decSQ_enc, decXQ_enc, decP_enc, decV_enc, decD_enc, decVS_enc, decR_enc, decCB_enc, decDQ_enc, decOLQ_enc, decOV_enc, decCond_enc, decFcond_enc, decScope_enc, decOkind_enc, decCsr_enc, decSHint_enc, decLHint_enc, decWd_enc, decWh_enc, decOrdAny_enc, decM_enc, decOrdLoad_enc, decOrdStore_enc, h, hint_reg, opd_true, beq_self_eq_true, Bool.and_self, Bool.or_true, Bool.true_or, Bool.true_and, Option.getD_some, rsv_true, ofBool_eq_one, -Nat.reduceAdd]
  rfl
theorem decVldx_encVldx (c : BitVec 12) (x : Vldx) (h : (x.g.awf) = true) : decVldx (encVldx c x) = .ok x := by
  simp only [Guards.awf, XCtl.wf, Guards.absent, Bool.and_eq_true] at h
  have hg := decGuards_enc 8 (by decide) (encVldx c x) x.g (by simp_all) (by simp_all) rfl rfl
  unfold decVldx
  rw [hg]
  simp (disch := first | decide | exact h.2 | exact h.1.2 | exact h.1.1.2 | exact h) only [encVldx, Fields.a, Fields.x, Fields.s, Fields.plain, ex_lo, ex_hi, ex_full, ex_zero, ok_bind, decS_enc, decVR_enc, decLQ_enc, decSQ_enc, decXQ_enc, decP_enc, decV_enc, decD_enc, decVS_enc, decR_enc, decCB_enc, decDQ_enc, decOLQ_enc, decOV_enc, decCond_enc, decFcond_enc, decScope_enc, decOkind_enc, decCsr_enc, decSHint_enc, decLHint_enc, decWd_enc, decWh_enc, decOrdAny_enc, decM_enc, decOrdLoad_enc, decOrdStore_enc, h, hint_reg, opd_true, beq_self_eq_true, Bool.and_self, Bool.or_true, Bool.true_or, Bool.true_and, Option.getD_some, rsv_true, ofBool_eq_one, -Nat.reduceAdd]
  rfl
theorem decVlds_encVlds (c : BitVec 12) (x : Vlds) (h : (x.g.awf) = true) : decVlds (encVlds c x) = .ok x := by
  simp only [Guards.awf, XCtl.wf, Guards.absent, Bool.and_eq_true] at h
  have hg := decGuards_enc 8 (by decide) (encVlds c x) x.g (by simp_all) (by simp_all) rfl rfl
  unfold decVlds
  rw [hg]
  simp (disch := first | decide | exact h.2 | exact h.1.2 | exact h.1.1.2 | exact h) only [encVlds, Fields.a, Fields.x, Fields.s, Fields.plain, ex_lo, ex_hi, ex_full, ex_zero, ok_bind, decS_enc, decVR_enc, decLQ_enc, decSQ_enc, decXQ_enc, decP_enc, decV_enc, decD_enc, decVS_enc, decR_enc, decCB_enc, decDQ_enc, decOLQ_enc, decOV_enc, decCond_enc, decFcond_enc, decScope_enc, decOkind_enc, decCsr_enc, decSHint_enc, decLHint_enc, decWd_enc, decWh_enc, decOrdAny_enc, decM_enc, decOrdLoad_enc, decOrdStore_enc, h, hint_reg, opd_true, beq_self_eq_true, Bool.and_self, Bool.or_true, Bool.true_or, Bool.true_and, Option.getD_some, rsv_true, ofBool_eq_one, -Nat.reduceAdd]
  rfl
theorem decVst_encVst (c : BitVec 12) (x : Vst) (h : (x.g.awf) = true) : decVst (encVst c x) = .ok x := by
  simp only [Guards.awf, XCtl.wf, Guards.absent, Bool.and_eq_true] at h
  have hg := decGuards_enc 8 (by decide) (encVst c x) x.g (by simp_all) (by simp_all) rfl rfl
  unfold decVst
  rw [hg]
  simp (disch := first | decide | exact h.2 | exact h.1.2 | exact h.1.1.2 | exact h) only [encVst, Fields.a, Fields.x, Fields.s, Fields.plain, ex_lo, ex_hi, ex_full, ex_zero, ok_bind, decS_enc, decVR_enc, decLQ_enc, decSQ_enc, decXQ_enc, decP_enc, decV_enc, decD_enc, decVS_enc, decR_enc, decCB_enc, decDQ_enc, decOLQ_enc, decOV_enc, decCond_enc, decFcond_enc, decScope_enc, decOkind_enc, decCsr_enc, decSHint_enc, decLHint_enc, decWd_enc, decWh_enc, decOrdAny_enc, decM_enc, decOrdLoad_enc, decOrdStore_enc, h, hint_reg, opd_true, beq_self_eq_true, Bool.and_self, Bool.or_true, Bool.true_or, Bool.true_and, Option.getD_some, rsv_true, ofBool_eq_one, -Nat.reduceAdd]
  rfl
theorem decVstx_encVstx (c : BitVec 12) (x : Vstx) (h : (x.g.awf && x.i != x.d) = true) : decVstx (encVstx c x) = .ok x := by
  simp only [Guards.awf, XCtl.wf, Guards.absent, Bool.and_eq_true] at h
  have hg := decGuards_enc 8 (by decide) (encVstx c x) x.g (by simp_all) (by simp_all) rfl rfl
  unfold decVstx
  rw [hg]
  simp (disch := first | decide | exact h.2 | exact h.1.2 | exact h.1.1.2 | exact h) only [encVstx, Fields.a, Fields.x, Fields.s, Fields.plain, ex_lo, ex_hi, ex_full, ex_zero, ok_bind, decS_enc, decVR_enc, decLQ_enc, decSQ_enc, decXQ_enc, decP_enc, decV_enc, decD_enc, decVS_enc, decR_enc, decCB_enc, decDQ_enc, decOLQ_enc, decOV_enc, decCond_enc, decFcond_enc, decScope_enc, decOkind_enc, decCsr_enc, decSHint_enc, decLHint_enc, decWd_enc, decWh_enc, decOrdAny_enc, decM_enc, decOrdLoad_enc, decOrdStore_enc, h, hint_reg, opd_true, beq_self_eq_true, Bool.and_self, Bool.or_true, Bool.true_or, Bool.true_and, Option.getD_some, rsv_true, ofBool_eq_one, -Nat.reduceAdd]
  rfl
theorem decVsts_encVsts (c : BitVec 12) (x : Vsts) (h : (x.g.awf) = true) : decVsts (encVsts c x) = .ok x := by
  simp only [Guards.awf, XCtl.wf, Guards.absent, Bool.and_eq_true] at h
  have hg := decGuards_enc 8 (by decide) (encVsts c x) x.g (by simp_all) (by simp_all) rfl rfl
  unfold decVsts
  rw [hg]
  simp (disch := first | decide | exact h.2 | exact h.1.2 | exact h.1.1.2 | exact h) only [encVsts, Fields.a, Fields.x, Fields.s, Fields.plain, ex_lo, ex_hi, ex_full, ex_zero, ok_bind, decS_enc, decVR_enc, decLQ_enc, decSQ_enc, decXQ_enc, decP_enc, decV_enc, decD_enc, decVS_enc, decR_enc, decCB_enc, decDQ_enc, decOLQ_enc, decOV_enc, decCond_enc, decFcond_enc, decScope_enc, decOkind_enc, decCsr_enc, decSHint_enc, decLHint_enc, decWd_enc, decWh_enc, decOrdAny_enc, decM_enc, decOrdLoad_enc, decOrdStore_enc, h, hint_reg, opd_true, beq_self_eq_true, Bool.and_self, Bool.or_true, Bool.true_or, Bool.true_and, Option.getD_some, rsv_true, ofBool_eq_one, -Nat.reduceAdd]
  rfl
theorem decVldsx_encVldsx (c : BitVec 12) (x : Vldsx) (h : (x.g.awf) = true) : decVldsx (encVldsx c x) = .ok x := by
  simp only [Guards.awf, XCtl.wf, Guards.absent, Bool.and_eq_true] at h
  have hg := decGuards_enc 8 (by decide) (encVldsx c x) x.g (by simp_all) (by simp_all) rfl rfl
  unfold decVldsx
  rw [hg]
  simp (disch := first | decide | exact h.2 | exact h.1.2 | exact h.1.1.2 | exact h) only [encVldsx, Fields.a, Fields.x, Fields.s, Fields.plain, ex_lo, ex_hi, ex_full, ex_zero, ok_bind, decS_enc, decVR_enc, decLQ_enc, decSQ_enc, decXQ_enc, decP_enc, decV_enc, decD_enc, decVS_enc, decR_enc, decCB_enc, decDQ_enc, decOLQ_enc, decOV_enc, decCond_enc, decFcond_enc, decScope_enc, decOkind_enc, decCsr_enc, decSHint_enc, decLHint_enc, decWd_enc, decWh_enc, decOrdAny_enc, decM_enc, decOrdLoad_enc, decOrdStore_enc, h, hint_reg, opd_true, beq_self_eq_true, Bool.and_self, Bool.or_true, Bool.true_or, Bool.true_and, Option.getD_some, rsv_true, ofBool_eq_one, -Nat.reduceAdd]
  rfl
theorem decVstsx_encVstsx (c : BitVec 12) (x : Vstsx) (h : (x.g.awf && x.i != x.d) = true) : decVstsx (encVstsx c x) = .ok x := by
  simp only [Guards.awf, XCtl.wf, Guards.absent, Bool.and_eq_true] at h
  have hg := decGuards_enc 8 (by decide) (encVstsx c x) x.g (by simp_all) (by simp_all) rfl rfl
  unfold decVstsx
  rw [hg]
  simp (disch := first | decide | exact h.2 | exact h.1.2 | exact h.1.1.2 | exact h) only [encVstsx, Fields.a, Fields.x, Fields.s, Fields.plain, ex_lo, ex_hi, ex_full, ex_zero, ok_bind, decS_enc, decVR_enc, decLQ_enc, decSQ_enc, decXQ_enc, decP_enc, decV_enc, decD_enc, decVS_enc, decR_enc, decCB_enc, decDQ_enc, decOLQ_enc, decOV_enc, decCond_enc, decFcond_enc, decScope_enc, decOkind_enc, decCsr_enc, decSHint_enc, decLHint_enc, decWd_enc, decWh_enc, decOrdAny_enc, decM_enc, decOrdLoad_enc, decOrdStore_enc, h, hint_reg, opd_true, beq_self_eq_true, Bool.and_self, Bool.or_true, Bool.true_or, Bool.true_and, Option.getD_some, rsv_true, ofBool_eq_one, -Nat.reduceAdd]
  rfl
theorem decVamo_encVamo (c : BitVec 12) (x : Vamo) (h : (x.g.awf && x.i != x.d && !(x.dbl && x.op == 7)) = true) : decVamo (encVamo c x) = .ok x := by
  simp only [Guards.awf, XCtl.wf, Guards.absent, Bool.and_eq_true] at h
  have hg := decGuards_enc 8 (by decide) (encVamo c x) x.g (by simp_all) (by simp_all) rfl rfl
  unfold decVamo
  rw [hg]
  simp (disch := first | decide | exact h.2 | exact h.1.2 | exact h.1.1.2 | exact h) only [encVamo, Fields.a, Fields.x, Fields.s, Fields.plain, ex_lo, ex_hi, ex_full, ex_zero, ok_bind, decS_enc, decVR_enc, decLQ_enc, decSQ_enc, decXQ_enc, decP_enc, decV_enc, decD_enc, decVS_enc, decR_enc, decCB_enc, decDQ_enc, decOLQ_enc, decOV_enc, decCond_enc, decFcond_enc, decScope_enc, decOkind_enc, decCsr_enc, decSHint_enc, decLHint_enc, decWd_enc, decWh_enc, decOrdAny_enc, decM_enc, decOrdLoad_enc, decOrdStore_enc, h, hint_reg, opd_true, beq_self_eq_true, Bool.and_self, Bool.or_true, Bool.true_or, Bool.true_and, Option.getD_some, rsv_true, ofBool_eq_one, -Nat.reduceAdd]
  rfl
theorem decPopx_encPopx (c : BitVec 12) (x : Popx) (h : (x.g.awf) = true) : decPopx (encPopx c x) = .ok x := by
  simp only [Guards.awf, XCtl.wf, Guards.absent, Bool.and_eq_true] at h
  have hg := decGuards_enc 8 (by decide) (encPopx c x) x.g (by simp_all) (by simp_all) rfl rfl
  unfold decPopx
  rw [hg]
  simp (disch := first | decide | exact h.2 | exact h.1.2 | exact h.1.1.2 | exact h) only [encPopx, Fields.a, Fields.x, Fields.s, Fields.plain, ex_lo, ex_hi, ex_full, ex_zero, ok_bind, decS_enc, decVR_enc, decLQ_enc, decSQ_enc, decXQ_enc, decP_enc, decV_enc, decD_enc, decVS_enc, decR_enc, decCB_enc, decDQ_enc, decOLQ_enc, decOV_enc, decCond_enc, decFcond_enc, decScope_enc, decOkind_enc, decCsr_enc, decSHint_enc, decLHint_enc, decWd_enc, decWh_enc, decOrdAny_enc, decM_enc, decOrdLoad_enc, decOrdStore_enc, h, hint_reg, opd_true, beq_self_eq_true, Bool.and_self, Bool.or_true, Bool.true_or, Bool.true_and, Option.getD_some, rsv_true, ofBool_eq_one, -Nat.reduceAdd]
  rfl
theorem decQdrop_encQdrop (c : BitVec 12) (x : Qdrop) (h : (x.g.awf) = true) : decQdrop (encQdrop c x) = .ok x := by
  simp only [Guards.awf, XCtl.wf, Guards.absent, Bool.and_eq_true] at h
  have hg := decGuards_enc 8 (by decide) (encQdrop c x) x.g (by simp_all) (by simp_all) rfl rfl
  unfold decQdrop
  rw [hg]
  simp (disch := first | decide | exact h.2 | exact h.1.2 | exact h.1.1.2 | exact h) only [encQdrop, Fields.a, Fields.x, Fields.s, Fields.plain, ex_lo, ex_hi, ex_full, ex_zero, ok_bind, decS_enc, decVR_enc, decLQ_enc, decSQ_enc, decXQ_enc, decP_enc, decV_enc, decD_enc, decVS_enc, decR_enc, decCB_enc, decDQ_enc, decOLQ_enc, decOV_enc, decCond_enc, decFcond_enc, decScope_enc, decOkind_enc, decCsr_enc, decSHint_enc, decLHint_enc, decWd_enc, decWh_enc, decOrdAny_enc, decM_enc, decOrdLoad_enc, decOrdStore_enc, h, hint_reg, opd_true, beq_self_eq_true, Bool.and_self, Bool.or_true, Bool.true_or, Bool.true_and, Option.getD_some, rsv_true, ofBool_eq_one, -Nat.reduceAdd]
  rfl
theorem decPcopy_encPcopy (c : BitVec 12) (x : Pcopy) (h : (x.g.awf) = true) : decPcopy (encPcopy c x) = .ok x := by
  simp only [Guards.awf, XCtl.wf, Guards.absent, Bool.and_eq_true] at h
  have hg := decGuards_enc 8 (by decide) (encPcopy c x) x.g (by simp_all) (by simp_all) rfl rfl
  unfold decPcopy
  rw [hg]
  simp (disch := first | decide | exact h.2 | exact h.1.2 | exact h.1.1.2 | exact h) only [encPcopy, Fields.a, Fields.x, Fields.s, Fields.plain, ex_lo, ex_hi, ex_full, ex_zero, ok_bind, decS_enc, decVR_enc, decLQ_enc, decSQ_enc, decXQ_enc, decP_enc, decV_enc, decD_enc, decVS_enc, decR_enc, decCB_enc, decDQ_enc, decOLQ_enc, decOV_enc, decCond_enc, decFcond_enc, decScope_enc, decOkind_enc, decCsr_enc, decSHint_enc, decLHint_enc, decWd_enc, decWh_enc, decOrdAny_enc, decM_enc, decOrdLoad_enc, decOrdStore_enc, h, hint_reg, opd_true, beq_self_eq_true, Bool.and_self, Bool.or_true, Bool.true_or, Bool.true_and, Option.getD_some, rsv_true, ofBool_eq_one, -Nat.reduceAdd]
  rfl
theorem decPdec_encPdec (c : BitVec 12) (x : Pdec) (h : (x.g.awf) = true) : decPdec (encPdec c x) = .ok x := by
  simp only [Guards.awf, XCtl.wf, Guards.absent, Bool.and_eq_true] at h
  have hg := decGuards_enc 8 (by decide) (encPdec c x) x.g (by simp_all) (by simp_all) rfl rfl
  unfold decPdec
  rw [hg]
  simp (disch := first | decide | exact h.2 | exact h.1.2 | exact h.1.1.2 | exact h) only [encPdec, Fields.a, Fields.x, Fields.s, Fields.plain, ex_lo, ex_hi, ex_full, ex_zero, ok_bind, decS_enc, decVR_enc, decLQ_enc, decSQ_enc, decXQ_enc, decP_enc, decV_enc, decD_enc, decVS_enc, decR_enc, decCB_enc, decDQ_enc, decOLQ_enc, decOV_enc, decCond_enc, decFcond_enc, decScope_enc, decOkind_enc, decCsr_enc, decSHint_enc, decLHint_enc, decWd_enc, decWh_enc, decOrdAny_enc, decM_enc, decOrdLoad_enc, decOrdStore_enc, h, hint_reg, opd_true, beq_self_eq_true, Bool.and_self, Bool.or_true, Bool.true_or, Bool.true_and, Option.getD_some, rsv_true, ofBool_eq_one, -Nat.reduceAdd]
  rfl
theorem decPfill_encPfill (c : BitVec 12) (x : Pfill) (h : (x.g.awf) = true) : decPfill (encPfill c x) = .ok x := by
  simp only [Guards.awf, XCtl.wf, Guards.absent, Bool.and_eq_true] at h
  have hg := decGuards_enc 8 (by decide) (encPfill c x) x.g (by simp_all) (by simp_all) rfl rfl
  unfold decPfill
  rw [hg]
  simp (disch := first | decide | exact h.2 | exact h.1.2 | exact h.1.1.2 | exact h) only [encPfill, Fields.a, Fields.x, Fields.s, Fields.plain, ex_lo, ex_hi, ex_full, ex_zero, ok_bind, decS_enc, decVR_enc, decLQ_enc, decSQ_enc, decXQ_enc, decP_enc, decV_enc, decD_enc, decVS_enc, decR_enc, decCB_enc, decDQ_enc, decOLQ_enc, decOV_enc, decCond_enc, decFcond_enc, decScope_enc, decOkind_enc, decCsr_enc, decSHint_enc, decLHint_enc, decWd_enc, decWh_enc, decOrdAny_enc, decM_enc, decOrdLoad_enc, decOrdStore_enc, h, hint_reg, opd_true, beq_self_eq_true, Bool.and_self, Bool.or_true, Bool.true_or, Bool.true_and, Option.getD_some, rsv_true, ofBool_eq_one, -Nat.reduceAdd]
  rfl
theorem decTmask2_encTmask2 (c : BitVec 12) (x : Tmask2) (h : (x.g.awf) = true) : decTmask2 (encTmask2 c x) = .ok x := by
  simp only [Guards.awf, XCtl.wf, Guards.absent, Bool.and_eq_true] at h
  have hg := decGuards_enc 8 (by decide) (encTmask2 c x) x.g (by simp_all) (by simp_all) rfl rfl
  unfold decTmask2
  rw [hg]
  simp (disch := first | decide | exact h.2 | exact h.1.2 | exact h.1.1.2 | exact h) only [encTmask2, Fields.a, Fields.x, Fields.s, Fields.plain, ex_lo, ex_hi, ex_full, ex_zero, ok_bind, decS_enc, decVR_enc, decLQ_enc, decSQ_enc, decXQ_enc, decP_enc, decV_enc, decD_enc, decVS_enc, decR_enc, decCB_enc, decDQ_enc, decOLQ_enc, decOV_enc, decCond_enc, decFcond_enc, decScope_enc, decOkind_enc, decCsr_enc, decSHint_enc, decLHint_enc, decWd_enc, decWh_enc, decOrdAny_enc, decM_enc, decOrdLoad_enc, decOrdStore_enc, h, hint_reg, opd_true, beq_self_eq_true, Bool.and_self, Bool.or_true, Bool.true_or, Bool.true_and, Option.getD_some, rsv_true, ofBool_eq_one, -Nat.reduceAdd]
  rfl
theorem decTmask_encTmask (c : BitVec 12) (x : Tmask) (h : (x.g.awf) = true) : decTmask (encTmask c x) = .ok x := by
  simp only [Guards.awf, XCtl.wf, Guards.absent, Bool.and_eq_true] at h
  have hg := decGuards_enc 8 (by decide) (encTmask c x) x.g (by simp_all) (by simp_all) rfl rfl
  unfold decTmask
  rw [hg]
  simp (disch := first | decide | exact h.2 | exact h.1.2 | exact h.1.1.2 | exact h) only [encTmask, Fields.a, Fields.x, Fields.s, Fields.plain, ex_lo, ex_hi, ex_full, ex_zero, ok_bind, decS_enc, decVR_enc, decLQ_enc, decSQ_enc, decXQ_enc, decP_enc, decV_enc, decD_enc, decVS_enc, decR_enc, decCB_enc, decDQ_enc, decOLQ_enc, decOV_enc, decCond_enc, decFcond_enc, decScope_enc, decOkind_enc, decCsr_enc, decSHint_enc, decLHint_enc, decWd_enc, decWh_enc, decOrdAny_enc, decM_enc, decOrdLoad_enc, decOrdStore_enc, h, hint_reg, opd_true, beq_self_eq_true, Bool.and_self, Bool.or_true, Bool.true_or, Bool.true_and, Option.getD_some, rsv_true, ofBool_eq_one, -Nat.reduceAdd]
  rfl
theorem decTfind_encTfind (c : BitVec 12) (x : Tfind) (h : (x.g.awf) = true) : decTfind (encTfind c x) = .ok x := by
  simp only [Guards.awf, XCtl.wf, Guards.absent, Bool.and_eq_true] at h
  have hg := decGuards_enc 8 (by decide) (encTfind c x) x.g (by simp_all) (by simp_all) rfl rfl
  unfold decTfind
  rw [hg]
  simp (disch := first | decide | exact h.2 | exact h.1.2 | exact h.1.1.2 | exact h) only [encTfind, Fields.a, Fields.x, Fields.s, Fields.plain, ex_lo, ex_hi, ex_full, ex_zero, ok_bind, decS_enc, decVR_enc, decLQ_enc, decSQ_enc, decXQ_enc, decP_enc, decV_enc, decD_enc, decVS_enc, decR_enc, decCB_enc, decDQ_enc, decOLQ_enc, decOV_enc, decCond_enc, decFcond_enc, decScope_enc, decOkind_enc, decCsr_enc, decSHint_enc, decLHint_enc, decWd_enc, decWh_enc, decOrdAny_enc, decM_enc, decOrdLoad_enc, decOrdStore_enc, h, hint_reg, opd_true, beq_self_eq_true, Bool.and_self, Bool.or_true, Bool.true_or, Bool.true_and, Option.getD_some, rsv_true, ofBool_eq_one, -Nat.reduceAdd]
  rfl
theorem decNbadd_encNbadd (c : BitVec 12) (x : Nbadd) (h : (x.g.awf && x.i != x.u) = true) : decNbadd (encNbadd c x) = .ok x := by
  simp only [Guards.awf, XCtl.wf, Guards.absent, Bool.and_eq_true] at h
  have hg := decGuards_enc 8 (by decide) (encNbadd c x) x.g (by simp_all) (by simp_all) rfl rfl
  unfold decNbadd
  rw [hg]
  simp (disch := first | decide | exact h.2 | exact h.1.2 | exact h.1.1.2 | exact h) only [encNbadd, Fields.a, Fields.x, Fields.s, Fields.plain, ex_lo, ex_hi, ex_full, ex_zero, ok_bind, decS_enc, decVR_enc, decLQ_enc, decSQ_enc, decXQ_enc, decP_enc, decV_enc, decD_enc, decVS_enc, decR_enc, decCB_enc, decDQ_enc, decOLQ_enc, decOV_enc, decCond_enc, decFcond_enc, decScope_enc, decOkind_enc, decCsr_enc, decSHint_enc, decLHint_enc, decWd_enc, decWh_enc, decOrdAny_enc, decM_enc, decOrdLoad_enc, decOrdStore_enc, h, hint_reg, opd_true, beq_self_eq_true, Bool.and_self, Bool.or_true, Bool.true_or, Bool.true_and, Option.getD_some, rsv_true, ofBool_eq_one, -Nat.reduceAdd]
  rfl
theorem decNbopt_encNbopt (c : BitVec 12) (x : Nbopt) (h : (x.g.awf && x.i != x.gr) = true) : decNbopt (encNbopt c x) = .ok x := by
  simp only [Guards.awf, XCtl.wf, Guards.absent, Bool.and_eq_true] at h
  have hg := decGuards_enc 8 (by decide) (encNbopt c x) x.g (by simp_all) (by simp_all) rfl rfl
  unfold decNbopt
  rw [hg]
  simp (disch := first | decide | exact h.2 | exact h.1.2 | exact h.1.1.2 | exact h) only [encNbopt, Fields.a, Fields.x, Fields.s, Fields.plain, ex_lo, ex_hi, ex_full, ex_zero, ok_bind, decS_enc, decVR_enc, decLQ_enc, decSQ_enc, decXQ_enc, decP_enc, decV_enc, decD_enc, decVS_enc, decR_enc, decCB_enc, decDQ_enc, decOLQ_enc, decOV_enc, decCond_enc, decFcond_enc, decScope_enc, decOkind_enc, decCsr_enc, decSHint_enc, decLHint_enc, decWd_enc, decWh_enc, decOrdAny_enc, decM_enc, decOrdLoad_enc, decOrdStore_enc, h, hint_reg, opd_true, beq_self_eq_true, Bool.and_self, Bool.or_true, Bool.true_or, Bool.true_and, Option.getD_some, rsv_true, ofBool_eq_one, -Nat.reduceAdd]
  rfl
theorem decSfpool_encSfpool (c : BitVec 12) (x : Sfpool) (h : (x.g.awf) = true) : decSfpool (encSfpool c x) = .ok x := by
  simp only [Guards.awf, XCtl.wf, Guards.absent, Bool.and_eq_true] at h
  have hg := decGuards_enc 8 (by decide) (encSfpool c x) x.g (by simp_all) (by simp_all) rfl rfl
  unfold decSfpool
  rw [hg]
  simp (disch := first | decide | exact h.2 | exact h.1.2 | exact h.1.1.2 | exact h) only [encSfpool, Fields.a, Fields.x, Fields.s, Fields.plain, ex_lo, ex_hi, ex_full, ex_zero, ok_bind, decS_enc, decVR_enc, decLQ_enc, decSQ_enc, decXQ_enc, decP_enc, decV_enc, decD_enc, decVS_enc, decR_enc, decCB_enc, decDQ_enc, decOLQ_enc, decOV_enc, decCond_enc, decFcond_enc, decScope_enc, decOkind_enc, decCsr_enc, decSHint_enc, decLHint_enc, decWd_enc, decWh_enc, decOrdAny_enc, decM_enc, decOrdLoad_enc, decOrdStore_enc, h, hint_reg, opd_true, beq_self_eq_true, Bool.and_self, Bool.or_true, Bool.true_or, Bool.true_and, Option.getD_some, rsv_true, ofBool_eq_one, -Nat.reduceAdd]
  rfl
theorem decRhopen_encRhopen (c : BitVec 12) (x : Rhopen) (h : (x.g.awf) = true) : decRhopen (encRhopen c x) = .ok x := by
  simp only [Guards.awf, XCtl.wf, Guards.absent, Bool.and_eq_true] at h
  have hg := decGuards_enc 8 (by decide) (encRhopen c x) x.g (by simp_all) (by simp_all) rfl rfl
  unfold decRhopen
  rw [hg]
  simp (disch := first | decide | exact h.2 | exact h.1.2 | exact h.1.1.2 | exact h) only [encRhopen, Fields.a, Fields.x, Fields.s, Fields.plain, ex_lo, ex_hi, ex_full, ex_zero, ok_bind, decS_enc, decVR_enc, decLQ_enc, decSQ_enc, decXQ_enc, decP_enc, decV_enc, decD_enc, decVS_enc, decR_enc, decCB_enc, decDQ_enc, decOLQ_enc, decOV_enc, decCond_enc, decFcond_enc, decScope_enc, decOkind_enc, decCsr_enc, decSHint_enc, decLHint_enc, decWd_enc, decWh_enc, decOrdAny_enc, decM_enc, decOrdLoad_enc, decOrdStore_enc, h, hint_reg, opd_true, beq_self_eq_true, Bool.and_self, Bool.or_true, Bool.true_or, Bool.true_and, Option.getD_some, rsv_true, ofBool_eq_one, -Nat.reduceAdd]
  rfl
theorem decRhprio_encRhprio (c : BitVec 12) (x : Rhprio) (h : (x.g.awf) = true) : decRhprio (encRhprio c x) = .ok x := by
  simp only [Guards.awf, XCtl.wf, Guards.absent, Bool.and_eq_true] at h
  have hg := decGuards_enc 8 (by decide) (encRhprio c x) x.g (by simp_all) (by simp_all) rfl rfl
  unfold decRhprio
  rw [hg]
  simp (disch := first | decide | exact h.2 | exact h.1.2 | exact h.1.1.2 | exact h) only [encRhprio, Fields.a, Fields.x, Fields.s, Fields.plain, ex_lo, ex_hi, ex_full, ex_zero, ok_bind, decS_enc, decVR_enc, decLQ_enc, decSQ_enc, decXQ_enc, decP_enc, decV_enc, decD_enc, decVS_enc, decR_enc, decCB_enc, decDQ_enc, decOLQ_enc, decOV_enc, decCond_enc, decFcond_enc, decScope_enc, decOkind_enc, decCsr_enc, decSHint_enc, decLHint_enc, decWd_enc, decWh_enc, decOrdAny_enc, decM_enc, decOrdLoad_enc, decOrdStore_enc, h, hint_reg, opd_true, beq_self_eq_true, Bool.and_self, Bool.or_true, Bool.true_or, Bool.true_and, Option.getD_some, rsv_true, ofBool_eq_one, -Nat.reduceAdd]
  rfl
theorem decRhbit_encRhbit (c : BitVec 12) (x : Rhbit) (h : (x.g.awf) = true) : decRhbit (encRhbit c x) = .ok x := by
  simp only [Guards.awf, XCtl.wf, Guards.absent, Bool.and_eq_true] at h
  have hg := decGuards_enc 8 (by decide) (encRhbit c x) x.g (by simp_all) (by simp_all) rfl rfl
  unfold decRhbit
  rw [hg]
  simp (disch := first | decide | exact h.2 | exact h.1.2 | exact h.1.1.2 | exact h) only [encRhbit, Fields.a, Fields.x, Fields.s, Fields.plain, ex_lo, ex_hi, ex_full, ex_zero, ok_bind, decS_enc, decVR_enc, decLQ_enc, decSQ_enc, decXQ_enc, decP_enc, decV_enc, decD_enc, decVS_enc, decR_enc, decCB_enc, decDQ_enc, decOLQ_enc, decOV_enc, decCond_enc, decFcond_enc, decScope_enc, decOkind_enc, decCsr_enc, decSHint_enc, decLHint_enc, decWd_enc, decWh_enc, decOrdAny_enc, decM_enc, decOrdLoad_enc, decOrdStore_enc, h, hint_reg, opd_true, beq_self_eq_true, Bool.and_self, Bool.or_true, Bool.true_or, Bool.true_and, Option.getD_some, rsv_true, ofBool_eq_one, -Nat.reduceAdd]
  rfl
theorem decGong_encGong (c : BitVec 12) (x : Gong) (h : (x.g.awf) = true) : decGong (encGong c x) = .ok x := by
  simp only [Guards.awf, XCtl.wf, Guards.absent, Bool.and_eq_true] at h
  have hg := decGuards_enc 8 (by decide) (encGong c x) x.g (by simp_all) (by simp_all) rfl rfl
  unfold decGong
  rw [hg]
  simp (disch := first | decide | exact h.2 | exact h.1.2 | exact h.1.1.2 | exact h) only [encGong, Fields.a, Fields.x, Fields.s, Fields.plain, ex_lo, ex_hi, ex_full, ex_zero, ok_bind, decS_enc, decVR_enc, decLQ_enc, decSQ_enc, decXQ_enc, decP_enc, decV_enc, decD_enc, decVS_enc, decR_enc, decCB_enc, decDQ_enc, decOLQ_enc, decOV_enc, decCond_enc, decFcond_enc, decScope_enc, decOkind_enc, decCsr_enc, decSHint_enc, decLHint_enc, decWd_enc, decWh_enc, decOrdAny_enc, decM_enc, decOrdLoad_enc, decOrdStore_enc, h, hint_reg, opd_true, beq_self_eq_true, Bool.and_self, Bool.or_true, Bool.true_or, Bool.true_and, Option.getD_some, rsv_true, ofBool_eq_one, -Nat.reduceAdd]
  rfl
theorem decPost_encPost (c : BitVec 12) (x : Post) (h : (x.g.awf) = true) : decPost (encPost c x) = .ok x := by
  simp only [Guards.awf, XCtl.wf, Guards.absent, Bool.and_eq_true] at h
  have hg := decGuards_enc 8 (by decide) (encPost c x) x.g (by simp_all) (by simp_all) rfl rfl
  unfold decPost
  rw [hg]
  simp (disch := first | decide | exact h.2 | exact h.1.2 | exact h.1.1.2 | exact h) only [encPost, Fields.a, Fields.x, Fields.s, Fields.plain, ex_lo, ex_hi, ex_full, ex_zero, ok_bind, decS_enc, decVR_enc, decLQ_enc, decSQ_enc, decXQ_enc, decP_enc, decV_enc, decD_enc, decVS_enc, decR_enc, decCB_enc, decDQ_enc, decOLQ_enc, decOV_enc, decCond_enc, decFcond_enc, decScope_enc, decOkind_enc, decCsr_enc, decSHint_enc, decLHint_enc, decWd_enc, decWh_enc, decOrdAny_enc, decM_enc, decOrdLoad_enc, decOrdStore_enc, h, hint_reg, opd_true, beq_self_eq_true, Bool.and_self, Bool.or_true, Bool.true_or, Bool.true_and, Option.getD_some, rsv_true, ofBool_eq_one, -Nat.reduceAdd]
  rfl
theorem decQnotify_encQnotify (c : BitVec 12) (x : Qnotify) (h : (x.g.awf) = true) : decQnotify (encQnotify c x) = .ok x := by
  simp only [Guards.awf, XCtl.wf, Guards.absent, Bool.and_eq_true] at h
  have hg := decGuards_enc 8 (by decide) (encQnotify c x) x.g (by simp_all) (by simp_all) rfl rfl
  unfold decQnotify
  rw [hg]
  simp (disch := first | decide | exact h.2 | exact h.1.2 | exact h.1.1.2 | exact h) only [encQnotify, Fields.a, Fields.x, Fields.s, Fields.plain, ex_lo, ex_hi, ex_full, ex_zero, ok_bind, decS_enc, decVR_enc, decLQ_enc, decSQ_enc, decXQ_enc, decP_enc, decV_enc, decD_enc, decVS_enc, decR_enc, decCB_enc, decDQ_enc, decOLQ_enc, decOV_enc, decCond_enc, decFcond_enc, decScope_enc, decOkind_enc, decCsr_enc, decSHint_enc, decLHint_enc, decWd_enc, decWh_enc, decOrdAny_enc, decM_enc, decOrdLoad_enc, decOrdStore_enc, h, hint_reg, opd_true, beq_self_eq_true, Bool.and_self, Bool.or_true, Bool.true_or, Bool.true_and, Option.getD_some, rsv_true, ofBool_eq_one, -Nat.reduceAdd]
  rfl
theorem decAcset_encAcset (c : BitVec 12) (x : Acset) (h : (x.g.awf) = true) : decAcset (encAcset c x) = .ok x := by
  simp only [Guards.awf, XCtl.wf, Guards.absent, Bool.and_eq_true] at h
  have hg := decGuards_enc 8 (by decide) (encAcset c x) x.g (by simp_all) (by simp_all) rfl rfl
  unfold decAcset
  rw [hg]
  simp (disch := first | decide | exact h.2 | exact h.1.2 | exact h.1.1.2 | exact h) only [encAcset, Fields.a, Fields.x, Fields.s, Fields.plain, ex_lo, ex_hi, ex_full, ex_zero, ok_bind, decS_enc, decVR_enc, decLQ_enc, decSQ_enc, decXQ_enc, decP_enc, decV_enc, decD_enc, decVS_enc, decR_enc, decCB_enc, decDQ_enc, decOLQ_enc, decOV_enc, decCond_enc, decFcond_enc, decScope_enc, decOkind_enc, decCsr_enc, decSHint_enc, decLHint_enc, decWd_enc, decWh_enc, decOrdAny_enc, decM_enc, decOrdLoad_enc, decOrdStore_enc, h, hint_reg, opd_true, beq_self_eq_true, Bool.and_self, Bool.or_true, Bool.true_or, Bool.true_and, Option.getD_some, rsv_true, ofBool_eq_one, -Nat.reduceAdd]
  rfl
theorem decAcwait_encAcwait (c : BitVec 12) (x : Acwait) (h : (x.g.awf) = true) : decAcwait (encAcwait c x) = .ok x := by
  simp only [Guards.awf, XCtl.wf, Guards.absent, Bool.and_eq_true] at h
  have hg := decGuards_enc 8 (by decide) (encAcwait c x) x.g (by simp_all) (by simp_all) rfl rfl
  unfold decAcwait
  rw [hg]
  simp (disch := first | decide | exact h.2 | exact h.1.2 | exact h.1.1.2 | exact h) only [encAcwait, Fields.a, Fields.x, Fields.s, Fields.plain, ex_lo, ex_hi, ex_full, ex_zero, ok_bind, decS_enc, decVR_enc, decLQ_enc, decSQ_enc, decXQ_enc, decP_enc, decV_enc, decD_enc, decVS_enc, decR_enc, decCB_enc, decDQ_enc, decOLQ_enc, decOV_enc, decCond_enc, decFcond_enc, decScope_enc, decOkind_enc, decCsr_enc, decSHint_enc, decLHint_enc, decWd_enc, decWh_enc, decOrdAny_enc, decM_enc, decOrdLoad_enc, decOrdStore_enc, h, hint_reg, opd_true, beq_self_eq_true, Bool.and_self, Bool.or_true, Bool.true_or, Bool.true_and, Option.getD_some, rsv_true, ofBool_eq_one, -Nat.reduceAdd]
  rfl
theorem decClred_encClred (c : BitVec 12) (x : Clred) (h : (x.g.awf && (x.rootOnly || x.root == 0) && !(x.dbl && x.op == 0)) = true) : decClred (encClred c x) = .ok x := by
  simp only [Guards.awf, XCtl.wf, Guards.absent, Bool.and_eq_true] at h
  have hg := decGuards_enc 8 (by decide) (encClred c x) x.g (by simp_all) (by simp_all) rfl rfl
  unfold decClred
  rw [hg]
  simp (disch := first | decide | exact h.2 | exact h.1.2 | exact h.1.1.2 | exact h) only [encClred, Fields.a, Fields.x, Fields.s, Fields.plain, ex_lo, ex_hi, ex_full, ex_zero, ok_bind, decS_enc, decVR_enc, decLQ_enc, decSQ_enc, decXQ_enc, decP_enc, decV_enc, decD_enc, decVS_enc, decR_enc, decCB_enc, decDQ_enc, decOLQ_enc, decOV_enc, decCond_enc, decFcond_enc, decScope_enc, decOkind_enc, decCsr_enc, decSHint_enc, decLHint_enc, decWd_enc, decWh_enc, decOrdAny_enc, decM_enc, decOrdLoad_enc, decOrdStore_enc, h, hint_reg, opd_true, beq_self_eq_true, Bool.and_self, Bool.or_true, Bool.true_or, Bool.true_and, Option.getD_some, rsv_true, ofBool_eq_one, -Nat.reduceAdd]
  rfl
theorem decWBin_encWBin (c : BitVec 12) (x : WBin) (h : (x.x.wf && VSrc.apart x.a x.b) = true) : decWBin (encWBin c x) = .ok x := by
  simp only [Guards.awf, XCtl.wf, Guards.absent, Bool.and_eq_true] at h
  have hg := decGuards_enc 24 (by decide) (encWBin c x) x.x.g (by simp_all) (by simp_all) rfl rfl
  unfold decWBin
  rw [hg]
  simp (disch := first | decide | exact h.2 | exact h.1.2 | exact h.1.1.2 | exact h) only [encWBin, Fields.a, Fields.x, Fields.s, Fields.plain, ex_lo, ex_hi, ex_full, ex_zero, ok_bind, decS_enc, decVR_enc, decLQ_enc, decSQ_enc, decXQ_enc, decP_enc, decV_enc, decD_enc, decVS_enc, decR_enc, decCB_enc, decDQ_enc, decOLQ_enc, decOV_enc, decCond_enc, decFcond_enc, decScope_enc, decOkind_enc, decCsr_enc, decSHint_enc, decLHint_enc, decWd_enc, decWh_enc, decOrdAny_enc, decM_enc, decOrdLoad_enc, decOrdStore_enc, h, hint_reg, opd_true, beq_self_eq_true, Bool.and_self, Bool.or_true, Bool.true_or, Bool.true_and, Option.getD_some, rsv_true, ofBool_eq_one, -Nat.reduceAdd]
  rfl
theorem decWImm_encWImm (c : BitVec 12) (x : WImm) (h : (x.x.wf) = true) : decWImm (encWImm c x) = .ok x := by
  simp only [Guards.awf, XCtl.wf, Guards.absent, Bool.and_eq_true] at h
  have hg := decGuards_enc 24 (by decide) (encWImm c x) x.x.g (by simp_all) (by simp_all) rfl rfl
  unfold decWImm
  rw [hg]
  simp (disch := first | decide | exact h.2 | exact h.1.2 | exact h.1.1.2 | exact h) only [encWImm, Fields.a, Fields.x, Fields.s, Fields.plain, ex_lo, ex_hi, ex_full, ex_zero, ok_bind, decS_enc, decVR_enc, decLQ_enc, decSQ_enc, decXQ_enc, decP_enc, decV_enc, decD_enc, decVS_enc, decR_enc, decCB_enc, decDQ_enc, decOLQ_enc, decOV_enc, decCond_enc, decFcond_enc, decScope_enc, decOkind_enc, decCsr_enc, decSHint_enc, decLHint_enc, decWd_enc, decWh_enc, decOrdAny_enc, decM_enc, decOrdLoad_enc, decOrdStore_enc, h, hint_reg, opd_true, beq_self_eq_true, Bool.and_self, Bool.or_true, Bool.true_or, Bool.true_and, Option.getD_some, rsv_true, ofBool_eq_one, -Nat.reduceAdd]
  rfl
theorem decVmac_encVmac (c : BitVec 12) (x : Vmac) (h : (x.x.wf && VSrc.apart x.a x.b) = true) : decVmac (encVmac c x) = .ok x := by
  simp only [Guards.awf, XCtl.wf, Guards.absent, Bool.and_eq_true] at h
  have hg := decGuards_enc 24 (by decide) (encVmac c x) x.x.g (by simp_all) (by simp_all) rfl rfl
  unfold decVmac
  rw [hg]
  simp (disch := first | decide | exact h.2 | exact h.1.2 | exact h.1.1.2 | exact h) only [encVmac, Fields.a, Fields.x, Fields.s, Fields.plain, ex_lo, ex_hi, ex_full, ex_zero, ok_bind, decS_enc, decVR_enc, decLQ_enc, decSQ_enc, decXQ_enc, decP_enc, decV_enc, decD_enc, decVS_enc, decR_enc, decCB_enc, decDQ_enc, decOLQ_enc, decOV_enc, decCond_enc, decFcond_enc, decScope_enc, decOkind_enc, decCsr_enc, decSHint_enc, decLHint_enc, decWd_enc, decWh_enc, decOrdAny_enc, decM_enc, decOrdLoad_enc, decOrdStore_enc, h, hint_reg, opd_true, beq_self_eq_true, Bool.and_self, Bool.or_true, Bool.true_or, Bool.true_and, Option.getD_some, rsv_true, ofBool_eq_one, -Nat.reduceAdd]
  rfl
theorem decVdot2_encVdot2 (c : BitVec 12) (x : Vdot2) (h : (x.x.wf) = true) : decVdot2 (encVdot2 c x) = .ok x := by
  simp only [Guards.awf, XCtl.wf, Guards.absent, Bool.and_eq_true] at h
  have hg := decGuards_enc 24 (by decide) (encVdot2 c x) x.x.g (by simp_all) (by simp_all) rfl rfl
  unfold decVdot2
  rw [hg]
  simp (disch := first | decide | exact h.2 | exact h.1.2 | exact h.1.1.2 | exact h) only [encVdot2, Fields.a, Fields.x, Fields.s, Fields.plain, ex_lo, ex_hi, ex_full, ex_zero, ok_bind, decS_enc, decVR_enc, decLQ_enc, decSQ_enc, decXQ_enc, decP_enc, decV_enc, decD_enc, decVS_enc, decR_enc, decCB_enc, decDQ_enc, decOLQ_enc, decOV_enc, decCond_enc, decFcond_enc, decScope_enc, decOkind_enc, decCsr_enc, decSHint_enc, decLHint_enc, decWd_enc, decWh_enc, decOrdAny_enc, decM_enc, decOrdLoad_enc, decOrdStore_enc, h, hint_reg, opd_true, beq_self_eq_true, Bool.and_self, Bool.or_true, Bool.true_or, Bool.true_and, Option.getD_some, rsv_true, ofBool_eq_one, -Nat.reduceAdd]
  rfl
theorem decWUn_encWUn (c : BitVec 12) (x : WUn) (h : (x.x.wf) = true) : decWUn (encWUn c x) = .ok x := by
  simp only [Guards.awf, XCtl.wf, Guards.absent, Bool.and_eq_true] at h
  have hg := decGuards_enc 24 (by decide) (encWUn c x) x.x.g (by simp_all) (by simp_all) rfl rfl
  unfold decWUn
  rw [hg]
  simp (disch := first | decide | exact h.2 | exact h.1.2 | exact h.1.1.2 | exact h) only [encWUn, Fields.a, Fields.x, Fields.s, Fields.plain, ex_lo, ex_hi, ex_full, ex_zero, ok_bind, decS_enc, decVR_enc, decLQ_enc, decSQ_enc, decXQ_enc, decP_enc, decV_enc, decD_enc, decVS_enc, decR_enc, decCB_enc, decDQ_enc, decOLQ_enc, decOV_enc, decCond_enc, decFcond_enc, decScope_enc, decOkind_enc, decCsr_enc, decSHint_enc, decLHint_enc, decWd_enc, decWh_enc, decOrdAny_enc, decM_enc, decOrdLoad_enc, decOrdStore_enc, h, hint_reg, opd_true, beq_self_eq_true, Bool.and_self, Bool.or_true, Bool.true_or, Bool.true_and, Option.getD_some, rsv_true, ofBool_eq_one, -Nat.reduceAdd]
  rfl
theorem decVsrar_encVsrar (c : BitVec 12) (x : Vsrar) (h : (x.x.wf) = true) : decVsrar (encVsrar c x) = .ok x := by
  simp only [Guards.awf, XCtl.wf, Guards.absent, Bool.and_eq_true] at h
  have hg := decGuards_enc 24 (by decide) (encVsrar c x) x.x.g (by simp_all) (by simp_all) rfl rfl
  unfold decVsrar
  rw [hg]
  simp (disch := first | decide | exact h.2 | exact h.1.2 | exact h.1.1.2 | exact h) only [encVsrar, Fields.a, Fields.x, Fields.s, Fields.plain, ex_lo, ex_hi, ex_full, ex_zero, ok_bind, decS_enc, decVR_enc, decLQ_enc, decSQ_enc, decXQ_enc, decP_enc, decV_enc, decD_enc, decVS_enc, decR_enc, decCB_enc, decDQ_enc, decOLQ_enc, decOV_enc, decCond_enc, decFcond_enc, decScope_enc, decOkind_enc, decCsr_enc, decSHint_enc, decLHint_enc, decWd_enc, decWh_enc, decOrdAny_enc, decM_enc, decOrdLoad_enc, decOrdStore_enc, h, hint_reg, opd_true, beq_self_eq_true, Bool.and_self, Bool.or_true, Bool.true_or, Bool.true_and, Option.getD_some, rsv_true, ofBool_eq_one, -Nat.reduceAdd]
  rfl
theorem decVsel_encVsel (c : BitVec 12) (x : Vsel) (h : (x.x.wf && mwf x.m && VSrc.apart x.a x.b) = true) : decVsel (encVsel c x) = .ok x := by
  simp only [Guards.awf, XCtl.wf, Guards.absent, Bool.and_eq_true] at h
  have hg := decGuards_enc 24 (by decide) (encVsel c x) x.x.g (by simp_all) (by simp_all) rfl rfl
  unfold decVsel
  rw [hg]
  simp (disch := first | decide | exact h.2 | exact h.1.2 | exact h.1.1.2 | exact h) only [encVsel, Fields.a, Fields.x, Fields.s, Fields.plain, ex_lo, ex_hi, ex_full, ex_zero, ok_bind, decS_enc, decVR_enc, decLQ_enc, decSQ_enc, decXQ_enc, decP_enc, decV_enc, decD_enc, decVS_enc, decR_enc, decCB_enc, decDQ_enc, decOLQ_enc, decOV_enc, decCond_enc, decFcond_enc, decScope_enc, decOkind_enc, decCsr_enc, decSHint_enc, decLHint_enc, decWd_enc, decWh_enc, decOrdAny_enc, decM_enc, decOrdLoad_enc, decOrdStore_enc, h, hint_reg, opd_true, beq_self_eq_true, Bool.and_self, Bool.or_true, Bool.true_or, Bool.true_and, Option.getD_some, rsv_true, ofBool_eq_one, -Nat.reduceAdd]
  rfl
theorem decWSca_encWSca (c : BitVec 12) (x : WSca) (h : (x.x.wf) = true) : decWSca (encWSca c x) = .ok x := by
  simp only [Guards.awf, XCtl.wf, Guards.absent, Bool.and_eq_true] at h
  have hg := decGuards_enc 24 (by decide) (encWSca c x) x.x.g (by simp_all) (by simp_all) rfl rfl
  unfold decWSca
  rw [hg]
  simp (disch := first | decide | exact h.2 | exact h.1.2 | exact h.1.1.2 | exact h) only [encWSca, Fields.a, Fields.x, Fields.s, Fields.plain, ex_lo, ex_hi, ex_full, ex_zero, ok_bind, decS_enc, decVR_enc, decLQ_enc, decSQ_enc, decXQ_enc, decP_enc, decV_enc, decD_enc, decVS_enc, decR_enc, decCB_enc, decDQ_enc, decOLQ_enc, decOV_enc, decCond_enc, decFcond_enc, decScope_enc, decOkind_enc, decCsr_enc, decSHint_enc, decLHint_enc, decWd_enc, decWh_enc, decOrdAny_enc, decM_enc, decOrdLoad_enc, decOrdStore_enc, h, hint_reg, opd_true, beq_self_eq_true, Bool.and_self, Bool.or_true, Bool.true_or, Bool.true_and, Option.getD_some, rsv_true, ofBool_eq_one, -Nat.reduceAdd]
  rfl
theorem decVsplatX_encVsplatX (c : BitVec 12) (x : VsplatX) (h : (x.x.wf) = true) : decVsplatX (encVsplatX c x) = .ok x := by
  simp only [Guards.awf, XCtl.wf, Guards.absent, Bool.and_eq_true] at h
  have hg := decGuards_enc 24 (by decide) (encVsplatX c x) x.x.g (by simp_all) (by simp_all) rfl rfl
  unfold decVsplatX
  rw [hg]
  simp (disch := first | decide | exact h.2 | exact h.1.2 | exact h.1.1.2 | exact h) only [encVsplatX, Fields.a, Fields.x, Fields.s, Fields.plain, ex_lo, ex_hi, ex_full, ex_zero, ok_bind, decS_enc, decVR_enc, decLQ_enc, decSQ_enc, decXQ_enc, decP_enc, decV_enc, decD_enc, decVS_enc, decR_enc, decCB_enc, decDQ_enc, decOLQ_enc, decOV_enc, decCond_enc, decFcond_enc, decScope_enc, decOkind_enc, decCsr_enc, decSHint_enc, decLHint_enc, decWd_enc, decWh_enc, decOrdAny_enc, decM_enc, decOrdLoad_enc, decOrdStore_enc, h, hint_reg, opd_true, beq_self_eq_true, Bool.and_self, Bool.or_true, Bool.true_or, Bool.true_and, Option.getD_some, rsv_true, ofBool_eq_one, -Nat.reduceAdd]
  rfl
theorem decViota_encViota (c : BitVec 12) (x : Viota) (h : (x.x.wf) = true) : decViota (encViota c x) = .ok x := by
  simp only [Guards.awf, XCtl.wf, Guards.absent, Bool.and_eq_true] at h
  have hg := decGuards_enc 24 (by decide) (encViota c x) x.x.g (by simp_all) (by simp_all) rfl rfl
  unfold decViota
  rw [hg]
  simp (disch := first | decide | exact h.2 | exact h.1.2 | exact h.1.1.2 | exact h) only [encViota, Fields.a, Fields.x, Fields.s, Fields.plain, ex_lo, ex_hi, ex_full, ex_zero, ok_bind, decS_enc, decVR_enc, decLQ_enc, decSQ_enc, decXQ_enc, decP_enc, decV_enc, decD_enc, decVS_enc, decR_enc, decCB_enc, decDQ_enc, decOLQ_enc, decOV_enc, decCond_enc, decFcond_enc, decScope_enc, decOkind_enc, decCsr_enc, decSHint_enc, decLHint_enc, decWd_enc, decWh_enc, decOrdAny_enc, decM_enc, decOrdLoad_enc, decOrdStore_enc, h, hint_reg, opd_true, beq_self_eq_true, Bool.and_self, Bool.or_true, Bool.true_or, Bool.true_and, Option.getD_some, rsv_true, ofBool_eq_one, -Nat.reduceAdd]
  rfl
theorem decFBin_encFBin (c : BitVec 12) (x : FBin) (h : (x.x.wf && VSrc.apart x.a x.b) = true) : decFBin (encFBin c x) = .ok x := by
  simp only [Guards.awf, XCtl.wf, Guards.absent, Bool.and_eq_true] at h
  have hg := decGuards_enc 24 (by decide) (encFBin c x) x.x.g (by simp_all) (by simp_all) rfl rfl
  unfold decFBin
  rw [hg]
  simp (disch := first | decide | exact h.2 | exact h.1.2 | exact h.1.1.2 | exact h) only [encFBin, Fields.a, Fields.x, Fields.s, Fields.plain, ex_lo, ex_hi, ex_full, ex_zero, ok_bind, decS_enc, decVR_enc, decLQ_enc, decSQ_enc, decXQ_enc, decP_enc, decV_enc, decD_enc, decVS_enc, decR_enc, decCB_enc, decDQ_enc, decOLQ_enc, decOV_enc, decCond_enc, decFcond_enc, decScope_enc, decOkind_enc, decCsr_enc, decSHint_enc, decLHint_enc, decWd_enc, decWh_enc, decOrdAny_enc, decM_enc, decOrdLoad_enc, decOrdStore_enc, h, hint_reg, opd_true, beq_self_eq_true, Bool.and_self, Bool.or_true, Bool.true_or, Bool.true_and, Option.getD_some, rsv_true, ofBool_eq_one, -Nat.reduceAdd]
  rfl
theorem decFImm_encFImm (c : BitVec 12) (x : FImm) (h : (x.x.wf) = true) : decFImm (encFImm c x) = .ok x := by
  simp only [Guards.awf, XCtl.wf, Guards.absent, Bool.and_eq_true] at h
  have hg := decGuards_enc 24 (by decide) (encFImm c x) x.x.g (by simp_all) (by simp_all) rfl rfl
  unfold decFImm
  rw [hg]
  simp (disch := first | decide | exact h.2 | exact h.1.2 | exact h.1.1.2 | exact h) only [encFImm, Fields.a, Fields.x, Fields.s, Fields.plain, ex_lo, ex_hi, ex_full, ex_zero, ok_bind, decS_enc, decVR_enc, decLQ_enc, decSQ_enc, decXQ_enc, decP_enc, decV_enc, decD_enc, decVS_enc, decR_enc, decCB_enc, decDQ_enc, decOLQ_enc, decOV_enc, decCond_enc, decFcond_enc, decScope_enc, decOkind_enc, decCsr_enc, decSHint_enc, decLHint_enc, decWd_enc, decWh_enc, decOrdAny_enc, decM_enc, decOrdLoad_enc, decOrdStore_enc, h, hint_reg, opd_true, beq_self_eq_true, Bool.and_self, Bool.or_true, Bool.true_or, Bool.true_and, Option.getD_some, rsv_true, ofBool_eq_one, -Nat.reduceAdd]
  rfl
theorem decVrmovt_encVrmovt (c : BitVec 12) (x : Vrmovt) (h : (x.x.wf) = true) : decVrmovt (encVrmovt c x) = .ok x := by
  simp only [Guards.awf, XCtl.wf, Guards.absent, Bool.and_eq_true] at h
  have hg := decGuards_enc 24 (by decide) (encVrmovt c x) x.x.g (by simp_all) (by simp_all) rfl rfl
  unfold decVrmovt
  rw [hg]
  simp (disch := first | decide | exact h.2 | exact h.1.2 | exact h.1.1.2 | exact h) only [encVrmovt, Fields.a, Fields.x, Fields.s, Fields.plain, ex_lo, ex_hi, ex_full, ex_zero, ok_bind, decS_enc, decVR_enc, decLQ_enc, decSQ_enc, decXQ_enc, decP_enc, decV_enc, decD_enc, decVS_enc, decR_enc, decCB_enc, decDQ_enc, decOLQ_enc, decOV_enc, decCond_enc, decFcond_enc, decScope_enc, decOkind_enc, decCsr_enc, decSHint_enc, decLHint_enc, decWd_enc, decWh_enc, decOrdAny_enc, decM_enc, decOrdLoad_enc, decOrdStore_enc, h, hint_reg, opd_true, beq_self_eq_true, Bool.and_self, Bool.or_true, Bool.true_or, Bool.true_and, Option.getD_some, rsv_true, ofBool_eq_one, -Nat.reduceAdd]
  rfl
theorem decVcmp_encVcmp (c : BitVec 12) (x : Vcmp) (h : (x.x.wf && mwf x.d && VSrcS.apart x.a x.b) = true) : decVcmp (encVcmp c x) = .ok x := by
  simp only [Guards.awf, XCtl.wf, Guards.absent, Bool.and_eq_true] at h
  have hg := decGuards_enc 24 (by decide) (encVcmp c x) x.x.g (by simp_all) (by simp_all) rfl rfl
  unfold decVcmp
  rw [hg]
  simp (disch := first | decide | exact h.2 | exact h.1.2 | exact h.1.1.2 | exact h) only [encVcmp, Fields.a, Fields.x, Fields.s, Fields.plain, ex_lo, ex_hi, ex_full, ex_zero, ok_bind, decS_enc, decVR_enc, decLQ_enc, decSQ_enc, decXQ_enc, decP_enc, decV_enc, decD_enc, decVS_enc, decR_enc, decCB_enc, decDQ_enc, decOLQ_enc, decOV_enc, decCond_enc, decFcond_enc, decScope_enc, decOkind_enc, decCsr_enc, decSHint_enc, decLHint_enc, decWd_enc, decWh_enc, decOrdAny_enc, decM_enc, decOrdLoad_enc, decOrdStore_enc, h, hint_reg, opd_true, beq_self_eq_true, Bool.and_self, Bool.or_true, Bool.true_or, Bool.true_and, Option.getD_some, rsv_true, ofBool_eq_one, -Nat.reduceAdd]
  rfl
theorem decVlbc_encVlbc (c : BitVec 12) (x : Vlbc) (h : (x.x.wf && mwf x.d) = true) : decVlbc (encVlbc c x) = .ok x := by
  simp only [Guards.awf, XCtl.wf, Guards.absent, Bool.and_eq_true] at h
  have hg := decGuards_enc 24 (by decide) (encVlbc c x) x.x.g (by simp_all) (by simp_all) rfl rfl
  unfold decVlbc
  rw [hg]
  simp (disch := first | decide | exact h.2 | exact h.1.2 | exact h.1.1.2 | exact h) only [encVlbc, Fields.a, Fields.x, Fields.s, Fields.plain, ex_lo, ex_hi, ex_full, ex_zero, ok_bind, decS_enc, decVR_enc, decLQ_enc, decSQ_enc, decXQ_enc, decP_enc, decV_enc, decD_enc, decVS_enc, decR_enc, decCB_enc, decDQ_enc, decOLQ_enc, decOV_enc, decCond_enc, decFcond_enc, decScope_enc, decOkind_enc, decCsr_enc, decSHint_enc, decLHint_enc, decWd_enc, decWh_enc, decOrdAny_enc, decM_enc, decOrdLoad_enc, decOrdStore_enc, h, hint_reg, opd_true, beq_self_eq_true, Bool.and_self, Bool.or_true, Bool.true_or, Bool.true_and, Option.getD_some, rsv_true, ofBool_eq_one, -Nat.reduceAdd]
  rfl
theorem decMlog_encMlog (c : BitVec 12) (x : Mlog) (h : (x.x.wf && mwf x.d && mwf x.a && mwf x.b) = true) : decMlog (encMlog c x) = .ok x := by
  simp only [Guards.awf, XCtl.wf, Guards.absent, Bool.and_eq_true] at h
  have hg := decGuards_enc 24 (by decide) (encMlog c x) x.x.g (by simp_all) (by simp_all) rfl rfl
  unfold decMlog
  rw [hg]
  simp (disch := first | decide | exact h.2 | exact h.1.2 | exact h.1.1.2 | exact h) only [encMlog, Fields.a, Fields.x, Fields.s, Fields.plain, ex_lo, ex_hi, ex_full, ex_zero, ok_bind, decS_enc, decVR_enc, decLQ_enc, decSQ_enc, decXQ_enc, decP_enc, decV_enc, decD_enc, decVS_enc, decR_enc, decCB_enc, decDQ_enc, decOLQ_enc, decOV_enc, decCond_enc, decFcond_enc, decScope_enc, decOkind_enc, decCsr_enc, decSHint_enc, decLHint_enc, decWd_enc, decWh_enc, decOrdAny_enc, decM_enc, decOrdLoad_enc, decOrdStore_enc, h, hint_reg, opd_true, beq_self_eq_true, Bool.and_self, Bool.or_true, Bool.true_or, Bool.true_and, Option.getD_some, rsv_true, ofBool_eq_one, -Nat.reduceAdd]
  rfl
theorem decMpush_encMpush (c : BitVec 12) (x : Mpush) (h : (x.x.wf && mwf x.m) = true) : decMpush (encMpush c x) = .ok x := by
  simp only [Guards.awf, XCtl.wf, Guards.absent, Bool.and_eq_true] at h
  have hg := decGuards_enc 24 (by decide) (encMpush c x) x.x.g (by simp_all) (by simp_all) rfl rfl
  unfold decMpush
  rw [hg]
  simp (disch := first | decide | exact h.2 | exact h.1.2 | exact h.1.1.2 | exact h) only [encMpush, Fields.a, Fields.x, Fields.s, Fields.plain, ex_lo, ex_hi, ex_full, ex_zero, ok_bind, decS_enc, decVR_enc, decLQ_enc, decSQ_enc, decXQ_enc, decP_enc, decV_enc, decD_enc, decVS_enc, decR_enc, decCB_enc, decDQ_enc, decOLQ_enc, decOV_enc, decCond_enc, decFcond_enc, decScope_enc, decOkind_enc, decCsr_enc, decSHint_enc, decLHint_enc, decWd_enc, decWh_enc, decOrdAny_enc, decM_enc, decOrdLoad_enc, decOrdStore_enc, h, hint_reg, opd_true, beq_self_eq_true, Bool.and_self, Bool.or_true, Bool.true_or, Bool.true_and, Option.getD_some, rsv_true, ofBool_eq_one, -Nat.reduceAdd]
  rfl
theorem decMpfx_encMpfx (c : BitVec 12) (x : Mpfx) (h : (x.x.wf && mwf x.m && x.z != 0) = true) : decMpfx (encMpfx c x) = .ok x := by
  simp only [Guards.awf, XCtl.wf, Guards.absent, Bool.and_eq_true] at h
  have hg := decGuards_enc 24 (by decide) (encMpfx c x) x.x.g (by simp_all) (by simp_all) rfl rfl
  unfold decMpfx
  rw [hg]
  simp (disch := first | decide | exact h.2 | exact h.1.2 | exact h.1.1.2 | exact h) only [encMpfx, Fields.a, Fields.x, Fields.s, Fields.plain, ex_lo, ex_hi, ex_full, ex_zero, ok_bind, decS_enc, decVR_enc, decLQ_enc, decSQ_enc, decXQ_enc, decP_enc, decV_enc, decD_enc, decVS_enc, decR_enc, decCB_enc, decDQ_enc, decOLQ_enc, decOV_enc, decCond_enc, decFcond_enc, decScope_enc, decOkind_enc, decCsr_enc, decSHint_enc, decLHint_enc, decWd_enc, decWh_enc, decOrdAny_enc, decM_enc, decOrdLoad_enc, decOrdStore_enc, h, hint_reg, opd_true, beq_self_eq_true, Bool.and_self, Bool.or_true, Bool.true_or, Bool.true_and, Option.getD_some, rsv_true, ofBool_eq_one, -Nat.reduceAdd]
  rfl
theorem decMffe_encMffe (c : BitVec 12) (x : Mffe) (h : (x.x.wf && mwf x.d) = true) : decMffe (encMffe c x) = .ok x := by
  simp only [Guards.awf, XCtl.wf, Guards.absent, Bool.and_eq_true] at h
  have hg := decGuards_enc 24 (by decide) (encMffe c x) x.x.g (by simp_all) (by simp_all) rfl rfl
  unfold decMffe
  rw [hg]
  simp (disch := first | decide | exact h.2 | exact h.1.2 | exact h.1.1.2 | exact h) only [encMffe, Fields.a, Fields.x, Fields.s, Fields.plain, ex_lo, ex_hi, ex_full, ex_zero, ok_bind, decS_enc, decVR_enc, decLQ_enc, decSQ_enc, decXQ_enc, decP_enc, decV_enc, decD_enc, decVS_enc, decR_enc, decCB_enc, decDQ_enc, decOLQ_enc, decOV_enc, decCond_enc, decFcond_enc, decScope_enc, decOkind_enc, decCsr_enc, decSHint_enc, decLHint_enc, decWd_enc, decWh_enc, decOrdAny_enc, decM_enc, decOrdLoad_enc, decOrdStore_enc, h, hint_reg, opd_true, beq_self_eq_true, Bool.and_self, Bool.or_true, Bool.true_or, Bool.true_and, Option.getD_some, rsv_true, ofBool_eq_one, -Nat.reduceAdd]
  rfl
theorem decSlide_encSlide (c : BitVec 12) (x : Slide) (h : (x.x.wf) = true) : decSlide (encSlide c x) = .ok x := by
  simp only [Guards.awf, XCtl.wf, Guards.absent, Bool.and_eq_true] at h
  have hg := decGuards_enc 24 (by decide) (encSlide c x) x.x.g (by simp_all) (by simp_all) rfl rfl
  unfold decSlide
  rw [hg]
  simp (disch := first | decide | exact h.2 | exact h.1.2 | exact h.1.1.2 | exact h) only [encSlide, Fields.a, Fields.x, Fields.s, Fields.plain, ex_lo, ex_hi, ex_full, ex_zero, ok_bind, decS_enc, decVR_enc, decLQ_enc, decSQ_enc, decXQ_enc, decP_enc, decV_enc, decD_enc, decVS_enc, decR_enc, decCB_enc, decDQ_enc, decOLQ_enc, decOV_enc, decCond_enc, decFcond_enc, decScope_enc, decOkind_enc, decCsr_enc, decSHint_enc, decLHint_enc, decWd_enc, decWh_enc, decOrdAny_enc, decM_enc, decOrdLoad_enc, decOrdStore_enc, h, hint_reg, opd_true, beq_self_eq_true, Bool.and_self, Bool.or_true, Bool.true_or, Bool.true_and, Option.getD_some, rsv_true, ofBool_eq_one, -Nat.reduceAdd]
  rfl
theorem decVpack_encVpack (c : BitVec 12) (x : Vpack) (h : (x.x.wf && mwf x.m) = true) : decVpack (encVpack c x) = .ok x := by
  simp only [Guards.awf, XCtl.wf, Guards.absent, Bool.and_eq_true] at h
  have hg := decGuards_enc 24 (by decide) (encVpack c x) x.x.g (by simp_all) (by simp_all) rfl rfl
  unfold decVpack
  rw [hg]
  simp (disch := first | decide | exact h.2 | exact h.1.2 | exact h.1.1.2 | exact h) only [encVpack, Fields.a, Fields.x, Fields.s, Fields.plain, ex_lo, ex_hi, ex_full, ex_zero, ok_bind, decS_enc, decVR_enc, decLQ_enc, decSQ_enc, decXQ_enc, decP_enc, decV_enc, decD_enc, decVS_enc, decR_enc, decCB_enc, decDQ_enc, decOLQ_enc, decOV_enc, decCond_enc, decFcond_enc, decScope_enc, decOkind_enc, decCsr_enc, decSHint_enc, decLHint_enc, decWd_enc, decWh_enc, decOrdAny_enc, decM_enc, decOrdLoad_enc, decOrdStore_enc, h, hint_reg, opd_true, beq_self_eq_true, Bool.and_self, Bool.or_true, Bool.true_or, Bool.true_and, Option.getD_some, rsv_true, ofBool_eq_one, -Nat.reduceAdd]
  rfl
theorem decVred_encVred (c : BitVec 12) (x : Vred) (h : (x.x.wf) = true) : decVred (encVred c x) = .ok x := by
  simp only [Guards.awf, XCtl.wf, Guards.absent, Bool.and_eq_true] at h
  have hg := decGuards_enc 24 (by decide) (encVred c x) x.x.g (by simp_all) (by simp_all) rfl rfl
  unfold decVred
  rw [hg]
  simp (disch := first | decide | exact h.2 | exact h.1.2 | exact h.1.1.2 | exact h) only [encVred, Fields.a, Fields.x, Fields.s, Fields.plain, ex_lo, ex_hi, ex_full, ex_zero, ok_bind, decS_enc, decVR_enc, decLQ_enc, decSQ_enc, decXQ_enc, decP_enc, decV_enc, decD_enc, decVS_enc, decR_enc, decCB_enc, decDQ_enc, decOLQ_enc, decOV_enc, decCond_enc, decFcond_enc, decScope_enc, decOkind_enc, decCsr_enc, decSHint_enc, decLHint_enc, decWd_enc, decWh_enc, decOrdAny_enc, decM_enc, decOrdLoad_enc, decOrdStore_enc, h, hint_reg, opd_true, beq_self_eq_true, Bool.and_self, Bool.or_true, Bool.true_or, Bool.true_and, Option.getD_some, rsv_true, ofBool_eq_one, -Nat.reduceAdd]
  rfl
theorem decVcomb_encVcomb (c : BitVec 12) (x : Vcomb) (h : (x.x.wf && mwf x.l && x.op != 3 && VSrc.apart x.k x.v) = true) : decVcomb (encVcomb c x) = .ok x := by
  simp only [Guards.awf, XCtl.wf, Guards.absent, Bool.and_eq_true] at h
  have hg := decGuards_enc 24 (by decide) (encVcomb c x) x.x.g (by simp_all) (by simp_all) rfl rfl
  unfold decVcomb
  rw [hg]
  simp (disch := first | decide | exact h.2 | exact h.1.2 | exact h.1.1.2 | exact h) only [encVcomb, Fields.a, Fields.x, Fields.s, Fields.plain, ex_lo, ex_hi, ex_full, ex_zero, ok_bind, decS_enc, decVR_enc, decLQ_enc, decSQ_enc, decXQ_enc, decP_enc, decV_enc, decD_enc, decVS_enc, decR_enc, decCB_enc, decDQ_enc, decOLQ_enc, decOV_enc, decCond_enc, decFcond_enc, decScope_enc, decOkind_enc, decCsr_enc, decSHint_enc, decLHint_enc, decWd_enc, decWh_enc, decOrdAny_enc, decM_enc, decOrdLoad_enc, decOrdStore_enc, h, hint_reg, opd_true, beq_self_eq_true, Bool.and_self, Bool.or_true, Bool.true_or, Bool.true_and, Option.getD_some, rsv_true, ofBool_eq_one, -Nat.reduceAdd]
  rfl
theorem decVsort_encVsort (c : BitVec 12) (x : Vsort) (h : (x.x.wf && VSrc.apart x.k x.v && VDst.apart x.kd x.vd) = true) : decVsort (encVsort c x) = .ok x := by
  simp only [Guards.awf, XCtl.wf, Guards.absent, Bool.and_eq_true] at h
  have hg := decGuards_enc 24 (by decide) (encVsort c x) x.x.g (by simp_all) (by simp_all) rfl rfl
  unfold decVsort
  rw [hg]
  simp (disch := first | decide | exact h.2 | exact h.1.2 | exact h.1.1.2 | exact h) only [encVsort, Fields.a, Fields.x, Fields.s, Fields.plain, ex_lo, ex_hi, ex_full, ex_zero, ok_bind, decS_enc, decVR_enc, decLQ_enc, decSQ_enc, decXQ_enc, decP_enc, decV_enc, decD_enc, decVS_enc, decR_enc, decCB_enc, decDQ_enc, decOLQ_enc, decOV_enc, decCond_enc, decFcond_enc, decScope_enc, decOkind_enc, decCsr_enc, decSHint_enc, decLHint_enc, decWd_enc, decWh_enc, decOrdAny_enc, decM_enc, decOrdLoad_enc, decOrdStore_enc, h, hint_reg, opd_true, beq_self_eq_true, Bool.and_self, Bool.or_true, Bool.true_or, Bool.true_and, Option.getD_some, rsv_true, ofBool_eq_one, -Nat.reduceAdd]
  rfl
theorem decVbcmp_encVbcmp (c : BitVec 12) (x : Vbcmp) (h : (x.x.wf && VSrc.apart x.a x.b) = true) : decVbcmp (encVbcmp c x) = .ok x := by
  simp only [Guards.awf, XCtl.wf, Guards.absent, Bool.and_eq_true] at h
  have hg := decGuards_enc 24 (by decide) (encVbcmp c x) x.x.g (by simp_all) (by simp_all) rfl rfl
  unfold decVbcmp
  rw [hg]
  simp (disch := first | decide | exact h.2 | exact h.1.2 | exact h.1.1.2 | exact h) only [encVbcmp, Fields.a, Fields.x, Fields.s, Fields.plain, ex_lo, ex_hi, ex_full, ex_zero, ok_bind, decS_enc, decVR_enc, decLQ_enc, decSQ_enc, decXQ_enc, decP_enc, decV_enc, decD_enc, decVS_enc, decR_enc, decCB_enc, decDQ_enc, decOLQ_enc, decOV_enc, decCond_enc, decFcond_enc, decScope_enc, decOkind_enc, decCsr_enc, decSHint_enc, decLHint_enc, decWd_enc, decWh_enc, decOrdAny_enc, decM_enc, decOrdLoad_enc, decOrdStore_enc, h, hint_reg, opd_true, beq_self_eq_true, Bool.and_self, Bool.or_true, Bool.true_or, Bool.true_and, Option.getD_some, rsv_true, ofBool_eq_one, -Nat.reduceAdd]
  rfl
theorem decVbfind_encVbfind (c : BitVec 12) (x : Vbfind) (h : (x.x.wf) = true) : decVbfind (encVbfind c x) = .ok x := by
  simp only [Guards.awf, XCtl.wf, Guards.absent, Bool.and_eq_true] at h
  have hg := decGuards_enc 24 (by decide) (encVbfind c x) x.x.g (by simp_all) (by simp_all) rfl rfl
  unfold decVbfind
  rw [hg]
  simp (disch := first | decide | exact h.2 | exact h.1.2 | exact h.1.1.2 | exact h) only [encVbfind, Fields.a, Fields.x, Fields.s, Fields.plain, ex_lo, ex_hi, ex_full, ex_zero, ok_bind, decS_enc, decVR_enc, decLQ_enc, decSQ_enc, decXQ_enc, decP_enc, decV_enc, decD_enc, decVS_enc, decR_enc, decCB_enc, decDQ_enc, decOLQ_enc, decOV_enc, decCond_enc, decFcond_enc, decScope_enc, decOkind_enc, decCsr_enc, decSHint_enc, decLHint_enc, decWd_enc, decWh_enc, decOrdAny_enc, decM_enc, decOrdLoad_enc, decOrdStore_enc, h, hint_reg, opd_true, beq_self_eq_true, Bool.and_self, Bool.or_true, Bool.true_or, Bool.true_and, Option.getD_some, rsv_true, ofBool_eq_one, -Nat.reduceAdd]
  rfl
theorem decVxhash_encVxhash (c : BitVec 12) (x : Vxhash) (h : (x.x.wf && x.z.getLsbD 1) = true) : decVxhash (encVxhash c x) = .ok x := by
  simp only [Guards.awf, XCtl.wf, Guards.absent, Bool.and_eq_true] at h
  have hg := decGuards_enc 24 (by decide) (encVxhash c x) x.x.g (by simp_all) (by simp_all) rfl rfl
  unfold decVxhash
  rw [hg]
  simp (disch := first | decide | exact h.2 | exact h.1.2 | exact h.1.1.2 | exact h) only [encVxhash, Fields.a, Fields.x, Fields.s, Fields.plain, ex_lo, ex_hi, ex_full, ex_zero, ok_bind, decS_enc, decVR_enc, decLQ_enc, decSQ_enc, decXQ_enc, decP_enc, decV_enc, decD_enc, decVS_enc, decR_enc, decCB_enc, decDQ_enc, decOLQ_enc, decOV_enc, decCond_enc, decFcond_enc, decScope_enc, decOkind_enc, decCsr_enc, decSHint_enc, decLHint_enc, decWd_enc, decWh_enc, decOrdAny_enc, decM_enc, decOrdLoad_enc, decOrdStore_enc, h, hint_reg, opd_true, beq_self_eq_true, Bool.and_self, Bool.or_true, Bool.true_or, Bool.true_and, Option.getD_some, rsv_true, ofBool_eq_one, -Nat.reduceAdd]
  rfl
theorem decVfma_encVfma (c : BitVec 12) (x : Vfma) (h : (x.x.wf && VSrc.apart x.a x.b && VSrc.apart x.a x.c && VSrc.apart x.b x.c) = true) : decVfma (encVfma c x) = .ok x := by
  simp only [Guards.awf, XCtl.wf, Guards.absent, Bool.and_eq_true] at h
  have hg := decGuards_enc 24 (by decide) (encVfma c x) x.x.g (by simp_all) (by simp_all) rfl rfl
  unfold decVfma
  rw [hg]
  simp (disch := first | decide | exact h.2 | exact h.1.2 | exact h.1.1.2 | exact h) only [encVfma, Fields.a, Fields.x, Fields.s, Fields.plain, ex_lo, ex_hi, ex_full, ex_zero, ok_bind, decS_enc, decVR_enc, decLQ_enc, decSQ_enc, decXQ_enc, decP_enc, decV_enc, decD_enc, decVS_enc, decR_enc, decCB_enc, decDQ_enc, decOLQ_enc, decOV_enc, decCond_enc, decFcond_enc, decScope_enc, decOkind_enc, decCsr_enc, decSHint_enc, decLHint_enc, decWd_enc, decWh_enc, decOrdAny_enc, decM_enc, decOrdLoad_enc, decOrdStore_enc, h, hint_reg, opd_true, beq_self_eq_true, Bool.and_self, Bool.or_true, Bool.true_or, Bool.true_and, Option.getD_some, rsv_true, ofBool_eq_one, -Nat.reduceAdd]
  rfl
theorem decFUn_encFUn (c : BitVec 12) (x : FUn) (h : (x.x.wf) = true) : decFUn (encFUn c x) = .ok x := by
  simp only [Guards.awf, XCtl.wf, Guards.absent, Bool.and_eq_true] at h
  have hg := decGuards_enc 24 (by decide) (encFUn c x) x.x.g (by simp_all) (by simp_all) rfl rfl
  unfold decFUn
  rw [hg]
  simp (disch := first | decide | exact h.2 | exact h.1.2 | exact h.1.1.2 | exact h) only [encFUn, Fields.a, Fields.x, Fields.s, Fields.plain, ex_lo, ex_hi, ex_full, ex_zero, ok_bind, decS_enc, decVR_enc, decLQ_enc, decSQ_enc, decXQ_enc, decP_enc, decV_enc, decD_enc, decVS_enc, decR_enc, decCB_enc, decDQ_enc, decOLQ_enc, decOV_enc, decCond_enc, decFcond_enc, decScope_enc, decOkind_enc, decCsr_enc, decSHint_enc, decLHint_enc, decWd_enc, decWh_enc, decOrdAny_enc, decM_enc, decOrdLoad_enc, decOrdStore_enc, h, hint_reg, opd_true, beq_self_eq_true, Bool.and_self, Bool.or_true, Bool.true_or, Bool.true_and, Option.getD_some, rsv_true, ofBool_eq_one, -Nat.reduceAdd]
  rfl
theorem decVfcmp_encVfcmp (c : BitVec 12) (x : Vfcmp) (h : (x.x.wf && mwf x.d && VSrcS.apart x.a x.b) = true) : decVfcmp (encVfcmp c x) = .ok x := by
  simp only [Guards.awf, XCtl.wf, Guards.absent, Bool.and_eq_true] at h
  have hg := decGuards_enc 24 (by decide) (encVfcmp c x) x.x.g (by simp_all) (by simp_all) rfl rfl
  unfold decVfcmp
  rw [hg]
  simp (disch := first | decide | exact h.2 | exact h.1.2 | exact h.1.1.2 | exact h) only [encVfcmp, Fields.a, Fields.x, Fields.s, Fields.plain, ex_lo, ex_hi, ex_full, ex_zero, ok_bind, decS_enc, decVR_enc, decLQ_enc, decSQ_enc, decXQ_enc, decP_enc, decV_enc, decD_enc, decVS_enc, decR_enc, decCB_enc, decDQ_enc, decOLQ_enc, decOV_enc, decCond_enc, decFcond_enc, decScope_enc, decOkind_enc, decCsr_enc, decSHint_enc, decLHint_enc, decWd_enc, decWh_enc, decOrdAny_enc, decM_enc, decOrdLoad_enc, decOrdStore_enc, h, hint_reg, opd_true, beq_self_eq_true, Bool.and_self, Bool.or_true, Bool.true_or, Bool.true_and, Option.getD_some, rsv_true, ofBool_eq_one, -Nat.reduceAdd]
  rfl
theorem decFRed_encFRed (c : BitVec 12) (x : FRed) (h : (x.x.wf) = true) : decFRed (encFRed c x) = .ok x := by
  simp only [Guards.awf, XCtl.wf, Guards.absent, Bool.and_eq_true] at h
  have hg := decGuards_enc 24 (by decide) (encFRed c x) x.x.g (by simp_all) (by simp_all) rfl rfl
  unfold decFRed
  rw [hg]
  simp (disch := first | decide | exact h.2 | exact h.1.2 | exact h.1.1.2 | exact h) only [encFRed, Fields.a, Fields.x, Fields.s, Fields.plain, ex_lo, ex_hi, ex_full, ex_zero, ok_bind, decS_enc, decVR_enc, decLQ_enc, decSQ_enc, decXQ_enc, decP_enc, decV_enc, decD_enc, decVS_enc, decR_enc, decCB_enc, decDQ_enc, decOLQ_enc, decOV_enc, decCond_enc, decFcond_enc, decScope_enc, decOkind_enc, decCsr_enc, decSHint_enc, decLHint_enc, decWd_enc, decWh_enc, decOrdAny_enc, decM_enc, decOrdLoad_enc, decOrdStore_enc, h, hint_reg, opd_true, beq_self_eq_true, Bool.and_self, Bool.or_true, Bool.true_or, Bool.true_and, Option.getD_some, rsv_true, ofBool_eq_one, -Nat.reduceAdd]
  rfl
theorem decVbfly_encVbfly (c : BitVec 12) (x : Vbfly) (h : (x.x.wf) = true) : decVbfly (encVbfly c x) = .ok x := by
  simp only [Guards.awf, XCtl.wf, Guards.absent, Bool.and_eq_true] at h
  have hg := decGuards_enc 24 (by decide) (encVbfly c x) x.x.g (by simp_all) (by simp_all) rfl rfl
  unfold decVbfly
  rw [hg]
  simp (disch := first | decide | exact h.2 | exact h.1.2 | exact h.1.1.2 | exact h) only [encVbfly, Fields.a, Fields.x, Fields.s, Fields.plain, ex_lo, ex_hi, ex_full, ex_zero, ok_bind, decS_enc, decVR_enc, decLQ_enc, decSQ_enc, decXQ_enc, decP_enc, decV_enc, decD_enc, decVS_enc, decR_enc, decCB_enc, decDQ_enc, decOLQ_enc, decOV_enc, decCond_enc, decFcond_enc, decScope_enc, decOkind_enc, decCsr_enc, decSHint_enc, decLHint_enc, decWd_enc, decWh_enc, decOrdAny_enc, decM_enc, decOrdLoad_enc, decOrdStore_enc, h, hint_reg, opd_true, beq_self_eq_true, Bool.and_self, Bool.or_true, Bool.true_or, Bool.true_and, Option.getD_some, rsv_true, ofBool_eq_one, -Nat.reduceAdd]
  rfl
theorem decVbfp_encVbfp (c : BitVec 12) (x : Vbfp) (h : (x.x.wf) = true) : decVbfp (encVbfp c x) = .ok x := by
  simp only [Guards.awf, XCtl.wf, Guards.absent, Bool.and_eq_true] at h
  have hg := decGuards_enc 24 (by decide) (encVbfp c x) x.x.g (by simp_all) (by simp_all) rfl rfl
  unfold decVbfp
  rw [hg]
  simp (disch := first | decide | exact h.2 | exact h.1.2 | exact h.1.1.2 | exact h) only [encVbfp, Fields.a, Fields.x, Fields.s, Fields.plain, ex_lo, ex_hi, ex_full, ex_zero, ok_bind, decS_enc, decVR_enc, decLQ_enc, decSQ_enc, decXQ_enc, decP_enc, decV_enc, decD_enc, decVS_enc, decR_enc, decCB_enc, decDQ_enc, decOLQ_enc, decOV_enc, decCond_enc, decFcond_enc, decScope_enc, decOkind_enc, decCsr_enc, decSHint_enc, decLHint_enc, decWd_enc, decWh_enc, decOrdAny_enc, decM_enc, decOrdLoad_enc, decOrdStore_enc, h, hint_reg, opd_true, beq_self_eq_true, Bool.and_self, Bool.or_true, Bool.true_or, Bool.true_and, Option.getD_some, rsv_true, ofBool_eq_one, -Nat.reduceAdd]
  rfl
theorem decVqsc_encVqsc (c : BitVec 12) (x : Vqsc) (h : (x.x.wf && VSrcS.apart x.a x.b) = true) : decVqsc (encVqsc c x) = .ok x := by
  simp only [Guards.awf, XCtl.wf, Guards.absent, Bool.and_eq_true] at h
  have hg := decGuards_enc 24 (by decide) (encVqsc c x) x.x.g (by simp_all) (by simp_all) rfl rfl
  unfold decVqsc
  rw [hg]
  simp (disch := first | decide | exact h.2 | exact h.1.2 | exact h.1.1.2 | exact h) only [encVqsc, Fields.a, Fields.x, Fields.s, Fields.plain, ex_lo, ex_hi, ex_full, ex_zero, ok_bind, decS_enc, decVR_enc, decLQ_enc, decSQ_enc, decXQ_enc, decP_enc, decV_enc, decD_enc, decVS_enc, decR_enc, decCB_enc, decDQ_enc, decOLQ_enc, decOV_enc, decCond_enc, decFcond_enc, decScope_enc, decOkind_enc, decCsr_enc, decSHint_enc, decLHint_enc, decWd_enc, decWh_enc, decOrdAny_enc, decM_enc, decOrdLoad_enc, decOrdStore_enc, h, hint_reg, opd_true, beq_self_eq_true, Bool.and_self, Bool.or_true, Bool.true_or, Bool.true_and, Option.getD_some, rsv_true, ofBool_eq_one, -Nat.reduceAdd]
  rfl
theorem decCbld_encCbld (c : BitVec 12) (x : Cbld) (h : (true) = true) : decCbld (encCbld c x) = .ok x := by
  simp only [Guards.awf, XCtl.wf, Guards.absent, Bool.and_eq_true] at h
  unfold decCbld
  simp (disch := first | decide | exact h.2 | exact h.1.2 | exact h.1.1.2 | exact h) only [encCbld, Fields.a, Fields.x, Fields.s, Fields.plain, ex_lo, ex_hi, ex_full, ex_zero, ok_bind, decS_enc, decVR_enc, decLQ_enc, decSQ_enc, decXQ_enc, decP_enc, decV_enc, decD_enc, decVS_enc, decR_enc, decCB_enc, decDQ_enc, decOLQ_enc, decOV_enc, decCond_enc, decFcond_enc, decScope_enc, decOkind_enc, decCsr_enc, decSHint_enc, decLHint_enc, decWd_enc, decWh_enc, decOrdAny_enc, decM_enc, decOrdLoad_enc, decOrdStore_enc, h, hint_reg, opd_true, beq_self_eq_true, Bool.and_self, Bool.or_true, Bool.true_or, Bool.true_and, Option.getD_some, rsv_true, ofBool_eq_one, -Nat.reduceAdd]
  rfl
theorem decCbinv_encCbinv (c : BitVec 12) (x : Cbinv) (h : (true) = true) : decCbinv (encCbinv c x) = .ok x := by
  simp only [Guards.awf, XCtl.wf, Guards.absent, Bool.and_eq_true] at h
  unfold decCbinv
  simp (disch := first | decide | exact h.2 | exact h.1.2 | exact h.1.1.2 | exact h) only [encCbinv, Fields.a, Fields.x, Fields.s, Fields.plain, ex_lo, ex_hi, ex_full, ex_zero, ok_bind, decS_enc, decVR_enc, decLQ_enc, decSQ_enc, decXQ_enc, decP_enc, decV_enc, decD_enc, decVS_enc, decR_enc, decCB_enc, decDQ_enc, decOLQ_enc, decOV_enc, decCond_enc, decFcond_enc, decScope_enc, decOkind_enc, decCsr_enc, decSHint_enc, decLHint_enc, decWd_enc, decWh_enc, decOrdAny_enc, decM_enc, decOrdLoad_enc, decOrdStore_enc, h, hint_reg, opd_true, beq_self_eq_true, Bool.and_self, Bool.or_true, Bool.true_or, Bool.true_and, Option.getD_some, rsv_true, ofBool_eq_one, -Nat.reduceAdd]
  rfl
theorem decTzero_encTzero (c : BitVec 12) (x : Tzero) (h : (x.x.wf) = true) : decTzero (encTzero c x) = .ok x := by
  simp only [Guards.awf, XCtl.wf, Guards.absent, Bool.and_eq_true] at h
  have hg := decGuards_enc 24 (by decide) (encTzero c x) x.x.g (by simp_all) (by simp_all) rfl rfl
  unfold decTzero
  rw [hg]
  simp (disch := first | decide | exact h.2 | exact h.1.2 | exact h.1.1.2 | exact h) only [encTzero, Fields.a, Fields.x, Fields.s, Fields.plain, ex_lo, ex_hi, ex_full, ex_zero, ok_bind, decS_enc, decVR_enc, decLQ_enc, decSQ_enc, decXQ_enc, decP_enc, decV_enc, decD_enc, decVS_enc, decR_enc, decCB_enc, decDQ_enc, decOLQ_enc, decOV_enc, decCond_enc, decFcond_enc, decScope_enc, decOkind_enc, decCsr_enc, decSHint_enc, decLHint_enc, decWd_enc, decWh_enc, decOrdAny_enc, decM_enc, decOrdLoad_enc, decOrdStore_enc, h, hint_reg, opd_true, beq_self_eq_true, Bool.and_self, Bool.or_true, Bool.true_or, Bool.true_and, Option.getD_some, rsv_true, ofBool_eq_one, -Nat.reduceAdd]
  rfl
theorem decOpa_encOpa (c : BitVec 12) (x : Opa) (h : (x.x.wf && VSrc.apart x.a x.b) = true) : decOpa (encOpa c x) = .ok x := by
  simp only [Guards.awf, XCtl.wf, Guards.absent, Bool.and_eq_true] at h
  have hg := decGuards_enc 24 (by decide) (encOpa c x) x.x.g (by simp_all) (by simp_all) rfl rfl
  unfold decOpa
  rw [hg]
  simp (disch := first | decide | exact h.2 | exact h.1.2 | exact h.1.1.2 | exact h) only [encOpa, Fields.a, Fields.x, Fields.s, Fields.plain, ex_lo, ex_hi, ex_full, ex_zero, ok_bind, decS_enc, decVR_enc, decLQ_enc, decSQ_enc, decXQ_enc, decP_enc, decV_enc, decD_enc, decVS_enc, decR_enc, decCB_enc, decDQ_enc, decOLQ_enc, decOV_enc, decCond_enc, decFcond_enc, decScope_enc, decOkind_enc, decCsr_enc, decSHint_enc, decLHint_enc, decWd_enc, decWh_enc, decOrdAny_enc, decM_enc, decOrdLoad_enc, decOrdStore_enc, h, hint_reg, opd_true, beq_self_eq_true, Bool.and_self, Bool.or_true, Bool.true_or, Bool.true_and, Option.getD_some, rsv_true, ofBool_eq_one, -Nat.reduceAdd]
  rfl
theorem decOpas_encOpas (c : BitVec 12) (x : Opas) (h : (x.x.wf && mwf x.m && VSrc.apart x.a x.b) = true) : decOpas (encOpas c x) = .ok x := by
  simp only [Guards.awf, XCtl.wf, Guards.absent, Bool.and_eq_true] at h
  have hg := decGuards_enc 24 (by decide) (encOpas c x) x.x.g (by simp_all) (by simp_all) rfl rfl
  unfold decOpas
  rw [hg]
  simp (disch := first | decide | exact h.2 | exact h.1.2 | exact h.1.1.2 | exact h) only [encOpas, Fields.a, Fields.x, Fields.s, Fields.plain, ex_lo, ex_hi, ex_full, ex_zero, ok_bind, decS_enc, decVR_enc, decLQ_enc, decSQ_enc, decXQ_enc, decP_enc, decV_enc, decD_enc, decVS_enc, decR_enc, decCB_enc, decDQ_enc, decOLQ_enc, decOV_enc, decCond_enc, decFcond_enc, decScope_enc, decOkind_enc, decCsr_enc, decSHint_enc, decLHint_enc, decWd_enc, decWh_enc, decOrdAny_enc, decM_enc, decOrdLoad_enc, decOrdStore_enc, h, hint_reg, opd_true, beq_self_eq_true, Bool.and_self, Bool.or_true, Bool.true_or, Bool.true_and, Option.getD_some, rsv_true, ofBool_eq_one, -Nat.reduceAdd]
  rfl
theorem decTlds_encTlds (c : BitVec 12) (x : Tlds) (h : (x.x.wf) = true) : decTlds (encTlds c x) = .ok x := by
  simp only [Guards.awf, XCtl.wf, Guards.absent, Bool.and_eq_true] at h
  have hg := decGuards_enc 24 (by decide) (encTlds c x) x.x.g (by simp_all) (by simp_all) rfl rfl
  unfold decTlds
  rw [hg]
  simp (disch := first | decide | exact h.2 | exact h.1.2 | exact h.1.1.2 | exact h) only [encTlds, Fields.a, Fields.x, Fields.s, Fields.plain, ex_lo, ex_hi, ex_full, ex_zero, ok_bind, decS_enc, decVR_enc, decLQ_enc, decSQ_enc, decXQ_enc, decP_enc, decV_enc, decD_enc, decVS_enc, decR_enc, decCB_enc, decDQ_enc, decOLQ_enc, decOV_enc, decCond_enc, decFcond_enc, decScope_enc, decOkind_enc, decCsr_enc, decSHint_enc, decLHint_enc, decWd_enc, decWh_enc, decOrdAny_enc, decM_enc, decOrdLoad_enc, decOrdStore_enc, h, hint_reg, opd_true, beq_self_eq_true, Bool.and_self, Bool.or_true, Bool.true_or, Bool.true_and, Option.getD_some, rsv_true, ofBool_eq_one, -Nat.reduceAdd]
  rfl
theorem decTsts_encTsts (c : BitVec 12) (x : Tsts) (h : (x.x.wf) = true) : decTsts (encTsts c x) = .ok x := by
  simp only [Guards.awf, XCtl.wf, Guards.absent, Bool.and_eq_true] at h
  have hg := decGuards_enc 24 (by decide) (encTsts c x) x.x.g (by simp_all) (by simp_all) rfl rfl
  unfold decTsts
  rw [hg]
  simp (disch := first | decide | exact h.2 | exact h.1.2 | exact h.1.1.2 | exact h) only [encTsts, Fields.a, Fields.x, Fields.s, Fields.plain, ex_lo, ex_hi, ex_full, ex_zero, ok_bind, decS_enc, decVR_enc, decLQ_enc, decSQ_enc, decXQ_enc, decP_enc, decV_enc, decD_enc, decVS_enc, decR_enc, decCB_enc, decDQ_enc, decOLQ_enc, decOV_enc, decCond_enc, decFcond_enc, decScope_enc, decOkind_enc, decCsr_enc, decSHint_enc, decLHint_enc, decWd_enc, decWh_enc, decOrdAny_enc, decM_enc, decOrdLoad_enc, decOrdStore_enc, h, hint_reg, opd_true, beq_self_eq_true, Bool.and_self, Bool.or_true, Bool.true_or, Bool.true_and, Option.getD_some, rsv_true, ofBool_eq_one, -Nat.reduceAdd]
  rfl
theorem decTrowv_encTrowv (c : BitVec 12) (x : Trowv) (h : (x.x.wf) = true) : decTrowv (encTrowv c x) = .ok x := by
  simp only [Guards.awf, XCtl.wf, Guards.absent, Bool.and_eq_true] at h
  have hg := decGuards_enc 24 (by decide) (encTrowv c x) x.x.g (by simp_all) (by simp_all) rfl rfl
  unfold decTrowv
  rw [hg]
  simp (disch := first | decide | exact h.2 | exact h.1.2 | exact h.1.1.2 | exact h) only [encTrowv, Fields.a, Fields.x, Fields.s, Fields.plain, ex_lo, ex_hi, ex_full, ex_zero, ok_bind, decS_enc, decVR_enc, decLQ_enc, decSQ_enc, decXQ_enc, decP_enc, decV_enc, decD_enc, decVS_enc, decR_enc, decCB_enc, decDQ_enc, decOLQ_enc, decOV_enc, decCond_enc, decFcond_enc, decScope_enc, decOkind_enc, decCsr_enc, decSHint_enc, decLHint_enc, decWd_enc, decWh_enc, decOrdAny_enc, decM_enc, decOrdLoad_enc, decOrdStore_enc, h, hint_reg, opd_true, beq_self_eq_true, Bool.and_self, Bool.or_true, Bool.true_or, Bool.true_and, Option.getD_some, rsv_true, ofBool_eq_one, -Nat.reduceAdd]
  rfl
theorem decTvrow_encTvrow (c : BitVec 12) (x : Tvrow) (h : (x.x.wf) = true) : decTvrow (encTvrow c x) = .ok x := by
  simp only [Guards.awf, XCtl.wf, Guards.absent, Bool.and_eq_true] at h
  have hg := decGuards_enc 24 (by decide) (encTvrow c x) x.x.g (by simp_all) (by simp_all) rfl rfl
  unfold decTvrow
  rw [hg]
  simp (disch := first | decide | exact h.2 | exact h.1.2 | exact h.1.1.2 | exact h) only [encTvrow, Fields.a, Fields.x, Fields.s, Fields.plain, ex_lo, ex_hi, ex_full, ex_zero, ok_bind, decS_enc, decVR_enc, decLQ_enc, decSQ_enc, decXQ_enc, decP_enc, decV_enc, decD_enc, decVS_enc, decR_enc, decCB_enc, decDQ_enc, decOLQ_enc, decOV_enc, decCond_enc, decFcond_enc, decScope_enc, decOkind_enc, decCsr_enc, decSHint_enc, decLHint_enc, decWd_enc, decWh_enc, decOrdAny_enc, decM_enc, decOrdLoad_enc, decOrdStore_enc, h, hint_reg, opd_true, beq_self_eq_true, Bool.and_self, Bool.or_true, Bool.true_or, Bool.true_and, Option.getD_some, rsv_true, ofBool_eq_one, -Nat.reduceAdd]
  rfl
theorem decCsrWr_encCsrWr (c : BitVec 12) (x : CsrWr) (h : (x.g.awf && x.src.wf) = true) : decCsrWr (encCsrWr c x) = .ok x := by
  simp only [Guards.awf, Bool.and_eq_true] at h
  have hg := decGuards_enc 8 (by decide) (encCsrWr c x) x.g h.1.1 h.1.2 rfl rfl
  unfold decCsrWr
  rw [hg]
  obtain ⟨g, k, r | i⟩ := x
  · have hr : ¬ r = 0 := by simpa [CsrSrc.wf] using h.2
    simp (disch := first | decide | exact h.2 | exact h.1.2 | exact h.1.1.2 | exact h) only [encCsrWr, encCsrSrcReg, encCsrSrcImm, Fields.a, Fields.x, Fields.s, Fields.plain, ex_lo, ex_hi, ex_full, ex_zero, ok_bind, decS_enc, decVR_enc, decLQ_enc, decSQ_enc, decXQ_enc, decP_enc, decV_enc, decD_enc, decVS_enc, decR_enc, decCB_enc, decDQ_enc, decOLQ_enc, decOV_enc, decCond_enc, decFcond_enc, decScope_enc, decOkind_enc, decCsr_enc, decSHint_enc, decLHint_enc, decWd_enc, decWh_enc, decOrdAny_enc, decM_enc, opd_true, beq_self_eq_true, Bool.and_self, Bool.or_true, Bool.true_or, Bool.true_and, rsv_true, ofBool_eq_one, -Nat.reduceAdd]
    simp only [hr, if_false]
    rfl
  · simp (disch := first | decide | exact h.2 | exact h.1.2 | exact h.1.1.2 | exact h) only [encCsrWr, encCsrSrcReg, encCsrSrcImm, Fields.a, Fields.x, Fields.s, Fields.plain, ex_lo, ex_hi, ex_full, ex_zero, ok_bind, decS_enc, decVR_enc, decLQ_enc, decSQ_enc, decXQ_enc, decP_enc, decV_enc, decD_enc, decVS_enc, decR_enc, decCB_enc, decDQ_enc, decOLQ_enc, decOV_enc, decCond_enc, decFcond_enc, decScope_enc, decOkind_enc, decCsr_enc, decSHint_enc, decLHint_enc, decWd_enc, decWh_enc, decOrdAny_enc, decM_enc, opd_true, beq_self_eq_true, Bool.and_self, Bool.or_true, Bool.true_or, Bool.true_and, rsv_true, ofBool_eq_one, -Nat.reduceAdd]
    rfl
theorem decCbst_encCbst (c : BitVec 12) (x : Cbst) (h : (x.x.wf && (x.d != .xq || (x.x.g.absent && x.z == 3))) = true) :
    decCbst (encCbst c x) = .ok x := by
  simp only [XCtl.wf, Guards.absent, Bool.and_eq_true] at h
  have hg := decGuards_enc 24 (by decide) (encCbst c x) x.x.g h.1.1 h.1.2 rfl rfl
  have hd : (encCB x.d != 0x66#7 || (noGuards (encCbst c x) && x.z == 3#2)) = true := by
    obtain ⟨⟨⟨ga, gb⟩, sch⟩, d, k, z⟩ := x
    rcases d with (r | r) | _
    · have : ∀ r, (encCB (.vec (.v r)) != 0x66#7) = true := by decide
      simp only [this, Bool.true_or]
    · have : ∀ r, (encCB (.vec (.sq r)) != 0x66#7) = true := by decide
      simp only [this, Bool.true_or]
    · simp only [bne_self_eq_false, Bool.false_or, Bool.and_eq_true, beq_iff_eq] at h
      obtain ⟨-, ⟨rfl, rfl⟩, rfl⟩ := h
      rfl
  unfold decCbst
  rw [hg]
  have hd' : (encCB x.d != 0x66#7 || (noGuards { opc := c, ga := encGuard x.x.g.a, gb := encGuard x.x.g.b, o1 := encCB x.d, imm := 0#24 ++ x.k ++ 0#2 ++ x.z, sch := x.x.sch } && x.z == 3#2)) = true := hd
  simp (disch := first | decide | exact h.2 | exact h.1.2 | exact h.1.1.2 | exact h) only [hd', encCbst, Fields.a, Fields.x, Fields.s, Fields.plain, ex_lo, ex_hi, ex_full, ex_zero, ok_bind, decS_enc, decVR_enc, decLQ_enc, decSQ_enc, decXQ_enc, decP_enc, decV_enc, decD_enc, decVS_enc, decR_enc, decCB_enc, decDQ_enc, decOLQ_enc, decOV_enc, decCond_enc, decFcond_enc, decScope_enc, decOkind_enc, decCsr_enc, decSHint_enc, decLHint_enc, decWd_enc, decWh_enc, decOrdAny_enc, decM_enc, opd_true, beq_self_eq_true, Bool.and_self, Bool.or_true, Bool.true_or, Bool.true_and, rsv_true, ofBool_eq_one, -Nat.reduceAdd]
  rfl
theorem decTscale_encTscale (c : BitVec 12) (x : Tscale) (h : (x.x.wf && (match x.src with | .s _ => !x.col | _ => true)) = true) : decTscale (encTscale c x) = .ok x := by
  have hd : ((encVS x.src).extractLsb' 6 1 == 1#1 || BitVec.ofBool x.col == 0#1) = true := by
    obtain ⟨g, k, col, src, f⟩ := x
    rcases src with (r | r) | r
    · have : ∀ r, ((encVS (.vec (.v r))).extractLsb' 6 1 == 1#1) = true := by decide
      simp only [this, Bool.true_or]
    · have : ∀ r, ((encVS (.vec (.lq r))).extractLsb' 6 1 == 1#1) = true := by decide
      simp only [this, Bool.true_or]
    · simp only [Bool.and_eq_true, Bool.not_eq_true'] at h
      obtain ⟨-, rfl⟩ := h
      exact Bool.or_true _
  simp only [XCtl.wf, Bool.and_eq_true] at h
  have hg := decGuards_enc 24 (by decide) (encTscale c x) x.x.g h.1.1 h.1.2 rfl rfl
  unfold decTscale
  rw [hg]
  simp (disch := first | decide | exact h.2 | exact h.1.2 | exact h.1.1.2 | exact h) only [hd, encTscale, Fields.a, Fields.x, Fields.s, Fields.plain, ex_lo, ex_hi, ex_full, ex_zero, ok_bind, decS_enc, decVR_enc, decLQ_enc, decSQ_enc, decXQ_enc, decP_enc, decV_enc, decD_enc, decVS_enc, decR_enc, decCB_enc, decDQ_enc, decOLQ_enc, decOV_enc, decCond_enc, decFcond_enc, decScope_enc, decOkind_enc, decCsr_enc, decSHint_enc, decLHint_enc, decWd_enc, decWh_enc, decOrdAny_enc, decM_enc, opd_true, beq_self_eq_true, Bool.and_self, Bool.or_true, Bool.true_or, Bool.true_and, rsv_true, ofBool_eq_one, -Nat.reduceAdd]
  rfl

end Sys2Proof.Laws
end

