-- ==== Sys2Proof/Laws/State.lean ====
section
/-! SUPPORT. One lemma per field per update of the state and of a hart, and the laws of the tables that hold harts, cores,
launches and partitions: later proofs rewrite with these and unfold no record update. -/

namespace Sys2Proof.Machine

open Sys2Proof

/-! ## Tables -/

@[simp] theorem tget_tput_same {κ α : Type} [DecidableEq κ] (d : α) (t : List (κ × α)) (k : κ) (v : α) :
    tget d (tput t k v) k = v := by
  induction t with
  | nil => simp [tput, tget]
  | cons e t ih =>
    obtain ⟨a, w⟩ := e
    by_cases h : a = k <;> simp [tput, tget, h, ih]

theorem tget_tput_of_ne {κ α : Type} [DecidableEq κ] (d : α) (t : List (κ × α)) {k j : κ} (v : α) (h : j ≠ k) :
    tget d (tput t k v) j = tget d t j := by
  induction t with
  | nil => simp [tput, tget, h.symm]
  | cons e t ih =>
    obtain ⟨a, w⟩ := e
    by_cases hk : a = k
    · subst hk; simp [tput, tget, h.symm]
    · by_cases hj : a = j
      · subst hj; simp [tput, tget, hk]
      · simp [tput, tget, hk, hj, ih]

@[simp] theorem tput_tput {κ α : Type} [DecidableEq κ] (t : List (κ × α)) (k : κ) (v w : α) :
    tput (tput t k v) k w = tput t k w := by
  induction t with
  | nil => simp [tput]
  | cons e t ih =>
    obtain ⟨a, u⟩ := e
    by_cases h : a = k <;> simp [tput, h, ih]

/-! ## Reading back what an update wrote -/

@[simp] theorem State.hart_setHart (s : State) (h : HartId) (x : Hart) : (s.setHart h x).hart h = x :=
  tget_tput_same _ _ _ _
theorem State.hart_setHart_of_ne (s : State) {h g : HartId} (x : Hart) (n : g ≠ h) : (s.setHart h x).hart g = s.hart g :=
  tget_tput_of_ne _ _ _ n
@[simp] theorem State.hart_updHart (s : State) (h : HartId) (f : Hart → Hart) : (s.updHart h f).hart h = f (s.hart h) :=
  tget_tput_same _ _ _ _
theorem State.hart_updHart_of_ne (s : State) {h g : HartId} (f : Hart → Hart) (n : g ≠ h) :
    (s.updHart h f).hart g = s.hart g := tget_tput_of_ne _ _ _ n
@[simp] theorem State.core_setCore (s : State) (l k : Nat) (c : Core) : (s.setCore l k c).core l k = c :=
  tget_tput_same _ _ _ _
@[simp] theorem State.core_updCore (s : State) (l k : Nat) (f : Core → Core) : (s.updCore l k f).core l k = f (s.core l k) :=
  tget_tput_same _ _ _ _
@[simp] theorem State.launch_setLaunch (s : State) (l : Nat) (x : Launch) : (s.setLaunch l x).launch l = x :=
  tget_tput_same _ _ _ _
@[simp] theorem State.part_setPart (s : State) (p : Nat) (x : Part) : (s.setPart p x).part p = x := tget_tput_same _ _ _ _
@[simp] theorem State.part_updPart (s : State) (p : Nat) (f : Part → Part) : (s.updPart p f).part p = f (s.part p) :=
  tget_tput_same _ _ _ _
@[simp] theorem State.me_setMe (s : State) (h : Hart) : (s.setMe h).me = h := tget_tput_same _ _ _ _
@[simp] theorem State.me_updHart_cur (s : State) (f : Hart → Hart) : (s.updHart s.cur f).me = f s.me :=
  tget_tput_same _ _ _ _

/-! ## Updates of the state, field by field -/

@[simp] theorem State.setHart_cycle (s : State) (h : HartId) (x : Hart) : (s.setHart h x).cycle = s.cycle := rfl
@[simp] theorem State.setHart_mem (s : State) (h : HartId) (x : Hart) : (s.setHart h x).mem = s.mem := rfl
@[simp] theorem State.setHart_wbuf (s : State) (h : HartId) (x : Hart) : (s.setHart h x).wbuf = s.wbuf := rfl
@[simp] theorem State.setHart_cachedW (s : State) (h : HartId) (x : Hart) : (s.setHart h x).cachedW = s.cachedW := rfl
@[simp] theorem State.setHart_uncachedW (s : State) (h : HartId) (x : Hart) : (s.setHart h x).uncachedW = s.uncachedW := rfl
@[simp] theorem State.setHart_flushed (s : State) (h : HartId) (x : Hart) : (s.setHart h x).flushed = s.flushed := rfl
@[simp] theorem State.setHart_settled (s : State) (h : HartId) (x : Hart) : (s.setHart h x).settled = s.settled := rfl
@[simp] theorem State.setHart_seen (s : State) (h : HartId) (x : Hart) : (s.setHart h x).seen = s.seen := rfl
@[simp] theorem State.setHart_bad (s : State) (h : HartId) (x : Hart) : (s.setHart h x).bad = s.bad := rfl
@[simp] theorem State.setHart_badL2 (s : State) (h : HartId) (x : Hart) : (s.setHart h x).badL2 = s.badL2 := rfl
@[simp] theorem State.setHart_badL1 (s : State) (h : HartId) (x : Hart) : (s.setHart h x).badL1 = s.badL1 := rfl
@[simp] theorem State.setHart_old (s : State) (h : HartId) (x : Hart) : (s.setHart h x).old = s.old := rfl
@[simp] theorem State.setHart_epoch (s : State) (h : HartId) (x : Hart) : (s.setHart h x).epoch = s.epoch := rfl
@[simp] theorem State.setHart_notLive (s : State) (h : HartId) (x : Hart) : (s.setHart h x).notLive = s.notLive := rfl
@[simp] theorem State.setHart_cores (s : State) (h : HartId) (x : Hart) : (s.setHart h x).cores = s.cores := rfl
@[simp] theorem State.setHart_launches (s : State) (h : HartId) (x : Hart) : (s.setHart h x).launches = s.launches := rfl
@[simp] theorem State.setHart_parts (s : State) (h : HartId) (x : Hart) : (s.setHart h x).parts = s.parts := rfl
@[simp] theorem State.setHart_posted (s : State) (h : HartId) (x : Hart) : (s.setHart h x).posted = s.posted := rfl
@[simp] theorem State.setHart_msgs (s : State) (h : HartId) (x : Hart) : (s.setHart h x).msgs = s.msgs := rfl
@[simp] theorem State.setHart_paceMsgs (s : State) (h : HartId) (x : Hart) : (s.setHart h x).paceMsgs = s.paceMsgs := rfl
@[simp] theorem State.setHart_gongMsgs (s : State) (h : HartId) (x : Hart) : (s.setHart h x).gongMsgs = s.gongMsgs := rfl
@[simp] theorem State.setHart_waitNos (s : State) (h : HartId) (x : Hart) : (s.setHart h x).waitNos = s.waitNos := rfl
@[simp] theorem State.setHart_nextLaunch (s : State) (h : HartId) (x : Hart) : (s.setHart h x).nextLaunch = s.nextLaunch := rfl
@[simp] theorem State.setHart_nextPosted (s : State) (h : HartId) (x : Hart) : (s.setHart h x).nextPosted = s.nextPosted := rfl
@[simp] theorem State.setHart_ticket (s : State) (h : HartId) (x : Hart) : (s.setHart h x).ticket = s.ticket := rfl
@[simp] theorem State.setHart_md (s : State) (h : HartId) (x : Hart) : (s.setHart h x).md = s.md := rfl
@[simp] theorem State.setHart_agenda (s : State) (h : HartId) (x : Hart) : (s.setHart h x).agenda = s.agenda := rfl
@[simp] theorem State.setHart_cur (s : State) (h : HartId) (x : Hart) : (s.setHart h x).cur = s.cur := rfl
@[simp] theorem State.setHart_fresh (s : State) (h : HartId) (x : Hart) : (s.setHart h x).fresh = s.fresh := rfl
@[simp] theorem State.updHart_cycle (s : State) (h : HartId) (f : Hart → Hart) : (s.updHart h f).cycle = s.cycle := rfl
@[simp] theorem State.updHart_mem (s : State) (h : HartId) (f : Hart → Hart) : (s.updHart h f).mem = s.mem := rfl
@[simp] theorem State.updHart_wbuf (s : State) (h : HartId) (f : Hart → Hart) : (s.updHart h f).wbuf = s.wbuf := rfl
@[simp] theorem State.updHart_cachedW (s : State) (h : HartId) (f : Hart → Hart) : (s.updHart h f).cachedW = s.cachedW := rfl
@[simp] theorem State.updHart_uncachedW (s : State) (h : HartId) (f : Hart → Hart) : (s.updHart h f).uncachedW = s.uncachedW := rfl
@[simp] theorem State.updHart_flushed (s : State) (h : HartId) (f : Hart → Hart) : (s.updHart h f).flushed = s.flushed := rfl
@[simp] theorem State.updHart_settled (s : State) (h : HartId) (f : Hart → Hart) : (s.updHart h f).settled = s.settled := rfl
@[simp] theorem State.updHart_seen (s : State) (h : HartId) (f : Hart → Hart) : (s.updHart h f).seen = s.seen := rfl
@[simp] theorem State.updHart_bad (s : State) (h : HartId) (f : Hart → Hart) : (s.updHart h f).bad = s.bad := rfl
@[simp] theorem State.updHart_badL2 (s : State) (h : HartId) (f : Hart → Hart) : (s.updHart h f).badL2 = s.badL2 := rfl
@[simp] theorem State.updHart_badL1 (s : State) (h : HartId) (f : Hart → Hart) : (s.updHart h f).badL1 = s.badL1 := rfl
@[simp] theorem State.updHart_old (s : State) (h : HartId) (f : Hart → Hart) : (s.updHart h f).old = s.old := rfl
@[simp] theorem State.updHart_epoch (s : State) (h : HartId) (f : Hart → Hart) : (s.updHart h f).epoch = s.epoch := rfl
@[simp] theorem State.updHart_notLive (s : State) (h : HartId) (f : Hart → Hart) : (s.updHart h f).notLive = s.notLive := rfl
@[simp] theorem State.updHart_cores (s : State) (h : HartId) (f : Hart → Hart) : (s.updHart h f).cores = s.cores := rfl
@[simp] theorem State.updHart_launches (s : State) (h : HartId) (f : Hart → Hart) : (s.updHart h f).launches = s.launches := rfl
@[simp] theorem State.updHart_parts (s : State) (h : HartId) (f : Hart → Hart) : (s.updHart h f).parts = s.parts := rfl
@[simp] theorem State.updHart_posted (s : State) (h : HartId) (f : Hart → Hart) : (s.updHart h f).posted = s.posted := rfl
@[simp] theorem State.updHart_msgs (s : State) (h : HartId) (f : Hart → Hart) : (s.updHart h f).msgs = s.msgs := rfl
@[simp] theorem State.updHart_paceMsgs (s : State) (h : HartId) (f : Hart → Hart) : (s.updHart h f).paceMsgs = s.paceMsgs := rfl
@[simp] theorem State.updHart_gongMsgs (s : State) (h : HartId) (f : Hart → Hart) : (s.updHart h f).gongMsgs = s.gongMsgs := rfl
@[simp] theorem State.updHart_waitNos (s : State) (h : HartId) (f : Hart → Hart) : (s.updHart h f).waitNos = s.waitNos := rfl
@[simp] theorem State.updHart_nextLaunch (s : State) (h : HartId) (f : Hart → Hart) : (s.updHart h f).nextLaunch = s.nextLaunch := rfl
@[simp] theorem State.updHart_nextPosted (s : State) (h : HartId) (f : Hart → Hart) : (s.updHart h f).nextPosted = s.nextPosted := rfl
@[simp] theorem State.updHart_ticket (s : State) (h : HartId) (f : Hart → Hart) : (s.updHart h f).ticket = s.ticket := rfl
@[simp] theorem State.updHart_md (s : State) (h : HartId) (f : Hart → Hart) : (s.updHart h f).md = s.md := rfl
@[simp] theorem State.updHart_agenda (s : State) (h : HartId) (f : Hart → Hart) : (s.updHart h f).agenda = s.agenda := rfl
@[simp] theorem State.updHart_cur (s : State) (h : HartId) (f : Hart → Hart) : (s.updHart h f).cur = s.cur := rfl
@[simp] theorem State.updHart_fresh (s : State) (h : HartId) (f : Hart → Hart) : (s.updHart h f).fresh = s.fresh := rfl
@[simp] theorem State.setMe_cycle (s : State) (x : Hart) : (s.setMe x).cycle = s.cycle := rfl
@[simp] theorem State.setMe_mem (s : State) (x : Hart) : (s.setMe x).mem = s.mem := rfl
@[simp] theorem State.setMe_wbuf (s : State) (x : Hart) : (s.setMe x).wbuf = s.wbuf := rfl
@[simp] theorem State.setMe_cachedW (s : State) (x : Hart) : (s.setMe x).cachedW = s.cachedW := rfl
@[simp] theorem State.setMe_uncachedW (s : State) (x : Hart) : (s.setMe x).uncachedW = s.uncachedW := rfl
@[simp] theorem State.setMe_flushed (s : State) (x : Hart) : (s.setMe x).flushed = s.flushed := rfl
@[simp] theorem State.setMe_settled (s : State) (x : Hart) : (s.setMe x).settled = s.settled := rfl
@[simp] theorem State.setMe_seen (s : State) (x : Hart) : (s.setMe x).seen = s.seen := rfl
@[simp] theorem State.setMe_bad (s : State) (x : Hart) : (s.setMe x).bad = s.bad := rfl
@[simp] theorem State.setMe_badL2 (s : State) (x : Hart) : (s.setMe x).badL2 = s.badL2 := rfl
@[simp] theorem State.setMe_badL1 (s : State) (x : Hart) : (s.setMe x).badL1 = s.badL1 := rfl
@[simp] theorem State.setMe_old (s : State) (x : Hart) : (s.setMe x).old = s.old := rfl
@[simp] theorem State.setMe_epoch (s : State) (x : Hart) : (s.setMe x).epoch = s.epoch := rfl
@[simp] theorem State.setMe_notLive (s : State) (x : Hart) : (s.setMe x).notLive = s.notLive := rfl
@[simp] theorem State.setMe_cores (s : State) (x : Hart) : (s.setMe x).cores = s.cores := rfl
@[simp] theorem State.setMe_launches (s : State) (x : Hart) : (s.setMe x).launches = s.launches := rfl
@[simp] theorem State.setMe_parts (s : State) (x : Hart) : (s.setMe x).parts = s.parts := rfl
@[simp] theorem State.setMe_posted (s : State) (x : Hart) : (s.setMe x).posted = s.posted := rfl
@[simp] theorem State.setMe_msgs (s : State) (x : Hart) : (s.setMe x).msgs = s.msgs := rfl
@[simp] theorem State.setMe_paceMsgs (s : State) (x : Hart) : (s.setMe x).paceMsgs = s.paceMsgs := rfl
@[simp] theorem State.setMe_gongMsgs (s : State) (x : Hart) : (s.setMe x).gongMsgs = s.gongMsgs := rfl
@[simp] theorem State.setMe_waitNos (s : State) (x : Hart) : (s.setMe x).waitNos = s.waitNos := rfl
@[simp] theorem State.setMe_nextLaunch (s : State) (x : Hart) : (s.setMe x).nextLaunch = s.nextLaunch := rfl
@[simp] theorem State.setMe_nextPosted (s : State) (x : Hart) : (s.setMe x).nextPosted = s.nextPosted := rfl
@[simp] theorem State.setMe_ticket (s : State) (x : Hart) : (s.setMe x).ticket = s.ticket := rfl
@[simp] theorem State.setMe_md (s : State) (x : Hart) : (s.setMe x).md = s.md := rfl
@[simp] theorem State.setMe_agenda (s : State) (x : Hart) : (s.setMe x).agenda = s.agenda := rfl
@[simp] theorem State.setMe_cur (s : State) (x : Hart) : (s.setMe x).cur = s.cur := rfl
@[simp] theorem State.setMe_fresh (s : State) (x : Hart) : (s.setMe x).fresh = s.fresh := rfl
@[simp] theorem State.setCore_cycle (s : State) (l k : Nat) (c : Core) : (s.setCore l k c).cycle = s.cycle := rfl
@[simp] theorem State.setCore_mem (s : State) (l k : Nat) (c : Core) : (s.setCore l k c).mem = s.mem := rfl
@[simp] theorem State.setCore_wbuf (s : State) (l k : Nat) (c : Core) : (s.setCore l k c).wbuf = s.wbuf := rfl
@[simp] theorem State.setCore_cachedW (s : State) (l k : Nat) (c : Core) : (s.setCore l k c).cachedW = s.cachedW := rfl
@[simp] theorem State.setCore_uncachedW (s : State) (l k : Nat) (c : Core) : (s.setCore l k c).uncachedW = s.uncachedW := rfl
@[simp] theorem State.setCore_flushed (s : State) (l k : Nat) (c : Core) : (s.setCore l k c).flushed = s.flushed := rfl
@[simp] theorem State.setCore_settled (s : State) (l k : Nat) (c : Core) : (s.setCore l k c).settled = s.settled := rfl
@[simp] theorem State.setCore_seen (s : State) (l k : Nat) (c : Core) : (s.setCore l k c).seen = s.seen := rfl
@[simp] theorem State.setCore_bad (s : State) (l k : Nat) (c : Core) : (s.setCore l k c).bad = s.bad := rfl
@[simp] theorem State.setCore_badL2 (s : State) (l k : Nat) (c : Core) : (s.setCore l k c).badL2 = s.badL2 := rfl
@[simp] theorem State.setCore_badL1 (s : State) (l k : Nat) (c : Core) : (s.setCore l k c).badL1 = s.badL1 := rfl
@[simp] theorem State.setCore_old (s : State) (l k : Nat) (c : Core) : (s.setCore l k c).old = s.old := rfl
@[simp] theorem State.setCore_epoch (s : State) (l k : Nat) (c : Core) : (s.setCore l k c).epoch = s.epoch := rfl
@[simp] theorem State.setCore_notLive (s : State) (l k : Nat) (c : Core) : (s.setCore l k c).notLive = s.notLive := rfl
@[simp] theorem State.setCore_harts (s : State) (l k : Nat) (c : Core) : (s.setCore l k c).harts = s.harts := rfl
@[simp] theorem State.setCore_launches (s : State) (l k : Nat) (c : Core) : (s.setCore l k c).launches = s.launches := rfl
@[simp] theorem State.setCore_parts (s : State) (l k : Nat) (c : Core) : (s.setCore l k c).parts = s.parts := rfl
@[simp] theorem State.setCore_posted (s : State) (l k : Nat) (c : Core) : (s.setCore l k c).posted = s.posted := rfl
@[simp] theorem State.setCore_msgs (s : State) (l k : Nat) (c : Core) : (s.setCore l k c).msgs = s.msgs := rfl
@[simp] theorem State.setCore_paceMsgs (s : State) (l k : Nat) (c : Core) : (s.setCore l k c).paceMsgs = s.paceMsgs := rfl
@[simp] theorem State.setCore_gongMsgs (s : State) (l k : Nat) (c : Core) : (s.setCore l k c).gongMsgs = s.gongMsgs := rfl
@[simp] theorem State.setCore_waitNos (s : State) (l k : Nat) (c : Core) : (s.setCore l k c).waitNos = s.waitNos := rfl
@[simp] theorem State.setCore_nextLaunch (s : State) (l k : Nat) (c : Core) : (s.setCore l k c).nextLaunch = s.nextLaunch := rfl
@[simp] theorem State.setCore_nextPosted (s : State) (l k : Nat) (c : Core) : (s.setCore l k c).nextPosted = s.nextPosted := rfl
@[simp] theorem State.setCore_ticket (s : State) (l k : Nat) (c : Core) : (s.setCore l k c).ticket = s.ticket := rfl
@[simp] theorem State.setCore_md (s : State) (l k : Nat) (c : Core) : (s.setCore l k c).md = s.md := rfl
@[simp] theorem State.setCore_agenda (s : State) (l k : Nat) (c : Core) : (s.setCore l k c).agenda = s.agenda := rfl
@[simp] theorem State.setCore_cur (s : State) (l k : Nat) (c : Core) : (s.setCore l k c).cur = s.cur := rfl
@[simp] theorem State.setCore_fresh (s : State) (l k : Nat) (c : Core) : (s.setCore l k c).fresh = s.fresh := rfl
@[simp] theorem State.updCore_cycle (s : State) (l k : Nat) (f : Core → Core) : (s.updCore l k f).cycle = s.cycle := rfl
@[simp] theorem State.updCore_mem (s : State) (l k : Nat) (f : Core → Core) : (s.updCore l k f).mem = s.mem := rfl
@[simp] theorem State.updCore_wbuf (s : State) (l k : Nat) (f : Core → Core) : (s.updCore l k f).wbuf = s.wbuf := rfl
@[simp] theorem State.updCore_cachedW (s : State) (l k : Nat) (f : Core → Core) : (s.updCore l k f).cachedW = s.cachedW := rfl
@[simp] theorem State.updCore_uncachedW (s : State) (l k : Nat) (f : Core → Core) : (s.updCore l k f).uncachedW = s.uncachedW := rfl
@[simp] theorem State.updCore_flushed (s : State) (l k : Nat) (f : Core → Core) : (s.updCore l k f).flushed = s.flushed := rfl
@[simp] theorem State.updCore_settled (s : State) (l k : Nat) (f : Core → Core) : (s.updCore l k f).settled = s.settled := rfl
@[simp] theorem State.updCore_seen (s : State) (l k : Nat) (f : Core → Core) : (s.updCore l k f).seen = s.seen := rfl
@[simp] theorem State.updCore_bad (s : State) (l k : Nat) (f : Core → Core) : (s.updCore l k f).bad = s.bad := rfl
@[simp] theorem State.updCore_badL2 (s : State) (l k : Nat) (f : Core → Core) : (s.updCore l k f).badL2 = s.badL2 := rfl
@[simp] theorem State.updCore_badL1 (s : State) (l k : Nat) (f : Core → Core) : (s.updCore l k f).badL1 = s.badL1 := rfl
@[simp] theorem State.updCore_old (s : State) (l k : Nat) (f : Core → Core) : (s.updCore l k f).old = s.old := rfl
@[simp] theorem State.updCore_epoch (s : State) (l k : Nat) (f : Core → Core) : (s.updCore l k f).epoch = s.epoch := rfl
@[simp] theorem State.updCore_notLive (s : State) (l k : Nat) (f : Core → Core) : (s.updCore l k f).notLive = s.notLive := rfl
@[simp] theorem State.updCore_harts (s : State) (l k : Nat) (f : Core → Core) : (s.updCore l k f).harts = s.harts := rfl
@[simp] theorem State.updCore_launches (s : State) (l k : Nat) (f : Core → Core) : (s.updCore l k f).launches = s.launches := rfl
@[simp] theorem State.updCore_parts (s : State) (l k : Nat) (f : Core → Core) : (s.updCore l k f).parts = s.parts := rfl
@[simp] theorem State.updCore_posted (s : State) (l k : Nat) (f : Core → Core) : (s.updCore l k f).posted = s.posted := rfl
@[simp] theorem State.updCore_msgs (s : State) (l k : Nat) (f : Core → Core) : (s.updCore l k f).msgs = s.msgs := rfl
@[simp] theorem State.updCore_paceMsgs (s : State) (l k : Nat) (f : Core → Core) : (s.updCore l k f).paceMsgs = s.paceMsgs := rfl
@[simp] theorem State.updCore_gongMsgs (s : State) (l k : Nat) (f : Core → Core) : (s.updCore l k f).gongMsgs = s.gongMsgs := rfl
@[simp] theorem State.updCore_waitNos (s : State) (l k : Nat) (f : Core → Core) : (s.updCore l k f).waitNos = s.waitNos := rfl
@[simp] theorem State.updCore_nextLaunch (s : State) (l k : Nat) (f : Core → Core) : (s.updCore l k f).nextLaunch = s.nextLaunch := rfl
@[simp] theorem State.updCore_nextPosted (s : State) (l k : Nat) (f : Core → Core) : (s.updCore l k f).nextPosted = s.nextPosted := rfl
@[simp] theorem State.updCore_ticket (s : State) (l k : Nat) (f : Core → Core) : (s.updCore l k f).ticket = s.ticket := rfl
@[simp] theorem State.updCore_md (s : State) (l k : Nat) (f : Core → Core) : (s.updCore l k f).md = s.md := rfl
@[simp] theorem State.updCore_agenda (s : State) (l k : Nat) (f : Core → Core) : (s.updCore l k f).agenda = s.agenda := rfl
@[simp] theorem State.updCore_cur (s : State) (l k : Nat) (f : Core → Core) : (s.updCore l k f).cur = s.cur := rfl
@[simp] theorem State.updCore_fresh (s : State) (l k : Nat) (f : Core → Core) : (s.updCore l k f).fresh = s.fresh := rfl
@[simp] theorem State.setLaunch_cycle (s : State) (l : Nat) (x : Launch) : (s.setLaunch l x).cycle = s.cycle := rfl
@[simp] theorem State.setLaunch_mem (s : State) (l : Nat) (x : Launch) : (s.setLaunch l x).mem = s.mem := rfl
@[simp] theorem State.setLaunch_wbuf (s : State) (l : Nat) (x : Launch) : (s.setLaunch l x).wbuf = s.wbuf := rfl
@[simp] theorem State.setLaunch_cachedW (s : State) (l : Nat) (x : Launch) : (s.setLaunch l x).cachedW = s.cachedW := rfl
@[simp] theorem State.setLaunch_uncachedW (s : State) (l : Nat) (x : Launch) : (s.setLaunch l x).uncachedW = s.uncachedW := rfl
@[simp] theorem State.setLaunch_flushed (s : State) (l : Nat) (x : Launch) : (s.setLaunch l x).flushed = s.flushed := rfl
@[simp] theorem State.setLaunch_settled (s : State) (l : Nat) (x : Launch) : (s.setLaunch l x).settled = s.settled := rfl
@[simp] theorem State.setLaunch_seen (s : State) (l : Nat) (x : Launch) : (s.setLaunch l x).seen = s.seen := rfl
@[simp] theorem State.setLaunch_bad (s : State) (l : Nat) (x : Launch) : (s.setLaunch l x).bad = s.bad := rfl
@[simp] theorem State.setLaunch_badL2 (s : State) (l : Nat) (x : Launch) : (s.setLaunch l x).badL2 = s.badL2 := rfl
@[simp] theorem State.setLaunch_badL1 (s : State) (l : Nat) (x : Launch) : (s.setLaunch l x).badL1 = s.badL1 := rfl
@[simp] theorem State.setLaunch_old (s : State) (l : Nat) (x : Launch) : (s.setLaunch l x).old = s.old := rfl
@[simp] theorem State.setLaunch_epoch (s : State) (l : Nat) (x : Launch) : (s.setLaunch l x).epoch = s.epoch := rfl
@[simp] theorem State.setLaunch_notLive (s : State) (l : Nat) (x : Launch) : (s.setLaunch l x).notLive = s.notLive := rfl
@[simp] theorem State.setLaunch_harts (s : State) (l : Nat) (x : Launch) : (s.setLaunch l x).harts = s.harts := rfl
@[simp] theorem State.setLaunch_cores (s : State) (l : Nat) (x : Launch) : (s.setLaunch l x).cores = s.cores := rfl
@[simp] theorem State.setLaunch_parts (s : State) (l : Nat) (x : Launch) : (s.setLaunch l x).parts = s.parts := rfl
@[simp] theorem State.setLaunch_posted (s : State) (l : Nat) (x : Launch) : (s.setLaunch l x).posted = s.posted := rfl
@[simp] theorem State.setLaunch_msgs (s : State) (l : Nat) (x : Launch) : (s.setLaunch l x).msgs = s.msgs := rfl
@[simp] theorem State.setLaunch_paceMsgs (s : State) (l : Nat) (x : Launch) : (s.setLaunch l x).paceMsgs = s.paceMsgs := rfl
@[simp] theorem State.setLaunch_gongMsgs (s : State) (l : Nat) (x : Launch) : (s.setLaunch l x).gongMsgs = s.gongMsgs := rfl
@[simp] theorem State.setLaunch_waitNos (s : State) (l : Nat) (x : Launch) : (s.setLaunch l x).waitNos = s.waitNos := rfl
@[simp] theorem State.setLaunch_nextLaunch (s : State) (l : Nat) (x : Launch) : (s.setLaunch l x).nextLaunch = s.nextLaunch := rfl
@[simp] theorem State.setLaunch_nextPosted (s : State) (l : Nat) (x : Launch) : (s.setLaunch l x).nextPosted = s.nextPosted := rfl
@[simp] theorem State.setLaunch_ticket (s : State) (l : Nat) (x : Launch) : (s.setLaunch l x).ticket = s.ticket := rfl
@[simp] theorem State.setLaunch_md (s : State) (l : Nat) (x : Launch) : (s.setLaunch l x).md = s.md := rfl
@[simp] theorem State.setLaunch_agenda (s : State) (l : Nat) (x : Launch) : (s.setLaunch l x).agenda = s.agenda := rfl
@[simp] theorem State.setLaunch_cur (s : State) (l : Nat) (x : Launch) : (s.setLaunch l x).cur = s.cur := rfl
@[simp] theorem State.setLaunch_fresh (s : State) (l : Nat) (x : Launch) : (s.setLaunch l x).fresh = s.fresh := rfl
@[simp] theorem State.setPart_cycle (s : State) (p : Nat) (x : Part) : (s.setPart p x).cycle = s.cycle := rfl
@[simp] theorem State.setPart_mem (s : State) (p : Nat) (x : Part) : (s.setPart p x).mem = s.mem := rfl
@[simp] theorem State.setPart_wbuf (s : State) (p : Nat) (x : Part) : (s.setPart p x).wbuf = s.wbuf := rfl
@[simp] theorem State.setPart_cachedW (s : State) (p : Nat) (x : Part) : (s.setPart p x).cachedW = s.cachedW := rfl
@[simp] theorem State.setPart_uncachedW (s : State) (p : Nat) (x : Part) : (s.setPart p x).uncachedW = s.uncachedW := rfl
@[simp] theorem State.setPart_flushed (s : State) (p : Nat) (x : Part) : (s.setPart p x).flushed = s.flushed := rfl
@[simp] theorem State.setPart_settled (s : State) (p : Nat) (x : Part) : (s.setPart p x).settled = s.settled := rfl
@[simp] theorem State.setPart_seen (s : State) (p : Nat) (x : Part) : (s.setPart p x).seen = s.seen := rfl
@[simp] theorem State.setPart_bad (s : State) (p : Nat) (x : Part) : (s.setPart p x).bad = s.bad := rfl
@[simp] theorem State.setPart_badL2 (s : State) (p : Nat) (x : Part) : (s.setPart p x).badL2 = s.badL2 := rfl
@[simp] theorem State.setPart_badL1 (s : State) (p : Nat) (x : Part) : (s.setPart p x).badL1 = s.badL1 := rfl
@[simp] theorem State.setPart_old (s : State) (p : Nat) (x : Part) : (s.setPart p x).old = s.old := rfl
@[simp] theorem State.setPart_epoch (s : State) (p : Nat) (x : Part) : (s.setPart p x).epoch = s.epoch := rfl
@[simp] theorem State.setPart_notLive (s : State) (p : Nat) (x : Part) : (s.setPart p x).notLive = s.notLive := rfl
@[simp] theorem State.setPart_harts (s : State) (p : Nat) (x : Part) : (s.setPart p x).harts = s.harts := rfl
@[simp] theorem State.setPart_cores (s : State) (p : Nat) (x : Part) : (s.setPart p x).cores = s.cores := rfl
@[simp] theorem State.setPart_launches (s : State) (p : Nat) (x : Part) : (s.setPart p x).launches = s.launches := rfl
@[simp] theorem State.setPart_posted (s : State) (p : Nat) (x : Part) : (s.setPart p x).posted = s.posted := rfl
@[simp] theorem State.setPart_msgs (s : State) (p : Nat) (x : Part) : (s.setPart p x).msgs = s.msgs := rfl
@[simp] theorem State.setPart_paceMsgs (s : State) (p : Nat) (x : Part) : (s.setPart p x).paceMsgs = s.paceMsgs := rfl
@[simp] theorem State.setPart_gongMsgs (s : State) (p : Nat) (x : Part) : (s.setPart p x).gongMsgs = s.gongMsgs := rfl
@[simp] theorem State.setPart_waitNos (s : State) (p : Nat) (x : Part) : (s.setPart p x).waitNos = s.waitNos := rfl
@[simp] theorem State.setPart_nextLaunch (s : State) (p : Nat) (x : Part) : (s.setPart p x).nextLaunch = s.nextLaunch := rfl
@[simp] theorem State.setPart_nextPosted (s : State) (p : Nat) (x : Part) : (s.setPart p x).nextPosted = s.nextPosted := rfl
@[simp] theorem State.setPart_ticket (s : State) (p : Nat) (x : Part) : (s.setPart p x).ticket = s.ticket := rfl
@[simp] theorem State.setPart_md (s : State) (p : Nat) (x : Part) : (s.setPart p x).md = s.md := rfl
@[simp] theorem State.setPart_agenda (s : State) (p : Nat) (x : Part) : (s.setPart p x).agenda = s.agenda := rfl
@[simp] theorem State.setPart_cur (s : State) (p : Nat) (x : Part) : (s.setPart p x).cur = s.cur := rfl
@[simp] theorem State.setPart_fresh (s : State) (p : Nat) (x : Part) : (s.setPart p x).fresh = s.fresh := rfl
@[simp] theorem State.updPart_cycle (s : State) (p : Nat) (f : Part → Part) : (s.updPart p f).cycle = s.cycle := rfl
@[simp] theorem State.updPart_mem (s : State) (p : Nat) (f : Part → Part) : (s.updPart p f).mem = s.mem := rfl
@[simp] theorem State.updPart_wbuf (s : State) (p : Nat) (f : Part → Part) : (s.updPart p f).wbuf = s.wbuf := rfl
@[simp] theorem State.updPart_cachedW (s : State) (p : Nat) (f : Part → Part) : (s.updPart p f).cachedW = s.cachedW := rfl
@[simp] theorem State.updPart_uncachedW (s : State) (p : Nat) (f : Part → Part) : (s.updPart p f).uncachedW = s.uncachedW := rfl
@[simp] theorem State.updPart_flushed (s : State) (p : Nat) (f : Part → Part) : (s.updPart p f).flushed = s.flushed := rfl
@[simp] theorem State.updPart_settled (s : State) (p : Nat) (f : Part → Part) : (s.updPart p f).settled = s.settled := rfl
@[simp] theorem State.updPart_seen (s : State) (p : Nat) (f : Part → Part) : (s.updPart p f).seen = s.seen := rfl
@[simp] theorem State.updPart_bad (s : State) (p : Nat) (f : Part → Part) : (s.updPart p f).bad = s.bad := rfl
@[simp] theorem State.updPart_badL2 (s : State) (p : Nat) (f : Part → Part) : (s.updPart p f).badL2 = s.badL2 := rfl
@[simp] theorem State.updPart_badL1 (s : State) (p : Nat) (f : Part → Part) : (s.updPart p f).badL1 = s.badL1 := rfl
@[simp] theorem State.updPart_old (s : State) (p : Nat) (f : Part → Part) : (s.updPart p f).old = s.old := rfl
@[simp] theorem State.updPart_epoch (s : State) (p : Nat) (f : Part → Part) : (s.updPart p f).epoch = s.epoch := rfl
@[simp] theorem State.updPart_notLive (s : State) (p : Nat) (f : Part → Part) : (s.updPart p f).notLive = s.notLive := rfl
@[simp] theorem State.updPart_harts (s : State) (p : Nat) (f : Part → Part) : (s.updPart p f).harts = s.harts := rfl
@[simp] theorem State.updPart_cores (s : State) (p : Nat) (f : Part → Part) : (s.updPart p f).cores = s.cores := rfl
@[simp] theorem State.updPart_launches (s : State) (p : Nat) (f : Part → Part) : (s.updPart p f).launches = s.launches := rfl
@[simp] theorem State.updPart_posted (s : State) (p : Nat) (f : Part → Part) : (s.updPart p f).posted = s.posted := rfl
@[simp] theorem State.updPart_msgs (s : State) (p : Nat) (f : Part → Part) : (s.updPart p f).msgs = s.msgs := rfl
@[simp] theorem State.updPart_paceMsgs (s : State) (p : Nat) (f : Part → Part) : (s.updPart p f).paceMsgs = s.paceMsgs := rfl
@[simp] theorem State.updPart_gongMsgs (s : State) (p : Nat) (f : Part → Part) : (s.updPart p f).gongMsgs = s.gongMsgs := rfl
@[simp] theorem State.updPart_waitNos (s : State) (p : Nat) (f : Part → Part) : (s.updPart p f).waitNos = s.waitNos := rfl
@[simp] theorem State.updPart_nextLaunch (s : State) (p : Nat) (f : Part → Part) : (s.updPart p f).nextLaunch = s.nextLaunch := rfl
@[simp] theorem State.updPart_nextPosted (s : State) (p : Nat) (f : Part → Part) : (s.updPart p f).nextPosted = s.nextPosted := rfl
@[simp] theorem State.updPart_ticket (s : State) (p : Nat) (f : Part → Part) : (s.updPart p f).ticket = s.ticket := rfl
@[simp] theorem State.updPart_md (s : State) (p : Nat) (f : Part → Part) : (s.updPart p f).md = s.md := rfl
@[simp] theorem State.updPart_agenda (s : State) (p : Nat) (f : Part → Part) : (s.updPart p f).agenda = s.agenda := rfl
@[simp] theorem State.updPart_cur (s : State) (p : Nat) (f : Part → Part) : (s.updPart p f).cur = s.cur := rfl
@[simp] theorem State.updPart_fresh (s : State) (p : Nat) (f : Part → Part) : (s.updPart p f).fresh = s.fresh := rfl
@[simp] theorem State.poke_cycle (s : State) (k : Nat) (b : Byte) : (s.poke k b).cycle = s.cycle := rfl
@[simp] theorem State.poke_mem (s : State) (k : Nat) (b : Byte) : (s.poke k b).mem = s.mem := rfl
@[simp] theorem State.poke_cachedW (s : State) (k : Nat) (b : Byte) : (s.poke k b).cachedW = s.cachedW := rfl
@[simp] theorem State.poke_uncachedW (s : State) (k : Nat) (b : Byte) : (s.poke k b).uncachedW = s.uncachedW := rfl
@[simp] theorem State.poke_flushed (s : State) (k : Nat) (b : Byte) : (s.poke k b).flushed = s.flushed := rfl
@[simp] theorem State.poke_settled (s : State) (k : Nat) (b : Byte) : (s.poke k b).settled = s.settled := rfl
@[simp] theorem State.poke_seen (s : State) (k : Nat) (b : Byte) : (s.poke k b).seen = s.seen := rfl
@[simp] theorem State.poke_bad (s : State) (k : Nat) (b : Byte) : (s.poke k b).bad = s.bad := rfl
@[simp] theorem State.poke_badL2 (s : State) (k : Nat) (b : Byte) : (s.poke k b).badL2 = s.badL2 := rfl
@[simp] theorem State.poke_badL1 (s : State) (k : Nat) (b : Byte) : (s.poke k b).badL1 = s.badL1 := rfl
@[simp] theorem State.poke_old (s : State) (k : Nat) (b : Byte) : (s.poke k b).old = s.old := rfl
@[simp] theorem State.poke_epoch (s : State) (k : Nat) (b : Byte) : (s.poke k b).epoch = s.epoch := rfl
@[simp] theorem State.poke_notLive (s : State) (k : Nat) (b : Byte) : (s.poke k b).notLive = s.notLive := rfl
@[simp] theorem State.poke_harts (s : State) (k : Nat) (b : Byte) : (s.poke k b).harts = s.harts := rfl
@[simp] theorem State.poke_cores (s : State) (k : Nat) (b : Byte) : (s.poke k b).cores = s.cores := rfl
@[simp] theorem State.poke_launches (s : State) (k : Nat) (b : Byte) : (s.poke k b).launches = s.launches := rfl
@[simp] theorem State.poke_parts (s : State) (k : Nat) (b : Byte) : (s.poke k b).parts = s.parts := rfl
@[simp] theorem State.poke_posted (s : State) (k : Nat) (b : Byte) : (s.poke k b).posted = s.posted := rfl
@[simp] theorem State.poke_msgs (s : State) (k : Nat) (b : Byte) : (s.poke k b).msgs = s.msgs := rfl
@[simp] theorem State.poke_paceMsgs (s : State) (k : Nat) (b : Byte) : (s.poke k b).paceMsgs = s.paceMsgs := rfl
@[simp] theorem State.poke_gongMsgs (s : State) (k : Nat) (b : Byte) : (s.poke k b).gongMsgs = s.gongMsgs := rfl
@[simp] theorem State.poke_waitNos (s : State) (k : Nat) (b : Byte) : (s.poke k b).waitNos = s.waitNos := rfl
@[simp] theorem State.poke_nextLaunch (s : State) (k : Nat) (b : Byte) : (s.poke k b).nextLaunch = s.nextLaunch := rfl
@[simp] theorem State.poke_nextPosted (s : State) (k : Nat) (b : Byte) : (s.poke k b).nextPosted = s.nextPosted := rfl
@[simp] theorem State.poke_ticket (s : State) (k : Nat) (b : Byte) : (s.poke k b).ticket = s.ticket := rfl
@[simp] theorem State.poke_md (s : State) (k : Nat) (b : Byte) : (s.poke k b).md = s.md := rfl
@[simp] theorem State.poke_agenda (s : State) (k : Nat) (b : Byte) : (s.poke k b).agenda = s.agenda := rfl
@[simp] theorem State.poke_cur (s : State) (k : Nat) (b : Byte) : (s.poke k b).cur = s.cur := rfl
@[simp] theorem State.poke_fresh (s : State) (k : Nat) (b : Byte) : (s.poke k b).fresh = s.fresh := rfl
@[simp] theorem State.wipe_cycle (s : State) (lo hi : Nat) : (s.wipe lo hi).cycle = s.cycle := rfl
@[simp] theorem State.wipe_mem (s : State) (lo hi : Nat) : (s.wipe lo hi).mem = s.mem := rfl
@[simp] theorem State.wipe_cachedW (s : State) (lo hi : Nat) : (s.wipe lo hi).cachedW = s.cachedW := rfl
@[simp] theorem State.wipe_uncachedW (s : State) (lo hi : Nat) : (s.wipe lo hi).uncachedW = s.uncachedW := rfl
@[simp] theorem State.wipe_flushed (s : State) (lo hi : Nat) : (s.wipe lo hi).flushed = s.flushed := rfl
@[simp] theorem State.wipe_settled (s : State) (lo hi : Nat) : (s.wipe lo hi).settled = s.settled := rfl
@[simp] theorem State.wipe_seen (s : State) (lo hi : Nat) : (s.wipe lo hi).seen = s.seen := rfl
@[simp] theorem State.wipe_bad (s : State) (lo hi : Nat) : (s.wipe lo hi).bad = s.bad := rfl
@[simp] theorem State.wipe_badL2 (s : State) (lo hi : Nat) : (s.wipe lo hi).badL2 = s.badL2 := rfl
@[simp] theorem State.wipe_badL1 (s : State) (lo hi : Nat) : (s.wipe lo hi).badL1 = s.badL1 := rfl
@[simp] theorem State.wipe_old (s : State) (lo hi : Nat) : (s.wipe lo hi).old = s.old := rfl
@[simp] theorem State.wipe_epoch (s : State) (lo hi : Nat) : (s.wipe lo hi).epoch = s.epoch := rfl
@[simp] theorem State.wipe_notLive (s : State) (lo hi : Nat) : (s.wipe lo hi).notLive = s.notLive := rfl
@[simp] theorem State.wipe_harts (s : State) (lo hi : Nat) : (s.wipe lo hi).harts = s.harts := rfl
@[simp] theorem State.wipe_cores (s : State) (lo hi : Nat) : (s.wipe lo hi).cores = s.cores := rfl
@[simp] theorem State.wipe_launches (s : State) (lo hi : Nat) : (s.wipe lo hi).launches = s.launches := rfl
@[simp] theorem State.wipe_parts (s : State) (lo hi : Nat) : (s.wipe lo hi).parts = s.parts := rfl
@[simp] theorem State.wipe_posted (s : State) (lo hi : Nat) : (s.wipe lo hi).posted = s.posted := rfl
@[simp] theorem State.wipe_msgs (s : State) (lo hi : Nat) : (s.wipe lo hi).msgs = s.msgs := rfl
@[simp] theorem State.wipe_paceMsgs (s : State) (lo hi : Nat) : (s.wipe lo hi).paceMsgs = s.paceMsgs := rfl
@[simp] theorem State.wipe_gongMsgs (s : State) (lo hi : Nat) : (s.wipe lo hi).gongMsgs = s.gongMsgs := rfl
@[simp] theorem State.wipe_waitNos (s : State) (lo hi : Nat) : (s.wipe lo hi).waitNos = s.waitNos := rfl
@[simp] theorem State.wipe_nextLaunch (s : State) (lo hi : Nat) : (s.wipe lo hi).nextLaunch = s.nextLaunch := rfl
@[simp] theorem State.wipe_nextPosted (s : State) (lo hi : Nat) : (s.wipe lo hi).nextPosted = s.nextPosted := rfl
@[simp] theorem State.wipe_ticket (s : State) (lo hi : Nat) : (s.wipe lo hi).ticket = s.ticket := rfl
@[simp] theorem State.wipe_md (s : State) (lo hi : Nat) : (s.wipe lo hi).md = s.md := rfl
@[simp] theorem State.wipe_agenda (s : State) (lo hi : Nat) : (s.wipe lo hi).agenda = s.agenda := rfl
@[simp] theorem State.wipe_cur (s : State) (lo hi : Nat) : (s.wipe lo hi).cur = s.cur := rfl
@[simp] theorem State.wipe_fresh (s : State) (lo hi : Nat) : (s.wipe lo hi).fresh = s.fresh := rfl
@[simp] theorem State.choose_cycle (s : State) (n : Nat) : (s.choose n).1.cycle = s.cycle := rfl
@[simp] theorem State.choose_mem (s : State) (n : Nat) : (s.choose n).1.mem = s.mem := rfl
@[simp] theorem State.choose_wbuf (s : State) (n : Nat) : (s.choose n).1.wbuf = s.wbuf := rfl
@[simp] theorem State.choose_cachedW (s : State) (n : Nat) : (s.choose n).1.cachedW = s.cachedW := rfl
@[simp] theorem State.choose_uncachedW (s : State) (n : Nat) : (s.choose n).1.uncachedW = s.uncachedW := rfl
@[simp] theorem State.choose_flushed (s : State) (n : Nat) : (s.choose n).1.flushed = s.flushed := rfl
@[simp] theorem State.choose_settled (s : State) (n : Nat) : (s.choose n).1.settled = s.settled := rfl
@[simp] theorem State.choose_seen (s : State) (n : Nat) : (s.choose n).1.seen = s.seen := rfl
@[simp] theorem State.choose_bad (s : State) (n : Nat) : (s.choose n).1.bad = s.bad := rfl
@[simp] theorem State.choose_badL2 (s : State) (n : Nat) : (s.choose n).1.badL2 = s.badL2 := rfl
@[simp] theorem State.choose_badL1 (s : State) (n : Nat) : (s.choose n).1.badL1 = s.badL1 := rfl
@[simp] theorem State.choose_old (s : State) (n : Nat) : (s.choose n).1.old = s.old := rfl
@[simp] theorem State.choose_epoch (s : State) (n : Nat) : (s.choose n).1.epoch = s.epoch := rfl
@[simp] theorem State.choose_notLive (s : State) (n : Nat) : (s.choose n).1.notLive = s.notLive := rfl
@[simp] theorem State.choose_harts (s : State) (n : Nat) : (s.choose n).1.harts = s.harts := rfl
@[simp] theorem State.choose_cores (s : State) (n : Nat) : (s.choose n).1.cores = s.cores := rfl
@[simp] theorem State.choose_launches (s : State) (n : Nat) : (s.choose n).1.launches = s.launches := rfl
@[simp] theorem State.choose_parts (s : State) (n : Nat) : (s.choose n).1.parts = s.parts := rfl
@[simp] theorem State.choose_posted (s : State) (n : Nat) : (s.choose n).1.posted = s.posted := rfl
@[simp] theorem State.choose_msgs (s : State) (n : Nat) : (s.choose n).1.msgs = s.msgs := rfl
@[simp] theorem State.choose_paceMsgs (s : State) (n : Nat) : (s.choose n).1.paceMsgs = s.paceMsgs := rfl
@[simp] theorem State.choose_gongMsgs (s : State) (n : Nat) : (s.choose n).1.gongMsgs = s.gongMsgs := rfl
@[simp] theorem State.choose_waitNos (s : State) (n : Nat) : (s.choose n).1.waitNos = s.waitNos := rfl
@[simp] theorem State.choose_nextLaunch (s : State) (n : Nat) : (s.choose n).1.nextLaunch = s.nextLaunch := rfl
@[simp] theorem State.choose_nextPosted (s : State) (n : Nat) : (s.choose n).1.nextPosted = s.nextPosted := rfl
@[simp] theorem State.choose_ticket (s : State) (n : Nat) : (s.choose n).1.ticket = s.ticket := rfl
@[simp] theorem State.choose_md (s : State) (n : Nat) : (s.choose n).1.md = s.md := rfl
@[simp] theorem State.choose_agenda (s : State) (n : Nat) : (s.choose n).1.agenda = s.agenda := rfl
@[simp] theorem State.choose_cur (s : State) (n : Nat) : (s.choose n).1.cur = s.cur := rfl
@[simp] theorem State.choose_fresh (s : State) (n : Nat) : (s.choose n).1.fresh = s.fresh + 1 := rfl
@[simp] theorem State.draw_cycle (s : State) : (s.draw).1.cycle = s.cycle := rfl
@[simp] theorem State.draw_mem (s : State) : (s.draw).1.mem = s.mem := rfl
@[simp] theorem State.draw_wbuf (s : State) : (s.draw).1.wbuf = s.wbuf := rfl
@[simp] theorem State.draw_cachedW (s : State) : (s.draw).1.cachedW = s.cachedW := rfl
@[simp] theorem State.draw_uncachedW (s : State) : (s.draw).1.uncachedW = s.uncachedW := rfl
@[simp] theorem State.draw_flushed (s : State) : (s.draw).1.flushed = s.flushed := rfl
@[simp] theorem State.draw_settled (s : State) : (s.draw).1.settled = s.settled := rfl
@[simp] theorem State.draw_seen (s : State) : (s.draw).1.seen = s.seen := rfl
@[simp] theorem State.draw_bad (s : State) : (s.draw).1.bad = s.bad := rfl
@[simp] theorem State.draw_badL2 (s : State) : (s.draw).1.badL2 = s.badL2 := rfl
@[simp] theorem State.draw_badL1 (s : State) : (s.draw).1.badL1 = s.badL1 := rfl
@[simp] theorem State.draw_old (s : State) : (s.draw).1.old = s.old := rfl
@[simp] theorem State.draw_epoch (s : State) : (s.draw).1.epoch = s.epoch := rfl
@[simp] theorem State.draw_notLive (s : State) : (s.draw).1.notLive = s.notLive := rfl
@[simp] theorem State.draw_harts (s : State) : (s.draw).1.harts = s.harts := rfl
@[simp] theorem State.draw_cores (s : State) : (s.draw).1.cores = s.cores := rfl
@[simp] theorem State.draw_launches (s : State) : (s.draw).1.launches = s.launches := rfl
@[simp] theorem State.draw_parts (s : State) : (s.draw).1.parts = s.parts := rfl
@[simp] theorem State.draw_posted (s : State) : (s.draw).1.posted = s.posted := rfl
@[simp] theorem State.draw_msgs (s : State) : (s.draw).1.msgs = s.msgs := rfl
@[simp] theorem State.draw_paceMsgs (s : State) : (s.draw).1.paceMsgs = s.paceMsgs := rfl
@[simp] theorem State.draw_gongMsgs (s : State) : (s.draw).1.gongMsgs = s.gongMsgs := rfl
@[simp] theorem State.draw_waitNos (s : State) : (s.draw).1.waitNos = s.waitNos := rfl
@[simp] theorem State.draw_nextLaunch (s : State) : (s.draw).1.nextLaunch = s.nextLaunch := rfl
@[simp] theorem State.draw_nextPosted (s : State) : (s.draw).1.nextPosted = s.nextPosted := rfl
@[simp] theorem State.draw_ticket (s : State) : (s.draw).1.ticket = s.ticket := rfl
@[simp] theorem State.draw_md (s : State) : (s.draw).1.md = s.md := rfl
@[simp] theorem State.draw_agenda (s : State) : (s.draw).1.agenda = s.agenda := rfl
@[simp] theorem State.draw_cur (s : State) : (s.draw).1.cur = s.cur := rfl
@[simp] theorem State.draw_fresh (s : State) : (s.draw).1.fresh = s.fresh + 1 := rfl

/-- What closing a step leaves of memory: the old memory with the step's operations. -/
@[simp] theorem close_mem (s t : State) : (close s t).mem = s.mem.commit t.wbuf := rfl
@[simp] theorem close_wbuf (s t : State) : (close s t).wbuf = [] := rfl
@[simp] theorem close_old (s t : State) : (close s t).old = noteStep s.mem (s.mem.commit t.wbuf) t.epoch t.wbuf t.old := rfl
@[simp] theorem close_epoch (s t : State) : (close s t).epoch = nextEpoch s.mem t.epoch t.wbuf := rfl
@[simp] theorem close_cycle (s t : State) : (close s t).cycle = t.cycle := rfl
@[simp] theorem close_cachedW (s t : State) : (close s t).cachedW = t.cachedW := rfl
@[simp] theorem close_uncachedW (s t : State) : (close s t).uncachedW = t.uncachedW := rfl
@[simp] theorem close_flushed (s t : State) : (close s t).flushed = t.flushed := rfl
@[simp] theorem close_settled (s t : State) : (close s t).settled = t.settled := rfl
@[simp] theorem close_seen (s t : State) : (close s t).seen = t.seen := rfl
@[simp] theorem close_bad (s t : State) : (close s t).bad = t.bad := rfl
@[simp] theorem close_badL2 (s t : State) : (close s t).badL2 = t.badL2 := rfl
@[simp] theorem close_badL1 (s t : State) : (close s t).badL1 = t.badL1 := rfl
@[simp] theorem close_notLive (s t : State) : (close s t).notLive = t.notLive := rfl
@[simp] theorem close_harts (s t : State) : (close s t).harts = t.harts := rfl
@[simp] theorem close_cores (s t : State) : (close s t).cores = t.cores := rfl
@[simp] theorem close_launches (s t : State) : (close s t).launches = t.launches := rfl
@[simp] theorem close_parts (s t : State) : (close s t).parts = t.parts := rfl
@[simp] theorem close_posted (s t : State) : (close s t).posted = t.posted := rfl
@[simp] theorem close_msgs (s t : State) : (close s t).msgs = t.msgs := rfl
@[simp] theorem close_paceMsgs (s t : State) : (close s t).paceMsgs = t.paceMsgs := rfl
@[simp] theorem close_gongMsgs (s t : State) : (close s t).gongMsgs = t.gongMsgs := rfl
@[simp] theorem close_waitNos (s t : State) : (close s t).waitNos = t.waitNos := rfl
@[simp] theorem close_nextLaunch (s t : State) : (close s t).nextLaunch = t.nextLaunch := rfl
@[simp] theorem close_nextPosted (s t : State) : (close s t).nextPosted = t.nextPosted := rfl
@[simp] theorem close_ticket (s t : State) : (close s t).ticket = t.ticket := rfl
@[simp] theorem close_md (s t : State) : (close s t).md = t.md := rfl
@[simp] theorem close_agenda (s t : State) : (close s t).agenda = t.agenda := rfl
@[simp] theorem close_cur (s t : State) : (close s t).cur = t.cur := rfl
@[simp] theorem close_fresh (s t : State) : (close s t).fresh = t.fresh := rfl

/-! ## Updates of a hart, field by field -/

@[simp] theorem Hart.setS_phase (h : Hart) (r : SReg) (v : Dbl) : (h.setS r v).phase = h.phase := by unfold Hart.setS; split <;> rfl
@[simp] theorem Hart.setS_p (h : Hart) (r : SReg) (v : Dbl) : (h.setS r v).p = h.p := by unfold Hart.setS; split <;> rfl
@[simp] theorem Hart.setS_v (h : Hart) (r : SReg) (v : Dbl) : (h.setS r v).v = h.v := by unfold Hart.setS; split <;> rfl
@[simp] theorem Hart.setS_m (h : Hart) (r : SReg) (v : Dbl) : (h.setS r v).m = h.m := by unfold Hart.setS; split <;> rfl
@[simp] theorem Hart.setS_vnew (h : Hart) (r : SReg) (v : Dbl) : (h.setS r v).vnew = h.vnew := by unfold Hart.setS; split <;> rfl
@[simp] theorem Hart.setS_vkept (h : Hart) (r : SReg) (v : Dbl) : (h.setS r v).vkept = h.vkept := by unfold Hart.setS; split <;> rfl
@[simp] theorem Hart.setS_lq (h : Hart) (r : SReg) (v : Dbl) : (h.setS r v).lq = h.lq := by unfold Hart.setS; split <;> rfl
@[simp] theorem Hart.setS_sq (h : Hart) (r : SReg) (v : Dbl) : (h.setS r v).sq = h.sq := by unfold Hart.setS; split <;> rfl
@[simp] theorem Hart.setS_lqTail (h : Hart) (r : SReg) (v : Dbl) : (h.setS r v).lqTail = h.lqTail := by unfold Hart.setS; split <;> rfl
@[simp] theorem Hart.setS_sqTail (h : Hart) (r : SReg) (v : Dbl) : (h.setS r v).sqTail = h.sqTail := by unfold Hart.setS; split <;> rfl
@[simp] theorem Hart.setS_xq (h : Hart) (r : SReg) (v : Dbl) : (h.setS r v).xq = h.xq := by unfold Hart.setS; split <;> rfl
@[simp] theorem Hart.setS_win (h : Hart) (r : SReg) (v : Dbl) : (h.setS r v).win = h.win := by unfold Hart.setS; split <;> rfl
@[simp] theorem Hart.setS_pc (h : Hart) (r : SReg) (v : Dbl) : (h.setS r v).pc = h.pc := by unfold Hart.setS; split <;> rfl
@[simp] theorem Hart.setS_eix (h : Hart) (r : SReg) (v : Dbl) : (h.setS r v).eix = h.eix := by unfold Hart.setS; split <;> rfl
@[simp] theorem Hart.setS_line (h : Hart) (r : SReg) (v : Dbl) : (h.setS r v).line = h.line := by unfold Hart.setS; split <;> rfl
@[simp] theorem Hart.setS_sup (h : Hart) (r : SReg) (v : Dbl) : (h.setS r v).sup = h.sup := by unfold Hart.setS; split <;> rfl
@[simp] theorem Hart.setS_vl (h : Hart) (r : SReg) (v : Dbl) : (h.setS r v).vl = h.vl := by unfold Hart.setS; split <;> rfl
@[simp] theorem Hart.setS_vlh (h : Hart) (r : SReg) (v : Dbl) : (h.setS r v).vlh = h.vlh := by unfold Hart.setS; split <;> rfl
@[simp] theorem Hart.setS_vlcap (h : Hart) (r : SReg) (v : Dbl) : (h.setS r v).vlcap = h.vlcap := by unfold Hart.setS; split <;> rfl
@[simp] theorem Hart.setS_shp (h : Hart) (r : SReg) (v : Dbl) : (h.setS r v).shp = h.shp := by unfold Hart.setS; split <;> rfl
@[simp] theorem Hart.setS_ffe (h : Hart) (r : SReg) (v : Dbl) : (h.setS r v).ffe = h.ffe := by unfold Hart.setS; split <;> rfl
@[simp] theorem Hart.setS_vsat (h : Hart) (r : SReg) (v : Dbl) : (h.setS r v).vsat = h.vsat := by unfold Hart.setS; split <;> rfl
@[simp] theorem Hart.setS_fflags (h : Hart) (r : SReg) (v : Dbl) : (h.setS r v).fflags = h.fflags := by unfold Hart.setS; split <;> rfl
@[simp] theorem Hart.setS_srseed (h : Hart) (r : SReg) (v : Dbl) : (h.setS r v).srseed = h.srseed := by unfold Hart.setS; split <;> rfl
@[simp] theorem Hart.setS_tagown (h : Hart) (r : SReg) (v : Dbl) : (h.setS r v).tagown = h.tagown := by unfold Hart.setS; split <;> rfl
@[simp] theorem Hart.setS_cbown (h : Hart) (r : SReg) (v : Dbl) : (h.setS r v).cbown = h.cbown := by unfold Hart.setS; split <;> rfl
@[simp] theorem Hart.setS_tilown (h : Hart) (r : SReg) (v : Dbl) : (h.setS r v).tilown = h.tilown := by unfold Hart.setS; split <;> rfl
@[simp] theorem Hart.setS_laneReq (h : Hart) (r : SReg) (v : Dbl) : (h.setS r v).laneReq = h.laneReq := by unfold Hart.setS; split <;> rfl
@[simp] theorem Hart.setS_lanes (h : Hart) (r : SReg) (v : Dbl) : (h.setS r v).lanes = h.lanes := by unfold Hart.setS; split <;> rfl
@[simp] theorem Hart.setS_icount (h : Hart) (r : SReg) (v : Dbl) : (h.setS r v).icount = h.icount := by unfold Hart.setS; split <;> rfl
@[simp] theorem Hart.setS_tvec (h : Hart) (r : SReg) (v : Dbl) : (h.setS r v).tvec = h.tvec := by unfold Hart.setS; split <;> rfl
@[simp] theorem Hart.setS_tcause (h : Hart) (r : SReg) (v : Dbl) : (h.setS r v).tcause = h.tcause := by unfold Hart.setS; split <;> rfl
@[simp] theorem Hart.setS_tside (h : Hart) (r : SReg) (v : Dbl) : (h.setS r v).tside = h.tside := by unfold Hart.setS; split <;> rfl
@[simp] theorem Hart.setS_tpc (h : Hart) (r : SReg) (v : Dbl) : (h.setS r v).tpc = h.tpc := by unfold Hart.setS; split <;> rfl
@[simp] theorem Hart.setS_teix (h : Hart) (r : SReg) (v : Dbl) : (h.setS r v).teix = h.teix := by unfold Hart.setS; split <;> rfl
@[simp] theorem Hart.setS_tval (h : Hart) (r : SReg) (v : Dbl) : (h.setS r v).tval = h.tval := by unfold Hart.setS; split <;> rfl
@[simp] theorem Hart.setS_aeix (h : Hart) (r : SReg) (v : Dbl) : (h.setS r v).aeix = h.aeix := by unfold Hart.setS; split <;> rfl
@[simp] theorem Hart.setS_tpm (h : Hart) (r : SReg) (v : Dbl) : (h.setS r v).tpm = h.tpm := by unfold Hart.setS; split <;> rfl
@[simp] theorem Hart.setS_tscratch (h : Hart) (r : SReg) (v : Dbl) : (h.setS r v).tscratch = h.tscratch := by unfold Hart.setS; split <;> rfl
@[simp] theorem Hart.setS_txw (h : Hart) (r : SReg) (v : Dbl) : (h.setS r v).txw = h.txw := by unfold Hart.setS; split <;> rfl
@[simp] theorem Hart.setS_stopT (h : Hart) (r : SReg) (v : Dbl) : (h.setS r v).stopT = h.stopT := by unfold Hart.setS; split <;> rfl
@[simp] theorem Hart.setS_boundT (h : Hart) (r : SReg) (v : Dbl) : (h.setS r v).boundT = h.boundT := by unfold Hart.setS; split <;> rfl
@[simp] theorem Hart.setS_stopA (h : Hart) (r : SReg) (v : Dbl) : (h.setS r v).stopA = h.stopA := by unfold Hart.setS; split <;> rfl
@[simp] theorem Hart.setS_boundA (h : Hart) (r : SReg) (v : Dbl) : (h.setS r v).boundA = h.boundA := by unfold Hart.setS; split <;> rfl
@[simp] theorem Hart.setS_ptbase (h : Hart) (r : SReg) (v : Dbl) : (h.setS r v).ptbase = h.ptbase := by unfold Hart.setS; split <;> rfl
@[simp] theorem Hart.setS_root (h : Hart) (r : SReg) (v : Dbl) : (h.setS r v).root = h.root := by unfold Hart.setS; split <;> rfl
@[simp] theorem Hart.setS_savearea (h : Hart) (r : SReg) (v : Dbl) : (h.setS r v).savearea = h.savearea := by unfold Hart.setS; split <;> rfl
@[simp] theorem Hart.setS_leases (h : Hart) (r : SReg) (v : Dbl) : (h.setS r v).leases = h.leases := by unfold Hart.setS; split <;> rfl
@[simp] theorem Hart.setS_gongs (h : Hart) (r : SReg) (v : Dbl) : (h.setS r v).gongs = h.gongs := by unfold Hart.setS; split <;> rfl
@[simp] theorem Hart.setS_arrived (h : Hart) (r : SReg) (v : Dbl) : (h.setS r v).arrived = h.arrived := by unfold Hart.setS; split <;> rfl
@[simp] theorem Hart.setS_claim (h : Hart) (r : SReg) (v : Dbl) : (h.setS r v).claim = h.claim := by unfold Hart.setS; split <;> rfl
@[simp] theorem Hart.setS_nest (h : Hart) (r : SReg) (v : Dbl) : (h.setS r v).nest = h.nest := by unfold Hart.setS; split <;> rfl
@[simp] theorem Hart.setS_askips (h : Hart) (r : SReg) (v : Dbl) : (h.setS r v).askips = h.askips := by unfold Hart.setS; split <;> rfl
@[simp] theorem Hart.setS_wait (h : Hart) (r : SReg) (v : Dbl) : (h.setS r v).wait = h.wait := by unfold Hart.setS; split <;> rfl
@[simp] theorem Hart.setS_waitNo (h : Hart) (r : SReg) (v : Dbl) : (h.setS r v).waitNo = h.waitNo := by unfold Hart.setS; split <;> rfl
@[simp] theorem Hart.setS_blocked (h : Hart) (r : SReg) (v : Dbl) : (h.setS r v).blocked = h.blocked := by unfold Hart.setS; split <;> rfl
@[simp] theorem Hart.setS_xstop (h : Hart) (r : SReg) (v : Dbl) : (h.setS r v).xstop = h.xstop := by unfold Hart.setS; split <;> rfl
@[simp] theorem Hart.setS_nb (h : Hart) (r : SReg) (v : Dbl) : (h.setS r v).nb = h.nb := by unfold Hart.setS; split <;> rfl
@[simp] theorem Hart.setS_answers (h : Hart) (r : SReg) (v : Dbl) : (h.setS r v).answers = h.answers := by unfold Hart.setS; split <;> rfl
@[simp] theorem Hart.setS_pause (h : Hart) (r : SReg) (v : Dbl) : (h.setS r v).pause = h.pause := by unfold Hart.setS; split <;> rfl
@[simp] theorem Hart.setS_ydEnd (h : Hart) (r : SReg) (v : Dbl) : (h.setS r v).ydEnd = h.ydEnd := by unfold Hart.setS; split <;> rfl
@[simp] theorem Hart.setS_seen (h : Hart) (r : SReg) (v : Dbl) : (h.setS r v).seen = h.seen := by unfold Hart.setS; split <;> rfl
@[simp] theorem Hart.setS_fenced (h : Hart) (r : SReg) (v : Dbl) : (h.setS r v).fenced = h.fenced := by unfold Hart.setS; split <;> rfl
@[simp] theorem Hart.setS_heard (h : Hart) (r : SReg) (v : Dbl) : (h.setS r v).heard = h.heard := by unfold Hart.setS; split <;> rfl
@[simp] theorem Hart.setP_phase (h : Hart) (r : PReg) (b : Bool) : (h.setP r b).phase = h.phase := by unfold Hart.setP; split <;> rfl
@[simp] theorem Hart.setP_x (h : Hart) (r : PReg) (b : Bool) : (h.setP r b).x = h.x := by unfold Hart.setP; split <;> rfl
@[simp] theorem Hart.setP_v (h : Hart) (r : PReg) (b : Bool) : (h.setP r b).v = h.v := by unfold Hart.setP; split <;> rfl
@[simp] theorem Hart.setP_m (h : Hart) (r : PReg) (b : Bool) : (h.setP r b).m = h.m := by unfold Hart.setP; split <;> rfl
@[simp] theorem Hart.setP_vnew (h : Hart) (r : PReg) (b : Bool) : (h.setP r b).vnew = h.vnew := by unfold Hart.setP; split <;> rfl
@[simp] theorem Hart.setP_vkept (h : Hart) (r : PReg) (b : Bool) : (h.setP r b).vkept = h.vkept := by unfold Hart.setP; split <;> rfl
@[simp] theorem Hart.setP_lq (h : Hart) (r : PReg) (b : Bool) : (h.setP r b).lq = h.lq := by unfold Hart.setP; split <;> rfl
@[simp] theorem Hart.setP_sq (h : Hart) (r : PReg) (b : Bool) : (h.setP r b).sq = h.sq := by unfold Hart.setP; split <;> rfl
@[simp] theorem Hart.setP_lqTail (h : Hart) (r : PReg) (b : Bool) : (h.setP r b).lqTail = h.lqTail := by unfold Hart.setP; split <;> rfl
@[simp] theorem Hart.setP_sqTail (h : Hart) (r : PReg) (b : Bool) : (h.setP r b).sqTail = h.sqTail := by unfold Hart.setP; split <;> rfl
@[simp] theorem Hart.setP_xq (h : Hart) (r : PReg) (b : Bool) : (h.setP r b).xq = h.xq := by unfold Hart.setP; split <;> rfl
@[simp] theorem Hart.setP_win (h : Hart) (r : PReg) (b : Bool) : (h.setP r b).win = h.win := by unfold Hart.setP; split <;> rfl
@[simp] theorem Hart.setP_pc (h : Hart) (r : PReg) (b : Bool) : (h.setP r b).pc = h.pc := by unfold Hart.setP; split <;> rfl
@[simp] theorem Hart.setP_eix (h : Hart) (r : PReg) (b : Bool) : (h.setP r b).eix = h.eix := by unfold Hart.setP; split <;> rfl
@[simp] theorem Hart.setP_line (h : Hart) (r : PReg) (b : Bool) : (h.setP r b).line = h.line := by unfold Hart.setP; split <;> rfl
@[simp] theorem Hart.setP_sup (h : Hart) (r : PReg) (b : Bool) : (h.setP r b).sup = h.sup := by unfold Hart.setP; split <;> rfl
@[simp] theorem Hart.setP_vl (h : Hart) (r : PReg) (b : Bool) : (h.setP r b).vl = h.vl := by unfold Hart.setP; split <;> rfl
@[simp] theorem Hart.setP_vlh (h : Hart) (r : PReg) (b : Bool) : (h.setP r b).vlh = h.vlh := by unfold Hart.setP; split <;> rfl
@[simp] theorem Hart.setP_vlcap (h : Hart) (r : PReg) (b : Bool) : (h.setP r b).vlcap = h.vlcap := by unfold Hart.setP; split <;> rfl
@[simp] theorem Hart.setP_shp (h : Hart) (r : PReg) (b : Bool) : (h.setP r b).shp = h.shp := by unfold Hart.setP; split <;> rfl
@[simp] theorem Hart.setP_ffe (h : Hart) (r : PReg) (b : Bool) : (h.setP r b).ffe = h.ffe := by unfold Hart.setP; split <;> rfl
@[simp] theorem Hart.setP_vsat (h : Hart) (r : PReg) (b : Bool) : (h.setP r b).vsat = h.vsat := by unfold Hart.setP; split <;> rfl
@[simp] theorem Hart.setP_fflags (h : Hart) (r : PReg) (b : Bool) : (h.setP r b).fflags = h.fflags := by unfold Hart.setP; split <;> rfl
@[simp] theorem Hart.setP_srseed (h : Hart) (r : PReg) (b : Bool) : (h.setP r b).srseed = h.srseed := by unfold Hart.setP; split <;> rfl
@[simp] theorem Hart.setP_tagown (h : Hart) (r : PReg) (b : Bool) : (h.setP r b).tagown = h.tagown := by unfold Hart.setP; split <;> rfl
@[simp] theorem Hart.setP_cbown (h : Hart) (r : PReg) (b : Bool) : (h.setP r b).cbown = h.cbown := by unfold Hart.setP; split <;> rfl
@[simp] theorem Hart.setP_tilown (h : Hart) (r : PReg) (b : Bool) : (h.setP r b).tilown = h.tilown := by unfold Hart.setP; split <;> rfl
@[simp] theorem Hart.setP_laneReq (h : Hart) (r : PReg) (b : Bool) : (h.setP r b).laneReq = h.laneReq := by unfold Hart.setP; split <;> rfl
@[simp] theorem Hart.setP_lanes (h : Hart) (r : PReg) (b : Bool) : (h.setP r b).lanes = h.lanes := by unfold Hart.setP; split <;> rfl
@[simp] theorem Hart.setP_icount (h : Hart) (r : PReg) (b : Bool) : (h.setP r b).icount = h.icount := by unfold Hart.setP; split <;> rfl
@[simp] theorem Hart.setP_tvec (h : Hart) (r : PReg) (b : Bool) : (h.setP r b).tvec = h.tvec := by unfold Hart.setP; split <;> rfl
@[simp] theorem Hart.setP_tcause (h : Hart) (r : PReg) (b : Bool) : (h.setP r b).tcause = h.tcause := by unfold Hart.setP; split <;> rfl
@[simp] theorem Hart.setP_tside (h : Hart) (r : PReg) (b : Bool) : (h.setP r b).tside = h.tside := by unfold Hart.setP; split <;> rfl
@[simp] theorem Hart.setP_tpc (h : Hart) (r : PReg) (b : Bool) : (h.setP r b).tpc = h.tpc := by unfold Hart.setP; split <;> rfl
@[simp] theorem Hart.setP_teix (h : Hart) (r : PReg) (b : Bool) : (h.setP r b).teix = h.teix := by unfold Hart.setP; split <;> rfl
@[simp] theorem Hart.setP_tval (h : Hart) (r : PReg) (b : Bool) : (h.setP r b).tval = h.tval := by unfold Hart.setP; split <;> rfl
@[simp] theorem Hart.setP_aeix (h : Hart) (r : PReg) (b : Bool) : (h.setP r b).aeix = h.aeix := by unfold Hart.setP; split <;> rfl
@[simp] theorem Hart.setP_tpm (h : Hart) (r : PReg) (b : Bool) : (h.setP r b).tpm = h.tpm := by unfold Hart.setP; split <;> rfl
@[simp] theorem Hart.setP_tscratch (h : Hart) (r : PReg) (b : Bool) : (h.setP r b).tscratch = h.tscratch := by unfold Hart.setP; split <;> rfl
@[simp] theorem Hart.setP_txw (h : Hart) (r : PReg) (b : Bool) : (h.setP r b).txw = h.txw := by unfold Hart.setP; split <;> rfl
@[simp] theorem Hart.setP_stopT (h : Hart) (r : PReg) (b : Bool) : (h.setP r b).stopT = h.stopT := by unfold Hart.setP; split <;> rfl
@[simp] theorem Hart.setP_boundT (h : Hart) (r : PReg) (b : Bool) : (h.setP r b).boundT = h.boundT := by unfold Hart.setP; split <;> rfl
@[simp] theorem Hart.setP_stopA (h : Hart) (r : PReg) (b : Bool) : (h.setP r b).stopA = h.stopA := by unfold Hart.setP; split <;> rfl
@[simp] theorem Hart.setP_boundA (h : Hart) (r : PReg) (b : Bool) : (h.setP r b).boundA = h.boundA := by unfold Hart.setP; split <;> rfl
@[simp] theorem Hart.setP_ptbase (h : Hart) (r : PReg) (b : Bool) : (h.setP r b).ptbase = h.ptbase := by unfold Hart.setP; split <;> rfl
@[simp] theorem Hart.setP_root (h : Hart) (r : PReg) (b : Bool) : (h.setP r b).root = h.root := by unfold Hart.setP; split <;> rfl
@[simp] theorem Hart.setP_savearea (h : Hart) (r : PReg) (b : Bool) : (h.setP r b).savearea = h.savearea := by unfold Hart.setP; split <;> rfl
@[simp] theorem Hart.setP_leases (h : Hart) (r : PReg) (b : Bool) : (h.setP r b).leases = h.leases := by unfold Hart.setP; split <;> rfl
@[simp] theorem Hart.setP_gongs (h : Hart) (r : PReg) (b : Bool) : (h.setP r b).gongs = h.gongs := by unfold Hart.setP; split <;> rfl
@[simp] theorem Hart.setP_arrived (h : Hart) (r : PReg) (b : Bool) : (h.setP r b).arrived = h.arrived := by unfold Hart.setP; split <;> rfl
@[simp] theorem Hart.setP_claim (h : Hart) (r : PReg) (b : Bool) : (h.setP r b).claim = h.claim := by unfold Hart.setP; split <;> rfl
@[simp] theorem Hart.setP_nest (h : Hart) (r : PReg) (b : Bool) : (h.setP r b).nest = h.nest := by unfold Hart.setP; split <;> rfl
@[simp] theorem Hart.setP_askips (h : Hart) (r : PReg) (b : Bool) : (h.setP r b).askips = h.askips := by unfold Hart.setP; split <;> rfl
@[simp] theorem Hart.setP_wait (h : Hart) (r : PReg) (b : Bool) : (h.setP r b).wait = h.wait := by unfold Hart.setP; split <;> rfl
@[simp] theorem Hart.setP_waitNo (h : Hart) (r : PReg) (b : Bool) : (h.setP r b).waitNo = h.waitNo := by unfold Hart.setP; split <;> rfl
@[simp] theorem Hart.setP_blocked (h : Hart) (r : PReg) (b : Bool) : (h.setP r b).blocked = h.blocked := by unfold Hart.setP; split <;> rfl
@[simp] theorem Hart.setP_xstop (h : Hart) (r : PReg) (b : Bool) : (h.setP r b).xstop = h.xstop := by unfold Hart.setP; split <;> rfl
@[simp] theorem Hart.setP_nb (h : Hart) (r : PReg) (b : Bool) : (h.setP r b).nb = h.nb := by unfold Hart.setP; split <;> rfl
@[simp] theorem Hart.setP_answers (h : Hart) (r : PReg) (b : Bool) : (h.setP r b).answers = h.answers := by unfold Hart.setP; split <;> rfl
@[simp] theorem Hart.setP_pause (h : Hart) (r : PReg) (b : Bool) : (h.setP r b).pause = h.pause := by unfold Hart.setP; split <;> rfl
@[simp] theorem Hart.setP_ydEnd (h : Hart) (r : PReg) (b : Bool) : (h.setP r b).ydEnd = h.ydEnd := by unfold Hart.setP; split <;> rfl
@[simp] theorem Hart.setP_seen (h : Hart) (r : PReg) (b : Bool) : (h.setP r b).seen = h.seen := by unfold Hart.setP; split <;> rfl
@[simp] theorem Hart.setP_fenced (h : Hart) (r : PReg) (b : Bool) : (h.setP r b).fenced = h.fenced := by unfold Hart.setP; split <;> rfl
@[simp] theorem Hart.setP_heard (h : Hart) (r : PReg) (b : Bool) : (h.setP r b).heard = h.heard := by unfold Hart.setP; split <;> rfl
@[simp] theorem Hart.setVr_phase (h : Hart) (r : VReg) (v : VVal) (n : Nat) : (h.setVr r v n).phase = h.phase := rfl
@[simp] theorem Hart.setVr_x (h : Hart) (r : VReg) (v : VVal) (n : Nat) : (h.setVr r v n).x = h.x := rfl
@[simp] theorem Hart.setVr_p (h : Hart) (r : VReg) (v : VVal) (n : Nat) : (h.setVr r v n).p = h.p := rfl
@[simp] theorem Hart.setVr_m (h : Hart) (r : VReg) (v : VVal) (n : Nat) : (h.setVr r v n).m = h.m := rfl
@[simp] theorem Hart.setVr_vkept (h : Hart) (r : VReg) (v : VVal) (n : Nat) : (h.setVr r v n).vkept = h.vkept := rfl
@[simp] theorem Hart.setVr_lq (h : Hart) (r : VReg) (v : VVal) (n : Nat) : (h.setVr r v n).lq = h.lq := rfl
@[simp] theorem Hart.setVr_sq (h : Hart) (r : VReg) (v : VVal) (n : Nat) : (h.setVr r v n).sq = h.sq := rfl
@[simp] theorem Hart.setVr_lqTail (h : Hart) (r : VReg) (v : VVal) (n : Nat) : (h.setVr r v n).lqTail = h.lqTail := rfl
@[simp] theorem Hart.setVr_sqTail (h : Hart) (r : VReg) (v : VVal) (n : Nat) : (h.setVr r v n).sqTail = h.sqTail := rfl
@[simp] theorem Hart.setVr_xq (h : Hart) (r : VReg) (v : VVal) (n : Nat) : (h.setVr r v n).xq = h.xq := rfl
@[simp] theorem Hart.setVr_win (h : Hart) (r : VReg) (v : VVal) (n : Nat) : (h.setVr r v n).win = h.win := rfl
@[simp] theorem Hart.setVr_pc (h : Hart) (r : VReg) (v : VVal) (n : Nat) : (h.setVr r v n).pc = h.pc := rfl
@[simp] theorem Hart.setVr_eix (h : Hart) (r : VReg) (v : VVal) (n : Nat) : (h.setVr r v n).eix = h.eix := rfl
@[simp] theorem Hart.setVr_line (h : Hart) (r : VReg) (v : VVal) (n : Nat) : (h.setVr r v n).line = h.line := rfl
@[simp] theorem Hart.setVr_sup (h : Hart) (r : VReg) (v : VVal) (n : Nat) : (h.setVr r v n).sup = h.sup := rfl
@[simp] theorem Hart.setVr_vl (h : Hart) (r : VReg) (v : VVal) (n : Nat) : (h.setVr r v n).vl = h.vl := rfl
@[simp] theorem Hart.setVr_vlcap (h : Hart) (r : VReg) (v : VVal) (n : Nat) : (h.setVr r v n).vlcap = h.vlcap := rfl
@[simp] theorem Hart.setVr_shp (h : Hart) (r : VReg) (v : VVal) (n : Nat) : (h.setVr r v n).shp = h.shp := rfl
@[simp] theorem Hart.setVr_ffe (h : Hart) (r : VReg) (v : VVal) (n : Nat) : (h.setVr r v n).ffe = h.ffe := rfl
@[simp] theorem Hart.setVr_vsat (h : Hart) (r : VReg) (v : VVal) (n : Nat) : (h.setVr r v n).vsat = h.vsat := rfl
@[simp] theorem Hart.setVr_fflags (h : Hart) (r : VReg) (v : VVal) (n : Nat) : (h.setVr r v n).fflags = h.fflags := rfl
@[simp] theorem Hart.setVr_srseed (h : Hart) (r : VReg) (v : VVal) (n : Nat) : (h.setVr r v n).srseed = h.srseed := rfl
@[simp] theorem Hart.setVr_tagown (h : Hart) (r : VReg) (v : VVal) (n : Nat) : (h.setVr r v n).tagown = h.tagown := rfl
@[simp] theorem Hart.setVr_cbown (h : Hart) (r : VReg) (v : VVal) (n : Nat) : (h.setVr r v n).cbown = h.cbown := rfl
@[simp] theorem Hart.setVr_tilown (h : Hart) (r : VReg) (v : VVal) (n : Nat) : (h.setVr r v n).tilown = h.tilown := rfl
@[simp] theorem Hart.setVr_laneReq (h : Hart) (r : VReg) (v : VVal) (n : Nat) : (h.setVr r v n).laneReq = h.laneReq := rfl
@[simp] theorem Hart.setVr_lanes (h : Hart) (r : VReg) (v : VVal) (n : Nat) : (h.setVr r v n).lanes = h.lanes := rfl
@[simp] theorem Hart.setVr_icount (h : Hart) (r : VReg) (v : VVal) (n : Nat) : (h.setVr r v n).icount = h.icount := rfl
@[simp] theorem Hart.setVr_tvec (h : Hart) (r : VReg) (v : VVal) (n : Nat) : (h.setVr r v n).tvec = h.tvec := rfl
@[simp] theorem Hart.setVr_tcause (h : Hart) (r : VReg) (v : VVal) (n : Nat) : (h.setVr r v n).tcause = h.tcause := rfl
@[simp] theorem Hart.setVr_tside (h : Hart) (r : VReg) (v : VVal) (n : Nat) : (h.setVr r v n).tside = h.tside := rfl
@[simp] theorem Hart.setVr_tpc (h : Hart) (r : VReg) (v : VVal) (n : Nat) : (h.setVr r v n).tpc = h.tpc := rfl
@[simp] theorem Hart.setVr_teix (h : Hart) (r : VReg) (v : VVal) (n : Nat) : (h.setVr r v n).teix = h.teix := rfl
@[simp] theorem Hart.setVr_tval (h : Hart) (r : VReg) (v : VVal) (n : Nat) : (h.setVr r v n).tval = h.tval := rfl
@[simp] theorem Hart.setVr_aeix (h : Hart) (r : VReg) (v : VVal) (n : Nat) : (h.setVr r v n).aeix = h.aeix := rfl
@[simp] theorem Hart.setVr_tpm (h : Hart) (r : VReg) (v : VVal) (n : Nat) : (h.setVr r v n).tpm = h.tpm := rfl
@[simp] theorem Hart.setVr_tscratch (h : Hart) (r : VReg) (v : VVal) (n : Nat) : (h.setVr r v n).tscratch = h.tscratch := rfl
@[simp] theorem Hart.setVr_txw (h : Hart) (r : VReg) (v : VVal) (n : Nat) : (h.setVr r v n).txw = h.txw := rfl
@[simp] theorem Hart.setVr_stopT (h : Hart) (r : VReg) (v : VVal) (n : Nat) : (h.setVr r v n).stopT = h.stopT := rfl
@[simp] theorem Hart.setVr_boundT (h : Hart) (r : VReg) (v : VVal) (n : Nat) : (h.setVr r v n).boundT = h.boundT := rfl
@[simp] theorem Hart.setVr_stopA (h : Hart) (r : VReg) (v : VVal) (n : Nat) : (h.setVr r v n).stopA = h.stopA := rfl
@[simp] theorem Hart.setVr_boundA (h : Hart) (r : VReg) (v : VVal) (n : Nat) : (h.setVr r v n).boundA = h.boundA := rfl
@[simp] theorem Hart.setVr_ptbase (h : Hart) (r : VReg) (v : VVal) (n : Nat) : (h.setVr r v n).ptbase = h.ptbase := rfl
@[simp] theorem Hart.setVr_root (h : Hart) (r : VReg) (v : VVal) (n : Nat) : (h.setVr r v n).root = h.root := rfl
@[simp] theorem Hart.setVr_savearea (h : Hart) (r : VReg) (v : VVal) (n : Nat) : (h.setVr r v n).savearea = h.savearea := rfl
@[simp] theorem Hart.setVr_leases (h : Hart) (r : VReg) (v : VVal) (n : Nat) : (h.setVr r v n).leases = h.leases := rfl
@[simp] theorem Hart.setVr_gongs (h : Hart) (r : VReg) (v : VVal) (n : Nat) : (h.setVr r v n).gongs = h.gongs := rfl
@[simp] theorem Hart.setVr_arrived (h : Hart) (r : VReg) (v : VVal) (n : Nat) : (h.setVr r v n).arrived = h.arrived := rfl
@[simp] theorem Hart.setVr_claim (h : Hart) (r : VReg) (v : VVal) (n : Nat) : (h.setVr r v n).claim = h.claim := rfl
@[simp] theorem Hart.setVr_nest (h : Hart) (r : VReg) (v : VVal) (n : Nat) : (h.setVr r v n).nest = h.nest := rfl
@[simp] theorem Hart.setVr_askips (h : Hart) (r : VReg) (v : VVal) (n : Nat) : (h.setVr r v n).askips = h.askips := rfl
@[simp] theorem Hart.setVr_wait (h : Hart) (r : VReg) (v : VVal) (n : Nat) : (h.setVr r v n).wait = h.wait := rfl
@[simp] theorem Hart.setVr_waitNo (h : Hart) (r : VReg) (v : VVal) (n : Nat) : (h.setVr r v n).waitNo = h.waitNo := rfl
@[simp] theorem Hart.setVr_blocked (h : Hart) (r : VReg) (v : VVal) (n : Nat) : (h.setVr r v n).blocked = h.blocked := rfl
@[simp] theorem Hart.setVr_xstop (h : Hart) (r : VReg) (v : VVal) (n : Nat) : (h.setVr r v n).xstop = h.xstop := rfl
@[simp] theorem Hart.setVr_nb (h : Hart) (r : VReg) (v : VVal) (n : Nat) : (h.setVr r v n).nb = h.nb := rfl
@[simp] theorem Hart.setVr_answers (h : Hart) (r : VReg) (v : VVal) (n : Nat) : (h.setVr r v n).answers = h.answers := rfl
@[simp] theorem Hart.setVr_pause (h : Hart) (r : VReg) (v : VVal) (n : Nat) : (h.setVr r v n).pause = h.pause := rfl
@[simp] theorem Hart.setVr_ydEnd (h : Hart) (r : VReg) (v : VVal) (n : Nat) : (h.setVr r v n).ydEnd = h.ydEnd := rfl
@[simp] theorem Hart.setVr_seen (h : Hart) (r : VReg) (v : VVal) (n : Nat) : (h.setVr r v n).seen = h.seen := rfl
@[simp] theorem Hart.setVr_fenced (h : Hart) (r : VReg) (v : VVal) (n : Nat) : (h.setVr r v n).fenced = h.fenced := rfl
@[simp] theorem Hart.setVr_heard (h : Hart) (r : VReg) (v : VVal) (n : Nat) : (h.setVr r v n).heard = h.heard := rfl
@[simp] theorem Hart.setMr_phase (h : Hart) (r : MReg) (v : MVal) : (h.setMr r v).phase = h.phase := rfl
@[simp] theorem Hart.setMr_x (h : Hart) (r : MReg) (v : MVal) : (h.setMr r v).x = h.x := rfl
@[simp] theorem Hart.setMr_p (h : Hart) (r : MReg) (v : MVal) : (h.setMr r v).p = h.p := rfl
@[simp] theorem Hart.setMr_v (h : Hart) (r : MReg) (v : MVal) : (h.setMr r v).v = h.v := rfl
@[simp] theorem Hart.setMr_vnew (h : Hart) (r : MReg) (v : MVal) : (h.setMr r v).vnew = h.vnew := rfl
@[simp] theorem Hart.setMr_vkept (h : Hart) (r : MReg) (v : MVal) : (h.setMr r v).vkept = h.vkept := rfl
@[simp] theorem Hart.setMr_lq (h : Hart) (r : MReg) (v : MVal) : (h.setMr r v).lq = h.lq := rfl
@[simp] theorem Hart.setMr_sq (h : Hart) (r : MReg) (v : MVal) : (h.setMr r v).sq = h.sq := rfl
@[simp] theorem Hart.setMr_lqTail (h : Hart) (r : MReg) (v : MVal) : (h.setMr r v).lqTail = h.lqTail := rfl
@[simp] theorem Hart.setMr_sqTail (h : Hart) (r : MReg) (v : MVal) : (h.setMr r v).sqTail = h.sqTail := rfl
@[simp] theorem Hart.setMr_xq (h : Hart) (r : MReg) (v : MVal) : (h.setMr r v).xq = h.xq := rfl
@[simp] theorem Hart.setMr_win (h : Hart) (r : MReg) (v : MVal) : (h.setMr r v).win = h.win := rfl
@[simp] theorem Hart.setMr_pc (h : Hart) (r : MReg) (v : MVal) : (h.setMr r v).pc = h.pc := rfl
@[simp] theorem Hart.setMr_eix (h : Hart) (r : MReg) (v : MVal) : (h.setMr r v).eix = h.eix := rfl
@[simp] theorem Hart.setMr_line (h : Hart) (r : MReg) (v : MVal) : (h.setMr r v).line = h.line := rfl
@[simp] theorem Hart.setMr_sup (h : Hart) (r : MReg) (v : MVal) : (h.setMr r v).sup = h.sup := rfl
@[simp] theorem Hart.setMr_vl (h : Hart) (r : MReg) (v : MVal) : (h.setMr r v).vl = h.vl := rfl
@[simp] theorem Hart.setMr_vlh (h : Hart) (r : MReg) (v : MVal) : (h.setMr r v).vlh = h.vlh := rfl
@[simp] theorem Hart.setMr_vlcap (h : Hart) (r : MReg) (v : MVal) : (h.setMr r v).vlcap = h.vlcap := rfl
@[simp] theorem Hart.setMr_shp (h : Hart) (r : MReg) (v : MVal) : (h.setMr r v).shp = h.shp := rfl
@[simp] theorem Hart.setMr_ffe (h : Hart) (r : MReg) (v : MVal) : (h.setMr r v).ffe = h.ffe := rfl
@[simp] theorem Hart.setMr_vsat (h : Hart) (r : MReg) (v : MVal) : (h.setMr r v).vsat = h.vsat := rfl
@[simp] theorem Hart.setMr_fflags (h : Hart) (r : MReg) (v : MVal) : (h.setMr r v).fflags = h.fflags := rfl
@[simp] theorem Hart.setMr_srseed (h : Hart) (r : MReg) (v : MVal) : (h.setMr r v).srseed = h.srseed := rfl
@[simp] theorem Hart.setMr_tagown (h : Hart) (r : MReg) (v : MVal) : (h.setMr r v).tagown = h.tagown := rfl
@[simp] theorem Hart.setMr_cbown (h : Hart) (r : MReg) (v : MVal) : (h.setMr r v).cbown = h.cbown := rfl
@[simp] theorem Hart.setMr_tilown (h : Hart) (r : MReg) (v : MVal) : (h.setMr r v).tilown = h.tilown := rfl
@[simp] theorem Hart.setMr_laneReq (h : Hart) (r : MReg) (v : MVal) : (h.setMr r v).laneReq = h.laneReq := rfl
@[simp] theorem Hart.setMr_lanes (h : Hart) (r : MReg) (v : MVal) : (h.setMr r v).lanes = h.lanes := rfl
@[simp] theorem Hart.setMr_icount (h : Hart) (r : MReg) (v : MVal) : (h.setMr r v).icount = h.icount := rfl
@[simp] theorem Hart.setMr_tvec (h : Hart) (r : MReg) (v : MVal) : (h.setMr r v).tvec = h.tvec := rfl
@[simp] theorem Hart.setMr_tcause (h : Hart) (r : MReg) (v : MVal) : (h.setMr r v).tcause = h.tcause := rfl
@[simp] theorem Hart.setMr_tside (h : Hart) (r : MReg) (v : MVal) : (h.setMr r v).tside = h.tside := rfl
@[simp] theorem Hart.setMr_tpc (h : Hart) (r : MReg) (v : MVal) : (h.setMr r v).tpc = h.tpc := rfl
@[simp] theorem Hart.setMr_teix (h : Hart) (r : MReg) (v : MVal) : (h.setMr r v).teix = h.teix := rfl
@[simp] theorem Hart.setMr_tval (h : Hart) (r : MReg) (v : MVal) : (h.setMr r v).tval = h.tval := rfl
@[simp] theorem Hart.setMr_aeix (h : Hart) (r : MReg) (v : MVal) : (h.setMr r v).aeix = h.aeix := rfl
@[simp] theorem Hart.setMr_tpm (h : Hart) (r : MReg) (v : MVal) : (h.setMr r v).tpm = h.tpm := rfl
@[simp] theorem Hart.setMr_tscratch (h : Hart) (r : MReg) (v : MVal) : (h.setMr r v).tscratch = h.tscratch := rfl
@[simp] theorem Hart.setMr_txw (h : Hart) (r : MReg) (v : MVal) : (h.setMr r v).txw = h.txw := rfl
@[simp] theorem Hart.setMr_stopT (h : Hart) (r : MReg) (v : MVal) : (h.setMr r v).stopT = h.stopT := rfl
@[simp] theorem Hart.setMr_boundT (h : Hart) (r : MReg) (v : MVal) : (h.setMr r v).boundT = h.boundT := rfl
@[simp] theorem Hart.setMr_stopA (h : Hart) (r : MReg) (v : MVal) : (h.setMr r v).stopA = h.stopA := rfl
@[simp] theorem Hart.setMr_boundA (h : Hart) (r : MReg) (v : MVal) : (h.setMr r v).boundA = h.boundA := rfl
@[simp] theorem Hart.setMr_ptbase (h : Hart) (r : MReg) (v : MVal) : (h.setMr r v).ptbase = h.ptbase := rfl
@[simp] theorem Hart.setMr_root (h : Hart) (r : MReg) (v : MVal) : (h.setMr r v).root = h.root := rfl
@[simp] theorem Hart.setMr_savearea (h : Hart) (r : MReg) (v : MVal) : (h.setMr r v).savearea = h.savearea := rfl
@[simp] theorem Hart.setMr_leases (h : Hart) (r : MReg) (v : MVal) : (h.setMr r v).leases = h.leases := rfl
@[simp] theorem Hart.setMr_gongs (h : Hart) (r : MReg) (v : MVal) : (h.setMr r v).gongs = h.gongs := rfl
@[simp] theorem Hart.setMr_arrived (h : Hart) (r : MReg) (v : MVal) : (h.setMr r v).arrived = h.arrived := rfl
@[simp] theorem Hart.setMr_claim (h : Hart) (r : MReg) (v : MVal) : (h.setMr r v).claim = h.claim := rfl
@[simp] theorem Hart.setMr_nest (h : Hart) (r : MReg) (v : MVal) : (h.setMr r v).nest = h.nest := rfl
@[simp] theorem Hart.setMr_askips (h : Hart) (r : MReg) (v : MVal) : (h.setMr r v).askips = h.askips := rfl
@[simp] theorem Hart.setMr_wait (h : Hart) (r : MReg) (v : MVal) : (h.setMr r v).wait = h.wait := rfl
@[simp] theorem Hart.setMr_waitNo (h : Hart) (r : MReg) (v : MVal) : (h.setMr r v).waitNo = h.waitNo := rfl
@[simp] theorem Hart.setMr_blocked (h : Hart) (r : MReg) (v : MVal) : (h.setMr r v).blocked = h.blocked := rfl
@[simp] theorem Hart.setMr_xstop (h : Hart) (r : MReg) (v : MVal) : (h.setMr r v).xstop = h.xstop := rfl
@[simp] theorem Hart.setMr_nb (h : Hart) (r : MReg) (v : MVal) : (h.setMr r v).nb = h.nb := rfl
@[simp] theorem Hart.setMr_answers (h : Hart) (r : MReg) (v : MVal) : (h.setMr r v).answers = h.answers := rfl
@[simp] theorem Hart.setMr_pause (h : Hart) (r : MReg) (v : MVal) : (h.setMr r v).pause = h.pause := rfl
@[simp] theorem Hart.setMr_ydEnd (h : Hart) (r : MReg) (v : MVal) : (h.setMr r v).ydEnd = h.ydEnd := rfl
@[simp] theorem Hart.setMr_seen (h : Hart) (r : MReg) (v : MVal) : (h.setMr r v).seen = h.seen := rfl
@[simp] theorem Hart.setMr_fenced (h : Hart) (r : MReg) (v : MVal) : (h.setMr r v).fenced = h.fenced := rfl
@[simp] theorem Hart.setMr_heard (h : Hart) (r : MReg) (v : MVal) : (h.setMr r v).heard = h.heard := rfl
@[simp] theorem Hart.retire_phase (h : Hart) (pc : Nat) (u : Bool) : (h.retire pc u).phase = h.phase := by cases u <;> rfl
@[simp] theorem Hart.retire_x (h : Hart) (pc : Nat) (u : Bool) : (h.retire pc u).x = h.x := by cases u <;> rfl
@[simp] theorem Hart.retire_p (h : Hart) (pc : Nat) (u : Bool) : (h.retire pc u).p = h.p := by cases u <;> rfl
@[simp] theorem Hart.retire_v (h : Hart) (pc : Nat) (u : Bool) : (h.retire pc u).v = h.v := by cases u <;> rfl
@[simp] theorem Hart.retire_m (h : Hart) (pc : Nat) (u : Bool) : (h.retire pc u).m = h.m := by cases u <;> rfl
@[simp] theorem Hart.retire_vnew (h : Hart) (pc : Nat) (u : Bool) : (h.retire pc u).vnew = h.vnew := by cases u <;> rfl
@[simp] theorem Hart.retire_vkept (h : Hart) (pc : Nat) (u : Bool) : (h.retire pc u).vkept = h.vkept := by cases u <;> rfl
@[simp] theorem Hart.retire_lq (h : Hart) (pc : Nat) (u : Bool) : (h.retire pc u).lq = h.lq := by cases u <;> rfl
@[simp] theorem Hart.retire_sq (h : Hart) (pc : Nat) (u : Bool) : (h.retire pc u).sq = h.sq := by cases u <;> rfl
@[simp] theorem Hart.retire_lqTail (h : Hart) (pc : Nat) (u : Bool) : (h.retire pc u).lqTail = h.lqTail := by cases u <;> rfl
@[simp] theorem Hart.retire_sqTail (h : Hart) (pc : Nat) (u : Bool) : (h.retire pc u).sqTail = h.sqTail := by cases u <;> rfl
@[simp] theorem Hart.retire_xq (h : Hart) (pc : Nat) (u : Bool) : (h.retire pc u).xq = h.xq := by cases u <;> rfl
@[simp] theorem Hart.retire_win (h : Hart) (pc : Nat) (u : Bool) : (h.retire pc u).win = h.win := by cases u <;> rfl
@[simp] theorem Hart.retire_pc (h : Hart) (pc : Nat) (u : Bool) : (h.retire pc u).pc = pc := by cases u <;> rfl
@[simp] theorem Hart.retire_eix (h : Hart) (pc : Nat) (u : Bool) : (h.retire pc u).eix = 0 := by cases u <;> rfl
@[simp] theorem Hart.retire_sup (h : Hart) (pc : Nat) (u : Bool) : (h.retire pc u).sup = h.sup := by cases u <;> rfl
@[simp] theorem Hart.retire_vl (h : Hart) (pc : Nat) (u : Bool) : (h.retire pc u).vl = h.vl := by cases u <;> rfl
@[simp] theorem Hart.retire_vlh (h : Hart) (pc : Nat) (u : Bool) : (h.retire pc u).vlh = h.vlh := by cases u <;> rfl
@[simp] theorem Hart.retire_vlcap (h : Hart) (pc : Nat) (u : Bool) : (h.retire pc u).vlcap = h.vlcap := by cases u <;> rfl
@[simp] theorem Hart.retire_shp (h : Hart) (pc : Nat) (u : Bool) : (h.retire pc u).shp = h.shp := by cases u <;> rfl
@[simp] theorem Hart.retire_ffe (h : Hart) (pc : Nat) (u : Bool) : (h.retire pc u).ffe = h.ffe := by cases u <;> rfl
@[simp] theorem Hart.retire_vsat (h : Hart) (pc : Nat) (u : Bool) : (h.retire pc u).vsat = h.vsat := by cases u <;> rfl
@[simp] theorem Hart.retire_fflags (h : Hart) (pc : Nat) (u : Bool) : (h.retire pc u).fflags = h.fflags := by cases u <;> rfl
@[simp] theorem Hart.retire_srseed (h : Hart) (pc : Nat) (u : Bool) : (h.retire pc u).srseed = h.srseed := by cases u <;> rfl
@[simp] theorem Hart.retire_tagown (h : Hart) (pc : Nat) (u : Bool) : (h.retire pc u).tagown = h.tagown := by cases u <;> rfl
@[simp] theorem Hart.retire_cbown (h : Hart) (pc : Nat) (u : Bool) : (h.retire pc u).cbown = h.cbown := by cases u <;> rfl
@[simp] theorem Hart.retire_tilown (h : Hart) (pc : Nat) (u : Bool) : (h.retire pc u).tilown = h.tilown := by cases u <;> rfl
@[simp] theorem Hart.retire_laneReq (h : Hart) (pc : Nat) (u : Bool) : (h.retire pc u).laneReq = h.laneReq := by cases u <;> rfl
@[simp] theorem Hart.retire_lanes (h : Hart) (pc : Nat) (u : Bool) : (h.retire pc u).lanes = h.lanes := by cases u <;> rfl
@[simp] theorem Hart.retire_tvec (h : Hart) (pc : Nat) (u : Bool) : (h.retire pc u).tvec = h.tvec := by cases u <;> rfl
@[simp] theorem Hart.retire_tcause (h : Hart) (pc : Nat) (u : Bool) : (h.retire pc u).tcause = h.tcause := by cases u <;> rfl
@[simp] theorem Hart.retire_tside (h : Hart) (pc : Nat) (u : Bool) : (h.retire pc u).tside = h.tside := by cases u <;> rfl
@[simp] theorem Hart.retire_tpc (h : Hart) (pc : Nat) (u : Bool) : (h.retire pc u).tpc = h.tpc := by cases u <;> rfl
@[simp] theorem Hart.retire_teix (h : Hart) (pc : Nat) (u : Bool) : (h.retire pc u).teix = h.teix := by cases u <;> rfl
@[simp] theorem Hart.retire_tval (h : Hart) (pc : Nat) (u : Bool) : (h.retire pc u).tval = h.tval := by cases u <;> rfl
@[simp] theorem Hart.retire_aeix (h : Hart) (pc : Nat) (u : Bool) : (h.retire pc u).aeix = h.aeix := by cases u <;> rfl
@[simp] theorem Hart.retire_tpm (h : Hart) (pc : Nat) (u : Bool) : (h.retire pc u).tpm = h.tpm := by cases u <;> rfl
@[simp] theorem Hart.retire_tscratch (h : Hart) (pc : Nat) (u : Bool) : (h.retire pc u).tscratch = h.tscratch := by cases u <;> rfl
@[simp] theorem Hart.retire_txw (h : Hart) (pc : Nat) (u : Bool) : (h.retire pc u).txw = h.txw := by cases u <;> rfl
@[simp] theorem Hart.retire_stopT (h : Hart) (pc : Nat) (u : Bool) : (h.retire pc u).stopT = h.stopT := by cases u <;> rfl
@[simp] theorem Hart.retire_boundT (h : Hart) (pc : Nat) (u : Bool) : (h.retire pc u).boundT = h.boundT := by cases u <;> rfl
@[simp] theorem Hart.retire_stopA (h : Hart) (pc : Nat) (u : Bool) : (h.retire pc u).stopA = h.stopA := by cases u <;> rfl
@[simp] theorem Hart.retire_boundA (h : Hart) (pc : Nat) (u : Bool) : (h.retire pc u).boundA = h.boundA := by cases u <;> rfl
@[simp] theorem Hart.retire_ptbase (h : Hart) (pc : Nat) (u : Bool) : (h.retire pc u).ptbase = h.ptbase := by cases u <;> rfl
@[simp] theorem Hart.retire_root (h : Hart) (pc : Nat) (u : Bool) : (h.retire pc u).root = h.root := by cases u <;> rfl
@[simp] theorem Hart.retire_savearea (h : Hart) (pc : Nat) (u : Bool) : (h.retire pc u).savearea = h.savearea := by cases u <;> rfl
@[simp] theorem Hart.retire_leases (h : Hart) (pc : Nat) (u : Bool) : (h.retire pc u).leases = h.leases := by cases u <;> rfl
@[simp] theorem Hart.retire_gongs (h : Hart) (pc : Nat) (u : Bool) : (h.retire pc u).gongs = h.gongs := by cases u <;> rfl
@[simp] theorem Hart.retire_nest (h : Hart) (pc : Nat) (u : Bool) : (h.retire pc u).nest = h.nest := by cases u <;> rfl
@[simp] theorem Hart.retire_wait (h : Hart) (pc : Nat) (u : Bool) : (h.retire pc u).wait = none := by cases u <;> rfl
@[simp] theorem Hart.retire_waitNo (h : Hart) (pc : Nat) (u : Bool) : (h.retire pc u).waitNo = h.waitNo := by cases u <;> rfl
@[simp] theorem Hart.retire_xstop (h : Hart) (pc : Nat) (u : Bool) : (h.retire pc u).xstop = h.xstop := by cases u <;> rfl
@[simp] theorem Hart.retire_nb (h : Hart) (pc : Nat) (u : Bool) : (h.retire pc u).nb = h.nb := by cases u <;> rfl
@[simp] theorem Hart.retire_answers (h : Hart) (pc : Nat) (u : Bool) : (h.retire pc u).answers = [] := by cases u <;> rfl
@[simp] theorem Hart.retire_pause (h : Hart) (pc : Nat) (u : Bool) : (h.retire pc u).pause = h.pause := by cases u <;> rfl
@[simp] theorem Hart.retire_ydEnd (h : Hart) (pc : Nat) (u : Bool) : (h.retire pc u).ydEnd = h.ydEnd := by cases u <;> rfl
@[simp] theorem Hart.retire_seen (h : Hart) (pc : Nat) (u : Bool) : (h.retire pc u).seen = h.seen := by cases u <;> rfl
@[simp] theorem Hart.retire_fenced (h : Hart) (pc : Nat) (u : Bool) : (h.retire pc u).fenced = h.fenced := by cases u <;> rfl
@[simp] theorem Hart.retire_heard (h : Hart) (pc : Nat) (u : Bool) : (h.retire pc u).heard = h.heard := by cases u <;> rfl
@[simp] theorem Hart.retire_icount (h : Hart) (pc : Nat) (u : Bool) :
    (h.retire pc u).icount = if u then h.icount + 1 else h.icount := by cases u <;> rfl
@[simp] theorem Hart.retire_claim (h : Hart) (pc : Nat) (u : Bool) :
    (h.retire pc u).claim = if u then none else h.claim := by cases u <;> rfl
@[simp] theorem Hart.retire_askips (h : Hart) (pc : Nat) (u : Bool) :
    (h.retire pc u).askips = if u then [] else h.askips := by cases u <;> rfl
@[simp] theorem Hart.retire_blocked (h : Hart) (pc : Nat) (u : Bool) :
    (h.retire pc u).blocked = if u then 0 else h.blocked := by cases u <;> rfl
@[simp] theorem Hart.retire_arrived (h : Hart) (pc : Nat) (u : Bool) :
    (h.retire pc u).arrived = if u then none else h.arrived := by cases u <;> rfl
@[simp] theorem Hart.retire_line (h : Hart) (pc : Nat) (u : Bool) :
    (h.retire pc u).line = if h.pc / 64 = pc / 64 then h.line else none := by cases u <;> rfl

@[simp] theorem Hart.takeTrap_phase (h : Hart) (x : Bool) (c : Nat) (v : Dbl) (e b ae ab : Nat) :
    (h.takeTrap x c v e b ae ab).phase = h.phase := rfl
@[simp] theorem Hart.takeTrap_x (h : Hart) (x : Bool) (c : Nat) (v : Dbl) (e b ae ab : Nat) :
    (h.takeTrap x c v e b ae ab).x = h.x := rfl
@[simp] theorem Hart.takeTrap_p (h : Hart) (x : Bool) (c : Nat) (v : Dbl) (e b ae ab : Nat) :
    (h.takeTrap x c v e b ae ab).p = h.p := rfl
@[simp] theorem Hart.takeTrap_v (h : Hart) (x : Bool) (c : Nat) (v : Dbl) (e b ae ab : Nat) :
    (h.takeTrap x c v e b ae ab).v = h.v := rfl
@[simp] theorem Hart.takeTrap_m (h : Hart) (x : Bool) (c : Nat) (v : Dbl) (e b ae ab : Nat) :
    (h.takeTrap x c v e b ae ab).m = h.m := rfl
@[simp] theorem Hart.takeTrap_vnew (h : Hart) (x : Bool) (c : Nat) (v : Dbl) (e b ae ab : Nat) :
    (h.takeTrap x c v e b ae ab).vnew = h.vnew := rfl
@[simp] theorem Hart.takeTrap_vkept (h : Hart) (x : Bool) (c : Nat) (v : Dbl) (e b ae ab : Nat) :
    (h.takeTrap x c v e b ae ab).vkept = h.vkept := rfl
@[simp] theorem Hart.takeTrap_lq (h : Hart) (x : Bool) (c : Nat) (v : Dbl) (e b ae ab : Nat) :
    (h.takeTrap x c v e b ae ab).lq = h.lq := rfl
@[simp] theorem Hart.takeTrap_sq (h : Hart) (x : Bool) (c : Nat) (v : Dbl) (e b ae ab : Nat) :
    (h.takeTrap x c v e b ae ab).sq = h.sq := rfl
@[simp] theorem Hart.takeTrap_lqTail (h : Hart) (x : Bool) (c : Nat) (v : Dbl) (e b ae ab : Nat) :
    (h.takeTrap x c v e b ae ab).lqTail = h.lqTail := rfl
@[simp] theorem Hart.takeTrap_sqTail (h : Hart) (x : Bool) (c : Nat) (v : Dbl) (e b ae ab : Nat) :
    (h.takeTrap x c v e b ae ab).sqTail = h.sqTail := rfl
@[simp] theorem Hart.takeTrap_xq (h : Hart) (x : Bool) (c : Nat) (v : Dbl) (e b ae ab : Nat) :
    (h.takeTrap x c v e b ae ab).xq = h.xq := rfl
@[simp] theorem Hart.takeTrap_win (h : Hart) (x : Bool) (c : Nat) (v : Dbl) (e b ae ab : Nat) :
    (h.takeTrap x c v e b ae ab).win = h.win := rfl
@[simp] theorem Hart.takeTrap_pc (h : Hart) (x : Bool) (c : Nat) (v : Dbl) (e b ae ab : Nat) :
    (h.takeTrap x c v e b ae ab).pc = h.tvec.toNat := rfl
@[simp] theorem Hart.takeTrap_eix (h : Hart) (x : Bool) (c : Nat) (v : Dbl) (e b ae ab : Nat) :
    (h.takeTrap x c v e b ae ab).eix = 0 := rfl
@[simp] theorem Hart.takeTrap_line (h : Hart) (x : Bool) (c : Nat) (v : Dbl) (e b ae ab : Nat) :
    (h.takeTrap x c v e b ae ab).line = none := rfl
@[simp] theorem Hart.takeTrap_sup (h : Hart) (x : Bool) (c : Nat) (v : Dbl) (e b ae ab : Nat) :
    (h.takeTrap x c v e b ae ab).sup = true := rfl
@[simp] theorem Hart.takeTrap_vl (h : Hart) (x : Bool) (c : Nat) (v : Dbl) (e b ae ab : Nat) :
    (h.takeTrap x c v e b ae ab).vl = h.vl := rfl
@[simp] theorem Hart.takeTrap_vlh (h : Hart) (x : Bool) (c : Nat) (v : Dbl) (e b ae ab : Nat) :
    (h.takeTrap x c v e b ae ab).vlh = h.vlh := rfl
@[simp] theorem Hart.takeTrap_vlcap (h : Hart) (x : Bool) (c : Nat) (v : Dbl) (e b ae ab : Nat) :
    (h.takeTrap x c v e b ae ab).vlcap = h.vlcap := rfl
@[simp] theorem Hart.takeTrap_shp (h : Hart) (x : Bool) (c : Nat) (v : Dbl) (e b ae ab : Nat) :
    (h.takeTrap x c v e b ae ab).shp = h.shp := rfl
@[simp] theorem Hart.takeTrap_ffe (h : Hart) (x : Bool) (c : Nat) (v : Dbl) (e b ae ab : Nat) :
    (h.takeTrap x c v e b ae ab).ffe = h.ffe := rfl
@[simp] theorem Hart.takeTrap_vsat (h : Hart) (x : Bool) (c : Nat) (v : Dbl) (e b ae ab : Nat) :
    (h.takeTrap x c v e b ae ab).vsat = h.vsat := rfl
@[simp] theorem Hart.takeTrap_fflags (h : Hart) (x : Bool) (c : Nat) (v : Dbl) (e b ae ab : Nat) :
    (h.takeTrap x c v e b ae ab).fflags = h.fflags := rfl
@[simp] theorem Hart.takeTrap_srseed (h : Hart) (x : Bool) (c : Nat) (v : Dbl) (e b ae ab : Nat) :
    (h.takeTrap x c v e b ae ab).srseed = h.srseed := rfl
@[simp] theorem Hart.takeTrap_tagown (h : Hart) (x : Bool) (c : Nat) (v : Dbl) (e b ae ab : Nat) :
    (h.takeTrap x c v e b ae ab).tagown = h.tagown := rfl
@[simp] theorem Hart.takeTrap_cbown (h : Hart) (x : Bool) (c : Nat) (v : Dbl) (e b ae ab : Nat) :
    (h.takeTrap x c v e b ae ab).cbown = h.cbown := rfl
@[simp] theorem Hart.takeTrap_tilown (h : Hart) (x : Bool) (c : Nat) (v : Dbl) (e b ae ab : Nat) :
    (h.takeTrap x c v e b ae ab).tilown = h.tilown := rfl
@[simp] theorem Hart.takeTrap_laneReq (h : Hart) (x : Bool) (c : Nat) (v : Dbl) (e b ae ab : Nat) :
    (h.takeTrap x c v e b ae ab).laneReq = h.laneReq := rfl
@[simp] theorem Hart.takeTrap_lanes (h : Hart) (x : Bool) (c : Nat) (v : Dbl) (e b ae ab : Nat) :
    (h.takeTrap x c v e b ae ab).lanes = h.lanes := rfl
@[simp] theorem Hart.takeTrap_icount (h : Hart) (x : Bool) (c : Nat) (v : Dbl) (e b ae ab : Nat) :
    (h.takeTrap x c v e b ae ab).icount = h.icount := rfl
@[simp] theorem Hart.takeTrap_tvec (h : Hart) (x : Bool) (c : Nat) (v : Dbl) (e b ae ab : Nat) :
    (h.takeTrap x c v e b ae ab).tvec = h.tvec := rfl
@[simp] theorem Hart.takeTrap_tcause (h : Hart) (x : Bool) (c : Nat) (v : Dbl) (e b ae ab : Nat) :
    (h.takeTrap x c v e b ae ab).tcause = BitVec.ofNat 8 c := rfl
@[simp] theorem Hart.takeTrap_tside (h : Hart) (x : Bool) (c : Nat) (v : Dbl) (e b ae ab : Nat) :
    (h.takeTrap x c v e b ae ab).tside = x := rfl
@[simp] theorem Hart.takeTrap_tpc (h : Hart) (x : Bool) (c : Nat) (v : Dbl) (e b ae ab : Nat) :
    (h.takeTrap x c v e b ae ab).tpc = BitVec.ofNat 64 (h.pc % 2 ^ 55) := rfl
@[simp] theorem Hart.takeTrap_teix (h : Hart) (x : Bool) (c : Nat) (v : Dbl) (e b ae ab : Nat) :
    (h.takeTrap x c v e b ae ab).teix = BitVec.ofNat 14 e := rfl
@[simp] theorem Hart.takeTrap_tval (h : Hart) (x : Bool) (c : Nat) (v : Dbl) (e b ae ab : Nat) :
    (h.takeTrap x c v e b ae ab).tval = v := rfl
@[simp] theorem Hart.takeTrap_aeix (h : Hart) (x : Bool) (c : Nat) (v : Dbl) (e b ae ab : Nat) :
    (h.takeTrap x c v e b ae ab).aeix = BitVec.ofNat 14 ae := rfl
@[simp] theorem Hart.takeTrap_tpm (h : Hart) (x : Bool) (c : Nat) (v : Dbl) (e b ae ab : Nat) :
    (h.takeTrap x c v e b ae ab).tpm = h.sup := rfl
@[simp] theorem Hart.takeTrap_tscratch (h : Hart) (x : Bool) (c : Nat) (v : Dbl) (e b ae ab : Nat) :
    (h.takeTrap x c v e b ae ab).tscratch = h.tscratch := rfl
@[simp] theorem Hart.takeTrap_txw (h : Hart) (x : Bool) (c : Nat) (v : Dbl) (e b ae ab : Nat) :
    (h.takeTrap x c v e b ae ab).txw = BitVec.ofNat 6 h.win.length := rfl
@[simp] theorem Hart.takeTrap_stopT (h : Hart) (x : Bool) (c : Nat) (v : Dbl) (e b ae ab : Nat) :
    (h.takeTrap x c v e b ae ab).stopT = e := rfl
@[simp] theorem Hart.takeTrap_boundT (h : Hart) (x : Bool) (c : Nat) (v : Dbl) (e b ae ab : Nat) :
    (h.takeTrap x c v e b ae ab).boundT = b := rfl
@[simp] theorem Hart.takeTrap_stopA (h : Hart) (x : Bool) (c : Nat) (v : Dbl) (e b ae ab : Nat) :
    (h.takeTrap x c v e b ae ab).stopA = ae := rfl
@[simp] theorem Hart.takeTrap_boundA (h : Hart) (x : Bool) (c : Nat) (v : Dbl) (e b ae ab : Nat) :
    (h.takeTrap x c v e b ae ab).boundA = ab := rfl
@[simp] theorem Hart.takeTrap_ptbase (h : Hart) (x : Bool) (c : Nat) (v : Dbl) (e b ae ab : Nat) :
    (h.takeTrap x c v e b ae ab).ptbase = h.ptbase := rfl
@[simp] theorem Hart.takeTrap_root (h : Hart) (x : Bool) (c : Nat) (v : Dbl) (e b ae ab : Nat) :
    (h.takeTrap x c v e b ae ab).root = h.root := rfl
@[simp] theorem Hart.takeTrap_savearea (h : Hart) (x : Bool) (c : Nat) (v : Dbl) (e b ae ab : Nat) :
    (h.takeTrap x c v e b ae ab).savearea = h.savearea := rfl
@[simp] theorem Hart.takeTrap_leases (h : Hart) (x : Bool) (c : Nat) (v : Dbl) (e b ae ab : Nat) :
    (h.takeTrap x c v e b ae ab).leases = h.leases := rfl
@[simp] theorem Hart.takeTrap_gongs (h : Hart) (x : Bool) (c : Nat) (v : Dbl) (e b ae ab : Nat) :
    (h.takeTrap x c v e b ae ab).gongs = h.gongs := rfl
@[simp] theorem Hart.takeTrap_arrived (h : Hart) (x : Bool) (c : Nat) (v : Dbl) (e b ae ab : Nat) :
    (h.takeTrap x c v e b ae ab).arrived = h.arrived := rfl
@[simp] theorem Hart.takeTrap_claim (h : Hart) (x : Bool) (c : Nat) (v : Dbl) (e b ae ab : Nat) :
    (h.takeTrap x c v e b ae ab).claim = h.claim := rfl
@[simp] theorem Hart.takeTrap_nest (h : Hart) (x : Bool) (c : Nat) (v : Dbl) (e b ae ab : Nat) :
    (h.takeTrap x c v e b ae ab).nest = if h.sup then h.nest + 1 else 0 := rfl
@[simp] theorem Hart.takeTrap_askips (h : Hart) (x : Bool) (c : Nat) (v : Dbl) (e b ae ab : Nat) :
    (h.takeTrap x c v e b ae ab).askips = h.askips := rfl
@[simp] theorem Hart.takeTrap_wait (h : Hart) (x : Bool) (c : Nat) (v : Dbl) (e b ae ab : Nat) :
    (h.takeTrap x c v e b ae ab).wait = none := rfl
@[simp] theorem Hart.takeTrap_waitNo (h : Hart) (x : Bool) (c : Nat) (v : Dbl) (e b ae ab : Nat) :
    (h.takeTrap x c v e b ae ab).waitNo = h.waitNo := rfl
@[simp] theorem Hart.takeTrap_blocked (h : Hart) (x : Bool) (c : Nat) (v : Dbl) (e b ae ab : Nat) :
    (h.takeTrap x c v e b ae ab).blocked = h.blocked := rfl
@[simp] theorem Hart.takeTrap_xstop (h : Hart) (x : Bool) (c : Nat) (v : Dbl) (e b ae ab : Nat) :
    (h.takeTrap x c v e b ae ab).xstop = false := rfl
@[simp] theorem Hart.takeTrap_nb (h : Hart) (x : Bool) (c : Nat) (v : Dbl) (e b ae ab : Nat) :
    (h.takeTrap x c v e b ae ab).nb = h.nb := rfl
@[simp] theorem Hart.takeTrap_answers (h : Hart) (x : Bool) (c : Nat) (v : Dbl) (e b ae ab : Nat) :
    (h.takeTrap x c v e b ae ab).answers = [] := rfl
@[simp] theorem Hart.takeTrap_pause (h : Hart) (x : Bool) (c : Nat) (v : Dbl) (e b ae ab : Nat) :
    (h.takeTrap x c v e b ae ab).pause = 0 := rfl
@[simp] theorem Hart.takeTrap_ydEnd (h : Hart) (x : Bool) (c : Nat) (v : Dbl) (e b ae ab : Nat) :
    (h.takeTrap x c v e b ae ab).ydEnd = h.ydEnd := rfl
@[simp] theorem Hart.takeTrap_seen (h : Hart) (x : Bool) (c : Nat) (v : Dbl) (e b ae ab : Nat) :
    (h.takeTrap x c v e b ae ab).seen = h.seen := rfl
@[simp] theorem Hart.takeTrap_fenced (h : Hart) (x : Bool) (c : Nat) (v : Dbl) (e b ae ab : Nat) :
    (h.takeTrap x c v e b ae ab).fenced = h.fenced := rfl
@[simp] theorem Hart.takeTrap_heard (h : Hart) (x : Bool) (c : Nat) (v : Dbl) (e b ae ab : Nat) :
    (h.takeTrap x c v e b ae ab).heard = h.heard := rfl

/-! ## Registers read back (R121) -/

@[simp] theorem Hart.s_zero (h : Hart) : h.s 0#6 = 0#64 := rfl
@[simp] theorem Hart.setS_zero (h : Hart) (v : Dbl) : h.setS 0#6 v = h := rfl
theorem Hart.s_setS (h : Hart) (d r : SReg) (v : Dbl) : (h.setS d v).s r = if r = d ∧ d ≠ 0 then v else h.s r := by
  by_cases hd : d = 0
  · subst hd; simp
  · by_cases e : r = d
    · subst e
      simp only [Hart.s, Hart.setS, if_neg hd]
      simpa using fun z => absurd z hd
    · have n : d.toNat ≠ r.toNat := fun h => e (BitVec.eq_of_toNat_eq h.symm)
      simp only [Hart.s, Hart.setS, if_neg hd]
      simp [e, n]

theorem Hart.s_congr {g h : Hart} (e : g.x = h.x) (r : SReg) : g.s r = h.s r := by simp [Hart.s, e]
@[simp] theorem Hart.s_retire (h : Hart) (pc : Nat) (u : Bool) (r : SReg) : (h.retire pc u).s r = h.s r :=
  Hart.s_congr (Hart.retire_x h pc u) r
@[simp] theorem Hart.s_setP (h : Hart) (p : PReg) (b : Bool) (r : SReg) : (h.setP p b).s r = h.s r :=
  Hart.s_congr (Hart.setP_x h p b) r
@[simp] theorem Hart.pr_zero (h : Hart) : h.pr 0#3 = true := rfl
@[simp] theorem Hart.setP_zero (h : Hart) (b : Bool) : h.setP 0#3 b = h := rfl
theorem Hart.pr_congr {g h : Hart} (e : g.p = h.p) (r : PReg) : g.pr r = h.pr r := by simp [Hart.pr, e]
@[simp] theorem Hart.pr_setS (h : Hart) (d : SReg) (v : Dbl) (r : PReg) : (h.setS d v).pr r = h.pr r :=
  Hart.pr_congr (Hart.setS_p h d v) r
@[simp] theorem Hart.vr_setVr (h : Hart) (r : VReg) (v : VVal) (n : Nat) : (h.setVr r v n).vr r = v := by
  simp [Hart.vr, Hart.setVr]

end Sys2Proof.Machine
end

