-- ==== Sys2Proof/Laws/Memory.lean ====
section
/-! SUPPORT. Memory keeps its canonical form; what a read sees after a write, a wipe and a commit. -/

namespace Sys2Proof.Machine

open Sys2Proof

/-! ## The canonical form -/

theorem cellsPut_mem {l : List Host.Cell} {k : Nat} {b : Byte} {c : Host.Cell} (h : c ∈ cellsPut l k b) :
    c ∈ l ∨ (c = (k, b) ∧ b ≠ 0) := by
  induction l with
  | nil =>
    unfold cellsPut at h
    split at h
    · simp at h
    · exact .inr ⟨by simpa using h, ‹_›⟩
  | cons e t ih =>
    obtain ⟨a, v⟩ := e
    unfold cellsPut at h
    split at h
    · split at h
      · exact .inl (List.mem_cons_of_mem _ h)
      · rcases List.mem_cons.1 h with h | h
        · exact .inr ⟨h, ‹_›⟩
        · exact .inl (List.mem_cons_of_mem _ h)
    · split at h
      · split at h
        · exact .inl h
        · rcases List.mem_cons.1 h with h | h
          · exact .inr ⟨h, ‹_›⟩
          · exact .inl h
      · rcases List.mem_cons.1 h with h | h
        · exact .inl (h ▸ List.mem_cons_self)
        · exact (ih h).imp (List.mem_cons_of_mem _) id

theorem cellsPut_rising {l : List Host.Cell} (h : l.Pairwise (fun a b => a.1 < b.1)) (k : Nat) (b : Byte) :
    (cellsPut l k b).Pairwise (fun a b => a.1 < b.1) := by
  induction l with
  | nil => unfold cellsPut; split <;> simp
  | cons e t ih =>
    obtain ⟨a, v⟩ := e
    obtain ⟨h1, h2⟩ := List.pairwise_cons.1 h
    unfold cellsPut
    split
    · next e =>
      subst e
      split
      · exact h2
      · exact List.pairwise_cons.2 ⟨h1, h2⟩
    · split
      · next lt =>
        split
        · exact h
        · refine List.pairwise_cons.2 ⟨fun c hc => ?_, h⟩
          rcases List.mem_cons.1 hc with hc | hc
          · subst hc; exact lt
          · exact Nat.lt_trans lt (h1 c hc)
      · next ne nlt =>
        refine List.pairwise_cons.2 ⟨fun c hc => ?_, ih h2⟩
        rcases cellsPut_mem hc with hc | ⟨hc, _⟩
        · exact h1 c hc
        · subst hc
          show a < k
          omega

theorem Memory.write_wf {m : Memory} (h : m.wf) (k : Nat) (b : Byte) : (m.write k b).wf :=
  ⟨cellsPut_rising h.1 k b, fun c hc => (cellsPut_mem hc).elim (h.2 c) fun ⟨e, n⟩ => e ▸ n⟩

theorem Memory.clear_wf {m : Memory} (h : m.wf) (lo hi : Nat) : (m.clear lo hi).wf :=
  ⟨h.1.filter _, fun c hc => h.2 c (List.mem_filter.1 hc).1⟩

theorem Memory.apply_wf {m : Memory} (h : m.wf) (o : MemOp) : (m.apply o).wf := by
  cases o with
  | put k b => exact Memory.write_wf h k b
  | clear lo hi => exact Memory.clear_wf h lo hi

theorem Memory.commit_wf {m : Memory} (h : m.wf) (l : List MemOp) : (m.commit l).wf := by
  induction l with
  | nil => exact h
  | cons o t ih => exact Memory.apply_wf ih o

theorem Memory.puts_wf {m : Memory} (h : m.wf) (k : Nat) (l : List Byte) : (m.puts k l).wf := by
  induction l generalizing m k with
  | nil => exact h
  | cons b t ih => exact ih (Memory.write_wf h k b) (k + 1)

/-- The closing of a step from a sound state is sound, whatever the step did. -/
theorem close_sound {s : State} (h : s.Sound) (t : State) : (close s t).Sound := ⟨Memory.commit_wf h.1 _, rfl⟩

theorem reset_sound : State.reset.Sound := ⟨⟨List.Pairwise.nil, by simp [State.reset]⟩, rfl⟩

/-- Placing an instruction keeps the state sound. -/
theorem withFetchWord_sound {s : State} (h : s.Sound) (n w : Nat) : (s.withFetchWord n w).Sound := by
  unfold State.withFetchWord placeInstr
  refine ⟨?_, h.2⟩
  iterate 4 apply Memory.puts_wf
  exact h.1

/-! ## Reading -/

theorem cellsGet_of_lt {l : List Host.Cell} {k : Nat} (h : ∀ c ∈ l, k < c.1) : cellsGet l k = 0 := by
  cases l with
  | nil => rfl
  | cons e t =>
    obtain ⟨a, v⟩ := e
    have := h (a, v) List.mem_cons_self
    simp only [cellsGet]
    rw [if_neg (by omega), if_pos this]

theorem cellsGet_cellsPut {l : List Host.Cell} (h : l.Pairwise (fun a b => a.1 < b.1)) (k j : Nat) (b : Byte) :
    cellsGet (cellsPut l k b) j = if j = k then b else cellsGet l j := by
  induction l with
  | nil =>
    simp only [cellsPut, cellsGet]
    split
    · next z => simp [cellsGet, z]
    · simp only [cellsGet]
      by_cases e : k = j
      · simp [e]
      · simp [e, Ne.symm e]
  | cons e t ih =>
    obtain ⟨a, v⟩ := e
    obtain ⟨h1, h2⟩ := List.pairwise_cons.1 h
    simp only [cellsPut]
    split
    · next e =>
      subst e
      split
      · next z =>
        by_cases e : j = a
        · subst e
          rw [if_pos rfl, z, cellsGet_of_lt h1]
        · rw [if_neg e]
          simp only [cellsGet, if_neg (Ne.symm e)]
          split
          · next lt => exact cellsGet_of_lt fun c hc => Nat.lt_trans lt (h1 c hc)
          · rfl
      · by_cases e : j = a
        · simp [cellsGet, e]
        · simp [cellsGet, e, Ne.symm e]
    · split
      · next ne lt =>
        split
        · next z =>
          by_cases e : j = k
          · subst e
            rw [if_pos rfl, z]
            simp only [cellsGet]
            rw [if_neg ne, if_pos lt]
          · rw [if_neg e]
        · by_cases e : j = k
          · simp [cellsGet, e]
          · simp only [cellsGet, if_neg (Ne.symm e), if_neg e]
            split
            · next l2 => rw [if_neg (by omega), if_pos (by omega)]
            · rfl
      · next ne nlt =>
        simp only [cellsGet, ih h2]
        by_cases e : j = k
        · subst e
          rw [if_neg ne, if_neg nlt, if_pos rfl, if_pos rfl]
        · rw [if_neg e, if_neg e]

/-- A read after a write gives what was written; every other byte is as before. -/
theorem Memory.read_write {m : Memory} (h : m.wf) (k j : Nat) (b : Byte) :
    (m.write k b).read j = if j = k then b else m.read j := cellsGet_cellsPut h.1 k j b

theorem cellsGet_filter {l : List Host.Cell} (h : l.Pairwise (fun a b => a.1 < b.1)) (lo hi j : Nat) :
    cellsGet (l.filter fun c => c.1 < lo || hi ≤ c.1) j = if lo ≤ j ∧ j < hi then 0 else cellsGet l j := by
  induction l with
  | nil => simp [cellsGet]
  | cons e t ih =>
    obtain ⟨a, v⟩ := e
    obtain ⟨h1, h2⟩ := List.pairwise_cons.1 h
    by_cases k : (a < lo ∨ hi ≤ a)
    · have : (decide (a < lo) || decide (hi ≤ a)) = true := by simpa using k
      rw [List.filter_cons_of_pos (by simpa using k)]
      simp only [cellsGet, ih h2]
      by_cases e : a = j
      · subst e; simp; omega
      · rw [if_neg e, if_neg e]
        split
        · split <;> rfl
        · rfl
    · rw [List.filter_cons_of_neg (by simpa using k), ih h2]
      simp only [cellsGet]
      by_cases e : a = j
      · subst e
        rw [if_pos (by omega), if_pos (by omega)]
      · rw [if_neg e]
        split
        · rfl
        · split
          · next lt => exact cellsGet_of_lt fun c hc => Nat.lt_trans lt (h1 c hc)
          · rfl

/-- A wiped byte reads as zero; every other byte is as before. -/
theorem Memory.read_clear {m : Memory} (h : m.wf) (lo hi j : Nat) :
    (m.clear lo hi).read j = if lo ≤ j ∧ j < hi then 0 else m.read j := cellsGet_filter h.1 lo hi j

/-- What the step in progress sees is what the memory holds once its operations are committed. -/
theorem Memory.read_commit {m : Memory} (h : m.wf) (k : Nat) (l : List MemOp) : (m.commit l).read k = peekBuf m k l := by
  induction l with
  | nil => rfl
  | cons o t ih =>
    cases o with
    | put a b =>
      show ((m.commit t).write a b).read k = _
      rw [Memory.read_write (Memory.commit_wf h t), ih]
      simp only [peekBuf, eq_comm]
    | clear lo hi =>
      show ((m.commit t).clear lo hi).read k = _
      rw [Memory.read_clear (Memory.commit_wf h t), ih]
      simp only [peekBuf, Bool.and_eq_true, decide_eq_true_eq]

/-- After a step a byte reads as the step last saw it. -/
theorem close_read {s t : State} (h : s.mem.wf) (m : t.mem = s.mem) (k : Nat) : (close s t).mem.read k = t.peek k := by
  rw [close_mem, Memory.read_commit h, State.peek, m]

/-- Equal reads everywhere make equal memories: the canonical form is unique. -/
theorem cellsGet_of_mem {l : List Host.Cell} (h : l.Pairwise (fun a b => a.1 < b.1)) {c : Host.Cell} (hc : c ∈ l) :
    cellsGet l c.1 = c.2 := by
  induction l with
  | nil => simp at hc
  | cons e t ih =>
    obtain ⟨h1, h2⟩ := List.pairwise_cons.1 h
    rcases List.mem_cons.1 hc with rfl | hc
    · simp [cellsGet]
    · have := h1 c hc
      simp only [cellsGet]
      rw [if_neg (by omega), if_neg (by omega), ih h2 hc]

/-! ## The step in progress -/

@[simp] theorem State.peek_poke (s : State) (k j : Nat) (b : Byte) :
    (s.poke k b).peek j = if k = j then b else s.peek j := rfl

theorem State.pokes_eq (s : State) (k : Nat) (l : List Byte) : s.pokes k l = { s with wbuf := (s.pokes k l).wbuf } := by
  induction l generalizing s k with
  | nil => rfl
  | cons b t ih => exact ih (s.poke k b) (k + 1)

theorem State.peek_pokes (s : State) (k j : Nat) (l : List Byte) :
    (s.pokes k l).peek j = if k ≤ j then (l[j - k]?).getD (s.peek j) else s.peek j := by
  induction l generalizing s k with
  | nil => simp [State.pokes]
  | cons b t ih =>
    simp only [State.pokes, ih, State.peek_poke]
    by_cases e : k = j
    · subst e
      rw [if_neg (by omega)]
      simp
    · by_cases l : k ≤ j
      · rw [if_pos l, if_pos (by omega), if_neg e]
        have : j - k = (j - (k + 1)) + 1 := by omega
        rw [this, List.getElem?_cons_succ]
      · rw [if_neg l, if_neg (by omega), if_neg e]

end Sys2Proof.Machine
end

