-- ==== Sys2Proof/Laws/Ops.lean ====
section
/-! SUPPORT. One lemma for each shared operation: everything it can do. -/

namespace Sys2Proof.Machine

open Sys2Proof

/-! ## How an A-side instruction ends -/

@[simp] theorem AOut.state_done (s : State) :
    (AOut.done s).state = s.updHart s.cur fun h => h.retire (nextSlot h.pc) (!h.sup) := rfl
@[simp] theorem AOut.state_goto (s : State) (a : Nat) :
    (AOut.goto s a).state = s.updHart s.cur fun h => { h.retire a (!h.sup) with line := none } := rfl
@[simp] theorem AOut.state_wait (s : State) (w : Wait) :
    (AOut.wait s w).state =
      { s.updHart s.cur fun h => { h with wait := some w, waitNo := if h.wait = some w then h.waitNo else s.waitNos } with
        waitNos := s.waitNos + 1 } := rfl
@[simp] theorem AOut.state_trap (s : State) (c : Nat) (v : Dbl) (e b : Nat) :
    (AOut.trap s c v e b).state = trapA s s.cur c v e b := rfl
@[simp] theorem AOut.state_left (s : State) : (AOut.left s).state = s := rfl

/-- An A-side instruction whose guards hold is what its body makes of its hart. -/
theorem aside_run {s : State} {g : Guards} (p : s.me.phase = .running) (h : s.me.guards g = true) (f : Hart → AOut) :
    aside s g f = .next (close s (f s.me).state) := by simp [aside, p, h]
/-- Under false guards it retires (R48). -/
theorem aside_skip {s : State} {g : Guards} (p : s.me.phase = .running) (h : s.me.guards g = false) (f : Hart → AOut) :
    aside s g f = .next (close s (AOut.done s).state) := by simp [aside, p, h]
/-- Where no hart runs, there is none to execute it. -/
theorem aside_absent {s : State} (p : s.me.phase ≠ .running) (g : Guards) (f : Hart → AOut) : aside s g f = .fault .noHart := by
  simp [aside, p]
/-- All an A-side instruction can answer. -/
theorem aside_cases (s : State) (g : Guards) (f : Hart → AOut) :
    (s.me.phase ≠ .running ∧ aside s g f = .fault .noHart)
      ∨ (s.me.phase = .running ∧ s.me.guards g = true ∧ aside s g f = .next (close s (f s.me).state))
      ∨ (s.me.phase = .running ∧ s.me.guards g = false ∧ aside s g f = .next (close s (AOut.done s).state)) := by
  by_cases p : s.me.phase = .running
  · cases h : s.me.guards g
    · exact .inr (.inr ⟨p, rfl, aside_skip p h f⟩)
    · exact .inr (.inl ⟨p, rfl, aside_run p h f⟩)
  · exact .inl ⟨p, aside_absent p g f⟩

theorem asideQ_user {s : State} (u : s.me.sup = false) (i : Instr) (g : Guards) (f : Hart → AOut) : asideQ s i g f = aside s g f := by
  by_cases p : s.me.phase = .running <;> simp [asideQ, aside, u, p]
/-- R346: an instruction that names a queue is illegal in supervisor mode where its guards hold (R48). -/
theorem asideQ_sup {s : State} {g : Guards} (p : s.me.phase = .running) (u : s.me.sup = true) (k : s.me.guards g = true) (i : Instr)
    (f : Hart → AOut) :
    asideQ s i g f = .next (close s (trapA s s.cur 1 (tvalOf i) s.me.eix (aBound s.me.vl.toNat i))) := by simp [asideQ, aside, p, u, k]
theorem asideS_sup {s : State} (u : s.me.sup = true) (i : Instr) (g : Guards) (f : Hart → AOut) : asideS s i g f = aside s g f := by
  by_cases p : s.me.phase = .running <;> simp [asideS, aside, u, p]
/-- R55: a supervisor instruction takes the privilege trap in user mode. -/
theorem asideS_user {s : State} (p : s.me.phase = .running) (u : s.me.sup = false) (i : Instr) (g : Guards) (f : Hart → AOut) :
    asideS s i g f = .next (close s (trapA s s.cur 5 (tvalOf i) 0 0)) := by simp [asideS, p, u]

/-- Whatever its body does, an A-side instruction leaves memory in canonical form and no operation over. -/
theorem aside_sound {s t : State} {g : Guards} {f : Hart → AOut} (w : s.Sound) (h : aside s g f = .next t) : t.Sound := by
  rcases aside_cases s g f with ⟨_, e⟩ | ⟨_, _, e⟩ | ⟨_, _, e⟩ <;> rw [e] at h <;> cases h <;> exact close_sound w _

/-! ## Translations: what a check leaves -/

/-- u is s with free choices drawn, and reads of not-live segments counted (R284, R287). -/
def Walks (s u : State) : Prop := u = { s with fresh := u.fresh, md := { s.md with notLiveReads := u.md.notLiveReads } }

theorem Walks.refl (s : State) : Walks s s := rfl
theorem Walks.trans {s t u : State} (a : Walks s t) (b : Walks t u) : Walks s u := by
  unfold Walks at *
  rw [b, a]
theorem Walks.choose (s : State) (n : Nat) : Walks s (s.choose n).1 := rfl
theorem Walks.mem {s u : State} (h : Walks s u) : u.mem = s.mem := by rw [h]
theorem Walks.wbuf {s u : State} (h : Walks s u) : u.wbuf = s.wbuf := by rw [h]
theorem Walks.cur {s u : State} (h : Walks s u) : u.cur = s.cur := by rw [h]
theorem Walks.harts {s u : State} (h : Walks s u) : u.harts = s.harts := by rw [h]
theorem Walks.launches {s u : State} (h : Walks s u) : u.launches = s.launches := by rw [h]
theorem Walks.parts {s u : State} (h : Walks s u) : u.parts = s.parts := by rw [h]
theorem Walks.hart {s u : State} (h : Walks s u) (i : HartId) : u.hart i = s.hart i := by simp [State.hart, h.harts]
theorem Walks.me {s u : State} (h : Walks s u) : u.me = s.me := by simp [State.me, h.hart, h.cur]
theorem Walks.partOf {s u : State} (h : Walks s u) (i : HartId) : u.partOf i = s.partOf i := by
  simp [State.partOf, State.launch, h.launches]
theorem Walks.part {s u : State} (h : Walks s u) (p : Nat) : u.part p = s.part p := by simp [State.part, h.parts]
theorem Walks.peek {s u : State} (h : Walks s u) (k : Nat) : u.peek k = s.peek k := by simp [State.peek, h.mem, h.wbuf]

theorem noteDead_walks (s : State) (p : Nat) (l : List Nat) : Walks s (noteDead s p l) := by
  unfold noteDead
  split <;> rfl

theorem noteDeadKeys_walks (s : State) (p : Nat) (l : List Nat) : Walks s (noteDeadKeys s p l) := by
  unfold noteDeadKeys
  split
  · rfl
  · exact noteDead_walks _ _ _

theorem noteWalk_walks (s : State) (p : Nat) (r : BitVec 64) (v : Nat) : Walks s (noteWalk s p r v) := by
  unfold noteWalk
  split
  · rfl
  · exact noteDead_walks _ _ _

/-- Whether a read needs a bad unit is a choice alone. -/
theorem needsBad_walks (s : State) (c : Bool) (l : List Nat) : Walks s (needsBad s c l).1 := by
  unfold needsBad
  split
  · rfl
  · split <;> rfl

/-- Which translation is taken is a choice alone. -/
theorem pickEntry_walks {s u : State} {r : BitVec 64} {v : Nat} {l : List TlbEntry} {e : TlbEntry}
    (h : pickEntry s r v l = (u, e)) : Walks s u := by
  unfold pickEntry at h
  split at h
  · cases h; rfl
  · split at h <;> (cases h; rfl)

/-- A translation leaves nothing but a choice and a count (R284). -/
theorem xlate_walks {s u : State} {p : Nat} {r : BitVec 64} {v : Nat} {e : TlbEntry} (h : xlate s p r v = (u, e)) : Walks s u := by
  exact (noteWalk_walks s p r v).trans (pickEntry_walks h)

theorem checkByte_walks {s u : State} {p : Nat} {r : BitVec 64} {m : Bool} {a : Acc} {v : Nat} {x : Except AccFault TlbEntry} {far : Bool}
    (h : checkByte s p r m a v far = (u, x)) : Walks s u := by
  unfold checkByte at h
  split at h
  · cases h
    exact Walks.refl s
  · generalize hx : xlate s p r (v / 65536) = y at h
    cases y with
    | mk b e =>
      have k := xlate_walks hx
      dsimp only at h
      repeat' split at h
      all_goals (cases h; exact k)

theorem checkPages_walks {p : Nat} {r : BitVec 64} {m : Bool} {a : Acc} {hi : Nat} {far : Bool} :
    ∀ {n : Nat} {s u : State} {v : Nat} {x : Except AccFault (List TlbEntry)}, checkPages p r m a hi far n s v = (u, x) → Walks s u
  | 0, s, u, v, x, h => by
    unfold checkPages at h
    cases h
    exact Walks.refl s
  | n + 1, s, u, v, x, h => by
    unfold checkPages at h
    generalize hc : checkByte s p r m a v far = c at h
    obtain ⟨b, g⟩ := c
    have k := checkByte_walks hc
    cases g with
    | error f => cases h; exact k
    | ok e =>
      dsimp only at h
      split at h
      · split at h <;> (cases h; exact k)
      · generalize hd : checkPages p r m a hi far n b (65536 * (v / 65536 + 1)) = d at h
        obtain ⟨w, y⟩ := d
        have l := checkPages_walks hd
        cases y <;> (cases h; exact k.trans l)

/-- The checks of a range leave nothing but choices and counts. -/
theorem checkRange_walks {s u : State} {p : Nat} {r : BitVec 64} {m : Bool} {a : Acc} {lo n : Nat} {far : Bool} {x : Except AccFault (List TlbEntry)}
    (h : checkRange s p r m a lo n far = (u, x)) : Walks s u := by
  unfold checkRange at h
  split at h
  · cases h
    exact Walks.refl s
  · exact checkPages_walks h

theorem check67_walks {s u : State} {i : HartId} {a : Acc} {lo n : Nat} {far : Bool} {x : Except AccFault (List TlbEntry)}
    (h : check67 s i a lo n far = (u, x)) : Walks s u := by
  unfold check67 at h
  extract_lets y at h
  generalize hc : checkRange s (s.partOf i) y.root y.sup a lo n far = c at h
  obtain ⟨b, g⟩ := c
  have k := checkRange_walks hc
  split at h
  next v e =>
    cases e
    generalize hd : checkByte b (b.partOf i) y.root y.sup a (lo + n - 1) far = d at h
    obtain ⟨w, z⟩ := d
    have l := k.trans (checkByte_walks hd)
    split at h
    next e => cases e; cases h; exact l
    next e => cases e; cases h; exact l
  next => cases h; exact k

/-! ## Lines and transfers (R43, R46) -/

theorem readLine_walks {s u : State} {i : HartId} {a : Nat} {x : LineGot} (h : readLine s i a = (u, x)) : Walks s u := by
  unfold readLine at h
  extract_lets y p at h
  generalize hc : checkByte s p y.root y.sup .fetch a = c at h
  obtain ⟨b, g⟩ := c
  have k := checkByte_walks hc
  cases g with
  | error f => cases h; exact k
  | ok e =>
    dsimp only at h
    split at h
    · cases h; exact k
    · split at h <;> split at h <;> cases h
      all_goals first
        | exact k.trans (needsBad_walks _ _ _)
        | exact (k.trans (noteDead_walks _ _ _)).trans (needsBad_walks _ _ _)

theorem targetCheck_walks {s u : State} {i : HartId} {t : Int} {b : Bool} (h : targetCheck s i t = (u, b)) : Walks s u := by
  unfold targetCheck at h
  split at h
  · cases h
    exact Walks.refl s
  · generalize hc : readLine s i (t.toNat / 64 * 64) = c at h
    obtain ⟨w, g⟩ := c
    have k := readLine_walks hc
    cases g <;> (cases h; exact k)

/-- A transfer goes to its target with its effect made, or takes the control-flow target fault without it. -/
theorem transfer_cases (s : State) (t : Int) (f : State → State) :
    ∃ u, Walks s u ∧ (targetCheck s s.cur t = (u, true) ∧ transfer s t f = .goto (f u) t.toNat
      ∨ targetCheck s s.cur t = (u, false) ∧ transfer s t f = .trap u 4 (BitVec.ofInt 64 t) 0 0) := by
  generalize hc : targetCheck s s.cur t = c
  obtain ⟨u, b⟩ := c
  refine ⟨u, targetCheck_walks hc, ?_⟩
  unfold transfer
  rw [hc]
  cases b
  · exact .inr ⟨rfl, rfl⟩
  · exact .inl ⟨rfl, rfl⟩

/-! ## Reads and writes of elements -/

/-- Where no check unit is bad, an access that may fill its line meets no error (R372). -/
@[simp] theorem fillBad_clean {s : State} {h : HartId} {l m : List Nat} (b : s.bad = []) (b1 : s.badL1 = []) (b2 : s.badL2 = []) :
    fillBad s h l m = (s, false) := by
  simp [fillBad, l1Bad, hasL1, badLine, farL1, b, b1, b2]
/-- Where no segment is not live, no read of one is counted (R287). -/
@[simp] theorem noteDeadKeys_live {s : State} {p : Nat} {l : List Nat} (d : s.notLive = []) : noteDeadKeys s p l = s := by
  simp [noteDeadKeys, d]

/-- What a hart has observed is all that an observation changes (R341). -/
theorem observe_frame (s : State) (i : HartId) (e : Nat) (l : List Nat) : observe s i e l = { s with seen := (observe s i e l).seen } := rfl
/-- Where nothing else has stood at some keys, nothing is kept of their observation. -/
@[simp] theorem observe_unchanged {s : State} {i : HartId} {e : Nat} {l : List Nat} (o : s.old = []) : observe s i e l = s := by
  cases s; cases o; simp [observe, tget]

/-- Where no check unit is bad, no byte has been written through the other kind of mapping and no segment is not live, an
element read is its bytes in memory, which the hart has then observed. -/
theorem readElt_plain {s : State} {i : HartId} {l : List TlbEntry} {a n : Nat} {f : Nat → Bool} (b : s.bad = []) (b1 : s.badL1 = [])
    (b2 : s.badL2 = []) (d : s.notLive = [])
    (c : ∀ k ∈ keysOf s (s.partOf i) l a n, staleFor s i (pteC (pageOf l a).pte) k = false) :
    readElt s i l a n f = .ok (observe s i s.epoch ((keysOf s (s.partOf i) l a n).filter f))
      ((keysOf s (s.partOf i) l a n).foldr (fun k acc => (s.peek k).toNat + 256 * acc) 0) := by
  have e : (keysOf s (s.partOf i) l a n).any (staleFor s i (pteC (pageOf l a).pte)) = false := by
    simpa using c
  cases g : pteC (pageOf l a).pte <;> rw [g] at e <;> simp [readElt, g, memBad, b, b1, b2, d, e]

/-- Where no check unit is bad and no segment is not live, an element write is made (R233). -/
theorem writeElt_plain {s : State} {i : HartId} {l : List TlbEntry} {a : Nat} {bs : List Byte} (b : s.bad = []) (b1 : s.badL1 = [])
    (b2 : s.badL2 = []) (d : s.notLive = []) :
    writeElt s i l a bs = .ok (putBytes s (s.partOf i) i.l (pageOf l a) a (keysOf s (s.partOf i) l a bs.length) bs) () := by
  cases f : pteC (pageOf l a).pte <;> simp [writeElt, f, dropFarL1, l1Units, memUnits, b, b1, b2, d]

/-- A claim changes the queues of loads and the claim, and nothing else of its hart (R369). -/
theorem claimQueues_ok {h g : Hart} {t : Takes} {w : Nat} (e : claimQueues h t w = .ok g) :
    g = { h with lq := g.lq, lqTail := g.lqTail, claim := g.claim } := by
  unfold claimQueues at e
  dsimp only at e
  repeat' split at e
  all_goals first | (cases e; done) | (cases e; rfl)

/-! ## The pass (R107) -/

/-- All that the pass of an X-side instruction can answer. -/
theorem xpass_cases (s : State) (i : Instr) (d : XDef) :
    (s.me.phase ≠ .running ∧ xpass s i d = .fault .noHart)
      ∨ (s.me.phase = .running ∧ ∃ o : AOut, xpass s i d = .next (close s o.state)
        ∧ ((∃ c v, o = .trap s c v 0 0) ∨ (∃ w, o = .wait s w)
          ∨ o = .done ((s.updCore s.cur.l s.cur.k fun c => { c with seq := c.seq + 1 }).updHart s.cur fun h =>
              { h with win := h.win ++ [d.capture i s s.me] }))) := by
  by_cases p : s.me.phase = .running
  · refine .inr ⟨p, ?_⟩
    simp only [xpass, p]
    split
    · contradiction
    · split
      · exact ⟨_, rfl, .inl ⟨_, _, rfl⟩⟩
      · split
        · exact ⟨_, rfl, .inr (.inl ⟨_, rfl⟩)⟩
        · refine ⟨_, rfl, ?_⟩
          repeat' split
          all_goals first
            | exact .inl ⟨_, _, rfl⟩
            | exact .inr (.inl ⟨_, rfl⟩)
            | exact .inr (.inr rfl)
  · exact .inl ⟨p, by simp [xpass, p]⟩

/-- Whatever it does, a pass leaves memory in canonical form and no operation over. -/
theorem xpass_sound {s t : State} {i : Instr} {d : XDef} (w : s.Sound) (h : xpass s i d = .next t) : t.Sound := by
  rcases xpass_cases s i d with ⟨_, e⟩ | ⟨_, o, e, _⟩ <;> rw [e] at h <;> cases h
  exact close_sound w _

/-! ## Clave commands (R357) -/

/-- All that an accepted command can do: wait behind others, wait for what holds it up, or have its effect and be answered. -/
theorem submit_cases (s : State) (c : Cmd) (o : Order) :
    (behindOf c s.md.waiting = true ∧ submit s c o = keepOrder s c o)
      ∨ (behindOf c s.md.waiting = false ∧ ∃ u q, orderBegin s c o = (u, q)
        ∧ ((orderReady u c q = false ∧ submit s c o = keepOrder u c q) ∨ (orderReady u c q = true ∧ submit s c o = finish u c q))) := by
  generalize e : orderBegin s c o = x
  obtain ⟨u, q⟩ := x
  cases b : behindOf c s.md.waiting
  · refine .inr ⟨rfl, u, q, rfl, ?_⟩
    cases r : orderReady u c q
    · exact .inl ⟨rfl, by simp [submit, b, e, r]⟩
    · exact .inr ⟨rfl, by simp [submit, b, e, r]⟩
  · exact .inl ⟨rfl, by simp [submit, b]⟩

/-- All that a signed command can do: nothing where it is not heard by a module that is ready, an answer without effect where it is
refused, or it is accepted. -/
theorem command_cases (s : State) (code : Nat) (c : Cmd) (o : Order) :
    ((s.md.power ≠ .ready ∨ heard s code c = false) ∧ command s code c o = s)
      ∨ (∃ n, refuse s c = some n ∧ command s code c o = reply s c n [])
      ∨ (refuse s c = none ∧ command s code c o = submit (accepted s c) c (if headerBad code c then .malformed else o)) := by
  by_cases p : s.md.power = .ready
  · cases k : heard s code c
    · exact .inl ⟨.inr rfl, by simp [command, k]⟩
    · cases r : refuse s c with
      | some n => exact .inr (.inl ⟨n, rfl, by simp [command, p, k, r]⟩)
      | none => exact .inr (.inr ⟨rfl, by simp [command, p, k, r]⟩)
  · exact .inl ⟨.inl p, by simp [command, p]⟩

/-! ## Waking -/

/-- An event that ends a wait runs the waiting instruction, or nothing happens. -/
theorem wake_cases (s : State) (i : HartId) (f : Option Wait → Instr → Bool) :
    wake s i f = .next s
      ∨ ∃ t j, canIssue s i = true ∧ fetch { s with cur := i } i = .run t j ∧ f (s.hart i).wait j = true ∧ wake s i f = runInstr j t := by
  simp only [wake]
  split
  · split
    · split
      next h => exact .inr ⟨_, _, by assumption, by assumption, h, rfl⟩
      next => exact .inl rfl
    · exact .inl rfl
  · exact .inl rfl

end Sys2Proof.Machine
end

