-- ==== Sys2Proof/Laws/PerInstr.lean ====
section
/-! SUPPORT. The lemmas that are made instruction by instruction: decoding an encoded instruction gives it back. -/

namespace Sys2Proof.Laws

open Sys2Proof

set_option linter.unusedSimpArgs false

/-- A slot of an instruction's own side decodes to it when its group's decoder reads its fields back. -/
theorem roundTrip {α : Type} {i : Instr} {f : Fields} {r : D α} {g : α → Instr} {x : α} (hf : fieldsOf i = some f) (hi : g x = i)
    (hd : r = .ok x) (hx : (f.ext.isNone || acceptsExt f.opc) = true) (hg : decGroup f = g <$> r) (e : Option IWord) (w : IWord)
    (he : encode i = some (e, w)) : decode i.xside e w = .ok i := by
  simp only [encode, hf, Option.map_some, Option.some.injEq, Prod.mk.injEq] at he
  obtain ⟨rfl, rfl⟩ := he
  have h0 : i.xside = xGroup f.opc := by simp only [Instr.xside, hf]
  simp only [decode, unpack_pack, decodeFields, h0, beq_self_eq_true, rsv_true, ok_bind, hx, hg, hd]
  exact congrArg Except.ok hi

namespace Encoding

/-- Decoding the words of a well-formed instruction, in a slot of its own side, gives the instruction. -/
def Statement (i : Instr) : Prop := i.wf = true → ∀ e w, encode i = some (e, w) → decode i.xside e w = .ok i

theorem wide_bit (z : BitVec 2) (h : z.getLsbD 1 = true) : (z.extractLsb' 1 1 == 1#1) = true := by revert z; decide

theorem nop (x : Bare) : Statement (.nop x) := fun h =>
  roundTrip (f := encBare 0x000#12 x) (g := Instr.nop) rfl rfl (decBare_encBare 0x000#12 x h) rfl (by
    have h0 : (encBare 0x000#12 x).opc = 0x000#12 := rfl
    simp only [decGroup, decGroup0, h0, show (BitVec.extractLsb' 8 4 0x000#12).toNat = 0x0 by decide, show (BitVec.extractLsb' 0 8 0x000#12).toNat = 0x00 by decide])
theorem br (x : GImm) : Statement (.br x) := fun h =>
  roundTrip (f := encGImm 0x001#12 x) (g := Instr.br) rfl rfl (decGImm_encGImm 0x001#12 x h) rfl (by
    have h0 : (encGImm 0x001#12 x).opc = 0x001#12 := rfl
    simp only [decGroup, decGroup0, h0, show (BitVec.extractLsb' 8 4 0x001#12).toNat = 0x0 by decide, show (BitVec.extractLsb' 0 8 0x001#12).toNat = 0x01 by decide])
theorem call (x : GImm) : Statement (.call x) := fun h =>
  roundTrip (f := encGImm 0x002#12 x) (g := Instr.call) rfl rfl (decGImm_encGImm 0x002#12 x h) rfl (by
    have h0 : (encGImm 0x002#12 x).opc = 0x002#12 := rfl
    simp only [decGroup, decGroup0, h0, show (BitVec.extractLsb' 8 4 0x002#12).toNat = 0x0 by decide, show (BitVec.extractLsb' 0 8 0x002#12).toNat = 0x02 by decide])
theorem ret (x : Bare) : Statement (.ret x) := fun h =>
  roundTrip (f := encBare 0x003#12 x) (g := Instr.ret) rfl rfl (decBare_encBare 0x003#12 x h) rfl (by
    have h0 : (encBare 0x003#12 x).opc = 0x003#12 := rfl
    simp only [decGroup, decGroup0, h0, show (BitVec.extractLsb' 8 4 0x003#12).toNat = 0x0 by decide, show (BitVec.extractLsb' 0 8 0x003#12).toNat = 0x03 by decide])
theorem jmp (x : Jmp) : Statement (.jmp x) := fun h =>
  roundTrip (f := encJmp 0x004#12 x) (g := Instr.jmp) rfl rfl (decJmp_encJmp 0x004#12 x h) rfl (by
    have h0 : (encJmp 0x004#12 x).opc = 0x004#12 := rfl
    simp only [decGroup, decGroup0, h0, show (BitVec.extractLsb' 8 4 0x004#12).toNat = 0x0 by decide, show (BitVec.extractLsb' 0 8 0x004#12).toNat = 0x04 by decide])
theorem strip (x : Strip) : Statement (.strip x) := fun h =>
  roundTrip (f := encStrip 0x005#12 x) (g := Instr.strip) rfl rfl (decStrip_encStrip 0x005#12 x h) rfl (by
    have h0 : (encStrip 0x005#12 x).opc = 0x005#12 := rfl
    simp only [decGroup, decGroup0, h0, show (BitVec.extractLsb' 8 4 0x005#12).toNat = 0x0 by decide, show (BitVec.extractLsb' 0 8 0x005#12).toNat = 0x05 by decide])
theorem vsetl (x : Vsetl) : Statement (.vsetl x) := fun h =>
  roundTrip (f := encVsetl 0x006#12 x) (g := Instr.vsetl) rfl rfl (decVsetl_encVsetl 0x006#12 x h) rfl (by
    have h0 : (encVsetl 0x006#12 x).opc = 0x006#12 := rfl
    simp only [decGroup, decGroup0, h0, show (BitVec.extractLsb' 8 4 0x006#12).toNat = 0x0 by decide, show (BitVec.extractLsb' 0 8 0x006#12).toNat = 0x06 by decide])
theorem trap (x : GImm) : Statement (.trap x) := fun h =>
  roundTrip (f := encGImm 0x007#12 x) (g := Instr.trap) rfl rfl (decGImm_encGImm 0x007#12 x h) rfl (by
    have h0 : (encGImm 0x007#12 x).opc = 0x007#12 := rfl
    simp only [decGroup, decGroup0, h0, show (BitVec.extractLsb' 8 4 0x007#12).toNat = 0x0 by decide, show (BitVec.extractLsb' 0 8 0x007#12).toNat = 0x07 by decide])
theorem bkpt (x : GImm) : Statement (.bkpt x) := fun h =>
  roundTrip (f := encGImm 0x013#12 x) (g := Instr.bkpt) rfl rfl (decGImm_encGImm 0x013#12 x h) rfl (by
    have h0 : (encGImm 0x013#12 x).opc = 0x013#12 := rfl
    simp only [decGroup, decGroup0, h0, show (BitVec.extractLsb' 8 4 0x013#12).toNat = 0x0 by decide, show (BitVec.extractLsb' 0 8 0x013#12).toNat = 0x13 by decide])
theorem eret (x : Bare) : Statement (.eret x) := fun h =>
  roundTrip (f := encBare 0x008#12 x) (g := Instr.eret) rfl rfl (decBare_encBare 0x008#12 x h) rfl (by
    have h0 : (encBare 0x008#12 x).opc = 0x008#12 := rfl
    simp only [decGroup, decGroup0, h0, show (BitVec.extractLsb' 8 4 0x008#12).toNat = 0x0 by decide, show (BitVec.extractLsb' 0 8 0x008#12).toNat = 0x08 by decide])
theorem exit (x : Bare) : Statement (.exit x) := fun h =>
  roundTrip (f := encBare 0x009#12 x) (g := Instr.exit) rfl rfl (decBare_encBare 0x009#12 x h) rfl (by
    have h0 : (encBare 0x009#12 x).opc = 0x009#12 := rfl
    simp only [decGroup, decGroup0, h0, show (BitVec.extractLsb' 8 4 0x009#12).toNat = 0x0 by decide, show (BitVec.extractLsb' 0 8 0x009#12).toNat = 0x09 by decide])
theorem yield (x : Yield) : Statement (.yield x) := fun h =>
  roundTrip (f := encYield 0x00A#12 x) (g := Instr.yield) rfl rfl (decYield_encYield 0x00A#12 x h) rfl (by
    have h0 : (encYield 0x00A#12 x).opc = 0x00A#12 := rfl
    simp only [decGroup, decGroup0, h0, show (BitVec.extractLsb' 8 4 0x00A#12).toNat = 0x0 by decide, show (BitVec.extractLsb' 0 8 0x00A#12).toNat = 0x0A by decide])
theorem csrr (x : CsrRd) : Statement (.csrr x) := fun h =>
  roundTrip (f := encCsrRd 0x00B#12 x) (g := Instr.csrr) rfl rfl (decCsrRd_encCsrRd 0x00B#12 x h) rfl (by
    have h0 : (encCsrRd 0x00B#12 x).opc = 0x00B#12 := rfl
    simp only [decGroup, decGroup0, h0, show (BitVec.extractLsb' 8 4 0x00B#12).toNat = 0x0 by decide, show (BitVec.extractLsb' 0 8 0x00B#12).toNat = 0x0B by decide])
theorem csrw (x : CsrWr) : Statement (.csrw x) := fun h =>
  roundTrip (f := encCsrWr 0x00C#12 x) (g := Instr.csrw) rfl rfl (decCsrWr_encCsrWr 0x00C#12 x h) rfl (by
    have h0 : (encCsrWr 0x00C#12 x).opc = 0x00C#12 := rfl
    simp only [decGroup, decGroup0, h0, show (BitVec.extractLsb' 8 4 0x00C#12).toNat = 0x0 by decide, show (BitVec.extractLsb' 0 8 0x00C#12).toNat = 0x0C by decide])
theorem csrset (x : CsrWr) : Statement (.csrset x) := fun h =>
  roundTrip (f := encCsrWr 0x00D#12 x) (g := Instr.csrset) rfl rfl (decCsrWr_encCsrWr 0x00D#12 x h) rfl (by
    have h0 : (encCsrWr 0x00D#12 x).opc = 0x00D#12 := rfl
    simp only [decGroup, decGroup0, h0, show (BitVec.extractLsb' 8 4 0x00D#12).toNat = 0x0 by decide, show (BitVec.extractLsb' 0 8 0x00D#12).toNat = 0x0D by decide])
theorem csrclr (x : CsrWr) : Statement (.csrclr x) := fun h =>
  roundTrip (f := encCsrWr 0x00E#12 x) (g := Instr.csrclr) rfl rfl (decCsrWr_encCsrWr 0x00E#12 x h) rfl (by
    have h0 : (encCsrWr 0x00E#12 x).opc = 0x00E#12 := rfl
    simp only [decGroup, decGroup0, h0, show (BitVec.extractLsb' 8 4 0x00E#12).toNat = 0x0 by decide, show (BitVec.extractLsb' 0 8 0x00E#12).toNat = 0x0E by decide])
theorem fence (x : Fence) : Statement (.fence x) := fun h =>
  roundTrip (f := encFence 0x00F#12 x) (g := Instr.fence) rfl rfl (decFence_encFence 0x00F#12 x h) rfl (by
    have h0 : (encFence 0x00F#12 x).opc = 0x00F#12 := rfl
    simp only [decGroup, decGroup0, h0, show (BitVec.extractLsb' 8 4 0x00F#12).toNat = 0x0 by decide, show (BitVec.extractLsb' 0 8 0x00F#12).toNat = 0x0F by decide])
theorem xsync (x : Bare) : Statement (.xsync x) := fun h =>
  roundTrip (f := encBare 0x010#12 x) (g := Instr.xsync) rfl rfl (decBare_encBare 0x010#12 x h) rfl (by
    have h0 : (encBare 0x010#12 x).opc = 0x010#12 := rfl
    simp only [decGroup, decGroup0, h0, show (BitVec.extractLsb' 8 4 0x010#12).toNat = 0x0 by decide, show (BitVec.extractLsb' 0 8 0x010#12).toNat = 0x10 by decide])
theorem tlbinv (x : Tlbinv) : Statement (.tlbinv x) := fun h =>
  roundTrip (f := encTlbinv 0x011#12 x) (g := Instr.tlbinv) rfl rfl (decTlbinv_encTlbinv 0x011#12 x h) rfl (by
    have h0 : (encTlbinv 0x011#12 x).opc = 0x011#12 := rfl
    simp only [decGroup, decGroup0, h0, show (BitVec.extractLsb' 8 4 0x011#12).toNat = 0x0 by decide, show (BitVec.extractLsb' 0 8 0x011#12).toNat = 0x11 by decide])
theorem setbnd (x : A3) : Statement (.setbnd x) := fun h =>
  roundTrip (f := encA3 0x012#12 x) (g := Instr.setbnd) rfl rfl (decA3_encA3 0x012#12 x h) rfl (by
    have h0 : (encA3 0x012#12 x).opc = 0x012#12 := rfl
    simp only [decGroup, decGroup0, h0, show (BitVec.extractLsb' 8 4 0x012#12).toNat = 0x0 by decide, show (BitVec.extractLsb' 0 8 0x012#12).toNat = 0x12 by decide])
theorem add (x : ABin) : Statement (.add x) := fun h =>
  roundTrip (f := encABin 0x100#12 x) (g := Instr.add) rfl rfl (decABin_encABin 0x100#12 x h) rfl (by
    have h0 : (encABin 0x100#12 x).opc = 0x100#12 := rfl
    simp only [decGroup, decGroup1, h0, show (BitVec.extractLsb' 8 4 0x100#12).toNat = 0x1 by decide, show (BitVec.extractLsb' 0 8 0x100#12).toNat = 0x00 by decide])
theorem addi (x : AImm) : Statement (.addi x) := fun h =>
  roundTrip (f := encAImm 0x101#12 x) (g := Instr.addi) rfl rfl (decAImm_encAImm 0x101#12 x h) (Bool.or_true _) (by
    have h0 : (encAImm 0x101#12 x).opc = 0x101#12 := rfl
    simp only [decGroup, decGroup1, h0, show (BitVec.extractLsb' 8 4 0x101#12).toNat = 0x1 by decide, show (BitVec.extractLsb' 0 8 0x101#12).toNat = 0x01 by decide])
theorem sub (x : ABin) : Statement (.sub x) := fun h =>
  roundTrip (f := encABin 0x102#12 x) (g := Instr.sub) rfl rfl (decABin_encABin 0x102#12 x h) rfl (by
    have h0 : (encABin 0x102#12 x).opc = 0x102#12 := rfl
    simp only [decGroup, decGroup1, h0, show (BitVec.extractLsb' 8 4 0x102#12).toNat = 0x1 by decide, show (BitVec.extractLsb' 0 8 0x102#12).toNat = 0x02 by decide])
theorem mul (x : ABin) : Statement (.mul x) := fun h =>
  roundTrip (f := encABin 0x104#12 x) (g := Instr.mul) rfl rfl (decABin_encABin 0x104#12 x h) rfl (by
    have h0 : (encABin 0x104#12 x).opc = 0x104#12 := rfl
    simp only [decGroup, decGroup1, h0, show (BitVec.extractLsb' 8 4 0x104#12).toNat = 0x1 by decide, show (BitVec.extractLsb' 0 8 0x104#12).toNat = 0x04 by decide])
theorem muli (x : AImm) : Statement (.muli x) := fun h =>
  roundTrip (f := encAImm 0x105#12 x) (g := Instr.muli) rfl rfl (decAImm_encAImm 0x105#12 x h) (Bool.or_true _) (by
    have h0 : (encAImm 0x105#12 x).opc = 0x105#12 := rfl
    simp only [decGroup, decGroup1, h0, show (BitVec.extractLsb' 8 4 0x105#12).toNat = 0x1 by decide, show (BitVec.extractLsb' 0 8 0x105#12).toNat = 0x05 by decide])
theorem mulh (x : ABin) : Statement (.mulh x) := fun h =>
  roundTrip (f := encABin 0x106#12 x) (g := Instr.mulh) rfl rfl (decABin_encABin 0x106#12 x h) rfl (by
    have h0 : (encABin 0x106#12 x).opc = 0x106#12 := rfl
    simp only [decGroup, decGroup1, h0, show (BitVec.extractLsb' 8 4 0x106#12).toNat = 0x1 by decide, show (BitVec.extractLsb' 0 8 0x106#12).toNat = 0x06 by decide])
theorem mulhu (x : AImm) : Statement (.mulhu x) := fun h =>
  roundTrip (f := encAImm 0x107#12 x) (g := Instr.mulhu) rfl rfl (decAImm_encAImm 0x107#12 x h) (Bool.or_true _) (by
    have h0 : (encAImm 0x107#12 x).opc = 0x107#12 := rfl
    simp only [decGroup, decGroup1, h0, show (BitVec.extractLsb' 8 4 0x107#12).toNat = 0x1 by decide, show (BitVec.extractLsb' 0 8 0x107#12).toNat = 0x07 by decide])
theorem div (x : ABin) : Statement (.div x) := fun h =>
  roundTrip (f := encABin 0x108#12 x) (g := Instr.div) rfl rfl (decABin_encABin 0x108#12 x h) rfl (by
    have h0 : (encABin 0x108#12 x).opc = 0x108#12 := rfl
    simp only [decGroup, decGroup1, h0, show (BitVec.extractLsb' 8 4 0x108#12).toNat = 0x1 by decide, show (BitVec.extractLsb' 0 8 0x108#12).toNat = 0x08 by decide])
theorem divu (x : AImm) : Statement (.divu x) := fun h =>
  roundTrip (f := encAImm 0x109#12 x) (g := Instr.divu) rfl rfl (decAImm_encAImm 0x109#12 x h) (Bool.or_true _) (by
    have h0 : (encAImm 0x109#12 x).opc = 0x109#12 := rfl
    simp only [decGroup, decGroup1, h0, show (BitVec.extractLsb' 8 4 0x109#12).toNat = 0x1 by decide, show (BitVec.extractLsb' 0 8 0x109#12).toNat = 0x09 by decide])
theorem rem (x : ABin) : Statement (.rem x) := fun h =>
  roundTrip (f := encABin 0x10A#12 x) (g := Instr.rem) rfl rfl (decABin_encABin 0x10A#12 x h) rfl (by
    have h0 : (encABin 0x10A#12 x).opc = 0x10A#12 := rfl
    simp only [decGroup, decGroup1, h0, show (BitVec.extractLsb' 8 4 0x10A#12).toNat = 0x1 by decide, show (BitVec.extractLsb' 0 8 0x10A#12).toNat = 0x0A by decide])
theorem remu (x : AImm) : Statement (.remu x) := fun h =>
  roundTrip (f := encAImm 0x10B#12 x) (g := Instr.remu) rfl rfl (decAImm_encAImm 0x10B#12 x h) (Bool.or_true _) (by
    have h0 : (encAImm 0x10B#12 x).opc = 0x10B#12 := rfl
    simp only [decGroup, decGroup1, h0, show (BitVec.extractLsb' 8 4 0x10B#12).toNat = 0x1 by decide, show (BitVec.extractLsb' 0 8 0x10B#12).toNat = 0x0B by decide])
theorem and (x : ABin) : Statement (.and x) := fun h =>
  roundTrip (f := encABin 0x10C#12 x) (g := Instr.and) rfl rfl (decABin_encABin 0x10C#12 x h) rfl (by
    have h0 : (encABin 0x10C#12 x).opc = 0x10C#12 := rfl
    simp only [decGroup, decGroup1, h0, show (BitVec.extractLsb' 8 4 0x10C#12).toNat = 0x1 by decide, show (BitVec.extractLsb' 0 8 0x10C#12).toNat = 0x0C by decide])
theorem andi (x : AImm) : Statement (.andi x) := fun h =>
  roundTrip (f := encAImm 0x10D#12 x) (g := Instr.andi) rfl rfl (decAImm_encAImm 0x10D#12 x h) (Bool.or_true _) (by
    have h0 : (encAImm 0x10D#12 x).opc = 0x10D#12 := rfl
    simp only [decGroup, decGroup1, h0, show (BitVec.extractLsb' 8 4 0x10D#12).toNat = 0x1 by decide, show (BitVec.extractLsb' 0 8 0x10D#12).toNat = 0x0D by decide])
theorem or (x : ABin) : Statement (.or x) := fun h =>
  roundTrip (f := encABin 0x10E#12 x) (g := Instr.or) rfl rfl (decABin_encABin 0x10E#12 x h) rfl (by
    have h0 : (encABin 0x10E#12 x).opc = 0x10E#12 := rfl
    simp only [decGroup, decGroup1, h0, show (BitVec.extractLsb' 8 4 0x10E#12).toNat = 0x1 by decide, show (BitVec.extractLsb' 0 8 0x10E#12).toNat = 0x0E by decide])
theorem ori (x : AImm) : Statement (.ori x) := fun h =>
  roundTrip (f := encAImm 0x10F#12 x) (g := Instr.ori) rfl rfl (decAImm_encAImm 0x10F#12 x h) (Bool.or_true _) (by
    have h0 : (encAImm 0x10F#12 x).opc = 0x10F#12 := rfl
    simp only [decGroup, decGroup1, h0, show (BitVec.extractLsb' 8 4 0x10F#12).toNat = 0x1 by decide, show (BitVec.extractLsb' 0 8 0x10F#12).toNat = 0x0F by decide])
theorem xor (x : ABin) : Statement (.xor x) := fun h =>
  roundTrip (f := encABin 0x110#12 x) (g := Instr.xor) rfl rfl (decABin_encABin 0x110#12 x h) rfl (by
    have h0 : (encABin 0x110#12 x).opc = 0x110#12 := rfl
    simp only [decGroup, decGroup1, h0, show (BitVec.extractLsb' 8 4 0x110#12).toNat = 0x1 by decide, show (BitVec.extractLsb' 0 8 0x110#12).toNat = 0x10 by decide])
theorem xori (x : AImm) : Statement (.xori x) := fun h =>
  roundTrip (f := encAImm 0x111#12 x) (g := Instr.xori) rfl rfl (decAImm_encAImm 0x111#12 x h) (Bool.or_true _) (by
    have h0 : (encAImm 0x111#12 x).opc = 0x111#12 := rfl
    simp only [decGroup, decGroup1, h0, show (BitVec.extractLsb' 8 4 0x111#12).toNat = 0x1 by decide, show (BitVec.extractLsb' 0 8 0x111#12).toNat = 0x11 by decide])
theorem andn (x : ABin) : Statement (.andn x) := fun h =>
  roundTrip (f := encABin 0x112#12 x) (g := Instr.andn) rfl rfl (decABin_encABin 0x112#12 x h) rfl (by
    have h0 : (encABin 0x112#12 x).opc = 0x112#12 := rfl
    simp only [decGroup, decGroup1, h0, show (BitVec.extractLsb' 8 4 0x112#12).toNat = 0x1 by decide, show (BitVec.extractLsb' 0 8 0x112#12).toNat = 0x12 by decide])
theorem shl (x : ABin) : Statement (.shl x) := fun h =>
  roundTrip (f := encABin 0x114#12 x) (g := Instr.shl) rfl rfl (decABin_encABin 0x114#12 x h) rfl (by
    have h0 : (encABin 0x114#12 x).opc = 0x114#12 := rfl
    simp only [decGroup, decGroup1, h0, show (BitVec.extractLsb' 8 4 0x114#12).toNat = 0x1 by decide, show (BitVec.extractLsb' 0 8 0x114#12).toNat = 0x14 by decide])
theorem shli (x : AImm) : Statement (.shli x) := fun h =>
  roundTrip (f := encAImm 0x115#12 x) (g := Instr.shli) rfl rfl (decAImm_encAImm 0x115#12 x h) (Bool.or_true _) (by
    have h0 : (encAImm 0x115#12 x).opc = 0x115#12 := rfl
    simp only [decGroup, decGroup1, h0, show (BitVec.extractLsb' 8 4 0x115#12).toNat = 0x1 by decide, show (BitVec.extractLsb' 0 8 0x115#12).toNat = 0x15 by decide])
theorem shr (x : ABin) : Statement (.shr x) := fun h =>
  roundTrip (f := encABin 0x116#12 x) (g := Instr.shr) rfl rfl (decABin_encABin 0x116#12 x h) rfl (by
    have h0 : (encABin 0x116#12 x).opc = 0x116#12 := rfl
    simp only [decGroup, decGroup1, h0, show (BitVec.extractLsb' 8 4 0x116#12).toNat = 0x1 by decide, show (BitVec.extractLsb' 0 8 0x116#12).toNat = 0x16 by decide])
theorem shri (x : AImm) : Statement (.shri x) := fun h =>
  roundTrip (f := encAImm 0x117#12 x) (g := Instr.shri) rfl rfl (decAImm_encAImm 0x117#12 x h) (Bool.or_true _) (by
    have h0 : (encAImm 0x117#12 x).opc = 0x117#12 := rfl
    simp only [decGroup, decGroup1, h0, show (BitVec.extractLsb' 8 4 0x117#12).toNat = 0x1 by decide, show (BitVec.extractLsb' 0 8 0x117#12).toNat = 0x17 by decide])
theorem sra (x : ABin) : Statement (.sra x) := fun h =>
  roundTrip (f := encABin 0x118#12 x) (g := Instr.sra) rfl rfl (decABin_encABin 0x118#12 x h) rfl (by
    have h0 : (encABin 0x118#12 x).opc = 0x118#12 := rfl
    simp only [decGroup, decGroup1, h0, show (BitVec.extractLsb' 8 4 0x118#12).toNat = 0x1 by decide, show (BitVec.extractLsb' 0 8 0x118#12).toNat = 0x18 by decide])
theorem srai (x : AImm) : Statement (.srai x) := fun h =>
  roundTrip (f := encAImm 0x119#12 x) (g := Instr.srai) rfl rfl (decAImm_encAImm 0x119#12 x h) (Bool.or_true _) (by
    have h0 : (encAImm 0x119#12 x).opc = 0x119#12 := rfl
    simp only [decGroup, decGroup1, h0, show (BitVec.extractLsb' 8 4 0x119#12).toNat = 0x1 by decide, show (BitVec.extractLsb' 0 8 0x119#12).toNat = 0x19 by decide])
theorem min (x : ABin) : Statement (.min x) := fun h =>
  roundTrip (f := encABin 0x11C#12 x) (g := Instr.min) rfl rfl (decABin_encABin 0x11C#12 x h) rfl (by
    have h0 : (encABin 0x11C#12 x).opc = 0x11C#12 := rfl
    simp only [decGroup, decGroup1, h0, show (BitVec.extractLsb' 8 4 0x11C#12).toNat = 0x1 by decide, show (BitVec.extractLsb' 0 8 0x11C#12).toNat = 0x1C by decide])
theorem max (x : AImm) : Statement (.max x) := fun h =>
  roundTrip (f := encAImm 0x11D#12 x) (g := Instr.max) rfl rfl (decAImm_encAImm 0x11D#12 x h) (Bool.or_true _) (by
    have h0 : (encAImm 0x11D#12 x).opc = 0x11D#12 := rfl
    simp only [decGroup, decGroup1, h0, show (BitVec.extractLsb' 8 4 0x11D#12).toNat = 0x1 by decide, show (BitVec.extractLsb' 0 8 0x11D#12).toNat = 0x1D by decide])
theorem minu (x : ABin) : Statement (.minu x) := fun h =>
  roundTrip (f := encABin 0x11E#12 x) (g := Instr.minu) rfl rfl (decABin_encABin 0x11E#12 x h) rfl (by
    have h0 : (encABin 0x11E#12 x).opc = 0x11E#12 := rfl
    simp only [decGroup, decGroup1, h0, show (BitVec.extractLsb' 8 4 0x11E#12).toNat = 0x1 by decide, show (BitVec.extractLsb' 0 8 0x11E#12).toNat = 0x1E by decide])
theorem maxu (x : AImm) : Statement (.maxu x) := fun h =>
  roundTrip (f := encAImm 0x11F#12 x) (g := Instr.maxu) rfl rfl (decAImm_encAImm 0x11F#12 x h) (Bool.or_true _) (by
    have h0 : (encAImm 0x11F#12 x).opc = 0x11F#12 := rfl
    simp only [decGroup, decGroup1, h0, show (BitVec.extractLsb' 8 4 0x11F#12).toNat = 0x1 by decide, show (BitVec.extractLsb' 0 8 0x11F#12).toNat = 0x1F by decide])
theorem clz (x : AUn) : Statement (.clz x) := fun h =>
  roundTrip (f := encAUn 0x120#12 x) (g := Instr.clz) rfl rfl (decAUn_encAUn 0x120#12 x h) rfl (by
    have h0 : (encAUn 0x120#12 x).opc = 0x120#12 := rfl
    simp only [decGroup, decGroup1, h0, show (BitVec.extractLsb' 8 4 0x120#12).toNat = 0x1 by decide, show (BitVec.extractLsb' 0 8 0x120#12).toNat = 0x20 by decide])
theorem ctz (x : AUn) : Statement (.ctz x) := fun h =>
  roundTrip (f := encAUn 0x121#12 x) (g := Instr.ctz) rfl rfl (decAUn_encAUn 0x121#12 x h) rfl (by
    have h0 : (encAUn 0x121#12 x).opc = 0x121#12 := rfl
    simp only [decGroup, decGroup1, h0, show (BitVec.extractLsb' 8 4 0x121#12).toNat = 0x1 by decide, show (BitVec.extractLsb' 0 8 0x121#12).toNat = 0x21 by decide])
theorem popc (x : AUn) : Statement (.popc x) := fun h =>
  roundTrip (f := encAUn 0x122#12 x) (g := Instr.popc) rfl rfl (decAUn_encAUn 0x122#12 x h) rfl (by
    have h0 : (encAUn 0x122#12 x).opc = 0x122#12 := rfl
    simp only [decGroup, decGroup1, h0, show (BitVec.extractLsb' 8 4 0x122#12).toNat = 0x1 by decide, show (BitVec.extractLsb' 0 8 0x122#12).toNat = 0x22 by decide])
theorem sext (x : AUnZ) : Statement (.sext x) := fun h =>
  roundTrip (f := encAUnZ 0x123#12 x) (g := Instr.sext) rfl rfl (decAUnZ_encAUnZ 0x123#12 x h) rfl (by
    have h0 : (encAUnZ 0x123#12 x).opc = 0x123#12 := rfl
    simp only [decGroup, decGroup1, h0, show (BitVec.extractLsb' 8 4 0x123#12).toNat = 0x1 by decide, show (BitVec.extractLsb' 0 8 0x123#12).toNat = 0x23 by decide])
theorem zext (x : AUnZ) : Statement (.zext x) := fun h =>
  roundTrip (f := encAUnZ 0x124#12 x) (g := Instr.zext) rfl rfl (decAUnZ_encAUnZ 0x124#12 x h) rfl (by
    have h0 : (encAUnZ 0x124#12 x).opc = 0x124#12 := rfl
    simp only [decGroup, decGroup1, h0, show (BitVec.extractLsb' 8 4 0x124#12).toNat = 0x1 by decide, show (BitVec.extractLsb' 0 8 0x124#12).toNat = 0x24 by decide])
theorem movi (x : Movi) : Statement (.movi x) := fun h =>
  roundTrip (f := encMovi 0x125#12 x) (g := Instr.movi) rfl rfl (decMovi_encMovi 0x125#12 x h) rfl (by
    have h0 : (encMovi 0x125#12 x).opc = 0x125#12 := rfl
    simp only [decGroup, decGroup1, h0, show (BitVec.extractLsb' 8 4 0x125#12).toNat = 0x1 by decide, show (BitVec.extractLsb' 0 8 0x125#12).toNat = 0x25 by decide]
    rfl)
theorem moviX (x : MoviX) : Statement (.moviX x) := fun h =>
  roundTrip (f := encMoviX 0x125#12 x) (g := Instr.moviX) rfl rfl (decMoviX_encMoviX 0x125#12 x h) rfl (by
    have h0 : (encMoviX 0x125#12 x).opc = 0x125#12 := rfl
    simp only [decGroup, decGroup1, h0, show (BitVec.extractLsb' 8 4 0x125#12).toNat = 0x1 by decide, show (BitVec.extractLsb' 0 8 0x125#12).toNat = 0x25 by decide]
    rfl)
theorem mov (x : AUn) : Statement (.mov x) := fun h =>
  roundTrip (f := encAUn 0x126#12 x) (g := Instr.mov) rfl rfl (decAUn_encAUn 0x126#12 x h) rfl (by
    have h0 : (encAUn 0x126#12 x).opc = 0x126#12 := rfl
    simp only [decGroup, decGroup1, h0, show (BitVec.extractLsb' 8 4 0x126#12).toNat = 0x1 by decide, show (BitVec.extractLsb' 0 8 0x126#12).toNat = 0x26 by decide])
theorem sel (x : Sel) : Statement (.sel x) := fun h =>
  roundTrip (f := encSel 0x127#12 x) (g := Instr.sel) rfl rfl (decSel_encSel 0x127#12 x h) (Bool.or_true _) (by
    have h0 : (encSel 0x127#12 x).opc = 0x127#12 := rfl
    simp only [decGroup, decGroup1, h0, show (BitVec.extractLsb' 8 4 0x127#12).toNat = 0x1 by decide, show (BitVec.extractLsb' 0 8 0x127#12).toNat = 0x27 by decide])
theorem cmp (x : Cmp) : Statement (.cmp x) := fun h =>
  roundTrip (f := encCmp 0x128#12 x) (g := Instr.cmp) rfl rfl (decCmp_encCmp 0x128#12 x h) rfl (by
    have h0 : (encCmp 0x128#12 x).opc = 0x128#12 := rfl
    simp only [decGroup, decGroup1, h0, show (BitVec.extractLsb' 8 4 0x128#12).toNat = 0x1 by decide, show (BitVec.extractLsb' 0 8 0x128#12).toNat = 0x28 by decide])
theorem cmpi (x : Cmpi) : Statement (.cmpi x) := fun h =>
  roundTrip (f := encCmpi 0x129#12 x) (g := Instr.cmpi) rfl rfl (decCmpi_encCmpi 0x129#12 x h) (Bool.or_true _) (by
    have h0 : (encCmpi 0x129#12 x).opc = 0x129#12 := rfl
    simp only [decGroup, decGroup1, h0, show (BitVec.extractLsb' 8 4 0x129#12).toNat = 0x1 by decide, show (BitVec.extractLsb' 0 8 0x129#12).toNat = 0x29 by decide])
theorem plog (x : Plog) : Statement (.plog x) := fun h =>
  roundTrip (f := encPlog 0x12A#12 x) (g := Instr.plog) rfl rfl (decPlog_encPlog 0x12A#12 x h) rfl (by
    have h0 : (encPlog 0x12A#12 x).opc = 0x12A#12 := rfl
    simp only [decGroup, decGroup1, h0, show (BitVec.extractLsb' 8 4 0x12A#12).toNat = 0x1 by decide, show (BitVec.extractLsb' 0 8 0x12A#12).toNat = 0x2A by decide])
theorem lea (x : Lea) : Statement (.lea x) := fun h =>
  roundTrip (f := encLea 0x12B#12 x) (g := Instr.lea) rfl rfl (decLea_encLea 0x12B#12 x h) (Bool.or_true _) (by
    have h0 : (encLea 0x12B#12 x).opc = 0x12B#12 := rfl
    simp only [decGroup, decGroup1, h0, show (BitVec.extractLsb' 8 4 0x12B#12).toNat = 0x1 by decide, show (BitVec.extractLsb' 0 8 0x12B#12).toNat = 0x2B by decide])
theorem hashs (x : Hashs) : Statement (.hashs x) := fun h =>
  roundTrip (f := encHashs 0x12C#12 x) (g := Instr.hashs) rfl rfl (decHashs_encHashs 0x12C#12 x h) rfl (by
    have h0 : (encHashs 0x12C#12 x).opc = 0x12C#12 := rfl
    simp only [decGroup, decGroup1, h0, show (BitVec.extractLsb' 8 4 0x12C#12).toNat = 0x1 by decide, show (BitVec.extractLsb' 0 8 0x12C#12).toNat = 0x2C by decide])
theorem ldb (x : Load) : Statement (.ldb x) := fun h =>
  roundTrip (f := encLoad 0x200#12 x) (g := Instr.ldb) rfl rfl (decLoad_encLoad 0x200#12 x h) rfl (by
    have h0 : (encLoad 0x200#12 x).opc = 0x200#12 := rfl
    simp only [decGroup, decGroup2, h0, show (BitVec.extractLsb' 8 4 0x200#12).toNat = 0x2 by decide, show (BitVec.extractLsb' 0 8 0x200#12).toNat = 0x00 by decide])
theorem ldh (x : Load) : Statement (.ldh x) := fun h =>
  roundTrip (f := encLoad 0x201#12 x) (g := Instr.ldh) rfl rfl (decLoad_encLoad 0x201#12 x h) rfl (by
    have h0 : (encLoad 0x201#12 x).opc = 0x201#12 := rfl
    simp only [decGroup, decGroup2, h0, show (BitVec.extractLsb' 8 4 0x201#12).toNat = 0x2 by decide, show (BitVec.extractLsb' 0 8 0x201#12).toNat = 0x01 by decide])
theorem ldw (x : Load) : Statement (.ldw x) := fun h =>
  roundTrip (f := encLoad 0x202#12 x) (g := Instr.ldw) rfl rfl (decLoad_encLoad 0x202#12 x h) rfl (by
    have h0 : (encLoad 0x202#12 x).opc = 0x202#12 := rfl
    simp only [decGroup, decGroup2, h0, show (BitVec.extractLsb' 8 4 0x202#12).toNat = 0x2 by decide, show (BitVec.extractLsb' 0 8 0x202#12).toNat = 0x02 by decide])
theorem ldd (x : Load) : Statement (.ldd x) := fun h =>
  roundTrip (f := encLoad 0x203#12 x) (g := Instr.ldd) rfl rfl (decLoad_encLoad 0x203#12 x h) rfl (by
    have h0 : (encLoad 0x203#12 x).opc = 0x203#12 := rfl
    simp only [decGroup, decGroup2, h0, show (BitVec.extractLsb' 8 4 0x203#12).toNat = 0x2 by decide, show (BitVec.extractLsb' 0 8 0x203#12).toNat = 0x03 by decide])
theorem ldbs (x : Load) : Statement (.ldbs x) := fun h =>
  roundTrip (f := encLoad 0x204#12 x) (g := Instr.ldbs) rfl rfl (decLoad_encLoad 0x204#12 x h) rfl (by
    have h0 : (encLoad 0x204#12 x).opc = 0x204#12 := rfl
    simp only [decGroup, decGroup2, h0, show (BitVec.extractLsb' 8 4 0x204#12).toNat = 0x2 by decide, show (BitVec.extractLsb' 0 8 0x204#12).toNat = 0x04 by decide])
theorem ldhs (x : Load) : Statement (.ldhs x) := fun h =>
  roundTrip (f := encLoad 0x205#12 x) (g := Instr.ldhs) rfl rfl (decLoad_encLoad 0x205#12 x h) rfl (by
    have h0 : (encLoad 0x205#12 x).opc = 0x205#12 := rfl
    simp only [decGroup, decGroup2, h0, show (BitVec.extractLsb' 8 4 0x205#12).toNat = 0x2 by decide, show (BitVec.extractLsb' 0 8 0x205#12).toNat = 0x05 by decide])
theorem ldws (x : Load) : Statement (.ldws x) := fun h =>
  roundTrip (f := encLoad 0x206#12 x) (g := Instr.ldws) rfl rfl (decLoad_encLoad 0x206#12 x h) rfl (by
    have h0 : (encLoad 0x206#12 x).opc = 0x206#12 := rfl
    simp only [decGroup, decGroup2, h0, show (BitVec.extractLsb' 8 4 0x206#12).toNat = 0x2 by decide, show (BitVec.extractLsb' 0 8 0x206#12).toNat = 0x06 by decide])
theorem stb (x : Store) : Statement (.stb x) := fun h =>
  roundTrip (f := encStore 0x208#12 x) (g := Instr.stb) rfl rfl (decStore_encStore 0x208#12 x h) rfl (by
    have h0 : (encStore 0x208#12 x).opc = 0x208#12 := rfl
    simp only [decGroup, decGroup2, h0, show (BitVec.extractLsb' 8 4 0x208#12).toNat = 0x2 by decide, show (BitVec.extractLsb' 0 8 0x208#12).toNat = 0x08 by decide])
theorem sth (x : Store) : Statement (.sth x) := fun h =>
  roundTrip (f := encStore 0x209#12 x) (g := Instr.sth) rfl rfl (decStore_encStore 0x209#12 x h) rfl (by
    have h0 : (encStore 0x209#12 x).opc = 0x209#12 := rfl
    simp only [decGroup, decGroup2, h0, show (BitVec.extractLsb' 8 4 0x209#12).toNat = 0x2 by decide, show (BitVec.extractLsb' 0 8 0x209#12).toNat = 0x09 by decide])
theorem stw (x : Store) : Statement (.stw x) := fun h =>
  roundTrip (f := encStore 0x20A#12 x) (g := Instr.stw) rfl rfl (decStore_encStore 0x20A#12 x h) rfl (by
    have h0 : (encStore 0x20A#12 x).opc = 0x20A#12 := rfl
    simp only [decGroup, decGroup2, h0, show (BitVec.extractLsb' 8 4 0x20A#12).toNat = 0x2 by decide, show (BitVec.extractLsb' 0 8 0x20A#12).toNat = 0x0A by decide])
theorem std (x : Store) : Statement (.std x) := fun h =>
  roundTrip (f := encStore 0x20B#12 x) (g := Instr.std) rfl rfl (decStore_encStore 0x20B#12 x h) rfl (by
    have h0 : (encStore 0x20B#12 x).opc = 0x20B#12 := rfl
    simp only [decGroup, decGroup2, h0, show (BitVec.extractLsb' 8 4 0x20B#12).toNat = 0x2 by decide, show (BitVec.extractLsb' 0 8 0x20B#12).toNat = 0x0B by decide])
theorem aadd (x : Atom) : Statement (.aadd x) := fun h =>
  roundTrip (f := encAtom 0x210#12 x) (g := Instr.aadd) rfl rfl (decAtom_encAtom 0x210#12 x h) rfl (by
    have h0 : (encAtom 0x210#12 x).opc = 0x210#12 := rfl
    simp only [decGroup, decGroup2, h0, show (BitVec.extractLsb' 8 4 0x210#12).toNat = 0x2 by decide, show (BitVec.extractLsb' 0 8 0x210#12).toNat = 0x10 by decide])
theorem aand (x : Atom) : Statement (.aand x) := fun h =>
  roundTrip (f := encAtom 0x211#12 x) (g := Instr.aand) rfl rfl (decAtom_encAtom 0x211#12 x h) rfl (by
    have h0 : (encAtom 0x211#12 x).opc = 0x211#12 := rfl
    simp only [decGroup, decGroup2, h0, show (BitVec.extractLsb' 8 4 0x211#12).toNat = 0x2 by decide, show (BitVec.extractLsb' 0 8 0x211#12).toNat = 0x11 by decide])
theorem aor (x : Atom) : Statement (.aor x) := fun h =>
  roundTrip (f := encAtom 0x212#12 x) (g := Instr.aor) rfl rfl (decAtom_encAtom 0x212#12 x h) rfl (by
    have h0 : (encAtom 0x212#12 x).opc = 0x212#12 := rfl
    simp only [decGroup, decGroup2, h0, show (BitVec.extractLsb' 8 4 0x212#12).toNat = 0x2 by decide, show (BitVec.extractLsb' 0 8 0x212#12).toNat = 0x12 by decide])
theorem axor (x : Atom) : Statement (.axor x) := fun h =>
  roundTrip (f := encAtom 0x213#12 x) (g := Instr.axor) rfl rfl (decAtom_encAtom 0x213#12 x h) rfl (by
    have h0 : (encAtom 0x213#12 x).opc = 0x213#12 := rfl
    simp only [decGroup, decGroup2, h0, show (BitVec.extractLsb' 8 4 0x213#12).toNat = 0x2 by decide, show (BitVec.extractLsb' 0 8 0x213#12).toNat = 0x13 by decide])
theorem amin (x : Atom) : Statement (.amin x) := fun h =>
  roundTrip (f := encAtom 0x214#12 x) (g := Instr.amin) rfl rfl (decAtom_encAtom 0x214#12 x h) rfl (by
    have h0 : (encAtom 0x214#12 x).opc = 0x214#12 := rfl
    simp only [decGroup, decGroup2, h0, show (BitVec.extractLsb' 8 4 0x214#12).toNat = 0x2 by decide, show (BitVec.extractLsb' 0 8 0x214#12).toNat = 0x14 by decide])
theorem amax (x : Atom) : Statement (.amax x) := fun h =>
  roundTrip (f := encAtom 0x215#12 x) (g := Instr.amax) rfl rfl (decAtom_encAtom 0x215#12 x h) rfl (by
    have h0 : (encAtom 0x215#12 x).opc = 0x215#12 := rfl
    simp only [decGroup, decGroup2, h0, show (BitVec.extractLsb' 8 4 0x215#12).toNat = 0x2 by decide, show (BitVec.extractLsb' 0 8 0x215#12).toNat = 0x15 by decide])
theorem aswp (x : Atom) : Statement (.aswp x) := fun h =>
  roundTrip (f := encAtom 0x216#12 x) (g := Instr.aswp) rfl rfl (decAtom_encAtom 0x216#12 x h) rfl (by
    have h0 : (encAtom 0x216#12 x).opc = 0x216#12 := rfl
    simp only [decGroup, decGroup2, h0, show (BitVec.extractLsb' 8 4 0x216#12).toNat = 0x2 by decide, show (BitVec.extractLsb' 0 8 0x216#12).toNat = 0x16 by decide])
theorem acas (x : Acas) : Statement (.acas x) := fun h =>
  roundTrip (f := encAcas 0x217#12 x) (g := Instr.acas) rfl rfl (decAcas_encAcas 0x217#12 x h) rfl (by
    have h0 : (encAcas 0x217#12 x).opc = 0x217#12 := rfl
    simp only [decGroup, decGroup2, h0, show (BitVec.extractLsb' 8 4 0x217#12).toNat = 0x2 by decide, show (BitVec.extractLsb' 0 8 0x217#12).toNat = 0x17 by decide])
theorem afadd (x : Afadd) : Statement (.afadd x) := fun h =>
  roundTrip (f := encAfadd 0x218#12 x) (g := Instr.afadd) rfl rfl (decAfadd_encAfadd 0x218#12 x h) rfl (by
    have h0 : (encAfadd 0x218#12 x).opc = 0x218#12 := rfl
    simp only [decGroup, decGroup2, h0, show (BitVec.extractLsb' 8 4 0x218#12).toNat = 0x2 by decide, show (BitVec.extractLsb' 0 8 0x218#12).toNat = 0x18 by decide])
theorem lease (x : Lease) : Statement (.lease x) := fun h =>
  roundTrip (f := encLease 0x220#12 x) (g := Instr.lease) rfl rfl (decLease_encLease 0x220#12 x h) rfl (by
    have h0 : (encLease 0x220#12 x).opc = 0x220#12 := rfl
    simp only [decGroup, decGroup2, h0, show (BitVec.extractLsb' 8 4 0x220#12).toNat = 0x2 by decide, show (BitVec.extractLsb' 0 8 0x220#12).toNat = 0x20 by decide])
theorem unlease (x : Unlease) : Statement (.unlease x) := fun h =>
  roundTrip (f := encUnlease 0x221#12 x) (g := Instr.unlease) rfl rfl (decUnlease_encUnlease 0x221#12 x h) rfl (by
    have h0 : (encUnlease 0x221#12 x).opc = 0x221#12 := rfl
    simp only [decGroup, decGroup2, h0, show (BitVec.extractLsb' 8 4 0x221#12).toNat = 0x2 by decide, show (BitVec.extractLsb' 0 8 0x221#12).toNat = 0x21 by decide])
theorem stlc (x : Stlc) : Statement (.stlc x) := fun h =>
  roundTrip (f := encStlc 0x222#12 x) (g := Instr.stlc) rfl rfl (decStlc_encStlc 0x222#12 x h) rfl (by
    have h0 : (encStlc 0x222#12 x).opc = 0x222#12 := rfl
    simp only [decGroup, decGroup2, h0, show (BitVec.extractLsb' 8 4 0x222#12).toNat = 0x2 by decide, show (BitVec.extractLsb' 0 8 0x222#12).toNat = 0x22 by decide])
theorem cflush (x : Cmaint) : Statement (.cflush x) := fun h =>
  roundTrip (f := encCmaint 0x230#12 x) (g := Instr.cflush) rfl rfl (decCmaint_encCmaint 0x230#12 x h) rfl (by
    have h0 : (encCmaint 0x230#12 x).opc = 0x230#12 := rfl
    simp only [decGroup, decGroup2, h0, show (BitVec.extractLsb' 8 4 0x230#12).toNat = 0x2 by decide, show (BitVec.extractLsb' 0 8 0x230#12).toNat = 0x30 by decide])
theorem cinv (x : Cmaint) : Statement (.cinv x) := fun h =>
  roundTrip (f := encCmaint 0x231#12 x) (g := Instr.cinv) rfl rfl (decCmaint_encCmaint 0x231#12 x h) rfl (by
    have h0 : (encCmaint 0x231#12 x).opc = 0x231#12 := rfl
    simp only [decGroup, decGroup2, h0, show (BitVec.extractLsb' 8 4 0x231#12).toNat = 0x2 by decide, show (BitVec.extractLsb' 0 8 0x231#12).toNat = 0x31 by decide])
theorem cpref (x : Cpref) : Statement (.cpref x) := fun h =>
  roundTrip (f := encCpref 0x232#12 x) (g := Instr.cpref) rfl rfl (decCpref_encCpref 0x232#12 x h) rfl (by
    have h0 : (encCpref 0x232#12 x).opc = 0x232#12 := rfl
    simp only [decGroup, decGroup2, h0, show (BitVec.extractLsb' 8 4 0x232#12).toNat = 0x2 by decide, show (BitVec.extractLsb' 0 8 0x232#12).toNat = 0x32 by decide])
theorem vld (x : Vld) : Statement (.vld x) := fun h =>
  roundTrip (f := encVld 0x300#12 x) (g := Instr.vld) rfl rfl (decVld_encVld 0x300#12 x h) rfl (by
    have h0 : (encVld 0x300#12 x).opc = 0x300#12 := rfl
    simp only [decGroup, decGroup3, h0, show (BitVec.extractLsb' 8 4 0x300#12).toNat = 0x3 by decide, show (BitVec.extractLsb' 0 8 0x300#12).toNat = 0x00 by decide])
theorem vldff (x : Vld) : Statement (.vldff x) := fun h =>
  roundTrip (f := encVld 0x301#12 x) (g := Instr.vldff) rfl rfl (decVld_encVld 0x301#12 x h) rfl (by
    have h0 : (encVld 0x301#12 x).opc = 0x301#12 := rfl
    simp only [decGroup, decGroup3, h0, show (BitVec.extractLsb' 8 4 0x301#12).toNat = 0x3 by decide, show (BitVec.extractLsb' 0 8 0x301#12).toNat = 0x01 by decide])
theorem vldx (x : Vldx) : Statement (.vldx x) := fun h =>
  roundTrip (f := encVldx 0x302#12 x) (g := Instr.vldx) rfl rfl (decVldx_encVldx 0x302#12 x h) rfl (by
    have h0 : (encVldx 0x302#12 x).opc = 0x302#12 := rfl
    simp only [decGroup, decGroup3, h0, show (BitVec.extractLsb' 8 4 0x302#12).toNat = 0x3 by decide, show (BitVec.extractLsb' 0 8 0x302#12).toNat = 0x02 by decide])
theorem vldsc (x : Vlds) : Statement (.vldsc x) := fun h =>
  roundTrip (f := encVlds 0x303#12 x) (g := Instr.vldsc) rfl rfl (decVlds_encVlds 0x303#12 x h) rfl (by
    have h0 : (encVlds 0x303#12 x).opc = 0x303#12 := rfl
    simp only [decGroup, decGroup3, h0, show (BitVec.extractLsb' 8 4 0x303#12).toNat = 0x3 by decide, show (BitVec.extractLsb' 0 8 0x303#12).toNat = 0x03 by decide])
theorem vst (x : Vst) : Statement (.vst x) := fun h =>
  roundTrip (f := encVst 0x308#12 x) (g := Instr.vst) rfl rfl (decVst_encVst 0x308#12 x h) rfl (by
    have h0 : (encVst 0x308#12 x).opc = 0x308#12 := rfl
    simp only [decGroup, decGroup3, h0, show (BitVec.extractLsb' 8 4 0x308#12).toNat = 0x3 by decide, show (BitVec.extractLsb' 0 8 0x308#12).toNat = 0x08 by decide])
theorem vstx (x : Vstx) : Statement (.vstx x) := fun h =>
  roundTrip (f := encVstx 0x309#12 x) (g := Instr.vstx) rfl rfl (decVstx_encVstx 0x309#12 x h) rfl (by
    have h0 : (encVstx 0x309#12 x).opc = 0x309#12 := rfl
    simp only [decGroup, decGroup3, h0, show (BitVec.extractLsb' 8 4 0x309#12).toNat = 0x3 by decide, show (BitVec.extractLsb' 0 8 0x309#12).toNat = 0x09 by decide])
theorem vstsc (x : Vsts) : Statement (.vstsc x) := fun h =>
  roundTrip (f := encVsts 0x30A#12 x) (g := Instr.vstsc) rfl rfl (decVsts_encVsts 0x30A#12 x h) rfl (by
    have h0 : (encVsts 0x30A#12 x).opc = 0x30A#12 := rfl
    simp only [decGroup, decGroup3, h0, show (BitVec.extractLsb' 8 4 0x30A#12).toNat = 0x3 by decide, show (BitVec.extractLsb' 0 8 0x30A#12).toNat = 0x0A by decide])
theorem vlds (x : Vlds) : Statement (.vlds x) := fun h =>
  roundTrip (f := encVlds 0x310#12 x) (g := Instr.vlds) rfl rfl (decVlds_encVlds 0x310#12 x h) rfl (by
    have h0 : (encVlds 0x310#12 x).opc = 0x310#12 := rfl
    simp only [decGroup, decGroup3, h0, show (BitVec.extractLsb' 8 4 0x310#12).toNat = 0x3 by decide, show (BitVec.extractLsb' 0 8 0x310#12).toNat = 0x10 by decide])
theorem vsts (x : Vsts) : Statement (.vsts x) := fun h =>
  roundTrip (f := encVsts 0x311#12 x) (g := Instr.vsts) rfl rfl (decVsts_encVsts 0x311#12 x h) rfl (by
    have h0 : (encVsts 0x311#12 x).opc = 0x311#12 := rfl
    simp only [decGroup, decGroup3, h0, show (BitVec.extractLsb' 8 4 0x311#12).toNat = 0x3 by decide, show (BitVec.extractLsb' 0 8 0x311#12).toNat = 0x11 by decide])
theorem vldsx (x : Vldsx) : Statement (.vldsx x) := fun h =>
  roundTrip (f := encVldsx 0x312#12 x) (g := Instr.vldsx) rfl rfl (decVldsx_encVldsx 0x312#12 x h) rfl (by
    have h0 : (encVldsx 0x312#12 x).opc = 0x312#12 := rfl
    simp only [decGroup, decGroup3, h0, show (BitVec.extractLsb' 8 4 0x312#12).toNat = 0x3 by decide, show (BitVec.extractLsb' 0 8 0x312#12).toNat = 0x12 by decide])
theorem vstsx (x : Vstsx) : Statement (.vstsx x) := fun h =>
  roundTrip (f := encVstsx 0x313#12 x) (g := Instr.vstsx) rfl rfl (decVstsx_encVstsx 0x313#12 x h) rfl (by
    have h0 : (encVstsx 0x313#12 x).opc = 0x313#12 := rfl
    simp only [decGroup, decGroup3, h0, show (BitVec.extractLsb' 8 4 0x313#12).toNat = 0x3 by decide, show (BitVec.extractLsb' 0 8 0x313#12).toNat = 0x13 by decide])
theorem vamo (x : Vamo) : Statement (.vamo x) := fun h =>
  roundTrip (f := encVamo 0x318#12 x) (g := Instr.vamo) rfl rfl (decVamo_encVamo 0x318#12 x h) rfl (by
    have h0 : (encVamo 0x318#12 x).opc = 0x318#12 := rfl
    simp only [decGroup, decGroup3, h0, show (BitVec.extractLsb' 8 4 0x318#12).toNat = 0x3 by decide, show (BitVec.extractLsb' 0 8 0x318#12).toNat = 0x18 by decide])
theorem popx (x : Popx) : Statement (.popx x) := fun h =>
  roundTrip (f := encPopx 0x320#12 x) (g := Instr.popx) rfl rfl (decPopx_encPopx 0x320#12 x h) rfl (by
    have h0 : (encPopx 0x320#12 x).opc = 0x320#12 := rfl
    simp only [decGroup, decGroup3, h0, show (BitVec.extractLsb' 8 4 0x320#12).toNat = 0x3 by decide, show (BitVec.extractLsb' 0 8 0x320#12).toNat = 0x20 by decide])
theorem qdrop (x : Qdrop) : Statement (.qdrop x) := fun h =>
  roundTrip (f := encQdrop 0x322#12 x) (g := Instr.qdrop) rfl rfl (decQdrop_encQdrop 0x322#12 x h) rfl (by
    have h0 : (encQdrop 0x322#12 x).opc = 0x322#12 := rfl
    simp only [decGroup, decGroup3, h0, show (BitVec.extractLsb' 8 4 0x322#12).toNat = 0x3 by decide, show (BitVec.extractLsb' 0 8 0x322#12).toNat = 0x22 by decide])
theorem pcopy (x : Pcopy) : Statement (.pcopy x) := fun h =>
  roundTrip (f := encPcopy 0x400#12 x) (g := Instr.pcopy) rfl rfl (decPcopy_encPcopy 0x400#12 x h) rfl (by
    have h0 : (encPcopy 0x400#12 x).opc = 0x400#12 := rfl
    simp only [decGroup, decGroup4, h0, show (BitVec.extractLsb' 8 4 0x400#12).toNat = 0x4 by decide, show (BitVec.extractLsb' 0 8 0x400#12).toNat = 0x00 by decide])
theorem pdec (x : Pdec) : Statement (.pdec x) := fun h =>
  roundTrip (f := encPdec 0x401#12 x) (g := Instr.pdec) rfl rfl (decPdec_encPdec 0x401#12 x h) rfl (by
    have h0 : (encPdec 0x401#12 x).opc = 0x401#12 := rfl
    simp only [decGroup, decGroup4, h0, show (BitVec.extractLsb' 8 4 0x401#12).toNat = 0x4 by decide, show (BitVec.extractLsb' 0 8 0x401#12).toNat = 0x01 by decide])
theorem pfill (x : Pfill) : Statement (.pfill x) := fun h =>
  roundTrip (f := encPfill 0x403#12 x) (g := Instr.pfill) rfl rfl (decPfill_encPfill 0x403#12 x h) rfl (by
    have h0 : (encPfill 0x403#12 x).opc = 0x403#12 := rfl
    simp only [decGroup, decGroup4, h0, show (BitVec.extractLsb' 8 4 0x403#12).toNat = 0x4 by decide, show (BitVec.extractLsb' 0 8 0x403#12).toNat = 0x03 by decide])
theorem twaitany (x : Tmask2) : Statement (.twaitany x) := fun h =>
  roundTrip (f := encTmask2 0x408#12 x) (g := Instr.twaitany) rfl rfl (decTmask2_encTmask2 0x408#12 x h) rfl (by
    have h0 : (encTmask2 0x408#12 x).opc = 0x408#12 := rfl
    simp only [decGroup, decGroup4, h0, show (BitVec.extractLsb' 8 4 0x408#12).toNat = 0x4 by decide, show (BitVec.extractLsb' 0 8 0x408#12).toNat = 0x08 by decide])
theorem twaitall (x : Tmask) : Statement (.twaitall x) := fun h =>
  roundTrip (f := encTmask 0x409#12 x) (g := Instr.twaitall) rfl rfl (decTmask_encTmask 0x409#12 x h) rfl (by
    have h0 : (encTmask 0x409#12 x).opc = 0x409#12 := rfl
    simp only [decGroup, decGroup4, h0, show (BitVec.extractLsb' 8 4 0x409#12).toNat = 0x4 by decide, show (BitVec.extractLsb' 0 8 0x409#12).toNat = 0x09 by decide])
theorem tfind (x : Tfind) : Statement (.tfind x) := fun h =>
  roundTrip (f := encTfind 0x40A#12 x) (g := Instr.tfind) rfl rfl (decTfind_encTfind 0x40A#12 x h) rfl (by
    have h0 : (encTfind 0x40A#12 x).opc = 0x40A#12 := rfl
    simp only [decGroup, decGroup4, h0, show (BitVec.extractLsb' 8 4 0x40A#12).toNat = 0x4 by decide, show (BitVec.extractLsb' 0 8 0x40A#12).toNat = 0x0A by decide])
theorem tclr (x : Tmask) : Statement (.tclr x) := fun h =>
  roundTrip (f := encTmask 0x40B#12 x) (g := Instr.tclr) rfl rfl (decTmask_encTmask 0x40B#12 x h) rfl (by
    have h0 : (encTmask 0x40B#12 x).opc = 0x40B#12 := rfl
    simp only [decGroup, decGroup4, h0, show (BitVec.extractLsb' 8 4 0x40B#12).toNat = 0x4 by decide, show (BitVec.extractLsb' 0 8 0x40B#12).toNat = 0x0B by decide])
theorem nbadd (x : Nbadd) : Statement (.nbadd x) := fun h =>
  roundTrip (f := encNbadd 0x410#12 x) (g := Instr.nbadd) rfl rfl (decNbadd_encNbadd 0x410#12 x h) rfl (by
    have h0 : (encNbadd 0x410#12 x).opc = 0x410#12 := rfl
    simp only [decGroup, decGroup4, h0, show (BitVec.extractLsb' 8 4 0x410#12).toNat = 0x4 by decide, show (BitVec.extractLsb' 0 8 0x410#12).toNat = 0x10 by decide])
theorem nbopt (x : Nbopt) : Statement (.nbopt x) := fun h =>
  roundTrip (f := encNbopt 0x411#12 x) (g := Instr.nbopt) rfl rfl (decNbopt_encNbopt 0x411#12 x h) rfl (by
    have h0 : (encNbopt 0x411#12 x).opc = 0x411#12 := rfl
    simp only [decGroup, decGroup4, h0, show (BitVec.extractLsb' 8 4 0x411#12).toNat = 0x4 by decide, show (BitVec.extractLsb' 0 8 0x411#12).toNat = 0x11 by decide])
theorem nbfence (x : Bare) : Statement (.nbfence x) := fun h =>
  roundTrip (f := encBare 0x412#12 x) (g := Instr.nbfence) rfl rfl (decBare_encBare 0x412#12 x h) rfl (by
    have h0 : (encBare 0x412#12 x).opc = 0x412#12 := rfl
    simp only [decGroup, decGroup4, h0, show (BitVec.extractLsb' 8 4 0x412#12).toNat = 0x4 by decide, show (BitVec.extractLsb' 0 8 0x412#12).toNat = 0x12 by decide])
theorem sfpool (x : Sfpool) : Statement (.sfpool x) := fun h =>
  roundTrip (f := encSfpool 0x418#12 x) (g := Instr.sfpool) rfl rfl (decSfpool_encSfpool 0x418#12 x h) rfl (by
    have h0 : (encSfpool 0x418#12 x).opc = 0x418#12 := rfl
    simp only [decGroup, decGroup4, h0, show (BitVec.extractLsb' 8 4 0x418#12).toNat = 0x4 by decide, show (BitVec.extractLsb' 0 8 0x418#12).toNat = 0x18 by decide])
theorem rhopen (x : Rhopen) : Statement (.rhopen x) := fun h =>
  roundTrip (f := encRhopen 0x420#12 x) (g := Instr.rhopen) rfl rfl (decRhopen_encRhopen 0x420#12 x h) rfl (by
    have h0 : (encRhopen 0x420#12 x).opc = 0x420#12 := rfl
    simp only [decGroup, decGroup4, h0, show (BitVec.extractLsb' 8 4 0x420#12).toNat = 0x4 by decide, show (BitVec.extractLsb' 0 8 0x420#12).toNat = 0x20 by decide])
theorem rhprio (x : Rhprio) : Statement (.rhprio x) := fun h =>
  roundTrip (f := encRhprio 0x421#12 x) (g := Instr.rhprio) rfl rfl (decRhprio_encRhprio 0x421#12 x h) rfl (by
    have h0 : (encRhprio 0x421#12 x).opc = 0x421#12 := rfl
    simp only [decGroup, decGroup4, h0, show (BitVec.extractLsb' 8 4 0x421#12).toNat = 0x4 by decide, show (BitVec.extractLsb' 0 8 0x421#12).toNat = 0x21 by decide])
theorem rhevict (x : Rhbit) : Statement (.rhevict x) := fun h =>
  roundTrip (f := encRhbit 0x422#12 x) (g := Instr.rhevict) rfl rfl (decRhbit_encRhbit 0x422#12 x h) rfl (by
    have h0 : (encRhbit 0x422#12 x).opc = 0x422#12 := rfl
    simp only [decGroup, decGroup4, h0, show (BitVec.extractLsb' 8 4 0x422#12).toNat = 0x4 by decide, show (BitVec.extractLsb' 0 8 0x422#12).toNat = 0x22 by decide])
theorem rhclose (x : Rhbit) : Statement (.rhclose x) := fun h =>
  roundTrip (f := encRhbit 0x423#12 x) (g := Instr.rhclose) rfl rfl (decRhbit_encRhbit 0x423#12 x h) rfl (by
    have h0 : (encRhbit 0x423#12 x).opc = 0x423#12 := rfl
    simp only [decGroup, decGroup4, h0, show (BitVec.extractLsb' 8 4 0x423#12).toNat = 0x4 by decide, show (BitVec.extractLsb' 0 8 0x423#12).toNat = 0x23 by decide])
theorem gong (x : Gong) : Statement (.gong x) := fun h =>
  roundTrip (f := encGong 0x500#12 x) (g := Instr.gong) rfl rfl (decGong_encGong 0x500#12 x h) rfl (by
    have h0 : (encGong 0x500#12 x).opc = 0x500#12 := rfl
    simp only [decGroup, decGroup5, h0, show (BitVec.extractLsb' 8 4 0x500#12).toNat = 0x5 by decide, show (BitVec.extractLsb' 0 8 0x500#12).toNat = 0x00 by decide])
theorem post (x : Post) : Statement (.post x) := fun h =>
  roundTrip (f := encPost 0x501#12 x) (g := Instr.post) rfl rfl (decPost_encPost 0x501#12 x h) rfl (by
    have h0 : (encPost 0x501#12 x).opc = 0x501#12 := rfl
    simp only [decGroup, decGroup5, h0, show (BitVec.extractLsb' 8 4 0x501#12).toNat = 0x5 by decide, show (BitVec.extractLsb' 0 8 0x501#12).toNat = 0x01 by decide])
theorem waiti (x : Post) : Statement (.waiti x) := fun h =>
  roundTrip (f := encPost 0x502#12 x) (g := Instr.waiti) rfl rfl (decPost_encPost 0x502#12 x h) rfl (by
    have h0 : (encPost 0x502#12 x).opc = 0x502#12 := rfl
    simp only [decGroup, decGroup5, h0, show (BitVec.extractLsb' 8 4 0x502#12).toNat = 0x5 by decide, show (BitVec.extractLsb' 0 8 0x502#12).toNat = 0x02 by decide])
theorem qnotify (x : Qnotify) : Statement (.qnotify x) := fun h =>
  roundTrip (f := encQnotify 0x518#12 x) (g := Instr.qnotify) rfl rfl (decQnotify_encQnotify 0x518#12 x h) rfl (by
    have h0 : (encQnotify 0x518#12 x).opc = 0x518#12 := rfl
    simp only [decGroup, decGroup5, h0, show (BitVec.extractLsb' 8 4 0x518#12).toNat = 0x5 by decide, show (BitVec.extractLsb' 0 8 0x518#12).toNat = 0x18 by decide])
theorem acset (x : Acset) : Statement (.acset x) := fun h =>
  roundTrip (f := encAcset 0x508#12 x) (g := Instr.acset) rfl rfl (decAcset_encAcset 0x508#12 x h) rfl (by
    have h0 : (encAcset 0x508#12 x).opc = 0x508#12 := rfl
    simp only [decGroup, decGroup5, h0, show (BitVec.extractLsb' 8 4 0x508#12).toNat = 0x5 by decide, show (BitVec.extractLsb' 0 8 0x508#12).toNat = 0x08 by decide])
theorem acwait (x : Acwait) : Statement (.acwait x) := fun h =>
  roundTrip (f := encAcwait 0x509#12 x) (g := Instr.acwait) rfl rfl (decAcwait_encAcwait 0x509#12 x h) rfl (by
    have h0 : (encAcwait 0x509#12 x).opc = 0x509#12 := rfl
    simp only [decGroup, decGroup5, h0, show (BitVec.extractLsb' 8 4 0x509#12).toNat = 0x5 by decide, show (BitVec.extractLsb' 0 8 0x509#12).toNat = 0x09 by decide])
theorem clred (x : Clred) : Statement (.clred x) := fun h =>
  roundTrip (f := encClred 0x510#12 x) (g := Instr.clred) rfl rfl (decClred_encClred 0x510#12 x h) rfl (by
    have h0 : (encClred 0x510#12 x).opc = 0x510#12 := rfl
    simp only [decGroup, decGroup5, h0, show (BitVec.extractLsb' 8 4 0x510#12).toNat = 0x5 by decide, show (BitVec.extractLsb' 0 8 0x510#12).toNat = 0x10 by decide])
theorem vadd (x : WBin) : Statement (.vadd x) := fun h =>
  roundTrip (f := encWBin 0x600#12 x) (g := Instr.vadd) rfl rfl (decWBin_encWBin 0x600#12 x h) rfl (by
    have h0 : (encWBin 0x600#12 x).opc = 0x600#12 := rfl
    simp only [decGroup, decGroup6, h0, show (BitVec.extractLsb' 8 4 0x600#12).toNat = 0x6 by decide, show (BitVec.extractLsb' 0 8 0x600#12).toNat = 0x00 by decide])
theorem vsub (x : WImm) : Statement (.vsub x) := fun h =>
  roundTrip (f := encWImm 0x601#12 x) (g := Instr.vsub) rfl rfl (decWImm_encWImm 0x601#12 x h) rfl (by
    have h0 : (encWImm 0x601#12 x).opc = 0x601#12 := rfl
    simp only [decGroup, decGroup6, h0, show (BitVec.extractLsb' 8 4 0x601#12).toNat = 0x6 by decide, show (BitVec.extractLsb' 0 8 0x601#12).toNat = 0x01 by decide])
theorem vmul (x : WBin) : Statement (.vmul x) := fun h =>
  roundTrip (f := encWBin 0x602#12 x) (g := Instr.vmul) rfl rfl (decWBin_encWBin 0x602#12 x h) rfl (by
    have h0 : (encWBin 0x602#12 x).opc = 0x602#12 := rfl
    simp only [decGroup, decGroup6, h0, show (BitVec.extractLsb' 8 4 0x602#12).toNat = 0x6 by decide, show (BitVec.extractLsb' 0 8 0x602#12).toNat = 0x02 by decide])
theorem vmulh (x : WImm) : Statement (.vmulh x) := fun h =>
  roundTrip (f := encWImm 0x603#12 x) (g := Instr.vmulh) rfl rfl (decWImm_encWImm 0x603#12 x h) rfl (by
    have h0 : (encWImm 0x603#12 x).opc = 0x603#12 := rfl
    simp only [decGroup, decGroup6, h0, show (BitVec.extractLsb' 8 4 0x603#12).toNat = 0x6 by decide, show (BitVec.extractLsb' 0 8 0x603#12).toNat = 0x03 by decide])
theorem vmac (x : Vmac) : Statement (.vmac x) := fun h =>
  roundTrip (f := encVmac 0x604#12 x) (g := Instr.vmac) rfl rfl (decVmac_encVmac 0x604#12 x h) rfl (by
    have h0 : (encVmac 0x604#12 x).opc = 0x604#12 := rfl
    simp only [decGroup, decGroup6, h0, show (BitVec.extractLsb' 8 4 0x604#12).toNat = 0x6 by decide, show (BitVec.extractLsb' 0 8 0x604#12).toNat = 0x04 by decide])
theorem vdot2 (x : Vdot2) : Statement (.vdot2 x) := fun h =>
  roundTrip (f := encVdot2 0x605#12 x) (g := Instr.vdot2) rfl rfl (decVdot2_encVdot2 0x605#12 x h) rfl (by
    have h0 : (encVdot2 0x605#12 x).opc = 0x605#12 := rfl
    simp only [decGroup, decGroup6, h0, show (BitVec.extractLsb' 8 4 0x605#12).toNat = 0x6 by decide, show (BitVec.extractLsb' 0 8 0x605#12).toNat = 0x05 by decide])
theorem vabs (x : WUn) : Statement (.vabs x) := fun h =>
  roundTrip (f := encWUn 0x606#12 x) (g := Instr.vabs) rfl rfl (decWUn_encWUn 0x606#12 x h) rfl (by
    have h0 : (encWUn 0x606#12 x).opc = 0x606#12 := rfl
    simp only [decGroup, decGroup6, h0, show (BitVec.extractLsb' 8 4 0x606#12).toNat = 0x6 by decide, show (BitVec.extractLsb' 0 8 0x606#12).toNat = 0x06 by decide])
theorem vneg (x : WUn) : Statement (.vneg x) := fun h =>
  roundTrip (f := encWUn 0x607#12 x) (g := Instr.vneg) rfl rfl (decWUn_encWUn 0x607#12 x h) rfl (by
    have h0 : (encWUn 0x607#12 x).opc = 0x607#12 := rfl
    simp only [decGroup, decGroup6, h0, show (BitVec.extractLsb' 8 4 0x607#12).toNat = 0x6 by decide, show (BitVec.extractLsb' 0 8 0x607#12).toNat = 0x07 by decide])
theorem vmin (x : WBin) : Statement (.vmin x) := fun h =>
  roundTrip (f := encWBin 0x608#12 x) (g := Instr.vmin) rfl rfl (decWBin_encWBin 0x608#12 x h) rfl (by
    have h0 : (encWBin 0x608#12 x).opc = 0x608#12 := rfl
    simp only [decGroup, decGroup6, h0, show (BitVec.extractLsb' 8 4 0x608#12).toNat = 0x6 by decide, show (BitVec.extractLsb' 0 8 0x608#12).toNat = 0x08 by decide])
theorem vmax (x : WImm) : Statement (.vmax x) := fun h =>
  roundTrip (f := encWImm 0x609#12 x) (g := Instr.vmax) rfl rfl (decWImm_encWImm 0x609#12 x h) rfl (by
    have h0 : (encWImm 0x609#12 x).opc = 0x609#12 := rfl
    simp only [decGroup, decGroup6, h0, show (BitVec.extractLsb' 8 4 0x609#12).toNat = 0x6 by decide, show (BitVec.extractLsb' 0 8 0x609#12).toNat = 0x09 by decide])
theorem vand (x : WBin) : Statement (.vand x) := fun h =>
  roundTrip (f := encWBin 0x60A#12 x) (g := Instr.vand) rfl rfl (decWBin_encWBin 0x60A#12 x h) rfl (by
    have h0 : (encWBin 0x60A#12 x).opc = 0x60A#12 := rfl
    simp only [decGroup, decGroup6, h0, show (BitVec.extractLsb' 8 4 0x60A#12).toNat = 0x6 by decide, show (BitVec.extractLsb' 0 8 0x60A#12).toNat = 0x0A by decide])
theorem vor (x : WImm) : Statement (.vor x) := fun h =>
  roundTrip (f := encWImm 0x60B#12 x) (g := Instr.vor) rfl rfl (decWImm_encWImm 0x60B#12 x h) rfl (by
    have h0 : (encWImm 0x60B#12 x).opc = 0x60B#12 := rfl
    simp only [decGroup, decGroup6, h0, show (BitVec.extractLsb' 8 4 0x60B#12).toNat = 0x6 by decide, show (BitVec.extractLsb' 0 8 0x60B#12).toNat = 0x0B by decide])
theorem vxor (x : WBin) : Statement (.vxor x) := fun h =>
  roundTrip (f := encWBin 0x60C#12 x) (g := Instr.vxor) rfl rfl (decWBin_encWBin 0x60C#12 x h) rfl (by
    have h0 : (encWBin 0x60C#12 x).opc = 0x60C#12 := rfl
    simp only [decGroup, decGroup6, h0, show (BitVec.extractLsb' 8 4 0x60C#12).toNat = 0x6 by decide, show (BitVec.extractLsb' 0 8 0x60C#12).toNat = 0x0C by decide])
theorem vnot (x : WUn) : Statement (.vnot x) := fun h =>
  roundTrip (f := encWUn 0x60D#12 x) (g := Instr.vnot) rfl rfl (decWUn_encWUn 0x60D#12 x h) rfl (by
    have h0 : (encWUn 0x60D#12 x).opc = 0x60D#12 := rfl
    simp only [decGroup, decGroup6, h0, show (BitVec.extractLsb' 8 4 0x60D#12).toNat = 0x6 by decide, show (BitVec.extractLsb' 0 8 0x60D#12).toNat = 0x0D by decide])
theorem vshl (x : WBin) : Statement (.vshl x) := fun h =>
  roundTrip (f := encWBin 0x60E#12 x) (g := Instr.vshl) rfl rfl (decWBin_encWBin 0x60E#12 x h) rfl (by
    have h0 : (encWBin 0x60E#12 x).opc = 0x60E#12 := rfl
    simp only [decGroup, decGroup6, h0, show (BitVec.extractLsb' 8 4 0x60E#12).toNat = 0x6 by decide, show (BitVec.extractLsb' 0 8 0x60E#12).toNat = 0x0E by decide])
theorem vshr (x : WImm) : Statement (.vshr x) := fun h =>
  roundTrip (f := encWImm 0x60F#12 x) (g := Instr.vshr) rfl rfl (decWImm_encWImm 0x60F#12 x h) rfl (by
    have h0 : (encWImm 0x60F#12 x).opc = 0x60F#12 := rfl
    simp only [decGroup, decGroup6, h0, show (BitVec.extractLsb' 8 4 0x60F#12).toNat = 0x6 by decide, show (BitVec.extractLsb' 0 8 0x60F#12).toNat = 0x0F by decide])
theorem vsra (x : WBin) : Statement (.vsra x) := fun h =>
  roundTrip (f := encWBin 0x610#12 x) (g := Instr.vsra) rfl rfl (decWBin_encWBin 0x610#12 x h) rfl (by
    have h0 : (encWBin 0x610#12 x).opc = 0x610#12 := rfl
    simp only [decGroup, decGroup6, h0, show (BitVec.extractLsb' 8 4 0x610#12).toNat = 0x6 by decide, show (BitVec.extractLsb' 0 8 0x610#12).toNat = 0x10 by decide])
theorem vsrar (x : Vsrar) : Statement (.vsrar x) := fun h =>
  roundTrip (f := encVsrar 0x611#12 x) (g := Instr.vsrar) rfl rfl (decVsrar_encVsrar 0x611#12 x h) rfl (by
    have h0 : (encVsrar 0x611#12 x).opc = 0x611#12 := rfl
    simp only [decGroup, decGroup6, h0, show (BitVec.extractLsb' 8 4 0x611#12).toNat = 0x6 by decide, show (BitVec.extractLsb' 0 8 0x611#12).toNat = 0x11 by decide])
theorem vclz (x : WUn) : Statement (.vclz x) := fun h =>
  roundTrip (f := encWUn 0x612#12 x) (g := Instr.vclz) rfl rfl (decWUn_encWUn 0x612#12 x h) rfl (by
    have h0 : (encWUn 0x612#12 x).opc = 0x612#12 := rfl
    simp only [decGroup, decGroup6, h0, show (BitVec.extractLsb' 8 4 0x612#12).toNat = 0x6 by decide, show (BitVec.extractLsb' 0 8 0x612#12).toNat = 0x12 by decide])
theorem vpopc (x : WUn) : Statement (.vpopc x) := fun h =>
  roundTrip (f := encWUn 0x613#12 x) (g := Instr.vpopc) rfl rfl (decWUn_encWUn 0x613#12 x h) rfl (by
    have h0 : (encWUn 0x613#12 x).opc = 0x613#12 := rfl
    simp only [decGroup, decGroup6, h0, show (BitVec.extractLsb' 8 4 0x613#12).toNat = 0x6 by decide, show (BitVec.extractLsb' 0 8 0x613#12).toNat = 0x13 by decide])
theorem vsel (x : Vsel) : Statement (.vsel x) := fun h =>
  roundTrip (f := encVsel 0x614#12 x) (g := Instr.vsel) rfl rfl (decVsel_encVsel 0x614#12 x h) rfl (by
    have h0 : (encVsel 0x614#12 x).opc = 0x614#12 := rfl
    simp only [decGroup, decGroup6, h0, show (BitVec.extractLsb' 8 4 0x614#12).toNat = 0x6 by decide, show (BitVec.extractLsb' 0 8 0x614#12).toNat = 0x14 by decide])
theorem vmov (x : WUn) : Statement (.vmov x) := fun h =>
  roundTrip (f := encWUn 0x615#12 x) (g := Instr.vmov) rfl rfl (decWUn_encWUn 0x615#12 x h) rfl (by
    have h0 : (encWUn 0x615#12 x).opc = 0x615#12 := rfl
    simp only [decGroup, decGroup6, h0, show (BitVec.extractLsb' 8 4 0x615#12).toNat = 0x6 by decide, show (BitVec.extractLsb' 0 8 0x615#12).toNat = 0x15 by decide])
theorem vsplat (x : WSca) : Statement (.vsplat x) := fun h =>
  roundTrip (f := encWSca 0x616#12 x) (g := Instr.vsplat) rfl rfl (decWSca_encWSca 0x616#12 x h) rfl (by
    have h0 : (encWSca 0x616#12 x).opc = 0x616#12 := rfl
    simp only [decGroup, decGroup6, h0, show (BitVec.extractLsb' 8 4 0x616#12).toNat = 0x6 by decide, show (BitVec.extractLsb' 0 8 0x616#12).toNat = 0x16 by decide]
    rfl)
theorem vsplatX (x : VsplatX) : Statement (.vsplatX x) := fun h =>
  roundTrip (f := encVsplatX 0x616#12 x) (g := Instr.vsplatX) rfl rfl (decVsplatX_encVsplatX 0x616#12 x h) rfl (by
    have h0 : (encVsplatX 0x616#12 x).opc = 0x616#12 := rfl
    simp only [decGroup, decGroup6, h0, show (BitVec.extractLsb' 8 4 0x616#12).toNat = 0x6 by decide, show (BitVec.extractLsb' 0 8 0x616#12).toNat = 0x16 by decide]
    rfl)
theorem viota (x : Viota) : Statement (.viota x) := fun h =>
  roundTrip (f := encViota 0x617#12 x) (g := Instr.viota) rfl rfl (decViota_encViota 0x617#12 x h) rfl (by
    have h0 : (encViota 0x617#12 x).opc = 0x617#12 := rfl
    simp only [decGroup, decGroup6, h0, show (BitVec.extractLsb' 8 4 0x617#12).toNat = 0x6 by decide, show (BitVec.extractLsb' 0 8 0x617#12).toNat = 0x17 by decide])
theorem vadds (x : FBin) : Statement (.vadds x) := fun h =>
  roundTrip (f := encFBin 0x618#12 x) (g := Instr.vadds) rfl rfl (decFBin_encFBin 0x618#12 x h) rfl (by
    have h0 : (encFBin 0x618#12 x).opc = 0x618#12 := rfl
    simp only [decGroup, decGroup6, h0, show (BitVec.extractLsb' 8 4 0x618#12).toNat = 0x6 by decide, show (BitVec.extractLsb' 0 8 0x618#12).toNat = 0x18 by decide])
theorem vsubs (x : FImm) : Statement (.vsubs x) := fun h =>
  roundTrip (f := encFImm 0x619#12 x) (g := Instr.vsubs) rfl rfl (decFImm_encFImm 0x619#12 x h) rfl (by
    have h0 : (encFImm 0x619#12 x).opc = 0x619#12 := rfl
    simp only [decGroup, decGroup6, h0, show (BitVec.extractLsb' 8 4 0x619#12).toNat = 0x6 by decide, show (BitVec.extractLsb' 0 8 0x619#12).toNat = 0x19 by decide])
theorem vrmovf (x : WSca) : Statement (.vrmovf x) := fun h =>
  roundTrip (f := encWSca 0x61A#12 x) (g := Instr.vrmovf) rfl rfl (decWSca_encWSca 0x61A#12 x h) rfl (by
    have h0 : (encWSca 0x61A#12 x).opc = 0x61A#12 := rfl
    simp only [decGroup, decGroup6, h0, show (BitVec.extractLsb' 8 4 0x61A#12).toNat = 0x6 by decide, show (BitVec.extractLsb' 0 8 0x61A#12).toNat = 0x1A by decide])
theorem vrmovt (x : Vrmovt) : Statement (.vrmovt x) := fun h =>
  roundTrip (f := encVrmovt 0x61B#12 x) (g := Instr.vrmovt) rfl rfl (decVrmovt_encVrmovt 0x61B#12 x h) rfl (by
    have h0 : (encVrmovt 0x61B#12 x).opc = 0x61B#12 := rfl
    simp only [decGroup, decGroup6, h0, show (BitVec.extractLsb' 8 4 0x61B#12).toNat = 0x6 by decide, show (BitVec.extractLsb' 0 8 0x61B#12).toNat = 0x1B by decide])
theorem vcmp (x : Vcmp) : Statement (.vcmp x) := fun h =>
  roundTrip (f := encVcmp 0x700#12 x) (g := Instr.vcmp) rfl rfl (decVcmp_encVcmp 0x700#12 x h) rfl (by
    have h0 : (encVcmp 0x700#12 x).opc = 0x700#12 := rfl
    simp only [decGroup, decGroup7, h0, show (BitVec.extractLsb' 8 4 0x700#12).toNat = 0x7 by decide, show (BitVec.extractLsb' 0 8 0x700#12).toNat = 0x00 by decide])
theorem vlbc (x : Vlbc) : Statement (.vlbc x) := fun h =>
  roundTrip (f := encVlbc 0x701#12 x) (g := Instr.vlbc) rfl rfl (decVlbc_encVlbc 0x701#12 x h) rfl (by
    have h0 : (encVlbc 0x701#12 x).opc = 0x701#12 := rfl
    simp only [decGroup, decGroup7, h0, show (BitVec.extractLsb' 8 4 0x701#12).toNat = 0x7 by decide, show (BitVec.extractLsb' 0 8 0x701#12).toNat = 0x01 by decide])
theorem mlog (x : Mlog) : Statement (.mlog x) := fun h =>
  roundTrip (f := encMlog 0x702#12 x) (g := Instr.mlog) rfl rfl (decMlog_encMlog 0x702#12 x h) rfl (by
    have h0 : (encMlog 0x702#12 x).opc = 0x702#12 := rfl
    simp only [decGroup, decGroup7, h0, show (BitVec.extractLsb' 8 4 0x702#12).toNat = 0x7 by decide, show (BitVec.extractLsb' 0 8 0x702#12).toNat = 0x02 by decide])
theorem mpopc (x : Mpush) : Statement (.mpopc x) := fun h =>
  roundTrip (f := encMpush 0x703#12 x) (g := Instr.mpopc) rfl rfl (decMpush_encMpush 0x703#12 x h) rfl (by
    have h0 : (encMpush 0x703#12 x).opc = 0x703#12 := rfl
    simp only [decGroup, decGroup7, h0, show (BitVec.extractLsb' 8 4 0x703#12).toNat = 0x7 by decide, show (BitVec.extractLsb' 0 8 0x703#12).toNat = 0x03 by decide])
theorem mffs (x : Mpush) : Statement (.mffs x) := fun h =>
  roundTrip (f := encMpush 0x704#12 x) (g := Instr.mffs) rfl rfl (decMpush_encMpush 0x704#12 x h) rfl (by
    have h0 : (encMpush 0x704#12 x).opc = 0x704#12 := rfl
    simp only [decGroup, decGroup7, h0, show (BitVec.extractLsb' 8 4 0x704#12).toNat = 0x7 by decide, show (BitVec.extractLsb' 0 8 0x704#12).toNat = 0x04 by decide])
theorem mpfx (x : Mpfx) : Statement (.mpfx x) := fun h =>
  roundTrip (f := encMpfx 0x705#12 x) (g := Instr.mpfx) rfl rfl (decMpfx_encMpfx 0x705#12 x h) rfl (by
    have h0 : (encMpfx 0x705#12 x).opc = 0x705#12 := rfl
    simp only [decGroup, decGroup7, h0, show (BitVec.extractLsb' 8 4 0x705#12).toNat = 0x7 by decide, show (BitVec.extractLsb' 0 8 0x705#12).toNat = 0x05 by decide])
theorem mffe (x : Mffe) : Statement (.mffe x) := fun h =>
  roundTrip (f := encMffe 0x706#12 x) (g := Instr.mffe) rfl rfl (decMffe_encMffe 0x706#12 x h) rfl (by
    have h0 : (encMffe 0x706#12 x).opc = 0x706#12 := rfl
    simp only [decGroup, decGroup7, h0, show (BitVec.extractLsb' 8 4 0x706#12).toNat = 0x7 by decide, show (BitVec.extractLsb' 0 8 0x706#12).toNat = 0x06 by decide])
theorem vslideup (x : Slide) : Statement (.vslideup x) := fun h =>
  roundTrip (f := encSlide 0x710#12 x) (g := Instr.vslideup) rfl rfl (decSlide_encSlide 0x710#12 x h) rfl (by
    have h0 : (encSlide 0x710#12 x).opc = 0x710#12 := rfl
    simp only [decGroup, decGroup7, h0, show (BitVec.extractLsb' 8 4 0x710#12).toNat = 0x7 by decide, show (BitVec.extractLsb' 0 8 0x710#12).toNat = 0x10 by decide])
theorem vslidedn (x : Slide) : Statement (.vslidedn x) := fun h =>
  roundTrip (f := encSlide 0x711#12 x) (g := Instr.vslidedn) rfl rfl (decSlide_encSlide 0x711#12 x h) rfl (by
    have h0 : (encSlide 0x711#12 x).opc = 0x711#12 := rfl
    simp only [decGroup, decGroup7, h0, show (BitVec.extractLsb' 8 4 0x711#12).toNat = 0x7 by decide, show (BitVec.extractLsb' 0 8 0x711#12).toNat = 0x11 by decide])
theorem vgathr (x : WBin) : Statement (.vgathr x) := fun h =>
  roundTrip (f := encWBin 0x712#12 x) (g := Instr.vgathr) rfl rfl (decWBin_encWBin 0x712#12 x h) rfl (by
    have h0 : (encWBin 0x712#12 x).opc = 0x712#12 := rfl
    simp only [decGroup, decGroup7, h0, show (BitVec.extractLsb' 8 4 0x712#12).toNat = 0x7 by decide, show (BitVec.extractLsb' 0 8 0x712#12).toNat = 0x12 by decide])
theorem vcompr (x : Vpack) : Statement (.vcompr x) := fun h =>
  roundTrip (f := encVpack 0x713#12 x) (g := Instr.vcompr) rfl rfl (decVpack_encVpack 0x713#12 x h) rfl (by
    have h0 : (encVpack 0x713#12 x).opc = 0x713#12 := rfl
    simp only [decGroup, decGroup7, h0, show (BitVec.extractLsb' 8 4 0x713#12).toNat = 0x7 by decide, show (BitVec.extractLsb' 0 8 0x713#12).toNat = 0x13 by decide])
theorem vexpnd (x : Vpack) : Statement (.vexpnd x) := fun h =>
  roundTrip (f := encVpack 0x714#12 x) (g := Instr.vexpnd) rfl rfl (decVpack_encVpack 0x714#12 x h) rfl (by
    have h0 : (encVpack 0x714#12 x).opc = 0x714#12 := rfl
    simp only [decGroup, decGroup7, h0, show (BitVec.extractLsb' 8 4 0x714#12).toNat = 0x7 by decide, show (BitVec.extractLsb' 0 8 0x714#12).toNat = 0x14 by decide])
theorem vredsum (x : Vred) : Statement (.vredsum x) := fun h =>
  roundTrip (f := encVred 0x716#12 x) (g := Instr.vredsum) rfl rfl (decVred_encVred 0x716#12 x h) rfl (by
    have h0 : (encVred 0x716#12 x).opc = 0x716#12 := rfl
    simp only [decGroup, decGroup7, h0, show (BitVec.extractLsb' 8 4 0x716#12).toNat = 0x7 by decide, show (BitVec.extractLsb' 0 8 0x716#12).toNat = 0x16 by decide])
theorem vredmin (x : Vred) : Statement (.vredmin x) := fun h =>
  roundTrip (f := encVred 0x717#12 x) (g := Instr.vredmin) rfl rfl (decVred_encVred 0x717#12 x h) rfl (by
    have h0 : (encVred 0x717#12 x).opc = 0x717#12 := rfl
    simp only [decGroup, decGroup7, h0, show (BitVec.extractLsb' 8 4 0x717#12).toNat = 0x7 by decide, show (BitVec.extractLsb' 0 8 0x717#12).toNat = 0x17 by decide])
theorem vredmax (x : Vred) : Statement (.vredmax x) := fun h =>
  roundTrip (f := encVred 0x718#12 x) (g := Instr.vredmax) rfl rfl (decVred_encVred 0x718#12 x h) rfl (by
    have h0 : (encVred 0x718#12 x).opc = 0x718#12 := rfl
    simp only [decGroup, decGroup7, h0, show (BitVec.extractLsb' 8 4 0x718#12).toNat = 0x7 by decide, show (BitVec.extractLsb' 0 8 0x718#12).toNat = 0x18 by decide])
theorem vscan (x : Slide) : Statement (.vscan x) := fun h =>
  roundTrip (f := encSlide 0x719#12 x) (g := Instr.vscan) rfl rfl (decSlide_encSlide 0x719#12 x h) rfl (by
    have h0 : (encSlide 0x719#12 x).opc = 0x719#12 := rfl
    simp only [decGroup, decGroup7, h0, show (BitVec.extractLsb' 8 4 0x719#12).toNat = 0x7 by decide, show (BitVec.extractLsb' 0 8 0x719#12).toNat = 0x19 by decide])
theorem vconf (x : WUn) : Statement (.vconf x) := fun h => by
  have h' := (Bool.and_eq_true _ _ ▸ h : _ ∧ _)
  have hz : ((encWUn 0x71A#12 x).imm.extractLsb' 0 2 != 0#2) = true := by
    simp (disch := decide) only [encWUn, ex_lo, ex_hi, ex_full, -Nat.reduceAdd]
    exact h'.2
  have hd : (rsv ((encWUn 0x71A#12 x).imm.extractLsb' 0 2 != 0#2) *> decWUn (encWUn 0x71A#12 x)) = .ok x := by
    rw [hz, decWUn_encWUn 0x71A#12 x h'.1]
    rfl
  exact roundTrip (f := encWUn 0x71A#12 x) (g := Instr.vconf) rfl rfl hd rfl (by
    have h0 : (encWUn 0x71A#12 x).opc = 0x71A#12 := rfl
    simp only [decGroup, decGroup7, h0, show (BitVec.extractLsb' 8 4 0x71A#12).toNat = 0x7 by decide, show (BitVec.extractLsb' 0 8 0x71A#12).toNat = 0x1A by decide])
theorem vcomb (x : Vcomb) : Statement (.vcomb x) := fun h =>
  roundTrip (f := encVcomb 0x71B#12 x) (g := Instr.vcomb) rfl rfl (decVcomb_encVcomb 0x71B#12 x h) rfl (by
    have h0 : (encVcomb 0x71B#12 x).opc = 0x71B#12 := rfl
    simp only [decGroup, decGroup7, h0, show (BitVec.extractLsb' 8 4 0x71B#12).toNat = 0x7 by decide, show (BitVec.extractLsb' 0 8 0x71B#12).toNat = 0x1B by decide])
theorem vsort (x : Vsort) : Statement (.vsort x) := fun h =>
  roundTrip (f := encVsort 0x71C#12 x) (g := Instr.vsort) rfl rfl (decVsort_encVsort 0x71C#12 x h) rfl (by
    have h0 : (encVsort 0x71C#12 x).opc = 0x71C#12 := rfl
    simp only [decGroup, decGroup7, h0, show (BitVec.extractLsb' 8 4 0x71C#12).toNat = 0x7 by decide, show (BitVec.extractLsb' 0 8 0x71C#12).toNat = 0x1C by decide])
theorem vbcmp (x : Vbcmp) : Statement (.vbcmp x) := fun h =>
  roundTrip (f := encVbcmp 0x720#12 x) (g := Instr.vbcmp) rfl rfl (decVbcmp_encVbcmp 0x720#12 x h) rfl (by
    have h0 : (encVbcmp 0x720#12 x).opc = 0x720#12 := rfl
    simp only [decGroup, decGroup7, h0, show (BitVec.extractLsb' 8 4 0x720#12).toNat = 0x7 by decide, show (BitVec.extractLsb' 0 8 0x720#12).toNat = 0x20 by decide])
theorem vbfind (x : Vbfind) : Statement (.vbfind x) := fun h =>
  roundTrip (f := encVbfind 0x721#12 x) (g := Instr.vbfind) rfl rfl (decVbfind_encVbfind 0x721#12 x h) rfl (by
    have h0 : (encVbfind 0x721#12 x).opc = 0x721#12 := rfl
    simp only [decGroup, decGroup7, h0, show (BitVec.extractLsb' 8 4 0x721#12).toNat = 0x7 by decide, show (BitVec.extractLsb' 0 8 0x721#12).toNat = 0x21 by decide])
theorem vhash (x : WBin) : Statement (.vhash x) := fun h => by
  have h' := (Bool.and_eq_true _ _ ▸ h : _ ∧ _)
  have hz : ((encWBin 0x722#12 x).imm.extractLsb' 1 1 == 1#1) = true := by
    simp (disch := decide) only [encWBin, ex_lo, ex_hi, ex_full, -Nat.reduceAdd]
    exact wide_bit _ h'.2
  have hd : (rsv ((encWBin 0x722#12 x).imm.extractLsb' 1 1 == 1#1) *> decWBin (encWBin 0x722#12 x)) = .ok x := by
    rw [hz, decWBin_encWBin 0x722#12 x h'.1]
    rfl
  exact roundTrip (f := encWBin 0x722#12 x) (g := Instr.vhash) rfl rfl hd rfl (by
    have h0 : (encWBin 0x722#12 x).opc = 0x722#12 := rfl
    simp only [decGroup, decGroup7, h0, show (BitVec.extractLsb' 8 4 0x722#12).toNat = 0x7 by decide, show (BitVec.extractLsb' 0 8 0x722#12).toNat = 0x22 by decide])
theorem vxhash (x : Vxhash) : Statement (.vxhash x) := fun h =>
  roundTrip (f := encVxhash 0x723#12 x) (g := Instr.vxhash) rfl rfl (decVxhash_encVxhash 0x723#12 x h) rfl (by
    have h0 : (encVxhash 0x723#12 x).opc = 0x723#12 := rfl
    simp only [decGroup, decGroup7, h0, show (BitVec.extractLsb' 8 4 0x723#12).toNat = 0x7 by decide, show (BitVec.extractLsb' 0 8 0x723#12).toNat = 0x23 by decide])
theorem vfadd (x : FBin) : Statement (.vfadd x) := fun h =>
  roundTrip (f := encFBin 0x800#12 x) (g := Instr.vfadd) rfl rfl (decFBin_encFBin 0x800#12 x h) rfl (by
    have h0 : (encFBin 0x800#12 x).opc = 0x800#12 := rfl
    simp only [decGroup, decGroup8, h0, show (BitVec.extractLsb' 8 4 0x800#12).toNat = 0x8 by decide, show (BitVec.extractLsb' 0 8 0x800#12).toNat = 0x00 by decide])
theorem vfsub (x : FBin) : Statement (.vfsub x) := fun h =>
  roundTrip (f := encFBin 0x801#12 x) (g := Instr.vfsub) rfl rfl (decFBin_encFBin 0x801#12 x h) rfl (by
    have h0 : (encFBin 0x801#12 x).opc = 0x801#12 := rfl
    simp only [decGroup, decGroup8, h0, show (BitVec.extractLsb' 8 4 0x801#12).toNat = 0x8 by decide, show (BitVec.extractLsb' 0 8 0x801#12).toNat = 0x01 by decide])
theorem vfmul (x : FBin) : Statement (.vfmul x) := fun h =>
  roundTrip (f := encFBin 0x802#12 x) (g := Instr.vfmul) rfl rfl (decFBin_encFBin 0x802#12 x h) rfl (by
    have h0 : (encFBin 0x802#12 x).opc = 0x802#12 := rfl
    simp only [decGroup, decGroup8, h0, show (BitVec.extractLsb' 8 4 0x802#12).toNat = 0x8 by decide, show (BitVec.extractLsb' 0 8 0x802#12).toNat = 0x02 by decide])
theorem vfma (x : Vfma) : Statement (.vfma x) := fun h =>
  roundTrip (f := encVfma 0x803#12 x) (g := Instr.vfma) rfl rfl (decVfma_encVfma 0x803#12 x h) rfl (by
    have h0 : (encVfma 0x803#12 x).opc = 0x803#12 := rfl
    simp only [decGroup, decGroup8, h0, show (BitVec.extractLsb' 8 4 0x803#12).toNat = 0x8 by decide, show (BitVec.extractLsb' 0 8 0x803#12).toNat = 0x03 by decide])
theorem vfdiv (x : FBin) : Statement (.vfdiv x) := fun h =>
  roundTrip (f := encFBin 0x804#12 x) (g := Instr.vfdiv) rfl rfl (decFBin_encFBin 0x804#12 x h) rfl (by
    have h0 : (encFBin 0x804#12 x).opc = 0x804#12 := rfl
    simp only [decGroup, decGroup8, h0, show (BitVec.extractLsb' 8 4 0x804#12).toNat = 0x8 by decide, show (BitVec.extractLsb' 0 8 0x804#12).toNat = 0x04 by decide])
theorem vfsqrt (x : FUn) : Statement (.vfsqrt x) := fun h =>
  roundTrip (f := encFUn 0x805#12 x) (g := Instr.vfsqrt) rfl rfl (decFUn_encFUn 0x805#12 x h) rfl (by
    have h0 : (encFUn 0x805#12 x).opc = 0x805#12 := rfl
    simp only [decGroup, decGroup8, h0, show (BitVec.extractLsb' 8 4 0x805#12).toNat = 0x8 by decide, show (BitVec.extractLsb' 0 8 0x805#12).toNat = 0x05 by decide])
theorem vfmin (x : FBin) : Statement (.vfmin x) := fun h =>
  roundTrip (f := encFBin 0x806#12 x) (g := Instr.vfmin) rfl rfl (decFBin_encFBin 0x806#12 x h) rfl (by
    have h0 : (encFBin 0x806#12 x).opc = 0x806#12 := rfl
    simp only [decGroup, decGroup8, h0, show (BitVec.extractLsb' 8 4 0x806#12).toNat = 0x8 by decide, show (BitVec.extractLsb' 0 8 0x806#12).toNat = 0x06 by decide])
theorem vfmax (x : FBin) : Statement (.vfmax x) := fun h =>
  roundTrip (f := encFBin 0x807#12 x) (g := Instr.vfmax) rfl rfl (decFBin_encFBin 0x807#12 x h) rfl (by
    have h0 : (encFBin 0x807#12 x).opc = 0x807#12 := rfl
    simp only [decGroup, decGroup8, h0, show (BitVec.extractLsb' 8 4 0x807#12).toNat = 0x8 by decide, show (BitVec.extractLsb' 0 8 0x807#12).toNat = 0x07 by decide])
theorem vfabs (x : FUn) : Statement (.vfabs x) := fun h =>
  roundTrip (f := encFUn 0x808#12 x) (g := Instr.vfabs) rfl rfl (decFUn_encFUn 0x808#12 x h) rfl (by
    have h0 : (encFUn 0x808#12 x).opc = 0x808#12 := rfl
    simp only [decGroup, decGroup8, h0, show (BitVec.extractLsb' 8 4 0x808#12).toNat = 0x8 by decide, show (BitVec.extractLsb' 0 8 0x808#12).toNat = 0x08 by decide])
theorem vfneg (x : FUn) : Statement (.vfneg x) := fun h =>
  roundTrip (f := encFUn 0x809#12 x) (g := Instr.vfneg) rfl rfl (decFUn_encFUn 0x809#12 x h) rfl (by
    have h0 : (encFUn 0x809#12 x).opc = 0x809#12 := rfl
    simp only [decGroup, decGroup8, h0, show (BitVec.extractLsb' 8 4 0x809#12).toNat = 0x8 by decide, show (BitVec.extractLsb' 0 8 0x809#12).toNat = 0x09 by decide])
theorem vfcmp (x : Vfcmp) : Statement (.vfcmp x) := fun h =>
  roundTrip (f := encVfcmp 0x80A#12 x) (g := Instr.vfcmp) rfl rfl (decVfcmp_encVfcmp 0x80A#12 x h) rfl (by
    have h0 : (encVfcmp 0x80A#12 x).opc = 0x80A#12 := rfl
    simp only [decGroup, decGroup8, h0, show (BitVec.extractLsb' 8 4 0x80A#12).toNat = 0x8 by decide, show (BitVec.extractLsb' 0 8 0x80A#12).toNat = 0x0A by decide])
theorem vexp2 (x : FUn) : Statement (.vexp2 x) := fun h =>
  roundTrip (f := encFUn 0x80B#12 x) (g := Instr.vexp2) rfl rfl (decFUn_encFUn 0x80B#12 x h) rfl (by
    have h0 : (encFUn 0x80B#12 x).opc = 0x80B#12 := rfl
    simp only [decGroup, decGroup8, h0, show (BitVec.extractLsb' 8 4 0x80B#12).toNat = 0x8 by decide, show (BitVec.extractLsb' 0 8 0x80B#12).toNat = 0x0B by decide])
theorem vlog2 (x : FUn) : Statement (.vlog2 x) := fun h =>
  roundTrip (f := encFUn 0x80C#12 x) (g := Instr.vlog2) rfl rfl (decFUn_encFUn 0x80C#12 x h) rfl (by
    have h0 : (encFUn 0x80C#12 x).opc = 0x80C#12 := rfl
    simp only [decGroup, decGroup8, h0, show (BitVec.extractLsb' 8 4 0x80C#12).toNat = 0x8 by decide, show (BitVec.extractLsb' 0 8 0x80C#12).toNat = 0x0C by decide])
theorem vrsqrt (x : FUn) : Statement (.vrsqrt x) := fun h =>
  roundTrip (f := encFUn 0x80D#12 x) (g := Instr.vrsqrt) rfl rfl (decFUn_encFUn 0x80D#12 x h) rfl (by
    have h0 : (encFUn 0x80D#12 x).opc = 0x80D#12 := rfl
    simp only [decGroup, decGroup8, h0, show (BitVec.extractLsb' 8 4 0x80D#12).toNat = 0x8 by decide, show (BitVec.extractLsb' 0 8 0x80D#12).toNat = 0x0D by decide])
theorem vrcp (x : FUn) : Statement (.vrcp x) := fun h =>
  roundTrip (f := encFUn 0x80E#12 x) (g := Instr.vrcp) rfl rfl (decFUn_encFUn 0x80E#12 x h) rfl (by
    have h0 : (encFUn 0x80E#12 x).opc = 0x80E#12 := rfl
    simp only [decGroup, decGroup8, h0, show (BitVec.extractLsb' 8 4 0x80E#12).toNat = 0x8 by decide, show (BitVec.extractLsb' 0 8 0x80E#12).toNat = 0x0E by decide])
theorem vtanh (x : FUn) : Statement (.vtanh x) := fun h =>
  roundTrip (f := encFUn 0x80F#12 x) (g := Instr.vtanh) rfl rfl (decFUn_encFUn 0x80F#12 x h) rfl (by
    have h0 : (encFUn 0x80F#12 x).opc = 0x80F#12 := rfl
    simp only [decGroup, decGroup8, h0, show (BitVec.extractLsb' 8 4 0x80F#12).toNat = 0x8 by decide, show (BitVec.extractLsb' 0 8 0x80F#12).toNat = 0x0F by decide])
theorem verf (x : FUn) : Statement (.verf x) := fun h =>
  roundTrip (f := encFUn 0x810#12 x) (g := Instr.verf) rfl rfl (decFUn_encFUn 0x810#12 x h) rfl (by
    have h0 : (encFUn 0x810#12 x).opc = 0x810#12 := rfl
    simp only [decGroup, decGroup8, h0, show (BitVec.extractLsb' 8 4 0x810#12).toNat = 0x8 by decide, show (BitVec.extractLsb' 0 8 0x810#12).toNat = 0x10 by decide])
theorem vcvt (x : FUn) : Statement (.vcvt x) := fun h =>
  roundTrip (f := encFUn 0x811#12 x) (g := Instr.vcvt) rfl rfl (decFUn_encFUn 0x811#12 x h) rfl (by
    have h0 : (encFUn 0x811#12 x).opc = 0x811#12 := rfl
    simp only [decGroup, decGroup8, h0, show (BitVec.extractLsb' 8 4 0x811#12).toNat = 0x8 by decide, show (BitVec.extractLsb' 0 8 0x811#12).toNat = 0x11 by decide])
theorem vfredsum (x : FRed) : Statement (.vfredsum x) := fun h =>
  roundTrip (f := encFRed 0x812#12 x) (g := Instr.vfredsum) rfl rfl (decFRed_encFRed 0x812#12 x h) rfl (by
    have h0 : (encFRed 0x812#12 x).opc = 0x812#12 := rfl
    simp only [decGroup, decGroup8, h0, show (BitVec.extractLsb' 8 4 0x812#12).toNat = 0x8 by decide, show (BitVec.extractLsb' 0 8 0x812#12).toNat = 0x12 by decide])
theorem vbfly (x : Vbfly) : Statement (.vbfly x) := fun h =>
  roundTrip (f := encVbfly 0x813#12 x) (g := Instr.vbfly) rfl rfl (decVbfly_encVbfly 0x813#12 x h) rfl (by
    have h0 : (encVbfly 0x813#12 x).opc = 0x813#12 := rfl
    simp only [decGroup, decGroup8, h0, show (BitVec.extractLsb' 8 4 0x813#12).toNat = 0x8 by decide, show (BitVec.extractLsb' 0 8 0x813#12).toNat = 0x13 by decide])
theorem vamax (x : FRed) : Statement (.vamax x) := fun h =>
  roundTrip (f := encFRed 0x814#12 x) (g := Instr.vamax) rfl rfl (decFRed_encFRed 0x814#12 x h) rfl (by
    have h0 : (encFRed 0x814#12 x).opc = 0x814#12 := rfl
    simp only [decGroup, decGroup8, h0, show (BitVec.extractLsb' 8 4 0x814#12).toNat = 0x8 by decide, show (BitVec.extractLsb' 0 8 0x814#12).toNat = 0x14 by decide])
theorem vqbfp (x : Vbfp) : Statement (.vqbfp x) := fun h =>
  roundTrip (f := encVbfp 0x900#12 x) (g := Instr.vqbfp) rfl rfl (decVbfp_encVbfp 0x900#12 x h) rfl (by
    have h0 : (encVbfp 0x900#12 x).opc = 0x900#12 := rfl
    simp only [decGroup, decGroup9, h0, show (BitVec.extractLsb' 8 4 0x900#12).toNat = 0x9 by decide, show (BitVec.extractLsb' 0 8 0x900#12).toNat = 0x00 by decide])
theorem vdqbfp (x : Vbfp) : Statement (.vdqbfp x) := fun h =>
  roundTrip (f := encVbfp 0x901#12 x) (g := Instr.vdqbfp) rfl rfl (decVbfp_encVbfp 0x901#12 x h) rfl (by
    have h0 : (encVbfp 0x901#12 x).opc = 0x901#12 := rfl
    simp only [decGroup, decGroup9, h0, show (BitVec.extractLsb' 8 4 0x901#12).toNat = 0x9 by decide, show (BitVec.extractLsb' 0 8 0x901#12).toNat = 0x01 by decide])
theorem vqsc (x : Vqsc) : Statement (.vqsc x) := fun h =>
  roundTrip (f := encVqsc 0x902#12 x) (g := Instr.vqsc) rfl rfl (decVqsc_encVqsc 0x902#12 x h) rfl (by
    have h0 : (encVqsc 0x902#12 x).opc = 0x902#12 := rfl
    simp only [decGroup, decGroup9, h0, show (BitVec.extractLsb' 8 4 0x902#12).toNat = 0x9 by decide, show (BitVec.extractLsb' 0 8 0x902#12).toNat = 0x02 by decide])
theorem cbld (x : Cbld) : Statement (.cbld x) := fun _ =>
  roundTrip (f := encCbld 0x908#12 x) (g := Instr.cbld) rfl rfl (decCbld_encCbld 0x908#12 x rfl) rfl (by
    have h0 : (encCbld 0x908#12 x).opc = 0x908#12 := rfl
    simp only [decGroup, decGroup9, h0, show (BitVec.extractLsb' 8 4 0x908#12).toNat = 0x9 by decide, show (BitVec.extractLsb' 0 8 0x908#12).toNat = 0x08 by decide])
theorem cbst (x : Cbst) : Statement (.cbst x) := fun h =>
  roundTrip (f := encCbst 0x909#12 x) (g := Instr.cbst) rfl rfl (decCbst_encCbst 0x909#12 x h) rfl (by
    have h0 : (encCbst 0x909#12 x).opc = 0x909#12 := rfl
    simp only [decGroup, decGroup9, h0, show (BitVec.extractLsb' 8 4 0x909#12).toNat = 0x9 by decide, show (BitVec.extractLsb' 0 8 0x909#12).toNat = 0x09 by decide])
theorem cbinv (x : Cbinv) : Statement (.cbinv x) := fun _ =>
  roundTrip (f := encCbinv 0x90A#12 x) (g := Instr.cbinv) rfl rfl (decCbinv_encCbinv 0x90A#12 x rfl) rfl (by
    have h0 : (encCbinv 0x90A#12 x).opc = 0x90A#12 := rfl
    simp only [decGroup, decGroup9, h0, show (BitVec.extractLsb' 8 4 0x90A#12).toNat = 0x9 by decide, show (BitVec.extractLsb' 0 8 0x90A#12).toNat = 0x0A by decide])
theorem vcbx (x : FUn) : Statement (.vcbx x) := fun h =>
  roundTrip (f := encFUn 0x90C#12 x) (g := Instr.vcbx) rfl rfl (decFUn_encFUn 0x90C#12 x h) rfl (by
    have h0 : (encFUn 0x90C#12 x).opc = 0x90C#12 := rfl
    simp only [decGroup, decGroup9, h0, show (BitVec.extractLsb' 8 4 0x90C#12).toNat = 0x9 by decide, show (BitVec.extractLsb' 0 8 0x90C#12).toNat = 0x0C by decide])
theorem vcbq (x : FUn) : Statement (.vcbq x) := fun h =>
  roundTrip (f := encFUn 0x90D#12 x) (g := Instr.vcbq) rfl rfl (decFUn_encFUn 0x90D#12 x h) rfl (by
    have h0 : (encFUn 0x90D#12 x).opc = 0x90D#12 := rfl
    simp only [decGroup, decGroup9, h0, show (BitVec.extractLsb' 8 4 0x90D#12).toNat = 0x9 by decide, show (BitVec.extractLsb' 0 8 0x90D#12).toNat = 0x0D by decide])
theorem tzero (x : Tzero) : Statement (.tzero x) := fun h =>
  roundTrip (f := encTzero 0xA00#12 x) (g := Instr.tzero) rfl rfl (decTzero_encTzero 0xA00#12 x h) rfl (by
    have h0 : (encTzero 0xA00#12 x).opc = 0xA00#12 := rfl
    simp only [decGroup, decGroupA, h0, show (BitVec.extractLsb' 8 4 0xA00#12).toNat = 0xA by decide, show (BitVec.extractLsb' 0 8 0xA00#12).toNat = 0x00 by decide])
theorem opa (x : Opa) : Statement (.opa x) := fun h =>
  roundTrip (f := encOpa 0xA01#12 x) (g := Instr.opa) rfl rfl (decOpa_encOpa 0xA01#12 x h) rfl (by
    have h0 : (encOpa 0xA01#12 x).opc = 0xA01#12 := rfl
    simp only [decGroup, decGroupA, h0, show (BitVec.extractLsb' 8 4 0xA01#12).toNat = 0xA by decide, show (BitVec.extractLsb' 0 8 0xA01#12).toNat = 0x01 by decide])
theorem opas (x : Opas) : Statement (.opas x) := fun h =>
  roundTrip (f := encOpas 0xA02#12 x) (g := Instr.opas) rfl rfl (decOpas_encOpas 0xA02#12 x h) rfl (by
    have h0 : (encOpas 0xA02#12 x).opc = 0xA02#12 := rfl
    simp only [decGroup, decGroupA, h0, show (BitVec.extractLsb' 8 4 0xA02#12).toNat = 0xA by decide, show (BitVec.extractLsb' 0 8 0xA02#12).toNat = 0x02 by decide])
theorem tlds (x : Tlds) : Statement (.tlds x) := fun h =>
  roundTrip (f := encTlds 0xA04#12 x) (g := Instr.tlds) rfl rfl (decTlds_encTlds 0xA04#12 x h) rfl (by
    have h0 : (encTlds 0xA04#12 x).opc = 0xA04#12 := rfl
    simp only [decGroup, decGroupA, h0, show (BitVec.extractLsb' 8 4 0xA04#12).toNat = 0xA by decide, show (BitVec.extractLsb' 0 8 0xA04#12).toNat = 0x04 by decide])
theorem tsts (x : Tsts) : Statement (.tsts x) := fun h =>
  roundTrip (f := encTsts 0xA05#12 x) (g := Instr.tsts) rfl rfl (decTsts_encTsts 0xA05#12 x h) rfl (by
    have h0 : (encTsts 0xA05#12 x).opc = 0xA05#12 := rfl
    simp only [decGroup, decGroupA, h0, show (BitVec.extractLsb' 8 4 0xA05#12).toNat = 0xA by decide, show (BitVec.extractLsb' 0 8 0xA05#12).toNat = 0x05 by decide])
theorem trowv (x : Trowv) : Statement (.trowv x) := fun h =>
  roundTrip (f := encTrowv 0xA06#12 x) (g := Instr.trowv) rfl rfl (decTrowv_encTrowv 0xA06#12 x h) rfl (by
    have h0 : (encTrowv 0xA06#12 x).opc = 0xA06#12 := rfl
    simp only [decGroup, decGroupA, h0, show (BitVec.extractLsb' 8 4 0xA06#12).toNat = 0xA by decide, show (BitVec.extractLsb' 0 8 0xA06#12).toNat = 0x06 by decide])
theorem tvrow (x : Tvrow) : Statement (.tvrow x) := fun h =>
  roundTrip (f := encTvrow 0xA07#12 x) (g := Instr.tvrow) rfl rfl (decTvrow_encTvrow 0xA07#12 x h) rfl (by
    have h0 : (encTvrow 0xA07#12 x).opc = 0xA07#12 := rfl
    simp only [decGroup, decGroupA, h0, show (BitVec.extractLsb' 8 4 0xA07#12).toNat = 0xA by decide, show (BitVec.extractLsb' 0 8 0xA07#12).toNat = 0x07 by decide])
theorem tscale (x : Tscale) : Statement (.tscale x) := fun h =>
  roundTrip (f := encTscale 0xA08#12 x) (g := Instr.tscale) rfl rfl (decTscale_encTscale 0xA08#12 x h) rfl (by
    have h0 : (encTscale 0xA08#12 x).opc = 0xA08#12 := rfl
    simp only [decGroup, decGroupA, h0, show (BitVec.extractLsb' 8 4 0xA08#12).toNat = 0xA by decide, show (BitVec.extractLsb' 0 8 0xA08#12).toNat = 0x08 by decide])
theorem elementGroup (h : HartId) : Statement (.elementGroup h) := fun _ _ _ h => nomatch h
theorem xEntryCompletion (h : HartId) : Statement (.xEntryCompletion h) := fun _ _ _ h => nomatch h
theorem yieldHintEnd (h : HartId) : Statement (.yieldHintEnd h) := fun _ _ _ h => nomatch h
theorem queueDeadlock (h : HartId) : Statement (.queueDeadlock h) := fun _ _ _ h => nomatch h
theorem yieldPauseEnd (h : HartId) : Statement (.yieldPauseEnd h) := fun _ _ _ h => nomatch h
theorem elementArrival (h : HartId) (q : LQ) (e : Nat) (n : Nat) (corrected : Option Site) : Statement (.elementArrival h q e n corrected) := fun _ _ _ h => nomatch h
theorem leaseExpiry (h : HartId) : Statement (.leaseExpiry h) := fun _ _ _ h => nomatch h
theorem engineCompletion (l k : Nat) (t : BitVec 6) : Statement (.engineCompletion l k t) := fun _ _ _ h => nomatch h
theorem nearMemoryUpdate (h : HartId) (n : Nat) : Statement (.nearMemoryUpdate h n) := fun _ _ _ h => nomatch h
theorem sfpoolBagArrival (h : HartId) (q : LQ) (e : Nat) (b : Nat) : Statement (.sfpoolBagArrival h q e b) := fun _ _ _ h => nomatch h
theorem peerStoreAck (n : Nat) : Statement (.peerStoreAck n) := fun _ _ _ h => nomatch h
theorem queueMap (p : Nat) : Statement (.queueMap p) := fun _ _ _ h => nomatch h
theorem unmapStart (p : Nat) : Statement (.unmapStart p) := fun _ _ _ h => nomatch h
theorem unmapComplete (p : Nat) (slot : Nat) : Statement (.unmapComplete p slot) := fun _ _ _ h => nomatch h
theorem recordTake (p : Nat) (slot : Nat) : Statement (.recordTake p slot) := fun _ _ _ h => nomatch h
theorem placement (p : Nat) : Statement (.placement p) := fun _ _ _ h => nomatch h
theorem sliceTick (p : Nat) : Statement (.sliceTick p) := fun _ _ _ h => nomatch h
theorem sliceExpiry (l : Nat) : Statement (.sliceExpiry l) := fun _ _ _ h => nomatch h
theorem preemptionHalt (l : Nat) : Statement (.preemptionHalt l) := fun _ _ _ h => nomatch h
theorem contextSave (l : Nat) : Statement (.contextSave l) := fun _ _ _ h => nomatch h
theorem resumption (p : Nat) : Statement (.resumption p) := fun _ _ _ h => nomatch h
theorem launchCompletion (l : Nat) : Statement (.launchCompletion l) := fun _ _ _ h => nomatch h
theorem watchdogPoll (p : Nat) (answered : Bool) : Statement (.watchdogPoll p answered) := fun _ _ _ h => nomatch h
theorem vlWrite (h : HartId) : Statement (.vlWrite h) := fun _ _ _ h => nomatch h
theorem vlcapWrite (h : HartId) : Statement (.vlcapWrite h) := fun _ _ _ h => nomatch h
theorem teixWrite (h : HartId) : Statement (.teixWrite h) := fun _ _ _ h => nomatch h
theorem tvecWrite (h : HartId) : Statement (.tvecWrite h) := fun _ _ _ h => nomatch h
theorem fflagsWrite (h : HartId) : Statement (.fflagsWrite h) := fun _ _ _ h => nomatch h
theorem ptbaseWrite (h : HartId) : Statement (.ptbaseWrite h) := fun _ _ _ h => nomatch h
theorem xWindowFree (h : HartId) : Statement (.xWindowFree h) := fun _ _ _ h => nomatch h
theorem queueEntryReady (h : HartId) : Statement (.queueEntryReady h) := fun _ _ _ h => nomatch h
theorem xsyncDone (h : HartId) : Statement (.xsyncDone h) := fun _ _ _ h => nomatch h
theorem interlockWaitEnd (h : HartId) : Statement (.interlockWaitEnd h) := fun _ _ _ h => nomatch h
theorem leaseGrant (h : HartId) : Statement (.leaseGrant h) := fun _ _ _ h => nomatch h
theorem gongDeparture (h : HartId) : Statement (.gongDeparture h) := fun _ _ _ h => nomatch h
theorem waitiSatisfied (h : HartId) : Statement (.waitiSatisfied h) := fun _ _ _ h => nomatch h
theorem twaitReturn (h : HartId) : Statement (.twaitReturn h) := fun _ _ _ h => nomatch h
theorem engineIssue (h : HartId) : Statement (.engineIssue h) := fun _ _ _ h => nomatch h
theorem bankWriteWaitEnd (h : HartId) : Statement (.bankWriteWaitEnd h) := fun _ _ _ h => nomatch h
theorem nbfenceDone (h : HartId) : Statement (.nbfenceDone h) := fun _ _ _ h => nomatch h
theorem exitRetire (h : HartId) : Statement (.exitRetire h) := fun _ _ _ h => nomatch h
theorem acwaitReturn (h : HartId) : Statement (.acwaitReturn h) := fun _ _ _ h => nomatch h
theorem peerRequest (r : PeerReq) : Statement (.peerRequest r) := fun _ _ _ h => nomatch h
theorem postedStoreRejected (n : Nat) : Statement (.postedStoreRejected n) := fun _ _ _ h => nomatch h
theorem peerAcceptance (h : HartId) (a : PeerAnswer) : Statement (.peerAcceptance h a) := fun _ _ _ h => nomatch h
theorem clredResult (p : Nat) (gid : BitVec 32) (n : Nat) (cs : List Contribution) (memberFault : Bool) : Statement (.clredResult p gid n cs memberFault) := fun _ _ _ h => nomatch h
theorem linkReplay (x : Site) : Statement (.linkReplay x) := fun _ _ _ h => nomatch h
theorem spokeLinkFailure (link : Nat) (users : List Nat) : Statement (.spokeLinkFailure link users) := fun _ _ _ h => nomatch h
theorem saddlebagLinkFailure (port : Nat) : Statement (.saddlebagLinkFailure port) := fun _ _ _ h => nomatch h
theorem notifyWrite (p : Inlet) (off : Nat) (bytes : List Byte) : Statement (.notifyWrite p off bytes) := fun _ _ _ h => nomatch h
theorem serverRdmaWrite (p : Inlet) (va : BitVec 64) (bytes : List Byte) : Statement (.serverRdmaWrite p va bytes) := fun _ _ _ h => nomatch h
theorem watchdogExpiry (p : Nat) : Statement (.watchdogExpiry p) := fun _ _ _ h => nomatch h
theorem powerOn (f : BootFindings) : Statement (.powerOn f) := fun _ _ _ h => nomatch h
theorem powerLoss : Statement (.powerLoss) := fun _ _ _ h => nomatch h
theorem throttle (cycles : Throttle) : Statement (.throttle cycles) := fun _ _ _ h => nomatch h
theorem thermalShutdown : Statement (.thermalShutdown) := fun _ _ _ h => nomatch h
theorem ident (c : Cmd) : Statement (.ident c) := fun _ _ _ h => nomatch h
theorem reset (c : Cmd) (f : BootFindings) : Statement (.reset c f) := fun _ _ _ h => nomatch h
theorem partition (c : Cmd) : Statement (.partition c) := fun _ _ _ h => nomatch h
theorem load (c : Cmd) : Statement (.load c) := fun _ _ _ h => nomatch h
theorem start (c : Cmd) : Statement (.start c) := fun _ _ _ h => nomatch h
theorem stop (c : Cmd) : Statement (.stop c) := fun _ _ _ h => nomatch h
theorem attest (c : Cmd) : Statement (.attest c) := fun _ _ _ h => nomatch h
theorem counters (c : Cmd) : Statement (.counters c) := fun _ _ _ h => nomatch h
theorem thermal (c : Cmd) (watts : Nat) : Statement (.thermal c watts) := fun _ _ _ h => nomatch h
theorem domain (c : Cmd) (id part : Nat) (members : List Nat) : Statement (.domain c id part members) := fun _ _ _ h => nomatch h
theorem hostwin (c : Cmd) (a : HostwinArg) : Statement (.hostwin c a) := fun _ _ _ h => nomatch h
theorem keys (c : Cmd) (a : KeysArg) : Statement (.keys c a) := fun _ _ _ h => nomatch h
theorem unsupportedRdmaRequest (eth : BitVec 1) : Statement (.unsupportedRdmaRequest eth) := fun _ _ _ h => nomatch h

end Encoding

end Sys2Proof.Laws
end

