-- ==== Sys2Proof/Tests/Slice0.lean ====
section
/-! SUPPORT. Tests: ill-formed terms that the check refuses, words of the spec's encodings, single steps, and for the
statements of Certificates/Slice0/Obligations.lean a state and operands that meet their hypotheses. -/

namespace Sys2Proof.Tests

set_option Elab.async false

open Sys2Proof Sys2Proof.Machine Sys2Proof.Claims

/-! ## A small machine -/

/-- No guard. -/
def g0 : Guards := ⟨.always, .always⟩
def x0 : XCtl := ⟨g0, 0⟩
/-- A bottom-level entry for virtual page n of the tables that `placeInstr` lays at HBM address 0 (R279). -/
def Memory.page (m : Memory) (n e : Nat) : Memory := m.puts (hbmKey 1 (0x20000 + 8 * n)) (toBytes 8 e)
/-- Virtual page 0 is text; page 1 is cacheable, page 2 not, page 3 a page of module 5, page 4 pinned for near memory, page 5 a
supervisor's, page 7 in the saddlebag; no entry stands for page 6; one mapping of 512 MiB begins at 0x2000_0000. -/
def tables (m : Memory) : Memory :=
  let m := m.puts (hbmKey 1 0) (toBytes 8 (tableEntry 1))
  let m := m.puts (hbmKey 1 0x10000) (toBytes 8 (tableEntry 2))
  let m := Memory.page m 0 (textEntry 3)
  let m := Memory.page m 1 (2 ^ 26 * 4 + 0x6D)
  let m := Memory.page m 2 (2 ^ 26 * 5 + 0x2D)
  let m := Memory.page m 3 0x16002D
  let m := Memory.page m 4 (2 ^ 26 * 8 + 0x200806D)
  let m := Memory.page m 5 (2 ^ 26 * 7 + 0x4D)
  let m := Memory.page m 7 (2 ^ 26 * 9 + 0x201802D)
  m.puts (hbmKey 1 0x10008) (toBytes 8 (2 ^ 26 * 8192 + 0x6D))
/-- A module of domain {5, 9} with one partition of die 0 and one launch of one core and one hart, in user mode. -/
def base : State :=
  let s := State.reset
  { s with
    mem := tables s.mem
    md := { s.md with power := .ready, members := [5, 9], modId := some 9, boundPart := some 0, portOk := 255, linkOk := 0xFFFFFFFF, ethOk := 3 }
    parts := [(0, { Part.idle with dies := 1, started := true })]
    launches := [(0, { Launch.idle with phase := .running })]
    cores := [((0, 0), Core.idle)]
    harts := [(⟨0, 0, 0⟩, { Hart.idle with phase := .running, lanes := 1, vlcap := 512 })]
    nextLaunch := 1
    cur := ⟨0, 0, 0⟩ }
/-- The same with its hart changed. -/
def st (f : Hart → Hart) : State := base.setMe (f base.me)
/-- The same with its core changed too. -/
def stc (f : Hart → Hart) (c : Core → Core) : State := (st f).setCore 0 0 (c base.myCore)
/-- The same in supervisor mode. -/
def sup (f : Hart → Hart) : State := st fun h => f { h with sup := true }
/-- The same with an instruction word in slot 0 of its line. -/
def text (word : Nat) : State := { base with mem := base.mem.puts (hbmKey 1 0x30000) (toBytes 64 (instrLine 96 word).toNat) }
/-- s1 holds a. -/
def s1 (a : Dbl) (h : Hart) : Hart := h.setS 1 a
/-- s2 holds a. -/
def s2 (a : Dbl) (h : Hart) : Hart := h.setS 2 a
def s3 (a : Dbl) (h : Hart) : Hart := h.setS 3 a
def s4 (a : Dbl) (h : Hart) : Hart := h.setS 4 a

/-! A pair whose second part is `ok`, or an error. -/
def okOf {ε α : Type} (d : α) : Except ε α → α
  | .ok x => x
  | .error _ => d
def isOk {ε α : Type} : Except ε α → Bool
  | .ok _ => true
  | .error _ => false
def errOf {ε α : Type} (d : ε) : Except ε α → ε
  | .ok _ => d
  | .error x => x
theorem pair_ok {α ε β : Type} (d : β) (r : α × Except ε β) (h : isOk r.2 = true) : r = (r.1, .ok (okOf d r.2)) := by
  obtain ⟨a, b | b⟩ := r
  · cases h
  · rfl
theorem pair_err {α ε β : Type} (d : ε) (r : α × Except ε β) (h : isOk r.2 = false) : r = (r.1, .error (errOf d r.2)) := by
  obtain ⟨a, b | b⟩ := r
  · rfl
  · cases h

/-! ## Ill-formed terms (R48 to R50, R128, R140, R153, R242, R255): one for each kind of check -/

theorem test_wf_guard : (Instr.nop ⟨⟨.reg false 8, .always⟩⟩).wf = false ∧ (Instr.nop ⟨⟨.reg true 7, .always⟩⟩).wf = true := by decide
theorem test_wf_xguard : (Instr.vnot ⟨⟨⟨.reg false 24, .always⟩, 0⟩, .v 1, .v 2, 0⟩).wf = false
    ∧ (Instr.vnot ⟨⟨⟨.reg false 23, .always⟩, 0⟩, .v 1, .v 2, 0⟩).wf = true := by decide
theorem test_wf_csr_source : (Instr.csrw ⟨g0, .vl, .reg 0⟩).wf = false ∧ (Instr.csrset ⟨g0, .vl, .reg 0⟩).wf = false
    ∧ (Instr.csrclr ⟨g0, .vl, .reg 0⟩).wf = false ∧ (Instr.csrw ⟨g0, .vl, .imm 0⟩).wf = true := by decide
theorem test_wf_load_order : (Instr.ldw ⟨g0, 1, 2, .none, .ord .rel .core, 0⟩).wf = false
    ∧ (Instr.ldw ⟨g0, 1, 2, .none, .ord .acq .core, 0⟩).wf = true := by decide
theorem test_wf_store_order : (Instr.stw ⟨g0, 1, 2, .none, .ord .acq .core, 0⟩).wf = false
    ∧ (Instr.stw ⟨g0, 1, 2, .none, .ord .rel .core, 0⟩).wf = true := by decide
theorem test_wf_one_queue_twice : (Instr.vstx ⟨g0, 1, 0, 0, .none, 2, 0⟩).wf = false ∧ (Instr.vstsx ⟨g0, 1, 1, 1, 2, 0⟩).wf = false
    ∧ (Instr.vamo ⟨g0, none, 1, 2, 1, 1, false, 0⟩).wf = false ∧ (Instr.nbadd ⟨g0, 1, 2, 0, 0, false⟩).wf = false
    ∧ (Instr.nbopt ⟨g0, 1, 2, 3, 1, 1, false⟩).wf = false := by decide
theorem test_wf_clred_root : (Instr.clred ⟨g0, 1, 2, 3, 4, false, 0, false, 1⟩).wf = false
    ∧ (Instr.clred ⟨g0, 1, 2, 3, 4, false, 0, true, 1⟩).wf = true := by decide
theorem test_wf_sources : (Instr.vadd ⟨x0, .v 1, .lq 2, .lq 2, 0⟩).wf = false ∧ (Instr.vfma ⟨x0, .v 1, .lq 0, .lq 1, .lq 0, 5⟩).wf = false
    ∧ (Instr.vfma ⟨x0, .v 1, .lq 0, .lq 1, .lq 1, 5⟩).wf = false ∧ (Instr.vcmp ⟨x0, 1, .lq 0, .vec (.lq 0), .eq, 0⟩).wf = false
    ∧ (Instr.vfcmp ⟨x0, 1, .lq 0, .vec (.lq 0), .eq, 5⟩).wf = false ∧ (Instr.vqsc ⟨x0, .v 1, .lq 3, .vec (.lq 3), 5⟩).wf = false
    ∧ (Instr.opa ⟨x0, 0, .lq 1, .lq 1, 5⟩).wf = false ∧ (Instr.opas ⟨x0, 0, .lq 1, .lq 1, 0, 5⟩).wf = false := by decide
theorem test_wf_destinations : (Instr.vsort ⟨x0, .sq 0, .sq 0, .v 1, .v 2, 2, 0⟩).wf = false
    ∧ (Instr.vsort ⟨x0, .sq 0, .sq 1, .v 1, .v 2, 2, 0⟩).wf = true := by decide
theorem test_wf_masks : (Instr.mpopc ⟨x0, 24⟩).wf = false ∧ (Instr.mffs ⟨x0, 31⟩).wf = false ∧ (Instr.mffe ⟨x0, 24⟩).wf = false
    ∧ (Instr.mlog ⟨x0, 1, 24, 2, 0⟩).wf = false ∧ (Instr.mlog ⟨x0, 1, 2, 24, 0⟩).wf = false ∧ (Instr.vlbc ⟨x0, 24, 1, 2, .lt⟩).wf = false
    ∧ (Instr.vsel ⟨x0, .v 1, .v 2, .v 3, 24, 0⟩).wf = false ∧ (Instr.vcompr ⟨x0, .v 1, .v 2, 24, 0⟩).wf = false
    ∧ (Instr.vexpnd ⟨x0, .v 1, .v 2, 24, 0⟩).wf = false ∧ (Instr.vcomb ⟨x0, .v 1, 24, .v 2, .v 3, 5, 0⟩).wf = false
    ∧ (Instr.opas ⟨x0, 0, .v 1, .v 2, 24, 5⟩).wf = false ∧ (Instr.mpopc ⟨x0, 23⟩).wf = true := by decide
theorem test_wf_widths : (Instr.mpfx ⟨x0, .v 1, 2, 0⟩).wf = false ∧ (Instr.vconf ⟨x0, .v 1, .v 2, 0⟩).wf = false
    ∧ (Instr.vhash ⟨x0, .v 1, .v 2, .v 3, 1⟩).wf = false ∧ (Instr.vxhash ⟨x0, .v 1, .v 2, 5, 1⟩).wf = false
    ∧ (Instr.vcomb ⟨x0, .v 1, 2, .v 2, .v 3, 5, 3⟩).wf = false := by decide
theorem test_wf_cbst : (Instr.cbst ⟨x0, .xq, 3, 2⟩).wf = false ∧ (Instr.cbst ⟨⟨⟨.reg false 1, .always⟩, 0⟩, .xq, 3, 3⟩).wf = false
    ∧ (Instr.cbst ⟨x0, .xq, 3, 3⟩).wf = true := by decide
theorem test_wf_tscale : (Instr.tscale ⟨x0, 0, true, .s 4, 5⟩).wf = false ∧ (Instr.tscale ⟨x0, 0, false, .s 4, 5⟩).wf = true := by decide
theorem test_wf_reserved : (Instr.tlbinv ⟨g0, 4, 3⟩).wf = false ∧ (Instr.tlbinv ⟨g0, 4, 2⟩).wf = true
    ∧ (Instr.vamo ⟨g0, none, 1, 2, 0, 1, true, 7⟩).wf = false ∧ (Instr.vamo ⟨g0, none, 1, 2, 0, 1, false, 7⟩).wf = true
    ∧ (Instr.clred ⟨g0, 1, 2, 3, 4, true, 0, false, 0⟩).wf = false ∧ (Instr.clred ⟨g0, 1, 2, 3, 4, true, 1, false, 0⟩).wf = true := by decide

/-! ## Decoding: words written out from the tables of the spec -/

/-- The words that the spec prints for STRIP (R127), CMP (R133), PDEC (R269), VSLIDEDN (R153) and CBLD (R208). -/
theorem test_decode_printed_words :
    decode false none 0x0057DF061028000025FFFF60#96 = .ok (.strip ⟨g0, 3, 4, 5, 0, 0, 2, 2, 0, 0, 0xFFFFB⟩)
    ∧ decode false none 0x1287DF022000000000000020#96 = .ok (.cmp ⟨g0, 1, 8, 0, .ne⟩)
    ∧ decode false none 0x4017DF0A1030000000000300#96 = .ok (.pdec ⟨g0, 5, 4, 6, .none, 3, false, false⟩)
    ∧ decode true none 0x7117DF830480000000000140#96 = .ok (.vslidedn ⟨x0, .v 1, .v 1, 16, 2, 1⟩)
    ∧ decode true none 0x9087DF018060000007816400#96 = .ok (.cbld ⟨0, some (.lq 0), 12, 2, 0x0B, 0, 15⟩) := by decide +kernel
/-- All words of KnownWordsDecode. -/
theorem test_known_words : Obligations.KnownWordsDecode := by unfold Obligations.KnownWordsDecode; decide +kernel
/-- A word of each side in the other side's slot; a reserved group; one queue in two fields; code 0x67 (R50, R56); TLBINV with k = 3 (R350). -/
theorem test_decode_rejects :
    decode true none 0x1287DF022000000000000020#96 = .error .illegalInstr
    ∧ decode false none 0x7117DF830480000000000140#96 = .error .illegalInstr
    ∧ decode false none 0xB007DF000000000000000000#96 = .error .illegalInstr
    ∧ decode true none 0xA017DF018300028000000000#96 = .error .illegalOperand
    ∧ decode false none 0x0117DF001000000000000060#96 = .error .illegalInstr := by decide +kernel
/-- TRAP #5, BKPT #1 and TLBINV s4, #2: the literals of their encodings in the statements. -/
theorem test_encode_system :
    encode (.trap ⟨g0, 5⟩) = some (none, 0x0077DF000000000000000000#96 + (5#32).setWidth 96 * 32)
    ∧ encode (.bkpt ⟨g0, 1⟩) = some (none, 0x0137DF000000000000000000#96 + (1#32).setWidth 96 * 32)
    ∧ encode (.tlbinv ⟨g0, 4, 2⟩) = some (none, 0x0117DF000000000000000000#96 + (4#6).setWidth 96 * 2 ^ 58 + (2#2).setWidth 96 * 32)
    ∧ decode false none 0x0117DF001000000000000040#96 = .ok (.tlbinv ⟨g0, 4, 2⟩) := by decide +kernel

/-! ## Witnesses -/

/-- The page check of an access to a byte range, and the pages it gives. -/
def chk (s : State) (acc : Acc) (a n : Nat) : State × Except AccFault (List TlbEntry) := checkRange s (s.partOf s.cur) s.me.root s.me.sup acc a n
def pgs (s : State) (acc : Acc) (a n : Nat) : List TlbEntry := okOf [] (chk s acc a n).2
theorem chk_ok {s : State} {acc : Acc} {a n : Nat} (h : isOk (chk s acc a n).2 = true) : chk s acc a n = ((chk s acc a n).1, .ok (pgs s acc a n)) :=
  pair_ok _ _ h
/-- No load of the hart is in flight. -/
abbrev NoPools (h : Hart) : Prop := ∀ q : LQ, ∀ e ∈ h.lq[q.toNat]'(q.isLt), e.pool = none
theorem no_rows {h : Hart} (k : NoPools h) (F : Pool → Prop) : ¬RowsLeft h F := by
  rintro ⟨q, e, he, p, hp, -⟩
  rw [k q e he] at hp
  cases hp
/-- It is not for a leased line. -/
def noLine : Option Wait → Bool
  | some (.lease _) => false
  | some (.leaseGrant _) => false
  | _ => true
/-- Nothing is posted, pooled or in error, and the rest of `Unheld`. -/
abbrev FreeAt (s : State) (pgs : List TlbEntry) (write : Bool) (a n : Nat) : Prop :=
  s.posted = [] ∧ interlocked s.myCore s.cur.h false a (a + n) = false ∧ NoPools s.me ∧ (noLine s.me.wait = true ∧ s.bad = [] ∧ s.badL2 = [] ∧ s.badL1 = [])
    ∧ ∀ i < n, (pageOf pgs (a + i)).isLocal = true ∧ leased s s.cur write (keyAt s pgs (a + i) / 64) = false
      ∧ poolReads s s.cur [keyAt s pgs (a + i)] = false
      ∧ (write = true → crossFar s s.cur [keyAt s pgs (a + i) / 64] = none
        ∧ ∀ l ∈ crossLines (s.part (s.partOf s.cur)).dies (pageOf pgs (a + i)) (a + i), leasedFar s s.cur l = false)
theorem no_behind {s : State} (h : s.posted = []) (p : Posted) : ¬Behind s p := by simp [Behind, h]
theorem no_wait {s : State} (h : noLine s.me.wait = true) (l : Nat) : behind s s.cur l = false := by
  have k : (s.hart s.cur).wait.any (Wait.forLine l) = false := by
    change noLine (s.hart s.cur).wait = true at h
    cases e : (s.hart s.cur).wait with
    | none => rfl
    | some w => cases w <;> simp_all [noLine, Wait.forLine]
  simp [behind, k]
theorem unheld {s : State} {pgs : List TlbEntry} {w : Bool} {a n : Nat} (h : FreeAt s pgs w a n) : Unheld s pgs w a n :=
  ⟨h.2.1, no_behind h.1, no_wait h.2.2.2.1.1, fun _ => no_rows h.2.2.1 _, fun i hi =>
    ⟨(h.2.2.2.2 i hi).1, (h.2.2.2.2 i hi).2.1, (h.2.2.2.2 i hi).2.2.1, by simp [NoError, h.2.2.2.1.2], (h.2.2.2.2 i hi).2.2.2⟩⟩
theorem reaches {s : State} {acc : Acc} {w : Bool} {a n : Nat} (h : isOk (chk s acc a n).2 = true) (k : FreeAt s (pgs s acc a n) w a n) :
    Reaches s (chk s acc a n).1 acc w a n (pgs s acc a n) := ⟨chk_ok h, unheld k⟩
/-- The instruction that a fetch gives, and the state with it. -/
def fetched : Fetched → Option (State × Instr)
  | .run s i => some (s, i)
  | .ended _ => none
theorem fetched_run {f : Fetched} {d : State × Instr} (h : (fetched f).isSome = true) :
    f = .run ((fetched f).getD d).1 ((fetched f).getD d).2 := by
  cases f with
  | run s i => rfl
  | ended s => cases h
def lineOf : LineGot → Line
  | .line l => l
  | .trap _ _ => 0
  | .dfault _ => 0
def isLine : LineGot → Bool
  | .line _ => true
  | .trap _ _ => false
  | .dfault _ => false
theorem line_eq (r : State × LineGot) (h : isLine r.2 = true) : r = (r.1, .line (lineOf r.2)) := by
  obtain ⟨a, l | ⟨c, v⟩ | d⟩ := r
  · rfl
  · cases h
  · cases h

/-- The word of an instruction without an extension. -/
def wordOf (i : Instr) : Nat := match encode i with
  | some (_, w) => w.toNat
  | none => 0

/-- StepRunsTheDecodedInstruction: the instruction placed as the next is fetched, and the step runs in the kernel. -/
theorem wit_step_runs :
    (State.reset.withFetchWord 96 0x0007DF000000000000000000).agenda = [.issue ⟨0, 0, 0⟩]
    ∧ canIssue { State.reset.withFetchWord 96 0x0007DF000000000000000000 with agenda := [], cur := ⟨0, 0, 0⟩ } ⟨0, 0, 0⟩ = true
    ∧ ((fetched (fetch { State.reset.withFetchWord 96 0x0007DF000000000000000000 with agenda := [], cur := ⟨0, 0, 0⟩ } ⟨0, 0, 0⟩)).map
        (·.2)) = some (.nop ⟨g0⟩)
    ∧ (∃ e, { base with agenda := [.event e] }.agenda = [.event e]) ∧ { base with agenda := [.pass 5] }.agenda = [.pass 5] := by
  refine ⟨by decide +kernel, by decide +kernel, by decide +kernel, ⟨.powerLoss, rfl⟩, rfl⟩
/-- The next position after a step, where it answers a next state. -/
def after {α : Type} (d : α) (o : Host.Outcome State Fault Refusal) (f : State → α) : α :=
  match o with
  | .next t => f t
  | .fault _ => d
  | .refused _ => d
theorem test_step_moves_on :
    after 0 (Machine.step (State.reset.withFetchWord 96 0x0007DF000000000000000000)) (fun t => (t.hart ⟨0, 0, 0⟩).pc) = 12 := by decide +kernel

/-- FetchFindsInstruction: the slot of the position, the slot after an extension, and the last slot after empty ones. -/
theorem wit_fetch_finds :
    (let l := instrLine 96 0x0007DF000000000000000000
     lineOk l = true ∧ (tmpl l 0).toNat < 2 ∧ (0 = 0 % 64 / 12) ∧ decode (tmpl l 0 == 1) none (slotWord l 0) = .ok (.nop ⟨g0⟩))
    ∧ (let l := instrLine 192 (wordOf (.moviX ⟨g0, 5, 0⟩) * 2 ^ 96 + 0xFEDCBA9876543210)
       lineOk l = true ∧ tmpl l 0 = 2 ∧ (tmpl l 1).toNat < 2
         ∧ decode (tmpl l 1 == 1) (some (slotWord l 0)) (slotWord l 1) = .ok (.moviX ⟨g0, 5, 0xFEDCBA9876543210⟩))
    ∧ (let l : Line := placeLine 3 3 0
       (tmpl l 0 = 3 ∧ tmpl l 1 = 3 ∧ tmpl l 2 = 3 ∧ tmpl l 3 = 3)
       ∧ (let l := (l ^^^ BitVec.ofNat 512 (2 ^ 480 * (2 ^ 22 * 3))) ||| BitVec.ofNat 512 (0x0007DF000000000000000000 * 2 ^ 384)
          let l := (l &&& BitVec.ofNat 512 (2 ^ 504 - 1)) ||| ((lineParity (l &&& BitVec.ofNat 512 (2 ^ 504 - 1))).zeroExtend 512 <<< (504 : Nat))
          lineOk l = true ∧ (tmpl l 4).toNat < 2 ∧ (∀ j, 0 ≤ j → j < 4 → tmpl l j = 3)
            ∧ decode (tmpl l 4 == 1) none (slotWord l 4) = .ok (.nop ⟨g0⟩))) := by decide +kernel
/-- LineIsReadFromMemoryAndChecked: a line of the text page, and one whose reserved bit 480 is set. -/
theorem wit_line_read :
    (let s := text 0x0007DF000000000000000000
     s.wbuf = [] ∧ s.bad = [] ∧ s.badL2 = [] ∧ s.badL1 = [] ∧ s.notLive = [] ∧ (s.hart s.cur).line = none
       ∧ isOk (checkByte s (s.partOf s.cur) (s.hart s.cur).root (s.hart s.cur).sup .fetch 0).2 = true)
    ∧ (let s := { base with mem := base.mem.write (hbmKey 1 0x3003C) 1 }
       let e := okOf (noEntry 0 0) (checkByte s (s.partOf s.cur) (s.hart s.cur).root (s.hart s.cur).sup .fetch 0).2
       isOk (checkByte s (s.partOf s.cur) (s.hart s.cur).root (s.hart s.cur).sup .fetch 0).2 = true ∧ e.isLocal = true ∧ e.vpn = 0
         ∧ lineOk (BitVec.ofNat 512 (ofBytes ((List.range 64).map fun i => s.mem.read (e.key (s.part (s.partOf s.cur)).dies (0 + i))))) = false) := by decide +kernel

/-- DecodeOfEncodeIsTheInstruction, WrongSideIsIllegal: one of each side. -/
theorem wit_encode :
    (Instr.addi ⟨⟨.reg true 7, .always⟩, 63, 0, .ext 5⟩).wf = true ∧ (encode (.addi ⟨⟨.reg true 7, .always⟩, 63, 0, .ext 5⟩)).isSome = true
    ∧ (Instr.vfma ⟨x0, .sq 1, .lq 0, .lq 1, .v 31, 63⟩).wf = true ∧ (encode (.vfma ⟨x0, .sq 1, .lq 0, .lq 1, .v 31, 63⟩)).isSome = true := by
  decide +kernel
/-- EveryStepKeepsMemoryCanonical, NothingIsRefused: the state after reset steps; a hart that runs, none that does, and an event. -/
theorem wit_sound : State.reset.Sound ∧ (∃ t, Machine.step State.reset = .next t) ∧ base.me.phase = .running ∧ State.reset.me.phase ≠ .running
    ∧ (encode (.nop ⟨g0⟩)).isSome = true ∧ encode .powerLoss = none := by
  refine ⟨⟨by decide, by decide⟩, ⟨_, rfl⟩, by decide +kernel, by decide +kernel, by decide +kernel, rfl⟩
/-- FalseGuardHasNoEffect: p1 is false, for every instruction of an A-side guard field; p0 negated is false too. -/
theorem wit_false_guard :
    Live base ∧ base.me.guards ⟨.reg false 1, .always⟩ = false ∧ base.me.guards ⟨.always, .reg true 0⟩ = false
    ∧ aGuards (.vld ⟨⟨.reg false 1, .always⟩, 0, 0, 0, .none, 0, false, 0⟩) = some ⟨.reg false 1, .always⟩
    ∧ base.me.sup = false ∧ needsSup (.vld ⟨⟨.reg false 1, .always⟩, 0, 0, 0, .none, 0, false, 0⟩) = false := by unfold Live; decide +kernel
theorem wit_modes : UserMode base ∧ SupMode (sup id) ∧ needsSup (.csrr ⟨g0, 1, .tvec⟩) = true ∧ needsSup (.eret ⟨g0⟩) = true
    ∧ needsUser (.xsync ⟨g0⟩) = true ∧ (Instr.vnot ⟨x0, .v 1, .v 2, 0⟩).xside = true := by unfold UserMode SupMode Live; decide +kernel
/-- XSideStandsStillInSupervisorMode: nothing left; and a posted store in flight. -/
def posting (f : Hart → Hart) (h : HartId) : State := { st f with posted := [{ id := 0, h := h, mod := none, pa := 0, bytes := [] }] }
/-- A pooled lookup with rows to read. -/
def pooling (h : Hart) : Hart := { h with lq := #v[[{ pool := some ⟨0, false, 1, [(0, 1)], [], [], [0], false, 0⟩ }], [], [], []] }
theorem rows_left (f : Hart → Hart) (h : (f base.me).lq = (pooling base.me).lq) : RowsLeft (st f).me fun _ => True := by
  have h' : (st f).me.lq = (pooling base.me).lq := by rw [← h]; rfl
  refine ⟨0, { pool := some ⟨0, false, 1, [(0, 1)], [], [], [0], false, 0⟩ }, ?_, _, rfl, by simp, trivial⟩
  simp [h', pooling]
theorem wit_sup_exit :
    ((sup id).wbuf = [] ∧ ((sup id).hart ⟨0, 0, 0⟩).sup = true
      ∧ (∀ e ∈ (sup id).myCore.engines, e.hid ≠ (sup id).cur.h) ∧ (sup id).me.nb = []) ∧ (∀ p, ¬Behind (sup id) p)
    ∧ (∃ p, Behind (posting id ⟨0, 0, 0⟩) p) ∧ ∃ p, Behind (posting (fun h => { h with seen := [0] }) ⟨0, 0, 1⟩) p :=
  ⟨by decide +kernel, no_behind rfl, ⟨_, List.mem_singleton.2 rfl, .inl rfl⟩, ⟨_, List.mem_singleton.2 rfl, .inr (by decide +kernel)⟩⟩
/-- DivisionNeverTraps: a divisor 0, and −2^63 by −1. -/
theorem wit_division :
    (let s := st (s1 0x8000000000000000#64 ∘ s2 (-1))
     Live s ∧ s.me.guards g0 = true ∧ (s.me.s 1).toInt = -2 ^ 63 ∧ (s.me.s 2).toInt = -1) ∧ (st (s1 7)).me.s 2 = 0
    ∧ thirdU (.imm 0) = 0 := by unfold Live; decide +kernel
/-- The scalar forms: a live hart and no guard; p1 false for SEL. -/
theorem wit_scalar : Live base ∧ base.me.guards g0 = true ∧ (base.me.pr 1 ^^ true) = true := by unfold Live; decide +kernel

/-- A line at 0 whose slot 0 holds a NOP and has its target bit. -/
def target0 (f : Hart → Hart) : State := { st f with mem := base.mem.puts (hbmKey 1 0x30000) (toBytes 64
  (let l : Line := instrLine 96 0x0007DF000000000000000000 ||| BitVec.ofNat 512 (2 ^ 489)
   let l := l &&& BitVec.ofNat 512 (2 ^ 504 - 1)
   l ||| ((lineParity l).zeroExtend 512 <<< (504 : Nat))).toNat) }
/-- TransfersReachALegalTarget: slot 0 of a line with its target bit; IllegalTargetFaults: below 0, no slot, at 2^55, and no target bit. -/
theorem wit_targets :
    (let s := target0 id
     let r := readLine s s.cur 0
     Live s ∧ LegalTarget s r.1 0) ∧ IllegalTarget base (-12) ∧ IllegalTarget base 4 ∧ IllegalTarget base (2 ^ 55)
    ∧ IllegalTarget (text 0x0007DF000000000000000000) 0 ∧ relative 0 (-1) = -16 := by
  refine ⟨⟨⟨by decide +kernel, by decide +kernel⟩, by decide, by decide, by decide, _, line_eq _ (by decide +kernel), by decide +kernel, by decide +kernel⟩,
    .inl (by decide), .inr (.inr (.inl (by decide))), .inr (.inl (by decide)), .inr (.inr (.inr ⟨_, _, line_eq _ (by decide +kernel), .inl (by decide +kernel)⟩)),
    by decide⟩
/-- StripAndVsetlGrantTheLength: an empty strip ends, and one of 5 elements goes on; s4 stands in two fields, with nothing left and
with 5 elements left. -/
theorem wit_strip :
    (let x : Strip := ⟨g0, 3, 4, 4, 0, 0, 2, 2, 0, 0, 0⟩
     ¬stripDistinct x ∧ (let s := st (s3 0)
       Live s ∧ s.me.guards x.g = true ∧ (s.me.s x.n - s.me.vl).toInt ≤ 0)
     ∧ (let s := target0 (s3 5)
        Live s ∧ s.me.guards x.g = true ∧ 0 < (s.me.s x.n - s.me.vl).toInt
          ∧ LegalTarget s (readLine s s.cur 0).1 (relative s.me.pc x.off.toInt)))
    ∧ stripDistinct ⟨g0, 3, 4, 5, 0, 0, 2, 2, 0, 0, 0xFFFFB⟩ ∧ ((st (s3 0)).me.s 3 - (st (s3 0)).me.vl).toInt ≤ 0
    ∧ 0 < ((st (s3 5)).me.s 3 - (st (s3 5)).me.vl).toInt := by
  unfold stripDistinct Live
  exact ⟨⟨by decide +kernel, by decide +kernel, by decide +kernel, by decide +kernel, by decide +kernel,
      by decide +kernel, by decide +kernel, by decide +kernel, _, line_eq _ (by decide +kernel), by decide +kernel, by decide +kernel⟩,
    by decide +kernel⟩
/-- NopYieldFenceXsyncComplete, ExitRetiresTheHart, EretReturnsToTheTrappedPosition. -/
theorem wit_plain :
    RowsLeft (st pooling).me (fun _ => True) ∧ ¬RowsLeft base.me (fun _ => True) ∧
    ((∀ q : LQ, ∀ e ∈ base.me.lq[q.toNat]'(q.isLt), e.flight = [] ∧ e.pool = none) ∧ base.me.win = []
      ∧ (∀ e ∈ base.myCore.engines, e.hid ≠ base.cur.h) ∧ base.me.nb = []) ∧ (∀ p, ¬Behind base p)
    ∧ (∃ p, Behind (posting id ⟨0, 0, 0⟩) p)
    ∧ ∃ (q : LQ) (e : QEntry), e ∈ (st fun h => { h with lq := #v[[{ flight := [(0, 1)] }], [], [], []] }).me.lq[q.toNat]'(q.isLt) ∧ (e.flight ≠ [] ∨ e.pool ≠ none) :=
  ⟨rows_left pooling rfl, no_rows (by decide +kernel) _, by decide +kernel, no_behind rfl, ⟨_, List.mem_singleton.2 rfl, .inl rfl⟩, 0, _, List.mem_singleton.2 rfl, .inl (by simp)⟩
def entry (i : Instr) : XEntry := { i := i, sa := 0, fw := 0, vl := 4, shp := 0, ffe := 0, seed := 0, icount := 0, seq := 0 }
theorem wit_eret :
    (let s := sup fun h => { h with tside := true, teix := 3, stopT := 1, win := [entry (.tzero ⟨x0, 0⟩)], claim := some ⟨0, 0, none, 0, 0, 0, false⟩ }
     SupMode s ∧ s.me.win = entry (.tzero ⟨x0, 0⟩) :: [] ∧ s.me.tside = true ∧ s.me.stopT < s.me.teix.toNat ∧ s.me.nest = 0
       ∧ ∀ c, s.me.claim = some c → c.pc = s.me.tpc.toNat ∨ s.me.tpm = true)
    ∧ (let s := sup fun h => { h with tpc := 12, claim := some ⟨0, 0, none, 0, 0, 0, false⟩ }
       s.me.claim = some ⟨0, 0, none, 0, 0, 0, false⟩ ∧ (0 : Nat) ≠ s.me.tpc.toNat ∧ s.me.tpm = false)
    ∧ (let s := sup fun h => { h with tpm := true, nest := 1, arrived := some (12, (1, 1), 1), claim := some ⟨0, 0, none, 0, 0, 0, false⟩ }
       0 < s.me.nest ∧ s.me.tpm = true ∧ s.me.arrived = some (12, (1, 1), 1)) := by
  refine ⟨⟨⟨⟨by decide +kernel, by decide +kernel⟩, by decide +kernel⟩, by decide +kernel, by decide +kernel, by decide +kernel, by decide +kernel, ?_⟩,
    by decide +kernel, by decide +kernel⟩
  intro c h
  have h : some c = some ⟨0, 0, none, 0, 0, 0, false⟩ := by rw [← h]; decide +kernel
  cases h
  exact .inl (by decide +kernel)
/-- CSRs: one of each mode, a written one of each kind, and one that is read only. -/
theorem wit_csrs :
    Live base ∧ (isTrapCsr .vl = true → base.me.sup = true) ∧ (isTrapCsr .tvec = true → (sup id).me.sup = true)
    ∧ readOnly base.me.sup .vl = false ∧ readOnly (sup id).me.sup .icount = false ∧ readOnly base.me.sup .icount = true
    ∧ (sup fun h => { h with stopT := 1, boundT := 5 }).me.stopT ≤ 5 := by unfold Live; decide +kernel
/-- SETBND: another live hart; a window entry; boundaries that break R182; boundaries that satisfy it. -/
theorem wit_setbnd :
    (let s := { sup id with launches := [(0, { Launch.idle with phase := .running, rec_ := { Record.zero with harts := 2 } })] }
     ¬∀ h < (s.launch 0).rec_.harts.toNat, h ≠ s.cur.h → (s.hart ⟨0, 0, h⟩).phase = .exited)
    ∧ (let s := sup fun h => { h with win := [entry (.tzero ⟨x0, 0⟩)] }
       (∀ h < (s.launch 0).rec_.harts.toNat, h ≠ s.cur.h → (s.hart ⟨0, 0, h⟩).phase = .exited) ∧ s.me.win ≠ [])
    ∧ (sup fun h => { h with nb := [⟨0, .add false ⟨0, noEntry 0 0⟩ 0, []⟩] }).me.nb ≠ []
    ∧ SupMode (sup id) ∧ (sup id).mem.wf ∧ (sup id).myCore.engines = [] ∧ ¬BoundsOk 0x6000 0x7000 0x10000 1 512 0 0
    ∧ BoundsOk 0x7000 0x8000 0x10000 1 512 0x8000 0x100 := by
  unfold SupMode Live BoundsOk; decide +kernel

theorem plain_read {s : State} {c : Bool} {k : Nat} (h : s.uncachedW = [] ∧ s.cachedW = []) (e : engDest s s.cur k = false) : PlainRead s c k :=
  ⟨by simp [h.1], fun _ => .inl (by simp [h.2]), e⟩
theorem coherent {s : State} {pgs : List TlbEntry} {a n : Nat} (h : s.uncachedW = [] ∧ s.cachedW = [])
    (e : ∀ i < n, engDest s s.cur (keyAt s pgs (a + i)) = false) : Coherent s pgs a n := fun i hi => plain_read h (e i hi)

/-! Accesses: a plain one on page 1, at its first and last byte, and over the boundary to page 2; an ordered one. -/

/-- ScalarLoadsReadTheirBytes, ScalarStoresWriteTheirBytes. -/
theorem wit_scalar_access :
    (let s := st (s1 0x1FFFC#64)
     Live s ∧ s.mem.wf ∧ CountOk s.me .none ∧ addrOf s 1 (0 : BitVec 32) = 0x1FFFC
       ∧ Reaches s (chk s .load 0x1FFFC 8).1 .load false 0x1FFFC 8 (pgs s .load 0x1FFFC 8) ∧ Coherent s (pgs s .load 0x1FFFC 8) 0x1FFFC 8
       ∧ Reaches s (chk s .store 0x1FFFC 8).1 .store true 0x1FFFC 8 (pgs s .store 0x1FFFC 8))
    ∧ (let s := st (s1 0x10008#64 ∘ s2 255)
       CountOk s.me (.ct 2) ∧ addrOf s 1 (-8 : BitVec 32) % 8 = 0
         ∧ Reaches s (chk s .load 0x10000 1).1 .load false 0x10000 1 (pgs s .load 0x10000 1)) := by
  refine ⟨⟨⟨by decide +kernel, by decide +kernel⟩, by decide +kernel, fun _ h => (by cases h), by decide +kernel,
    reaches (by decide +kernel) (by decide +kernel), coherent (by decide +kernel) (by decide +kernel),
    reaches (by decide +kernel) (by decide +kernel)⟩, fun _ h => ?_, by decide +kernel, reaches (by decide +kernel) (by decide +kernel)⟩
  cases h
  decide +kernel
/-- ScalarAccessesTrap: counts 0 and 256, a misaligned ordered access, a page without entry at the second part, and a supervisor's page. -/
theorem wit_scalar_traps :
    base.me.s 2 = 0 ∧ 255 < ((st (s2 256)).me.s 2).toNat ∧ addrOf (st (s1 0x10001#64)) 1 (0 : BitVec 32) % 2 ≠ 0
    ∧ errOf (0, 0) (chk base .load 0x5FFFF 4).2 = (7, 0x5FFFF) ∧ errOf (0, 0) (chk (sup id) .store 0x5FFFF 4).2 = (6, 0x60000)
    ∧ isOk (chk base .load 0x5FFFF 4).2 = false ∧ isOk (chk (sup id) .store 0x5FFFF 4).2 = false
    ∧ isOk (check67 base base.cur .both 0x60001 4).2 = false ∧ isOk (check67 base base.cur .both 0x10001 4).2 = true := by decide +kernel
/-- AtomicsReadAndWriteOneElement: a double word. -/
theorem wit_atomic :
    (let s := st (s1 0x10008#64)
     addrOf s 1 (0 : BitVec 29) % 8 = 0 ∧ Reaches s (chk s .both 0x10008 8).1 .both true 0x10008 8 (pgs s .both 0x10008 8)
       ∧ Coherent s (pgs s .both 0x10008 8) 0x10008 8)
    ∧ Orderable base (.ord .ar .package) ∧ ¬Orderable (st pooling) (.ord .rel .package) :=
  ⟨⟨by decide +kernel, reaches (by decide +kernel) (by decide +kernel), coherent (by decide +kernel) (by decide +kernel)⟩,
    fun _ => no_rows (by decide +kernel) _, fun h => h (by decide) (rows_left pooling rfl)⟩
/-- LeasesAreTakenAndEnded: lengths 15 and 65; an uncached page; a held line; four held lines; a free one; one that an engine command of
the hart holds a byte of, and one that another hart leases. -/
theorem wit_lease :
    (15#7).toNat < 16 ∧ 64 < (65#7).toNat ∧ 16 ≤ (16#7).toNat ∧ (64#7).toNat ≤ 64
    ∧ pteC (pageOf (pgs base .both 0x20000 1) 0x20000).pte = false
    ∧ isOk (chk base .both 0x20000 1).2 = true ∧ isOk (chk base .both 0x10040 1).2 = true
    ∧ pteC (pageOf (pgs base .both 0x10040 1) 0x10040).pte = true ∧ (pageOf (pgs base .both 0x10040 1) 0x10040).isLocal = true
    ∧ (let s := st fun h => { h with leases := [⟨0x401, 5, 9, 0, []⟩] }
       ∃ l ∈ s.me.leases.filter fun l => s.cycle < l.until_, l.vline = 0x10040 / 64)
    ∧ (let s := st fun h => { h with leases := [⟨1, 1, 9, 0, []⟩, ⟨2, 2, 9, 0, []⟩, ⟨3, 3, 9, 0, []⟩, ⟨4, 4, 9, 0, []⟩] }
       (∀ l ∈ s.me.leases.filter fun l => s.cycle < l.until_, l.vline ≠ 0x10040 / 64) ∧ 4 ≤ (s.me.leases.filter fun l => s.cycle < l.until_).length)
    ∧ interlocked base.myCore base.cur.h false (0x10040 / 64 * 64) (0x10040 / 64 * 64 + 64) = false
    ∧ (let e : Engine := { hid := 0, tag := 0, op := .fill 0x1007F 1 1 0, dPool := false, sPool := false, dPages := [], sPages := [],
                           ivl := [⟨false, 0x1007F, 0x10080⟩], seq := 0, dstBank := none, srcBank := none }
       let s := stc id fun c => { c with engines := [e] }
       interlocked s.myCore s.cur.h false (0x10040 / 64 * 64) (0x10040 / 64 * 64 + 64) = true)
    ∧ noLine base.me.wait = true ∧ base.posted = [] ∧ NoPools base.me
    ∧ crossFar base base.cur [keyAt base (pgs base .both 0x10040 1) (0x10040 / 64 * 64) / 64] = none
    ∧ leased base base.cur true (keyAt base (pgs base .both 0x10040 1) (0x10040 / 64 * 64) / 64) = false
    ∧ (∀ l ∈ crossLines (base.part (base.partOf base.cur)).dies (pageOf (pgs base .both 0x10040 1) 0x10040) 0x10040, leasedFar base base.cur l = false)
    ∧ leased { base with harts := base.harts ++ [(⟨0, 0, 1⟩, { Hart.idle with phase := .running, leases := [⟨0, keyAt base (pgs base .both 0x10040 1) 0x10040 / 64, 9, 0, []⟩] })] }
        base.cur true (keyAt base (pgs base .both 0x10040 1) (0x10040 / 64 * 64) / 64) = true := by decide +kernel
/-- StlcStoresUnderALease: a lease that lasts, one that has ended, and the access. -/
theorem wit_stlc :
    (let s := st fun h => { h with leases := [⟨0x400, 5, 9, 4, []⟩] }
     ∃ l ∈ s.me.leases, l.vline = 0x10000 / 64 ∧ s.cycle < l.until_)
    ∧ (let s := { st (fun h => { h with leases := [⟨0x400, 5, 9, 4, []⟩] }) with cycle := 9 }
       (∀ l ∈ s.me.leases, l.vline = 0x10000 / 64 → l.until_ ≤ s.cycle) ∧ s.mem.wf
         ∧ Reaches s (chk s .both 0x10000 8).1 .both true 0x10000 8 (pgs s .both 0x10000 8))
    ∧ isOk (check67 base base.cur .both 0x60001 4).2 = false ∧ isOk (check67 base base.cur .both 0x10001 4).2 = true ∧ 0x10001 % 4 ≠ 0
    ∧ isOk (check67 base base.cur .both 0x30000 4).2 = true ∧ (pageOf (okOf [] (check67 base base.cur .both 0x30000 4).2) 0x30000).isLocal = false :=
  ⟨by decide +kernel, ⟨by decide +kernel, by decide +kernel, reaches (by decide +kernel) (by decide +kernel)⟩, by decide +kernel, by decide +kernel, by decide, by decide +kernel, by decide +kernel⟩
/-- CacheMaintenanceChangesNoByte: an uncached page, a page of a peer, and a cacheable line nobody leases. -/
theorem wit_cache :
    pteC (pageOf (pgs base .load 0x20000 1) 0x20000).pte = false ∧ (pageOf (pgs base .load 0x30000 1) 0x30000).isLocal = false
    ∧ isOk (chk base .load 0x30000 1).2 = true ∧ base.bad = [] ∧ base.badL1 = [] ∧ base.badL2 = []
    ∧ (let e := pageOf (pgs base .load 0x10000 1) 0x10000
       let ks := lineAndCrossing 1 e 0x10000 false
       pteC e.pte = true ∧ e.isLocal = true ∧ noLine base.me.wait = true ∧ (∀ k ∈ ks, leasedFar base base.cur (k / 64) = false)
         ∧ (∀ k ∈ ks, mayDirty base k (fun _ => true) = false)
         ∧ ∃ k ∈ ks, leasedFar { base with harts := base.harts ++ [(⟨0, 1, 0⟩, { Hart.idle with leases := [⟨0, k / 64, 9, 0, []⟩] })] } base.cur (k / 64) = true) := by
  decide +kernel
/-- RemoteStoresArePostedAndLoadsWait: an element of a page of module 5, not answered yet, and answered. -/
theorem wit_remote :
    (let e := pageOf (pgs base .load 0x3FFF8 8) 0x3FFF8
     0x3FFF8 % 65536 + 8 ≤ 65536 ∧ isOk (chk base .load 0x3FFF8 8).2 = true ∧ isOk (chk base .store 0x3FFF8 8).2 = true ∧ e.isLocal = false
       ∧ e.isSelf base = false ∧ interlocked base.myCore base.cur.h false 0x3FFF8 (0x3FFF8 + 8) = false ∧ base.me.answers = []
       ∧ base.me.wait = none ∧ pteTier e.pte = 2 ∧ base.md.linkOk ≠ 0 ∧ stopping base base.cur = false ∧ readsOut base.me = false)
    ∧ (∀ p, ¬Behind base p) ∧ ({ base with md := { base.md with linkOk := 0 } } : State).md.linkOk = 0
    ∧ (st fun h => { h with answers := [(0, .reject)] }).me.answers = [(0, .reject)]
    ∧ (st fun h => { h with answers := [(0, .accept 7)] }).me.answers = [(0, .accept 7)] :=
  ⟨by decide +kernel, no_behind rfl, rfl, by decide +kernel, by decide +kernel⟩

/-! Vector accesses: vl = 3 words; rows and columns 1 × 3; a queue entry that holds three words. -/

/-- An entry of n elements of w bytes: element i holds i. -/
def words (w n : Nat) : QEntry := (List.range n).foldl (fun e i => e.put i w i) { width := w, issued := true, done := true }
/-- A hart at three elements, its base at page 1, with shape 1 × 3 and both store queues filled. -/
def vec (h : Hart) : Hart :=
  { s1 0x10000#64 h with vl := 3, shp := 0x30001, sq := #v[[words 4 3], [words 4 3]] }
/-- Its third word lies on page 5, which is a supervisor's. -/
def edge (h : Hart) : Hart := s1 0x4FFF8#64 (vec h)
def claimed (h : Hart) (t : Takes) (w : Nat) : Hart := okOf h (claimQueues h t w)
theorem claim_ok {h : Hart} {t : Takes} {w : Nat} (k : isOk (claimQueues h t w) = true) : claimQueues h t w = .ok (claimed h t w) := by
  unfold claimed
  revert k
  cases claimQueues h t w with
  | ok x => exact fun _ => rfl
  | error x => exact fun k => nomatch k
theorem triple {α β γ : Type} (r : α × β × γ) {c : γ} (h : r.2.2 = c) : r = (r.1, r.2.1, c) := by
  obtain ⟨a, b, d⟩ := r
  cases h
  rfl
/-- The check phase of the three elements of a load, or a store, in the unit form. -/
def phase (acc : Acc) (s : State) (h : Hart) (skip : Nat → Bool) : State × List Elem × Option (Nat × Nat × Dbl) :=
  checkPhase skip (checkElem acc 4 fun i => virt (baseOf s 1 (0 : BitVec 29) + spanOf s.me 0 false 4 i)) s.me.vl.toNat 0 (s.setMe h)
/-- Nothing is posted, and the rest of `ElemsFree`. -/
abbrev FreeElems (s : State) (els : List Elem) (write read : Bool) (w : Nat) : Prop :=
  s.posted = [] ∧ noLine s.me.wait = true ∧ (s.bad = [] ∧ s.badL1 = [] ∧ s.badL2 = []) ∧ NoPools s.me ∧ (read = true → s.uncachedW = [] ∧ s.cachedW = [])
    ∧ ∀ y ∈ els, y.2.2.isLocal = true ∧ interlocked s.myCore s.cur.h false y.2.1 (y.2.1 + w) = false
      ∧ (∀ l ∈ crossLines (s.part (s.partOf s.cur)).dies y.2.2 y.2.1, leasedFar s s.cur l = false)
      ∧ ∀ j < w, leased s s.cur write (elemKey s y j / 64) = false ∧ poolReads s s.cur [elemKey s y j] = false
        ∧ (write = true → crossFar s s.cur [elemKey s y j / 64] = none)
        ∧ engDest s s.cur (elemKey s y j) = false
theorem elems_free {s : State} {els : List Elem} {write read : Bool} {w : Nat} {col : Option (Int × Nat)} (h : FreeElems s els write read w) :
    ElemsFree s els write read w col :=
  ⟨no_behind h.1, no_wait h.2.1, h.2.2.1.1, h.2.2.1.2.1, h.2.2.1.2.2, fun _ => no_rows h.2.2.2.1 _, fun y hy =>
    have k := h.2.2.2.2.2 y hy
    ⟨k.1, k.2.1, fun _ => k.2.2.1, fun j hj =>
      have m := k.2.2.2 j hj
      ⟨m.1, m.2.1, m.2.2.1, fun r => plain_read (h.2.2.2.2.1 r) m.2.2.2⟩⟩⟩
theorem fresh_a {h : Hart} (e : h.eix = 0 ∧ h.claim = none ∧ h.wait = none ∧ ∀ q : SQ, ∀ e ∈ h.sq[q.toNat]'(q.isLt), e.dead = false ∧ e.feeds = none) : FreshA h :=
  ⟨e.1, e.2.1, by simp [e.2.2.1], e.2.2.2⟩
theorem fresh_vec : UserMode (st vec) ∧ FreshA (st vec).me ∧ UserMode base ∧ FreshA base.me := by
  refine ⟨⟨⟨by decide +kernel, by decide +kernel⟩, by decide +kernel⟩, fresh_a (by decide +kernel),
    ⟨⟨by decide +kernel, by decide +kernel⟩, by decide +kernel⟩, fresh_a (by decide +kernel)⟩
theorem wit_forms : FormOk (st vec) 4 False False False ∧ FormOk (st vec) 4 True True False ∧ FormOk (st vec) 4 False False True := by
  unfold FormOk rowsOf colsOf; decide +kernel
def wide (h : Hart) : Hart := { h with vl := 129, shp := 0 }
theorem wit_bad_forms : ¬FormOk (st wide) 4 False False False ∧ ¬FormOk (st wide) 2 False True False ∧ ¬FormOk (st vec) 4 True False False
    ∧ ¬FormOk (st wide) 2 False False True := by
  unfold FormOk rowsOf colsOf; decide +kernel
/-- VectorLoadsFillAnEntry: three elements that pass; a third that lies on a page without entry. -/
theorem wit_vld :
    (let s := st vec
     let h := claimed s.me { lq := some 0 } 4
     let r := phase .load s h noSkip
     claimQueues s.me { lq := some 0 } 4 = .ok h ∧ r = (r.1, r.2.1, none) ∧ ElemsFree s r.2.1 false true 4 ∧ r.2.1.length = 3)
    ∧ (let s := st edge
       let h := claimed s.me { lq := some 0 } 4
       let r := phase .load s h noSkip
       claimQueues s.me { lq := some 0 } 4 = .ok h ∧ r = (r.1, r.2.1, some (2, 7, 0x50000#64)) ∧ ElemsFree s r.2.1 false true 4
         ∧ 7 ≠ eccCause) := by
  refine ⟨⟨claim_ok (by decide +kernel), triple _ (by decide +kernel), elems_free (by decide +kernel), by decide +kernel⟩,
    claim_ok (by decide +kernel), triple _ (by decide +kernel), elems_free (by decide +kernel), by decide⟩

/-- The check phase of three elements at a base in sN, with indices of a queue entry. -/
def phaseX (s : State) (h : Hart) (skip : Nat → Bool) (chk : State → Nat → State × Except (Nat × Dbl) (Nat × TlbEntry)) :
    State × List Elem × Option (Nat × Nat × Dbl) := checkPhase skip (checkIndex 0 (words 4 3) chk) s.me.vl.toNat 0 (s.setMe h)
def addrX (s : State) (i : Nat) : Nat := virt (baseOf s 1 (0 : BitVec 29) + ((words 4 3).elt i 4 * 4 : Nat))
def lacks (e : QEntry) (i : Nat) : Bool := !e.has i 4
/-- IndexedLoadsFillAnEntry, VectorAccessesTrapAtTheirElement: three written indices. -/
theorem wit_vldx : ∀ x ∈ [(vec, none), (edge, some (2, 7, 0x50000#64))],
    (let s := st x.1
     let t := Takes.sq { lq := some 0 } 0 1
     let h := claimed s.me t 4
     let r := phaseX s h (lacks (words 4 3)) (checkElem .load 4 (addrX s))
     sqOf s.me 0 = words 4 3 :: [] ∧ claimQueues s.me t 4 = .ok h ∧ r = (r.1, r.2.1, x.2) ∧ r.2.1.length ≥ 2 ∧ ElemsFree s r.2.1 false true 4) := by
  simp only [List.mem_cons, List.not_mem_nil, or_false, forall_eq_or_imp, forall_eq]
  exact ⟨⟨by decide +kernel, claim_ok (by decide +kernel), triple _ (by decide +kernel), by decide +kernel, elems_free (by decide +kernel)⟩,
    by decide +kernel, claim_ok (by decide +kernel), triple _ (by decide +kernel), by decide +kernel, elems_free (by decide +kernel)⟩
/-- OrderedLoadsDrawTickets, VectorAccessesTrapAtTheirElement. -/
theorem wit_vldsc : ∀ x ∈ [(vec, none), (edge, some (2, 7, 0x50000#64))],
    (let s := st x.1
     let h := claimed s.me { lq := some 0 } 4
     let r := checkPhase noSkip (checkElem .load 4 fun i => virt (baseOf s 1 (0 : BitVec 29) + spanOf s.me 0 false 4 i)) s.me.vl.toNat 0
       ((s.setMe h).updHart s.cur (noChain 0))
     NoReadsOut s.me ∧ s.me.vl.toNat * 4 ≤ 8192 ∧ r = (r.1, r.2.1, x.2) ∧ ElemsFree s r.2.1 false true 4) := by
  simp only [List.mem_cons, List.not_mem_nil, or_false, forall_eq_or_imp, forall_eq]
  exact ⟨⟨by unfold NoReadsOut; decide +kernel, by decide +kernel, triple _ (by decide +kernel), elems_free (by decide +kernel)⟩,
    by unfold NoReadsOut; decide +kernel, by decide +kernel, triple _ (by decide +kernel), elems_free (by decide +kernel)⟩
/-- VectorStoresWriteTheirElements, VectorAccessesTrapAtTheirElement: a store of two written elements of three; one whose third lies on
page 5. -/
theorem wit_vst :
    (let s := st fun h => { vec h with sq := #v[[words 4 2], []] }
     let de := words 4 2
     let h := claimed s.me (Takes.sq {} 0 1) 4
     let r := phase .store s h fun i => !de.has i 4
     sqOf s.me 0 = de :: [] ∧ claimQueues s.me (Takes.sq {} 0 1) 4 = .ok h ∧ r = (r.1, r.2.1, none) ∧ r.2.1.length = 2
       ∧ ElemsFree s r.2.1 true false 4)
    ∧ (let s := st edge
       let h := claimed s.me (Takes.sq {} 0 1) 4
       let r := phase .store s h (lacks (words 4 3))
       claimQueues s.me (Takes.sq {} 0 1) 4 = .ok h ∧ r = (r.1, r.2.1, some (2, 7, 0x50000#64)) ∧ ElemsFree s r.2.1 true false 4) :=
  ⟨⟨by decide +kernel, claim_ok (by decide +kernel), triple _ (by decide +kernel), by decide +kernel, elems_free (by decide +kernel)⟩,
    claim_ok (by decide +kernel), triple _ (by decide +kernel), elems_free (by decide +kernel)⟩
/-- VSTX and VAMO: the indices in sq0, the data in sq1. -/
theorem wit_vstx : ∀ x ∈ [(vec, none), (edge, some (2, 7, 0x50000#64))],
    (let s := st x.1
     let t := Takes.sq (Takes.sq {} 0 1) 1 1
     let e := words 4 3
     let h := claimed s.me t 4
     let r := phaseX s h (fun i => !(e.has i 4 && e.has i 4)) (checkElem .store 4 (addrX s))
     sqOf s.me 1 = e :: [] ∧ claimQueues s.me t 4 = .ok h ∧ r = (r.1, r.2.1, x.2) ∧ ElemsFree s r.2.1 true false 4) := by
  simp only [List.mem_cons, List.not_mem_nil, or_false, forall_eq_or_imp, forall_eq]
  exact ⟨⟨by decide +kernel, claim_ok (by decide +kernel), triple _ (by decide +kernel), elems_free (by decide +kernel)⟩,
    by decide +kernel, claim_ok (by decide +kernel), triple _ (by decide +kernel), elems_free (by decide +kernel)⟩
theorem wit_vamo : ∀ x ∈ [(vec, none), (edge, some (2, 7, 0x50000#64))],
    (let s := st (s2 3 ∘ x.1)
     let t := Takes.sq (Takes.sq { lq := some 0 } 0 1) 1 1
     let e := words 4 3
     let h := claimed s.me t 4
     let r := phaseX s h (fun i => !(e.has i 4 && e.has i 4)) (checkAmo (vamoOp 0) 4 (s.me.s 1) (s.me.s 2) e)
     claimQueues s.me t 4 = .ok h ∧ r = (r.1, r.2.1, x.2) ∧ ElemsFree s r.2.1 true true 4
       ∧ (∀ y ∈ r.2.1, ∀ z ∈ r.2.1, pteC y.2.2.pte = pteC z.2.2.pte) ∧ ¬((0 : BitVec 3) = 7 ∧ false = true)
       ∧ ¬(129 * 4 ≤ s.vlen s.cur)) := by
  simp only [List.mem_cons, List.not_mem_nil, or_false, forall_eq_or_imp, forall_eq]
  exact ⟨⟨claim_ok (by decide +kernel), triple _ (by decide +kernel), elems_free (by decide +kernel), by decide +kernel, by decide +kernel, by decide +kernel⟩,
    claim_ok (by decide +kernel), triple _ (by decide +kernel), elems_free (by decide +kernel), by decide +kernel, by decide +kernel, by decide +kernel⟩
/-- ScratchpadAccessesMoveTheirElements: a scratchpad of 64 KiB, its base 0 and its base the last three words. -/
def pool (c : Core) : Core := { c with bnd0 := 0x7000, bnd1 := 0x10000, bnd2 := 0x20000 }
theorem wit_scratch :
    (∀ w, ScratchOk (stc (s1 0 ∘ vec) pool) w 4 noSkip (fun i => (0 : Int) + (i * 4 : Nat))
      ∧ ScratchOk (stc (s1 0 ∘ vec) pool) w 4 (lacks (words 4 3)) (fun i => (0xFFF4 : Int) + ((words 4 3).elt i 4 * 4 : Nat)))
    ∧ (lqOf (stc vec pool).me 0).length < 4 ∧ (words 4 3).done = true :=
  ⟨fun _ => ⟨⟨by decide +kernel, by decide +kernel, fun _ => no_rows (by decide +kernel) _, by decide +kernel⟩,
    by decide +kernel, by decide +kernel, fun _ => no_rows (by decide +kernel) _, by decide +kernel⟩, by decide +kernel⟩
/-- VectorAccessesTrapAtTheirElement: the third word lies at the end of the scratchpad, in the unit form and by an index. -/
def scratchFail (t : Takes) (f : State → (State → Nat → State × Except (Nat × Dbl) (Nat × TlbEntry)) → Hart → State × List Elem × Option (Nat × Nat × Dbl)) :
    State × Hart × State × List Elem × Option (Nat × Nat × Dbl) :=
  let s := stc (s1 0xFFF8 ∘ vec) pool
  let h := claimed s.me t 4
  (s, h, f s (checkScratch 4 (s.myCore.bnd2.toNat - s.myCore.bnd1.toNat) fun i => baseOf s 1 (0 : BitVec 29) + ((words 4 3).elt i 4 * 4 : Nat)) h)
theorem wit_scratch_traps :
    (∀ x ∈ [(Takes.sq { lq := some 0 } 0 1), (Takes.sq (Takes.sq {} 0 1) 1 1)],
      (let y := scratchFail x fun s c h => phaseX s h (lacks (words 4 3)) c
       isOk (claimQueues y.1.me x 4) = true ∧ y.2.2.2.2 = some (2, 7, 0x10000#64) ∧ y.1.bad = [] ∧ y.1.badL2 = []
         ∧ ∀ z ∈ y.2.2.2.1, interlocked y.1.myCore y.1.cur.h true z.2.1 (z.2.1 + 4) = false))
    ∧ ∀ x ∈ [({ lq := some 0 } : Takes), Takes.sq {} 0 1],
      (let y := scratchFail x fun s c h => checkPhase noSkip c s.me.vl.toNat 0 (s.setMe h)
       isOk (claimQueues y.1.me x 4) = true ∧ y.2.2.2.2 = some (2, 7, 0x10000#64)
         ∧ ∀ z ∈ y.2.2.2.1, interlocked y.1.myCore y.1.cur.h true z.2.1 (z.2.1 + 4) = false) := by
  simp only [List.mem_cons, List.not_mem_nil, or_false, forall_eq_or_imp, forall_eq]
  decide +kernel
/-- PopxAndQdropTakeQueueHeads. -/
theorem wit_queues :
    (let s := st fun h => { vec h with xq := [7, 8] }
     s.me.xq = 7 :: [8] ∧ (2#5).toNat ≤ s.me.xq.length ∧ (1#5).toNat ≤ (sqOf s.me 1).length ∧ ∀ e ∈ (sqOf s.me 1).take 1, e.done = true) := by
  decide +kernel
/-! Tags, engines, near-memory commands, pooled lookup, handles. -/

def tagged (h : Hart) : Hart := { h with tagown := 0xF }
/-- TagInstructionsReadAndClearDone: a Done tag, none busy, a busy one, and a tag that is not the hart's. -/
def fillOf (tag : BitVec 6) : Engine :=
  { hid := 0, tag := tag, op := .fill 0x10000 8 4 0xAB, dPool := false, sPool := false, dPages := pgs base .store 0x10000 8, sPages := [], ivl := [], seq := 0,
    dstBank := none, srcBank := none }
theorem wit_tags :
    (let s := stc (tagged ∘ s1 0xF) fun c => { c with tagDone := 2 }
     s.me.s 1 &&& ~~~s.me.tagown = 0 ∧ Claims.doneOf s (s.me.s 1) ≠ 0 ∧ NoneBusy s (s.me.s 1)) ∧ (0x10#64) &&& ~~~(tagged base.me).tagown ≠ 0
    ∧ ¬NoneBusy (stc tagged fun c => { c with engines := [fillOf 3] }) 0x8 := by unfold NoneBusy; decide +kernel
/-- Nothing is posted, and the rest of `CoreIdle`. -/
abbrev CoreQuiet (s : State) : Prop :=
  s.posted = [] ∧ s.myCore.engines = [] ∧ s.me.win = [] ∧ (∀ g ∈ s.coreHarts s.cur.l s.cur.k, (s.hart g).win = []) ∧ s.me.nb = []
    ∧ (∀ q : LQ, ∀ e ∈ s.me.lq[q.toNat]'(q.isLt), e.flight = [] ∧ e.pool = none)
    ∧ (∀ x ∈ s.harts, x.1 ≠ s.cur → x.2.leases = []) ∧ noLine s.me.wait = true ∧ s.bad = [] ∧ s.badL2 = [] ∧ s.badL1 = []
    ∧ ∀ b : BitVec 4, (s.myCore.bank b).reload = false
theorem core_idle {s : State} (h : CoreQuiet s) : CoreIdle s :=
  let ⟨a, k⟩ := h
  ⟨k.1, k.2.1, k.2.2.1, k.2.2.2.1, no_behind a, k.2.2.2.2.1, k.2.2.2.2.2.1, no_wait k.2.2.2.2.2.2.1, k.2.2.2.2.2.2.2⟩
theorem idle : CoreIdle (stc tagged pool) := core_idle (by decide +kernel)
/-- EngineCommandsIssue: a copy of a page's last 8 bytes to another page, a fill of the scratchpad, an empty range, a header of R268
(symbols of 2 bits, none of them, frequencies 4 × 1024), a tag that is not the hart's. -/
theorem wit_engine :
    (let s := stc tagged pool
     let r := rangeCheck s s.me false ⟨false, 0x1FFF8, 8⟩
     let q := rangeCheck r.1 s.me true ⟨false, 0x20000, 8⟩
     RangesPass s ⟨false, 0x1FFF8, 8⟩ ⟨false, 0x20000, 8⟩ (okOf ([], none) r.2) (okOf ([], none) q.2))
    ∧ (stc tagged pool).me.tagown.getLsbD 3 = true ∧ (stc tagged pool).me.tagown.getLsbD 4 = false
    ∧ (let s := stc tagged pool
       let q := rangeCheck s s.me true ⟨true, 0x10000, 0x10000⟩
       q = (q.1, .ok (okOf ([], none) q.2))) := by
  refine ⟨⟨_, _, pair_ok _ _ (by decide +kernel), pair_ok _ _ (by decide +kernel), by decide⟩, by decide +kernel, by decide +kernel, pair_ok _ _ (by decide +kernel)⟩
def header : List Byte := toBytes 16 (0x534E4150 + 2 ^ 32 * 2) ++ (List.range 4).flatMap (fun _ => toBytes 2 1024) ++ List.replicate 128 0
theorem agreed {s : State} {p : Nat} {pgs : List TlbEntry} (h : s.cachedW = [] ∧ s.uncachedW = []) : Agreed s p pgs := by
  simp [Agreed, h.1, h.2]
theorem wit_pdec : (ransHeader (fun o => header.getD o 0) 152).isSome = true ∧ header.length = 152 ∧ base.notLive = []
    ∧ Agreed base 0 (pgs base .load 0x10000 152) := ⟨by decide +kernel, by decide +kernel, rfl, agreed ⟨rfl, rfl⟩⟩
/-- EngineCommandsComplete: a fill, and a copy from page 1 to page 2 whose source no other command writes. -/
theorem wit_engine_done :
    let s := stc tagged fun c => { c with engines := [fillOf 3] }
    s.wbuf = [] ∧ s.mem.wf ∧ s.md.power = .ready ∧ s.bad = [] ∧ s.badL2 = [] ∧ s.badL1 = [] ∧ (s.core 0 0).engines = [fillOf 3]
      ∧ (fillOf 3).moved = [] ∧ HeaderOk (fillOf 3).op
      ∧ (∀ g ∈ s.coreHarts 0 0, (s.hart g).win = []) ∧ (∀ x ∈ s.harts, x.2.leases = [])
      ∧ Agreed s 0 (pgs base .load 0x10000 8)
      ∧ ∀ a, inRanges (EngOp.copy 0x20000 0x10000 8).source a = true →
          engDest base ⟨0, 0, 0⟩ (engKey base 0 0 false (pgs base .load 0x10000 8) a) = false :=
  ⟨rfl, by decide +kernel, rfl, rfl, rfl, rfl, by decide +kernel, rfl, trivial, by decide +kernel, by decide +kernel, agreed ⟨rfl, rfl⟩,
    fun _ _ => rfl⟩
/-- A header that R268 accepts: two-bit symbols of frequency 1024 each. -/
theorem wit_header : HeaderOk (.dec 0x20000 0x10000 152 2 0 [1024, 1024, 1024, 1024]) := ⟨by decide, by decide, by decide⟩
/-- NearMemoryCommandsSendTheirUpdates: rows of two words in page 4. -/
def near (h : Hart) : Hart := s2 2 (s1 0x40000 (vec h))
def rowsAt (acc : Acc) (sad : Bool) (n : Nat) (s : State) (skip : Nat → Bool) (l : Nat → List Nat) (h : Hart) :
    State × List (Nat × List Loc) × Option (Nat × Nat × Dbl) :=
  rowPhase skip (fun i s => rowChecks acc sad n (l i) s) 3 0 (s.setMe h)
theorem wit_nbadd :
    let s := st near
    let t := Takes.sq (Takes.sq {} 0 1) 1 1
    let ie := words 4 3
    let h := claimed s.me t 4
    let r := rowsAt .both false 8 s (fun i => !ie.has i 4) (fun i => [(s.me.s 1 + BitVec.ofNat 64 (ie.elt i 4 * 2 * 4)).toNat]) h
    FreshA s.me ∧ claimQueues s.me t 4 = .ok h ∧ r = (r.1, r.2.1, none) ∧ r.2.1.length = 3 ∧ s.me.vl.toNat * 2 * 4 ≤ s.vlen s.cur
      ∧ (∀ p, ¬Behind s p) ∧ CoreQuiet s :=
  ⟨fresh_a (by decide +kernel), claim_ok (by decide +kernel), triple _ (by decide +kernel), by decide +kernel, by decide +kernel, no_behind rfl,
    by decide +kernel⟩
def actedOk {α : Type} : Acted α → Option (State × α)
  | .ok s v => some (s, v)
  | .wait _ _ => none
  | .dfault _ _ => none
  | .reject _ => none
theorem acted {α : Type} {r : Acted α} (d : State × α) (h : (actedOk r).isSome = true) : r = .ok ((actedOk r).getD d).1 ((actedOk r).getD d).2 := by
  cases r with
  | ok s v => rfl
  | wait s w => cases h
  | dfault s d => cases h
  | reject s => cases h
/-- Its hyperparameters are the zeros at the start of page 1: every table is the row's own. -/
theorem wit_nbopt :
    let s := st (s3 0x10000 ∘ near)
    let t := Takes.sq (Takes.sq {} 0 1) 1 1
    let ie := words 4 3
    let h := claimed s.me t 4
    let p := pgs s .load 0x10000 48
    let b := (actedOk (readBlock p 0x10000 6 0 ((chk s .load 0x10000 48).1.setMe h))).getD (s, [])
    let r := rowPhase (fun i => !ie.has i 4) (fun i s' => rowChecks .both false 8
      ([s.me.s 1, s.me.s 1 + BitVec.ofNat 64 (hyperOf b.2).2.1].map fun t => (t + BitVec.ofNat 64 (ie.elt i 4 * 2 * 4)).toNat) s') 3 0 b.1
    Reaches s (chk s .load 0x10000 48).1 .load false 0x10000 48 p ∧ Coherent s p 0x10000 48 ∧ claimQueues s.me t 4 = .ok h
      ∧ readBlock p 0x10000 6 0 ((chk s .load 0x10000 48).1.setMe h) = .ok b.1 b.2 ∧ r = (r.1, r.2.1, none) := by
  refine ⟨reaches (by decide +kernel) (by decide +kernel), coherent ⟨rfl, rfl⟩ (by decide +kernel), claim_ok (by decide +kernel),
    acted _ (by decide +kernel), triple _ (by decide +kernel)⟩
/-- NearMemoryUpdatesWriteTheirWords. -/
def update : NbItem := ⟨0, .add false ⟨0x40000, pageOf (pgs base .both 0x40000 4) 0x40000⟩ 0x3F800000, [(⟨0x40000, pageOf (pgs base .both 0x40000 4) 0x40000⟩, 4)]⟩
theorem wit_update :
    let s := st fun h => { h with nb := [update] }
    s.mem.wf ∧ s.bad = [] ∧ s.badL2 = [] ∧ s.badL1 = [] ∧ (s.hart ⟨0, 0, 0⟩).nb = update :: [] ∧ (∀ y ∈ s.harts, y.2.leases = []) ∧ (s.launch 0).phase ≠ .halted
      ∧ ∀ y ∈ update.op.locs, ∀ k ∈ y.1.keys s (s.partOf ⟨0, 0, 0⟩) y.2, engDest s ⟨0, 0, 0⟩ k = false := by
  decide +kernel
/-- SfpoolPoolsItsBags: one bag of three rows of two words of the saddlebag; entries of indices, of bag lengths and of weights. -/
def bags (h : Hart) : Hart :=
  { s4 0x10002 (s3 8 (s1 0x70000 h)) with vl := 3, sq := #v[[words 4 3, QEntry.put { width := 4, issued := true, done := true } 0 4 3, words 4 3], []] }
def bagRows (s t : State) : State × List (Nat × List Loc) × Option (Nat × Nat × Dbl) :=
  let en (n : Nat) : QEntry := (sqOf s.me 0).getD n {}
  rowPhase (fun i => !(en 0).has i 4) (fun i s' =>
    if (s.me.s 3).toNat ≤ (en 0).elt i 4 then (s', .error (15, BitVec.ofNat 64 ((en 0).elt i 4)))
    else rowChecks .load true (2 * 4) [(s.me.s 1 + BitVec.ofNat 64 ((en 0).elt i 4 * 2 * 4)).toNat] s') 3 0 t
theorem wit_sfpool :
    let s := stc bags pool
    let t := Takes.sq { lq := some 0 } 0 3
    let h := claimed s.me t 4
    let r := bagRows s (s.setMe h)
    FreshA s.me ∧ s.me.askips = [] ∧ s.bad = [] ∧ claimQueues s.me t 4 = .ok h ∧ (s.me.s 4).toNat % 512 = 2 ∧ (s.me.s 4).toNat / 512 % 128 = 0
      ∧ (s.me.s 4).toNat / 65536 = 1 ∧ ((List.range 1).map fun j => ((sqOf s.me 0).getD 1 {}).elt j 4).sum = s.me.vl.toNat
      ∧ r = (r.1, r.2.1, none) ∧ r.2.1.length = 3 :=
  ⟨fresh_a (by decide +kernel), rfl, rfl, claim_ok (by decide +kernel), by decide +kernel, by decide +kernel, by decide +kernel, by decide +kernel,
    triple _ (by decide +kernel), by decide +kernel⟩
/-- ArrivalsDeliverElements: the last word of an entry; the bag of two rows of two words of the saddlebag. -/
def bagRow (i : Nat) : Nat × Loc := (i, ⟨0x70000 + 8 * i, pageOf (pgs base .load 0x70000 8) 0x70000⟩)
theorem wit_arrivals :
    (let e : QEntry := { width := 4, issued := true, flight := [(2047, 0xFFFFFFFF)] }
     let s := st fun h => { h with lq := #v[[e], [], [], []] }
     (lqOf (s.hart ⟨0, 0, 0⟩) 0)[0]? = some e ∧ (2047, 0xFFFFFFFF#64) ∈ e.flight ∧ (∀ y ∈ e.flight, y.1 = 2047 → y.2 = 0xFFFFFFFF)
       ∧ (2047 + 1) * e.width ≤ 8192 ∧ (0xFFFFFFFF#64).toNat < 256 ^ e.width)
    ∧ (let pl : Pool := { op := 1, half := false, d := 2, bags := [(0, 2)], rows := [bagRow 0, bagRow 1], weights := [1, 1], left := [0] }
       let e : QEntry := { width := 4, issued := true, pool := some pl }
       let s := st fun h => { h with lq := #v[[e], [], [], []] }
       (lqOf (s.hart ⟨0, 0, 0⟩) 0)[0]? = some e ∧ 0 ∈ pl.left ∧ pl.bags[0]? = some (0, 2) ∧ (0 + 1) * pl.d * 4 ≤ 8192
         ∧ (∀ r ∈ pl.rows, poolHeld s ⟨0, 0, 0⟩ pl.no 8 r.2 = false ∧ ∀ k ∈ r.2.keys s 0 8, engDest s ⟨0, 0, 0⟩ k = false) ∧ stageOpen s 0 2 = true) := by decide +kernel
/-- ResidencyHandlesOpenAndClose: lengths 0, 1, 2^40 and more; all 256 handles open; handle 0 open and 1 the lowest free one; one dead
segment of 2 MiB. -/
def handles (n : Nat) (f : Hart → Hart) : State :=
  let s := stc f pool
  { s with launches := [(0, { Launch.idle with phase := .running,
                                                handles := (List.range n).map fun i => (BitVec.ofNat 8 i, ⟨0x20000000, 0x200000, 3⟩) })] }
theorem wit_handles :
    base.me.s 2 = 0 ∧ 2 ^ 40 < ((st (s2 0x10000000001)).me.s 2).toNat ∧ ((st (s2 0x10000000000)).me.s 2).toNat ≤ 2 ^ 40
    ∧ (∀ y ∈ ((handles 1 id).launch 0).handles, y.1 ≠ 1)
    ∧ (∀ j : BitVec 8, j < 1 → ∃ y ∈ ((handles 1 id).launch 0).handles, y.1 = j)
    ∧ (∀ y ∈ ((handles 1 id).launch 0).handles, (st (s2 1)).me.s 2 ≠ y.1.setWidth 64)
    ∧ ((handles 1 id).launch 0).handles = [] ++ ((0 : BitVec 8), (⟨0x20000000, 0x200000, 3⟩ : Handle)) :: [] := by decide +kernel
theorem wit_all_open : ∀ i : BitVec 8, ∃ y ∈ ((handles 256 id).launch 0).handles, y.1 = i := by
  intro i
  refine ⟨(i, ⟨0x20000000, 0x200000, 3⟩), ?_, rfl⟩
  have h : ((handles 256 id).launch 0).handles = (List.range 256).map fun i => (BitVec.ofNat 8 i, ⟨0x20000000, 0x200000, 3⟩) := rfl
  rw [h]
  exact List.mem_map.2 ⟨i.toNat, List.mem_range.2 i.isLt, by simp⟩
def deadOf (s : State) (base len : Nat) : State × Except AccFault (List Loc) :=
  deadSegs s.cur (base + len) (len / 2097152 + 1) ((base + 2097151) / 2097152 * 2097152) s
theorem wit_dead :
    let s := handles 1 id
    deadOf s 0x20000000 0x200000 = ((deadOf s 0x20000000 0x200000).1, .ok (okOf [] (deadOf s 0x20000000 0x200000).2))
      ∧ (okOf [] (deadOf s 0x20000000 0x200000).2).length = 1 ∧ s.mem.wf ∧ CoreIdle s
      ∧ deadOf s 0x10000 0x400000 = ((deadOf s 0x10000 0x400000).1, .error (errOf (0, 0) (deadOf s 0x10000 0x400000).2))
      ∧ errOf (0, 0) (deadOf s 0x10000 0x400000).2 = (6, 0x200000) ∧ 6 ≠ eccCause :=
  ⟨pair_ok _ _ (by decide +kernel), by decide +kernel, by decide +kernel, core_idle (by decide +kernel), pair_err _ _ (by decide +kernel),
    by decide +kernel, by decide⟩
/-- GongPostAndWaitiMeet: an extent that divides the launch and one that does not, every other hart there, and one that is not yet; a
Paceline value that has been reached, and one that has not. -/
def two : State :=
  { base with launches := [(0, { Launch.idle with phase := .running, rec_ := { Record.zero with harts := 2 } })],
              harts := base.harts ++ [(⟨0, 0, 1⟩, { Hart.idle with phase := .running })] }
def metBy (s : State) (e : Nat × Nat) : Prop :=
  ∀ k ∈ gongCores (s.launch s.cur.l) e s.cur.k, ∀ g ∈ s.coreHarts s.cur.l k, g ≠ s.cur → (s.hart g).phase = .exited ∨ 1 ≤ tget 0 (s.hart g).gongs e
theorem wit_gong :
    base.me.arrived = none ∧ NoReadsOut base.me ∧ metBy base (1, 1) ∧ ¬metBy two (1, 1) ∧ (two.launch 0).w % 1 = 0 ∧ (two.launch 0).w % 2 ≠ 0
    ∧ tget 0 two.me.gongs (1, 1) + 1 = 1 := by unfold NoReadsOut metBy; decide +kernel
theorem wit_waiti :
    ((stc (s1 5) fun c => { c with pace := #v[5, 0, 0, 0] }).me.s 1).toNat ≤ ((stc (s1 5) fun c => { c with pace := #v[5, 0, 0, 0] }).core 0 0).pace[0].toNat
    ∧ ((stc (s1 5) id).core 0 0).pace[0].toNat < ((stc (s1 5) id).me.s 1).toNat := by decide +kernel
/-- The scheduler's tables on page 1: the notify window at its start, the queue table at 0x1_8000, a ring at 0x1_C000. -/
def sched (bytes : List (Nat × Nat × Nat)) (f : Part → Part) : State :=
  let s := base
  { s with mem := bytes.foldl (fun m x => m.puts (hbmKey 1 (0x30000 + x.1)) (toBytes x.2.1 x.2.2)) s.mem,
           parts := [(0, f { s.part 0 with notify := 0x10000, qtable := 0x18000 })] }
def wanting : UserQ :=
  { phase := .wanting, slot := 0, wantedAt := 0, mappedAt := 0, activeAt := 0, head := 0, done := 0, finished := [], pending := false, taken := none }
/-- A release finds rows of a pooled lookup still to be read, or none. -/
theorem wit_rows_out : RowsOut (st pooling).me ∧ ¬RowsOut base.me ∧ Live (st pooling) :=
  ⟨rows_left pooling rfl, no_rows (by decide +kernel) _, by decide +kernel, by decide +kernel⟩
/-- QnotifyStoresTheNotifyWord: a partition that is not started, the word's line leased by another hart, and a Wanting, valid queue 0; a queue number of 65,536. -/
theorem wit_qnotify :
    (let s := sched [] fun p => { p with started := false }
     let r := schedPages s 0 (· == 0) (notifyAddr s 0 0) 8
     r = (r.1, .ok (okOf [] r.2)) ∧ (s.part 0).started = false ∧ s.mem.wf ∧ notifyAddr s 0 0 % 8 = 0
       ∧ Unheld s (okOf [] r.2) true (notifyAddr s 0 0) 8 ∧ ∃ la, (s.cur.l, la) ∈ s.launches)
    ∧ (let s := sched [] fun p => { p with started := false }
       let s := { s with harts := s.harts ++ [(⟨0, 0, 1⟩, { Hart.idle with phase := .running, leases := [⟨0, hbmKey 1 0x40000 / 64, 9, 0, []⟩] })] }
       let r := schedPages s 0 (· == 0) (notifyAddr s 0 0) 8
       r = (r.1, .ok (okOf [] r.2)) ∧ interlocked s.myCore s.cur.h false (notifyAddr s 0 0) (notifyAddr s 0 0 + 8) = false ∧ noLine s.me.wait = true
         ∧ leased s s.cur true (keyAt s (okOf [] r.2) (notifyAddr s 0 0) / 64) = true)
    ∧ (let s := sched [(0x18009, 1, 1)] fun p => { p with queues := [(0, wanting)] }
       let r := readTable (schedWrite s 0 (notifyAddr s 0 0) 8 1).1 0 0
       r = (r.1, .ok (okOf ⟨0, 0, 0, 0, 0⟩ r.2)) ∧ (okOf ⟨0, 0, 0, 0, 0⟩ r.2).flags % 2 = 1 ∧ (s.userQ 0 0).phase = .wanting)
    ∧ 65536 ≤ ((st (s1 65536)).me.s 1).toNat := by
  refine ⟨⟨pair_ok _ _ (by decide +kernel), by decide +kernel, by decide +kernel, by decide +kernel, unheld (by decide +kernel), ⟨_, List.mem_singleton.2 rfl⟩⟩,
    ⟨pair_ok _ _ (by decide +kernel), by decide +kernel, by decide +kernel, by decide +kernel⟩, ⟨pair_ok _ _ (by decide +kernel), by decide +kernel, by decide +kernel⟩,
    by decide +kernel⟩
/-- ArrivalCountersAreSetAndTaken: a range in one mapping, one over two, a length 0, an expected value of 2^40 and one more. -/
def acs (s : State) (b n : Nat) : State × Except AccFault (List TlbEntry) := checkRange s (s.partOf s.cur) s.me.root s.me.sup .store b n true
theorem wit_acset :
    acs base 0x1FFF8 8 = ((acs base 0x1FFF8 8).1, .ok (okOf [] (acs base 0x1FFF8 8).2))
    ∧ acs base 0x1FFF8 16 = ((acs base 0x1FFF8 16).1, .ok (okOf [] (acs base 0x1FFF8 16).2))
    ∧ acs base 0x5FFF8 16 = ((acs base 0x5FFF8 16).1, .error (errOf (0, 0) (acs base 0x5FFF8 16).2)) ∧ (errOf (0, 0) (acs base 0x5FFF8 16).2).1 ≠ eccCause
    ∧ (let e := pageOf (okOf [] (acs base 0x1FFF8 8).2) 0x1FFF8
       e.isLocal = true ∧ 0x1FFF8 / 2 ^ e.lg = (0x1FFF8 + 8 - 1) / 2 ^ e.lg ∧ ¬0x1FFF8 / 2 ^ e.lg = (0x1FFF8 + 16 - 1) / 2 ^ e.lg)
    ∧ ((st (s2 0x10000000000)).me.s 2).toNat ≤ 2 ^ 40 ∧ 2 ^ 40 < ((st (s2 0x10000000001)).me.s 2).toNat :=
  ⟨pair_ok _ _ (by decide +kernel), pair_ok _ _ (by decide +kernel), pair_err _ _ (by decide +kernel), by decide +kernel, by decide +kernel, by decide +kernel⟩
theorem wit_acwait :
    (let a : Arrival := ⟨0, 0, 5, 5⟩
     let b : Arrival := ⟨0, 0, 4, 5⟩
     a.e.toNat ≤ a.c.toNat ∧ b.c.toNat < b.e.toNat) := by decide
/-- ClredContributesAndReceives: a descriptor of modules 9 and 5 at the start of page 1; two words from page 4 to page 4. -/
def descriptor : List Byte := toBytes 16 (0x52474C43 + 2 ^ 32 * 2 + 2 ^ 64 * 77) ++ toBytes 2 (9 + 256 * 5) ++ List.replicate 126 0
def clredState : State :=
  let s := stc (s4 8 ∘ s3 0x10000 ∘ s2 0x40000 ∘ s1 0x40100) pool
  { s with mem := s.mem.puts (hbmKey 1 0x40000) descriptor }
theorem wit_clred :
    let s := clredState
    let r := chk s .load 0x10000 144
    let q := (actedOk (readRange r.1 (pgs s .load 0x10000 144) 8 18 0 0x10000 r.1)).getD (s, [])
    let c := clredPages q.1 s.me .load 0x40000 8
    let d := clredPages c.1 s.me .store 0x40100 8
    let f := fenceDone d.1 s.cur .rel .domain
    let y := (actedOk (readRange f (okOf [] c.2) 4 2 0 0x40000 f)).getD (s, [])
    r = (r.1, .ok (pgs s .load 0x10000 144)) ∧ readRange r.1 (pgs s .load 0x10000 144) 8 18 0 0x10000 r.1 = .ok q.1 q.2
      ∧ parseGroup s (ofBytes q.2) 0 = some ⟨2, 77, [9, 5]⟩ ∧ s.me.eix = 0 ∧ c = (c.1, .ok (okOf [] c.2)) ∧ d = (d.1, .ok (okOf [] d.2))
      ∧ readRange f (okOf [] c.2) 4 2 0 0x40000 f = .ok y.1 y.2 ∧ Coherent s (okOf [] c.2) 0x40000 8
      ∧ (s.part 0).clreds.length < 8 ∧ (s.me.s 3).toNat % 16 = 0 ∧ ((st (s1 8)).me.s 1).toNat % 16 ≠ 0 :=
  ⟨chk_ok (by decide +kernel), acted _ (by decide +kernel), by decide +kernel, rfl, pair_ok _ _ (by decide +kernel), pair_ok _ _ (by decide +kernel),
    acted _ (by decide +kernel), coherent ⟨rfl, rfl⟩ (by decide +kernel), by decide +kernel, by decide +kernel, by decide +kernel⟩
theorem wit_clred_idle : CoreIdle clredState := core_idle (by decide +kernel)
def mine : Contribution := ⟨0, 2, [9, 5], false, 0, false, 0, [0, 0, 0, 0]⟩
def meeting : ClredOp := { h := ⟨0, 0, 0⟩, gid := 77, e := 0, c := mine, d := 0x40100, pages := pgs base .store 0x40100 4 }
theorem wit_clred_result :
    (let o := meeting
     let s := { base with parts := [(0, { base.part 0 with clreds := [o] })] }
     (s.part 0).clreds.find? (fun o => o.gid == 77 && o.e == 0) = some o ∧ o.c.bytes.length ≤ 65536 ∧ o.c.n ≤ 128
       ∧ (∀ c ∈ [{ mine with rank := 1 }], sameMeeting o.c c = true) ∧ (∀ r < o.c.n, r = o.c.rank ∨ ∃ c ∈ [{ mine with rank := 1 }], c.rank = r)
       ∧ sameMeeting o.c { mine with rank := 1, dbl := true } = false)
    ∧ (st fun h => { h with eix := 1 }).me.eix ≠ 0 ∧ NoReadsOut (st fun h => { h with eix := 1 }).me ∧ ∀ o ∈ (base.part 0).clreds, o.h ≠ base.cur := by
  unfold NoReadsOut; decide +kernel

/-! The X side. -/

abbrev me0 : HartId := ⟨0, 0, 0⟩
/-- XInstructionsEnterTheWindow: an integer instruction, and one whose first source is a codebook of bank 3. -/
theorem wit_pass : ∃ d, MayPass (st vec) (.vadd ⟨x0, .sq 0, .v 2, .lq 3, 2⟩) d := by
  refine ⟨_, rfl, ⟨⟨by decide +kernel, by decide +kernel⟩, by decide +kernel⟩, by decide +kernel, fun h => (by cases h), fun h => (by cases h),
    by decide +kernel, by decide +kernel, by decide +kernel⟩
def coded (h : Hart) : Hart := { (vec h).setS 5 0x3000C0028 with cbown := 8 }
theorem wit_pass_codebook : ∃ d, MayPass (st coded) (.vcbx ⟨x0, .v 1, .v 2, 5⟩) d ∧ d.fclass = true := by
  refine ⟨_, ⟨rfl, ⟨⟨by decide +kernel, by decide +kernel⟩, by decide +kernel⟩, by decide +kernel,
    fun _ => ⟨by decide +kernel, by decide +kernel, by decide +kernel, fun l h => ?_, fun l h => ?_, fun l h => ?_⟩,
    fun _ => by decide +kernel, by decide +kernel, by decide +kernel, by decide +kernel⟩, rfl⟩
  all_goals (cases h; try decide +kernel)
/-- PassChecksTrap: a format word with a reserved bit; a bank the hart does not own; 129 words where 128 fit. -/
theorem wit_pass_traps :
    (∃ d, xdef (.vcbx ⟨x0, .v 1, .v 2, 5⟩) = some d ∧ d.fclass = true ∧ ¬FormatOk d ((coded base.me).setS 5 0x800003000C0028#64 |>.s 5)
      ∧ ∃ k ∈ d.reads ((coded base.me).s 5), ({ coded base.me with cbown := 7 } : Hart).cbown.getLsbD k.toNat = false)
    ∧ ∃ d, xdef (.vadd ⟨x0, .v 1, .v 2, .v 3, 2⟩) = some d ∧ d.ownBound = false
      ∧ ∃ w ∈ d.srcs.map (·.2) ++ d.dsts.map (·.2), w.bank 0 = none
        ∧ 8 * (st wide).vlen (st wide).cur < (st wide).me.vl.toNat * w.bits 0 := by
  refine ⟨⟨_, rfl, rfl, fun h => ?_, 3, by decide +kernel, by decide +kernel⟩, _, rfl, rfl, .w 32, by decide +kernel, by decide +kernel⟩
  have := (h rfl).1
  revert this
  decide +kernel
theorem works (f : Hart → Hart) (c : Core → Core) (h : (stc f c).wbuf = [] ∧ (stc f c).md.power = .ready ∧ ((stc f c).hart me0).phase = .running
    ∧ ((stc f c).launch 0).phase = .running ∧ ((stc f c).hart me0).sup = false ∧ notHeld (stc f c) me0 = true
    ∧ (stc f c).bad = [] ∧ ∀ b : BitVec 4, (((stc f c).core 0 0).bank b).reload = false) : XWorks (stc f c) me0 := h
/-- A window of one entry of four elements with a format word. -/
def win (i : Instr) (fw sa : Dbl) (shp : Dbl) (h : Hart) : Hart := { h with win := [{ entry i with fw := fw, sa := sa, shp := shp }] }
def done (h : Hart) : Hart := { h with win := h.win.map fun e => { e with begun := true, prog := 4 } }
def ctx (s : State) : XCtx := ⟨s, me0, s.hart me0, ((s.hart me0).win.headD (entry (.tzero ⟨x0, 0⟩)))⟩
def trapOf : XEl → Option (Nat × Dbl)
  | .vec _ _ => none
  | .bit _ _ => none
  | .trap k v => some (k, v)
theorem trap_eq {x : XEl} {k : Nat} {v : Dbl} (h : trapOf x = some (k, v)) : x = .trap k v := by
  cases x with
  | vec a b => cases h
  | bit a b => cases h
  | trap a b => cases h; rfl
/-- ElementGroupsPerformActiveElements: VADD.w into a store queue, under a guard that makes elements 1 and 3 inactive. -/
def adding (h : Hart) : Hart :=
  win (.vadd ⟨⟨⟨.reg false 1, .always⟩, 0⟩, .sq 0, .v 2, .v 3, 2⟩) 0 0 0 { h with m := h.m.set 1 5 }
theorem wit_group :
    let s := stc adding id
    XWorks s me0 ∧ (s.hart me0).win = [entry (.vadd ⟨⟨⟨.reg false 1, .always⟩, 0⟩, .sq 0, .v 2, .v 3, 2⟩)]
      ∧ ∃ d f, xdef (.vadd ⟨⟨⟨.reg false 1, .always⟩, 0⟩, .sq 0, .v 2, .v 3, 2⟩) = some d ∧ d.sem = .elem f
        ∧ groupReady (ctx s) d 0 (min 4 ((0 / groupLen d 0 + 1) * groupLen d 0)) = true ∧ ((begunCtx s me0 d).hart me0).win.length = 1
        ∧ ∀ c i k v, f c i ≠ .trap k v :=
  ⟨works _ _ (by decide +kernel), by decide +kernel, _, _, rfl, rfl, by decide +kernel, by decide +kernel, fun _ _ _ _ h => nomatch h⟩
/-- Its trap: VCBX of a bank without entries traps at element 0, its hart standing at slot 0 of a line. -/
def aLine : Line := instrLine 96 0x0007DF000000000000000000
def inLine (h : Hart) : Hart := { h with line := some (0, aLine) }
theorem wit_stands : StandsAt (inLine base.me) aLine 0 := by
  refine ⟨by decide +kernel, rfl, by decide +kernel, by decide +kernel, by decide, by decide +kernel, fun j _ h => absurd h (by omega)⟩
theorem wit_group_trap :
    let s := stc (win (.vcbx ⟨x0, .v 1, .v 2, 5⟩) 0x3000C0028 0 0 ∘ inLine) id
    XWorks s me0 ∧ ∃ d f, xdef (.vcbx ⟨x0, .v 1, .v 2, 5⟩) = some d ∧ d.sem = .elem f
      ∧ groupReady (ctx s) d 0 (min 4 ((0 / groupLen d 0x3000C0028 + 1) * groupLen d 0x3000C0028)) = true
      ∧ (∃ e', ((begunCtx s me0 d).hart me0).win = e' :: [] ∧ f ⟨begunCtx s me0 d, me0, (begunCtx s me0 d).hart me0, e'⟩ 0 = .trap 10 0x300#64)
      ∧ (s.hart me0).wait = none ∧ (s.hart me0).answers = [] :=
  ⟨works _ _ (by decide +kernel), _, _, rfl, rfl, by decide +kernel, ⟨_, rfl, trap_eq (by decide +kernel)⟩, by decide +kernel, by decide +kernel⟩
theorem res_ok {x : Except XTrap XRes} (h : isOk x = true) : x = .ok (okOf {} x) := by
  revert h
  cases x with
  | ok r => exact fun _ => rfl
  | error t => exact fun h => nomatch h
/-- WholeEntriesPerformAtCompletion: VSCAN of a complete load queue entry into a store queue. -/
theorem wit_whole :
    let s := stc (win (.vscan ⟨x0, .sq 0, .lq 0, 0, 2, 0⟩) 0 0 0 ∘ fun h => { h with lq := #v[[words 4 4], [], [], []] }) id
    XWorks s me0 ∧ ∃ d f, xdef (.vscan ⟨x0, .sq 0, .lq 0, 0, 2, 0⟩) = some d ∧ d.sem = .whole f ∧ xMayBegin (ctx s) d = true
      ∧ (∀ q ∈ d.lqs, (lqOf (s.hart me0) q).head?.all (·.done) = true) ∧ d.lqs.Nodup ∧ d.sqs.Nodup
      ∧ f (ctx s) = .ok (okOf {} (f (ctx s))) ∧ (∀ y, (okOf {} (f (ctx s))).post y = y) ∧ (∀ c y, d.fin c y = y)
      ∧ ((okOf {} (f (ctx s))).regs.map (·.1)).Nodup
      ∧ ∀ p ∈ (okOf {} (f (ctx s))).regs, (p.2.2.map (·.1)).Nodup ∧ ∀ x ∈ p.2.2, p.2.1 * (x.1 + 1) ≤ 65536 := by
  exact ⟨works _ _ (by decide +kernel), _, _, rfl, rfl, by decide +kernel, by decide +kernel, by decide +kernel, by decide +kernel, rfl, fun _ => rfl,
    fun _ _ => rfl, by decide +kernel, by decide +kernel⟩
/-- PerformedEntriesLeaveTheWindow. -/
theorem wit_performed :
    let s := stc (done ∘ adding ∘ fun h => { h with sq := #v[[{}], []] }) id
    XWorks s me0 ∧ ∃ d f, xdef (.vadd ⟨⟨⟨.reg false 1, .always⟩, 0⟩, .sq 0, .v 2, .v 3, 2⟩) = some d ∧ d.sem = .elem f
      ∧ ((s.hart me0).win.all fun e => e.begun && decide (e.vl ≤ e.prog)) = true ∧ xMayBegin (ctx s) d = true ∧ d.lqs = [] ∧ d.sqs.Nodup
      ∧ ∀ c y, d.fin c y = y :=
  ⟨works _ _ (by decide +kernel), _, _, rfl, rfl, by decide +kernel, by decide +kernel, by decide +kernel, by decide +kernel, fun _ _ => rfl⟩
/-- FloatElementsRoundExactResults and the other value statements: an uncoded source, a coded one with its index below the count and one at
the count; an integer format. -/
def bank3 (c : Core) : Core := { pool c with banks := c.banks.set 3 { fmt := 0x0C, cnt := 1, st := .dirty } }
theorem wit_readable :
    (let c := ctx (stc (win (.vcbx ⟨x0, .v 1, .v 2, 5⟩) 0x3000C0028 0 0) bank3)
     Coded (fmtA c) ∧ Readable (fmtA c) 3 c (.v 2) 0 ∧ ¬Coded (fmtD c) ∧ fmtD c ∈ fmtF ++ fmtI)
    ∧ (let c := ctx (stc (win (.vcbx ⟨x0, .v 1, .v 2, 5⟩) 0x3000C0028 0 0) id)
       ((c.s.core c.hid.l c.hid.k).bank 3).cnt ≤ indexAt (fmtA c) 3 c (.v 2) 0)
    ∧ (intForm 0).isSome = true ∧ 2 ≤ (2#2).toNat := by
  refine ⟨⟨by unfold Coded; decide +kernel, fun _ => ⟨by decide +kernel, by decide +kernel⟩, by unfold Coded; decide +kernel, by decide +kernel⟩,
    by decide +kernel, by decide, by decide⟩
/-- FloatElementsRoundExactResults: −0 below +0 for a minimum, but not for a comparison; an infinity above a number; NaN in the signalling
conditions and in the others. -/
theorem wit_order :
    MinLess (.fin true 0 1) (.fin false 0 1) ∧ ¬NumLess (.fin true 0 1) (.fin false 0 1) ∧ NumLess (.fin false 1 2) (.inf false)
    ∧ Valid (.fin true 0 1) ∧ FcondIs .lt .nan (.inf false) (false, Fl.nv) ∧ FcondIs .ne .nan (.inf false) (true, Fl.none)
    ∧ FcondIs .eq (.fin true 0 1) (.fin false 0 1) (true, Fl.none) := by
  refine ⟨.inr ⟨1, 1, rfl, rfl⟩, by norm_num [NumLess, ratOf], rfl, one_ne_zero, ?_, ?_, ?_⟩ <;> simp [FcondIs, NumLess, ratOf]
/-- RoundToTakesTheNeighbourOfItsMode: one third, the greatest E4M3 value, and 0 in each. -/
theorem wit_round_int :
    intForm 0 = some (8, true) ∧ intForm 1 = some (8, false) ∧ intChoice (5 / 2) .plain = 2 ∧ intChoice (7 / 2) .plain = 4 ∧ intChoice (-5 / 2) .plain = -2
    ∧ (intRounded 8 false (.fin true 1 1) ⟨.rne, true, 0⟩) = (0, Fl.vsat) ∧ (intRounded 8 true (.fin false 128 1) .plain) = (0x80, Fl.nv) := by
  decide +kernel
theorem wit_round : |ratOf (.fin true 1 3)| ≤ greatest .e4m3 ∧ |ratOf (.fin false 448 1)| ≤ greatest .e4m3 ∧ |ratOf (.fin true 0 1)| ≤ greatest .fp32 := by
  refine ⟨?_, ?_, ?_⟩ <;> norm_num [ratOf, greatest, abs_le]
/-- Neighbours of R72, 416 and 448; values beyond the greatest one that a mode keeps at it, and that go beyond. -/
theorem wit_stochastic : HasValue .e4m3 416 ∧ HasValue .e4m3 448 ∧ ∀ z, HasValue .e4m3 z → z ≤ 416 ∨ 448 ≤ z := by
  have h : ∀ b < 256, ratOf (FFmt.e4m3.value b) ≤ 416 ∨ 448 ≤ ratOf (FFmt.e4m3.value b) := by decide +kernel
  have l : FFmt.e4m3.value 0x7D = .fin false 416 1 := by decide +kernel
  have g : FFmt.e4m3.value 0x7E = .fin false 448 1 := by decide +kernel
  refine ⟨⟨0x7D, by decide, ?_⟩, ⟨0x7E, by decide, ?_⟩, ?_⟩
  · rw [l]; norm_num [Claims.Finite, ratOf]
  · rw [g]; norm_num [Claims.Finite, ratOf]
  · rintro z ⟨b, hb, -, rfl⟩
    exact h b hb
theorem wit_beyond : GoesBeyond .fp16 false 65536 .plain ∧ ¬GoesBeyond .fp16 false 65510 .plain ∧ greatest .fp16 < 65510
    ∧ GoesBeyond .fp16 false 65510 { rm := .up, sat := true, draw := 0 } ∧ R73Max true .up := by
  refine ⟨?_, ?_, ?_, ?_, ?_⟩ <;> norm_num [GoesBeyond, greatest, topUnit, Rnd.plain, R73Max]
/-- GroupSumsAreExact: finite products, a NaN, infinities of both signs, and of one. -/
theorem wit_sums :
    (∀ x ∈ [Ex.fin true 0 1, Ex.fin false 1 2], Claims.Finite x) ∧ (∃ x ∈ [Ex.nan], x = Ex.nan) ∧ (Ex.inf false ∈ [Ex.inf false, Ex.inf true])
    ∧ (Ex.inf true ∈ [Ex.inf true, Ex.fin false 1 1] ∧ Ex.inf false ∉ [Ex.inf true, Ex.fin false 1 1] ∧ Ex.nan ∉ [Ex.inf true, Ex.fin false 1 1]) := by
  refine ⟨?_, by decide, by decide, by decide⟩
  intro x h
  simp only [List.mem_cons, List.not_mem_nil, or_false] at h
  obtain rfl | rfl := h <;> simp [Claims.Finite]
/-- WholeFloatEntriesAreThoseOfTheRules: the formats of VQBFP, VDQBFP and TSTS; VCBQ of an empty bank and of one with an entry. -/
theorem wit_whole_float :
    fmtA (ctx (stc (win (.vqbfp ⟨x0, .v 1, .v 2, 0, 5⟩) 0x14000014000C 0 0) id)) ∈ fmtH
    ∧ fmtD (ctx (stc (win (.vqbfp ⟨x0, .v 1, .v 2, 0, 5⟩) 0x14000014000C 0 0) id)) ∈ fmtB
    ∧ ((stc id id).core 0 0).bank 3 = {} ∧ ((stc id bank3).core 0 0).bank 3 ≠ {} ∧ (((stc id bank3).core 0 0).bank 3).cnt ≤ 256
    ∧ (0x0C : Nat) ∈ [0x0C, 0x03] ∧ base.bad = [] := by decide +kernel
/-- TileEntriesWriteTheirWords: entries with shape 2 × 2, their lines at the last place of the tile. -/
theorem wit_tile :
    XWorks (stc (win (.tlds ⟨x0, 0, false, .lq 0, 1, 5⟩) 0xC000C 62 0x20002) id) me0
    ∧ (let c := ctx (stc (win (.tlds ⟨x0, 0, false, .lq 0, 1, 5⟩) 0xC000C 62 0x20002) id)
       bankHolds c = false ∧ ShapeOk c ∧ LinesOk c false ∧ LinesOk c true ∧ fmtA c ∈ fmtF ++ [0x00, 0x01, 0x02, 0x03] ∧ fmtD c ∈ [0x0C, 0x03]
         ∧ c.e.sa.toNat < 64 ∧ c.e.vl ≤ 64)
    ∧ Arrived (st fun h => { h with lq := #v[[words 4 4], [], [], []] }).me [0]
    ∧ ((st (done ∘ win (.opa ⟨x0, 0, .v 1, .v 2, 5⟩) 0 0 0)).me.win.all fun e => e.begun && decide (e.vl ≤ e.prog)) = true := by
  refine ⟨works _ _ (by decide +kernel), by unfold ShapeOk LinesOk; decide +kernel, ⟨by decide, fun q h => ?_⟩, by decide +kernel⟩
  cases List.mem_singleton.1 h
  exact ⟨words 4 4, [], rfl, rfl⟩
/-- RankGroupsAccumulate: an outer product of FP16, one of E4M3, one of BFP4, one of INT8. -/
def ranked (fw : Dbl) : State := stc (win (.opa ⟨x0, 0, .v 1, .v 2, 5⟩) fw 0 0x20002) id
theorem wit_ranks : ∀ fw ∈ [0x0C0A0A#64, 0x0C0808#64, 0x0C1414#64, 0x030000#64],
    (let s := ranked fw
     XWorks s me0 ∧ ShapeOk (ctx s) ∧ groupReady (ctx s) (xdOpa ⟨x0, 0, .v 1, .v 2, 5⟩) 0 (min 4 ((0 / 1 + 1) * 1)) = true
       ∧ ((begunCtx s me0 (xdOpa ⟨x0, 0, .v 1, .v 2, 5⟩)).hart me0).win.length = 1) := by
  intro fw h
  simp only [List.mem_cons, List.not_mem_nil, or_false] at h
  obtain rfl | rfl | rfl | rfl := h <;> exact ⟨works _ _ (by decide +kernel), by unfold ShapeOk; decide +kernel, by decide +kernel, by decide +kernel⟩
theorem wit_rank_classes :
    classNow base.myCore 0x0C0A0A false = .half ∧ classNow base.myCore 0x0C0808 true = .eight ∧ classNow base.myCore 0x0C1414 false = .block
    ∧ classNow base.myCore 0x030000 true = .integer ∧ (intForm 0).isSome = true ∧ ¬Coded 0x0A ∧ ¬Coded 0x08 := by unfold Coded; decide +kernel
/-- BanksAreLoadedAndInvalidated: 16 BF16 entries, at a slot of 36,864 / 16 bytes. -/
theorem wit_banks :
    (0x0F#8).toNat + 1 ≤ 256 ∧ (15 + 1) * 2 ^ (0#2).toNat * (codeBits 0x0B / 8) ≤ slotSize (stc id pool) me0
    ∧ bankHolds (ctx (stc (win (.cbld ⟨0, none, 12, 2, 0x0B, 0, 15⟩) 0 0 0) pool)) = false
    ∧ bankHolds (ctx (stc (win (.cbinv ⟨0, 0x8001⟩) 0 0 0) pool)) = false ∧ (stc id pool).mem.wf := by decide +kernel

/-! Events. -/

/-- The hart waits at the instruction in slot 0 of the line it has entered. -/
def awaits (i : Instr) (w : Wait) (f : Hart → Hart) : State :=
  stc (fun h => { f h with wait := some w, line := some (0, instrLine 96 (wordOf i)) }) pool
def found (s : State) : State := ((fetched (fetch { s with cur := me0 } me0)).getD (s, .nop ⟨g0⟩)).1
/-- The hart may issue, and finds i. -/
def Stands (s : State) (i : Instr) : Prop :=
  canIssue s me0 = true ∧ (fetched (fetch { s with cur := me0 } me0)).map (·.2) = some i ∧ (found s).me.phase = .running ∧ (found s).wbuf = []
    ∧ (found s).me.guards g0 = true
theorem stands {s : State} {i : Instr} (h : Stands s i) : Finds s (found s) me0 i ∧ Live (found s) := by
  refine ⟨⟨h.1, ?_⟩, h.2.2.1, h.2.2.2.1⟩
  have k := h.2.1
  unfold found
  generalize fetch { s with cur := me0 } me0 = f at k ⊢
  cases f with
  | run t j => cases k; rfl
  | ended t => cases k
/-- WakingEventsCompleteTheInstruction, one for each event. -/
theorem wit_wakes_x :
    Stands (awaits (.vadd ⟨x0, .v 1, .v 2, .v 3, 2⟩) .window id) (.vadd ⟨x0, .v 1, .v 2, .v 3, 2⟩)
    ∧ Stands (awaits (.vadd ⟨x0, .v 1, .v 2, .v 3, 2⟩) .bank id) (.vadd ⟨x0, .v 1, .v 2, .v 3, 2⟩)
    ∧ ∃ d, MayPass (found (awaits (.vadd ⟨x0, .v 1, .v 2, .v 3, 2⟩) .window id)) (.vadd ⟨x0, .v 1, .v 2, .v 3, 2⟩) d := by
  refine ⟨by unfold Stands; decide +kernel, by unfold Stands; decide +kernel, _, rfl, ⟨⟨by decide +kernel, by decide +kernel⟩, by decide +kernel⟩, by decide +kernel,
    fun h => (by cases h), fun h => (by cases h), by decide +kernel, by decide +kernel, by decide +kernel⟩
theorem wit_wakes_queues :
    (let s := awaits (.popx ⟨g0, 5⟩) (.queue 0x66) fun h => { h with xq := [7] }
     Stands s (.popx ⟨g0, 5⟩) ∧ (found s).me.xq = [7] ∧ (found s).me.eix = 0 ∧ (found s).me.claim = none ∧ (found s).me.sup = false)
    ∧ (let s := awaits (.xsync ⟨g0⟩) .xsync id
       Stands s (.xsync ⟨g0⟩) ∧ (found s).me.win = [])
    ∧ (let s := awaits (.nbfence ⟨g0⟩) .nbfence id
       Stands s (.nbfence ⟨g0⟩) ∧ (found s).me.nb = [])
    ∧ (let s := awaits (.exit ⟨g0⟩) .exit id
       Stands s (.exit ⟨g0⟩) ∧ (found s).me.win = [] ∧ (∀ e ∈ (found s).myCore.engines, e.hid ≠ 0) ∧ (∀ p ∈ (found s).posted, p.h ≠ me0) ∧ NoPools (found s).me) := by
  unfold Stands; decide +kernel
theorem wit_wakes_launch :
    (let s := awaits (.waiti ⟨g0, 0, 1⟩) .waiti id
     let t := found s
     let cores := (t.launch 0).w * (t.launch 0).h
     Stands s (.waiti ⟨g0, 0, 1⟩) ∧ (t.me.s 0).toNat ≤ ((t.core 0 ((0 + cores - 1) % cores)).pace[1]).toNat)
    ∧ (let s := awaits (.gong ⟨g0, 1, 1⟩) .gong fun h => { h with gongs := [((1, 1), 1)], arrived := some (0, (1, 1), 1) }
       let t := found s
       Stands s (.gong ⟨g0, 1, 1⟩) ∧ NoReadsOut t.me ∧ t.me.arrived = some (t.me.pc, (1, 1), 1) ∧ (t.launch 0).w % 1 = 0
         ∧ ∀ k ∈ gongCores (t.launch 0) (1, 1) 0, ∀ g ∈ t.coreHarts 0 k, (t.hart g).phase = .exited ∨ 1 ≤ tget 0 (t.hart g).gongs (1, 1))
    ∧ (let s := awaits (.acwait ⟨g0, 3⟩) .acwait id
       Stands s (.acwait ⟨g0, 3⟩) ∧ ((found s).myCore.arrivals[3]).e.toNat ≤ ((found s).myCore.arrivals[3]).c.toNat ∧ NoReadsOut (found s).me) := by
  unfold Stands NoReadsOut; decide +kernel
theorem wit_wakes_tags :
    (let s := awaits (.twaitall ⟨g0, 2⟩) .tags id
     Stands s (.twaitall ⟨g0, 2⟩) ∧ (found s).me.s 2 &&& ~~~(found s).me.tagown = 0 ∧ NoneBusy (found s) ((found s).me.s 2))
    ∧ (let s := awaits (.twaitany ⟨g0, 3, 2⟩) .tags id
       Stands s (.twaitany ⟨g0, 3, 2⟩) ∧ NoneBusy (found s) ((found s).me.s 2)) := by
  unfold Stands NoneBusy; decide +kernel
theorem no_other {s : State} (h : s.harts.all (fun x => x.1 == s.cur) = true) (l : Nat) : behind s s.cur l = false := by
  have k : s.harts.any (fun (id, h) => id != s.cur && h.phase == .running && h.wait.any (Wait.forLine l) && h.waitNo < (s.hart s.cur).waitNo) = false := by
    rw [List.any_eq_false]
    rintro ⟨id, x⟩ hx
    have e := List.all_eq_true.1 h _ hx
    simp only [beq_iff_eq] at e
    simp [e]
  unfold behind
  rw [k, Bool.and_false]
theorem wit_wakes_lease :
    let s := awaits (.lease ⟨g0, 1, 16, 0⟩) (.leaseGrant 1) (s1 0x10000)
    let t := found s
    Stands s (.lease ⟨g0, 1, 16, 0⟩) ∧ isOk (chk t .both 0x10000 1).2 = true ∧ pteC (pageOf (pgs t .both 0x10000 1) 0x10000).pte = true
      ∧ t.me.leases = [] ∧ leased t me0 true (keyAt t (pgs t .both 0x10000 1) 0x10000 / 64) = false
      ∧ interlocked t.myCore 0 false (0x10000 / 64 * 64) (0x10000 / 64 * 64 + 64) = false ∧ ¬RowsLeft t.me (fun _ => True) ∧ (∀ p, ¬Behind t p)
      ∧ (∀ l, behind t t.cur l = false) ∧ crossFar t me0 [keyAt t (pgs t .both 0x10000 1) (0x10000 / 64 * 64) / 64] = none := by
  refine ⟨by unfold Stands; decide +kernel, by decide +kernel, by decide +kernel, by decide +kernel, by decide +kernel, by decide +kernel,
    no_rows (by decide +kernel) _, no_behind (by decide +kernel), no_other (by decide +kernel), by decide +kernel⟩
theorem wit_wakes_load :
    let s := awaits (.ldd ⟨g0, 3, 1, .none, .plain, 0⟩) .interlock (s1 0x1FFF8)
    Stands s (.ldd ⟨g0, 3, 1, .none, .plain, 0⟩)
      ∧ Reaches (found s) (chk (found s) .load 0x1FFF8 8).1 .load false 0x1FFF8 8 (pgs (found s) .load 0x1FFF8 8)
      ∧ Coherent (found s) (pgs (found s) .load 0x1FFF8 8) 0x1FFF8 8 :=
  ⟨by unfold Stands; decide +kernel, reaches (by decide +kernel) (by decide +kernel), coherent (by decide +kernel) (by decide +kernel)⟩
theorem wit_wakes_engine :
    let s := awaits (.pfill ⟨g0, 1, 3, 2, 2, .none, 3, true⟩) .engine (tagged ∘ s2 0x100 ∘ s1 0x10000)
    let r := rangeCheck (found s) (found s).me true ⟨true, 0x10000, 0x100⟩
    Stands s (.pfill ⟨g0, 1, 3, 2, 2, .none, 3, true⟩) ∧ (found s).me.tagown.getLsbD 3 = true ∧ r = (r.1, .ok (okOf ([], none) r.2))
      ∧ CoreIdle (found s) := by
  refine ⟨by unfold Stands; decide +kernel, by decide +kernel, pair_ok _ _ (by decide +kernel), core_idle (by decide +kernel)⟩
/-- CsrWriteEventsMakeTheWrite. -/
theorem wit_csr_writes :
    ∀ c ∈ [Csr.vl, .vlcap, .teix, .tvec, .fflags, .ptbase], Stands (awaits (.csrw ⟨g0, c, .reg 2⟩) .window fun h => { h with sup := true }) (.csrw ⟨g0, c, .reg 2⟩)
      ∧ (isTrapCsr c = true → (found (awaits (.csrw ⟨g0, c, .reg 2⟩) .window fun h => { h with sup := true })).me.sup = true) := by
  unfold Stands; decide +kernel
/-- HartEventsHappenAtTheirTime: a pause and a deferral that end now, and ones that do not; both sides blocked for 4,095 and 4,096 cycles. -/
theorem wit_hart_times :
    (let s := { st fun h => { h with pause := 5, ydEnd := 5 } with cycle := 5 }
     (s.hart me0).pause ≠ 0 ∧ (s.hart me0).pause ≤ s.cycle ∧ (s.hart me0).ydEnd ≤ s.cycle) ∧ base.cycle < 5
    ∧ (let s := st fun h => { h with wait := some (.queue 0x60), blocked := 4096 }
       (s.hart me0).phase = .running ∧ (s.launch 0).phase = .running ∧ (s.hart me0).sup = false ∧ (s.hart me0).win = []
         ∧ (s.hart me0).wait = some (.queue 0x60) ∧ 4096 ≤ (s.hart me0).blocked ∧ (s.hart me0).eix < 2 ^ 14) := by decide +kernel
theorem wit_peer_answer :
    let s := awaits (.ldd ⟨g0, 3, 1, .none, .plain, 0⟩) (.peer 0) (s1 0x3FFF8)
    let u := s.updHart me0 fun y => { y with answers := (0, .accept 7) :: y.answers, wait := none }
    (s.hart me0).wait = some (.peer 0) ∧ Stands u (.ldd ⟨g0, 3, 1, .none, .plain, 0⟩) ∧ isOk (chk (found u) .load 0x3FFF8 8).2 = true
      ∧ (pageOf (pgs (found u) .load 0x3FFF8 8) 0x3FFF8).isLocal = false ∧ (pageOf (pgs (found u) .load 0x3FFF8 8) 0x3FFF8).isSelf (found u) = false
      ∧ (s.hart me0).answers = [] ∧ (found u).posted = [] := by unfold Stands; decide +kernel
/-- Both sides blocked on each other: the A side on lq0 and the X side without an entry; the X side on lq0, which has none. -/
theorem wit_blocked :
    (aWaits (st fun h => { h with wait := some (.queue 0x60) }).me 0x60 ∧ xWaits (st fun h => { h with wait := some (.queue 0x60) }).me 0xFF)
    ∧ aWaits (awaits (.vmov ⟨x0, .v 1, .lq 0, 2⟩) .window id).me 0xFF
    ∧ xWaits (st fun h => { h with win := [entry (.vmov ⟨x0, .v 1, .lq 0, 2⟩)] }).me 0x60 := by
  refine ⟨⟨.inl (by decide +kernel), .inl ⟨rfl, by decide +kernel⟩⟩, .inr ⟨rfl, .inl (by decide +kernel)⟩,
    .inr ⟨entry (.vmov ⟨x0, .v 1, .lq 0, 2⟩), [], _, by decide +kernel, rfl, .inl ⟨[], 0, [], by decide +kernel, fun _ h => (by cases h), by decide, .inl (by decide +kernel)⟩⟩⟩

/-! The queue scheduler. -/

theorem flag_eq {α β : Type} (r : α × β) {b : β} (h : r.2 = b) : r = (r.1, b) := by
  obtain ⟨a, c⟩ := r
  cases h
  rfl
/-- A start record of one core and one hart of the image at virtual address 0, and one whose width is 0 (R89). -/
def record (width : Nat) : List Byte :=
  toBytes 32 0 ++ toBytes 8 (width + 2 ^ 16 + 2 ^ 32 + 2 ^ 48 * 9) ++ toBytes 8 1 ++ toBytes 16 (0x7000 + 2 ^ 32 * 0x7000 + 2 ^ 64 * 0x10000)
    ++ toBytes 24 0 ++ toBytes 16 (2 ^ 128 - 1) ++ toBytes 24 0
/-- The header of an image with one line of text at offset 128 (R30). -/
def image : List Byte :=
  toBytes 8 (0x494B4D45 + 2 ^ 32) ++ toBytes 8 (9 + 256 * 13 + 65536 + 2 ^ 24) ++ toBytes 16 0 ++ toBytes 16 (128 + 2 ^ 64 * 64) ++ toBytes 16 65536
    ++ toBytes 32 0
/-- Queue 0 is valid, with a ring of 16 records at 0x1_C000 and one record ready. -/
def queued (width : Nat) (u : UserQ) : State :=
  let s := sched [(0x10000, 8, 1), (0x18000, 8, 0x1C000), (0x18008, 2, 0x104)] fun p => { p with queues := [(0, u)], wanting := if u.phase = .wanting then [0] else [] }
  { s with mem := (s.mem.puts (hbmKey 1 0x4C000) (record width)).puts (hbmKey 1 0x30000) image }
def mappedQ : UserQ := { wanting with phase := .mapped }
def flags (s t : State) (p q : Nat) : Prop :=
  let r := schedRead s p (tableAddr s p q + 9) 1
  let y := schedPages t p (· == 0) (tableAddr t p q + 9) 1
  t = r.1 ∧ FlagsReach s r.1 y.1 p q (okOf 0 r.2) (okOf [] y.2)
theorem flags_ok {s : State} {p q : Nat} (h : isOk (schedRead s p (tableAddr s p q + 9) 1).2 = true)
    (k : isOk (schedPages (schedRead s p (tableAddr s p q + 9) 1).1 p (· == 0)
      (tableAddr (schedRead s p (tableAddr s p q + 9) 1).1 p q + 9) 1).2 = true) :
    flags s (schedRead s p (tableAddr s p q + 9) 1).1 p q := ⟨rfl, pair_ok _ _ h, pair_ok _ _ k⟩
/-- QueuesAreMappedAndUnmapped: a Wanting queue is mapped to slot 0. -/
theorem wit_map :
    let s := queued 1 wanting
    let r := readTable (s.updPart 0 fun x => { x with wanting := [] }) 0 0
    let e := okOf ⟨0, 0, 0, 0, 0⟩ r.2
    let z := r.1.setQ 0 0 { s.userQ 0 0 with phase := .mapped, slot := 0, mappedAt := s.cycle, activeAt := s.cycle, head := e.head, done := e.done }
    schedUp s 0 = true ∧ (s.part 0).wanting = [0] ∧ slotQueue s 0 0 = none ∧ r = (r.1, .ok e) ∧ flags z (schedRead z 0 (tableAddr z 0 0 + 9) 1).1 0 0 :=
  ⟨by decide +kernel, by decide +kernel, by decide +kernel, pair_ok _ _ (by decide +kernel), flags_ok (by decide +kernel) (by decide +kernel)⟩
/-- A mapped queue 1 with nothing in it, and queue 0 Wanting. -/
def idleQ : State :=
  let s := queued 1 wanting
  s.updPart 0 fun x => { x with queues := x.queues ++ [(1, mappedQ)] }
theorem wit_unmap_start :
    let s := { idleQ with launches := [] }
    let r := unmapChoice s 0
    r = (r.1, .ok (some 0)) ∧ slotQueue s 0 0 = some 1 := by
  refine ⟨?_, by decide +kernel⟩
  have h : isOk (unmapChoice { idleQ with launches := [] } 0).2 = true ∧ okOf none (unmapChoice { idleQ with launches := [] } 0).2 = some 0 := by decide +kernel
  exact h.2 ▸ pair_ok none _ h.1
/-- An unmapping queue with a ready record is Wanting again; one without is not. -/
theorem wit_unmap_complete :
    (let s := queued 1 { mappedQ with phase := .unmapping }
     let r := readTable s 0 0
     let n := readNotify r.1 0 0
     let z := becomeWanting (n.1.setQ 0 0 { s.userQ 0 0 with phase := .unmapped, pending := false }) 0 0 (okOf ⟨0, 0, 0, 0, 0⟩ r.2)
     slotQueue s 0 0 = some 0 ∧ r = (r.1, .ok (okOf ⟨0, 0, 0, 0, 0⟩ r.2)) ∧ n = (n.1, .ok (okOf 0 n.2))
       ∧ 0 < min (okOf 0 n.2) (0 + 2 ^ (okOf ⟨0, 0, 0, 0, 0⟩ r.2).lgsize) ∧ flags z (schedRead z 0 (tableAddr z 0 0 + 9) 1).1 0 0)
    ∧ (let s := queued 1 { mappedQ with phase := .unmapping, head := 1 }
       let r := readTable s 0 0
       let n := readNotify r.1 0 0
       let z := n.1.setQ 0 0 { s.userQ 0 0 with phase := .unmapped, pending := false }
       ¬1 < min (okOf 0 n.2) (1 + 2 ^ (okOf ⟨0, 0, 0, 0, 0⟩ r.2).lgsize) ∧ flags z (schedRead z 0 (tableAddr z 0 0 + 9) 1).1 0 0) :=
  ⟨⟨by decide +kernel, pair_ok _ _ (by decide +kernel), pair_ok _ _ (by decide +kernel), by decide +kernel, flags_ok (by decide +kernel) (by decide +kernel)⟩,
    by decide +kernel, flags_ok (by decide +kernel) (by decide +kernel)⟩
/-- RecordsAreTaken: the states of taking record 0 of queue 0. -/
def takeAt (width : Nat) : State × State × Nat :=
  let s := queued width mappedQ
  let n := readNotify (readTable s 0 0).1 0 0
  let x := schedWrite (n.1.setQ 0 0 { s.userQ 0 0 with head := 1, activeAt := s.cycle }) 0 (tableAddr n.1 0 0 + 16) 8 1
  let y := schedRead x.1 0 0x1C000 128
  (x.1, y.1, okOf 0 y.2)
theorem wit_record :
    let s := queued 1 mappedQ
    let r := readTable s 0 0
    let n := readNotify r.1 0 0
    let x := schedWrite (n.1.setQ 0 0 { s.userQ 0 0 with head := 1, activeAt := s.cycle }) 0 (tableAddr n.1 0 0 + 16) 8 1
    let y := schedRead x.1 0 0x1C000 128
    slotQueue s 0 0 = some 0 ∧ (s.userQ 0 0).phase = .mapped ∧ (s.userQ 0 0).taken = none ∧ r = (r.1, .ok (okOf ⟨0, 0, 0, 0, 0⟩ r.2))
      ∧ n = (n.1, .ok (okOf 0 n.2)) ∧ 0 < min (okOf 0 n.2) (0 + 2 ^ (okOf ⟨0, 0, 0, 0, 0⟩ r.2).lgsize) ∧ x = (x.1, .ok ())
      ∧ (okOf ⟨0, 0, 0, 0, 0⟩ r.2).base = 0x1C000 ∧ y = (y.1, .ok (okOf 0 y.2)) :=
  ⟨by decide +kernel, by decide +kernel, by decide +kernel, pair_ok _ _ (by decide +kernel), pair_ok _ _ (by decide +kernel), by decide +kernel,
    flag_eq _ (by decide +kernel), by decide +kernel, pair_ok _ _ (by decide +kernel)⟩
/-- It passes every check; the one whose width is 0 breaks order 1 at offset 32. -/
def noImage : Image := ⟨0, 0, 0, 0, 0, 0, 0, 0, 0, 0, 0, 0, 0, 0, 0, 0, 0, 0, 0, 0⟩
theorem wit_record_checks :
    let y := takeAt 1
    let o := order1 y.2.1 0 0 0 y.2.2 (parseRecord y.2.2)
    let m := prepare o.1 0 (parseRecord y.2.2)
    let d := measure m.1 0 0 (okOf (noImage, 0) m.2).1
    isOk o.2 = true ∧ okOf (some 0) o.2 = none ∧ isOk m.2 = true ∧ isOk d.2 = true ∧ isOk (tokensMet d.1 0 (parseRecord y.2.2)).2 = true ∧ (parseRecord y.2.2).width.toNat ≤ partWidth (m.1.part 0).dies
      ∧ (parseRecord y.2.2).height.toNat ≤ partHeight (m.1.part 0).dies := by decide +kernel
theorem wit_record_bad :
    let y := takeAt 0
    let o := order1 y.2.1 0 0 0 y.2.2 (parseRecord y.2.2)
    let z := writeCompletion o.1 0 (parseRecord y.2.2).compl.toNat (parseRecord y.2.2).seq.toNat 3 32 0 0
    let u := finishRecord z.1 0 0 0
    o = (o.1, .ok (some 32)) ∧ z = (z.1, none) ∧ u = (u.1, none) ∧ refreshTokens u.1 0 = ((refreshTokens u.1 0).1, none) := by
  refine ⟨?_, flag_eq _ (by decide +kernel), flag_eq _ (by decide +kernel), flag_eq _ (by decide +kernel)⟩
  have h : isOk (order1 (takeAt 0).2.1 0 0 0 (takeAt 0).2.2 (parseRecord (takeAt 0).2.2)).2 = true
    ∧ okOf none (order1 (takeAt 0).2.1 0 0 0 (takeAt 0).2.2 (parseRecord (takeAt 0).2.2)).2 = some 32 := by decide +kernel
  exact h.2 ▸ pair_ok none _ h.1
theorem wit_order4 : order4 (parseRecord (ofBytes (record 1))) 0 0 = none := by decide +kernel
/-- PlacementStartsTheLaunch: a candidate of queue 0, beside the launch that stands at (0, 0). -/
def taken0 : Taken := { n := 0, meas := 0, rec_ := Record.zero, entry := 128, frame := 0, scratch := 0, cbslot := 0, candidate := true, waited := 0 }
def placing (f : Launch → Launch) : State :=
  let s := queued 1 { mappedQ with taken := some taken0 }
  { s with launches := [(0, f (s.launch 0))] }
theorem wit_placement :
    choice (placing id) 0 = some (⟨.fresh 0, 0, 0, 0, 1, 1⟩, 1, 0) ∧ (((placing id).part 0).queues.map (·.1)).Nodup
    ∧ ((placing id).userQ 0 0).taken = some taken0 := by decide +kernel
/-- SlicesExpireAndLaunchesHalt: a tick that is not due and one that is; an expired launch with a candidate of its priority, and with
none of as high a one; a launch whose pre-emption is requested. -/
theorem wit_slices :
    (base.part 0).startedAt + ((base.part 0).ticks + 1) * 2 ^ (base.part 0).slicelg = 2 ^ 20 ∧ base.cycle < 2 ^ 20 ∧ schedUp base 0 = true
    ∧ (let s := placing fun x => { x with expired := true }
       (s.launch 0).expired = true ∧ (s.launch 0).phase = .running ∧ (∃ c ∈ candidates s 0, (s.launch 0).rec_.prio.toNat ≤ min 7 (c.prio + c.waited / 4))
         ∧ ∀ y ∈ s.launches, y.2.part = (s.launch 0).part → y.2.expired = true → (s.launch 0).slot ≤ y.2.slot)
    ∧ (let s := placing fun x => { x with expired := true, rec_ := { Record.zero with prio := 1 } }
       ∀ c ∈ candidates s 0, min 7 (c.prio + c.waited / 4) < (s.launch 0).rec_.prio.toNat)
    ∧ (let s := placing fun x => { x with preempt := true }
       (s.launch 0).preempt = true ∧ (s.hart me0).wait = none ∧ (s.hart me0).answers = [])
    ∧ (let s := placing fun x => { x with stop := true }
       (s.launch 0).stop = true ∧ (s.launch 0).phase = .running) := by decide +kernel
/-- LaunchesAreSavedAndResumed: a launch whose save area lies past the last virtual address, halted, and saved with room for it. -/
def halted (ph : LPhase) : State :=
  { base with launches := [(0, { Launch.idle with phase := ph })], harts := [(me0, { base.me with phase := .halted, savearea := 0x80000000000000 })] }
theorem wit_save :
    (saveContext (halted .halted) 0).2 = false ∧ ((halted .halted).launch 0).stop = false ∧ (halted .halted).cachedW = [] ∧ (halted .halted).seen = []
    ∧ (halted .halted).badL1 = [] ∧ base.badL1 = [] ∧ (∀ y ∈ (halted .halted).cores, y.1.1 = 0 → y.2.engines = []) ∧ (∀ y ∈ (halted .halted).posted, y.h.l ≠ 0)
    ∧ ((halted .halted).hart me0).nb = [] ∧ readsOut ((halted .halted).hart me0) = false := by decide +kernel
/-- An area past the last virtual address. -/
theorem load_item (l : Nat) (area : Nat × Dbl) (s : State) (x : Item) (h : 2 ^ 55 ≤ area.1) : (loadItem l area s x).2 = false := by
  have k : saveKeys s l area x.off x.len = (s, .ok []) ∨ saveKeys s l area x.off x.len = (s, .error .unreachable) := by
    unfold saveKeys rootPages walkPages
    dsimp only
    rw [if_pos (show 2 ^ 55 ≤ area.1 + x.off by omega)]
    by_cases n : x.len = 0
    · rw [if_pos n, n]; exact .inl rfl
    · rw [if_neg n]; exact .inr rfl
  unfold loadItem
  obtain k | k := k <;> rw [k]
  simp [needsBad, coherentBad, dirtyL1, badUnit, memBad]
theorem load_items (l : Nat) (area : Nat × Dbl) (h : 2 ^ 55 ≤ area.1) (xs : List Item) (s : State) : (overItems (loadItem l area) xs s).2 = false := by
  induction xs generalizing s with
  | nil => rfl
  | cons x t ih =>
    have k := load_item l area s x h
    unfold overItems
    split
    · rename_i e; rw [e] at k; cases k
    · exact ih _
theorem wit_resume : choice (halted .saved) 0 = some (⟨.saved 0, 0, 0, 0, 1, 1⟩, 0, 0) ∧ (loadContext (halted .saved) 0).2 = false :=
  ⟨by decide +kernel, load_items 0 _ (by decide +kernel) _ _⟩
/-- LaunchesCompleteAndTheWatchdogExpires: every hart has executed EXIT, and the completion record goes to page 1. -/
def exited : State :=
  let s := queued 1 { mappedQ with head := 1 }
  { s with launches := [(0, { Launch.idle with phase := .running, rec_ := { Record.zero with compl := 0x10020 } })],
           harts := [(me0, { s.me with phase := .exited })] }
theorem wit_complete :
    let s := exited
    let e := okOf [] (schedPages s 0 (· != 2) 0x10020 32).2
    let w := writeCompletion s 0 0x10020 0 0 0 1 0
    let z := finishRecord (w.1.setQ 0 0 { w.1.userQ 0 0 with activeAt := s.cycle }) 0 0 0
    (s.hart me0).phase = .exited ∧ isOk (schedPages s 0 (· != 2) 0x10020 32).2 = true ∧ e.length = 1 ∧ (∀ x ∈ e, x.isLocal = true)
      ∧ w.2 = none ∧ z.2 = none ∧ (refreshTokens (dropLaunch z.1 0) 0).2 = none := by decide +kernel
def late : State := { base with cycle := 2 ^ 24, parts := [(0, { base.part 0 with polledAt := 2 ^ 24 - 1 })] }
theorem wit_watchdog : partUp base 0 = true ∧ partUp late 0 = true ∧ schedUp base 0 = true ∧ base.cycle < (base.part 0).answeredAt + 2 ^ 24 ∧ base.cycle < (base.part 0).polledAt + 2 ^ 20
    ∧ schedUp late 0 = true ∧ (late.part 0).answeredAt + 2 ^ 24 ≤ late.cycle ∧ late.cycle < (late.part 0).polledAt + 2 ^ 20
    ∧ (base.part 0).polledAt + 2 ^ 20 ≤ late.cycle := by decide +kernel

/-! Spoke, the links, the server and the module. -/

/-- PeerAccessesAreAnsweredAsOne: the last 8 bytes of installed HBM, and 8 bytes of which the last lies beyond them. -/
def lastKeys : List Nat := (List.range 8).map fun i => hbmKey 1 (hbmSize 1 - 8 + i)
theorem wit_peer :
    5 ∈ base.md.members ∧ base.md.linkOk ≠ 0 ∧ (∀ i (h : i < lastKeys.length), peerKey base (hbmSize 1 - 8 + i) = some lastKeys[i]) ∧ lastKeys.length = 8
    ∧ NoErrors base ∧ peerKey base (hbmSize 1 - 7 + 7) = none ∧ base.mem.wf := by
  unfold NoErrors; decide +kernel
theorem wit_peer_lease :
    NoLease base true lastKeys ∧ NoLease base false lastKeys
    ∧ ¬NoLease (st fun h => { h with leases := [⟨0, hbmKey 1 (hbmSize 1 - 8) / 64, 9, 0, []⟩] }) false lastKeys
    ∧ ¬NoLease (st fun h => { h with leases := [⟨0, 0, 9, 0, [hbmKey 1 (hbmSize 1 - 8) / 64]⟩] }) true lastKeys := by
  unfold NoLease; decide +kernel
/-- A hart's own lease does not hold its posted store over the module's own links, another hart's does. -/
theorem wit_posted_lease :
    (let s := st fun h => { h with leases := [⟨0, hbmKey 1 0 / 64, 9, 0, []⟩] }
     NoLease s true [hbmKey 1 0] (some me0) ∧ ¬NoLease s true [hbmKey 1 0] (some ⟨0, 0, 1⟩)) := by
  unfold NoLease; decide +kernel
/-- A write of the server to a page with no lease, and with one. -/
theorem wit_server_lease :
    NoLease base true (keysOf base 0 (okOf [] (schedPages base 0 (· < 2) 0x10000 8).2) 0x10000 8)
    ∧ ¬NoLease (st fun h => { h with leases := [⟨0, hbmKey 1 0x40000 / 64, 9, 0, []⟩] }) true
        (keysOf base 0 (okOf [] (schedPages base 0 (· < 2) 0x10000 8).2) 0x10000 8)
    ∧ isOk (schedPages base 0 (· < 2) 0x10000 8).2 = true := by
  unfold NoLease; decide +kernel
theorem wit_posted :
    (let p : Posted := { id := 3, h := me0, mod := some 5, pa := 0, bytes := [(0, 1)] }
     let s := { base with posted := [p] }
     s.posted.find? (·.id == 3) = some p ∧ ¬Follows s p ∧ p.mod ≠ s.md.modId)
    ∧ (let p : Posted := { id := 3, h := me0, mod := some 5, pa := 0, bytes := [(0, 1)] }
       Follows { base with posted := [p, { p with id := 4, after := [3] }] } { p with id := 4, after := [3] })
    ∧ (let p : Posted := { id := 3, h := me0, mod := some 9, pa := 0, bytes := [(0, 1)] }
       p.mod = base.md.modId ∧ peerKey base p.pa = some (hbmKey 1 0)) := by unfold Follows; decide +kernel
/-- LinksReplayAndFail: a partition that waits for a peer, and one that does not; a port of the partition's die, and one of another. -/
theorem wit_links :
    usesSpoke (st fun h => { h with wait := some (.peer 0) }) 0 = true ∧ usesSpoke base 0 = false
    ∧ (∀ y ∈ base.parts, y.2.dies.getLsbD (1 / 2) = true) ∧ ∀ y ∈ base.parts, y.2.dies.getLsbD (2 / 2) = false := by decide +kernel
/-- ServerWritesAndNotifies: a registered range that holds the notify window and page 2, and a queue 1 whose table entry is valid; writes to
page 2, to a word of the window, across its end, and to half a word. -/
def serving : State :=
  let s := queued 1 mappedQ
  { s with mem := (s.mem.puts (hbmKey 1 0x48029) [1]).puts (hbmKey 1 0x48028) [4], md := { s.md with regions := [⟨0, 0x10000, 0x90000⟩] } }
def lostEth : State := { serving with md := { serving.md with ethOk := 2 } }
theorem wit_server :
    serving.md.ethOk.getLsbD 0 = true ∧ lostEth.md.ethOk.getLsbD 0 = false ∧ (∃ pt, (0, pt) ∈ serving.parts)
    ∧ (∃ r ∈ serving.md.regions, r.part = 0 ∧ r.base ≤ 0x90000 ∧ 0x90000 + 8 ≤ r.base + r.len)
    ∧ (¬∃ r ∈ serving.md.regions, r.part = 0 ∧ r.base ≤ 0x9FFFC ∧ 0x9FFFC + 8 ≤ r.base + r.len)
    ∧ min (0x90000 + 8) ((serving.part 0).notify.toNat + 524288) ≤ max 0x90000 (serving.part 0).notify.toNat
    ∧ max 0x1000C (serving.part 0).notify.toNat < min (0x1000C + 8) ((serving.part 0).notify.toNat + 524288) ∧ (0x1000C - 0x10000) % 8 ≠ 0
    ∧ isOk (schedPages serving 0 (· < 2) 0x10008 8).2 = true ∧ serving.bad = [] ∧ serving.badL2 = []
    ∧ (serving.userQ 0 1).phase = .unmapped ∧ (serving.part 0).started = true := by
  refine ⟨by decide +kernel, by decide +kernel, ⟨_, List.mem_singleton.2 rfl⟩, by decide +kernel, by decide +kernel, by decide +kernel, by decide +kernel,
    by decide, by decide +kernel, by decide +kernel, by decide +kernel, by decide +kernel, by decide +kernel⟩
theorem wit_notified :
    let w := serverPut serving 0 (0x10000 + 8) (toBytes 8 1) id
    let r := readTable w 0 1
    let n := readNotify r.1 0 1
    isOk r.2 = true ∧ (okOf ⟨0, 0, 0, 0, 0⟩ r.2).flags % 2 = 1 ∧ isOk n.2 = true
      ∧ (okOf ⟨0, 0, 0, 0, 0⟩ r.2).head < min (okOf 0 n.2) ((okOf ⟨0, 0, 0, 0, 0⟩ r.2).head + 2 ^ (okOf ⟨0, 0, 0, 0, 0⟩ r.2).lgsize)
      ∧ ¬0 < min (okOf 1 (readNotify r.1 0 2).2) (0 + 2 ^ 0) := by decide +kernel
/-- Both tables in the 512 MiB mapping, whose pages are those of the HBM from 512 MiB on. -/
def wideState : State := { base with parts := [(0, { base.part 0 with notify := 0x20000000, qtable := 0x20100000 })] }
def wideEntry (v : Nat) : TlbEntry := ⟨(wideState.part 0).ptbase, v, 2 ^ 26 * 8192 + 0x6D, 65536 * v, 29, false⟩
theorem wide_found : ∀ i < 48, ((walk wideState (wideState.part 0).dies (wideState.part 0).ptbase (8192 + i)).filter (·.2.isNone)).map (·.1)
    = [wideEntry (8192 + i)] := by decide +kernel
theorem wide_xlate {v : Nat} (l : 8192 ≤ v) (h : v < 8240) : xlateNow wideState 0 (wideState.part 0).ptbase v = (wideState, wideEntry v) := by
  have e := wide_found (v - 8192) (by omega)
  rw [show 8192 + (v - 8192) = v by omega] at e
  have n : noteWalk wideState 0 (wideState.part 0).ptbase v = wideState := by
    unfold noteWalk; rw [show wideState.notLive = [] from rfl]; rfl
  unfold xlateNow
  dsimp only
  rw [n, e]
  rfl
theorem wide_there {v a b : Nat} (h : v < 8240) : wholeThere wideState 0 (wideEntry v) a b = true := by
  have k : ∀ x, installed wideState (wideState.part 0).dies (wideEntry v).pte ((wideEntry v).pa x) = true := by
    intro x
    unfold installed
    rw [show pteTier (wideEntry v).pte = 0 from (by decide : pteTier (2 ^ 26 * 8192 + 0x6D) = 0), show hbmSize (wideState.part 0).dies = 103079215104 from (by decide +kernel)]
    simp only [TlbEntry.pa, wideEntry]
    apply decide_eq_true
    have := Nat.mod_lt x (show 65536 > 0 by decide)
    omega
  unfold wholeThere
  exact List.all_eq_true.2 fun x _ => k x
theorem wide_read {a n : Nat} (l : 2 ^ 29 ≤ a) (h : a + n ≤ 2 ^ 29 + 48 * 65536) (m : 1 ≤ n) (o : a / 65536 = (a + n - 1) / 65536) :
    ∃ v, schedRead wideState 0 a n = (wideState, .ok v) := by
  have x := wide_xlate (v := a / 65536) (by omega) (by omega)
  have w := wide_there (v := a / 65536) (a := a) (b := min (a + n - 1) (65536 * (a / 65536) + 65535)) (by omega)
  have t : schedPages wideState 0 (· == 0) a n = (wideState, .ok [wideEntry (a / 65536)]) := by
    unfold schedPages rootPages
    rw [if_neg (by omega), ← o, show a / 65536 - a / 65536 + 1 = 0 + 1 by omega]
    unfold walkPages
    rw [if_neg (by omega)]
    simp only [x, w, show (wideEntry (a / 65536)).ecc = false from rfl, Bool.and_true,
      show (pteV (wideEntry (a / 65536)).pte && pteTier (wideEntry (a / 65536)).pte == 0) = true from (by decide : (pteV (2 ^ 26 * 8192 + 0x6D) && pteTier (2 ^ 26 * 8192 + 0x6D) == 0) = true)]
    rfl
  unfold schedRead
  rw [t]
  exact ⟨_, rfl⟩
/-- START: every queue's entry and notify word is read with no free choice. -/
theorem wit_start : Notifiable wideState wideState 0 0 65536 := by
  refine ⟨by unfold NoErrors; decide +kernel, rfl, fun r _ h => ⟨?_, ?_, ?_⟩⟩
  · rw [show (wideState.userQ 0 r).phase = .unmapped from rfl]; decide
  · have a : tableAddr wideState 0 r = 0x20100000 + 32 * r := rfl
    obtain ⟨v, k⟩ := wide_read (a := tableAddr wideState 0 r) (n := 32) (by omega) (by omega) (by decide) (by omega)
    exact ⟨_, by unfold readTable; rw [k]⟩
  · have a : notifyAddr wideState 0 r = 0x20000000 + 8 * r := rfl
    obtain ⟨v, k⟩ := wide_read (a := notifyAddr wideState 0 r) (n := 8) (by omega) (by omega) (by decide) (by omega)
    exact ⟨_, by unfold readNotify; rw [k]⟩
/-- A write of the words of queues 1 and 2. -/
theorem wit_notifies : Notifiable serving (serverPut serving 0 0x10008 (toBytes 16 1) id) 0 1 2 := by
  have k : ∀ r ∈ [1, 2], (serving.userQ 0 r).phase ≠ .unmapping
      ∧ isOk (readTable (serverPut serving 0 0x10008 (toBytes 16 1) id) 0 r).2 = true ∧ isOk (readNotify (serverPut serving 0 0x10008 (toBytes 16 1) id) 0 r).2 = true
      ∧ (readTable (serverPut serving 0 0x10008 (toBytes 16 1) id) 0 r).1 = serverPut serving 0 0x10008 (toBytes 16 1) id
      ∧ (readNotify (serverPut serving 0 0x10008 (toBytes 16 1) id) 0 r).1 = serverPut serving 0 0x10008 (toBytes 16 1) id := by decide +kernel
  refine ⟨by unfold NoErrors; decide +kernel, by decide +kernel, fun r l h => ?_⟩
  have k := k r (by have : r = 1 ∨ r = 2 := (by omega); rcases this with e | e <;> rw [e] <;> decide)
  exact ⟨k.1, ⟨_, (pair_ok ⟨0, 0, 0, 0, 0⟩ _ k.2.1).trans (by rw [k.2.2.2.1])⟩, _, (pair_ok 0 _ k.2.2.1).trans (by rw [k.2.2.2.2])⟩
/-- ModulePowersUpAndDown: a first draw of 0. -/
theorem wit_power : State.reset.md.power = .off ∧ ([0#32, 7#32] = [0] ++ 7 :: []) ∧ (∀ z ∈ [0#32], z = 0) ∧ (7#32) ≠ 0 ∧ base.md.power = .ready :=
  ⟨rfl, rfl, by simp, by decide, rfl⟩
theorem wit_throttle :
    ({ base with md := { base.md with throttleEnd := #v[9, 0, 0, 0] } } : State).cycle < 9 ∧ dieOfHart base me0 = 0
    ∧ ({ base with agenda := [.issue me0] } : State).agenda = .issue me0 :: [] := ⟨by decide +kernel, by decide +kernel, rfl⟩
/-- A module at which one operator key is installed. -/
def keyed (c : Cmd) (pk : List Byte) : State :=
  { base with md := { base.md with opKeys := [(c.key, pk)], bootId := c.boot, lastSeq := [(c.key, 0)] } }
theorem wit_in_sequence (c : Cmd) (pk : List Byte) (k : 0 < c.seq.toNat) : InSequence (keyed c pk) c := by
  have e : (keyed c pk).md.lastSeq = [(c.key, 0)] := rfl
  refine ⟨by rfl, ?_⟩
  rw [e]
  simpa [tget] using k
/-- Whatever a signature is that verifies (log 6 leaves the verification open), a command with it, a header of R356 and a sequence number above the
last is accepted. -/
theorem wit_accepted (code : Nat) (c : Cmd) (pk : List Byte) (f : Formed code c) (k : 0 < c.seq.toNat)
    (h : Config.ecdsaVerify pk (Config.sha512 (headed c.magic.toNat c.code.toNat c.rsv.toNat c.len.toNat c c.body)) c.sig = true) :
    Accepted (keyed c pk) code c := by
  refine ⟨by rfl, by rfl, ⟨?_, .inl f.2.2.1⟩, ⟨(c.key, pk), by simp [keyed], h⟩, wit_in_sequence c pk k, f,
    fun x h => by have e : (keyed c pk).md.waiting = [] := rfl; rw [e] at h; cases h⟩
  have e : (keyed c pk).md.ethOk = 3 := rfl
  rw [e]
  revert c
  exact fun c _ _ _ _ => (by decide : ∀ p : BitVec 1, (3 : BitVec 2).getLsbD p.toNat = true) c.port
/-- CommandsAreAcceptedOrRefused: a key that is not installed, a sequence number that is not above the last, a code that no command has, a
reserved field that is not zero, a failed module, one that is off; IDENT's header. -/
def cmd (code : BitVec 16) (part seq : BitVec 32) (body : List Byte) : Cmd :=
  { port := 0, magic := 0x43564C43, code := code, rsv := 0, len := BitVec.ofNat 32 body.length, boot := 7, seq := seq, part := part, key := 5, body := body, sig := [] }
theorem wit_refused :
    ¬Signed base (cmd 3 0 1 []) ∧ ¬InSequence (keyed (cmd 3 0 0 []) []) (cmd 3 0 0 []) ∧ InSequence (keyed (cmd 3 0 1 []) []) (cmd 3 0 1 [])
    ∧ ¬Formed 3 { cmd 3 0 1 [] with rsv := 1 } ∧ Heard base 3 (cmd 13 0 1 []) ∧ ¬Formed 3 (cmd 13 0 1 []) ∧ ¬Heard lostEth 3 (cmd 3 0 1 [])
    ∧ Formed 3 (cmd 3 0 1 []) ∧ Formed 1 { cmd 1 0xFF 0 [] with key := 0 } ∧ ({ base.md with power := .failed } : Module).power ≠ .ready := by
  have e : base.md.ethOk = 3 := rfl
  refine ⟨?_, ?_, wit_in_sequence _ _ (by decide), by unfold Formed; decide +kernel, ?_, by unfold Formed; decide +kernel, ?_,
    by unfold Formed; decide +kernel, by unfold Formed; decide +kernel, by decide⟩
  · rintro ⟨k, h, -⟩
    have e : base.md.opKeys = [] := rfl
    simp [e] at h
  · rintro ⟨-, h⟩
    revert h
    decide +kernel
  · exact ⟨by rw [e]; decide, .inr (.inr (by decide))⟩
  · rintro ⟨h, -⟩
    revert h
    decide +kernel
/-- PartitionCommandsHaveTheirEffect: a body that R373 accepts, and one whose queue table is not aligned; dies that a partition with a launch
has, a partition without one that it meets, and free dies; bodies of LOAD to the end of HBM and of the saddlebag, beyond the end, behind a lost
port, and with a bad tier; harts that can halt, and one that waits for a peer. -/
def partBody (dies q : Nat) : List Byte := toBytes 8 (dies + 2 ^ 16 * 30) ++ toBytes 8 q ++ toBytes 8 0x10000 ++ toBytes 8 0x30 ++ toBytes 8 0x10000 ++ toBytes 8 0
theorem wit_partition :
    ¬PartitionOk (partBody 3 8) ∧ ¬PartitionOk (partBody 7 0x10000) ∧ bodyNat (partBody 3 0x10000) 24 8 = 0x30 ∧ PartitionOk (partBody 10 0x20000)
    ∧ (∃ x ∈ base.parts, x.2.dies &&& BitVec.ofNat 4 (bodyNat (partBody 15 0x10000) 0 1) ≠ 0 ∧ ∃ y ∈ base.launches, y.2.part = x.1)
    ∧ (∀ x ∈ base.parts, x.1 ≠ 1 ∧ x.2.dies &&& BitVec.ofNat 4 (bodyNat (partBody 10 0x10000) 0 1) = 0)
    ∧ (∀ y ∈ ({ base with launches := [] } : State).launches, y.2.part ≠ 0) := by
  unfold PartitionOk; decide +kernel
/-- A launch that a STOP has halted, with nothing in flight; one that runs. -/
def haltedStop : State := { base with launches := [(0, { Launch.idle with phase := .halted, stop := true })] }
theorem quiet_harts (g : HartId) : (haltedStop.hart g).nb = [] ∧ readsOut (haltedStop.hart g) = false := by
  have d : Hart.idle.nb = [] ∧ readsOut Hart.idle = false := by decide +kernel
  by_cases c : g = me0
  · rw [c]; decide +kernel
  · have e : haltedStop.harts = [(me0, base.me)] := rfl
    unfold State.hart tget
    rw [e]
    simp only [Ne.symm c]
    exact d
theorem wit_stop :
    StopReady haltedStop 0 ∧ ¬StopReady base 0 ∧ stopping haltedStop 0 = haltedStop.launches ∧ (((base.part 0).queues.map (·.1)).Nodup)
    ∧ (∃ pt, (0, pt) ∈ base.parts) ∧ ¬∃ pt, (1, pt) ∈ base.parts := by
  refine ⟨fun y h _ => ?_, fun h => ?_, by decide +kernel, by decide +kernel, ⟨_, List.mem_singleton.2 rfl⟩, fun ⟨pt, h⟩ => ?_⟩
  · have e : haltedStop.launches = [(0, haltedStop.launch 0)] := rfl
    rw [e] at h
    rw [List.mem_singleton.1 h]
    exact .inr ⟨by decide +kernel, by decide +kernel, by decide +kernel, by decide +kernel, fun g _ => quiet_harts g⟩
  · have e : base.launches = [(0, base.launch 0)] := rfl
    have k : (base.launch 0).phase = .running := by decide +kernel
    obtain h | h := h _ (e ▸ List.mem_singleton.2 rfl) (by decide +kernel)
    · rw [k] at h; cases h
    · rw [k] at h; cases h.1
  · have e : base.parts = [(0, base.part 0)] := rfl
    rw [e] at h
    cases h with
    | tail _ h => cases h
/-- A command to the partition waits for an earlier one to it; one to the module for every earlier one. -/
def ordered : State := { base with md := { base.md with waiting := [(cmd 6 0 1 [], .stop true)] } }
theorem wit_turn : ¬Turn ordered (cmd 1 0xFF 0 []) ∧ ¬Turn ordered (cmd 4 0 2 []) ∧ Turn ordered (cmd 4 1 2 []) ∧ Turn base (cmd 4 0 2 [])
    ∧ ({ ordered with agenda := [.command] } : State).agenda = .command :: [] := by
  have e : ordered.md.waiting = [(cmd 6 0 1 [], .stop true)] := rfl
  have n : base.md.waiting = [] := rfl
  unfold Turn
  rw [e, n]
  simp [cmd]
def loadBody (tier a n : Nat) : List Byte := toBytes 8 tier ++ toBytes 8 a ++ List.replicate n 1
theorem wit_load :
    (bodyNat (loadBody 0 (hbmSize 1 - 4) 4) 8 8 + ((loadBody 0 (hbmSize 1 - 4) 4).length - 16) ≤ hbmSize (base.part 0).dies)
    ∧ (hbmSize (base.part 0).dies < bodyNat (loadBody 0 (hbmSize 1 - 4) 5) 8 8 + ((loadBody 0 (hbmSize 1 - 4) 5).length - 16))
    ∧ 1 < bodyNat (loadBody 2 0 0) 0 1 ∧ bodyNat (loadBody 256 0 0) 1 7 ≠ 0 ∧ 16 ≤ (loadBody 0 0 0).length
    ∧ (bodyNat (loadBody 1 (sadSize 1 - 4) 4) 8 8 + ((loadBody 1 (sadSize 1 - 4) 4).length - 16) ≤ sadSize (base.part 0).dies)
    ∧ (∀ i, i < 4 → base.md.portOk.getLsbD (sadPort (base.part 0).dies (sadSize 1 - 4 + i)) = true)
    ∧ (∃ i, i < 4 ∧ (0 : BitVec 8).getLsbD (sadPort (base.part 0).dies (sadSize 1 - 4 + i)) = false) ∧ (∃ pt, (0, pt) ∈ base.parts)
    ∧ base.mem.wf ∧ ∀ x ∈ base.harts, x.2.leases = [] := by
  refine ⟨by decide +kernel, by decide +kernel, by decide +kernel, by decide +kernel, by decide +kernel, by decide +kernel, by decide +kernel,
    by decide +kernel, ⟨_, List.mem_singleton.2 rfl⟩, by decide +kernel, by decide +kernel⟩
/-- ModuleCommandsHaveTheirEffect: a domain of two modules and one that lacks its own; limits of 1,200, 2,400 and beyond; the last window; keys
to install, to remove, and the fused one. -/
theorem wit_module :
    (9 ∈ [5, 9] ∧ [5, 9].Nodup ∧ 2 ≤ [5, 9].length ∧ ∀ m ∈ [5, 9], m < 128) ∧ 7 ∉ [5, 9] ∧ 1200 ≤ 2400 ∧ ¬1200 ≤ 1199 ∧ 4095 < 4096
    ∧ (List.replicate 64 (0 : Byte)).length = 64 ∧ (∀ k ∈ base.md.imageKeys, k.1 ≠ 5) ∧ base.md.imageKeys.length < 8
    ∧ (keyed (cmd 12 0xFF 1 []) []).md.opKeys.length < 8 := by decide +kernel
theorem wit_keys (pk : List Byte) :
    (⟨true, true, Config.sha512 pk, pk⟩ : KeysArg).install = true ∧ Config.sha512 pk = (⟨true, true, Config.sha512 pk, pk⟩ : KeysArg).digest
    ∧ (∃ k ∈ [(Config.sha512 pk, pk)], k.1 = Config.sha512 pk) ∧ 8 ≤ (List.replicate 8 ((0 : BitVec 512), pk)).length := by
  simp

/-! ## Single steps and values, from the examples and tables of the spec -/

/-- What is left of a hart after an instruction, where it answers a next state. -/
def ran {α : Type} (d : α) (i : Instr) (s : State) (f : Hart → α) : α := after d (exec i s) fun t => f t.me
/-- R127's word: STRIP s3, s4.w, s5.w with vl 2 and s3 = 2 goes on after the strip; the pointers have moved 8 bytes. -/
theorem test_strip : ran 0 (.strip ⟨g0, 3, 4, 5, 0, 0, 2, 2, 0, 0, 0xFFFFB⟩) (st fun h => s3 2 { h with vl := 2 }) (fun h => (h.s 3, h.s 4, h.s 5, h.vl, h.pc))
    = (0, 8, 8, 0, 12) := by decide +kernel
/-- R45's example: from slot 3 of the line at 0x1_0040 an offset of −7 reaches 0x1_000C. -/
theorem test_relative : relTarget 0x10064 (-7) = 0x1000C ∧ relative 0x10064 (-7) = 0x1000C := by decide
/-- R134: the CRC32C of "123456789" is 0xE306_9283; HASHS of its bytes from the state all ones, complemented. -/
theorem test_hashs : (crcOf 1 (crcOf 8 0xFFFFFFFF#32 0x3837363534333231#64) 0x39#64) ^^^ 0xFFFFFFFF#32 = 0xE3069283#32
    ∧ ran 0 (.hashs ⟨g0, 3, 1, 2, 3⟩) (st (s2 0x3837363534333231 ∘ s1 0xFFFFFFFF)) (·.s 3) = (crcOf 8 0xFFFFFFFF#32 0x3837363534333231#64).setWidth 64 := by
  decide +kernel
theorem test_division : ran 0 (.div ⟨g0, 3, 1, 2⟩) (st (s2 (-2) ∘ s1 7)) (·.s 3) = -3 ∧ ran 0 (.rem ⟨g0, 3, 1, 2⟩) (st (s2 (-2) ∘ s1 7)) (·.s 3) = 1
    ∧ ran 0 (.div ⟨g0, 3, 1, 0⟩) (st (s1 7)) (·.s 3) = -1 ∧ ran 0 (.rem ⟨g0, 3, 1, 0⟩) (st (s1 7)) (·.s 3) = 7 := by decide +kernel
/-- s0 takes no write and reads zero (R121); shifts use the low six bits of their count (R131). -/
theorem test_shift_and_s0 : ran 1 (.shl ⟨g0, 3, 1, 2⟩) (st (s2 65 ∘ s1 3)) (·.s 3) = 6 ∧ ran 1 (.addi ⟨g0, 0, 1, .imm 5⟩) (st (s1 3)) (·.s 0) = 0 := by
  decide +kernel
/-- A store over the end of page 1 to page 2, and the load that reads it back. -/
theorem test_store_load :
    after 0 (exec (.std ⟨g0, 1, 2, .none, .plain, 0⟩) (st (s2 0x1122334455667788 ∘ s1 0x1FFFC))) (fun t => (t.mem.read (hbmKey 1 0x4FFFC)).toNat +
      256 * (t.mem.read (hbmKey 1 0x50003)).toNat) = 0x1188
    ∧ after 0 (exec (.std ⟨g0, 1, 2, .none, .plain, 0⟩) (st (s2 0x1122334455667788 ∘ s1 0x1FFFC))) (fun t => after 1
      (exec (.ldws ⟨g0, 3, 1, .none, .plain, 4⟩) t) fun u => u.me.s 3) = 0x11223344 := by decide +kernel
/-- R345: TRAP in user mode. -/
theorem test_trap : ran (0, 0, 0, 0, false) (.trap ⟨g0, 9⟩) (st fun h => { h with pc := 24, tvec := 0x1000, icount := 5 })
    (fun h => (h.tcause.toNat, h.tval.toNat, h.tpc.toNat, h.pc + 65536 * h.icount.toNat, h.sup)) = (20, 9, 24, 0x51000, true) := by decide +kernel
/-- R77's quotient: VQSC of 1.0 by 3.0 into E4M3 is 0x2B with NX. -/
theorem test_quotient : (Fmt.flt .e4m3).round ((Ex.fin false 1 1).div (f32 0x40400000)).1 { rm := .rne, sat := false, draw := 0 } = (0x2B, Fl.nx) := by
  decide +kernel
/-- R79's example: 1.0 and four times 2^−24 sum to 1 + 2^−22 in the tree. -/
theorem test_tree : (treeSum 13 ([0x3F800000, 0x33800000, 0x33800000, 0x33800000, 0x33800000].map some) Fl.none).1 = 0x3F800002 := by decide +kernel

end Sys2Proof.Tests
end

section
/-! PROOFS. Every step keeps memory in canonical form: what an instruction, an event and a move may answer. -/
namespace Sys2Proof.Proofs
open Sys2Proof Sys2Proof.Machine

/-! ## The answers of instructions -/

/-- An outcome from s that faults, leaves s, or closes a step from s. -/
def Closes (s : State) (o : Host.Outcome State Fault Refusal) : Prop :=
  o = .fault .noHart ∨ o = .next s ∨ ∃ t, o = .next (close s t)

theorem Closes.sound {s t : State} {o : Host.Outcome State Fault Refusal} (c : Closes s o) (w : s.Sound) (h : o = .next t) :
    t.Sound := by
  rcases c with e | e | ⟨u, e⟩ <;> rw [e] at h <;> cases h
  · exact w
  · exact close_sound w u

theorem aside_closes (s : State) (g : Guards) (f : Hart → AOut) : Closes s (aside s g f) := by
  rcases aside_cases s g f with ⟨_, e⟩ | ⟨_, _, e⟩ | ⟨_, _, e⟩
  · exact .inl e
  · exact .inr (.inr ⟨_, e⟩)
  · exact .inr (.inr ⟨_, e⟩)

theorem asideQ_closes (s : State) (i : Instr) (g : Guards) (f : Hart → AOut) : Closes s (asideQ s i g f) := aside_closes s g _

theorem asideS_closes (s : State) (i : Instr) (g : Guards) (f : Hart → AOut) : Closes s (asideS s i g f) := by
  cases u : s.me.sup
  · by_cases p : s.me.phase = .running
    · exact .inr (.inr ⟨_, asideS_user p u i g f⟩)
    · exact .inl (by simp [asideS, p])
  · rw [asideS_sup u]
    exact aside_closes s g f

theorem asideCsr_closes (s : State) (i : Instr) (c : Csr) (g : Guards) (f : Hart → AOut) : Closes s (asideCsr s i c g f) := by
  unfold asideCsr
  split
  · exact asideS_closes s i g f
  · exact aside_closes s g f

theorem xpass_closes (s : State) (i : Instr) (d : XDef) : Closes s (xpass s i d) := by
  rcases xpass_cases s i d with ⟨_, e⟩ | ⟨_, _, e, _⟩
  · exact .inl e
  · exact .inr (.inr ⟨_, e⟩)

theorem aBin_closes (x : ABin) (f : Dbl → Dbl → Dbl) (s : State) : Closes s (aBin x f s) := aside_closes s x.g _
theorem aImm_closes (x : AImm) (f : Dbl → Dbl → Dbl) (s : State) : Closes s (aImm x f s) := aside_closes s x.g _
theorem aImmU_closes (x : AImm) (f : Dbl → Dbl → Dbl) (s : State) : Closes s (aImmU x f s) := aside_closes s x.g _
theorem aUn_closes (x : AUn) (f : Dbl → Dbl) (s : State) : Closes s (aUn x f s) := aside_closes s x.g _
theorem tagOp_closes (g : Guards) (m : SReg) (s : State) (f : Hart → Dbl → AOut) : Closes s (tagOp g m s f) := aside_closes s g _
theorem runLoad_closes (x : Load) (n : Nat) (b : Bool) (s : State) : Closes s (runLoad x n b s) := aside_closes s x.g _
theorem runStore_closes (x : Store) (n : Nat) (s : State) : Closes s (runStore x n s) := aside_closes s x.g _
theorem runAtom_closes (op : AtomOp) (x : Atom) (s : State) : Closes s (runAtom op x s) := aside_closes s x.g _

theorem runInstr_closes (i : Instr) (s : State) : Closes s (runInstr i s) := by
  cases i with
  | nop | br | call | ret | jmp | strip | vsetl | trap | bkpt | exit | yield | fence | sext | zext | movi | moviX | sel | cmp
  | cmpi | plog | lea | hashs | acas | afadd | lease | unlease | stlc | cflush | cinv | cpref | pcopy | pdec | pfill | nbfence
  | rhopen | rhprio | rhevict | rhclose | gong | post | waiti | qnotify | acset | acwait | clred =>
    dsimp only [runInstr]; exact aside_closes _ _ _
  | add | sub | mul | mulh | div | rem | and | or | xor | andn | shl | shr | sra | min | minu =>
    dsimp only [runInstr]; exact aBin_closes _ _ _
  | addi | muli | andi | ori | xori | shli | shri | srai | max => dsimp only [runInstr]; exact aImm_closes _ _ _
  | mulhu | divu | remu | maxu => dsimp only [runInstr]; exact aImmU_closes _ _ _
  | clz | ctz | popc | mov => dsimp only [runInstr]; exact aUn_closes _ _ _
  | twaitany | twaitall | tfind | tclr => dsimp only [runInstr]; exact tagOp_closes _ _ _ _
  | ldb | ldh | ldw | ldd | ldbs | ldhs | ldws => dsimp only [runInstr]; exact runLoad_closes _ _ _ _
  | stb | sth | stw | std => dsimp only [runInstr]; exact runStore_closes _ _ _
  | aadd | aand | aor | axor | amin | amax | aswp => dsimp only [runInstr]; exact runAtom_closes _ _ _
  | xsync | vld | vldff | vldx | vldsc | vst | vstx | vstsc | vlds | vsts | vldsx | vstsx | vamo | popx | qdrop | nbadd | nbopt
  | sfpool => dsimp only [runInstr]; exact asideQ_closes _ _ _ _
  | eret | tlbinv | setbnd => dsimp only [runInstr]; exact asideS_closes _ _ _ _
  | csrr | csrw | csrset | csrclr => dsimp only [runInstr]; exact asideCsr_closes _ _ _ _ _
  | vadd | vsub | vmul | vmulh | vmac | vdot2 | vabs | vneg | vmin | vmax | vand | vor | vxor | vnot | vshl | vshr | vsra
  | vsrar | vclz | vpopc | vsel | vmov | vsplat | vsplatX | viota | vadds | vsubs | vrmovf | vrmovt | vcmp | vlbc | mlog
  | mpopc | mffs | mpfx | mffe | vslideup | vslidedn | vgathr | vcompr | vexpnd | vredsum | vredmin | vredmax | vscan | vconf
  | vcomb | vsort | vbcmp | vbfind | vhash | vxhash | vfadd | vfsub | vfmul | vfma | vfdiv | vfsqrt | vfmin | vfmax | vfabs
  | vfneg | vfcmp | vexp2 | vlog2 | vrsqrt | vrcp | vtanh | verf | vcvt | vfredsum | vbfly | vamax | vqbfp | vdqbfp | vqsc
  | cbld | cbst | cbinv | vcbx | vcbq | tzero | opa | opas | tlds | tsts | trowv | tvrow | tscale =>
    dsimp only [runInstr]; exact xpass_closes _ _ _
  | _ => exact .inr (.inl rfl)

/-! ## Events -/

/-- An encoded instruction means the same to a hart's issue and to the event that resumes it. -/
theorem exec_eq_runInstr {i : Instr} (e : (encode i).isSome = true) (s : State) : exec i s = runInstr i s := by
  cases i with
  | elementGroup | xEntryCompletion | yieldHintEnd | queueDeadlock | yieldPauseEnd | elementArrival | leaseExpiry
  | engineCompletion | nearMemoryUpdate | sfpoolBagArrival | peerStoreAck | queueMap | unmapStart | unmapComplete | recordTake
  | placement | sliceTick | sliceExpiry | preemptionHalt | contextSave | resumption | launchCompletion | watchdogPoll | vlWrite
  | vlcapWrite | teixWrite | tvecWrite | fflagsWrite | ptbaseWrite | xWindowFree | queueEntryReady | xsyncDone
  | interlockWaitEnd | leaseGrant | gongDeparture | waitiSatisfied | twaitReturn | engineIssue | bankWriteWaitEnd | nbfenceDone
  | exitRetire | acwaitReturn | peerRequest | postedStoreRejected | peerAcceptance | clredResult | linkReplay
  | spokeLinkFailure | saddlebagLinkFailure | notifyWrite | serverRdmaWrite | watchdogExpiry | powerOn | powerLoss | throttle
  | thermalShutdown | ident | reset | partition | load | start | stop | attest | counters | thermal | domain | hostwin | keys
  | unsupportedRdmaRequest => cases e
  | _ => rfl

/-- t has the memory of s, and the same operations that are not committed. -/
def SameMemory (s t : State) : Prop := t.mem = s.mem ∧ t.wbuf = s.wbuf

theorem SameMemory.sound {s t : State} (h : SameMemory s t) (w : s.Sound) : t.Sound := by
  obtain ⟨hm, hb⟩ := h
  exact ⟨hm ▸ w.1, hb.trans w.2⟩
theorem SameMemory.of_walks {s t : State} (h : Walks s t) : SameMemory s t := ⟨h.mem, h.wbuf⟩

/-- A fetch that finds an instruction has walked the tables, and has moved its hart to it. -/
theorem fetch_run {s t : State} {h : HartId} {i : Instr} (e : fetch s h = .run t i) :
    ∃ u f, Walks s u ∧ t = u.updHart h f := by
  unfold fetch at e
  extract_lets x la got at e
  have walk : Walks s got.1 := by
    have read : Walks s (readLine s h la).1 := readLine_walks rfl
    dsimp only [got]
    split
    · split
      · exact Walks.refl s
      · exact read
    · exact read
  generalize got = g at e walk
  obtain ⟨u, l | _ | _⟩ := g
  · dsimp only at e
    split at e
    · cases e
    · split at e <;> cases e
      exact ⟨u, _, walk, rfl⟩
  · cases e
  · cases e

theorem fetch_run_sound {s t : State} {h : HartId} {i : Instr} (w : s.Sound) (e : fetch s h = .run t i) : t.Sound := by
  obtain ⟨u, f, walk, rfl⟩ := fetch_run e
  exact (SameMemory.of_walks walk).sound w

theorem wake_sound {s t : State} {h : HartId} {f : Option Wait → Instr → Bool} (w : s.Sound) (e : wake s h f = .next t) : t.Sound := by
  rcases wake_cases s h f with n | ⟨u, j, _, fe, _, n⟩ <;> rw [n] at e
  · cases e
    exact w
  · exact (runInstr_closes j u).sound (fetch_run_sound (s := { s with cur := h }) w fe) e

/-! ## Commands and power -/

theorem powerOff_sound (s : State) : (powerOff s).Sound := reset_sound
theorem boot_sound (s : State) (f : BootFindings) (id : BitVec 32) : (boot s f id).Sound := reset_sound

theorem resetModule_sound {s : State} (w : s.Sound) (c : Cmd) (f : BootFindings) : (resetModule s c f).Sound := by
  unfold resetModule
  split
  · exact w
  · split
    · exact boot_sound s f _
    · exact w

theorem finish_sound {s : State} (w : s.Sound) (c : Cmd) (o : Order) : (finish s c o).Sound := by
  cases o with
  | reset f => exact resetModule_sound w c f
  | _ => exact close_sound w _

theorem orderBegin_sameMemory (s : State) (c : Cmd) (o : Order) : SameMemory s (orderBegin s c o).1 := by
  cases o with
  | stop b =>
    dsimp only [orderBegin]
    split <;> exact ⟨rfl, rfl⟩
  | _ => exact ⟨rfl, rfl⟩

theorem submit_sound {s : State} (w : s.Sound) (c : Cmd) (o : Order) : (submit s c o).Sound := by
  rcases submit_cases s c o with ⟨_, e⟩ | ⟨_, u, q, b, ⟨_, e⟩ | ⟨_, e⟩⟩ <;> rw [e]
  · exact w
  · exact (b ▸ orderBegin_sameMemory s c o : SameMemory s (u, q).1).sound w
  · exact finish_sound ((b ▸ orderBegin_sameMemory s c o : SameMemory s (u, q).1).sound w) c q

theorem command_sound {s : State} (w : s.Sound) (n : Nat) (c : Cmd) (o : Order) : (command s n c o).Sound := by
  rcases command_cases s n c o with ⟨_, e⟩ | ⟨_, _, e⟩ | ⟨_, e⟩ <;> rw [e]
  · exact w
  · exact w
  · exact submit_sound (s := accepted s c) w c _

theorem identReply_sound {s : State} (w : s.Sound) (c : Cmd) : (identReply s c).Sound := by
  unfold identReply
  split
  · exact w
  · exact submit_sound w c _

theorem beginOrders_sound {s : State} (w : s.Sound) (before l : List (Cmd × Order)) : (beginOrders s before l).Sound := by
  induction l generalizing s before with
  | nil => exact w
  | cons x l ih =>
    unfold beginOrders
    split
    next u o e =>
      refine ih ?_ _
      split at e
      · cases e
        exact w
      · exact (e ▸ orderBegin_sameMemory s x.1 x.2 : SameMemory s (u, o).1).sound w

theorem commandsGo_sound {s : State} (w : s.Sound) : (commandsGo s).Sound := by
  have b := beginOrders_sound w [] s.md.waiting
  unfold commandsGo
  extract_lets u
  split
  · refine finish_sound ?_ _ _
    exact b
  · exact b

/-! ## Steps -/

theorem execPeerAcceptance_sound {s t : State} {h : HartId} {a : PeerAnswer} (w : s.Sound) (e : execPeerAcceptance h a s = .next t) :
    t.Sound := by
  unfold execPeerAcceptance at e
  split at e
  · extract_lets u at e
    split at e
    · exact wake_sound (s := u) w e
    · cases e
      exact w
  · cases e
    exact w

theorem execPowerOn_sound {s t : State} {f : BootFindings} (w : s.Sound) (e : execPowerOn f s = .next t) : t.Sound := by
  unfold execPowerOn at e
  split at e <;> cases e
  · exact boot_sound s f _
  · exact w

theorem exec_sound {i : Instr} {s t : State} (w : s.Sound) (h : exec i s = .next t) : t.Sound := by
  cases i with
  | elementGroup | xEntryCompletion | yieldHintEnd | queueDeadlock | yieldPauseEnd | elementArrival | leaseExpiry
  | engineCompletion | nearMemoryUpdate | sfpoolBagArrival | peerStoreAck | queueMap | unmapStart | unmapComplete | recordTake
  | placement | sliceTick | sliceExpiry | preemptionHalt | contextSave | resumption | launchCompletion | watchdogPoll
  | peerRequest | postedStoreRejected | clredResult | linkReplay | spokeLinkFailure | saddlebagLinkFailure | notifyWrite
  | serverRdmaWrite | watchdogExpiry | throttle | unsupportedRdmaRequest => exact Closes.sound (.inr (.inr ⟨_, rfl⟩)) w h
  | vlWrite | vlcapWrite | teixWrite | tvecWrite | fflagsWrite | ptbaseWrite | xWindowFree | queueEntryReady | xsyncDone
  | interlockWaitEnd | leaseGrant | gongDeparture | waitiSatisfied | twaitReturn | engineIssue | bankWriteWaitEnd | nbfenceDone
  | exitRetire | acwaitReturn => exact wake_sound w h
  | reset | partition | load | start | stop | attest | counters | thermal | domain | hostwin | keys =>
    cases h; exact command_sound w _ _ _
  | ident c => cases h; exact identReply_sound w c
  | peerAcceptance g a => exact execPeerAcceptance_sound w h
  | powerOn f => exact execPowerOn_sound w h
  | powerLoss | thermalShutdown => cases h; exact powerOff_sound s
  | _ => exact (runInstr_closes _ s).sound w ((exec_eq_runInstr rfl s).symm.trans h)

theorem spend_sameMemory (s : State) (h : HartId) (n : Nat) (f : Machine.Lease → Bool) : SameMemory s (spend s h n f) := by
  unfold spend
  split <;> exact ⟨rfl, rfl⟩

theorem issue_sound {s t : State} {h : HartId} (w : s.Sound) (e : issue s h = .next t) : t.Sound := by
  unfold issue at e
  extract_lets u at e
  split at e
  · split at e
    next v i fe => exact exec_sound ((spend_sameMemory v h _ _).sound (fetch_run_sound (s := u) w fe)) e
    next => exact Closes.sound (.inr (.inr ⟨_, rfl⟩)) (s := u) w e
  · exact Host.Outcome.next.inj e ▸ (w : u.Sound)

theorem arithHit_sound {s t : State} (w : t.Sound) (hits : List (Nat × Byte)) (a : Arith) : (arithHit s hits a t).Sound :=
  ⟨Memory.commit_wf w.1 _, w.2⟩

theorem runArith_sound {s t : State} {hits : List (Nat × Byte)} {a : Arith} (w : s.Sound) (e : runArith s hits a = .next t) :
    t.Sound := by
  unfold runArith at e
  extract_lets r at e
  have sound : ∀ u, r = .next u → u.Sound := by
    intro u hu
    cases a with
    | issue h => exact issue_sound w hu
    | event i => exact exec_sound w hu
  clear_value r
  cases r with
  | next u =>
    cases e
    exact arithHit_sound (sound u rfl) hits a
  | fault | refused => cases e

/-! What happens to units, copies, counts and handles does not touch memory. -/

theorem upset_sameMemory (s : State) (k : Nat) : SameMemory s (upset s k) := by
  unfold upset
  split <;> exact ⟨rfl, rfl⟩
theorem upsetL2_sameMemory (s : State) (k : Nat) : SameMemory s (upsetL2 s k) := by
  unfold upsetL2
  split <;> exact ⟨rfl, rfl⟩
theorem upsetL1_sameMemory (s : State) (l c k : Nat) : SameMemory s (upsetL1 s l c k) := by
  unfold upsetL1
  split <;> exact ⟨rfl, rfl⟩
theorem dropL1_sameMemory (s : State) (l c k : Nat) : SameMemory s (dropL1 s l c k) := by
  unfold dropL1
  split <;> exact ⟨rfl, rfl⟩
theorem evict_sameMemory (s : State) (l : Nat) (i : BitVec 8) : SameMemory s (evict s l i) := by
  unfold evict
  split <;> exact ⟨rfl, rfl⟩
theorem corrected_sameMemory (s : State) (x : Site) : SameMemory s (corrected s x) := by
  unfold corrected
  split <;> exact ⟨rfl, rfl⟩

theorem runMove_sound {s t : State} {m : Move} (w : s.Sound) (e : runMove s m = .next t) : t.Sound := by
  cases m with
  | issue h => exact issue_sound w e
  | event i => exact exec_sound w e
  | arith a hits => exact runArith_sound w e
  | writeBack | transfer | soft | upsetLine => exact Closes.sound (.inr (.inr ⟨_, rfl⟩)) w e
  | command => cases e; exact commandsGo_sound w
  | pass | dropL2 => cases e; exact w
  | upset k => cases e; exact (upset_sameMemory s k).sound w
  | upsetL2 k => cases e; exact (upsetL2_sameMemory s k).sound w
  | upsetL1 l c k => cases e; exact (upsetL1_sameMemory s l c k).sound w
  | dropL1 l c k => cases e; exact (dropL1_sameMemory s l c k).sound w
  | evict l i => cases e; exact (evict_sameMemory s l i).sound w
  | corrected x => cases e; exact (corrected_sameMemory s x).sound w

/-- Settles O7: a step runs a move, each of which closes what it did to memory, or fills the agenda. -/
theorem everyStepKeepsMemoryCanonical : Obligations.EveryStepKeepsMemoryCanonical := by
  intro s t w h
  unfold step at h
  split at h
  next m rest _ => exact runMove_sound (s := { s with agenda := rest }) w h
  next =>
    cases h
    exact w

/-- Settles O6. -/
theorem resetIsPoweredOffAndEmpty : Obligations.ResetIsPoweredOffAndEmpty :=
  ⟨reset_sound, rfl, rfl, rfl, rfl, rfl, rfl, fun _ => rfl⟩

end Sys2Proof.Proofs
end

section
/-! PROOFS. Power, throttling and RESET of the module (R355, R358, R365, R370). -/
namespace Sys2Proof.Proofs
open Sys2Proof Sys2Proof.Machine Sys2Proof.Claims

/-! ## Closing a step that has left no operation -/

theorem close_eq {s t : State} (hw : t.wbuf = []) (hm : t.mem = s.mem) : close s t = t := by
  simp [close, hw, noteStep, nextEpoch, Memory.commit, ← hm]
  rw [← hw]

theorem close_self {s : State} (hw : s.wbuf = []) : close s s = s := close_eq hw rfl

/-! ## Numbers as bytes -/

theorem toBytes_eq_bytesOf (n v : Nat) : toBytes n v = bytesOf v n := by
  induction n generalizing v with
  | zero => rfl
  | succ n ih =>
    simp only [toBytes, ih, bytesOf, List.range_succ_eq_map, List.map_cons, List.map_map, Nat.pow_zero, Nat.div_one]
    refine congrArg _ (List.map_congr_left fun i _ => ?_)
    simp [Nat.pow_succ', Nat.div_div_eq_div_mul]

/-- The bytes of a number of m bytes with another above it are those of the one, then those of the other. -/
theorem toBytes_append {m : Nat} (n : Nat) {a : Nat} (h : a < 256 ^ m) (b : Nat) :
    toBytes (m + n) (a + 256 ^ m * b) = toBytes m a ++ toBytes n b := by
  induction m generalizing a with
  | zero => simp_all [toBytes]
  | succ m ih =>
    have hd : (a + 256 ^ (m + 1) * b) / 256 = a / 256 + 256 ^ m * b := by
      rw [Nat.pow_succ', Nat.mul_assoc, Nat.add_mul_div_left _ _ (by decide)]
    have hb : BitVec.ofNat 8 (a + 256 ^ (m + 1) * b) = BitVec.ofNat 8 a := by
      apply BitVec.eq_of_toNat_eq
      simp only [BitVec.toNat_ofNat, Nat.pow_succ', Nat.mul_assoc]
      omega
    have hl : a / 256 < 256 ^ m := by
      rw [Nat.pow_succ'] at h
      exact Nat.div_lt_of_lt_mul h
    rw [Nat.add_right_comm]
    simp only [toBytes, hd, hb, ih hl, List.cons_append]

theorem cmdBytes_eq_headed (magic code rsv len : Nat) (c : Cmd) (body : List Byte) :
    cmdBytes magic code rsv len c body = headed magic code rsv len c body := by
  have seq : toBytes 8 (c.seq.toNat + 2 ^ 32 * c.boot.toNat) = toBytes 4 c.seq.toNat ++ toBytes 4 c.boot.toNat :=
    toBytes_append (m := 4) 4 c.seq.isLt _
  simp only [cmdBytes, headed, ← toBytes_eq_bytesOf, seq, List.append_assoc]

/-! ## Acceptance of commands -/

theorem refuse_none {s : State} {c : Cmd} (sig : Signed s c) (seq : InSequence s c) : refuse s c = none := by
  obtain ⟨k, hk, hv⟩ := sig
  obtain ⟨hb, hs⟩ := seq
  have hv : Config.ecdsaVerify k.2 (Config.sha512 (cmdSigned c)) c.sig = true := by
    rw [cmdSigned, cmdBytes_eq_headed]
    exact hv
  have hs : ¬c.seq.toNat ≤ tget 0 s.md.lastSeq c.key := Nat.not_le.2 hs
  simp [refuse, hk, hv, hb, hs]

theorem heard_of_Heard {s : State} {n : Nat} {c : Cmd} (p : s.md.power = .ready) (h : Heard s n c) : heard s n c = true := by
  obtain ⟨hp, hc⟩ := h
  simpa [heard, p, hp, or_assoc] using hc

theorem headerBad_of_Formed {n : Nat} {c : Cmd} (h : Formed n c) : headerBad n c = false := by
  obtain ⟨hm, hr, hc, hl, hb, hp⟩ := h
  have hb : c.len.toNat = c.body.length := hb
  simp only [headerBad, cmdMagic, hm, hr, hc, hb, bne_self_eq_false, Bool.false_or]
  rcases hp with hp | hp
  · simp [hp]; omega
  · simp [hp]; omega

/-- A command of the module that is accepted has its effect at once. -/
theorem command_accepted {s : State} {n : Nat} {c : Cmd} (h : Accepted s n c) (o : Order) : command s n c o = submit (accepted s c) c o := by
  obtain ⟨hp, -, hh, hs, hq, hf, -⟩ := h
  simp [command, hp, heard_of_Heard hp hh, refuse_none hs hq, headerBad_of_Formed hf]

theorem behindOf_of_Turn {s : State} {c : Cmd} (h : Turn s c) : behindOf c s.md.waiting = false := by
  simpa [Turn, behindOf] using h

/-! ## Power -/

theorem bootDraw_first {zeros rest : List (BitVec 32)} {id : BitVec 32} (z : ∀ x ∈ zeros, x = 0) (n : id ≠ 0) :
    bootDraw (zeros ++ id :: rest) = some id := by
  have none : zeros.find? (· != 0) = none := List.find?_eq_none.2 (by simpa using z)
  rw [bootDraw, List.find?_append, none, Option.none_or]
  exact List.find?_cons_of_pos (by simpa using n)

theorem execPowerOn_off {s : State} {f : BootFindings} {id : BitVec 32} (p : s.md.power = .off) (d : bootDraw f.draws = some id) :
    exec (.powerOn f) s = .next (boot s f id) := by
  show execPowerOn f s = _
  simp only [execPowerOn, p, d]

/-- RESET to the module that is accepted boots it (R358). -/
theorem execReset_accepted {s : State} {c : Cmd} {f : BootFindings} {id : BitVec 32} (h : Accepted s 2 c) (hp : c.part = 0xFF)
    (hb : c.body = []) (d : bootDraw f.draws = some id) : exec (.reset c f) s = .next (boot (accepted s c) f id) := by
  have free : behindOf c (accepted s c).md.waiting = false := by
    obtain ⟨_, _, _, _, _, _, turn⟩ := h
    exact behindOf_of_Turn turn
  have run : submit (accepted s c) c (.reset f) = boot (accepted s c) f id := by
    simp [submit, free, orderBegin, orderReady, finish, resetModule, hp, hb, d]
  show Host.Outcome.next (command s 2 c (.reset f)) = _
  rw [command_accepted h, run]

/-! ## Throttling (R365) -/

theorem dieOf_eq_dieOfHart (s : State) (h : HartId) : s.dieOf h.l h.k = dieOfHart s h := rfl

theorem getD_toList {n : Nat} (v : Vector Nat n) (d : Fin n) : v.toList.getD d 0 = v[d] := by
  simp [List.getD_eq_getElem?_getD]

theorem notHeld_iff {s : State} {h : HartId} {d : Fin 4} (e : d = dieOfHart s h) :
    notHeld s h = true ↔ s.md.throttleEnd[d] ≤ s.cycle ∨ ∃ l ∈ (s.hart h).leases, 0 < l.promise ∧ s.cycle < l.until_ := by
  rw [notHeld, dieOf_eq_dieOfHart, ← e, getD_toList]
  simp

theorem canIssue_iff {s : State} {h : HartId} {d : Fin 4} (e : d = dieOfHart s h) :
    canIssue s h = true ↔ s.md.power = .ready ∧ (s.hart h).phase = .running ∧ (s.launch h.l).phase = .running
      ∧ (s.hart h).pause ≤ s.cycle
      ∧ (s.md.throttleEnd[d] ≤ s.cycle ∨ ∃ l ∈ (s.hart h).leases, 0 < l.promise ∧ s.cycle < l.until_) := by
  simp [canIssue, notHeld_iff e, and_assoc]

theorem notHeld_of_xLive {s : State} {h : HartId} (x : xLive s h = true) : notHeld s h = true := by
  simp only [xLive, Bool.and_eq_true] at x
  exact x.2

theorem xHead_ctx {s : State} {h : HartId} {c : XCtx} {d : XDef} (e : xHead s h = some (c, d)) : c.s = s ∧ c.hid = h := by
  unfold xHead at e
  extract_lets x at e
  split at e
  · cases e
  · simp only [Option.map_eq_some_iff, Prod.mk.injEq] at e
    obtain ⟨_, _, rfl, _⟩ := e
    exact ⟨rfl, rfl⟩

/-- Where the X side may not perform, no element group of it is ready. -/
theorem xGroup_idle {s : State} {h : HartId} (x : xLive s h = false) : Machine.xGroup s h = s := by
  unfold Machine.xGroup
  split
  · rfl
  next c d e =>
    obtain ⟨hs, hh⟩ := xHead_ctx e
    have idle : ∀ lo hi, groupReady c d lo hi = false := by simp [groupReady, hs, hh, x]
    extract_lets start lo
    split
    · rfl
    · simp [start, idle]
    · simp [start, idle]

theorem xFinish_idle {s : State} {h : HartId} (x : xLive s h = false) : xFinish s h = s := by
  unfold xFinish
  split
  · rfl
  · simp [x]

/-- THROTTLE holds the named dies until the later of two ends, and counts the cycles that it adds. -/
theorem execThrottle_ready {s : State} {dies : BitVec 4} {n : Nat} (w : s.wbuf = []) (p : s.md.power = .ready) :
    ∃ t, exec (.throttle ⟨dies, n⟩) s = .next t
      ∧ t = { s with md := { s.md with throttleEnd := t.md.throttleEnd, throttled := t.md.throttled } }
      ∧ ∀ d : Fin 4, t.md.throttleEnd[d] = (if dies.getLsbD d then max s.md.throttleEnd[d] (s.cycle + n) else s.md.throttleEnd[d])
        ∧ t.md.throttled[d] = s.md.throttled[d] + (if dies.getLsbD d then s.cycle + n - max s.cycle s.md.throttleEnd[d] else 0) := by
  have ready : (s.md.power == .ready) = true := by simp [p]
  refine ⟨_, congrArg Host.Outcome.next ((congrArg (close s) (if_pos ready)).trans (close_eq w rfl)), rfl, fun d => ⟨?_, ?_⟩⟩
  · simp
  · simp only [Fin.getElem_fin, Vector.getElem_mapIdx]
    split <;> simp

theorem execThrottle_idle {s : State} {x : Throttle} (w : s.wbuf = []) (p : s.md.power ≠ .ready) : exec (.throttle x) s = .next s := by
  show Host.Outcome.next (close s _) = _
  simp only [beq_eq_false_iff_ne.2 p]
  exact congrArg _ (close_self w)

/-- Settles O58. -/
theorem modulePowersUpAndDown : Obligations.ModulePowersUpAndDown := by
  intro s promised cleared booted
  have off : ∀ u, cleared (powerOff u) := fun u =>
    ⟨rfl, rfl, rfl, rfl, rfl, rfl, rfl, rfl, rfl, rfl, rfl, rfl, rfl, rfl, rfl, rfl, rfl, rfl, rfl⟩
  have up : ∀ u f id, booted (boot u f id) f id := fun u f id => ⟨off u, rfl, rfl, rfl, rfl, rfl, rfl, rfl, rfl⟩
  refine ⟨?_, ?_, ?_, ?_, ?_⟩
  · intro f zeros rest id hd hz hid
    have first : bootDraw f.draws = some id := hd ▸ bootDraw_first hz hid
    exact ⟨fun p => ⟨_, execPowerOn_off p first, up s f id, rfl⟩,
      fun c a hp hb => ⟨_, execReset_accepted a hp hb first, up _ f id, rfl⟩⟩
  · intro e he
    simp only [List.mem_cons, List.not_mem_nil, or_false] at he
    rcases he with rfl | rfl
    · exact ⟨_, rfl, off s, rfl, rfl⟩
    · exact ⟨_, rfl, off s, rfl, rfl⟩
  · intro dies n w
    exact ⟨execThrottle_idle w, execThrottle_ready w⟩
  · intro h d e hold noPromise
    have held : notHeld s h = false := by
      rw [← Bool.not_eq_true, notHeld_iff e]
      rintro (r | r)
      · omega
      · exact noPromise r
    have still : canIssue s h = false := by simp [canIssue, held]
    have idle : xLive s h = false := by simp [xLive, held]
    refine ⟨still, fun w => ⟨?_, ?_⟩, fun rest ha => ?_⟩
    · exact congrArg Host.Outcome.next ((congrArg _ (xGroup_idle idle)).trans (close_self w))
    · exact congrArg Host.Outcome.next ((congrArg _ (xFinish_idle idle)).trans (close_self w))
    · have still : canIssue { s with agenda := rest, cur := h } h = false := still
      rw [step, ha]
      simp [runMove, issue, still]
  · intro h d e
    exact canIssue_iff e

end Sys2Proof.Proofs
end

section
/-! PROOFS. A failed link where one launch number stands twice in the table of launches. -/
namespace Sys2Proof.Proofs
open Sys2Proof Sys2Proof.Machine Sys2Proof.Claims

/-- A launch of partition p whose completion record cannot be written (R375), and that is not the next one of its queue. -/
def launchOf (p : Nat) : Launch := { Launch.idle with part := p, rec_ := { Record.zero with compl := 1, seq := 5 } }
/-- A hart that waits for a peer's answer. -/
def waitsOnPeer : Hart := { Hart.idle with wait := some (.peer 0) }
/-- A ready module whose table names launch 0 twice: as one of partition 1, which is what reads of the table give, and behind it as
one of partition 0. Harts of launches 0 and 1 wait for a peer, so that both partitions use Spoke. -/
def twiceNamed : State :=
  { State.reset with
    md := { Module.off with power := .ready }
    launches := [(0, launchOf 1), (0, launchOf 0), (1, launchOf 0), (2, launchOf 1)]
    harts := [(⟨0, 0, 0⟩, waitsOnPeer), (⟨1, 0, 0⟩, waitsOnPeer)] }

theorem twiceNamed_usesSpoke : usesSpoke twiceNamed 1 = true := by decide +kernel

/-- The fault of partition 0 takes launch 0 with both its entries and its hart; partition 1 then no longer uses Spoke, and its
launch 2 stays. -/
theorem twiceNamed_keeps_launch : (2, launchOf 1) ∈ (spokeLinkFailure twiceNamed 0 [0, 1]).launches := by decide +kernel

theorem execSpokeLinkFailure_ready {s : State} (p : s.md.power = .ready) (link : Nat) (users : List Nat) :
    exec (.spokeLinkFailure link users) s = .next (close s (spokeLinkFailure s link users)) := by
  show Host.Outcome.next (close s (if _ then _ else _)) = _
  rw [if_pos (by simp [p])]

/-- Refutes O56: its states are not asked to name each launch once, and in `twiceNamed` the failure of link 0, which both partitions
used, leaves launch 2 of partition 1 undiscarded. -/
theorem not_fabricRequestsAndLinks : ¬Obligations.FabricRequestsAndLinks := by
  rintro ⟨-, links⟩
  obtain ⟨-, spoke, -⟩ := links twiceNamed rfl rfl
  obtain ⟨t, run, -, -, gone⟩ := spoke 0 [0, 1] (by decide)
  rw [execSpokeLinkFailure_ready rfl] at run
  have launches : t.launches = (spokeLinkFailure twiceNamed 0 [0, 1]).launches :=
    (congrArg State.launches (Host.Outcome.next.inj run)).symm.trans (close_launches _ _)
  exact gone 1 (by decide) twiceNamed_usesSpoke _ (launches ▸ twiceNamed_keeps_launch) rfl
end Sys2Proof.Proofs
end

section
/-! PROOFS. RECORD_TAKE where one queue number stands twice among the queues of a partition. -/
namespace Sys2Proof.Proofs
open Sys2Proof Sys2Proof.Machine Sys2Proof.Claims

/-- A queue mapped to slot 0 that has no record. -/
def emptyMapped : UserQ :=
  { phase := .mapped, slot := 0, wantedAt := 0, mappedAt := 0, activeAt := 0, head := 0, done := 0, finished := [], pending := false
    taken := none }
/-- The same queue with a record that names no token, and is not a candidate yet. -/
def holdsRecord : UserQ :=
  { emptyMapped with
    taken := some
      { n := 0, meas := 0, rec_ := { Record.zero with dep0 := BitVec.ofNat 64 noToken, dep1 := BitVec.ofNat 64 noToken }, entry := 0
        frame := 0, scratch := 0, cbslot := 0, candidate := false, waited := 0 } }
/-- A ready module with one started partition, whose table of queues names queue 0 twice: without a record, which is what reads of the
table give, and behind it with one. Its root at HBM address 0x1_0000 and the table at 0x2_0000 map virtual addresses to themselves
(R280). The queue's table entry at 0x3_0000 has its ring at 0x3_0100, the notify word at 0x3_0080 is 1, and the record in the
ring is zero throughout. -/
def queueTwice : State :=
  { State.reset with
    mem := ⟨[(1024, 3), (1027, 8), (2048, 1), (3073, 1), (3074, 3), (3200, 1)]⟩
    md := { Module.off with power := .ready }
    parts := [(0, { Part.idle with dies := 1, ptbase := 0x10000, qtable := 0x30000, notify := 0x30080, started := true
                                   queues := [(0, emptyMapped), (0, holdsRecord)] })] }

/-- The scheduler of `queueTwice` with head moved on (R92), and with the record read. -/
def queueTwiceMoved : State :=
  (schedWrite (queueTwice.setQ 0 0 { emptyMapped with head := 1 }) 0 (tableAddr queueTwice 0 0 + 16) 8 1).1
def queueTwiceRead : State := (schedRead queueTwiceMoved 0 0x30100 128).1
/-- After the checks of order 1 and the completion record with status 3, and with done moved on (R97). -/
def queueTwiceReplied : State := (writeCompletion (order1 queueTwiceRead 0 0 0 0 (parseRecord 0)).1 0 0 0 3 32 0 0).1
def queueTwiceDone : State := (finishRecord queueTwiceReplied 0 0 0).1

theorem queueTwice_table : readTable queueTwice 0 0 = (queueTwice, .ok ⟨0x30100, 0, 0, 0, 0⟩) := by decide +kernel
theorem queueTwice_notify : readNotify queueTwice 0 0 = (queueTwice, .ok 1) := by decide +kernel
theorem queueTwice_moves :
    schedWrite (queueTwice.setQ 0 0 { emptyMapped with head := 1 }) 0 (tableAddr queueTwice 0 0 + 16) 8 1 = (queueTwiceMoved, .ok ()) :=
  Prod.ext rfl (by decide +kernel)
theorem queueTwice_reads : schedRead queueTwiceMoved 0 0x30100 128 = (queueTwiceRead, .ok 0) := Prod.ext rfl (by decide +kernel)
/-- The record's width is zero. -/
theorem queueTwice_order1 :
    order1 queueTwiceRead 0 0 0 0 (parseRecord 0) = ((order1 queueTwiceRead 0 0 0 0 (parseRecord 0)).1, .ok (some 32)) :=
  Prod.ext rfl (by decide +kernel)
theorem queueTwice_replies :
    writeCompletion (order1 queueTwiceRead 0 0 0 0 (parseRecord 0)).1 0 0 0 3 32 0 0 = (queueTwiceReplied, none) :=
  Prod.ext rfl (by decide +kernel)
theorem queueTwice_finishes : finishRecord queueTwiceReplied 0 0 0 = (queueTwiceDone, none) := Prod.ext rfl (by decide +kernel)
theorem queueTwice_refreshes : refreshTokens queueTwiceDone 0 = ((refreshTokens queueTwiceDone 0).1, none) :=
  Prod.ext rfl (by decide +kernel)
/-- The second entry's record has become a candidate of the queue that the first one stands for. -/
theorem queueTwice_keeps_record : ((recordTake queueTwice 0 0).userQ 0 0).taken ≠ none := by decide +kernel

theorem close_userQ (s t : State) (p q : Nat) : (close s t).userQ p q = t.userQ p q := rfl
theorem execRecordTake_up {s : State} {p : Nat} (up : schedUp s p = true) (slot : Nat) :
    exec (.recordTake p slot) s = .next (close s (recordTake s p slot)) := by
  show Host.Outcome.next (close s (if _ then _ else _)) = _
  rw [if_pos up]

/-- Refutes O53: the states of RecordsAreTaken are not asked to name each queue once, and in `queueTwice` the queue of a record that
breaks order 1 is left with a record. -/
theorem not_recordsAreTakenAndPlaced : ¬Obligations.RecordsAreTakenAndPlaced := by
  rintro ⟨taken, -⟩
  have up : schedUp queueTwice 0 = true := by decide +kernel
  obtain ⟨-, rejected⟩ := taken queueTwice queueTwice queueTwice queueTwiceMoved queueTwiceRead
    (order1 queueTwiceRead 0 0 0 0 (parseRecord 0)).1 0 0 0 1 0 _ rfl up rfl rfl rfl queueTwice_table queueTwice_notify (by decide)
    queueTwice_moves queueTwice_reads
  obtain ⟨t, run, -, -, -, gone, -⟩ :=
    rejected 32 _ _ _ queueTwice_order1 queueTwice_replies queueTwice_finishes queueTwice_refreshes
  rw [execRecordTake_up up] at run
  rw [← Host.Outcome.next.inj run, close_userQ] at gone
  exact queueTwice_keeps_record gone
end Sys2Proof.Proofs
end

section
/-! PROOFS. What accesses of memory, engine commands and near-memory updates leave of the state. -/
namespace Sys2Proof.Proofs
open Sys2Proof Sys2Proof.Machine

/-- u is s but for bytes written, what is kept of copies and of check units, cores, free choices drawn and not-live reads counted. -/
def Touches (s u : State) : Prop :=
  u = { s with
    fresh := u.fresh, wbuf := u.wbuf, cachedW := u.cachedW, uncachedW := u.uncachedW, flushed := u.flushed, settled := u.settled,
    bad := u.bad, badL2 := u.badL2, badL1 := u.badL1, notLive := u.notLive, cores := u.cores,
    md := { s.md with notLiveReads := u.md.notLiveReads } }

theorem Touches.refl (s : State) : Touches s s := rfl
theorem Touches.trans {s t u : State} (a : Touches s t) (b : Touches t u) : Touches s u := by
  unfold Touches at *
  rw [b, a]
theorem Touches.of_walks {s u : State} (h : Walks s u) : Touches s u := by
  unfold Touches
  rw [h]
theorem Touches.foldl {α : Type} {f : State → α → State} (h : ∀ s x, Touches s (f s x)) (l : List α) (s : State) :
    Touches s (l.foldl f s) := by
  induction l generalizing s with
  | nil => rfl
  | cons x l ih => exact (h s x).trans (ih _)

/-! ## Check units and bytes -/

theorem memUnits_touches (s : State) (ks : List Nat) : Touches s (memUnits s ks).1 := by
  unfold memUnits
  split <;> rfl
theorem writeUnits_touches (s : State) (ks : List Nat) : Touches s (writeUnits s ks).1 := by
  have mem := memUnits_touches s ks
  unfold writeUnits
  split
  next t a e =>
    rw [e] at mem
    split
    · exact mem
    · exact mem.trans rfl
theorem recallLines_touches (s : State) (l1 l2 keep : Bool) (ks : List Nat) : Touches s (recallLines s l1 l2 keep ks).1 := by
  unfold recallLines
  extract_lets on copies gone
  have drop : ∀ t, Touches t (gone t) := by
    intro t
    dsimp only [gone]
    split <;> rfl
  split
  · rfl
  · split
    · exact drop s
    · dsimp only
      split
      · rfl
      · split
        · exact Touches.trans (t := { (s.choose 3).1 with bad := _ }) rfl (drop _)
        · exact Touches.trans (t := (s.choose 3).1) rfl (drop _)
theorem agentUnits_touches (s : State) (ks : List Nat) : Touches s (agentUnits s ks).1 := by
  unfold agentUnits
  dsimp only
  split
  · exact writeUnits_touches s ks
  · exact (recallLines_touches s true false false ks).trans (writeUnits_touches _ ks)

theorem pokes_touches (s : State) (l : List (Nat × Byte)) : Touches s (l.foldl (fun s kb => s.poke kb.1 kb.2) s) :=
  Touches.foldl (f := fun s kb => s.poke kb.1 kb.2) (fun _ _ => rfl) l s
theorem reconcile_touches (s : State) (ks : List Nat) : Touches s (reconcile s ks) := rfl
theorem homeWrite_touches (s : State) (p : Nat) (ks : List Nat) (bs : List Byte) : Touches s (homeWrite s p ks bs) := by
  unfold homeWrite
  refine (pokes_touches s (ks.zip bs)).trans (Touches.trans ?_ (reconcile_touches _ ks))
  split <;> rfl
theorem homePut_touches (s : State) (p : Nat) (ks : List Nat) (bs : List Byte) : Touches s (homePut s p ks bs).1 :=
  (agentUnits_touches s ks).trans (homeWrite_touches _ p ks bs)
theorem putBytes_touches (s : State) (p l : Nat) (e : TlbEntry) (va : Nat) (ks : List Nat) (bs : List Byte) :
    Touches s (putBytes s p l e va ks bs) := by
  unfold putBytes
  refine (pokes_touches s (ks.zip bs)).trans ?_
  dsimp only
  split <;> split <;> rfl

/-! ## Engine commands -/

theorem heldElt_walks (s : State) (ks : List Nat) : Walks s (heldElt s ks).1 := by
  unfold heldElt heldIn
  dsimp only
  split
  · rfl
  · split <;> rfl
theorem needsAny_walks (s : State) (l : List (Bool × Nat)) : Walks s (needsAny s l).1 := by
  unfold needsAny
  split
  · rfl
  · exact needsBad_walks s true _
theorem foldl_fst_walks {α β : Type} {f : State × β → α → State × β} (h : ∀ s b x, Walks s (f (s, b) x).1) (l : List α) (s : State) (b : β) :
    Walks s (l.foldl f (s, b)).1 := by
  induction l generalizing s b with
  | nil => rfl
  | cons x l ih => exact (h s b x).trans (ih _ _)
theorem engSees_walks (s : State) (h : HartId) (pool : Bool) (pgs : List TlbEntry) (reads : List Nat) :
    Walks s (engSees s h pool pgs reads).1 :=
  foldl_fst_walks (fun t _ k => heldElt_walks t [k]) _ s s

/-- The state in which an access has ended, however it has. -/
def gotState {α : Type} : Got α → State
  | .ok s _ => s
  | .wait s _ => s
  | .dfault s _ => s

theorem engRead_touches (s : State) (l k : Nat) (e : Engine) : Touches s (gotState (engRead s l k e)) := by
  have any := needsAny_walks s ((rangeAddrs e.op.source).map fun a => (!e.sPool && pteC (pageOf e.sPages a).pte, engKey s l k e.sPool e.sPages a))
  unfold engRead engBad
  dsimp only
  split
  · exact Touches.of_walks any
  · refine Touches.of_walks (any.trans ?_)
    dsimp only [gotState]
    split
    · exact engSees_walks _ _ _ _ _
    · exact (noteDeadKeys_walks _ _ _).trans (engSees_walks _ _ _ _ _)

theorem engPut_touches (s : State) (l k : Nat) (e : Engine) (a : Nat) (bs : List Byte) : Touches s (engPut s l k e a bs) := by
  unfold engPut
  split
  · rw [State.pokes_eq]
    rfl
  · exact Touches.foldl (fun _ _ => putBytes_touches _ _ _ _ _ _ _) _ s

theorem engStore_touches (s : State) (l k : Nat) (e : Engine) (ps : List (Nat × List Byte)) : Touches s (gotState (engStore s l k e ps)) := by
  unfold engStore
  extract_lets wk
  have units : Touches s (if e.dPool then memUnits s wk else agentUnits s wk).1 := by
    split
    · exact memUnits_touches s wk
    · exact agentUnits_touches s wk
  generalize (if e.dPool then memUnits s wk else agentUnits s wk) = r at units
  obtain ⟨t, merge⟩ := r
  dsimp only
  split
  · exact units
  · exact units.trans (Touches.foldl (fun _ _ => engPut_touches _ _ _ _ _ _) ps t)

theorem engPerform_touches (s : State) (l k : Nat) (e : Engine) : Touches s (gotState (engPerform s l k e)) := by
  have read := engRead_touches s l k e
  unfold engPerform
  generalize engRead s l k e = r at read
  cases r with
  | ok t ps =>
    have store := engStore_touches t l k e (engRest e ps)
    dsimp only
    generalize engStore t l k e (engRest e ps) = q at store
    cases q with
    | ok u _ => exact (read.trans store).trans rfl
    | wait | dfault => exact read.trans store
  | wait | dfault => exact read

/-! ## Near-memory updates -/

theorem aliasRead_walks (s : State) (h : HartId) (ks : List Nat) (v : Nat) : Walks s (aliasRead s h ks v).1 := by
  induction ks generalizing s v with
  | nil => rfl
  | cons k t ih =>
    unfold aliasRead
    dsimp only
    split
    · exact (heldElt_walks s [k]).trans (ih _ _)
    · exact ih s _
theorem aliased_walks (s : State) (h : HartId) (ks : List Nat) (v : Nat) : Walks s (aliased s h ks v).1 := by
  unfold aliased
  split
  · exact aliasRead_walks s h ks v
  · rfl
theorem locRead_touches (s : State) (h : HartId) (a : Loc) (n : Nat) : Touches s (a.read s h n).1 := Touches.of_walks (aliased_walks s h _ _)
theorem locPut_touches (s : State) (p : Nat) (a : Loc) (n v : Nat) : Touches s (a.put s p n v) := homeWrite_touches s p _ _

theorem nbApply_touches (s : State) (h : HartId) (o : NbOp) : Touches s (o.apply s h) := by
  cases o with
  | add bf a u =>
    cases bf
    · exact (locRead_touches s h a 4).trans (locPut_touches _ _ _ _ _)
    · exact (locRead_touches s h a 2).trans (locPut_touches _ _ _ _ _)
  | pair a u => exact (locRead_touches s h a 4).trans (locPut_touches _ _ _ _ _)
  | sgdm hp p m g =>
    exact ((((locRead_touches s h p 4).trans (locRead_touches _ h m 4)).trans (locPut_touches _ _ _ _ _)).trans (locPut_touches _ _ _ _ _))
  | adam hp p m v g =>
    exact (((((locRead_touches s h p 4).trans (locRead_touches _ h m 4)).trans (locRead_touches _ h v 4)).trans
      (locPut_touches _ _ _ _ _)).trans (locPut_touches _ _ _ _ _)).trans (locPut_touches _ _ _ _ _)

theorem nbPerform_touches (s : State) (h : HartId) (i : NbItem) : Touches s (gotState (nbPerform s h i)) := by
  unfold nbPerform
  extract_lets p rows words
  have lines := recallLines_touches s true true false rows
  generalize recallLines s true true false rows = r at lines
  obtain ⟨t, lost⟩ := r
  dsimp only
  split
  · exact lines
  · exact ((lines.trans (Touches.of_walks (noteDeadKeys_walks t p words))).trans (nbApply_touches _ h i.op)).trans (reconcile_touches _ rows)

/-! ## What a device fault may let happen (R354) -/

/-- A thing in flight happens or not, a free choice. -/
theorem choose_touches (s : State) (n : Nat) (P : Prop) [Decidable P] {f : State → State} (h : ∀ t, Touches t (f t)) :
    Touches s (if P then (s.choose n).1 else f (s.choose n).1) := by
  split
  · rfl
  · exact Touches.trans (Touches.of_walks (Walks.choose s n)) (h _)

theorem scatterLaunch_touches (s : State) (l : Nat) : Touches s (scatterLaunch s l) := by
  have engines : ∀ (t : State) (k : Nat) (e : Engine), Touches t
      (match engPerform t l k e with | .ok s _ => s | .wait s _ => s | .dfault s _ => s) := fun t k e => by
    have h := engPerform_touches t l k e
    generalize engPerform t l k e = r at h
    cases r <;> exact h
  have updates : ∀ (t : State) (h : HartId) (i : NbItem), Touches t
      (match nbPerform t h i with | .ok s _ => s | .wait s _ => s | .dfault s _ => s) := fun t h i => by
    have h := nbPerform_touches t h i
    generalize nbPerform t _ i = r at h
    cases r <;> exact h
  unfold scatterLaunch
  refine Touches.trans (Touches.foldl (fun t x => Touches.foldl (fun u e => ?_) _ t) _ s)
    (Touches.foldl (fun t x => Touches.foldl (fun u i => ?_) _ t) _ _)
  · exact choose_touches u 2 _ (fun v => engines v x.1.2 e)
  · exact choose_touches u 2 _ (fun v => updates v x.1 i)

theorem landPosted_touches (s : State) (x : Posted) : Touches s (landPosted s x) := by
  unfold landPosted
  split
  · rfl
  · split
    · rfl
    · exact (homePut_touches s _ _ _).trans (Touches.foldl (f := fun t i => countPut t (x.pa + i)) (fun _ _ => rfl) _ _)

end Sys2Proof.Proofs
end

section
/-! PROOFS. What the scheduler's own accesses and its work on a partition's queues leave of the state. -/
namespace Sys2Proof.Proofs
open Sys2Proof Sys2Proof.Machine

/-! ## Tables -/

theorem mem_tput {κ α : Type} [DecidableEq κ] {t : List (κ × α)} {k : κ} {v : α} {x : κ × α} (h : x ∈ tput t k v) : x.1 = k ∨ x ∈ t := by
  induction t with
  | nil => simp_all [tput]
  | cons e t ih =>
    obtain ⟨a, w⟩ := e
    unfold tput at h
    split at h
    next r =>
      rcases List.mem_cons.1 h with rfl | h
      · exact .inl r
      · exact .inr (List.mem_cons_of_mem _ h)
    next =>
      rcases List.mem_cons.1 h with rfl | h
      · exact .inr List.mem_cons_self
      · exact (ih h).imp_right (List.mem_cons_of_mem _)
theorem keys_tput {κ α : Type} [DecidableEq κ] (t : List (κ × α)) (k : κ) (v : α) :
    (tput t k v).map (·.1) = if k ∈ t.map (·.1) then t.map (·.1) else t.map (·.1) ++ [k] := by
  induction t with
  | nil => rfl
  | cons e t ih =>
    by_cases r : e.1 = k
    · simp [tput, r]
    · have r' : k ≠ e.1 := Ne.symm r
      simp only [tput, if_neg r, List.map_cons, ih, List.mem_cons, r', false_or]
      split <;> rfl
theorem nodup_tput {κ α : Type} [DecidableEq κ] (t : List (κ × α)) (k : κ) (v : α) :
    ((tput t k v).map (·.1)).Nodup ↔ (t.map (·.1)).Nodup := by
  rw [keys_tput]
  split
  next => rfl
  next h => rw [List.nodup_append_comm, List.singleton_append, List.nodup_cons, and_iff_right h]
/-- Where each key stands once, a listed value is the value at its key. -/
theorem tget_of_mem {κ α : Type} [DecidableEq κ] {d : α} {t : List (κ × α)} (n : (t.map (·.1)).Nodup) {x : κ × α} (h : x ∈ t) :
    tget d t x.1 = x.2 := by
  induction t with
  | nil => cases h
  | cons e t ih =>
    obtain ⟨new, n⟩ := List.nodup_cons.1 n
    unfold tget
    rcases List.mem_cons.1 h with rfl | h
    · exact if_pos rfl
    · rw [if_neg fun r => new (List.mem_map.2 ⟨x, h, r.symm⟩)]
      exact ih n h
theorem tget_of_not_mem {κ α : Type} [DecidableEq κ] {d : α} {t : List (κ × α)} {k : κ} (h : ∀ x ∈ t, x.1 ≠ k) : tget d t k = d := by
  induction t with
  | nil => rfl
  | cons e t ih =>
    unfold tget
    rw [if_neg (h e List.mem_cons_self)]
    exact ih fun x hx => h x (List.mem_cons_of_mem _ hx)

theorem part_setPart_of_ne (s : State) {p r : Nat} (x : Part) (n : r ≠ p) : (s.setPart p x).part r = s.part r := tget_tput_of_ne _ _ _ n
theorem part_updPart_of_ne (s : State) {p r : Nat} (f : Part → Part) (n : r ≠ p) : (s.updPart p f).part r = s.part r :=
  tget_tput_of_ne _ _ _ n

/-! ## The scheduler's accesses (R375) -/

theorem xlateNow_walks (s : State) (p : Nat) (root : BitVec 64) (vpn : Nat) : Walks s (xlateNow s p root vpn).1 :=
  (noteWalk_walks s p root vpn).trans (pickEntry_walks rfl)
theorem walkPages_walks (p : Nat) (root : BitVec 64) (ok : Nat → Bool) (last n : Nat) (s : State) (va : Nat) :
    Walks s (walkPages p root ok last n s va).1 := by
  induction n generalizing s va with
  | zero => rfl
  | succ n ih =>
    have one := xlateNow_walks s p root (va / 65536)
    unfold walkPages
    generalize xlateNow s p root (va / 65536) = r at one
    obtain ⟨t, e⟩ := r
    have rest := one.trans (ih t (65536 * (va / 65536 + 1)))
    dsimp only
    generalize walkPages p root ok last n t (65536 * (va / 65536 + 1)) = q at rest
    split
    · rfl
    · split
      · exact one
      · split
        · exact one
        · obtain ⟨u, _ | _⟩ := q <;> exact rest
theorem schedPages_walks (s : State) (p : Nat) (ok : Nat → Bool) (va n : Nat) : Walks s (schedPages s p ok va n).1 := by
  unfold schedPages rootPages
  split
  · rfl
  · exact walkPages_walks _ _ _ _ _ _ _
theorem schedRead_walks (s : State) (p va n : Nat) : Walks s (schedRead s p va n).1 := by
  have pages := schedPages_walks s p (· == 0) va n
  unfold schedRead
  generalize schedPages s p (· == 0) va n = r at pages
  obtain ⟨t, f | pgs⟩ := r
  · exact pages
  · have read := (pages.trans (noteDeadKeys_walks t p (keysOf t p pgs va n))).trans (needsBad_walks _ true (keysOf t p pgs va n))
    dsimp only
    split <;> exact read
theorem schedPut_touches (s : State) (p : Nat) (pgs : List TlbEntry) (va : Nat) (bs : List Byte) : Touches s (schedPut s p pgs va bs).1 := by
  have put := homePut_touches s p (keysOf s p pgs va bs.length) bs
  unfold schedPut
  generalize homePut s p (keysOf s p pgs va bs.length) bs = r at put
  obtain ⟨t, _ | _⟩ := r <;> exact put
theorem schedWrite_touches (s : State) (p va n v : Nat) : Touches s (schedWrite s p va n v).1 := by
  have pages := Touches.of_walks (schedPages_walks s p (· == 0) va n)
  unfold schedWrite
  generalize schedPages s p (· == 0) va n = r at pages
  obtain ⟨t, f | pgs⟩ := r
  · exact pages
  · exact pages.trans (schedPut_touches t p pgs va _)
theorem readTable_walks (s : State) (p q : Nat) : Walks s (readTable s p q).1 := by
  have read := schedRead_walks s p (tableAddr s p q) 32
  unfold readTable
  generalize schedRead s p (tableAddr s p q) 32 = r at read
  obtain ⟨t, f | v⟩ := r <;> exact read
theorem readNotify_walks (s : State) (p q : Nat) : Walks s (readNotify s p q).1 := by
  have read := schedRead_walks s p (notifyAddr s p q) 8
  unfold readNotify
  generalize schedRead s p (notifyAddr s p q) 8 = r at read
  obtain ⟨t, f | v⟩ := r <;> exact read
theorem faultOf_fst (r : State × Except SFail Unit) : (faultOf r).1 = r.1 := by
  obtain ⟨t, _ | _⟩ := r <;> rfl
theorem writeFlags_touches (s : State) (p q : Nat) (pending mapped : Bool) : Touches s (writeFlags s p q pending mapped).1 := by
  have read := Touches.of_walks (schedRead_walks s p (tableAddr s p q + 9) 1)
  unfold writeFlags
  generalize schedRead s p (tableAddr s p q + 9) 1 = r at read
  obtain ⟨t, f | v⟩ := r
  · exact read
  · dsimp only
    rw [faultOf_fst]
    exact read.trans (schedWrite_touches t p _ 1 _)
theorem doneOf_walks (s : State) (p q : Nat) : Walks s (doneOf s p q).1 := by
  have table := readTable_walks s p q
  unfold doneOf
  split
  · rfl
  · generalize readTable s p q = r at table
    obtain ⟨t, _ | _⟩ := r <;> exact table
theorem tokenMet_walks (s : State) (p t : Nat) : Walks s (tokenMet s p t).1 := by
  have found := doneOf_walks s p (t / 2 ^ 48)
  unfold tokenMet
  split
  · rfl
  · generalize doneOf s p (t / 2 ^ 48) = r at found
    obtain ⟨u, _ | _⟩ := r <;> exact found
theorem tokensMet_walks (s : State) (p : Nat) (r : Record) : Walks s (tokensMet s p r).1 := by
  have first := tokenMet_walks s p r.dep0.toNat
  unfold tokensMet
  generalize tokenMet s p r.dep0.toNat = a at first
  obtain ⟨t, _ | a⟩ := a
  · exact first
  · have second := first.trans (tokenMet_walks t p r.dep1.toNat)
    dsimp only
    generalize tokenMet t p r.dep1.toNat = b at second
    obtain ⟨u, _ | b⟩ := b <;> exact second

/-! ## Work on the queues of a partition -/

/-- The queues of partition p stand in its table once each. -/
def QueuesOnce (s : State) (p : Nat) : Prop := ((s.part p).queues.map (·.1)).Nodup

/-- u is s after work of the scheduler of partition p: what `Touches` names may differ, what has been sent and the completion records not
written, and the queues of p and the collectives it waits for. No queue has come by a record. -/
structure Schedules (p : Nat) (s u : State) : Prop where
  frame : u = { s with
    fresh := u.fresh, wbuf := u.wbuf, cachedW := u.cachedW, uncachedW := u.uncachedW, flushed := u.flushed, settled := u.settled,
    bad := u.bad, badL2 := u.badL2, badL1 := u.badL1, notLive := u.notLive, cores := u.cores, parts := u.parts,
    md := { s.md with notLiveReads := u.md.notLiveReads, sent := u.md.sent, unwritten := u.md.unwritten } }
  others : ∀ r, r ≠ p → u.part r = s.part r
  own : u.part p = { s.part p with queues := (u.part p).queues, wanting := (u.part p).wanting, clreds := (u.part p).clreds }
  keys : ∀ x ∈ u.parts, x.1 = p ∨ ∃ y ∈ s.parts, y.1 = x.1
  once : QueuesOnce u p ↔ QueuesOnce s p
  untaken : QueuesOnce s p → ∀ q, (s.userQ p q).taken = none → (u.userQ p q).taken = none

/-- Where the partitions are as they were, only the frame is to be shown. -/
theorem Schedules.of_frame {p : Nat} {s u : State} (e : u.parts = s.parts)
    (frame : u = { s with
      fresh := u.fresh, wbuf := u.wbuf, cachedW := u.cachedW, uncachedW := u.uncachedW, flushed := u.flushed, settled := u.settled,
      bad := u.bad, badL2 := u.badL2, badL1 := u.badL1, notLive := u.notLive, cores := u.cores, parts := u.parts,
      md := { s.md with notLiveReads := u.md.notLiveReads, sent := u.md.sent, unwritten := u.md.unwritten } }) : Schedules p s u := by
  have part : ∀ r, u.part r = s.part r := fun r => congrArg (tget Part.idle · r) e
  exact
    { frame := frame
      others := fun r _ => part r
      own := by rw [part]
      keys := fun x hx => .inr ⟨x, e ▸ hx, rfl⟩
      once := by rw [QueuesOnce, QueuesOnce, part]
      untaken := fun _ q h => by rwa [State.userQ, part] }
theorem Touches.parts {s u : State} (h : Touches s u) : u.parts = s.parts := by rw [h]
theorem Touches.part {s u : State} (h : Touches s u) (p : Nat) : u.part p = s.part p := congrArg (tget Part.idle · p) h.parts
theorem Touches.userQ {s u : State} (h : Touches s u) (p q : Nat) : u.userQ p q = s.userQ p q := by rw [State.userQ, h.part]; rfl
theorem Schedules.of_touches {p : Nat} {s u : State} (h : Touches s u) : Schedules p s u :=
  .of_frame h.parts (by rw [h])
theorem Schedules.refl (p : Nat) (s : State) : Schedules p s s := .of_touches rfl
theorem Schedules.trans {p : Nat} {s t u : State} (a : Schedules p s t) (b : Schedules p t u) : Schedules p s u where
  frame := by rw [b.frame, a.frame]
  others r n := (b.others r n).trans (a.others r n)
  own := by rw [b.own, a.own]
  keys x hx := by
    rcases b.keys x hx with h | ⟨y, hy, e⟩
    · exact .inl h
    · rw [← e]
      exact a.keys y hy
  once := b.once.trans a.once
  untaken h q n := b.untaken (a.once.2 h) q (a.untaken h q n)
theorem Schedules.foldl {α : Type} {p : Nat} {f : State → α → State} {P : State → Prop} (keep : ∀ s t, Schedules p s t → P s → P t)
    (h : ∀ s x, P s → Schedules p s (f s x)) (l : List α) {s : State} (hs : P s) : Schedules p s (l.foldl f s) := by
  induction l generalizing s with
  | nil => exact Schedules.refl p s
  | cons x l ih => exact (h s x hs).trans (ih (keep _ _ (h s x hs) hs))

theorem Schedules.launches {p : Nat} {s u : State} (h : Schedules p s u) : u.launches = s.launches := by rw [h.frame]
theorem Schedules.harts {p : Nat} {s u : State} (h : Schedules p s u) : u.harts = s.harts := by rw [h.frame]
theorem Schedules.md {p : Nat} {s u : State} (h : Schedules p s u) :
    u.md = { s.md with notLiveReads := u.md.notLiveReads, sent := u.md.sent, unwritten := u.md.unwritten } := congrArg State.md h.frame
theorem Schedules.launchesOf {p : Nat} {s u : State} (h : Schedules p s u) (r : Nat) : u.launchesOf r = s.launchesOf r := by
  rw [State.launchesOf, h.launches]; rfl

@[simp] theorem part_setQ (s : State) (p q : Nat) (x : UserQ) :
    (s.setQ p q x).part p = { s.part p with queues := tput (s.part p).queues q x } := State.part_updPart s p _
@[simp] theorem userQ_setQ (s : State) (p q : Nat) (x : UserQ) : (s.setQ p q x).userQ p q = x := by
  rw [State.userQ, part_setQ]
  exact tget_tput_same _ _ _ _
theorem userQ_setQ_of_ne (s : State) (p : Nat) {q r : Nat} (x : UserQ) (n : r ≠ q) : (s.setQ p q x).userQ p r = s.userQ p r := by
  rw [State.userQ, part_setQ]
  exact tget_tput_of_ne _ _ _ n

/-- A queue that does not come by a record is changed. -/
theorem setQ_schedules (s : State) (p q : Nat) (x : UserQ)
    (h : QueuesOnce s p → (s.userQ p q).taken = none → x.taken = none) :
    Schedules p s (s.setQ p q x) where
  frame := rfl
  others r n := part_updPart_of_ne s _ n
  own := by simp
  keys y hy := (mem_tput hy).imp_right fun hy => ⟨y, hy, rfl⟩
  once := by
    rw [QueuesOnce, part_setQ]
    exact nodup_tput _ q x
  untaken o r n := by
    by_cases e : r = q
    · subst e
      rw [userQ_setQ]
      exact h o n
    · rwa [userQ_setQ_of_ne _ _ _ e]

theorem countUnwritten_schedules (s : State) (p r : Nat) : Schedules p s (countUnwritten s r) := .of_frame rfl rfl
theorem writeCompletion_schedules (s : State) (p r compl seq status detail slices preempts : Nat) :
    Schedules p s (writeCompletion s r compl seq status detail slices preempts).1 := by
  have pages := Touches.of_walks (schedPages_walks s r (· != 2) compl 32)
  unfold writeCompletion
  extract_lets bytes
  split
  · exact countUnwritten_schedules s p r
  · generalize schedPages s r (· != 2) compl 32 = g at pages
    split
    next t e =>
      have pages : Schedules p s t := .of_touches pages
      split
      · exact pages.trans (.of_frame rfl rfl)
      · rw [faultOf_fst]
        exact pages.trans (.of_touches (schedPut_touches t r [e] compl bytes))
    next => exact .of_touches pages
    next t _ _ _ => exact (Schedules.of_touches pages).trans (countUnwritten_schedules t p r)
theorem finishRecord_schedules (s : State) (p q n : Nat) : Schedules p s (finishRecord s p q n).1 := by
  unfold finishRecord
  extract_lets u
  generalize passDone (u.finished.length + 1) u.done (n :: u.finished) = r
  obtain ⟨d, f⟩ := r
  have set := setQ_schedules s p q { u with done := d, finished := f } fun _ => id
  dsimp only
  split
  · exact set
  · rw [faultOf_fst]
    exact set.trans (.of_touches (schedWrite_touches _ p _ 8 d))

/-- The step of `refreshTokens` at one queue. -/
def refreshOne (p : Nat) (a : State × Option Nat) (x : Nat × UserQ) : State × Option Nat :=
  match x.2.taken with
  | some t =>
    if t.candidate then a
    else match tokensMet a.1 p t.rec_ with
      | (s, .error d) => (s, firstFault a.2 (some d))
      | (s, .ok m) => (if m then s.setQ p x.1 { s.userQ p x.1 with taken := some { t with candidate := true, waited := 0 } } else s, a.2)
  | none => a
theorem refreshTokens_eq (s : State) (p : Nat) : refreshTokens s p = (s.part p).queues.foldl (refreshOne p) (s, none) := rfl

/-- A queue that has a record may see it become a candidate. -/
theorem refreshOne_schedules {p : Nat} {a : State × Option Nat} {x : Nat × UserQ}
    (h : QueuesOnce a.1 p → x.2.taken ≠ none → (a.1.userQ p x.1).taken ≠ none) : Schedules p a.1 (refreshOne p a x).1 := by
  unfold refreshOne
  split
  next t e =>
    split
    · exact .refl p a.1
    · have met := Touches.of_walks (tokensMet_walks a.1 p t.rec_)
      generalize tokensMet a.1 p t.rec_ = r at met
      obtain ⟨u, d | m⟩ := r
      · exact .of_touches met
      · refine (Schedules.of_touches met).trans ?_
        dsimp only
        split
        · refine setQ_schedules u p x.1 _ fun o n => absurd ?_ (h ?_ (by simp [e]))
          · rwa [← met.userQ]
          · rwa [QueuesOnce, ← met.part]
        · exact .refl p u
  next => exact .refl p a.1
/-- A queue that has a record still has one. -/
theorem refreshOne_keeps {p q : Nat} {a : State × Option Nat} (x : Nat × UserQ) (h : (a.1.userQ p q).taken ≠ none) :
    ((refreshOne p a x).1.userQ p q).taken ≠ none := by
  unfold refreshOne
  split
  next t e =>
    split
    · exact h
    · have met := Touches.of_walks (tokensMet_walks a.1 p t.rec_)
      generalize tokensMet a.1 p t.rec_ = r at met
      obtain ⟨u, d | m⟩ := r
      · rwa [← met.userQ p q] at h
      · rw [← met.userQ p q] at h
        dsimp only
        split
        · by_cases e : q = x.1
          · subst e
            simp
          · rwa [userQ_setQ_of_ne _ _ _ e]
        · exact h
  next => exact h
theorem refreshFold_schedules {p : Nat} (l : List (Nat × UserQ)) {a : State × Option Nat}
    (h : QueuesOnce a.1 p → ∀ x ∈ l, x.2.taken ≠ none → (a.1.userQ p x.1).taken ≠ none) :
    Schedules p a.1 (l.foldl (refreshOne p) a).1 := by
  induction l generalizing a with
  | nil => exact .refl p a.1
  | cons x l ih =>
    have one := refreshOne_schedules fun o => h o x List.mem_cons_self
    exact one.trans (ih fun o y hy n => refreshOne_keeps x (h (one.once.1 o) y (List.mem_cons_of_mem _ hy) n))
theorem refreshTokens_schedules (s : State) (p : Nat) : Schedules p s (refreshTokens s p).1 := by
  rw [refreshTokens_eq]
  refine refreshFold_schedules (a := (s, none)) _ fun o x hx n => ?_
  rwa [State.userQ, tget_of_mem o hx]

end Sys2Proof.Proofs
end

section
/-! PROOFS. Device faults, the end of launches, and records that are not placed (R354, R360, R375). -/
namespace Sys2Proof.Proofs
open Sys2Proof Sys2Proof.Machine

/-! ## Device faults -/

/-- A device fault lets some of what is in flight happen, discards the launches of the partition and the results that it waits for. -/
theorem deviceFault_eq (s : State) (p d : Nat) :
    ∃ t, Touches s t ∧ deviceFault s p d = (discardLaunches t p 4 d).updPart p fun x => { x with clreds := [] } := by
  refine ⟨_, ?_, rfl⟩
  refine (Touches.foldl scatterLaunch_touches _ s).trans (Touches.foldl (fun t x => ?_) _ _)
  exact choose_touches t 2 _ fun u => landPosted_touches u x

theorem clearClreds_schedules (s : State) (p : Nat) : Schedules p s (s.updPart p fun x => { x with clreds := [] }) where
  frame := rfl
  others r n := part_updPart_of_ne s _ n
  own := by simp
  keys y hy := (mem_tput hy).imp_right fun hy => ⟨y, hy, rfl⟩
  once := by simp [QueuesOnce]
  untaken _ q h := by simpa [State.userQ] using h

theorem Touches.launches {s u : State} (h : Touches s u) : u.launches = s.launches := by rw [h]
/-- A device fault of a partition without launches discards nothing. -/
theorem deviceFault_schedules {s : State} {p : Nat} (none : s.launchesOf p = []) (d : Nat) : Schedules p s (deviceFault s p d) := by
  obtain ⟨t, touch, e⟩ := deviceFault_eq s p d
  have none : t.launchesOf p = [] := ((Schedules.of_touches touch).launchesOf (p := p) p).trans none
  rw [e, discardLaunches, none]
  exact (Schedules.of_touches touch).trans (clearClreds_schedules t p)

/-! ## Records that are not placed -/

theorem recordDone_schedules {s : State} {p : Nat} (none : s.launchesOf p = []) (q n : Nat) : Schedules p s (recordDone s p q n) := by
  have done := finishRecord_schedules s p q n
  unfold recordDone
  generalize finishRecord s p q n = r at done
  obtain ⟨t, _ | d⟩ := r
  · have again := done.trans (refreshTokens_schedules t p)
    dsimp only
    generalize refreshTokens t p = r at again
    obtain ⟨u, _ | d⟩ := r
    · exact again
    · exact again.trans (deviceFault_schedules ((again.launchesOf p).trans none) d)
  · exact done.trans (deviceFault_schedules ((done.launchesOf p).trans none) d)
theorem rejectRecord_schedules {s : State} {p : Nat} (none : s.launchesOf p = []) (q n : Nat) (r : Record) (status detail : Nat) :
    Schedules p s (rejectRecord s p q n r status detail) := by
  have wrote := writeCompletion_schedules s p p r.compl.toNat r.seq.toNat status detail 0 0
  unfold rejectRecord
  generalize writeCompletion s p r.compl.toNat r.seq.toNat status detail 0 0 = w at wrote
  obtain ⟨t, _ | d⟩ := w
  all_goals have done := wrote.trans (recordDone_schedules ((wrote.launchesOf p).trans none) q n)
  · exact done
  · exact done.trans (deviceFault_schedules ((done.launchesOf p).trans none) d)

/-- The step of `dropTaken` at one queue. -/
def dropOne (p : Nat) (s : State) (x : Nat × UserQ) : State :=
  match x.2.taken with
  | some t => rejectRecord (s.setQ p x.1 { s.userQ p x.1 with taken := none }) p x.1 t.n t.rec_ 5 0
  | none => s
theorem dropTaken_eq (s : State) (p : Nat) : dropTaken s p = (s.part p).queues.foldl (dropOne p) s := rfl
theorem dropOne_schedules {s : State} {p : Nat} (none : s.launchesOf p = []) (x : Nat × UserQ) : Schedules p s (dropOne p s x) := by
  unfold dropOne
  split
  next t _ =>
    have set := setQ_schedules s p x.1 { s.userQ p x.1 with taken := .none } fun _ _ => rfl
    exact set.trans (rejectRecord_schedules ((set.launchesOf p).trans none) x.1 t.n t.rec_ 5 0)
  next => exact .refl p s
theorem dropTaken_schedules {s : State} {p : Nat} (none : s.launchesOf p = []) : Schedules p s (dropTaken s p) :=
  Schedules.foldl (P := fun s => s.launchesOf p = []) (fun _ _ h n => (h.launchesOf p).trans n) (fun _ x n => dropOne_schedules n x) _ none
/-- The record of the queue is dropped. -/
theorem dropOne_untaken {s : State} {p : Nat} (none : s.launchesOf p = []) (o : QueuesOnce s p) {x : Nat × UserQ} (h : x.2.taken ≠ .none) :
    ((dropOne p s x).userQ p x.1).taken = .none := by
  obtain ⟨t, e⟩ := Option.ne_none_iff_exists'.1 h
  have set := setQ_schedules s p x.1 { s.userQ p x.1 with taken := .none } fun _ _ => rfl
  simp only [dropOne, e]
  exact (rejectRecord_schedules ((set.launchesOf p).trans none) x.1 t.n t.rec_ 5 0).untaken (set.once.2 o) x.1 (by simp)
theorem dropFold_untaken {p : Nat} (l : List (Nat × UserQ)) {s : State} (none : s.launchesOf p = []) (o : QueuesOnce s p)
    (h : ∀ q, (s.userQ p q).taken ≠ .none → ∃ x ∈ l, x.1 = q ∧ x.2.taken ≠ .none) (q : Nat) :
    ((l.foldl (dropOne p) s).userQ p q).taken = .none := by
  induction l generalizing s with
  | nil =>
    by_contra n
    obtain ⟨x, hx, _⟩ := h q n
    cases hx
  | cons x l ih =>
    have one := dropOne_schedules none x
    refine ih ((one.launchesOf p).trans none) (one.once.2 o) fun r n => ?_
    obtain ⟨y, hy, e, t⟩ := h r fun z => n (one.untaken o r z)
    rcases List.mem_cons.1 hy with rfl | hy
    · exact absurd (e ▸ dropOne_untaken none o t) n
    · exact ⟨y, hy, e, t⟩
/-- No queue of the partition has a record any more (R360). -/
theorem dropTaken_untaken {s : State} {p : Nat} (none : s.launchesOf p = []) (o : QueuesOnce s p) (q : Nat) :
    ((dropTaken s p).userQ p q).taken = .none := by
  rw [dropTaken_eq]
  refine dropFold_untaken _ none o (fun r h => ?_) q
  by_cases m : ∃ x ∈ (s.part p).queues, x.1 = r
  · obtain ⟨x, hx, rfl⟩ := m
    rw [State.userQ, tget_of_mem o hx] at h
    exact ⟨x, hx, rfl, h⟩
  · rw [State.userQ, tget_of_not_mem fun x hx e => m ⟨x, hx, e⟩] at h
    exact absurd rfl h

theorem unmapQueue_touches (s : State) (p q : Nat) : Touches s (unmapQueue s p q) := by
  unfold unmapQueue
  extract_lets u
  split
  · exact ((schedWrite_touches s p _ 8 _).trans (schedWrite_touches _ p _ 8 _)).trans (writeFlags_touches _ p q false false)
  · rfl
theorem unmapAll_touches (s : State) (p : Nat) : Touches s (unmapAll s p) := 
  Touches.foldl (α := Nat × UserQ) (fun t x => unmapQueue_touches t p x.1) _ s

/-! ## The end of launches -/

/-- u is s after launches have ended, if any: what belongs to them is gone, and of the partitions only queues and the collectives they
wait for differ. -/
structure Ends (s u : State) : Prop where
  frame : u = { s with
    fresh := u.fresh, wbuf := u.wbuf, cachedW := u.cachedW, uncachedW := u.uncachedW, flushed := u.flushed, settled := u.settled,
    seen := u.seen, bad := u.bad, badL2 := u.badL2, badL1 := u.badL1, notLive := u.notLive, harts := u.harts, cores := u.cores,
    launches := u.launches, parts := u.parts, posted := u.posted, paceMsgs := u.paceMsgs, gongMsgs := u.gongMsgs,
    md := { s.md with notLiveReads := u.md.notLiveReads, sent := u.md.sent, unwritten := u.md.unwritten } }
  launches : ∀ y ∈ u.launches, y ∈ s.launches
  part : ∀ p, u.part p = { s.part p with queues := (u.part p).queues, wanting := (u.part p).wanting, clreds := (u.part p).clreds }
  once : ∀ p, QueuesOnce u p ↔ QueuesOnce s p

theorem Ends.of_schedules {p : Nat} {s u : State} (h : Schedules p s u) : Ends s u where
  frame := by rw [h.frame]
  launches y hy := h.launches ▸ hy
  part r := by
    by_cases e : r = p
    · exact e ▸ h.own
    · rw [h.others r e]
  once r := by
    by_cases e : r = p
    · exact e ▸ h.once
    · rw [QueuesOnce, h.others r e]
      rfl
theorem Ends.refl (s : State) : Ends s s := .of_schedules (.refl 0 s)
theorem Ends.trans {s t u : State} (a : Ends s t) (b : Ends t u) : Ends s u where
  frame := by rw [b.frame, a.frame]
  launches y hy := a.launches y (b.launches y hy)
  part p := by rw [b.part, a.part]
  once p := (b.once p).trans (a.once p)
theorem Ends.foldl {α : Type} {f : State → α → State} (h : ∀ s x, Ends s (f s x)) (l : List α) (s : State) : Ends s (l.foldl f s) := by
  induction l generalizing s with
  | nil => exact Ends.refl s
  | cons x l ih => exact (h s x).trans (ih _)
theorem Ends.md {s u : State} (h : Ends s u) :
    u.md = { s.md with notLiveReads := u.md.notLiveReads, sent := u.md.sent, unwritten := u.md.unwritten } := congrArg State.md h.frame
theorem Ends.cycle {s u : State} (h : Ends s u) : u.cycle = s.cycle := by rw [h.frame]
theorem Ends.epoch {s u : State} (h : Ends s u) : u.epoch = s.epoch := by rw [h.frame]

theorem mem_tdel {κ α : Type} [DecidableEq κ] {t : List (κ × α)} {k : κ} {x : κ × α} : x ∈ tdel t k ↔ x ∈ t ∧ x.1 ≠ k := by
  simp [tdel]
theorem dropLaunch_ends (s : State) (l : Nat) : Ends s (dropLaunch s l) where
  frame := rfl
  launches _ hy := (mem_tdel.1 hy).1
  part _ := rfl
  once _ := Iff.rfl
/-- The launch has ended: it is not in the table any more. -/
theorem endLaunch_ends (s : State) (l status detail : Nat) :
    Ends s (endLaunch s l status detail).1 ∧ ∀ y ∈ (endLaunch s l status detail).1.launches, y.1 ≠ l := by
  unfold endLaunch
  extract_lets x
  have wrote := writeCompletion_schedules s x.part x.part x.rec_.compl.toNat x.rec_.seq.toNat status detail x.slices x.preempts
  generalize writeCompletion s x.part x.rec_.compl.toNat x.rec_.seq.toNat status detail x.slices x.preempts = r at wrote
  obtain ⟨t, a⟩ := r
  have done := (wrote.trans (setQ_schedules t x.part x.q { t.userQ x.part x.q with activeAt := t.cycle } fun _ => id)).trans
    (finishRecord_schedules _ x.part x.q x.rec_.seq.toNat)
  dsimp only
  generalize finishRecord (t.setQ x.part x.q { t.userQ x.part x.q with activeAt := t.cycle }) x.part x.q x.rec_.seq.toNat = r at done
  obtain ⟨u, b⟩ := r
  have last := refreshTokens_schedules (dropLaunch u l) x.part
  refine ⟨((Ends.of_schedules done).trans (dropLaunch_ends u l)).trans (.of_schedules last), fun y hy => ?_⟩
  rw [show _ = (dropLaunch u l).launches from last.launches] at hy
  exact (mem_tdel.1 hy).2
theorem discardLaunches_ends (s : State) (p status detail : Nat) : Ends s (discardLaunches s p status detail) :=
  Ends.foldl (fun t l => (endLaunch_ends t l status detail).1) _ s
theorem deviceFault_ends (s : State) (p d : Nat) : Ends s (deviceFault s p d) := by
  obtain ⟨t, touch, e⟩ := deviceFault_eq s p d
  rw [e]
  exact ((Ends.of_schedules (p := p) (.of_touches touch)).trans (discardLaunches_ends t p 4 d)).trans
    (.of_schedules (clearClreds_schedules _ p))

end Sys2Proof.Proofs
end

section
/-! PROOFS. What an accepted Clave command answers, and the commands to the module (R358). -/
namespace Sys2Proof.Proofs
open Sys2Proof Sys2Proof.Machine Sys2Proof.Claims

/-! ## Replies and acceptance -/

@[simp] theorem toBytes_length (n x : Nat) : (toBytes n x).length = n := by
  induction n generalizing x with
  | zero => rfl
  | succ n ih => simp [toBytes, ih]

theorem reply_eq (s : State) (c : Cmd) (status : Nat) (body : List Byte) :
    reply s c status body = { s with md := { s.md with sent := replied c status body :: s.md.sent } } := by
  have len : (toBytes 4 status ++ body).length = 4 + body.length := by simp
  unfold reply replied
  simp only [len]
  simp only [cmdBytes_eq_headed, toBytes_eq_bytesOf, cmdMagic]

/-- An accepted command that can have its effect once it has begun has it. -/
theorem submit_accepted {s t : State} {code : Nat} {c : Cmd} {o q : Order} (a : Accepted s code c)
    (begins : orderBegin (accepted s c) c o = (t, q)) (ready : orderReady t c q = true) : submit (accepted s c) c o = finish t c q := by
  obtain ⟨-, -, -, -, -, -, turn⟩ := a
  have free : behindOf c (accepted s c).md.waiting = false := behindOf_of_Turn turn
  simp [submit, free, begins, ready]
/-- One that can not joins those that are not finished. -/
theorem submit_waits {s t : State} {code : Nat} {c : Cmd} {o q : Order} (a : Accepted s code c)
    (begins : orderBegin (accepted s c) c o = (t, q)) (ready : orderReady t c q = false) : submit (accepted s c) c o = keepOrder t c q := by
  obtain ⟨-, -, -, -, -, -, turn⟩ := a
  have free : behindOf c (accepted s c).md.waiting = false := behindOf_of_Turn turn
  simp [submit, free, begins, ready]
theorem finish_of_orderRun {s t : State} {c : Cmd} {o : Order} {status : Nat} {body : List Byte} (notReset : ∀ f, o ≠ .reset f)
    (run : orderRun s c o = (t, status, body)) : finish s c o = close s (reply t c status body) := by
  cases o with
  | reset f => exact absurd rfl (notReset f)
  | _ => simp only [finish, run]

/-- The command has its effect at once, whatever the state, and is answered. -/
def Immediate : Order → Prop
  | .reset _ | .load | .stop _ => False
  | _ => True
theorem Immediate.begins {o : Order} (h : Immediate o) (s : State) (c : Cmd) : orderBegin s c o = (s, o) := by
  cases o with
  | stop => exact h.elim
  | _ => rfl
theorem Immediate.ready {o : Order} (h : Immediate o) (s : State) (c : Cmd) : orderReady s c o = true := by
  cases o with
  | load | stop => exact h.elim
  | _ => rfl
theorem Immediate.notReset {o : Order} (h : Immediate o) (f : BootFindings) : o ≠ .reset f := by
  rintro rfl
  exact h

theorem accepted_wbuf {s : State} {code : Nat} {c : Cmd} (a : Accepted s code c) : s.wbuf = [] := by
  obtain ⟨-, w, -⟩ := a
  exact w

/-- The state once a command is accepted and has changed the module's record by f, and the state once it is answered as well. -/
def took (s : State) (c : Cmd) (f : Module → Module) : State :=
  { s with md := { f s.md with lastSeq := tput s.md.lastSeq c.key c.seq.toNat, sent := s.md.sent } }
def answered (s : State) (c : Cmd) (f : Module → Module) (status : Nat) (body : List Byte) : State :=
  { s with md := { f s.md with lastSeq := tput s.md.lastSeq c.key c.seq.toNat, sent := replied c status body :: s.md.sent } }
theorem reply_took (s : State) (c : Cmd) (f : Module → Module) (status : Nat) (body : List Byte) :
    reply (took s c f) c status body = answered s c f status body := by
  rw [reply_eq]
  rfl

/-- A command that is answered once it has begun, and beside its reply changes the module's record alone. -/
theorem answers_onlyModule {s u : State} {e : Instr} {code status : Nat} {c : Cmd} {o q : Order} {body : List Byte} {f : Module → Module}
    (a : Accepted s code c) (run : exec e s = .next (command s code c o)) (begins : orderBegin (accepted s c) c o = (u, q))
    (ready : orderReady u c q = true) (notReset : ∀ f, q ≠ .reset f) (effect : orderRun u c q = (took s c f, status, body))
    (mem : u.mem = s.mem) : Answers e s c status body f (OnlyModule s) := by
  have w := accepted_wbuf a
  have closed : close u (answered s c f status body) = answered s c f status body := close_eq w mem.symm
  rw [command_accepted a o, submit_accepted a begins ready, finish_of_orderRun notReset effect, reply_took, closed] at run
  exact ⟨_, run, rfl, rfl⟩

theorem answers_immediate {s : State} {e : Instr} {code status : Nat} {c : Cmd} {o : Order} {body : List Byte} {f : Module → Module}
    (a : Accepted s code c) (run : exec e s = .next (command s code c o)) (i : Immediate o)
    (effect : orderRun (accepted s c) c o = (took s c f, status, body)) : Answers e s c status body f (OnlyModule s) :=
  answers_onlyModule a run (i.begins _ c) (i.ready _ c) i.notReset effect rfl
/-- A command that is not one that its order takes has no effect but the answer. -/
theorem answers_malformed {s : State} {e : Instr} {code status : Nat} {c : Cmd} {o : Order}
    (a : Accepted s code c) (run : exec e s = .next (command s code c o)) (i : Immediate o)
    (effect : orderRun (accepted s c) c o = (accepted s c, status, [])) : Answers e s c status [] id (OnlyModule s) :=
  answers_immediate a run i effect

/-! ## Commands to the module -/

/-- A RESET that is malformed is answered without a boot (log 34). -/
theorem answers_reset {s : State} {c : Cmd} (f : BootFindings) (a : Accepted s 2 c) (bad : c.part ≠ 0xFF ∨ c.body ≠ []) :
    Answers (.reset c f) s c 3 [] id (OnlyModule s) := by
  have run : exec (.reset c f) s = .next (reply (accepted s c) c 3 []) := by
    have malformed : (c.part != 0xFF || !c.body.isEmpty) = true := by simpa using bad
    show Host.Outcome.next (command s 2 c (.reset f)) = _
    rw [command_accepted a, submit_accepted a rfl rfl, finish, resetModule, malformed]
    rfl
  refine ⟨_, run, ?_, ?_⟩ <;> rw [reply_eq] <;> rfl

theorem orderRun_notModule {s : State} {c : Cmd} {e : Instr} {code : Nat} {o : Order} (h : IsModuleCommand c e code o) (p : c.part ≠ 0xFF)
    (n : ∀ f, o ≠ .reset f) : orderRun s c o = (s, 3, []) := by
  rcases h with ⟨f, -, -, rfl⟩ | ⟨-, -, rfl⟩ | ⟨-, -, rfl⟩ | ⟨w, -, -, rfl⟩ | ⟨i, q, ms, -, -, rfl⟩ | ⟨x, -, -, rfl⟩ | ⟨x, -, -, rfl⟩
  · exact absurd rfl (n f)
  all_goals exact if_neg p
/-- A command to the module must carry its part (log 34). -/
theorem answers_notModule {s : State} {c : Cmd} {e : Instr} {code : Nat} {o : Order} (h : IsModuleCommand c e code o) (a : Accepted s code c)
    (p : c.part ≠ 0xFF) : Answers e s c 3 [] id (OnlyModule s) := by
  have same := orderRun_notModule (s := accepted s c) h p
  rcases h with ⟨f, rfl, rfl, rfl⟩ | ⟨rfl, rfl, rfl⟩ | ⟨rfl, rfl, rfl⟩ | ⟨w, rfl, rfl, rfl⟩ | ⟨i, q, ms, rfl, rfl, rfl⟩
    | ⟨x, rfl, rfl, rfl⟩ | ⟨x, rfl, rfl, rfl⟩
  · exact answers_reset f a (.inl p)
  all_goals exact answers_malformed a rfl trivial (same nofun)

theorem toModule_part {s : State} {c : Cmd} (p : c.part = 0xFF) (r : State × Nat × List Byte) : toModule s c r = r := if_pos p

theorem answers_attest {s : State} {c : Cmd} (p : c.part = 0xFF) (a : Accepted s 7 c) :
    (c.body.length = 64 → Answers (.attest c) s c 0 (c.body ++ measurements s) id (OnlyModule s))
    ∧ (c.body.length ≠ 64 → Answers (.attest c) s c 3 [] id (OnlyModule s)) :=
  ⟨fun n => answers_immediate a rfl trivial ((toModule_part p _).trans (if_pos n)),
    fun n => answers_malformed a rfl trivial ((toModule_part p _).trans (if_neg n))⟩

theorem exists_part {s : State} {p : Nat} : (∃ pt, (p, pt) ∈ s.parts) ↔ s.parts.any (·.1 == p) = true := by
  simp

/-- A command that may be refused for its body. -/
theorem answers_orMalformed {s : State} {e : Instr} {code : Nat} {c : Cmd} {o : Order} {r : Option State} {f : Module → Module} {ok : Prop}
    (a : Accepted s code c) (run : exec e s = .next (command s code c o)) (i : Immediate o)
    (effect : orderRun (accepted s c) c o = orMalformed r (accepted s c)) (takes : ok → r = some (took s c f)) (rejects : ¬ok → r = none) :
    (ok → Answers e s c 0 [] f (OnlyModule s)) ∧ (¬ok → Answers e s c 3 [] id (OnlyModule s)) := by
  refine ⟨fun h => answers_immediate a run i ?_, fun h => answers_malformed a run i ?_⟩
  · rw [effect, takes h]
    rfl
  · rw [effect, rejects h]
    rfl

theorem answers_thermal {s : State} {c : Cmd} (p : c.part = 0xFF) (w : Nat) (a : Accepted s 9 c) :
    (1200 ≤ w ∧ w ≤ 2400 → Answers (.thermal c w) s c 0 [] (fun m => { m with powerLimit := w }) (OnlyModule s))
    ∧ (¬(1200 ≤ w ∧ w ≤ 2400) → Answers (.thermal c w) s c 3 [] id (OnlyModule s)) :=
  answers_orMalformed a rfl trivial (toModule_part p _) (fun h => if_pos h) fun h => if_neg h

/-- DOMAIN names at least two modules, each once, its own among them, and a partition that exists (R310). -/
def DomainOk (s : State) (i p : Nat) (ms : List Nat) : Prop :=
  i ∈ ms ∧ ms.Nodup ∧ 2 ≤ ms.length ∧ ms.length ≤ 128 ∧ (∀ m ∈ ms, m < 128) ∧ ∃ pt, (p, pt) ∈ s.parts
theorem domainOk_iff {s : State} {i p : Nat} {ms : List Nat} :
    (ms.contains i && ms.Nodup && decide (2 ≤ ms.length) && decide (ms.length ≤ 128) && ms.all (· < 128) && s.parts.any (·.1 == p)) = true
      ↔ DomainOk s i p ms := by
  simp [DomainOk, and_assoc]
theorem answers_domain {s : State} {c : Cmd} (p : c.part = 0xFF) (i q : Nat) (ms : List Nat) (a : Accepted s 10 c) :
    (DomainOk s i q ms → Answers (.domain c i q ms) s c 0 [] (fun m => { m with modId := some i, boundPart := some q, members := ms })
      (OnlyModule s))
    ∧ (¬DomainOk s i q ms → Answers (.domain c i q ms) s c 3 [] id (OnlyModule s)) :=
  answers_orMalformed a rfl trivial (toModule_part p _) (fun h => if_pos (domainOk_iff.2 h)) fun h => if_neg (mt domainOk_iff.1 h)

theorem answers_window {s : State} {c : Cmd} (p : c.part = 0xFF) (n qp rkey rbase len : Nat) (a : Accepted s 11 c) :
    (n < 4096 ∧ len ≤ 2 ^ 40 → Answers (.hostwin c (.window n qp rkey rbase len)) s c 0 []
      (fun m => { m with windows := ⟨n, qp, rkey, rbase, len⟩ :: m.windows.filter (·.n ≠ n) }) (OnlyModule s))
    ∧ (¬(n < 4096 ∧ len ≤ 2 ^ 40) → Answers (.hostwin c (.window n qp rkey rbase len)) s c 3 [] id (OnlyModule s)) := by
  refine answers_orMalformed a rfl trivial (toModule_part p _) (fun h => (if_pos h).trans ?_) fun h => if_neg h
  simp only [took, accepted, ne_eq, decide_not, bne, beq_eq_decide]
theorem answers_region {s : State} {c : Cmd} (p : c.part = 0xFF) (q base len : Nat) (a : Accepted s 11 c) :
    ((∃ pt, (q, pt) ∈ s.parts) → Answers (.hostwin c (.region q base len)) s c 0 []
      (fun m => { m with regions := ⟨q, base, len⟩ :: m.regions }) (OnlyModule s))
    ∧ (¬(∃ pt, (q, pt) ∈ s.parts) → Answers (.hostwin c (.region q base len)) s c 3 [] id (OnlyModule s)) :=
  answers_orMalformed a rfl trivial (toModule_part p _) (fun h => if_pos (exists_part.1 h)) fun h => if_neg (mt exists_part.2 h)

/-! ## KEYS -/

theorem setKey_again {ks : List (BitVec 512 × List Byte)} {g : BitVec 512 → Bool} {a : KeysArg} (i : a.install = true)
    (d : Config.sha512 a.pubkey = a.digest) (h : ∃ k ∈ ks, k.1 = a.digest) : setKey ks g a = some ks := by
  have h : ks.any (·.1 == a.digest) = true := by simpa using h
  simp [setKey, i, d, h]
theorem setKey_other {ks : List (BitVec 512 × List Byte)} {g : BitVec 512 → Bool} {a : KeysArg} (i : a.install = true)
    (d : Config.sha512 a.pubkey ≠ a.digest) : setKey ks g a = none := by
  simp [setKey, i, d]
theorem setKey_new {ks : List (BitVec 512 × List Byte)} {g : BitVec 512 → Bool} {a : KeysArg} (i : a.install = true)
    (d : Config.sha512 a.pubkey = a.digest) (h : ∀ k ∈ ks, k.1 ≠ a.digest) :
    setKey ks g a = if 8 ≤ ks.length then none else some (ks ++ [(a.digest, a.pubkey)]) := by
  have h : ks.any (·.1 == a.digest) = false := by simpa using h
  simp only [setKey, i, d, h, bne_self_eq_false]
  rfl
theorem setKey_missing {ks : List (BitVec 512 × List Byte)} {g : BitVec 512 → Bool} {a : KeysArg} (i : a.install = false)
    (h : ∀ k ∈ ks, k.1 ≠ a.digest) : setKey ks g a = none := by
  have h : ks.any (·.1 == a.digest) = false := by simpa using h
  simp [setKey, i, h]
theorem setKey_fused {ks : List (BitVec 512 × List Byte)} {g : BitVec 512 → Bool} {a : KeysArg} (i : a.install = false)
    (h : g a.digest = true) : setKey ks g a = none := by
  simp [setKey, i, h]
theorem setKey_removes {ks : List (BitVec 512 × List Byte)} {g : BitVec 512 → Bool} {a : KeysArg} (i : a.install = false)
    (n : g a.digest = false) (h : ∃ k ∈ ks, k.1 = a.digest) : setKey ks g a = some (ks.filter (·.1 ≠ a.digest)) := by
  have h : ks.any (·.1 == a.digest) = true := by simpa using h
  simp only [setKey, i, n, h]
  simp [bne, beq_eq_decide]

/-- The keys of the kind that a KEYS names, the module with others in their place, and the key that is fused (R34). -/
def keysOfKind (m : Module) (a : KeysArg) : List (BitVec 512 × List Byte) := if a.image then m.imageKeys else m.opKeys
def withKeys (a : KeysArg) (l : List (BitVec 512 × List Byte)) (m : Module) : Module :=
  if a.image then { m with imageKeys := l } else { m with opKeys := l }
def isFused (a : KeysArg) (d : BitVec 512) : Bool := !a.image && d == Config.sha512 Config.firstOperatorKey
theorem installKey_accepted (s : State) (c : Cmd) (a : KeysArg) :
    installKey (accepted s c) a = (setKey (keysOfKind s.md a) (isFused a) a).map fun k => took s c (withKeys a k) := by
  obtain ⟨image, install, digest, pubkey⟩ := a
  cases image <;> rfl
theorem answers_keys {s : State} {c : Cmd} (p : c.part = 0xFF) (a : KeysArg) (h : Accepted s 12 c) :
    (∀ l, setKey (keysOfKind s.md a) (isFused a) a = some l → Answers (.keys c a) s c 0 [] (withKeys a l) (OnlyModule s))
    ∧ (setKey (keysOfKind s.md a) (isFused a) a = none → Answers (.keys c a) s c 3 [] id (OnlyModule s)) := by
  have effect : orderRun (accepted s c) c (.keys a) = orMalformed (installKey (accepted s c) a) (accepted s c) := toModule_part p _
  rw [installKey_accepted] at effect
  refine ⟨fun l e => answers_immediate h rfl trivial (effect.trans ?_), fun e => answers_malformed h rfl trivial (effect.trans ?_)⟩
  · rw [e]
    rfl
  · rw [e]
    rfl

/-! ## COUNTERS (R363) -/

/-- Of numbers written as eight bytes each, one after another, number i stands at byte 8i. -/
theorem toBytes_at (l : List Nat) (i : Nat) : ((l.flatMap (toBytes 8)).drop (8 * i)).take 8 = (l[i]?.map (bytesOf · 8)).getD [] := by
  induction l generalizing i with
  | nil => simp
  | cons v l ih =>
    rw [List.flatMap_cons]
    cases i with
    | zero =>
      rw [Nat.mul_zero, List.drop_zero, List.take_left' (toBytes_length 8 v), toBytes_eq_bytesOf]
      rfl
    | succ i => rw [Nat.mul_succ, Nat.add_comm, ← List.drop_drop, List.drop_left' (toBytes_length 8 v), ih, List.getElem?_cons_succ]
theorem counterBytes_length (l : List Nat) : (l.flatMap (toBytes 8)).length = l.length * 8 := by
  simp [List.length_flatMap]

/-- The counts of R363 in their order. -/
theorem counterList_length (s : State) : (counterList s).length = 77 := by
  simp [counterList]
theorem counter_of {s : State} {i v : Nat} (h : (counterList s)[i]? = some v) :
    (((counterList s).flatMap (toBytes 8)).drop (8 * i)).take 8 = bytesOf v 8 := by
  rw [toBytes_at, h]
  rfl
/-- A segment of a list that lists a function's values. -/
theorem getElem?_segment {l b : List Nat} {k n i : Nat} (f : Nat → Nat) (h : l.drop k = (List.range n).map f ++ b) (hi : i < n) :
    l[k + i]? = some (f i) := by
  rw [← List.getElem?_drop, h, List.getElem?_append_left (by simpa using hi)]
  simp [hi]
theorem counterList_sites (s : State) {i : Nat} :
    (i < 4 → (counterList s)[i]? = some (tget 0 s.md.corrected (.pool i)))
    ∧ (i < 4 → (counterList s)[4 + i]? = some (tget 0 s.md.corrected (.l2 i)))
    ∧ (i < 8 → (counterList s)[8 + i]? = some (tget 0 s.md.corrected (.stack i)))
    ∧ (i < 8 → (counterList s)[16 + i]? = some (tget 0 s.md.corrected (.saddlebag i)))
    ∧ (i < 32 → (counterList s)[24 + i]? = some (tget 0 s.md.corrected (.spokeLink i)))
    ∧ (i < 8 → (counterList s)[56 + i]? = some (tget 0 s.md.corrected (.saddlebagLink i))) :=
  ⟨fun h => by simpa using getElem?_segment (l := counterList s) (k := 0) (fun i => tget 0 s.md.corrected (.pool i)) rfl h,
    getElem?_segment (fun i => tget 0 s.md.corrected (.l2 i)) rfl,
    getElem?_segment (fun i => tget 0 s.md.corrected (.stack i)) rfl,
    getElem?_segment (fun i => tget 0 s.md.corrected (.saddlebag i)) rfl,
    getElem?_segment (fun i => tget 0 s.md.corrected (.spokeLink i)) rfl,
    getElem?_segment (fun i => tget 0 s.md.corrected (.saddlebagLink i)) rfl⟩
theorem counterList_counts (s : State) {i : Nat} :
    (i < 4 → (counterList s)[64 + i]? = some (tget 0 s.md.notLiveReads i))
    ∧ (i < 4 → (counterList s)[68 + i]? = some (tget 0 s.md.unwritten i)) :=
  ⟨getElem?_segment (fun i => tget 0 s.md.notLiveReads i) rfl, getElem?_segment (fun i => tget 0 s.md.unwritten i) rfl⟩
theorem counterList_drop (s : State) : (counterList s).drop 72 = s.md.discardedNotifies :: s.md.throttled.toList := rfl
theorem counterList_last (s : State) :
    (counterList s)[72]? = some s.md.discardedNotifies ∧ ∀ i : Fin 4, (counterList s)[73 + i.val]? = some s.md.throttled[i] := by
  refine ⟨?_, fun i => ?_⟩
  · rw [← List.getElem?_drop (i := 72) (j := 0), counterList_drop]
    rfl
  · rw [show 73 + i.val = 72 + (i.val + 1) by omega, ← List.getElem?_drop, counterList_drop]
    simp

theorem answers_counters {s : State} {c : Cmd} (p : c.part = 0xFF) (a : Accepted s 8 c) :
    (c.body = [] → Answers (.counters c) s c 0 ((counterList s).flatMap (toBytes 8)) id (OnlyModule s))
    ∧ (c.body ≠ [] → Answers (.counters c) s c 3 [] id (OnlyModule s)) :=
  ⟨fun n => answers_immediate a rfl trivial ((toModule_part p _).trans (if_pos (by simp [n]))),
    fun n => answers_malformed a rfl trivial ((toModule_part p _).trans (if_neg (by simp [n])))⟩

end Sys2Proof.Proofs
end

section
/-! PROOFS. The commands to the module (R34, R310, R328, R329, R361, R363, R365). -/
namespace Sys2Proof.Proofs
open Sys2Proof Sys2Proof.Machine Sys2Proof.Claims

/-- R363: the counts of a COUNTERS reply, each as eight bytes in its place. -/
theorem counters_reply (s : State) {c : Cmd} (p : c.part = 0xFF) (a : Accepted s 8 c) (n : c.body = []) :
    ∃ b, b.length = 77 * 8 ∧ Answers (.counters c) s c 0 b id (OnlyModule s)
      ∧ let count (i : Nat) : List Byte := (b.drop (8 * i)).take 8
        (∀ i, i < 4 → count i = bytesOf (tget 0 s.md.corrected (.pool i)) 8)
        ∧ (∀ i, i < 4 → count (4 + i) = bytesOf (tget 0 s.md.corrected (.l2 i)) 8)
        ∧ (∀ i, i < 8 → count (8 + i) = bytesOf (tget 0 s.md.corrected (.stack i)) 8)
        ∧ (∀ i, i < 8 → count (16 + i) = bytesOf (tget 0 s.md.corrected (.saddlebag i)) 8)
        ∧ (∀ i, i < 32 → count (24 + i) = bytesOf (tget 0 s.md.corrected (.spokeLink i)) 8)
        ∧ (∀ i, i < 8 → count (56 + i) = bytesOf (tget 0 s.md.corrected (.saddlebagLink i)) 8)
        ∧ (∀ i, i < 4 → count (64 + i) = bytesOf (tget 0 s.md.notLiveReads i) 8) ∧ (∀ i, i < 4 → count (68 + i) = bytesOf (tget 0 s.md.unwritten i) 8)
        ∧ count 72 = bytesOf s.md.discardedNotifies 8
        ∧ ∀ i : Fin 4, count (73 + i) = bytesOf s.md.throttled[i] 8 := by
  obtain ⟨replies, -⟩ := answers_counters p a
  obtain ⟨notifies, cycles⟩ := counterList_last s
  refine ⟨_, (counterBytes_length _).trans (by rw [counterList_length]), replies n, ?_⟩
  refine ⟨fun i h => ?_, fun i h => ?_, fun i h => ?_, fun i h => ?_, fun i h => ?_, fun i h => ?_, fun i h => ?_, fun i h => ?_,
    counter_of notifies, fun i => counter_of (cycles i)⟩
  all_goals
    obtain ⟨pool, l2, stack, saddlebag, spoke, link⟩ := counterList_sites s (i := i)
    obtain ⟨dead, unwritten⟩ := counterList_counts s (i := i)
  · exact counter_of (pool h)
  · exact counter_of (l2 h)
  · exact counter_of (stack h)
  · exact counter_of (saddlebag h)
  · exact counter_of (spoke h)
  · exact counter_of (link h)
  · exact counter_of (dead h)
  · exact counter_of (unwritten h)

theorem moduleCommandsHaveTheirEffect : ModuleCommandsHaveTheirEffect := by
  refine ⟨fun s c e code o h a p => answers_notModule h a p, fun s c p => ⟨answers_attest p, fun f a b => answers_reset f a (.inr b), ?_, ?_, ?_, ?_, ?_, ?_⟩⟩
  · exact fun a => (answers_counters p a).2
  · exact fun a n => counters_reply s p a n
  · intro w a
    obtain ⟨sets, rejects⟩ := answers_thermal p w a
    exact ⟨fun lo hi => sets ⟨lo, hi⟩, fun out => rejects (by omega)⟩
  · exact fun i q ms a => answers_domain p i q ms a
  · intro a
    refine ⟨fun n qp rkey rbase len hn hl => (answers_window p n qp rkey rbase len a).1 ⟨hn, hl⟩,
      fun n qp rkey rbase len out => (answers_window p n qp rkey rbase len a).2 (by omega),
      fun q base len => (answers_region p q base len a).1, fun q base len => (answers_region p q base len a).2⟩
  · intro a h ks sets
    obtain ⟨takes, rejects⟩ := answers_keys p a h
    refine ⟨fun i d e => takes _ (setKey_again i d e), fun i d => rejects (setKey_other i d), fun i d e n => takes _ ?_, fun i d e n => rejects ?_,
      fun i e => rejects (setKey_missing i e), fun i f e => takes _ (setKey_removes i ?_ e), fun i k f => rejects (setKey_fused i ?_)⟩
    · exact (setKey_new i d e).trans (if_neg (by omega))
    · exact (setKey_new i d e).trans (if_pos n)
    · rcases f with f | f <;> simp [isFused, f]
    · simp [isFused, k, f]

end Sys2Proof.Proofs
end

section
/-! PROOFS. PARTITION (R83, R373). -/
namespace Sys2Proof.Proofs
open Sys2Proof Sys2Proof.Machine Sys2Proof.Claims

/-! ## The body -/

/-- The partition that a body names (R373). -/
def bodyPart (b : List Byte) : Part :=
  { Part.idle with
    dies := BitVec.ofNat 4 (bodyNat b 0 1), policy := BitVec.ofNat 8 (bodyNat b 1 1)
    slicelg := if bodyNat b 2 1 = 0 then 20 else bodyNat b 2 1, qtable := BitVec.ofNat 64 (bodyNat b 8 8)
    notify := BitVec.ofNat 64 (bodyNat b 16 8), tvec := BitVec.ofNat 64 (bodyNat b 24 8), ptbase := BitVec.ofNat 64 (bodyNat b 32 8)
    body := b }
theorem parsePartition_eq (b : List Byte) [Decidable (PartitionOk b)] :
    parsePartition b = if PartitionOk b then some (bodyPart b) else none := by
  unfold parsePartition
  refine if_congr ?_ rfl rfl
  simp [PartitionOk, formDies, bodyNat, and_assoc]

/-! ## Dissolving -/

/-- u is s with the partitions of a list dissolved: they are gone, with the binding to the domain of one of them and with their
registered regions (log 74). -/
structure Dissolves (rs : List Nat) (s u : State) : Prop where
  frame : u = { s with
    fresh := u.fresh, wbuf := u.wbuf, cachedW := u.cachedW, uncachedW := u.uncachedW, flushed := u.flushed, settled := u.settled,
    bad := u.bad, badL2 := u.badL2, badL1 := u.badL1, notLive := u.notLive, cores := u.cores, parts := u.parts,
    md := { s.md with notLiveReads := u.md.notLiveReads, sent := u.md.sent, unwritten := u.md.unwritten, boundPart := u.md.boundPart,
                      regions := u.md.regions } }
  others : ∀ r, r ∉ rs → u.part r = s.part r
  gone : ∀ x ∈ u.parts, x.1 ∉ rs ∧ ∃ y ∈ s.parts, y.1 = x.1
  bound : u.md.boundPart = none ∨ (u.md.boundPart = s.md.boundPart ∧ ∀ r ∈ rs, s.md.boundPart ≠ some r)
  regions : ∀ y ∈ u.md.regions, y ∈ s.md.regions ∧ y.part ∉ rs

theorem Dissolves.nil (s : State) : Dissolves [] s s where
  frame := rfl
  others _ _ := rfl
  gone x h := ⟨nofun, x, h, rfl⟩
  bound := .inr ⟨rfl, nofun⟩
  regions _ h := ⟨h, nofun⟩
theorem Dissolves.append {as bs : List Nat} {s t u : State} (a : Dissolves as s t) (b : Dissolves bs t u) : Dissolves (as ++ bs) s u where
  frame := by rw [b.frame, a.frame]
  others r n := by
    rw [List.mem_append, not_or] at n
    exact (b.others r n.2).trans (a.others r n.1)
  gone x h := by
    obtain ⟨nb, y, hy, e⟩ := b.gone x h
    obtain ⟨na, z, hz, f⟩ := a.gone y hy
    exact ⟨by simp [nb, e ▸ na], z, hz, f.trans e⟩
  bound := by
    rcases b.bound with hb | ⟨hb, nb⟩
    · exact .inl hb
    · rcases a.bound with ha | ⟨ha, na⟩
      · exact .inl (hb.trans ha)
      · refine .inr ⟨hb.trans ha, fun r h => ?_⟩
        rcases List.mem_append.1 h with h | h
        · exact na r h
        · exact ha ▸ nb r h
  regions y h := by
    obtain ⟨hb, nb⟩ := b.regions y h
    obtain ⟨ha, na⟩ := a.regions y hb
    exact ⟨ha, by simp [na, nb]⟩

theorem part_tdel_of_ne {p r : Nat} (n : r ≠ p) (t : List (Nat × Part)) : tget Part.idle (tdel t p) r = tget Part.idle t r := by
  induction t with
  | nil => rfl
  | cons x t ih =>
    by_cases e : x.1 = p
    · have ne : ¬x.1 = r := fun h => n (h.symm.trans e)
      simp only [tdel, tget, if_neg ne] at ih ⊢
      rw [List.filter_cons_of_neg (by simp [e]), ih]
    · simp only [tdel, tget] at ih ⊢
      rw [List.filter_cons_of_pos (by simp [e]), tget, ih]

/-- A partition without launches is dissolved. -/
theorem dissolve_dissolves {s : State} {p : Nat} (none : s.launchesOf p = []) : Dissolves [p] s (dissolve s p) := by
  have works := (dropTaken_schedules none).trans (.of_touches (p := p) (unmapAll_touches (dropTaken s p) p))
  unfold dissolve
  dsimp only
  generalize unmapAll (dropTaken s p) p = u at works
  have md := works.md
  exact
    { frame := by rw [works.frame]
      others := fun r n => by
        have n : r ≠ p := by simpa using n
        exact (part_tdel_of_ne n u.parts).trans (works.others r n)
      gone := fun x h => by
        obtain ⟨h, n⟩ := mem_tdel.1 h
        exact ⟨by simpa using n, (works.keys x h).resolve_left n⟩
      bound := by
        have same : u.md.boundPart = s.md.boundPart := by rw [md]
        by_cases e : u.md.boundPart = some p
        · exact .inl (if_pos e)
        · exact .inr ⟨(if_neg e).trans same, by simpa [← same] using e⟩
      regions := fun y h => by
        have same : u.md.regions = s.md.regions := by rw [md]
        obtain ⟨h, n⟩ := List.mem_filter.1 h
        exact ⟨same ▸ h, by simpa using n⟩ }
theorem Dissolves.launchesOf {rs : List Nat} {s u : State} (h : Dissolves rs s u) (r : Nat) : u.launchesOf r = s.launchesOf r := by
  rw [State.launchesOf, h.frame]
  rfl
theorem dissolveAll_dissolves (rs : List Nat) {s : State} (none : ∀ r ∈ rs, s.launchesOf r = []) : Dissolves rs s (rs.foldl dissolve s) := by
  induction rs generalizing s with
  | nil => exact .nil s
  | cons r rs ih =>
    have one := dissolve_dissolves (none r List.mem_cons_self)
    exact one.append (ih fun q h => (one.launchesOf q).trans (none q (List.mem_cons_of_mem _ h)))

/-! ## Forming -/

/-- Forming partition p over these dies affects partition r: it is p, or shares a die (R373). -/
def Affects (s : State) (p : Nat) (dies : BitVec 4) (r : Nat) : Prop := ∃ x ∈ s.parts, x.1 = r ∧ (r = p ∨ x.2.dies &&& dies ≠ 0)
theorem mem_affected {s : State} {p r : Nat} {dies : BitVec 4} : r ∈ affected s p dies ↔ Affects s p dies r := by
  simp only [affected, Affects, List.mem_map, List.mem_filter, Bool.or_eq_true, beq_iff_eq, bne_iff_ne]
  constructor
  · rintro ⟨x, ⟨hx, h⟩, rfl⟩
    exact ⟨x, hx, rfl, h⟩
  · rintro ⟨x, hx, rfl, h⟩
    exact ⟨x, ⟨hx, h⟩, rfl⟩
theorem launchesOf_eq_nil {s : State} {p : Nat} : s.launchesOf p = [] ↔ ∀ y ∈ s.launches, y.2.part ≠ p := by
  simp [State.launchesOf, List.filter_eq_nil_iff]

/-- The state once partition p is formed. -/
def formed (s : State) (p : Nat) (pt : Part) : State :=
  { ((affected s p pt.dies).foldl dissolve s).setPart p pt with
    notLive := ((affected s p pt.dies).foldl dissolve s).notLive.filter fun x => !(affected s p pt.dies).contains x.1 }

theorem formPart_malformed {s : State} {c : Cmd} (h : ¬PartitionOk c.body ∨ c.part = 0xFF) : formPart s c = (s, 3, []) := by
  classical
  unfold formPart
  rw [parsePartition_eq]
  by_cases ok : PartitionOk c.body
  · have big : 3 < c.part.toNat := by
      rw [h.resolve_left (not_not_intro ok)]
      decide
    simp [ok, big]
  · simp [ok]
theorem formPart_ok {s : State} {c : Cmd} (ok : PartitionOk c.body) (small : c.part.toNat ≤ 3) :
    formPart s c = if s.launches.any fun x => (affected s c.part.toNat (bodyPart c.body).dies).contains x.2.part then (s, 4, [])
      else (formed s c.part.toNat (bodyPart c.body), 0, []) := by
  classical
  unfold formPart
  rw [parsePartition_eq, if_pos ok]
  simp only [Nat.not_lt.2 small, if_false]
  rfl
theorem formPart_busy {s : State} {c : Cmd} (ok : PartitionOk c.body) (small : c.part.toNat ≤ 3)
    (busy : ∃ y ∈ s.launches, Affects s c.part.toNat (bodyPart c.body).dies y.2.part) : formPart s c = (s, 4, []) := by
  rw [formPart_ok ok small, if_pos]
  obtain ⟨y, hy, h⟩ := busy
  exact List.any_eq_true.2 ⟨y, hy, by simpa [mem_affected] using h⟩
theorem formPart_free {s : State} {c : Cmd} (ok : PartitionOk c.body) (small : c.part.toNat ≤ 3)
    (free : ∀ y ∈ s.launches, ¬Affects s c.part.toNat (bodyPart c.body).dies y.2.part) :
    formPart s c = (formed s c.part.toNat (bodyPart c.body), 0, []) := by
  rw [formPart_ok ok small, if_neg]
  simpa [mem_affected] using free

theorem exec_immediate {s t : State} {e : Instr} {code status : Nat} {c : Cmd} {o : Order} {body : List Byte} (a : Accepted s code c)
    (run : exec e s = .next (command s code c o)) (i : Immediate o) (effect : orderRun (accepted s c) c o = (t, status, body)) :
    exec e s = .next (close (accepted s c) (reply t c status body)) := by
  rw [run, command_accepted a o, submit_accepted a (i.begins _ c) (i.ready _ c), finish_of_orderRun i.notReset effect]

/-- PARTITION where no partition is affected. -/
theorem answers_partition_new {s : State} {c : Cmd} (a : Accepted s 3 c) (ok : PartitionOk c.body) (small : c.part.toNat ≤ 3)
    (new : ∀ r, ¬Affects s c.part.toNat (bodyPart c.body).dies r) :
    Answers (.partition c) s c 0 [] id fun t => t = { s with md := t.md, parts := t.parts }
      ∧ (∀ r, r ≠ c.part.toNat → t.part r = s.part r) ∧ t.part c.part.toNat = bodyPart c.body := by
  have none : affected (accepted s c) c.part.toNat (bodyPart c.body).dies = [] :=
    List.eq_nil_iff_forall_not_mem.2 fun r h => new r (mem_affected.1 h)
  have run := exec_immediate (e := .partition c) (o := .partition) a rfl trivial (formPart_free ok small fun y _ => new y.2.part)
  have parts : formed (accepted s c) c.part.toNat (bodyPart c.body) = (accepted s c).setPart c.part.toNat (bodyPart c.body) := by
    simp only [formed, none, List.foldl_nil, List.contains_nil, Bool.not_false, List.filter_true]
    rfl
  have w := accepted_wbuf a
  have closed : close (accepted s c) (reply ((accepted s c).setPart c.part.toNat (bodyPart c.body)) c 0 []) = _ := close_eq w rfl
  rw [parts, closed] at run
  refine ⟨_, run, ⟨rfl, fun r n => part_setPart_of_ne (accepted s c) _ n, State.part_setPart (accepted s c) _ _⟩, ?_⟩
  rw [reply_eq]
  rfl

/-- PARTITION where no partition that it affects has a launch. -/
theorem partition_dissolves {s : State} {c : Cmd} (a : Accepted s 3 c) (ok : PartitionOk c.body) (small : c.part.toNat ≤ 3)
    (free : ∀ y ∈ s.launches, ¬Affects s c.part.toNat (bodyPart c.body).dies y.2.part) :
    let hit := Affects s c.part.toNat (bodyPart c.body).dies
    ∃ t more, exec (.partition c) s = .next t ∧ t.md.sent = replied c 0 [] :: more ∧ t.md.lastSeq = tput s.md.lastSeq c.key c.seq.toNat
      ∧ t.part c.part.toNat = bodyPart c.body ∧ (∀ r, r ≠ c.part.toNat → hit r → ∀ x ∈ t.parts, x.1 ≠ r)
      ∧ (∀ r, r ≠ c.part.toNat → ¬hit r → t.part r = s.part r) ∧ t.harts = s.harts ∧ t.launches = s.launches
      ∧ (∀ r, s.md.boundPart = some r → t.md.boundPart = none ∨ (t.md.boundPart = some r ∧ ¬hit r))
      ∧ ∀ y ∈ t.md.regions, y ∈ s.md.regions ∧ ¬hit y.part := by
  intro hit
  have run := exec_immediate (e := .partition c) (o := .partition) a rfl trivial (formPart_free ok small free)
  have gone := dissolveAll_dissolves (s := accepted s c) (affected (accepted s c) c.part.toNat (bodyPart c.body).dies) fun r h =>
    launchesOf_eq_nil.2 fun y hy e => free y hy (e ▸ mem_affected.1 h)
  rw [formed] at run
  generalize (affected (accepted s c) c.part.toNat (bodyPart c.body).dies).foldl dissolve (accepted s c) = u at run gone
  rw [reply_eq] at run
  have hit_iff : ∀ r, r ∈ affected (accepted s c) c.part.toNat (bodyPart c.body).dies ↔ hit r := fun r => mem_affected
  refine ⟨_, u.md.sent, run, rfl, ?_, State.part_setPart u _ _, ?_, ?_, ?_, ?_, ?_, ?_⟩
  · show u.md.lastSeq = _
    rw [gone.frame]
    rfl
  · intro r n h x hx
    rcases mem_tput hx with e | hx
    · exact e ▸ n.symm
    · exact fun e => (gone.gone x hx).1 (e ▸ (hit_iff r).2 h)
  · intro r n h
    exact (part_setPart_of_ne u _ n).trans (gone.others r (mt (hit_iff r).1 h))
  · show u.harts = _
    rw [gone.frame]
    rfl
  · show u.launches = _
    rw [gone.frame]
    rfl
  · intro r e
    refine gone.bound.imp_right fun ⟨same, not⟩ => ⟨same.trans e, fun h => not r ((hit_iff r).2 h) e⟩
  · intro y hy
    obtain ⟨hy, n⟩ := gone.regions y hy
    exact ⟨hy, mt (hit_iff _).2 n⟩

end Sys2Proof.Proofs
end

section
/-! PROOFS. STOP (R360). -/
namespace Sys2Proof.Proofs
open Sys2Proof Sys2Proof.Machine Sys2Proof.Claims

/-! ## When a STOP can go on -/

/-- The value at a key of a table whose values are all changed alike. -/
theorem tget_map {κ α : Type} [DecidableEq κ] {d : α} (f : α → α) (t : List (κ × α)) (k : κ) (h : f d = d) :
    tget d (t.map fun x => (x.1, f x.2)) k = f (tget d t k) := by
  induction t with
  | nil => exact h.symm
  | cons e t ih =>
    simp only [List.map_cons, tget]
    split
    · rfl
    · exact ih

/-- STOP marks a launch of the partition that runs. -/
def markStop (p : Nat) (x : Launch) : Launch := if x.part = p ∧ x.phase = .running then { x with stop := true } else x
theorem stopping_eq (s : State) (p : Nat) : stopping s p = s.launches.map fun x => (x.1, markStop p x.2) := by
  refine List.map_congr_left fun x _ => ?_
  unfold markStop
  split <;> rfl
theorem stopBegin_eq (s : State) (p : Nat) : stopBegin s p = { s with launches := stopping s p } := by
  have step : ∀ x : Nat × Launch, (if x.2.part == p && x.2.phase == .running then (x.1, { x.2 with stop := true }) else (x.1, x.2))
      = if x.2.part = p ∧ x.2.phase = .running then (x.1, { x.2 with stop := true }) else x := by
    intro x
    simp
  unfold stopBegin Claims.stopping
  simp only [step]

@[simp] theorem markStop_phase (p : Nat) (x : Launch) : (markStop p x).phase = x.phase := by
  unfold markStop
  split <;> rfl
@[simp] theorem markStop_part (p : Nat) (x : Launch) : (markStop p x).part = x.part := by
  unfold markStop
  split <;> rfl
@[simp] theorem markStop_w (p : Nat) (x : Launch) : (markStop p x).w = x.w := by
  unfold markStop
  split <;> rfl
@[simp] theorem markStop_h (p : Nat) (x : Launch) : (markStop p x).h = x.h := by
  unfold markStop
  split <;> rfl
@[simp] theorem markStop_nh (p : Nat) (x : Launch) : (markStop p x).nh = x.nh := by
  unfold markStop
  split <;> rfl
theorem markStop_halted {p : Nat} {x : Launch} (h : x.phase = .halted) : markStop p x = x := by simp [markStop, h]
theorem launch_stopBegin (s : State) (p l : Nat) : (stopBegin s p).launch l = markStop p (s.launch l) := by
  rw [stopBegin_eq, State.launch, stopping_eq]
  refine tget_map (markStop p) s.launches l (if_neg fun h => ?_)
  cases h.2

theorem launchHarts_stopBegin (s : State) (p l : Nat) : (stopBegin s p).launchHarts l = s.launchHarts l := by
  simp [State.launchHarts, State.coreHarts, launch_stopBegin]
theorem drained_stopBegin (s : State) (p l : Nat) : drained (stopBegin s p) l = drained s l := by
  rw [drained, launchHarts_stopBegin]
  rfl
theorem launchesOf_stopBegin (s : State) (p q : Nat) : (stopBegin s p).launchesOf q = s.launchesOf q := by
  rw [stopBegin_eq, State.launchesOf, stopping_eq, List.filter_map, List.map_map]
  simp [Function.comp_def, State.launchesOf]
/-- To mark launches that run changes nothing for those that are saved or halted. -/
theorem stopReady_stopBegin (s : State) (p q : Nat) : stopReady (stopBegin s p) q = stopReady s q := by
  have one : ∀ l, (((stopBegin s p).launch l).phase == .saved || (((stopBegin s p).launch l).phase == .halted && ((stopBegin s p).launch l).stop
      && drained (stopBegin s p) l)) = ((s.launch l).phase == .saved || ((s.launch l).phase == .halted && (s.launch l).stop && drained s l)) := by
    intro l
    rw [launch_stopBegin, drained_stopBegin]
    by_cases h : (s.launch l).phase = .halted
    · rw [markStop_halted h]
    · have h : ((s.launch l).phase == .halted) = false := by simpa using h
      rw [markStop_phase, h, Bool.false_and, Bool.false_and, Bool.false_and, Bool.false_and]
  unfold stopReady
  rw [launchesOf_stopBegin]
  exact List.all_congr rfl one

theorem mem_launchHarts {s : State} {l : Nat} {g : HartId} : g ∈ s.launchHarts l ↔ OfLaunch s l g := by
  obtain ⟨a, k, i⟩ := g
  simp only [State.launchHarts, State.coreHarts, OfLaunch, List.mem_flatMap, List.mem_map, List.mem_range, HartId.mk.injEq]
  constructor
  · rintro ⟨k, hk, i, hi, rfl, rfl, rfl⟩
    exact ⟨rfl, hk, hi⟩
  · rintro ⟨rfl, hk, hi⟩
    exact ⟨k, hk, i, hi, rfl, rfl, rfl⟩
theorem drained_iff {s : State} {l : Nat} : drained s l = true ↔ (∀ x ∈ s.cores, x.1.1 = l → x.2.engines = [])
    ∧ (∀ x ∈ s.posted, x.h.l ≠ l) ∧ ∀ g, OfLaunch s l g → (s.hart g).nb = [] ∧ readsOut (s.hart g) = false := by
  simp only [drained, Bool.and_eq_true, List.all_eq_true, mem_launchHarts, and_assoc]
  refine and_congr ?_ (and_congr ?_ ?_)
  · simp [Decidable.imp_iff_not_or]
  · simp
  · simp
theorem stopReady_iff {s : State} {p : Nat} : stopReady s p = true ↔ StopReady s p := by
  have one : ∀ l, ((s.launch l).phase == .saved || ((s.launch l).phase == .halted && (s.launch l).stop && drained s l)) = true
      ↔ (s.launch l).phase = .saved ∨ ((s.launch l).phase = .halted ∧ (s.launch l).stop = true ∧ drained s l = true) := by
    intro l
    simp [and_assoc]
  simp only [stopReady, List.all_eq_true, one, drained_iff, StopReady, State.launchesOf, List.mem_map, List.mem_filter, beq_iff_eq]
  constructor
  · intro h y hy e
    exact h y.1 ⟨y, ⟨hy, e⟩, rfl⟩
  · rintro h l ⟨y, ⟨hy, e⟩, rfl⟩
    exact h y hy e

/-! ## What it discards -/

/-- STOP discards a launch, if it is there still. -/
theorem stopLaunch_ends (s : State) (l : Nat) : Ends s (stopLaunch s l) ∧ ∀ y ∈ (stopLaunch s l).launches, y.1 ≠ l := by
  obtain ⟨ends, gone⟩ := endLaunch_ends s l 5 0
  unfold stopLaunch withLaunch
  dsimp only
  split
  · generalize endLaunch s l 5 0 = r at ends gone
    obtain ⟨t, _ | d⟩ := r
    · exact ⟨ends, gone⟩
    · have fault := deviceFault_ends t (s.launch l).part d
      exact ⟨ends.trans fault, fun y hy => gone y (fault.launches y hy)⟩
  next h => exact ⟨.refl s, fun y hy e => h (List.any_eq_true.2 ⟨y, hy, by simpa using e⟩)⟩
theorem stopLaunches_gone (ls : List Nat) (s : State) : ∀ y ∈ (ls.foldl stopLaunch s).launches, y.1 ∉ ls := by
  induction ls generalizing s with
  | nil => exact fun _ _ => nofun
  | cons l ls ih =>
    intro y hy
    have first := (stopLaunch_ends s l).2 y ((Ends.foldl (fun t l => (stopLaunch_ends t l).1) ls _).launches y hy)
    exact List.not_mem_cons_of_ne_of_not_mem first (ih _ y hy)
/-- The end of a STOP leaves no launch of the partition, and no queue of it with a record. -/
theorem stopPart_ends (s : State) (p : Nat) :
    ((stopPart s p).part p).started = false ∧ (∀ y ∈ (stopPart s p).launches, y.2.part ≠ p)
      ∧ (stopPart s p).md = { s.md with notLiveReads := (stopPart s p).md.notLiveReads, sent := (stopPart s p).md.sent,
                                        unwritten := (stopPart s p).md.unwritten }
      ∧ (QueuesOnce s p → ∀ q, ((stopPart s p).userQ p q).taken = none) := by
  have ends : Ends s ((s.launchesOf p).foldl stopLaunch s) := Ends.foldl (fun t l => (stopLaunch_ends t l).1) _ s
  have left : ∀ y ∈ ((s.launchesOf p).foldl stopLaunch s).launches, y.2.part ≠ p := fun y hy e =>
    stopLaunches_gone _ s y hy (List.mem_map.2 ⟨y, List.mem_filter.2 ⟨ends.launches y hy, by simpa using e⟩, rfl⟩)
  unfold stopPart
  generalize (s.launchesOf p).foldl stopLaunch s = u at ends left
  have empty := launchesOf_eq_nil.2 left
  have drops := dropTaken_schedules empty
  refine ⟨by simp, fun y hy => left y ?_, ?_, fun o q => ?_⟩
  · exact drops.launches ▸ hy
  · exact (ends.trans (.of_schedules drops)).md
  · have untaken := dropTaken_untaken empty ((ends.once p).2 o) q
    simpa [State.userQ] using untaken


/-! ## The command -/

theorem orderBegin_stop {s : State} {c : Cmd} (here : ∃ pt, (c.part.toNat, pt) ∈ s.parts) (b : c.body = []) (begun : Bool) :
    orderBegin s c (.stop begun) = (stopBegin s c.part.toNat, .stop true) := by
  have here := exists_part.1 here
  simp [orderBegin, here, b]
theorem orderBegin_stop_malformed {s : State} {c : Cmd} (h : (¬∃ pt, (c.part.toNat, pt) ∈ s.parts) ∨ c.body ≠ []) (begun : Bool) :
    orderBegin s c (.stop begun) = (s, .malformed) := by
  rw [exists_part] at h
  refine if_neg fun k => ?_
  rw [Bool.and_eq_true] at k
  rcases h with h | h
  · exact h k.1
  · exact h (List.isEmpty_iff.1 k.2)
theorem orderRun_stop {s : State} {c : Cmd} (here : ∃ pt, (c.part.toNat, pt) ∈ s.parts) (b : c.body = []) (begun : Bool) :
    orderRun s c (.stop begun) = (stopPart s c.part.toNat, 0, []) := by
  have here := exists_part.1 here
  simp [orderRun, toPart, here, b]

theorem stopped_finish {s u : State} {c : Cmd} (here : ∃ pt, (c.part.toNat, pt) ∈ u.parts) (b : c.body = [])
    (same : u.part c.part.toNat = s.part c.part.toNat) :
    Stopped s (finish u c (.stop true)) c c.part.toNat ∧ (finish u c (.stop true)).md.waiting = u.md.waiting := by
  obtain ⟨started, launches, md, untaken⟩ := stopPart_ends u c.part.toNat
  have run := finish_of_orderRun (o := .stop true) nofun (orderRun_stop here b true)
  rw [run, reply_eq]
  refine ⟨⟨started, launches, ⟨_, rfl⟩, fun o q => untaken (by rwa [QueuesOnce, same]) q⟩, ?_⟩
  show (stopPart u c.part.toNat).md.waiting = _
  rw [md]

theorem answers_stop_malformed {s : State} {c : Cmd} (a : Accepted s 6 c) (h : (¬∃ pt, (c.part.toNat, pt) ∈ s.parts) ∨ c.body ≠ []) :
    Answers (.stop c) s c 3 [] id (OnlyModule s) :=
  answers_onlyModule a rfl (orderBegin_stop_malformed (s := accepted s c) h false) rfl nofun rfl rfl
theorem stop_ready {s : State} {c : Cmd} (a : Accepted s 6 c) (here : ∃ pt, (c.part.toNat, pt) ∈ s.parts) (b : c.body = [])
    (ready : StopReady s c.part.toNat) : ∃ t, exec (.stop c) s = .next t ∧ Stopped s t c c.part.toNat := by
  have begins := orderBegin_stop (s := accepted s c) here b false
  have ready : orderReady (stopBegin (accepted s c) c.part.toNat) c (.stop true) = true :=
    (stopReady_stopBegin _ _ _).trans (stopReady_iff.2 ready)
  refine ⟨_, congrArg Host.Outcome.next ((command_accepted a _).trans (submit_accepted a begins ready)), ?_⟩
  exact (stopped_finish (u := stopBegin (accepted s c) c.part.toNat) here b rfl).1
theorem stop_waits {s : State} {c : Cmd} (a : Accepted s 6 c) (here : ∃ pt, (c.part.toNat, pt) ∈ s.parts) (b : c.body = [])
    (busy : ¬StopReady s c.part.toNat) : exec (.stop c) s = .next { s with
      launches := Claims.stopping s c.part.toNat
      md := { s.md with lastSeq := tput s.md.lastSeq c.key c.seq.toNat, waiting := s.md.waiting ++ [(c, .stop true)] } } := by
  have begins := orderBegin_stop (s := accepted s c) here b false
  have busy : orderReady (stopBegin (accepted s c) c.part.toNat) c (.stop true) = false := by
    rw [← Bool.not_eq_true]
    exact fun h => busy (stopReady_iff.1 ((stopReady_stopBegin (accepted s c) _ _).symm.trans h))
  refine congrArg Host.Outcome.next ((command_accepted a _).trans ((submit_waits a begins busy).trans ?_))
  rw [stopBegin_eq]
  rfl

/-- The one command that waits is a STOP that has set about halting: it has its effect once the partition is at rest. -/
theorem commandsGo_stop {s : State} {c : Cmd} (w : s.md.waiting = [(c, .stop true)]) (here : ∃ pt, (c.part.toNat, pt) ∈ s.parts) (b : c.body = [])
    (marked : Claims.stopping s c.part.toNat = s.launches) :
    commandsGo s = if stopReady s c.part.toNat then finish { s with md := { s.md with waiting := [] } } c (.stop true) else s := by
  have begins : beginOrders s [] s.md.waiting = s := by
    rw [w, beginOrders]
    simp only [behindOf, List.any_nil, orderBegin_stop here b, stopBegin_eq, marked]
    show { s with md := { s.md with waiting := [(c, .stop true)] } } = s
    rw [← w]
  rw [commandsGo, begins, w]
  cases r : stopReady s c.part.toNat
  · simp [nextOrder, behindOf, orderReady, r]
  · simp [nextOrder, behindOf, orderReady, r]
theorem step_command {s : State} {rest : List Move} (h : s.agenda = .command :: rest) : step s = .next (commandsGo { s with agenda := rest }) := by
  rw [step, h]
  rfl
theorem step_stop {s : State} {c : Cmd} {rest : List Move} (h : s.agenda = .command :: rest) (w : s.md.waiting = [(c, .stop true)])
    (here : ∃ pt, (c.part.toNat, pt) ∈ s.parts) (b : c.body = []) (marked : Claims.stopping s c.part.toNat = s.launches) :
    (StopReady s c.part.toNat → ∃ t, step s = .next t ∧ Stopped s t c c.part.toNat ∧ t.md.waiting = [])
    ∧ (¬StopReady s c.part.toNat → step s = .next { s with agenda := rest }) := by
  have go := commandsGo_stop (s := { s with agenda := rest }) w here b marked
  have ready : stopReady { s with agenda := rest } c.part.toNat = true ↔ StopReady s c.part.toNat := stopReady_iff (s := s)
  rw [step_command h, go]
  refine ⟨fun r => ⟨_, congrArg _ (if_pos (ready.2 r)), ?_⟩, fun r => congrArg _ (if_neg (mt ready.1 r))⟩
  exact stopped_finish (s := s) (u := { s with agenda := rest, md := { s.md with waiting := [] } }) here b rfl

end Sys2Proof.Proofs
end

section
/-! PROOFS. LOAD (R358, R360). -/
namespace Sys2Proof.Proofs
open Sys2Proof Sys2Proof.Machine Sys2Proof.Claims

/-! ## Writes at the home directory -/

theorem agentUnits_clean {s : State} (e : NoErrors s) (ks : List Nat) : agentUnits s ks = (s, false) := by
  obtain ⟨b, b2, b1⟩ := e
  simp [agentUnits, writeUnits, memUnits, b, b1, b2]
theorem homePut_clean {s : State} (e : NoErrors s) (p : Nat) (ks : List Nat) (bs : List Byte) :
    homePut s p ks bs = (homeWrite s p ks bs, false) := by
  rw [homePut, agentUnits_clean e]
/-- Of several bytes written at a key the last one is seen. -/
theorem peek_pokesAt (l : List (Nat × Byte)) (s : State) (k : Nat) :
    (l.foldl (fun s kb => s.poke kb.1 kb.2) s).peek k = (match l.reverse.find? fun x => x.1 == k with
      | some x => x.2
      | none => s.peek k) := by
  induction l generalizing s with
  | nil => rfl
  | cons x l ih =>
    rw [List.foldl_cons, ih, List.reverse_cons, List.find?_append]
    cases l.reverse.find? fun x => x.1 == k with
    | some y => rfl
    | none =>
      by_cases e : x.1 = k
      · simp [e]
      · simp [e]
theorem homeWrite_frame (s : State) (p : Nat) (ks : List Nat) (bs : List Byte) :
    homeWrite s p ks bs = { s with
      wbuf := (homeWrite s p ks bs).wbuf, cachedW := (homeWrite s p ks bs).cachedW, uncachedW := (homeWrite s p ks bs).uncachedW
      flushed := (homeWrite s p ks bs).flushed, settled := (homeWrite s p ks bs).settled, notLive := (homeWrite s p ks bs).notLive } := by
  have pokes : ∀ (l : List (Nat × Byte)) (t : State), l.foldl (fun s kb => s.poke kb.1 kb.2) t
      = { t with wbuf := (l.foldl (fun s kb => s.poke kb.1 kb.2) t).wbuf } := by
    intro l
    induction l with
    | nil => exact fun _ => rfl
    | cons x l ih =>
      intro t
      rw [List.foldl_cons, ih]
      rfl
  unfold homeWrite
  dsimp only
  rw [pokes]
  split <;> rfl
theorem homeWrite_peek (s : State) (p : Nat) (ks : List Nat) (bs : List Byte) (k : Nat) :
    (homeWrite s p ks bs).peek k = ((ks.zip bs).foldl (fun s kb => s.poke kb.1 kb.2) s).peek k := by
  unfold homeWrite
  dsimp only
  split <;> rfl
theorem homeWrite_read {s : State} (w : s.wbuf = []) (wf : s.mem.wf) (p : Nat) (ks : List Nat) (bs : List Byte) (k : Nat) :
    (s.mem.commit (homeWrite s p ks bs).wbuf).read k = lastWrite s.mem (ks.zip bs) k := by
  have mem : (homeWrite s p ks bs).mem = s.mem := by rw [homeWrite_frame]
  have before : s.peek k = s.mem.read k := by
    rw [State.peek, w]
    rfl
  have now : peekBuf s.mem k (homeWrite s p ks bs).wbuf = (homeWrite s p ks bs).peek k := by rw [State.peek, mem]
  rw [Memory.read_commit wf, now, homeWrite_peek, peek_pokesAt, before]
  rfl

/-! ## Leases -/

/-- A lease that holds meets the keys of a write: one of their lines is leased, or crosses the leased one. -/
def Meets (s : State) (ks : List Nat) (y : Machine.Lease) : Prop := s.cycle < y.until_ ∧ ∃ k ∈ ks, k / 64 = y.pline ∨ k / 64 ∈ y.cross
theorem meets_iff {s : State} {ks : List Nat} {y : Machine.Lease} : (s.cycle < y.until_ && (((ks.map (· / 64)).eraseDups).contains y.pline
    || (true && ((ks.map (· / 64)).eraseDups).any y.cross.contains))) = true ↔ Meets s ks y := by
  simp only [Meets, Bool.and_eq_true, Bool.or_eq_true, decide_eq_true_eq, Bool.true_and, List.contains_iff_mem, List.any_eq_true,
    List.mem_eraseDups, List.mem_map]
  refine and_congr_right fun _ => ⟨?_, ?_⟩
  · rintro (⟨k, h, e⟩ | ⟨_, ⟨k, h, rfl⟩, e⟩)
    · exact ⟨k, h, .inl e⟩
    · exact ⟨k, h, .inr e⟩
  · rintro ⟨k, h, e | e⟩
    · exact .inl ⟨k, h, e⟩
    · exact .inr ⟨_, ⟨k, h, rfl⟩, e⟩
theorem keysLeased_iff {s : State} {ks : List Nat} : (keysLeased s none true ks).isSome = true ↔ ¬NoLease s true ks := by
  have found : (keysLeased s none true ks).isSome = true ↔ ∃ x ∈ s.harts, ∃ y ∈ x.2.leases, Meets s ks y := by
    simp only [keysLeased, List.findSome?_isSome_iff]
    refine exists_congr fun x => and_congr_right fun _ => ?_
    rw [if_neg (by simp), Option.isSome_map, List.find?_isSome]
    exact exists_congr fun y => and_congr_right fun _ => meets_iff
  rw [found]
  constructor
  · rintro ⟨x, hx, y, hy, live, k, hk, e⟩ free
    obtain ⟨line, cross⟩ := free x hx y hy ⟨nofun, live⟩ k hk
    exact e.elim line (cross rfl)
  · intro held
    by_contra alone
    exact held fun x hx y hy ⟨_, live⟩ k hk => ⟨fun e => alone ⟨x, hx, y, hy, live, k, hk, .inl e⟩,
      fun _ e => alone ⟨x, hx, y, hy, live, k, hk, .inr e⟩⟩

/-! ## What a LOAD writes -/

/-- The keys of the bytes that a LOAD's body names, where it is one that the command takes. -/
def loadKeys (s : State) (p : Nat) (b : List Byte) : Option (List Nat) :=
  if b.length < 16 ∨ bodyNat b 1 7 ≠ 0 then none else tierKeys s p (bodyNat b 0 1) (bodyNat b 8 8) (b.length - 16)
theorem loadCmd_none {s : State} {p : Nat} {b : List Byte} (h : loadKeys s p b = none) : loadCmd s p b = (s, 3, []) := by
  unfold loadKeys at h
  unfold loadCmd
  dsimp only
  split at h
  next bad => exact if_pos bad
  next ok =>
    rw [List.length_drop]
    refine (if_neg ok).trans ?_
    show (match tierKeys s p (bodyNat b 0 1) (bodyNat b 8 8) (b.length - 16) with | none => _ | some ks => _) = _
    rw [h]
theorem loadCmd_some {s : State} {p : Nat} {b : List Byte} {ks : List Nat} (e : NoErrors s) (h : loadKeys s p b = some ks) :
    loadCmd s p b = (homeWrite s p ks (b.drop 16), 0, []) := by
  unfold loadKeys at h
  unfold loadCmd
  dsimp only
  split at h
  next => cases h
  next ok =>
    rw [List.length_drop]
    refine (if_neg ok).trans ?_
    show (match tierKeys s p (bodyNat b 0 1) (bodyNat b 8 8) (b.length - 16) with | none => _ | some ks => _) = _
    rw [h]
    show (match homePut s p ks (b.drop 16) with | (t, true) => _ | (t, false) => _) = _
    rw [homePut_clean e]
theorem loadHeld_eq (s : State) (c : Cmd) : loadHeld s c = (s.parts.any (·.1 == c.part.toNat)
    && (loadKeys s c.part.toNat c.body).any fun ks => (keysLeased s none true ks).isSome) := by
  have bytes : ∀ off n, ofBytes ((c.body.drop off).take n) = bodyNat c.body off n := fun _ _ => rfl
  unfold loadHeld loadKeys
  simp only [bytes]
  split
  next bad =>
    rcases bad with short | rest
    · simp [Nat.not_le.2 short]
    · simp [rest]
  next ok =>
    obtain ⟨long, zero⟩ := not_or.1 ok
    simp [Nat.not_lt.1 long, not_not.1 zero]

/-! ## The command -/

/-- The saddlebag bytes of a partition that a LOAD names are not all there: one stands behind a lost port (log 72). -/
def PortLost (s : State) (p a n : Nat) : Prop := ∃ i, i < n ∧ s.md.portOk.getLsbD (sadPort (s.part p).dies (a + i)) = false
theorem ports_all {s : State} {p a n : Nat} :
    ((List.range n).all fun i => s.md.portOk.getLsbD (sadPort (s.part p).dies (a + i))) = true ↔ ¬PortLost s p a n := by
  simp [PortLost]
theorem tierKeys_hbm {s : State} {p a n : Nat} (fits : a + n ≤ hbmSize (s.part p).dies) :
    tierKeys s p 0 a n = some ((List.range n).map fun i => hbmKey (s.part p).dies (a + i)) := if_pos fits
theorem tierKeys_saddlebag {s : State} {p a n : Nat} (fits : a + n ≤ sadSize (s.part p).dies) (ports : ¬PortLost s p a n) :
    tierKeys s p 1 a n = some ((List.range n).map fun i => sadKey (s.part p).dies (a + i)) := by
  refine if_pos ?_
  simp [fits, ports_all.2 ports]
theorem tierKeys_none {s : State} {p tier a n : Nat} (bad : 1 < tier ∨ tier = 0 ∧ hbmSize (s.part p).dies < a + n
    ∨ tier = 1 ∧ (sadSize (s.part p).dies < a + n ∨ PortLost s p a n)) : tierKeys s p tier a n = none := by
  unfold tierKeys
  dsimp only
  rcases bad with far | ⟨rfl, past⟩ | ⟨rfl, past | lost⟩
  · have other : tier ≠ 1 := by omega
    rw [if_neg (by omega)]
    simp [other]
  · exact if_neg (Nat.not_le.2 past)
  · simp [Nat.not_le.2 past]
  · have ports := Bool.eq_false_iff.2 (mt ports_all.1 (not_not.2 lost))
    rw [if_neg (by decide), ports, Bool.and_false]
    rfl

theorem orderRun_load {s : State} {c : Cmd} (here : ∃ pt, (c.part.toNat, pt) ∈ s.parts) : orderRun s c .load = loadCmd s c.part.toNat c.body :=
  if_pos (exists_part.1 here)
/-- A command to no partition is malformed (log 54). -/
theorem toPart_absent {s : State} {c : Cmd} {f : Nat → State × Nat × List Byte} (absent : ¬∃ pt, (c.part.toNat, pt) ∈ s.parts) :
    toPart s c f = (s, 3, []) := if_neg (mt exists_part.2 absent)

/-- A LOAD to no partition, or whose bytes are not all there, is refused. -/
theorem answers_load_malformed {s : State} {c : Cmd} (a : Accepted s 4 c)
    (bad : (¬∃ pt, (c.part.toNat, pt) ∈ s.parts) ∨ loadKeys s c.part.toNat c.body = none) :
    Answers (.load c) s c 3 [] id (OnlyModule s) := by
  have free : loadHeld (accepted s c) c = false := by
    rw [loadHeld_eq]
    rcases bad with absent | nowhere
    · rw [Bool.eq_false_iff.2 (mt (exists_part (s := accepted s c)).2 absent)]
      rfl
    · rw [show loadKeys (accepted s c) c.part.toNat c.body = none from nowhere]
      exact Bool.and_false _
  have effect : orderRun (accepted s c) c .load = (accepted s c, 3, []) := by
    by_cases here : ∃ pt, (c.part.toNat, pt) ∈ s.parts
    · exact (orderRun_load (s := accepted s c) here).trans (loadCmd_none (s := accepted s c) (bad.resolve_left (not_not.2 here)))
    · exact toPart_absent (s := accepted s c) (f := fun p => loadCmd (accepted s c) p c.body) here
  exact answers_onlyModule a rfl rfl (by rw [orderReady, free]; rfl) nofun effect rfl
/-- The LOAD writes its bytes at these keys: it waits for a lease on one of their lines, and writes each at its home (log 36). -/
def Loads (s : State) (c : Cmd) (ks : List Nat) : Prop :=
  (¬NoLease s true ks → Joins (.load c) s c .load) ∧ (¬¬NoLease s true ks → Answers (.load c) s c 0 [] id fun t =>
    AtHome { s with md := { t.md with notLiveReads := s.md.notLiveReads } } t ∧ t.md.notLiveReads = s.md.notLiveReads
      ∧ ∀ k, t.mem.read k = lastWrite s.mem (ks.zip (c.body.drop 16)) k)
theorem loads_of_loadKeys {s : State} {c : Cmd} {ks : List Nat} (a : Accepted s 4 c) (here : ∃ pt, (c.part.toNat, pt) ∈ s.parts)
    (wf : s.mem.wf) (e : NoErrors s) (keys : loadKeys s c.part.toNat c.body = some ks) : Loads s c ks := by
  have held : loadHeld (accepted s c) c = (keysLeased s none true ks).isSome := by
    have keys : loadKeys (accepted s c) c.part.toNat c.body = some ks := keys
    have here : (accepted s c).parts.any (·.1 == c.part.toNat) = true := exists_part.1 here
    rw [loadHeld_eq, keys, here]
    rfl
  refine ⟨fun leased => ?_, fun free => ?_⟩
  · have waits : orderReady (accepted s c) c .load = false := by rw [orderReady, held, keysLeased_iff.2 leased]; rfl
    exact congrArg Host.Outcome.next ((command_accepted a _).trans (submit_waits a rfl waits))
  · have ready : orderReady (accepted s c) c .load = true := by
      rw [orderReady, held, Bool.eq_false_iff.2 (mt keysLeased_iff.1 free)]; rfl
    have effect := (orderRun_load (s := accepted s c) here).trans (loadCmd_some (s := accepted s c) e keys)
    have run : exec (.load c) s = .next (close (accepted s c) (reply (homeWrite (accepted s c) c.part.toNat ks (c.body.drop 16)) c 0 [])) :=
      congrArg Host.Outcome.next ((command_accepted a _).trans ((submit_accepted (o := .load) a rfl ready).trans (finish_of_orderRun nofun effect)))
    have w := accepted_wbuf a
    have frame := homeWrite_frame (accepted s c) c.part.toNat ks (c.body.drop 16)
    have read := homeWrite_read (s := accepted s c) w wf c.part.toNat ks (c.body.drop 16)
    rw [reply_eq] at run
    generalize homeWrite (accepted s c) c.part.toNat ks (c.body.drop 16) = u at run frame read
    refine ⟨_, run, ⟨?_, ?_, read⟩, ?_⟩
    · rw [AtHome, w, frame]
      rfl
    · rw [frame]
      rfl
    · rw [frame]
      rfl

/-! ## The keys by tier -/

theorem loadKeys_malformed {s : State} {p : Nat} {b : List Byte} (bad : b.length < 16 ∨ 1 < bodyNat b 0 1 ∨ bodyNat b 1 7 ≠ 0
    ∨ (bodyNat b 0 1 = 0 ∧ hbmSize (s.part p).dies < bodyNat b 8 8 + (b.length - 16))
    ∨ (bodyNat b 0 1 = 1 ∧ (sadSize (s.part p).dies < bodyNat b 8 8 + (b.length - 16) ∨ PortLost s p (bodyNat b 8 8) (b.length - 16)))) :
    loadKeys s p b = none := by
  unfold loadKeys
  split
  next => rfl
  next ok =>
    obtain ⟨long, zero⟩ := not_or.1 ok
    refine tierKeys_none ?_
    rcases bad with short | far | rest | hbm | saddlebag
    · exact absurd short long
    · exact .inl far
    · exact absurd rest zero
    · exact .inr (.inl hbm)
    · exact .inr (.inr saddlebag)
theorem loadKeys_eq {s : State} {p : Nat} {b : List Byte} (long : 16 ≤ b.length) (zero : bodyNat b 1 7 = 0) :
    loadKeys s p b = tierKeys s p (bodyNat b 0 1) (bodyNat b 8 8) (b.length - 16) :=
  if_neg (by omega)
theorem loadKeys_hbm {s : State} {p : Nat} {b : List Byte} (long : 16 ≤ b.length) (zero : bodyNat b 1 7 = 0) (tier : bodyNat b 0 1 = 0)
    (fits : bodyNat b 8 8 + (b.length - 16) ≤ hbmSize (s.part p).dies) :
    loadKeys s p b = some ((List.range (b.length - 16)).map fun i => hbmKey (s.part p).dies (bodyNat b 8 8 + i)) := by
  rw [loadKeys_eq long zero, tier, tierKeys_hbm fits]
theorem loadKeys_saddlebag {s : State} {p : Nat} {b : List Byte} (long : 16 ≤ b.length) (zero : bodyNat b 1 7 = 0) (tier : bodyNat b 0 1 = 1)
    (fits : bodyNat b 8 8 + (b.length - 16) ≤ sadSize (s.part p).dies) (ports : ¬PortLost s p (bodyNat b 8 8) (b.length - 16)) :
    loadKeys s p b = some ((List.range (b.length - 16)).map fun i => sadKey (s.part p).dies (bodyNat b 8 8 + i)) := by
  rw [loadKeys_eq long zero, tier, tierKeys_saddlebag fits ports]

end Sys2Proof.Proofs
end

section
/-! PROOFS. The scheduler's reads where other partitions, an epoch or a command's number differ. -/
namespace Sys2Proof.Proofs
open Sys2Proof Sys2Proof.Machine Sys2Proof.Claims

/-- s with other partitions, another epoch and another record of the module: none of them is what a walk reads. -/
def moved (ps : List (Nat × Part)) (ep : Nat) (md : Module) (s : State) : State := { s with parts := ps, epoch := ep, md := md }
/-- The result of an access of the scheduler in the state so changed. -/
def movedResult {α : Type} (ps : List (Nat × Part)) (ep : Nat) (md : Module) (r : State × α) : State × α := (moved ps ep md r.1, r.2)

section
variable (ps : List (Nat × Part)) (ep : Nat) (md : Module) (s : State)

/-! ## Walks -/

@[simp] theorem peek_moved (k : Nat) : (moved ps ep md s).peek k = s.peek k := rfl
@[simp] theorem peekN_moved (k n : Nat) : (moved ps ep md s).peekN k n = s.peekN k n := by
  induction n generalizing k with
  | zero => rfl
  | succ n ih => simp only [State.peekN, ih, peek_moved]
@[simp] theorem walkReads_moved (dies : BitVec 4) (a : Nat) : walkReads (moved ps ep md s) dies a = walkReads s dies a := by
  simp only [walkReads, peekN_moved]
  rfl
@[simp] theorem walkEcc_moved (dies : BitVec 4) (root : BitVec 64) (vpn a n : Nat) :
    walkEcc (moved ps ep md s) dies root vpn a n = walkEcc s dies root vpn a n := rfl
@[simp] theorem runSince_moved (dies : BitVec 4) (base : Nat) (e0 : BitVec 64) (n : Nat) :
    runSince (moved ps ep md s) dies base e0 n = runSince s dies base e0 n := by
  induction n with
  | zero => rfl
  | succ n ih => simp only [runSince, ih, walkReads_moved]
@[simp] theorem walkRun_moved (dies : BitVec 4) (root : BitVec 64) (vpn : Nat) (e2 e1 : BitVec 64) (at_ : Option Nat) :
    walkRun (moved ps ep md s) dies root vpn e2 e1 at_ = walkRun s dies root vpn e2 e1 at_ := by
  simp only [walkRun, walkEcc_moved, walkReads_moved, runSince_moved]
@[simp] theorem walk1_moved (dies : BitVec 4) (root : BitVec 64) (vpn : Nat) (e2 : BitVec 64) (at_ : Option Nat) :
    walk1 (moved ps ep md s) dies root vpn e2 at_ = walk1 s dies root vpn e2 at_ := by
  simp only [walk1, walkEcc_moved, walkReads_moved, walkRun_moved]
@[simp] theorem walk2_moved (dies : BitVec 4) (root : BitVec 64) (vpn : Nat) (e3 : BitVec 64) (at_ : Option Nat) :
    walk2 (moved ps ep md s) dies root vpn e3 at_ = walk2 s dies root vpn e3 at_ := by
  simp only [walk2, walkEcc_moved, walkReads_moved, walk1_moved]
@[simp] theorem walk_moved (dies : BitVec 4) (root : BitVec 64) (vpn : Nat) : walk (moved ps ep md s) dies root vpn = walk s dies root vpn := by
  simp only [walk, walkEcc_moved, walkReads_moved, walk2_moved]
theorem pickEntry_moved (root : BitVec 64) (vpn : Nat) (l : List TlbEntry) :
    pickEntry (moved ps ep md s) root vpn l = movedResult ps ep md (pickEntry s root vpn l) := by
  cases l with
  | nil => rfl
  | cons e l =>
    by_cases same : (l.all fun x => x == e) = true
    · simp only [pickEntry, if_pos same]
      rfl
    · simp only [pickEntry, if_neg same]
      rfl

end

/-! ## Accesses -/

/-- No check unit is bad and no segment is not live: a read draws no choice for their sake. -/
def Quiet (s : State) : Prop := NoErrors s ∧ s.notLive = []
theorem Quiet.of_walks {s u : State} (h : Walks s u) (q : Quiet s) : Quiet u := by
  rw [h]
  exact q
theorem noteWalk_quiet {s : State} (q : Quiet s) (p : Nat) (root : BitVec 64) (vpn : Nat) : noteWalk s p root vpn = s :=
  if_pos (by rw [q.2]; rfl)
theorem noteDeadKeys_quiet {s : State} (q : Quiet s) (p : Nat) (ks : List Nat) : noteDeadKeys s p ks = s := if_pos (by rw [q.2]; rfl)
theorem needsBad_quiet {s : State} (q : Quiet s) (ks : List Nat) : needsBad s true ks = (s, false) := by
  obtain ⟨⟨b, b2, b1⟩, -⟩ := q
  simp [needsBad, coherentBad, dirtyL1, badUnit, memBad, b, b1, b2]

/-- What the scheduler of partition p reads by is the same where the partitions are `ps` and the module's record is `md`. -/
structure ReadsAlike (ps : List (Nat × Part)) (md : Module) (p : Nat) (s : State) : Prop where
  quiet : Quiet s
  dies : (tget Part.idle ps p).dies = (s.part p).dies
  ptbase : (tget Part.idle ps p).ptbase = (s.part p).ptbase
  qtable : (tget Part.idle ps p).qtable = (s.part p).qtable
  notify : (tget Part.idle ps p).notify = (s.part p).notify
  ports : md.portOk = s.md.portOk
  members : md.members = s.md.members
  windows : md.windows = s.md.windows

section
variable {ps : List (Nat × Part)} {md : Module} {p : Nat} {s : State}

theorem ReadsAlike.of_walks {u : State} (a : ReadsAlike ps md p s) (h : Walks s u) : ReadsAlike ps md p u := by
  rw [h]
  exact ⟨a.quiet, a.dies, a.ptbase, a.qtable, a.notify, a.ports, a.members, a.windows⟩
theorem wholeThere_moved (a : ReadsAlike ps md p s) (ep : Nat) (e : TlbEntry) (va last : Nat) :
    wholeThere (moved ps ep md s) p e va last = wholeThere s p e va last := by
  have dies : ((moved ps ep md s).part p).dies = (s.part p).dies := a.dies
  have there : ∀ pa, installed (moved ps ep md s) (s.part p).dies e.pte pa = installed s (s.part p).dies e.pte pa := by
    intro pa
    simp only [installed, moved, a.ports, a.members, a.windows]
  unfold wholeThere
  simp only [dies, there]
theorem keysOf_moved (a : ReadsAlike ps md p s) (ep : Nat) (pgs : List TlbEntry) (va n : Nat) :
    keysOf (moved ps ep md s) p pgs va n = keysOf s p pgs va n := by
  have dies : ((moved ps ep md s).part p).dies = (s.part p).dies := a.dies
  simp only [keysOf, dies]
theorem xlateNow_moved (a : ReadsAlike ps md p s) (ep : Nat) (root : BitVec 64) (vpn : Nat) :
    xlateNow (moved ps ep md s) p root vpn = movedResult ps ep md (xlateNow s p root vpn) := by
  have dies : ((moved ps ep md s).part p).dies = (s.part p).dies := a.dies
  unfold xlateNow
  dsimp only
  rw [noteWalk_quiet a.quiet, noteWalk_quiet (s := moved ps ep md s) a.quiet, dies, walk_moved, pickEntry_moved]
theorem walkPages_moved (a : ReadsAlike ps md p s) (ep : Nat) (root : BitVec 64) (ok : Nat → Bool) (last n va : Nat) :
    walkPages p root ok last n (moved ps ep md s) va = movedResult ps ep md (walkPages p root ok last n s va) := by
  induction n generalizing s va with
  | zero => rfl
  | succ n ih =>
    have one := a.of_walks (xlateNow_walks s p root (va / 65536))
    unfold walkPages
    rw [xlateNow_moved a]
    generalize xlateNow s p root (va / 65536) = r at one
    obtain ⟨t, e⟩ := r
    dsimp only [movedResult]
    rw [ih one, wholeThere_moved one]
    generalize walkPages p root ok last n t (65536 * (va / 65536 + 1)) = q
    split
    · rfl
    · split
      · rfl
      · split
        · rfl
        · obtain ⟨u, _ | _⟩ := q <;> rfl
theorem schedPages_moved (a : ReadsAlike ps md p s) (ep : Nat) (ok : Nat → Bool) (va n : Nat) :
    schedPages (moved ps ep md s) p ok va n = movedResult ps ep md (schedPages s p ok va n) := by
  have root : ((moved ps ep md s).part p).ptbase = (s.part p).ptbase := a.ptbase
  unfold schedPages rootPages
  rw [root]
  split
  · rfl
  · exact walkPages_moved a ep _ ok _ _ va
theorem schedRead_moved (a : ReadsAlike ps md p s) (ep va n : Nat) :
    schedRead (moved ps ep md s) p va n = movedResult ps ep md (schedRead s p va n) := by
  have pages := a.of_walks (schedPages_walks s p (· == 0) va n)
  unfold schedRead
  rw [schedPages_moved a]
  generalize schedPages s p (· == 0) va n = r at pages
  obtain ⟨t, f | pgs⟩ := r
  · rfl
  · dsimp only [movedResult]
    rw [keysOf_moved pages, noteDeadKeys_quiet pages.quiet, noteDeadKeys_quiet (s := moved ps ep md t) pages.quiet, needsBad_quiet pages.quiet,
      needsBad_quiet (s := moved ps ep md t) pages.quiet]
    rfl
theorem readTable_moved (a : ReadsAlike ps md p s) (ep q : Nat) :
    readTable (moved ps ep md s) p q = movedResult ps ep md (readTable s p q) := by
  have table : tableAddr (moved ps ep md s) p q = tableAddr s p q := congrArg (fun x => x.toNat + 32 * q) a.qtable
  unfold readTable
  rw [table, schedRead_moved a]
  generalize schedRead s p (tableAddr s p q) 32 = r
  obtain ⟨t, f | v⟩ := r <;> rfl
theorem readNotify_moved (a : ReadsAlike ps md p s) (ep q : Nat) :
    readNotify (moved ps ep md s) p q = movedResult ps ep md (readNotify s p q) := by
  have word : notifyAddr (moved ps ep md s) p q = notifyAddr s p q := congrArg (fun x => x.toNat + 8 * q) a.notify
  unfold readNotify
  rw [word, schedRead_moved a]
  generalize schedRead s p (notifyAddr s p q) 8 = r
  obtain ⟨t, f | v⟩ := r <;> rfl

end

end Sys2Proof.Proofs
end

section
/-! PROOFS. Notifies and START (R87, R88, R359). -/
namespace Sys2Proof.Proofs
open Sys2Proof Sys2Proof.Machine Sys2Proof.Claims

/-! ## What a notify leaves of the state -/

theorem appendWanting_schedules (s : State) (p q : Nat) : Schedules p s (s.updPart p fun x => { x with wanting := x.wanting ++ [q] }) where
  frame := rfl
  others r n := part_updPart_of_ne s _ n
  own := by simp
  keys y hy := (mem_tput hy).imp_right fun hy => ⟨y, hy, rfl⟩
  once := by simp [QueuesOnce]
  untaken _ q h := by simpa [State.userQ] using h
/-- What a Wanting queue is made of the table's entry. -/
def wantingQ (s : State) (x : UserQ) (h : QTab) : UserQ :=
  { x with phase := .wanting, wantedAt := s.cycle, head := h.head, done := h.done, pending := false }
theorem becomeWanting_schedules (s : State) (p q : Nat) (t : QTab) : Schedules p s (becomeWanting s p q t) :=
  (setQ_schedules s p q (wantingQ s (s.userQ p q) t) fun _ => id).trans (appendWanting_schedules _ p q)
theorem flagsOrFault_ends (s : State) (p q : Nat) : Ends s (flagsOrFault s p q) := by
  have wrote : Touches s (syncFlags s p q).1 := writeFlags_touches s p q _ _
  unfold flagsOrFault
  generalize syncFlags s p q = r at wrote
  have wrote : Ends s r.1 := .of_schedules (p := p) (.of_touches wrote)
  obtain ⟨t, _ | d⟩ := r
  · exact wrote
  · exact wrote.trans (deviceFault_ends t p d)
theorem notified_ends (s : State) (p q : Nat) : Ends s (notified s p q) := by
  have table := readTable_walks s p q
  unfold notified
  split
  · exact .refl s
  · generalize readTable s p q = r at table
    have table : Ends s r.1 := .of_schedules (p := p) (.of_touches (.of_walks table))
    obtain ⟨t, d | h⟩ := r
    · exact table.trans (deviceFault_ends t p d)
    · dsimp only
      split
      · exact table
      · split
        · have word := readNotify_walks t p q
          generalize readNotify t p q = r at word
          have word : Ends s r.1 := table.trans (.of_schedules (p := p) (.of_touches (.of_walks word)))
          obtain ⟨u, d | n⟩ := r
          · exact word.trans (deviceFault_ends u p d)
          · dsimp only
            split
            · exact word
            · exact word.trans (.of_schedules (becomeWanting_schedules u p q h))
        · exact table
        · exact table
        · have set := setQ_schedules t p q { t.userQ p q with pending := true } fun _ => id
          exact (table.trans (.of_schedules set)).trans (flagsOrFault_ends _ p q)

/-! ## What a notify does where its reads draw no choice -/

theorem readyCount_ne_zero {h : QTab} {n : Nat} : readyCount h h.head n ≠ 0 ↔ h.head < min n (h.head + 2 ^ h.lgsize) := by
  unfold readyCount
  omega
theorem part_becomeWanting (s : State) (p q : Nat) (h : QTab) : (becomeWanting s p q h).part p =
    { s.part p with queues := tput (s.part p).queues q (wantingQ s (s.userQ p q) h), wanting := (s.part p).wanting ++ [q] } := by
  simp [becomeWanting, wantingQ]
theorem userQ_becomeWanting (s : State) (p q : Nat) (h : QTab) : (becomeWanting s p q h).userQ p q = wantingQ s (s.userQ p q) h := by
  rw [State.userQ, part_becomeWanting]
  exact tget_tput_same _ _ _ _
theorem userQ_becomeWanting_of_ne (s : State) (p : Nat) {q r : Nat} (h : QTab) (n : r ≠ q) : (becomeWanting s p q h).userQ p r = s.userQ p r := by
  rw [State.userQ, part_becomeWanting]
  exact tget_tput_of_ne _ _ _ n

/-- In t the scheduler of p reads as in s. -/
def Reads (p : Nat) (s t : State) : Prop := t = moved t.parts t.epoch t.md s ∧ ReadsAlike t.parts t.md p s
theorem Reads.table {p : Nat} {s t : State} {h : QTab} (a : Reads p s t) (q : Nat) (e : readTable s p q = (s, .ok h)) :
    readTable t p q = (t, .ok h) := by
  obtain ⟨frame, alike⟩ := a
  rw [frame, readTable_moved alike, e]
  rfl
theorem Reads.word {p n : Nat} {s t : State} (a : Reads p s t) (q : Nat) (e : readNotify s p q = (s, .ok n)) :
    readNotify t p q = (t, .ok n) := by
  obtain ⟨frame, alike⟩ := a
  rw [frame, readNotify_moved alike, e]
  rfl

theorem notified_wakes {p q : Nat} {s t : State} {h : QTab} (a : Reads p s t) (started : (t.part p).started = true)
    (same : t.userQ p q = s.userQ p q) (w : Wakes s s p q h) : notified t p q = becomeWanting t p q h := by
  obtain ⟨phase, table, valid, n, word, ready⟩ := w
  have valid : h.flags % 2 ≠ 0 := by omega
  have phase : (t.userQ p q).phase = .unmapped := by rw [same, phase]
  simp only [notified, started, a.table q table, phase, a.word q word, if_neg valid, if_neg (readyCount_ne_zero.2 ready)]
  rfl
/-- A queue that is not being unmapped and that the notify does not wake stays as it is. -/
theorem notified_sleeps {p q n : Nat} {s t : State} {h : QTab} (a : Reads p s t) (started : (t.part p).started = true)
    (same : t.userQ p q = s.userQ p q) (unmapping : (s.userQ p q).phase ≠ .unmapping) (table : readTable s p q = (s, .ok h))
    (word : readNotify s p q = (s, .ok n)) (w : ¬Wakes s s p q h) : notified t p q = t := by
  simp only [notified, started, a.table q table]
  show (if h.flags % 2 = 0 then t else _) = t
  split
  next => rfl
  next valid =>
    rw [same]
    split
    next phase =>
      have ready : readyCount h h.head n = 0 := by
        by_contra ready
        exact w ⟨phase, table, by omega, n, word, readyCount_ne_zero.1 ready⟩
      simp only [a.word q word, ready]
      rfl
    next => rfl
    next => rfl
    next phase => exact absurd phase unmapping

/-! ## START -/

/-- The partition as START leaves it before the notify words are looked at. -/
def startedPart (s : State) (x : Part) : Part :=
  { x with tlbAll := if x.unstarted then s.epoch + 1 else x.tlbAll, started := true, startedAt := s.cycle, ticks := 0, answeredAt := s.cycle
           polledAt := s.cycle, images := [], unstarted := false }
def restarted (s : State) (p : Nat) : State :=
  { s with parts := tput s.parts p (startedPart s (s.part p)), epoch := if (s.part p).unstarted then s.epoch + 1 else s.epoch }
theorem startPart_eq (s : State) (p : Nat) : startPart s p = (List.range 65536).foldl (fun s q => notified s p q) (restarted s p) := by
  unfold startPart
  generalize List.range 65536 = l
  dsimp only
  refine congrArg (List.foldl _ · l) ?_
  by_cases new : (s.part p).unstarted = true
  · rw [if_pos new, restarted, startedPart, if_pos new, if_pos new]
    simp only [State.updPart, State.setPart, State.part, tget_tput_same, tput_tput]
  · rw [if_neg new, restarted, startedPart, if_neg new, if_neg new]
    rfl

@[simp] theorem part_restarted (s : State) (p : Nat) : (restarted s p).part p = startedPart s (s.part p) := tget_tput_same _ _ _ _

/-- The notify words of the first m queues have been acted on, and nothing else has changed since u. -/
structure ActedTo (p : Nat) (s u t : State) (m : Nat) : Prop where
  frame : t = { u with parts := t.parts }
  own : t.part p = { u.part p with queues := (t.part p).queues, wanting := (t.part p).wanting }
  acted : NotifiesActed s s t p 0 m

theorem ActedTo.reads {p m : Nat} {s u t : State} (a : ActedTo p s u t m) (r : Reads p s u) : Reads p s t := by
  obtain ⟨frame, alike⟩ := r
  have md : t.md = u.md := by rw [a.frame]
  have own : tget Part.idle t.parts p = _ := a.own
  refine ⟨?_, alike.quiet, ?_, ?_, ?_, ?_, ?_, ?_, ?_⟩
  · rw [a.frame, frame]
    rfl
  · rw [own]; exact alike.dies
  · rw [own]; exact alike.ptbase
  · rw [own]; exact alike.qtable
  · rw [own]; exact alike.notify
  · rw [md]; exact alike.ports
  · rw [md]; exact alike.members
  · rw [md]; exact alike.windows
theorem wakes_unique {s : State} {p q : Nat} {h g : QTab} (a : Wakes s s p q h) (b : readTable s p q = (s, .ok g)) : h = g := by
  obtain ⟨-, table, -⟩ := a
  rw [table] at b
  cases b
  rfl
theorem ActedTo.next {p m : Nat} {s u t : State} (a : ActedTo p s u t m) (r : Reads p s u) (started : (u.part p).started = true)
    (can : Notifiable s s p 0 65536) (lt : m < 65536) : ActedTo p s u (notified t p m) (m + 1) := by
  have reads := a.reads r
  have started : (t.part p).started = true := by rw [a.own]; exact started
  have cycle : t.cycle = s.cycle := by rw [reads.1]; rfl
  obtain ⟨-, -, can⟩ := can
  obtain ⟨unmapping, ⟨h, table⟩, n, word⟩ := can m (by omega) (by omega)
  obtain ⟨l, wanting, sorted, members, others, woken⟩ := a.acted
  have below : ∀ r ∈ l, r < m := fun r hr => by
    obtain ⟨-, lt, -⟩ := (members r).1 hr
    omega
  have new : m ∉ l := fun hm => Nat.lt_irrefl m (below m hm)
  have same := others m new
  have last : ∀ r, r < 0 + (m + 1) ↔ r < 0 + m ∨ r = m := by omega
  by_cases w : Wakes s s p m h
  · rw [notified_wakes reads started same w]
    have own := part_becomeWanting t p m h
    refine ⟨?_, ?_, l ++ [m], ?_, ?_, fun r => ?_, fun r hr => ?_, fun r hr g wr => ?_⟩
    · rw [show becomeWanting t p m h = { t with parts := (becomeWanting t p m h).parts } from rfl, a.frame]
    · rw [own, a.own]
    · rw [own, ← List.append_assoc, ← wanting]
    · exact List.pairwise_append.2 ⟨sorted, List.pairwise_singleton _ _, fun x hx y hy => List.mem_singleton.1 hy ▸ below x hx⟩
    · rw [List.mem_append, List.mem_singleton, members, last]
      constructor
      · rintro (⟨low, lt, wakes⟩ | rfl)
        · exact ⟨low, .inl lt, wakes⟩
        · exact ⟨Nat.zero_le _, .inr rfl, h, w⟩
      · rintro ⟨low, lt | e, wakes⟩
        · exact .inl ⟨low, lt, wakes⟩
        · exact .inr e
    · obtain ⟨old, n⟩ := not_or.1 (mt List.mem_append.2 hr)
      rw [userQ_becomeWanting_of_ne _ _ _ (mt List.mem_singleton.2 n), others r old]
    · rcases List.mem_append.1 hr with hr | hr
      · rw [userQ_becomeWanting_of_ne _ _ _ (Nat.ne_of_lt (below r hr)), woken r hr g wr]
      · obtain rfl := List.mem_singleton.1 hr
        rw [userQ_becomeWanting, same, wantingQ, cycle, wakes_unique wr table]
  · rw [notified_sleeps reads started same unmapping table word w]
    have sleeps : ¬∃ g, Wakes s s p m g := by
      rintro ⟨g, wakes⟩
      exact w (wakes_unique wakes table ▸ wakes)
    refine ⟨a.frame, a.own, l, wanting, sorted, fun r => ?_, others, woken⟩
    rw [members, last]
    constructor
    · rintro ⟨low, lt, wakes⟩
      exact ⟨low, .inl lt, wakes⟩
    · rintro ⟨low, lt | rfl, wakes⟩
      · exact ⟨low, lt, wakes⟩
      · exact absurd wakes sleeps
theorem ActedTo.all {p : Nat} {s u : State} (zero : ActedTo p s u u 0) (r : Reads p s u) (started : (u.part p).started = true)
    (can : Notifiable s s p 0 65536) (m : Nat) (le : m ≤ 65536) :
    ActedTo p s u ((List.range m).foldl (fun t q => notified t p q) u) m := by
  induction m with
  | zero => exact zero
  | succ m ih =>
    rw [List.range_succ, List.foldl_append]
    exact (ih (by omega)).next r started can (by omega)

/-! ## The command -/

theorem startPart_ends (s : State) (p : Nat) : Ends (restarted s p) (startPart s p) := by
  rw [startPart_eq]
  exact Ends.foldl (fun t q => notified_ends t p q) _ _
theorem part_startPart (s : State) (p : Nat) : (startPart s p).part p = { startedPart s (s.part p) with
    queues := ((startPart s p).part p).queues, wanting := ((startPart s p).part p).wanting, clreds := ((startPart s p).part p).clreds } := by
  have own := (startPart_ends s p).part p
  rw [part_restarted] at own
  exact own
theorem le_nextEpoch (m : Memory) (n : Nat) (ops : List MemOp) : n ≤ nextEpoch m n ops := by
  unfold nextEpoch
  split <;> omega
/-- START acts on the notify words stored before it (R359). -/
theorem startPart_notifies {s : State} {c : Cmd} {p : Nat} (can : Notifiable s s p 0 65536) :
    NotifiesActed s s (startPart (accepted s c) p) p 0 65536 := by
  obtain ⟨clean, live, -⟩ := id can
  have own : (restarted (accepted s c) p).part p = startedPart s (s.part p) := part_restarted (accepted s c) p
  have reads : Reads p s (restarted (accepted s c) p) := by
    have own : tget Part.idle (restarted (accepted s c) p).parts p = startedPart s (s.part p) := own
    refine ⟨rfl, ⟨clean, live⟩, ?_, ?_, ?_, ?_, rfl, rfl, rfl⟩
    all_goals rw [own]; rfl
  have zero : ActedTo p s (restarted (accepted s c) p) (restarted (accepted s c) p) 0 := by
    refine ⟨rfl, rfl, [], ?_, List.Pairwise.nil, fun r => ?_, fun r _ => ?_, nofun⟩
    · rw [own, List.append_nil]
      rfl
    · refine iff_of_false List.not_mem_nil ?_
      rintro ⟨low, high, -⟩
      omega
    · rw [State.userQ, own]
      rfl
  rw [startPart_eq]
  exact (zero.all reads (by rw [own]; rfl) can 65536 (Nat.le_refl _)).acted

theorem orderRun_start {s : State} {c : Cmd} (here : ∃ pt, (c.part.toNat, pt) ∈ s.parts) (b : c.body = []) :
    orderRun s c .start = (startPart s c.part.toNat, 0, []) := by
  have here := exists_part.1 here
  simp [orderRun, toPart, here, b]
theorem orderRun_start_malformed {s : State} {c : Cmd} (h : (¬∃ pt, (c.part.toNat, pt) ∈ s.parts) ∨ c.body ≠ []) :
    orderRun s c .start = (s, 3, []) := by
  by_cases here : ∃ pt, (c.part.toNat, pt) ∈ s.parts
  · have b := h.resolve_left (not_not.2 here)
    have here := exists_part.1 here
    simp [orderRun, toPart, here, b]
  · exact toPart_absent (f := fun p => if c.body.isEmpty then (startPart s p, 0, []) else (s, 3, [])) here
theorem answers_start_malformed {s : State} {c : Cmd} (a : Accepted s 5 c) (h : (¬∃ pt, (c.part.toNat, pt) ∈ s.parts) ∨ c.body ≠ []) :
    Answers (.start c) s c 3 [] id (OnlyModule s) :=
  answers_malformed a rfl trivial (orderRun_start_malformed (s := accepted s c) h)
theorem exec_start {s : State} {c : Cmd} (a : Accepted s 5 c) (here : ∃ pt, (c.part.toNat, pt) ∈ s.parts) (b : c.body = []) :
    exec (.start c) s = .next (close (accepted s c) (reply (startPart (accepted s c) c.part.toNat) c 0 [])) := by
  have effect := orderRun_start (s := accepted s c) here b
  exact congrArg Host.Outcome.next ((command_accepted a _).trans ((submit_accepted (o := .start) a rfl rfl).trans
    (finish_of_orderRun nofun effect)))

end Sys2Proof.Proofs
end

section
/-! PROOFS. The commands to a partition (R358 to R360, R373). -/
namespace Sys2Proof.Proofs
open Sys2Proof Sys2Proof.Machine Sys2Proof.Claims

/-- t is the state once START of partition p has been answered: what it sets, and that it has acted on the notify words. -/
def StartDone (s t : State) (c : Cmd) (p : Nat) : Prop :=
  (t.part p).started = true ∧ (t.part p).startedAt = s.cycle ∧ (t.part p).polledAt = s.cycle ∧ (t.part p).ticks = 0
    ∧ (t.part p).images = [] ∧ (∃ more, t.md.sent = replied c 0 [] :: more) ∧ (t.part p).unstarted = false
    ∧ ((s.part p).unstarted = true → (t.part p).tlbAll = s.epoch + 1 ∧ s.epoch < t.epoch)
    ∧ (Notifiable s s p 0 65536 → NotifiesActed s s t p 0 65536)
theorem startDone_close {s u : State} {c : Cmd} {p : Nat} (epoch : u.epoch = (restarted (accepted s c) p).epoch)
    (own : ∃ queues wanting clreds,
      u.part p = { startedPart s (s.part p) with queues := queues, wanting := wanting, clreds := clreds })
    (notifies : Notifiable s s p 0 65536 → NotifiesActed s s u p 0 65536) :
    StartDone s (close (accepted s c) (reply u c 0 [])) c p := by
  rw [reply_eq]
  have part : ∀ md, (close (accepted s c) { u with md := md }).part p = u.part p := fun _ => rfl
  obtain ⟨queues, wanting, clreds, own⟩ := own
  unfold StartDone
  rw [part, own]
  refine ⟨rfl, rfl, rfl, rfl, rfl, ⟨_, rfl⟩, rfl, fun new => ⟨if_pos new, ?_⟩, fun can => ?_⟩
  · have later : u.epoch = s.epoch + 1 := epoch.trans (if_pos new)
    exact Nat.lt_of_lt_of_le (by omega) (le_nextEpoch s.mem u.epoch u.wbuf)
  · obtain ⟨l, acted⟩ := notifies can
    exact ⟨l, by simpa only [State.userQ, part] using acted⟩
theorem startDone {s : State} {c : Cmd} (a : Accepted s 5 c) (here : ∃ pt, (c.part.toNat, pt) ∈ s.parts) (b : c.body = []) :
    ∃ t, exec (.start c) s = .next t ∧ StartDone s t c c.part.toNat :=
  ⟨_, exec_start a here b, startDone_close (startPart_ends (accepted s c) c.part.toNat).epoch
    ⟨_, _, _, part_startPart (accepted s c) c.part.toNat⟩ startPart_notifies⟩

/-- The tiers on which a LOAD writes, where its bytes are all there. -/
theorem loads_tiers {s : State} {c : Cmd} (a : Accepted s 4 c) (here : ∃ pt, (c.part.toNat, pt) ∈ s.parts) (wf : s.mem.wf) (e : NoErrors s)
    (long : 16 ≤ c.body.length) (zero : bodyNat c.body 1 7 = 0) :
    let dies := (s.part c.part.toNat).dies
    let at_ := bodyNat c.body 8 8
    let n := c.body.length - 16
    (bodyNat c.body 0 1 = 0 → at_ + n ≤ hbmSize dies → Loads s c ((List.range n).map fun i => hbmKey dies (at_ + i)))
      ∧ (bodyNat c.body 0 1 = 1 → at_ + n ≤ sadSize dies → ¬PortLost s c.part.toNat at_ n →
          Loads s c ((List.range n).map fun i => sadKey dies (at_ + i))) :=
  ⟨fun hbm fits => loads_of_loadKeys a here wf e (loadKeys_hbm long zero hbm fits),
    fun saddlebag fits ports => loads_of_loadKeys a here wf e (loadKeys_saddlebag long zero saddlebag fits ports)⟩

theorem partitionCommandsHaveTheirEffect : PartitionCommandsHaveTheirEffect := by
  intro s c p b here malformed
  refine ⟨fun a => ⟨fun bad => ?_, fun ok small busy => ?_, fun ok small new => ?_, fun ok small free => ?_⟩,
    fun a exists_ wf clean => ⟨fun bad => ?_, loads_tiers a exists_ wf clean⟩,
    fun a exists_ => ⟨startDone a exists_, fun body => ?_⟩,
    fun a exists_ => ⟨stop_ready a exists_, stop_waits a exists_, fun body => ?_⟩,
    fun rest due _ waiting exists_ body marked => step_stop due waiting exists_ body marked, fun absent => ?_⟩
  · exact answers_malformed a rfl trivial (formPart_malformed bad)
  · exact answers_malformed a rfl trivial (formPart_busy ok small busy)
  · exact answers_partition_new a ok small new
  · exact partition_dissolves a ok small free
  · exact answers_load_malformed a (.inr (loadKeys_malformed bad))
  · exact answers_start_malformed a (.inr body)
  · exact answers_stop_malformed a (.inr body)
  · intro e he a
    simp only [List.mem_cons, List.not_mem_nil, or_false] at he
    rcases he with rfl | rfl | rfl
    · exact answers_load_malformed a (.inl absent)
    · exact answers_start_malformed a (.inl absent)
    · exact answers_stop_malformed a (.inl absent)

/-- Settles O60: an accepted command runs at once what its order says, and each order's run is followed through the frame of the
scheduler's work (`Schedules`, `Ends`, `Dissolves`). -/
theorem acceptedCommandsHaveTheirEffect : Obligations.AcceptedCommandsHaveTheirEffect :=
  ⟨partitionCommandsHaveTheirEffect, moduleCommandsHaveTheirEffect⟩

end Sys2Proof.Proofs
end
